-- ==== Sys2Proof/Word.lean ====
section
/-!
DEFINITION. The word types of Bexlum (R4, R5, R8): 64-bit registers and addresses, bytes of memory,
and the 128-byte lines of global memory (R113) as lists of bytes, lowest address first.
-/

namespace Sys2Proof

/-- A 64-bit register value or address. -/
abbrev Word := BitVec 64

/-- One byte of memory. -/
abbrev Byte := BitVec 8

/-- The bytes of one 128-byte line, or of a part of it; the byte at the lowest address comes first (R5). -/
abbrev Line := List Byte

end Sys2Proof
end

