-- ==== Sys2Proof/Machine/Bits.lean ====
section
/-!
DEFINITION. Bit fields, byte order and bit counts that several operations share (R4, R5).
-/

namespace Sys2Proof.Machine

open Sys2Proof

/-- Bits lo + n − 1 to lo of a number. -/
def bits (w : Nat) (lo n : Nat) : Nat := w / 2 ^ lo % 2 ^ n

/-- The number a list of bytes holds, the first byte lowest (R5). -/
def natOfBytes : List Byte → Nat
  | [] => 0
  | b :: bs => b.toNat + 256 * natOfBytes bs

/-- The n low bytes of a number, the lowest first (R5). -/
def bytesOf (w : Nat) : Nat → List Byte
  | 0 => []
  | n + 1 => BitVec.ofNat 8 w :: bytesOf (w / 256) n

/-- The n-byte number of a list of bytes at an offset. -/
def fieldAt (bs : List Byte) (off n : Nat) : Nat := natOfBytes ((bs.drop off).take n)

/-- A list of bytes with others written over it from an offset on. -/
def patch (bs : List Byte) (off : Nat) (new : List Byte) : List Byte :=
  bs.take off ++ new.take (bs.length - off) ++ bs.drop (off + new.length)

/-- The low n bits of a number, read as a two's-complement integer. -/
def signedOf (n : Nat) (w : Nat) : Int :=
  if w % 2 ^ n < 2 ^ (n - 1) then (w % 2 ^ n : Nat) else (w % 2 ^ n : Nat) - (2 ^ n : Nat)

/-- The low n bits of an integer. -/
def natOfInt (n : Nat) (i : Int) : Nat := (i % (2 ^ n : Nat)).toNat

/-- The low n bits of w, zero-extended and sign-extended to 64 (R4). -/
def zext (n : Nat) (w : Nat) : Word := BitVec.ofNat 64 (w % 2 ^ n)
def sext (n : Nat) (w : Nat) : Word := BitVec.ofInt 64 (signedOf n w)

/-- The low 32 bits, sign-extended: what the .w forms write. -/
def sext32 (v : Word) : Word := (v.setWidth 32).signExtend 64

/-- The number of bits of n up to the highest one, for n below 2 to `fuel`. -/
def bitLen : (fuel : Nat) → Nat → Nat
  | 0, _ => 0
  | fuel + 1, n => if n = 0 then 0 else bitLen fuel (n / 2) + 1

/-- One bits among the low `k` bits. -/
def popCount : (k : Nat) → Nat → Nat
  | 0, _ => 0
  | k + 1, n => n % 2 + popCount k (n / 2)

/-- Zero bits below the lowest one bit, among the low `k` bits. -/
def trailingZeros : (k : Nat) → Nat → Nat
  | 0, _ => 0
  | k + 1, n => if n % 2 = 1 then 0 else trailingZeros k (n / 2) + 1

/-- A truth value as a register value. -/
def ofBool (b : Bool) : Word := if b then 1 else 0

/-- The larger of two times. -/
def maxW (a b : Word) : Word := if a ≤ b then b else a

/-- A word with bits lo + n − 1 to lo replaced by v. -/
def setBits (w : Word) (lo n : Nat) (v : Nat) : Word :=
  BitVec.ofNat 64 (w.toNat - bits w.toNat lo n * 2 ^ lo + v % 2 ^ n * 2 ^ lo)

/-- The range test of two byte ranges. -/
def overlaps (a n b m : Nat) : Bool := a < b + m && b < a + n

end Sys2Proof.Machine
end

