-- ==== Sys2Proof/Config.lean ====
section
/-!
DEFINITION. What the spec fixes for the device as a number, and the free values: constants without a body, of which
nothing can be proved. Each free value names its entry of the assumption log.
-/

namespace Sys2Proof

/-- The named settings of the expert register set (R314, R373): what the spec says they are. Their indices belong to
Hexley firmware (R314), so `Config.expertIndex` is free. -/
inductive ExpertReg where
  | feretry | engwd | slice | courierThreshold | lease
  | gqos (guest : BitVec 8)
  | frdbase (n : BitVec 6) | frdlim (n : BitVec 6) | frsbase (n : BitVec 6) | frscale (n : BitVec 6) | frctl (n : BitVec 6)
  | snapctl | snapat
  | pexp                                  -- firmware's setting of R269
  | basic (fn : Nat)                      -- the basic register of a function: 0 the physical one, 1 + g that of guest g
  deriving DecidableEq, Repr

namespace Config

/-- Lodges on the round (R265). -/
def lodges : Nat := 64
/-- Tiles of a lodge (R265). -/
def tilesPerLodge : Nat := 64
/-- Tiles of the device (R2). -/
def tiles : Nat := 4096
/-- Cores of a tile, and slots of a core (R2). -/
def coresPerTile : Nat := 16
def slotsPerCore : Nat := 16
/-- Bytes of a slot's allotment of local store (R101). -/
def localBytes : Nat := 512
/-- Bytes of a tile's stash (R103). -/
def stashBytes : Nat := 131072
/-- Bytes of home memory: eight stacks of 2^36 (R113). -/
def homeBytes : Nat := 2 ^ 39
/-- Entries of a tile's park table (R185). -/
def parkEntries : Nat := 64
/-- Entries of the matrix queue (R220) and of the copy queue (R232). -/
def matrixQueue : Nat := 16
def copyQueue : Nat := 32
/-- Copy commands that run at once (R233). -/
def copyRunning : Nat := 4
/-- Bindings of a slot (R177). -/
def bindings : Nat := 8
/-- Barrier records of a slot (R256). -/
def barrierRecords : Nat := 4
/-- Resident set-aside frames of a slot (R78). -/
def setAsideFrames : Nat := 3
/-- Entries of a core's micro-TLB and of the tile TLB (R118). -/
def microTlb : Nat := 16
def tileTlb : Nat := 512
def tileTlbWays : Nat := 8
/-- Lines of the constant cache: 32 KiB (R111). -/
def constLines : Nat := 256
/-- Ways of a set of a core's L1 and of an L2 slice (R114). -/
def l1Ways : Nat := 4
def l2Ways : Nat := 16
/-- Queues that the guests share (R350); those numbered from here on are the Hexley complex's own (R305; DESIGN CHOICE, log entry 61). -/
def hostQueues : Nat := 4096
/-- Armed records of the device and of one guest (R334). -/
def armedDevice : Nat := 64
def armedGuest : Nat := 8
/-- Peer ports (R2, R342). -/
def peerPorts : Nat := 12
/-- Lines of a memory-side die's last-level cache: 256 MiB (R2). -/
def llcLines : Nat := 2 ^ 21
/-- The bound of a changeover pause in cycles (R270). -/
def pauseBound : Nat := 16384
/-- PREDRAIN begins this many cycles before the instant (R270). -/
def predrainCycles : Nat := 65536

/-! Nominal latencies (R40, R41, R323), in cycles. -/

def latTileTlb : Nat := 16
def latWalk : Nat := 420
def latL2 : Nat := 48
/-- From issue to arrival at a home, and from the home back to the core (R41). -/
def latHome : Nat := 100
/-- What an HBM read adds to a home load's answer: 420 in place of 200 (R40). -/
def latHbmExtra : Nat := 220
def latTile : Nat := 24
def latHop : Nat := 2
def latPeerGlobal : Nat := 1200
def latPeerStash : Nat := 2400
def latRdv : Nat := 8
def latFrameFill : Nat := 16
/-- The limit of an unanswered peer request (R341), and the interval of holding notices (R340). -/
def peerLimit : Nat := 2100000
def holdingInterval : Nat := 1050000
/-- The leader's wait for READY and a device's wait for COMMIT (R336). -/
def readyLimit : Nat := 105000
def commitLimit : Nat := 2100000
/-- The straggler bound beyond Tp + D (R326). -/
def stragglerSlack : Nat := 4200

/-! ## Free values

Each is read at a counter of the state (`State.fresh`), so that two readings are unrelated. -/

/-- DESIGN CHOICE (log entry 2): cycles that contention adds to a message's nominal delay (R10, R41). -/
opaque contention : Nat → Nat
/-- DESIGN CHOICE (log entry 8): which of the ways that a fill may take it takes (R114, R282). -/
opaque victim : Nat → Nat
/-- DESIGN CHOICE (log entry 15): whether the send queue has no free entry at this issue (R26). -/
opaque sendFull : Nat → Bool
/-- DESIGN CHOICE (log entry 15): whether a home cannot record an arm (R191). -/
opaque armFull : Nat → Bool
/-- DESIGN CHOICE (log entry 7): firmware's round table (R267): the place of the k-th lodge of the round on the mesh, as its die × 16 + its
position among the die's 4 × 4 lodges. `roundPlace` (Machine/Ops.lean) reads it where it is a circuit as R267 defines one. -/
opaque roundTable : Nat → Nat
/-- DESIGN CHOICE (log entry 78): the two compute dies that a memory-side die links to (R2), and the number that R342's hash gives a device and a
line, by which one of the ports cabled to the device is chosen. -/
opaque memoryLinks : Nat → Nat × Nat
opaque portHash : Nat → Nat → Nat
/-- DESIGN CHOICE (log entry 19): cycles of a tile's PACK and UNPACK (R270), before their bounds are applied. -/
opaque packCycles : Nat → Nat
opaque unpackCycles : Nat → Nat
/-- DESIGN CHOICE (log entry 19): the bytes of a tile's own state in use in its image (R271), by the turn and the tile. -/
opaque tileImage : Nat → Nat → Nat
/-- DESIGN CHOICE (log entry 20): which word of a constant window written during the launch an LDC returns (R112). -/
opaque ldcOld : Nat → Bool
/-- DESIGN CHOICE (log entry 13): the expert register that an index names within a block (R314): block 0 is the tile, 1 to 8 the dies. -/
opaque expertIndex : Nat → Nat → Option ExpertReg
/-- DESIGN CHOICE (log entry 13): the value that a preset of a function's basic register gives an expert setting it covers (R373). -/
opaque presetValue : Nat → Word → ExpertReg → Option Word
/-- DESIGN CHOICE (log entry 14): the SHA-512 digest (R367, R368). -/
opaque sha512 : List Byte → List Byte
/-- DESIGN CHOICE (log entry 14): the digest of the public key that is fused into the device; whether an ECDSA P-521 signature with a key over a
digest, which an image carries, verifies; and the key for the next stage that an image carries (R367). -/
opaque fusedKey : List Byte
opaque signatureValid : List Byte → List Byte → List Byte → Bool
opaque keyIn : List Byte → List Byte
/-- DESIGN CHOICE (log entry 14): the front desk's signature over a report's digest, r then s (R368). -/
opaque sign : List Byte → List Byte
/-- DESIGN CHOICE (log entry 21): what firmware does about the part of a request the spec leaves to it (R370, R375). -/
opaque firmwareGrants : Nat → Bool
/-- DESIGN CHOICE (log entry 23): a word of an accumulator that an uncorrectable error has spoilt (R297). -/
opaque lostWord : Nat → BitVec 32
/-- DESIGN CHOICE (log entry 22): a word of what a block's snapshot registers latch (R371, R372). -/
opaque snapshotOf : Nat → Nat → Nat → Word

end Config
end Sys2Proof
end

