-- ==== Sys2Proof/Syntax.lean ====
section
/-!
DEFINITION. The syntax of the machine's steps: one constructor of `Instr` for every row of the opcode table. The first 232
are instruction words (R51, R52); the other 119 are the device's own events, which have no operand fields: what an event is about
(what a message carries, which thread or tile it concerns) stands in the state (`Machine/Event.lean`, log entry 3).
-/

namespace Sys2Proof

/-- A register operand (R14): a private register or a shared one. -/
inductive Reg where
  | x (n : BitVec 5)
  | k (n : BitVec 5)
  deriving DecidableEq, Repr

/-- Scope codes 0 to 5 (R53). -/
inductive Scope where
  | slot | core | tile | party | dev | convoy
  deriving DecidableEq, Repr

/-- Rounding codes 0 to 4 (R53). -/
inductive Rm where
  | rne | rtz | rdn | rup | rna
  deriving DecidableEq, Repr

/-- Format codes 0 to 13 (R53). -/
inductive Fmt where
  | l4 | l6 | l8 | l12 | f8n | f8w | h16 | bf16 | f32 | s4 | s8 | s16 | s32 | s64
  deriving DecidableEq, Repr

/-- The register floating-point format bit x[3] (R237). -/
inductive Fp where
  | f32 | h16
  deriving DecidableEq, Repr

/-- Packed lanes x[1:0] (R241). -/
inductive Lanes where
  | b | h | w | l6
  deriving DecidableEq, Repr

/-- The width bit x[0] of atomics and gather reductions (R136, R140). -/
inductive Width where
  | w | d
  deriving DecidableEq, Repr

/-- The field of RSELF (R92). -/
inductive SelfField where
  | all | slot | core | tile | lodge
  deriving DecidableEq, Repr

/-- The named system registers (R307). -/
inductive SysReg where
  | self | loads | party | clk | wall | chg | gen | lts | rfs | stag | stashm | tctl
  | epc | trapc | taddr | tvec | monst | feaddr | fedata | efaddr | efinfo
  | issued | waited | fused | couriers | fwdnotes | xsel | xdata
  deriving DecidableEq, Repr

/-- A command guard (R49): none, or the guard slot named. -/
abbrev Gd := Option (BitVec 3)

/-- Atomic operations (R137). -/
inductive AmoOp where
  | add | and | or | xor | min | max | minu | maxu | swap | cas | fadd
  deriving DecidableEq, Repr

/-- Gather reductions (R140). -/
inductive GredOp where
  | add | min | max | minu | maxu | fadd
  deriving DecidableEq, Repr

/-! ## The steps -/

/-- Every step of the machine (the opcode table's rows, in its order). -/
inductive Instr where
  -- majors 0x00 and 0x01 (R60, R61)
  | add (d a b : Reg) | sub (d a b : Reg) | and (d a b : Reg) | or (d a b : Reg) | xor (d a b : Reg)
  | andn (d a b : Reg) | orn (d a b : Reg) | xnor (d a b : Reg) | addW (d a b : Reg) | subW (d a b : Reg)
  | adds (d a b : Reg) | subs (d a b : Reg) | min (d a b : Reg) | max (d a b : Reg) | minu (d a b : Reg) | maxu (d a b : Reg)
  | addi (d a : Reg) (i : BitVec 10) | andi (d a : Reg) (i : BitVec 10) | ori (d a : Reg) (i : BitVec 10)
  | xori (d a : Reg) (i : BitVec 10) | addiW (d a : Reg) (i : BitVec 10) | slti (d a : Reg) (i : BitVec 10)
  | sltiu (d a : Reg) (i : BitVec 10)
  -- major 0x02 (R62 to R64)
  | sll (d a b : Reg) | srl (d a b : Reg) | sra (d a b : Reg) | rol (d a b : Reg) | ror (d a b : Reg)
  | sllW (d a b : Reg) | srlW (d a b : Reg) | sraW (d a b : Reg)
  | slli (d a : Reg) (n : BitVec 6) | srli (d a : Reg) (n : BitVec 6) | srai (d a : Reg) (n : BitVec 6) | rori (d a : Reg) (n : BitVec 6)
  | bext (d a b : Reg) | bexts (d a b : Reg) | bins (d a b : Reg)
  | clz (d a : Reg) | ctz (d a : Reg) | popc (d a : Reg) | rev8 (d a : Reg)
  -- major 0x03 (R65)
  | slt (d a b : Reg) | sltu (d a b : Reg) | seq (d a b : Reg) | sne (d a b : Reg) | sle (d a b : Reg) | sleu (d a b : Reg)
  | sel (d a b : Reg) (q : BitVec 3)
  -- major 0x04 (R67 to R69)
  | mul (d a b : Reg) | mulh (d a b : Reg) | mulhu (d a b : Reg) | mulhsu (d a b : Reg) | mulW (d a b : Reg)
  | div (d a b : Reg) | divu (d a b : Reg) | rem (d a b : Reg) | remu (d a b : Reg) | divW (d a b : Reg) | remW (d a b : Reg)
  -- major 0x05 (R54)
  | lui (d : Reg) (i : BitVec 19) | adr (d : Reg) (i : BitVec 19)
  -- major 0x06 (R71)
  | beq (a b : Reg) (o : BitVec 10) | bne (a b : Reg) (o : BitVec 10) | blt (a b : Reg) (o : BitVec 10)
  | bge (a b : Reg) (o : BitVec 10) | bltu (a b : Reg) (o : BitVec 10) | bgeu (a b : Reg) (o : BitVec 10)
  | bq (q : BitVec 3) (o : BitVec 10) | bnq (q : BitVec 3) (o : BitVec 10)
  -- major 0x07 (R55)
  | j (o : BitVec 24) | call (o : BitVec 24) | jr (a : Reg) (i : BitVec 10) | callr (a : Reg) (i : BitVec 10)
  -- major 0x08 (R73, R77)
  | loop (a : Reg) (i : BitVec 10) | rfpush | rfpop
  -- major 0x09 (R81 to R92)
  | spawn (a b : Reg) | reap (d a : Reg) | rdv (a : BitVec 5) (q : BitVec 3) | rdvInitReg (a : BitVec 5) (b : Reg)
  | rdvInitImm (a : BitVec 5) (i : BitVec 10) | yield | prept | pin | unpin | rself (x : SelfField) (d : Reg)
  -- majors 0x0A to 0x0C (R93, R94, R124, R125)
  | ldB (d a : Reg) (i : BitVec 10) | ldBz (d a : Reg) (i : BitVec 10) | ldH (d a : Reg) (i : BitVec 10)
  | ldHz (d a : Reg) (i : BitVec 10) | ldW (d a : Reg) (i : BitVec 10) | ldWz (d a : Reg) (i : BitVec 10) | ldD (d a : Reg) (i : BitVec 10)
  | stB (d a : Reg) (i : BitVec 10) | stH (d a : Reg) (i : BitVec 10) | stW (d a : Reg) (i : BitVec 10) | stD (d a : Reg) (i : BitVec 10)
  | ldxB (d a b : Reg) | ldxBz (d a b : Reg) | ldxH (d a b : Reg) | ldxHz (d a b : Reg) | ldxW (d a b : Reg) | ldxWz (d a b : Reg)
  | ldxD (d a b : Reg) | stxB (d a b : Reg) | stxH (d a b : Reg) | stxW (d a b : Reg) | stxD (d a b : Reg)
  | ldcW (d a : Reg) (i : BitVec 10) | ldcWz (d a : Reg) (i : BitVec 10) | ldcD (d a : Reg) (i : BitVec 10)
  -- major 0x0D (R130 to R133)
  | smap (d a b : Reg) | sunmap (a : Reg) | slock (d a b : Reg) | sunlock (a b : Reg) | swb (a b : Reg)
  -- majors 0x0E and 0x0F (R136 to R141)
  | amoAdd (w : Width) (d a b : Reg) | amoAnd (w : Width) (d a b : Reg) | amoOr (w : Width) (d a b : Reg) | amoXor (w : Width) (d a b : Reg)
  | amoMin (w : Width) (d a b : Reg) | amoMax (w : Width) (d a b : Reg) | amoMinu (w : Width) (d a b : Reg) | amoMaxu (w : Width) (d a b : Reg)
  | amoSwap (w : Width) (d a b : Reg) | amoCas (w : Width) (d a b : Reg) | amoFadd (d a b : Reg)
  | gredAdd (w : Width) (d a b : Reg) | gredMin (w : Width) (d a b : Reg) | gredMax (w : Width) (d a b : Reg)
  | gredMinu (w : Width) (d a b : Reg) | gredMaxu (w : Width) (d a b : Reg) | gredFadd (d a b : Reg)
  -- majors 0x10 to 0x12 (R174 to R195)
  | fence (s : Scope) | acq (s : Scope) (a : Reg) | rel (s : Scope) (a : Reg)
  | bind (a b d : Reg) | unbind (a b : Reg) | waitack (a : Reg)
  | ldf (d a : Reg) (i : BitVec 10) | stf (d a : Reg) (i : BitVec 10) | ldfn (d a : Reg) (q : BitVec 3) | stfn (a b : Reg) (q : BitVec 3)
  | feclr (a : Reg) (i : BitVec 10) | feset (a : Reg) (i : BitVec 10)
  | mon (a : Reg) (m : BitVec 2) | monclr (l : Bool) (m : BitVec 2) | mwait (a : Reg) | sleep (a : Reg)
  -- major 0x13 (R255 to R259)
  | binit (a b : Reg) | bexpect (a b : Reg) | barrive (a b : Reg) | bwait (dl : Bool) (a : Reg) | btest (d a : Reg)
  -- majors 0x14 and 0x15 (R245, R196)
  | xset (e : BitVec 4) (a : Reg) | xmov (d : Reg) (e : BitVec 4) | xld (e : BitVec 4) (a : Reg) (i : BitVec 10) | xst (e : BitVec 4) (a : Reg) (i : BitVec 10)
  | qset (q : BitVec 3) (a : Reg) | qclr (q : BitVec 3) | qtest (d : Reg) (q : BitVec 3)
  -- majors 0x16 and 0x17 (R238, R240)
  | fadd (p : Fp) (r : Rm) (d a b : Reg) | fsub (p : Fp) (r : Rm) (d a b : Reg) | fmul (p : Fp) (r : Rm) (d a b : Reg)
  | fdiv (p : Fp) (r : Rm) (d a b : Reg) | fsqrt (p : Fp) (r : Rm) (d a : Reg)
  | fmin (p : Fp) (d a b : Reg) | fmax (p : Fp) (d a b : Reg) | feq (p : Fp) (d a b : Reg) | flt (p : Fp) (d a b : Reg)
  | fle (p : Fp) (d a b : Reg) | fclass (p : Fp) (d a : Reg)
  | fmadd (p : Fp) (r : Rm) (d a b : Reg) | fmsub (p : Fp) (r : Rm) (d a b : Reg) | fnmadd (p : Fp) (r : Rm) (d a b : Reg) | fnmsub (p : Fp) (r : Rm) (d a b : Reg)
  -- majors 0x18 and 0x19 (R241 to R243)
  | padd (l : Lanes) (d a b : Reg) | psub (l : Lanes) (d a b : Reg) | padds (u : Bool) (l : Lanes) (d a b : Reg) | psubs (u : Bool) (l : Lanes) (d a b : Reg)
  | pmin (u : Bool) (l : Lanes) (d a b : Reg) | pmax (u : Bool) (l : Lanes) (d a b : Reg) | pmul (l : Lanes) (d a b : Reg) | pcmpeq (l : Lanes) (d a b : Reg)
  | pcmpgt (u : Bool) (l : Lanes) (d a b : Reg)
  | cvt (dst src : Fmt) (r : Rm) (d a : Reg)
  -- majors 0x1A and 0x1B (R247, R254); l is a latch pair, n an accumulator
  | mstagea (g : Gd) (l : Bool) (a b : Reg) | mstageb (g : Gd) (l : Bool) (a b : Reg) | mma (g : Gd) (f : Fmt) (n l : Bool)
  | mflush (g : Gd) (n : Bool) (a : Reg) | mflushSum (g : Gd) (n : Bool) (a b : Reg) | mclr (g : Gd) (n : Bool) | accdecl (g : Gd) (a b : Reg)
  | cpy (g : Gd) | cpyFill (g : Gd) (a : Reg) | cpfree (d : Reg)
  -- majors 0x1C and 0x1D (R304, R345)
  | mfs (d : Reg) (r : SysReg) | mts (r : SysReg) (a : Reg) | trap (i : BitVec 10) | eret | halt
  | genbump (a : Reg) | tlbinv (a b : Reg) | tlbinvall | cwb (a : Reg) | cinv (a : Reg)
  | cvstat (d : Reg) | waitwall (a : Reg) | cvarm (a : Reg) | cvdisarm (a : Reg)
  -- 16-bit words (R51, R95)
  | mov16 (d s : BitVec 4) | add16 (d s : BitVec 4) | addi16 (d : BitVec 4) (i : BitVec 7) | sub16 (d s : BitVec 4) | and16 (d s : BitVec 4)
  | or16 (d s : BitVec 4) | xor16 (d s : BitVec 4) | slli16 (d : BitVec 4) (n : BitVec 5) | srli16 (d : BitVec 4) (n : BitVec 5)
  | srai16 (d : BitVec 4) (n : BitVec 5) | ldD16 (d : BitVec 4) (i : BitVec 7) | stD16 (d : BitVec 4) (i : BitVec 7)
  | beqz16 (d : BitVec 4) (o : BitVec 7) | bnez16 (d : BitVec 4) (o : BitVec 7) | j16 (o : BitVec 11) | slt16 (d s : BitVec 4) | sltu16 (d s : BitVec 4)
  | nop16 | yield16 | prept16 | ret16
  -- events of threads and cores
  | frameSpill | frameFill | rdvPhaseCompletion | gatherReductionComplete | publication | remoteStashAccess | parkTableRefusal
  | feResend | withdrawal | armRequest | monitorSignal | mwaitTimeout | interrupt | sleepExpiry | deadlineLate
  -- events of sum mode and the engines
  | declarationAtHome | sumPartArrival | mergeFailure | matrixDispatch | stageAComplete | stageBComplete | mmaComplete
  | mclrComplete | flushReadoutComplete | matrixContextSwitch | engineFault | groupWatchdog | copyStart | copyFinish
  | xdataWrite | wallReached
  -- events of memory
  | loadReply | sendQueueFree | translationInstalled | storeAck | atomicReply | homeLoad | homeStore | homeAtomic
  | postedRefusal | stashFill | stashWriteBack | dropMessage | recallHolder | recallAnswer | forwardedLoad | faultServiceEnd
  | pageMigration | redirect | tlbShootdown
  -- events of launches and couriers
  | unitPlacement | launchCompletion | cancel | distanceOverrun | courierSend | courierArrival
  -- events of the round
  | predrain | stop | pack | ship | unpack | resume | changeoverPostponement | forwardingNote | heldMessage
  -- events of sharing
  | sliceEnd | scrubPass | wayDivision | tokenRefill
  -- events of errors and repair
  | uncorrectableError | correctedError | leakTick | retirement | linkWake | dieDead | dieReset | contextSave | contextRestore
  -- events of convoys and the pod
  | recordFire | convoyStop | stopCompletion | convoyResume | stragglerDeadline | ready | commit | abandon | readyTimeout
  | commitTimeout | syncFrame | holdoverEntry | podChangeoverInstant | changeoverInstant | peerRequest | peerFaultService
  | holdingNotice | peerTimeout | guestSave | guestRestore
  -- events of the host and the firmware
  | queueRecord | qtailWrite | qstatWrite | hostWrite | boot | attestationRequest | thermalTrip | powerGate | frctlWrite
  | gqosWrite | snapctlWrite | snapshotFire | basicRegisterWrite | expertRegisterWrite | unassignedEncoding | reservationRequest
  | reservationEnd | guestCreation | peerTableInstall | linkAwake | acknowledgementWait
  deriving DecidableEq, Repr

end Sys2Proof
end

