-- ==== Sys2Proof/Machine/Formats.lean ====
section
/-!
DEFINITION. The number formats of chapter 14: values, rounding (R205, R212), conversions (R211), register floating point
(R238 to R240), format regions (R213 to R215), and the exact products and sums of the matrix unit and the near-cache
adders (R216 to R219).
-/

namespace Sys2Proof.Machine

open Sys2Proof

/-! ## Values -/

/-- A number m × 2^e, without a sign of zero. -/
structure Dyadic where
  m : Int
  e : Int
  deriving DecidableEq, Repr

def Dyadic.scale (a : Dyadic) (e : Int) : Int := a.m * (2 : Int) ^ (a.e - e).toNat
def Dyadic.add (a b : Dyadic) : Dyadic :=
  let e := min a.e b.e
  { m := a.scale e + b.scale e, e := e }
def Dyadic.mul (a b : Dyadic) : Dyadic := { m := a.m * b.m, e := a.e + b.e }
def Dyadic.lt (a b : Dyadic) : Bool := let e := min a.e b.e; a.scale e < b.scale e
def Dyadic.eq (a b : Dyadic) : Bool := let e := min a.e b.e; a.scale e == b.scale e

/-- A value of a format: a NaN, an infinity, or a magnitude m × 2^e with its sign (zero keeps a sign). -/
inductive Num where
  | nan
  | inf (neg : Bool)
  | fin (neg : Bool) (m : Nat) (e : Int)
  deriving DecidableEq, Repr

def Num.dyadic : Num → Dyadic
  | .fin neg m e => { m := if neg then -(m : Int) else m, e := e }
  | _ => { m := 0, e := 0 }

/-- The exact number as a value; a zero takes the sign given. -/
def Num.ofDyadic (d : Dyadic) (zeroNeg : Bool) : Num :=
  if d.m = 0 then .fin zeroNeg 0 0 else .fin (d.m < 0) d.m.natAbs d.e

/-! ## The formats -/

/-- Width in bits (R204). -/
def fmtBits : Fmt → Nat
  | .l4 => 4 | .l6 => 6 | .l8 => 8 | .l12 => 12 | .f8n => 8 | .f8w => 8 | .h16 => 16 | .bf16 => 16 | .f32 => 32
  | .s4 => 4 | .s8 => 8 | .s16 => 16 | .s32 => 32 | .s64 => 64

/-- The fraction bits f of an L format's logarithm (R208); none for the others. -/
def fmtLog : Fmt → Option Nat
  | .l4 => some 1 | .l6 => some 2 | .l8 => some 3 | .l12 => some 5 | _ => none

/-- Exponent and mantissa bits of an F format (R206, R207); none for the others. -/
def fmtFloat : Fmt → Option (Nat × Nat)
  | .f8n => some (4, 3) | .f8w => some (5, 2) | .h16 => some (5, 10) | .bf16 => some (8, 7) | .f32 => some (8, 23) | _ => none

/-- T_5 (R209): the integer nearest to 2^(15 + j/32). -/
def table5 : List Nat :=
  [32768, 33486, 34219, 34968, 35734, 36516, 37316, 38133, 38968, 39821, 40693, 41584, 42495, 43425, 44376, 45348,
   46341, 47356, 48393, 49452, 50535, 51642, 52773, 53928, 55109, 56316, 57549, 58809, 60097, 61413, 62757, 64132]

/-- T_f[j]: the tables nest (R209). -/
def logTable (f j : Nat) : Nat := (table5[j * 2 ^ (5 - f)]?).getD 0

/-- The value of a logarithm in steps of 2^−f (R208, R216). -/
def logValue (f : Nat) (log : Int) : Nat × Int :=
  (logTable f (log % (2 ^ f : Nat)).toNat, log / (2 ^ f : Nat) - 15)

/-- The logarithm of an L code of n bits. -/
def logOf (n code : Nat) : Int := signedOf (n - 1) code
/-- The most negative logarithm, which is special (R208). -/
def logMin (n : Nat) : Int := -(2 ^ (n - 2) : Nat)
def logMax (n : Nat) : Int := (2 ^ (n - 2) : Nat) - 1
def logSign (n code : Nat) : Bool := code / 2 ^ (n - 1) % 2 = 1
def logCode (n : Nat) (neg : Bool) (log : Int) : Nat := (if neg then 2 ^ (n - 1) else 0) + natOfInt (n - 1) log
/-- The zero code and the NaN code (R208). -/
def logZero (n : Nat) : Nat := 2 ^ (n - 2)
def logNan (n : Nat) : Nat := 2 ^ (n - 1) + 2 ^ (n - 2)

/-- The value of an F code with eb exponent bits and mb mantissa bits (R206, R207). -/
def floatValue (f8n : Bool) (eb mb code : Nat) : Num :=
  let neg := code / 2 ^ (eb + mb) % 2 = 1
  let ex := code / 2 ^ mb % 2 ^ eb
  let man := code % 2 ^ mb
  let bias : Int := (2 ^ (eb - 1) : Nat) - 1
  if f8n then
    if ex = 15 ∧ man = 7 then .nan
    else if ex = 0 then .fin neg man (1 - bias - mb) else .fin neg (man + 2 ^ mb) (ex - bias - mb)
  else if ex = 2 ^ eb - 1 then (if man = 0 then .inf neg else .nan)
  else if ex = 0 then .fin neg man (1 - bias - mb) else .fin neg (man + 2 ^ mb) (ex - bias - mb)

/-- The value of a code (R206 to R210); bits above the format's width are ignored. -/
def decodeNum (f : Fmt) (w : Nat) : Num :=
  let n := fmtBits f
  let code := w % 2 ^ n
  match fmtLog f, fmtFloat f with
  | some fr, _ =>
    if logOf n code = logMin n then (if logSign n code then .nan else .fin false 0 0)
    else let v := logValue fr (logOf n code); .fin (logSign n code) v.1 v.2
  | none, some (eb, mb) => floatValue (f == .f8n) eb mb code
  | none, none => let i := signedOf n code; .fin (i < 0) i.natAbs 0

/-! ## Rounding -/

/-- Whether the magnitude goes up, away from zero (R205): `rest` and `half` are what is left of the magnitude above its lower
neighbour and half the gap to the upper one, on one scale; `loEven` says that the lower neighbour's code has bit 0 clear. -/
def roundUp (r : Rm) (neg : Bool) (rest half : Int) (loEven : Bool) : Bool :=
  if rest = 0 then false
  else match r with
    | .rne => half < rest || (rest = half && !loEven)
    | .rna => half ≤ rest
    | .rtz => false
    | .rdn => neg
    | .rup => !neg

/-- m × 2^e rounded to a whole multiple of 2^q: the multiple. -/
def roundInt (r : Rm) (neg : Bool) (m : Nat) (e q : Int) : Nat :=
  if q ≤ e then m * 2 ^ (e - q).toNat
  else
    let s := (q - e).toNat
    let n := m / 2 ^ s
    n + (if roundUp r neg (2 * (m % 2 ^ s : Nat)) (2 ^ s : Nat) (n % 2 = 0) then 1 else 0)

/-- The position of the highest one bit. -/
def msb (m : Nat) : Nat := Nat.log2 m

/-- A magnitude in an F format, without its sign (R205, R212): the code with unbounded exponent, as biased exponent and mantissa
in one number. -/
def roundFloat (eb mb : Nat) (r : Rm) (neg : Bool) (m : Nat) (e : Int) : Nat :=
  if m = 0 then 0
  else
    let bias : Int := (2 ^ (eb - 1) : Nat) - 1
    let qmin : Int := 1 - bias - mb
    let q := max qmin (e + msb m - mb)
    (q - qmin).toNat * 2 ^ mb + roundInt r neg m e q

/-- The code of a magnitude that overflows an IEEE format (R212). -/
def overflowCode (eb mb : Nat) (r : Rm) (neg : Bool) : Nat :=
  let inf := (2 ^ eb - 1) * 2 ^ mb
  match r with
  | .rne => inf
  | .rna => inf
  | .rtz => inf - 1
  | .rdn => if neg then inf else inf - 1
  | .rup => if neg then inf - 1 else inf

/-- The quiet NaN of an F format (R212). -/
def quietNan : Fmt → Nat
  | .f8n => 0x7F | .f8w => 0x7E | .h16 => 0x7E00 | .bf16 => 0x7FC0 | .f32 => 0x7FC00000 | _ => 0

/-- A value encoded into an F format (R205, R212). -/
def encodeFloat (f : Fmt) (eb mb : Nat) (r : Rm) (v : Num) : Nat :=
  let sign := fun neg => if neg then 2 ^ (eb + mb) else 0
  match v with
  | .nan => quietNan f
  | .inf neg => sign neg + (if f == .f8n then 0x7E else (2 ^ eb - 1) * 2 ^ mb)
  | .fin neg m e =>
    let c := roundFloat eb mb r neg m e
    sign neg +
      (if f == .f8n then (if 0x7F ≤ c then 0x7E else c)
       else if (2 ^ eb - 1) * 2 ^ mb ≤ c then overflowCode eb mb r neg else c)

/-- The largest logarithm whose value does not exceed m × 2^e, for m ≠ 0: within a binade the table's entries rise. -/
def logFloor (f : Nat) (m : Nat) (e : Int) : Int :=
  let b := e + msb m
  let j := (List.range (2 ^ f)).filter (fun j => !(Dyadic.lt { m := m, e := e } { m := logTable f j, e := b - 15 }))
  b * (2 ^ f : Nat) + (j.length - 1 : Nat)

/-- A value encoded into an L format of n bits (R205, R212). -/
def encodeLog (n f : Nat) (r : Rm) (v : Num) : Nat :=
  match v with
  | .nan => logNan n
  | .inf neg => logCode n neg (logMax n)
  | .fin neg m e =>
    if m = 0 then logZero n
    else
      let lo := logFloor f m e
      let value := fun (l : Int) => let t := logValue f l; ({ m := t.1, e := t.2 } : Dyadic)
      let v : Dyadic := { m := m, e := e }
      if lo < logMin n + 1 then
        -- between zero and the smallest non-zero magnitude
        let top := value (logMin n + 1)
        let x := min v.e top.e
        if roundUp r neg (2 * v.scale x) (top.scale x) true then logCode n neg (logMin n + 1) else logZero n
      else if logMax n ≤ lo then logCode n neg (logMax n)
      else
        let a := value lo
        let b := value (lo + 1)
        let x := min v.e (min a.e b.e)
        let up := roundUp r neg (2 * (v.scale x - a.scale x)) (b.scale x - a.scale x) (logCode n neg lo % 2 = 0)
        logCode n neg (if up then lo + 1 else lo)

/-- A value encoded into an S format of n bits (R205, R212). -/
def encodeInt (n : Nat) (r : Rm) (v : Num) : Nat :=
  let top : Int := (2 ^ (n - 1) : Nat) - 1
  let bot : Int := -(2 ^ (n - 1) : Nat)
  match v with
  | .nan => 0
  | .inf neg => natOfInt n (if neg then bot else top)
  | .fin neg m e =>
    let k : Int := roundInt r neg m e 0
    natOfInt n (max bot (min top (if neg then -k else k)))

/-- A value encoded into a format (R211 step 3). -/
def encodeNum (f : Fmt) (r : Rm) (v : Num) : Nat :=
  match fmtLog f, fmtFloat f with
  | some fr, _ => encodeLog (fmtBits f) fr r v
  | none, some (eb, mb) => encodeFloat f eb mb r v
  | none, none => encodeInt (fmtBits f) r v

/-- CVT (R211): F and L results are zero-extended, S results sign-extended. -/
def convert (dst src : Fmt) (r : Rm) (a : Word) : Word :=
  let c := encodeNum dst r (decodeNum src a.toNat)
  match fmtLog dst, fmtFloat dst with
  | none, none => sext (fmtBits dst) c
  | _, _ => zext (fmtBits dst) c

/-! ## Register floating point (R237 to R240) -/

def fpFmt : Fp → Fmt
  | .f32 => .f32 | .h16 => .h16

def fpCode (p : Fp) (w : Word) : Nat := w.toNat % 2 ^ fmtBits (fpFmt p)
def fpNum (p : Fp) (w : Word) : Num := decodeNum (fpFmt p) w.toNat
def quietBit : Fp → Nat
  | .f32 => 2 ^ 22 | .h16 => 2 ^ 9

/-- A NaN operand as a result: its quiet bit set, all else kept (R239). -/
def quieten (p : Fp) (w : Word) : Word :=
  let c := fpCode p w
  BitVec.ofNat 64 (if c / quietBit p % 2 = 1 then c else c + quietBit p)

def fpDefaultNan (p : Fp) : Word := BitVec.ofNat 64 (quietNan (fpFmt p))
def fpRound (p : Fp) (r : Rm) (v : Num) : Word := BitVec.ofNat 64 (encodeNum (fpFmt p) r v)

/-- The first NaN of the operands in order (R239). -/
def firstNan (p : Fp) : List Word → Option Word
  | [] => none
  | w :: ws => if fpNum p w = .nan then some (quieten p w) else firstNan p ws

/-- The sum of two values that are not NaN; none where it is invalid (R238, R239). -/
def numAdd (r : Rm) (a b : Num) : Option Num :=
  match a, b with
  | .inf s, .inf t => if s = t then some (.inf s) else none
  | .inf s, _ => some (.inf s)
  | _, .inf t => some (.inf t)
  | .fin s m e, .fin t k g =>
    if m = 0 ∧ k = 0 ∧ s = t then some (.fin s 0 0)
    else some (.ofDyadic ((Num.fin s m e).dyadic.add (Num.fin t k g).dyadic) (r == .rdn))
  | _, _ => none

def numNeg : Num → Num
  | .nan => .nan
  | .inf s => .inf (!s)
  | .fin s m e => .fin (!s) m e

def numMul (a b : Num) : Option Num :=
  match a, b with
  | .inf s, .inf t => some (.inf (s != t))
  | .inf s, .fin t m _ => if m = 0 then none else some (.inf (s != t))
  | .fin s m _, .inf t => if m = 0 then none else some (.inf (s != t))
  | .fin s m e, .fin t k g => some (.fin (s != t) (m * k) (e + g))
  | _, _ => none

/-- A quotient carries 80 bits and one that says whether anything is left, which every mode rounds as the exact quotient. -/
def numDiv (a b : Num) : Option Num :=
  match a, b with
  | .inf _, .inf _ => none
  | .inf s, .fin t _ _ => some (.inf (s != t))
  | .fin s _ _, .inf t => some (.fin (s != t) 0 0)
  | .fin s m e, .fin t k g =>
    if k = 0 then (if m = 0 then none else some (.inf (s != t)))
    else
      let n := m * 2 ^ 80
      some (.fin (s != t) (2 * (n / k) + (if n % k = 0 then 0 else 1)) (e - g - 81))
  | _, _ => none

/-- The integer square root of a number below 4 to `k`, digit by digit. -/
def isqrt : (k : Nat) → Nat → Nat
  | 0, _ => 0
  | k + 1, n =>
    let h := 2 * isqrt k (n / 4)
    if (h + 1) * (h + 1) ≤ n then h + 1 else h

def numSqrt (a : Num) : Option Num :=
  match a with
  | .inf s => if s then none else some (.inf false)
  | .fin s m e =>
    if m = 0 then some (.fin s 0 0)
    else if s then none
    else
      let sh : Nat := if e % 2 = 0 then 80 else 81
      let n := m * 2 ^ sh
      let q := isqrt 80 n
      some (.fin false (2 * q + (if q * q = n then 0 else 1)) ((e - sh) / 2 - 1))
  | .nan => none

/-- A floating result from the operands whose NaNs count and the value computed without them. -/
def fpResult (p : Fp) (r : Rm) (ops : List Word) (v : Option Num) : Word :=
  match firstNan p ops with
  | some w => w
  | none => match v with
    | some v => fpRound p r v
    | none => fpDefaultNan p

def fpAdd (p : Fp) (r : Rm) (a b : Word) : Word := fpResult p r [a, b] (numAdd r (fpNum p a) (fpNum p b))
def fpSub (p : Fp) (r : Rm) (a b : Word) : Word := fpResult p r [a, b] (numAdd r (fpNum p a) (numNeg (fpNum p b)))
def fpMul (p : Fp) (r : Rm) (a b : Word) : Word := fpResult p r [a, b] (numMul (fpNum p a) (fpNum p b))
def fpDiv (p : Fp) (r : Rm) (a b : Word) : Word := fpResult p r [a, b] (numDiv (fpNum p a) (fpNum p b))
def fpSqrt (p : Fp) (r : Rm) (a : Word) : Word := fpResult p r [a] (numSqrt (fpNum p a))

/-- ±(a × b) ± d, rounded once (R240). -/
def fpFma (p : Fp) (r : Rm) (negProduct negAddend : Bool) (a b d : Word) : Word :=
  let neg := fun (c : Bool) (v : Num) => if c then numNeg v else v
  fpResult p r [a, b, d]
    ((numMul (fpNum p a) (fpNum p b)).bind (fun v => numAdd r (neg negProduct v) (neg negAddend (fpNum p d))))

/-- The order of values that are not NaN; −0 equals +0. -/
def numLt (a b : Num) : Bool :=
  match a, b with
  | .inf s, .inf t => s && !t
  | .inf s, .fin _ _ _ => s
  | .fin _ _ _, .inf t => !t
  | .fin s m e, .fin t k g => (Num.fin s m e).dyadic.lt (Num.fin t k g).dyadic
  | _, _ => false
def numEq (a b : Num) : Bool :=
  match a, b with
  | .inf s, .inf t => s == t
  | .fin s m e, .fin t k g => (Num.fin s m e).dyadic.eq (Num.fin t k g).dyadic
  | _, _ => false

def fpEq (p : Fp) (a b : Word) : Bool := numEq (fpNum p a) (fpNum p b)
def fpLt (p : Fp) (a b : Word) : Bool := numLt (fpNum p a) (fpNum p b)
def fpLe (p : Fp) (a b : Word) : Bool := fpLt p a b || fpEq p a b

def numNegative : Num → Bool
  | .nan => false
  | .inf s => s
  | .fin s _ _ => s

/-- FMIN and FMAX (R238, R239): −0 is the smaller zero, one NaN yields the other operand. -/
def fpMinMax (p : Fp) (max : Bool) (a b : Word) : Word :=
  let low := fun w => BitVec.ofNat 64 (fpCode p w)
  if fpNum p a = .nan then (if fpNum p b = .nan then quieten p a else low b)
  else if fpNum p b = .nan then low a
  else
    let aSmaller := fpLt p a b || (fpEq p a b && numNegative (fpNum p a))
    if aSmaller != max then low a else low b

/-- FCLASS's bit (R238). -/
def fpClass (p : Fp) (a : Word) : Word :=
  let (eb, mb) := (fmtFloat (fpFmt p)).getD (8, 23)
  let c := fpCode p a
  let normal := c / 2 ^ mb % 2 ^ eb ≠ 0
  let k := match fpNum p a with
    | .nan => if c / quietBit p % 2 = 1 then 9 else 8
    | .inf s => if s then 0 else 7
    | .fin s m _ =>
      if m = 0 then (if s then 3 else 4)
      else if normal then (if s then 1 else 6) else (if s then 2 else 5)
  BitVec.ofNat 64 (2 ^ k)

/-! ## Format regions (R213 to R215) -/

/-- The legal pairs of a region, stored and delivered (R213). -/
def regionPair : Fmt → Fmt → Bool
  | .l4, .l6 => true | .l4, .l8 => true | .l4, .l12 => true | .l6, .l8 => true | .l6, .l12 => true | .l8, .l12 => true
  | .s4, .h16 => true | .s4, .bf16 => true | .s8, .h16 => true | .s8, .bf16 => true
  | _, _ => false

/-- A scale word's L12 code: one with bits 15:12 set is read as the NaN code (R213). -/
def scaleCode (w : Nat) : Nat := if w / 2 ^ 12 % 16 = 0 then w % 2 ^ 12 else logNan 12

/-- n / 2^s rounded to nearest, ties to even. -/
def roundShift (n : Int) (s : Nat) : Int :=
  let q := n / (2 ^ s : Nat)
  let rest := n % (2 ^ s : Nat)
  if s = 0 then n else q + (if roundUp .rne false (2 * rest) (2 ^ s : Nat) (q % 2 = 0) then 1 else 0)

/-- A logarithm in steps of 2^−5 rounded to an L format's step and kept within its non-zero codes. -/
def foldLog (n f : Nat) (log5 : Int) : Int := max (logMin n + 1) (min (logMax n) (roundShift log5 (5 - f)))

/-- A magnitude rounded with RNE to an F format, never to an infinity (R214). -/
def encodeFinite (f : Fmt) (eb mb : Nat) (v : Num) : Nat :=
  let inf := (2 ^ eb - 1) * 2 ^ mb
  let c := encodeFloat f eb mb .rne v
  if c % 2 ^ (eb + mb) = inf then c - 1 else c

/-- The delivered code of stored element e under scale code c (R214). -/
def regionDecode (sfmt dfmt : Fmt) (e c : Nat) : Nat :=
  let v := decodeNum .l12 c
  match fmtLog sfmt, fmtLog dfmt, fmtFloat dfmt with
  | some fe, some fd, _ =>
    let ne := fmtBits sfmt
    let nd := fmtBits dfmt
    if v = .nan then logNan nd
    else if logOf ne e = logMin ne then (if logSign ne e then logNan nd else logZero nd)
    else if v = .fin false 0 0 then logZero nd
    else logCode nd (logSign ne e) (foldLog nd fd (logOf ne e * (2 ^ (5 - fe) : Nat) + logOf 12 c))
  | none, _, some (eb, mb) =>
    let i := decodeNum sfmt e
    match v with
    | .fin _ 0 _ => 0
    | .nan => quietNan dfmt
    | w => if i.dyadic.m = 0 then 0 else encodeFinite dfmt eb mb ((numMul i w).getD (.fin false 0 0))
  | _, _, _ => 0

/-- The stored code of delivered code d under scale code c (R215). -/
def regionEncode (sfmt dfmt : Fmt) (d c : Nat) : Nat :=
  let v := decodeNum .l12 c
  let ns := fmtBits sfmt
  match fmtLog sfmt, fmtLog dfmt with
  | some fs, some fd =>
    let nd := fmtBits dfmt
    if v = .nan ∨ v = .fin false 0 0 then logZero ns
    else if logOf nd d = logMin nd then (if logSign nd d then logNan ns else logZero ns)
    else logCode ns (logSign nd d) (foldLog ns fs (logOf nd d * (2 ^ (5 - fd) : Nat) - logOf 12 c))
  | _, _ =>
    if v = .nan ∨ v = .fin false 0 0 then 0
    else match decodeNum dfmt d with
      | .nan => 0
      | .inf s => encodeInt ns .rne (.inf (s != numNegative v))
      | x => encodeInt ns .rne ((numDiv x v).getD (.fin false 0 0))

/-! ## The matrix unit and the adders (R216 to R219) -/

/-- Elements of an operand row (R204): 768 bits, in cells of the format's width (16 for L12). -/
def rowElems (f : Fmt) : Nat :=
  match f with
  | .l4 => 192 | .s4 => 192 | .l6 => 128 | .l8 => 96 | .f8n => 96 | .f8w => 96 | .s8 => 96
  | .l12 => 48 | .h16 => 48 | .bf16 => 48 | .s16 => 48 | .f32 => 24 | .s32 => 0 | .s64 => 0

def cellBits (f : Fmt) : Nat := if f == .l12 then 16 else fmtBits f

/-- Element k of a row read as one little-endian integer (R204). -/
def rowElem (f : Fmt) (row : Nat) (k : Nat) : Nat := bits row (cellBits f * k) (fmtBits f)

/-- KB: the byte that holds the lowest bit of element k (R204). -/
def rowByte (f : Fmt) (k : Nat) : Nat := cellBits f * k / 8

/-- One exact product (R216). -/
def product (f : Fmt) (a b : Nat) : Num :=
  match fmtLog f with
  | some fr =>
    let n := fmtBits f
    let za := logOf n a = logMin n
    let zb := logOf n b = logMin n
    if (za ∧ logSign n a) ∨ (zb ∧ logSign n b) then .nan
    else if za ∨ zb then .fin false 0 0
    else let v := logValue fr (logOf n a + logOf n b); .fin (logSign n a != logSign n b) v.1 v.2
  | none =>
    let x := decodeNum f a
    let y := decodeNum f b
    if x = .nan ∨ y = .nan then .nan
    else match numMul x y with
      | some (.fin s m e) => .fin (s && (m != 0 || (fmtFloat f).isSome)) m e
      | some v => v
      | none => .nan

/-- The payload P of an F32 NaN (R218), and the NaN that carries one. -/
def nanPayload (w : Nat) : Nat := w / 2 ^ 31 % 2 * 2 ^ 22 + w % 2 ^ 22
def nanOf (core kb : Nat) : Nat :=
  core / 2 ^ 15 % 2 * 2 ^ 31 + 0x7FC00000 + core % 2 ^ 15 * 2 ^ 7 + kb

def isNan32 (w : Nat) : Bool := decodeNum .f32 w = .nan
def quiet32 (w : Nat) : Nat := if w / 2 ^ 22 % 2 = 1 then w else w + 2 ^ 22

/-- The result of one output (R217). -/
def dot (f : Fmt) (core : Nat) (rowA rowB : Nat) : Nat :=
  let ps := (List.range (rowElems f)).map (fun k => (k, product f (rowElem f rowA k) (rowElem f rowB k)))
  match ps.find? (fun p => p.2 == .nan) with
  | some (k, _) => nanOf core (rowByte f k)
  | none =>
    let up := ps.any (fun p => p.2 == .inf false)
    let down := ps.any (fun p => p.2 == .inf true)
    if up && down then nanOf core 0x7F
    else if up then 0x7F800000
    else if down then 0xFF800000
    else
      let s := ps.foldl (fun (t : Dyadic) p => t.add p.2.dyadic) { m := 0, e := 0 }
      let allNegZero := ps.all (fun p => match p.2 with | .fin true 0 _ => true | _ => false)
      encodeNum .f32 .rne (.ofDyadic s allNegZero)

/-- An F32 addition with RNE under the NaN rules of R217 and R219; `invalid` is what +∞ + −∞ gives. -/
def addF32 (invalid : Nat) (a b : Nat) : Nat :=
  if isNan32 a && isNan32 b then (if nanPayload b < nanPayload a then b else a)
  else if isNan32 a then quiet32 a
  else if isNan32 b then quiet32 b
  else match numAdd .rne (decodeNum .f32 a) (decodeNum .f32 b) with
    | some v => encodeNum .f32 .rne v
    | none => invalid

/-- acc := acc + r (R217), and one step of the near-cache adders (R219). -/
def accAdd (core : Nat) (acc r : BitVec 32) : BitVec 32 := BitVec.ofNat 32 (addF32 (nanOf core 0x7F) acc.toNat r.toNat)
def mergeAdd (a b : BitVec 32) : BitVec 32 := BitVec.ofNat 32 (addF32 0x7FC00000 a.toNat b.toNat)

end Sys2Proof.Machine
end

