-- ==== Sys2Proof/Machine/KMap.lean ====
section
/-!
DEFINITION. Collections keyed by a number, as lists of pairs in rising order of the key, and the bytes of memory as such a
list in one canonical form: addresses strictly rising and no entry that holds 0, which is what an unlisted address reads as.
-/

namespace Sys2Proof.Machine

open Sys2Proof

/-- The value at key k, if any. -/
def KMap.get? {α : Type} : List (Nat × α) → Nat → Option α
  | [], _ => none
  | (k', v) :: m, k => if k' = k then some v else KMap.get? m k

/-- The value at key k, or `d` where none is listed. -/
def KMap.getD {α : Type} (m : List (Nat × α)) (k : Nat) (d : α) : α := (KMap.get? m k).getD d

/-- The collection with `v` at key k. -/
def KMap.set {α : Type} : List (Nat × α) → Nat → α → List (Nat × α)
  | [], k, v => [(k, v)]
  | (k', v') :: m, k, v =>
    if k < k' then (k, v) :: (k', v') :: m
    else if k = k' then (k, v) :: m
    else (k', v') :: KMap.set m k v

/-- The collection without key k. -/
def KMap.erase {α : Type} : List (Nat × α) → Nat → List (Nat × α)
  | [], _ => []
  | (k', v') :: m, k => if k' = k then KMap.erase m k else (k', v') :: KMap.erase m k

/-- Keys strictly rising. -/
def KMap.sorted {α : Type} : List (Nat × α) → Bool
  | [] => true
  | [_] => true
  | (k, _) :: (k', v') :: m => k < k' && KMap.sorted ((k', v') :: m)

/-! ## Bytes of memory -/

/-- The byte at an address; an address that nothing lists reads as 0 (log entry 5). -/
def Memory.read (m : List Host.Cell) (a : Nat) : Byte := KMap.getD m a 0

/-- The memory with byte `v` at address a. -/
def Memory.write (m : List Host.Cell) (a : Nat) (v : Byte) : List Host.Cell :=
  if v = 0 then KMap.erase m a else KMap.set m a v

/-- The canonical form. -/
def Memory.wf (m : List Host.Cell) : Bool := KMap.sorted m && m.all (fun c => c.2 != 0)

/-- The n bytes from an address. -/
def Memory.readN (m : List Host.Cell) (a : Nat) : Nat → List Byte
  | 0 => []
  | n + 1 => Memory.read m a :: Memory.readN m (a + 1) n

/-- The memory with the bytes of a list from an address on. -/
def Memory.writeN (m : List Host.Cell) (a : Nat) : List Byte → List Host.Cell
  | [] => m
  | b :: bs => Memory.writeN (Memory.write m a b) (a + 1) bs

/-- Memory of which only the bytes at the addresses that `f` keeps are left; the others read 0. -/
def Memory.keep (m : List Host.Cell) (f : Nat → Bool) : List Host.Cell := m.filter (fun c => f c.1)

end Sys2Proof.Machine
end

