-- ==== Sys2Proof/Machine/Message.lean ====
section
/-!
DEFINITION. What the device's messages carry: those between cores, stashes and homes, and those of the other devices of the pod, the host
and the firmware.
-/

namespace Sys2Proof

/-! ## What messages carry -/

/-- The party on whose behalf an access is made (R145). -/
inductive Agent where
  | thread (tid : Nat)
  | engine (tile cmd : Nat)
  | stash (tile : Nat)
  | front
  | peer (dev rid : Nat) (stamp : Word)   -- with the stamp of its request, which the answer carries (R325)
  deriving DecidableEq, Repr

/-- An access on its way to a home: who asks, under which request number, the address as named and its physical address, the
bytes, the clock of R152, the guest, and the core whose place orders it (R145). A store leaves the bytes at the offsets `gaps` as they
are (R161). -/
structure Access where
  who   : Agent
  rid   : Nat
  va    : Word
  pa    : Nat
  n     : Nat
  clock : Word
  guest : BitVec 8
  core  : Nat
  gaps  : List Nat := []
  tokens : Option Nat := none    -- what it pays at its tile's egress, where that does not go by its bytes (R284)
  deriving DecidableEq, Repr

/-- What a load at a home is for. -/
inductive LoadKind where
  | core                       -- fills L2 and L1 (R151)
  | l2                         -- read from the L2 copy; fills L1 (R151)
  | bare                       -- fills no cache: a peer's load
  | ldc                        -- a constant-cache miss (R125)
  | acq                        -- ACQ's read: no lease (R181)
  | fill (tile idx : Nat)      -- a stash fill (R104, R106)
  deriving DecidableEq, Repr

/-- Why an access was refused or failed: the trap it gives (R289). -/
structure Refused where
  cause  : Nat
  detail : Nat
  addr   : Word
  deriving DecidableEq, Repr

/-- A request held at a home, or refused back to a router port (R107, R121). -/
inductive HomeMsg where
  | load (a : Access) (k : LoadKind)
  | store (a : Access) (op : Nat) (data : Line)
  | atomic (a : Access) (op : Nat) (amo : AmoOp) (b d : Word)
  | publish (a : Access)
  | declare (a : Access) (parts : Nat)
  | part (a : Access) (part : Nat) (data : Line)
  | arm (tid m arm : Nat) (pa : Nat) (clock : Word)
  | llc (line : Nat) (tid : Nat) (drop : Bool)   -- CWB or CINV of a thread (R320)
  | peer (rid op : Nat)        -- a peer's request, by its number or its operation (R344)
  | host (pa : Nat) (guest : BitVec 8) (data : Line)
  deriving DecidableEq, Repr

/-- A load's reply (R151): the line's bytes as the home, a copy or a holder gave them, and its times. -/
structure LoadReply where
  who  : Agent
  rid  : Nat
  line : Nat
  data : Line
  wts  : Word
  rts  : Word
  kind : LoadKind
  err  : Option Refused
  deriving DecidableEq, Repr

/-- An atomic's reply (R138), or the answer to a waited full-empty request (R184), for which `done` says that the word was in
the state it needs. -/
structure AtomicReply where
  who    : Agent
  rid    : Nat
  op     : Nat
  old    : Word
  done   : Bool
  wts    : Word
  err    : Option Refused
  deriving DecidableEq, Repr

/-- What a remote stash access does (R155, R184). -/
inductive StashOp where
  | load (n : Nat)
  | store (n : Nat) (v : Word)
  | storeLine (bs : Line)      -- a line of a flush (R251)
  | storeGaps (bs : Line) (gaps : List Nat)   -- a copy's write into a word, with gaps (R161)
  | atomic (n : Nat) (op : AmoOp) (b d : Word)
  | ldf | stf (v : Word) | ldfn | stfn (v : Word) | feset | feclr
  | publish                    -- REL's X := max(X, lts) on an object in a stash (R180)
  | acq
  deriving DecidableEq, Repr

/-- An access to a stash that is not the requester's own name for it, or a full-empty request (R182, R185): the holding tile and
offset, what it does, the tagged operation it belongs to (0: none), and how often the park table has refused it (R187). -/
structure StashReq where
  who     : Agent
  src     : Nat                -- the tile that it comes from (a peer's: the holding tile)
  rid     : Nat
  va      : Word
  tile    : Nat
  off     : Nat
  what    : StashOp
  clock   : Word
  guest   : BitVec 8
  op      : Nat
  refusals : Nat
  own     : Bool               -- made through space 0x80
  deriving DecidableEq, Repr

/-- A stash line's write-back (R105, R155, R156): the stamp of the line, and `reg`, the stamp of the registration it belongs to.
`drop` says that it also gives up the line. -/
structure WriteBack where
  tile  : Nat
  idx   : Nat
  line  : Nat
  data  : Line
  fe    : BitVec 16
  stamp : Word
  reg   : Word
  drop  : Bool
  op    : Nat
  bad   : Option (BitVec 8 × BitVec 8)  -- it holds an uncorrectable error, charged to this guest and generation (R297)
  deriving DecidableEq, Repr

/-- What a cancel is about (R34). -/
inductive CancelScope where
  | launch (l : Nat)
  | graph (guest : BitVec 8) (g : BitVec 16)
  | convoy (guest : BitVec 8) (c : BitVec 16)
  deriving DecidableEq, Repr

/-- A timed action of a convoy (R336, R337). -/
inductive Action where
  | launch | stop | resume | cancel
  deriving DecidableEq, Repr

/-- Where an uncorrectable error lies (R297). -/
inductive ErrPlace where
  | cleanL1 (core line : Nat) | cleanL2 (die line : Nat) | constant (tile line : Nat) | cleanStash (tile idx : Nat)
  | latch (tile : Nat) (b l : Bool)   -- of pair l: A, or B
  | home (line : Nat)
  | dirtyStash (tile idx : Nat)
  | threadState (tid : Nat)
  | queued (tile cmd : Nat) (copy : Bool)
  | accumulator (tile : Nat) (n : Bool)
  deriving DecidableEq, Repr

/-- A protected location with a leaky counter (R299, R300). What is part of a tile is named by the tile's site (`State.siteOf`), a core's line
too: it stays where it is at a changeover. -/
inductive Location where
  | l1line (core line : Nat) | constLine (tile line : Nat)
  | l2way (tile set way : Nat) | llc (line : Nat) | stashLine (tile idx : Nat) | parkEntry (tile n : Nat)
  | rowOf (tile core row : Nat) | lane (link lane : Nat)
  deriving DecidableEq, Repr

/-- What a shoot-down removes (R296, R319): the entries of a guest whose page contains the address, or every entry. -/
inductive Shoot where
  | page (guest : BitVec 8) (va : Word)
  | all
  deriving DecidableEq, Repr

/-- An access that arrives from another device of the pod (R340). -/
inductive PeerOp where
  | load (n : Nat)
  | store (n : Nat) (v : Word)
  | storeGaps (bs : Line) (gaps : List Nat)
  | atomic (n : Nat) (op : AmoOp) (b d : Word)
  | stash (what : StashOp)
  | arm (m arm : Nat)          -- MON on a peer's line (R191)
  | withdraw                   -- of the request with the same number (R190)
  deriving DecidableEq, Repr

structure PeerReq where
  dev   : Nat
  rid   : Nat
  va    : Word                 -- as the named guest's own address on this device
  what  : PeerOp
  clock : Word
  guest : BitVec 8
  stamp : Word                 -- the sender's WALL at its issue (R325)
  convoy : BitVec 16            -- the convoy of the sending thread (0: none)
  again : Bool                 -- sent before, to a place that redirected it (R344)
  deriving DecidableEq, Repr

/-- An inverted-table entry (R119). -/
structure Frame where
  vpn   : Nat
  guest : BitVec 8
  gen   : BitVec 8
  size  : Nat
  v : Bool
  r : Bool
  w : Bool
  x : Bool
  frz   : Bool
  nextv : Bool
  next  : Nat
  deriving DecidableEq, Repr

/-- An entry that firmware has not written. -/
def Frame.init : Frame :=
  { vpn := 0, guest := 0, gen := 0, size := 0, v := false, r := false, w := false, x := false, frz := false, nextv := false, next := 0 }

/-- The 16 bytes of an entry, and the entry that 16 bytes hold (R119). -/
def Frame.toNat (e : Frame) : Nat :=
  let b := fun (x : Bool) (n : Nat) => if x then 2 ^ n else 0
  e.vpn % 2 ^ 40 * 2 ^ 88 + e.guest.toNat * 2 ^ 80 + e.gen.toNat * 2 ^ 72 + e.size % 4 * 2 ^ 70 + b e.v 69 + b e.r 68 + b e.w 67 + b e.x 66 +
    b e.frz 65 + b e.nextv 63 + e.next % 2 ^ 23 * 2 ^ 40

def Frame.ofNat (w : Nat) : Frame :=
  let b := fun (n : Nat) => w / 2 ^ n % 2 == 1
  { vpn := w / 2 ^ 88 % 2 ^ 40, guest := BitVec.ofNat 8 (w / 2 ^ 80), gen := BitVec.ofNat 8 (w / 2 ^ 72), size := w / 2 ^ 70 % 4
    v := b 69, r := b 68, w := b 67, x := b 66, frz := b 65, nextv := b 63, next := w / 2 ^ 40 % 2 ^ 23 }

/-- What firmware writes into the inverted tables and anchor arrays when it maps pages (R119, R120). -/
structure Tables where
  frames  : List (Nat × Frame)
  anchors : List (Nat × Nat)
  deriving DecidableEq, Repr

end Sys2Proof
end

