-- ==== Sys2Proof/Machine/Data.lean ====
section
/-!
DEFINITION. The parts of the state as plain data: threads, tiles, homes, guests, launches, convoys, queues, and what passes between the
devices of a pod.
-/

namespace Sys2Proof.Machine

open Sys2Proof

/-! ## Threads -/

/-- The three states of a guard slot (R66). -/
inductive Guard where
  | tt | ff | unresolved
  deriving DecidableEq, Repr

/-- An armed loop level (R73). -/
structure LoopLevel where
  start : Word
  stop  : Word
  count : Word
  deriving DecidableEq, Repr

/-- A binding of a range to a synchronisation object (R177). -/
structure Binding where
  obj  : Word
  base : Word
  len  : Word
  deriving DecidableEq, Repr

/-- A barrier record (R256). -/
structure BarrierRec where
  addr : Word
  p    : Bool
  arr  : Bool
  ref  : Bool
  deriving DecidableEq, Repr

/-- One of a slot's four monitors (R191): the number of its present arm (0: disarmed) and the wts of a held signal. -/
structure Monitor where
  arm    : Nat
  signal : Option Word
  deriving DecidableEq, Repr

/-- The transit buffer (R78): the frame being spilled, the local-store address of its x16, and the registers already written. -/
structure Transit where
  regs : Vector Word 16
  base : Nat
  done : Nat
  deriving DecidableEq, Repr

/-- A pending asynchronous event of the first two groups of R294. -/
structure TrapEvent where
  cause  : Nat
  detail : Nat
  addr   : Option Word
  tag    : Nat
  ef     : Option (Word × Word)       -- EFADDR and EFINFO (R227)
  fe     : Option (Word × Word)       -- FEADDR and FEDATA (R187)
  deriving DecidableEq, Repr

/-- Where a load's value goes and how it is widened (R93): a register or an extension register. -/
inductive LoadDst where
  | reg (d : Reg)
  | ext (e : BitVec 4)
  deriving DecidableEq, Repr

structure LoadInto where
  dst    : LoadDst
  n      : Nat
  signed : Bool
  va     : Word
  deriving DecidableEq, Repr

/-- What a gather reduction reads at present (R140): the list's header, its index words, or its elements. -/
inductive GatherPhase where
  | header | indices | elements
  deriving DecidableEq, Repr

/-- A gather reduction under way (R140, R141): the instruction, the element count, the addresses and width of the reads of the
present phase, the translations and the values that have come so far by position, and whether every read so far was served in the issue
cycle. -/
structure Gather where
  i      : Instr
  op     : GredOp
  w      : Width
  d      : Reg
  a      : Word
  b      : Word
  phase  : GatherPhase
  n      : Nat
  addrs  : List Word
  width  : Nat
  pas    : List (Nat × Nat)          -- by position, the physical addresses of those whose translation and checks are done
  got    : List (Nat × Word)
  atOnce : Bool
  force  : List Nat                  -- positions that had to wait for an own store and are read at their home (R115)
  base   : Nat                       -- replies carry rid = base + position
  deriving DecidableEq, Repr

/-- The fields of a queue record (R351). -/
structure Record where
  code     : Word
  param    : Word
  const    : Word
  done     : Word
  units    : Nat
  quota    : Nat
  guest    : BitVec 8
  timed    : Bool
  after    : Bool
  policy   : Bool                    -- 1: abort
  kind     : Nat
  dist     : Nat
  graph    : BitVec 16
  constlen : Nat
  convoy   : BitVec 16
  skew     : Nat
  leader   : Nat
  ndev     : Nat
  when     : Word
  deriving DecidableEq, Repr

/-- What a thread out of the rotation waits for (R26), with what completes the instruction. -/
inductive Wait where
  | none                                            -- in the rotation
  | load (rid : Nat) (into : LoadInto)              -- pending miss of a load
  | overlap (i : Instr) (ops : List Nat)            -- an access behind these own operations, not yet acknowledged (R115, R129)
  | atomic (rid : Nat) (d : Reg) (n : Nat) (zext : Bool) (last : BitVec 32)  -- with the slot's last tag before it (R287)
  | gather (g : Gather)
  | tlb (i : Instr) (va : Word)
  | fetchTlb (va : Word)                            -- a fetch whose translation misses (R118)
  | sendQueue (i : Instr)
  | fill (tile idx : Nat) (va : Word) (i : Instr)   -- own stash line not resident
  | frameFill (due : Nat)                           -- RFPOP before an idle cycle for its fill (R25), in no cycle before `due`
  | frameFilling                                    -- RFPOP whose fill is under way
  | transit                                         -- RFPUSH behind a full transit buffer
  | rdv (k : BitVec 5) (q : BitVec 3) (phase : Nat) (clock : Word)   -- the phase that has closed (0: open), and the clock at the arrival
  | fullEmpty (rid : Nat) (d : Option Reg) (va : Word)         -- LDF, or STF to the own stash
  | feStatus (rid : Nat) (d : Option Reg) (q : BitVec 3)   -- remote LDFN, STFN
  | ackTag (t : BitVec 32)                          -- WAITACK
  | fence (s : Scope)
  | relWait (i : Instr)                             -- REL before its publication
  | relPub (rid : Nat)                              -- REL after it
  | acq (rid : Nat)
  | monitor (deadline : Option Nat)
  | barrier (a : Word) (dl : Bool)
  | sleep (deadline : Nat)
  | wall (t : Word)
  | reap (d : Reg) (slot : Nat)
  | fault (va : Word)                               -- under service; the instruction is retried
  | frozen (i : Option Instr)                       -- a walk found a page under migration (R120), for this instruction or for a fetch
  | engineFault (tile cmd : Nat) (was : Bool)       -- R226; `was`: the thread was waiting already
  | declare (rid : Nat)
  | system (left : Nat)                             -- TLBINV, TLBINVALL: acknowledgements still awaited
  | genbump (g : BitVec 8)                          -- a scrub must come first (R318)
  | llc (line : Nat) (drop : Bool)                  -- CWB, CINV at the home
  | arm                                             -- CVARM, CVDISARM at the front desk, which holds its own copy of the record
  | xdata (r : ExpertReg) (die : Nat) (v : Word)
  | slockWalk (i : Instr)
  | courier
  deriving DecidableEq, Repr

/-- A thread (R19). The registers of a slot, and where the thread stands: `place` is its slot, or none while it is carried
or saved. -/
structure Thread where
  place     : Option Nat
  home      : Nat                    -- the slot whose local store and SELF the thread has, also while saved
  halted    : Bool
  guest     : BitVec 8
  gen       : BitVec 8
  launch    : Nat
  unit      : Nat
  parent    : Option Nat             -- the context zero that spawned it (R32)
  x         : Vector Word 32
  e         : Vector Word 16
  q         : Vector Guard 8
  pc        : Word
  lts       : Word
  ltsSeen   : Word                   -- the clock without this cycle's acknowledgements, which MFS does not count yet (R308)
  acked     : Nat                    -- acknowledgements of this cycle (R308)
  frames    : List (Vector Word 16)  -- set-aside resident frames, newest first
  transit   : Option Transit
  depth     : Nat
  wsp       : Nat
  loops     : List LoopLevel         -- inner first
  pin       : Bool
  yielded   : Bool
  usedShared : Bool                  -- it has named a shared register, executed RDV or armed a monitor (R37)
  usedLocal : Bool                   -- it has accessed local store (R102)
  stashm    : BitVec 32
  trapz     : Bool
  priv      : Bool
  epc       : Word
  trapc     : Word
  taddr     : Word
  tvec      : Word
  monst     : Word
  feaddr    : Word
  fedata    : Word
  efaddr    : Word
  efinfo    : Word
  xsel      : Word
  issued    : Word
  waited    : Word
  lastTag   : BitVec 32
  mons      : Vector Monitor 4
  bindings  : List Binding
  brecs     : List BarrierRec        -- most recently written first
  dist      : Nat
  began     : Bool                   -- its first issue has been made
  lastIssue : Option Nat
  wait      : Wait
  waitWid   : Nat                    -- number of the present wait: an answer to an earlier one finds another
  pendClear : Option (BitVec 5)      -- the object whose PENDING bit its next issue clears (R87)
  engEvents : List TrapEvent
  postEvents : List TrapEvent
  straggler : Bool
  cancel    : Option Nat             -- a pending cancel, with its DETAIL (R289)
  asked     : Option Nat             -- the wait (waitWid) whose request a withdrawal has been sent after (R190, R294)
  issueClock : Word                  -- the clock at the issue of the instruction that waits (R152, R183)
  issueBank : Vector Word 32         -- the shared bank as that instruction read it at its issue
  forceHome : Bool                   -- the retried load reads from its home (R115)
  stopped   : Bool                   -- stopped with its convoy (R324)
  ilen      : Nat                    -- length of the word in hand, in bytes
  replay    : Bool                   -- the instruction in hand completes a wait; it did not issue again (R26)
  queued    : Bool                   -- it holds its send-queue entry (R26)
  gather    : Option Gather          -- the gather reduction that a replayed GRED goes on with
  deriving DecidableEq, Repr

/-- A leased copy of a global line (R114, R149). -/
structure Copy where
  line  : Nat
  guest : BitVec 8
  gen   : BitVec 8
  data  : Line
  wts   : Word
  rts   : Word
  deriving DecidableEq, Repr

/-- A translation (R118): for a micro-TLB entry `slot` is its tag, for the tile TLB it is 0. -/
structure TlbEntry where
  slot  : Nat
  guest : BitVec 8
  gen   : BitVec 8
  va    : Nat                        -- page base
  bits  : Nat                        -- page size is 2^bits
  pa    : Nat
  r : Bool
  w : Bool
  x : Bool
  deriving DecidableEq, Repr

/-- A write of a shared register that lands at the end of the cycle, on behalf of a slot (R48): that of an instruction which completes
in this cycle without issuing in it, or, with `clear`, the withdrawal of the slot's arrival from an object that read as `val` (R88). -/
structure LateWrite where
  core  : Nat
  guest : BitVec 8
  k     : BitVec 5
  slot  : Nat
  val   : Word
  clear : Bool
  deriving DecidableEq, Repr

/-- The update of an object register at the end of a completion cycle (R48, R87). -/
structure RdvUpdate where
  core    : Nat
  guest   : BitVec 8
  k       : BitVec 5
  slot    : Nat                      -- the closing slot, on whose behalf it is made
  base    : Word                     -- the object as it stood
  waiters : List Nat                 -- thread numbers
  deriving DecidableEq, Repr

/-! ## Tiles -/

/-- A resident stash line (R104, R155): its stamp, and the stamp that its registration began with. -/
structure StashLine where
  line  : Nat
  guest : BitVec 8
  gen   : BitVec 8
  dirty : Bool
  stamp : Word
  reg   : Word
  fe    : BitVec 16
  poison : Bool
  deriving DecidableEq, Repr

/-- A remote request that waits at a tile for the fill of a line: since a cycle, and made in a turn (R155, R273). -/
structure FillWaiter where
  idx  : Nat
  req  : StashReq
  at_  : Nat
  turn : Nat
  deriving DecidableEq, Repr

/-- A mapped block (R103): its backing address and the translation it pins (R130). -/
structure MapEntry where
  va : Word
  pa : Nat
  deriving DecidableEq, Repr

inductive LatchState where
  | free | filling | full
  deriving DecidableEq, Repr

/-- Who issued a command: its thread, its launch, and the command's fn value (R226, R297). -/
structure Issuer where
  tid    : Nat
  launch : Nat
  fn     : Nat
  deriving DecidableEq, Repr

structure Latch where
  st   : LatchState
  rows : List Line
  by_  : Option Issuer               -- of the stage that filled it
  deriving DecidableEq, Repr

def Latch.init : Latch := { st := .free, rows := [], by_ := none }

/-- A copy descriptor as CPY reads it (R230): dimension 0 first. -/
structure CopyDesc where
  src     : Word
  dst     : Word
  dims    : List (Nat × Int)
  destSide : Bool                    -- SIDE
  esize   : Nat
  bar     : Option Word
  pattern : Option Word              -- CPY.FILL
  deriving DecidableEq, Repr

inductive CmdKind where
  | stageA (l : Bool) (a b : Word)
  | stageB (l : Bool) (a b : Word)
  | mma (f : Fmt) (n l : Bool)
  | mflush (n : Bool) (a : Word)
  | mflushSum (n : Bool) (a : Word) (p : Nat)
  | mclr (n : Bool)
  | copy (d : CopyDesc)
  deriving DecidableEq, Repr

/-- One access of a running command (R161, R226): its number, the row or element and the byte of it that it is for, where it goes, and
the data of a write, which leaves the bytes at the offsets `gaps` as they are. `stuck`: it has met a fault under service, or, `false`, a page under migration, and is made again after that. -/
structure EngReq where
  rid   : Nat
  row   : Nat
  off   : Nat
  va    : Word
  n     : Nat
  data  : Option Line
  gaps  : List Nat := []
  tokens : Option Nat := none    -- what it pays at the tile's egress, where that does not go by its bytes (R284)
  stuck : Option Bool
  deriving DecidableEq, Repr

/-- An engine command (R161, R222): its number, its issuer, its clock, the guard it is still bound to, and what remains of it
while it runs: the element position of a copy, and the accesses that have not been answered. -/
structure Cmd where
  id     : Nat
  tid    : Nat
  guest  : BitVec 8
  launch : Nat
  self   : Nat                       -- SELF bits 19:4 of the issuer (R218)
  stashm : BitVec 32
  clock  : Word
  fn     : Nat
  held   : Option (BitVec 3)
  kind   : CmdKind
  after  : List Nat                  -- tagged operations that must be acknowledged first (R161)
  pos    : Nat                       -- a stage: 0 it reads its index vector, 1 its rows, 2 it stages them; a flush: 1 its read-out has ended
  reqs   : List EngReq               -- in the order in which they were made
  faulted : Option Word              -- a fault of it at this address is under service (R226)
  rows   : List Line                 -- operand rows of an MMA, or the lines that a flush sends (R221, R224)
  got    : List (Nat × Line)         -- what its reads have brought: by row × 128 + byte
  deriving DecidableEq, Repr

/-- A request in the park table (R185), with the offset of its word. -/
structure Parked where
  off : Nat
  req : StashReq
  deriving DecidableEq, Repr

/-- Stamps of a barrier object (R163, R256). -/
structure Stamps where
  stamp     : Word
  completed : Word
  deriving DecidableEq, Repr

/-- The matrix state of one guest (R220, R225): A0, A1, B0, B1 and the accumulators. -/
structure MatrixState where
  a0 : Latch
  a1 : Latch
  b0 : Latch
  b1 : Latch
  acc0 : List (BitVec 32)
  acc1 : List (BitVec 32)
  by0  : Option Issuer               -- of the last command into the accumulator
  by1  : Option Issuer
  deriving DecidableEq, Repr

def MatrixState.init : MatrixState :=
  { a0 := .init, a1 := .init, b0 := .init, b1 := .init, acc0 := List.replicate 256 0, acc1 := List.replicate 256 0, by0 := none, by1 := none }

/-- GQOS (R281). -/
structure Gqos where
  lockq   : Nat
  ceil    : Nat
  floor   : Nat
  vc      : Nat
  tickets : Nat
  share   : Nat
  deriving DecidableEq, Repr

def Gqos.init : Gqos := { lockq := 0, ceil := 16, floor := 0, vc := 0, tickets := 1, share := 0 }

/-- A guest's share of a tile: its counters (R313), pass (R276), tokens (R284), L2 ways and hit counts by LRU position (R282). -/
structure TileGuest where
  gqos     : Gqos
  fused    : Word
  couriers : Word
  fwdnotes : Word
  pass     : Nat
  idle     : Bool                    -- no runnable thread of it was on the tile when last seen (R277)
  tokens   : Nat
  ways     : Nat
  setWays  : List (Nat × Nat)        -- its ways in the sets that have locks or a retired way (R282, R300)
  hits     : List Nat
  shadow   : List (Nat × List Nat)   -- shadow tags by sampled set: the lines it used last, the latest first (R282)
  deriving DecidableEq, Repr

def TileGuest.init : TileGuest :=
  { gqos := .init, fused := 0, couriers := 0, fwdnotes := 0, pass := 0, idle := true, tokens := 0, ways := 0, setWays := [], hits := [], shadow := [] }

/-- A tile's place in the changeover protocol (R270). -/
inductive Phase where
  | run | predrain | stopped | packed | shipped | unpacked
  deriving DecidableEq, Repr

structure Tile where
  map      : List (Nat × MapEntry)
  banks    : List (Nat × BitVec 8)   -- bank to the guest it is assigned to (R108)
  wbuf     : List WriteBack
  fillWait : List FillWaiter         -- remote requests waiting for the fill of a line, in order of arrival
  filling  : List Nat                -- lines whose fill is under way
  park     : List Parked             -- in order of arrival
  mx       : MatrixState
  mxOwner  : Option (BitVec 8)
  mxSaved  : List (Nat × MatrixState)
  mxSwitch : Bool                    -- a switch of matrix state is under way (R225)
  mqueue   : List Cmd
  mrun     : List Cmd
  mwatch   : Nat
  cqueue   : List Cmd
  crun     : List Cmd
  cwatch   : Nat
  stamps   : List (Nat × Stamps)     -- by stash offset of the object
  tlb      : List TlbEntry
  const    : List Copy
  guests   : List (Nat × TileGuest)
  current  : Option (BitVec 8)       -- the guest of the slice (R277)
  lastRan  : Option (BitVec 8)       -- the guest that ran here last: another one's slice is a guest switch (R105)
  sliceAt  : Nat                     -- cycles of the slice that have run
  feretry  : Nat
  engwd    : Nat
  slice    : Nat
  courierTh : Nat
  lastCourier : Option Nat
  high     : List (Nat × Nat)        -- core in tile to cycles at or above the threshold
  phase    : Phase
  egressFree : Nat                   -- the cycle from which the egress may send its next token's worth (R284)
  deriving DecidableEq, Repr

/-- A tile as device reset leaves it (R103, R187, R220, R226, R276). -/
def Tile.init : Tile :=
  { map := [], banks := [], wbuf := [], fillWait := [], filling := [], park := []
    mx := .init, mxOwner := none, mxSaved := [], mxSwitch := false, mqueue := [], mrun := [], mwatch := 0
    cqueue := [], crun := [], cwatch := 0, stamps := [], tlb := [], const := [], guests := []
    current := none, lastRan := none, sliceAt := 0, feretry := 4096, engwd := 2 ^ 20, slice := 2 ^ 18, courierTh := 12
    lastCourier := none, high := [], phase := .run, egressFree := 0 }

/-! ## Homes -/

/-- An open merge at a sum-mode line (R201, R253): parts declared, the next part to add, the running sum, the parts that
arrived early with their acknowledgement's receiver, the largest acknowledged time, and the loads parked here (R142). -/
structure Sum where
  parts  : Nat
  next   : Nat
  acc    : List (BitVec 32)
  early  : List (Nat × Line × Access)
  top    : Word
  parked : List (Access × LoadKind × Nat)   -- with the turn of each (R273)
  deriving DecidableEq, Repr

/-- A global line at its home. -/
structure HomeLine where
  wts      : Word
  rts      : Word
  holder   : Option (Nat × Word)     -- holding tile and stamp (R106, R155)
  fe       : BitVec 16
  poison   : Option (BitVec 8)       -- poisoned, charged to this guest (R298)
  poisonGen : BitVec 8
  poisonCode : Nat                   -- structure code of R297
  inLlc    : Bool
  llc      : Option Line             -- the decoded copy that the LLC keeps of a format region's line (R116, R320)
  dirty    : Bool
  sum      : Option Sum
  recalling : Bool
  held     : List (Nat × HomeMsg)    -- in order of arrival (R107), each with the turn in which it came
  deriving DecidableEq, Repr

def HomeLine.init : HomeLine :=
  { wts := 0, rts := 0, holder := none, fe := 0, poison := none, poisonGen := 0, poisonCode := 1, inLlc := false, llc := none, dirty := false
    sum := none, recalling := false, held := [] }

/-- An armed monitor as the home (or the holder) records it (R166, R191). -/
structure Arm where
  tid  : Nat
  m    : Nat
  arm  : Nat
  line : Nat
  peer : Option Nat                  -- the device of a peer's thread, whose signals carry the number `arm`
  deriving DecidableEq, Repr

/-- A format region's registers (R228). -/
structure Region where
  dbase : Nat
  dlim  : Nat
  sbase : Nat
  scale : Nat
  en    : Bool
  err   : Bool
  guest : BitVec 8
  block : Nat
  dfmt  : Nat
  sfmt  : Nat
  deriving DecidableEq, Repr

def Region.init : Region :=
  { dbase := 0, dlim := 0, sbase := 0, scale := 0, en := false, err := false, guest := 0, block := 0, dfmt := 0, sfmt := 0 }

/-- An L2 copy (R114): the die whose slice keeps it, the way of its set that it lies in, and the copy; most recently used first in the
list. -/
structure L2Copy where
  die  : Nat
  way  : Nat
  copy : Copy
  deriving DecidableEq, Repr

/-- A residency lock (R133): it keeps a way of its line's set for the line. -/
structure Lock where
  die    : Nat
  way    : Nat
  line   : Nat
  va     : Nat                       -- virtual address of the line, for SUNLOCK
  guest  : BitVec 8
  launch : Nat
  deriving DecidableEq, Repr

/-! ## The device, its guests, launches and convoys -/

structure Guest where
  first   : Nat                      -- its party's first lodge, along the round
  len     : Nat
  gen     : BitVec 8
  chg     : Word
  floor   : Word
  backing : Word                     -- base of the default backing areas, 128 KiB per tile of the party (R103)
  areas   : List (Nat × Word)        -- tiles whose area firmware has set elsewhere
  peers   : List (Nat × BitVec 8)    -- device index to the guest it names there (R340)
  deriving DecidableEq, Repr

/-- A guest that firmware has not created: no party, generation 0. -/
def Guest.none : Guest :=
  { first := 0, len := 0, gen := 0, chg := 0, floor := 0, backing := 0, areas := [], peers := [] }

inductive LaunchStatus where
  | waiting | running | done | cancelled | faulted
  deriving DecidableEq, Repr

/-- A launch (R28, R33): its record, the queue it came from, how many units have been placed, the engine commands still
running, and whether a cancel or a fault has been recorded against it (R291). -/
structure Launch where
  rcd       : Record
  queue     : Option Nat
  index     : Nat                    -- index of its record in the ring
  placed    : Nat
  cmds      : Nat
  cancelled : Bool
  faulted   : Bool
  status    : LaunchStatus
  firmware  : Bool                   -- launched from the front desk's own queue (R305)
  started   : Nat                    -- its place in the order in which launches started (R30)
  startedAt : Nat                    -- CLK when it started (R112)
  cause     : Option (Nat × Nat)     -- cause and detail that the front end reports against it (R291)
  deriving DecidableEq, Repr

/-- An operation that awaits acknowledgement (R126): the thread and tag (tag 0: an engine's or the front desk's own store), the
address range it targets, and how many write-backs or messages are still to be acknowledged. `launch` outlives the thread (R33). -/
structure Tagged where
  op     : Nat
  tid    : Nat
  launch : Nat
  tag    : BitVec 32
  va     : Word
  pa     : Option Nat                -- where the range lies in home memory, as far as this device knows (R129)
  key    : Option Nat                -- the stash bytes that it names, by tile and offset
  len    : Nat
  left   : Nat
  data   : Word                      -- a posted STF's data (R187)
  wb     : Bool                      -- the write-backs of SMAP, SUNMAP or SWB, which are no stores
  engine : Option (Nat × Nat)        -- the tile and command of an engine's store
  deriving DecidableEq, Repr

/-- A control record that waits for its time or its end (R337). -/
structure Control where
  rcd   : Record
  queue : Nat
  index : Nat
  deriving DecidableEq, Repr

/-- A convoy on this device (R324 to R337, R346). -/
structure Convoy where
  guest    : BitVec 8
  id       : BitVec 16
  leader   : Nat
  ndev     : Nat
  strag    : Nat
  fallback : Bool
  aborted  : Bool
  stops    : Nat                     -- stops accepted whose time has not come
  stopped  : Bool                    -- its stop is complete
  tp       : Option Word             -- the time of the stop in force
  tpCycle  : Nat                     -- CLK when it took effect
  action   : Option (Action × Word)  -- a two-phase agreement under way, with its time (R336)
  readyAt  : Nat                     -- CLK when the agreement began here
  ready    : List (Nat × Word × List (Nat × Nat))  -- READYs the leader holds: device, time, and its counts by target
  acted    : Option Word             -- the time of the last agreement that was committed here
  dropped  : List Word               -- times of agreements that another device has abandoned before they began here
  strays   : List Nat                -- threads recorded as stragglers of the stop in force (R326)
  sent     : List (Nat × Nat)        -- peer messages sent, by target device
  counted  : Nat                     -- peer messages that READYs have counted for this device
  arrived  : Nat                     -- peer messages of the convoy that have arrived
  done     : Option Control          -- the control record of the stop in force
  actDone  : Option Control          -- that of the agreement
  deriving DecidableEq, Repr

/-- An armed timed-launch record (R334), with the queue and the ring index it came from, and the number that its launch will have, which
places it among the launches of its graph (R351); `fired`: its agreement is under way. -/
structure Armed where
  rcd   : Record
  queue : Option Nat
  index : Nat
  number : Nat
  fired : Bool
  deriving DecidableEq, Repr

/-- A host queue (R350, R353). The ring's records stand in host memory, 64 bytes each. -/
structure Queue where
  guest  : BitVec 8
  ringExp : Nat
  ring   : List (Nat × Line)
  tail   : BitVec 32
  head   : BitVec 32
  qIndex : BitVec 32
  qField : BitVec 8
  qNoop  : Bool
  qStop  : Bool                      -- a record that failed a check stops it
  qStatus : BitVec 8
  deriving DecidableEq, Repr

/-- A peer request of a thread of this device without its answer (R340, R341). `sentAt` is when its limit began; `held` says
that a convoy stop holds it unsent (R325). -/
structure PeerOut where
  rid    : Nat
  tid    : Nat
  va     : Word
  dev    : Nat
  port   : Nat := 0                  -- the peer port that it leaves by (R342)
  named  : BitVec 8                  -- the guest on that device that the peer table names (R340)
  what   : PeerOp
  clock  : Word
  stamp  : Option Word               -- WALL at its issue; none while it is held (R325)
  op     : Nat
  sentAt : Nat
  held   : Bool
  turn   : Nat                       -- the turn in which it was made (R273)
  refusals : Nat                     -- how often the holding tile's park table has refused it (R187)
  launch : Nat                       -- the launch of its thread, which outlives the thread (R325, R326)
  redirected : Bool                  -- its port holds it for a peer table entry (R344)
  again  : Bool                      -- it has been redirected before (R344)
  parked : Bool                      -- the peer says that its home has parked it at a sum-mode line (R142)
  eng    : Option (Nat × Nat × Nat)  -- an engine's: its tile, its command, and the row or element
  deriving DecidableEq, Repr

/-- What this device sends to a peer about a request of it: its answer, a redirect (R344), a holding notice (R340), a monitor's
signal (R191), that the request has been withdrawn (R190), or that its load is parked at a sum-mode line (R142; DEDUCED, log entry 70). -/
inductive AnswerKind where
  | answer | redirect | holding | signal | withdrawn | parked
  deriving DecidableEq, Repr

/-- One such message. -/
structure PeerAnswer where
  dev  : Nat
  rid  : Nat
  val  : Word
  done : Bool                        -- of a full-empty request (R184)
  wts  : Word
  err  : Option Refused
  stamp : Word                       -- of the request that it answers (R325)
  kind : AnswerKind
  deriving DecidableEq, Repr

/-- A peer's request whose page fault is under service, since a cycle (R340). -/
structure HeldPeer where
  req   : PeerReq
  since : Nat
  deriving DecidableEq, Repr

/-- What a device of a pod sends to another about a convoy: the messages of an agreement, with its time (R336), and that it has recorded
stragglers (R326). -/
inductive PodKind where
  | ready (time : Word) (counts : List (Nat × Nat))
  | commit (time : Word) (count : Nat)
  | abandon (time : Word) (missing : List Nat)
  | straggler (n : Nat) (aborts : Bool)   -- R326
  deriving DecidableEq, Repr

structure PodMsg where
  dev    : Nat
  guest  : BitVec 8
  convoy : BitVec 16
  kind   : PodKind
  deriving DecidableEq, Repr

/-- A saved guest (R343): its quarantined accesses in order of arrival; while it is being restored, whether the first of them is under way. -/
structure SavedGuest where
  guest : BitVec 8
  threads : List (Nat × Nat)         -- thread number to the slot it is saved from
  quarantine : List PeerReq
  complete : Bool
  restoring : Bool := false
  serving : Bool := false
  deriving DecidableEq, Repr

/-- A tile's whole state in a firmware area (R303). -/
structure TileImage where
  mx     : MatrixState
  stamps : List (Nat × Stamps)
  park   : List Parked
  lines  : List (Nat × StashLine)
  stash  : List (Nat × Byte)
  deriving DecidableEq, Repr

/-- A guest's image as another device's firmware hands it over (R343): threads, launches, shared banks by core, local store by slot, the state
of its tiles, its posted requests that are parked there, the quarantined accesses in order of arrival, and its FLOOR. Slots, cores, tiles,
home lines and cycles are those that firmware gives it on this device; the numbers of threads, launches, requests and operations are the
image's own. -/
structure GuestImage where
  threads    : List (Nat × Thread)
  launches   : List (Nat × Launch)
  banks      : List (Nat × Vector Word 32)
  local_     : List (Nat × Line)
  tiles      : List (Nat × TileImage)
  tagged     : List Tagged
  quarantine : List PeerReq
  floor      : Word
  deriving DecidableEq, Repr

/-- A line of a page that another device's firmware sends (R121): its place in the page, its bytes, times and full-empty bits. -/
structure PageLine where
  at_  : Nat
  data : Line
  wts  : Word
  rts  : Word
  fe   : BitVec 16
  deriving DecidableEq, Repr

/-- The spares of a tile's site (R374): stash lines, park-table entries and register-file rows. -/
structure Spares where
  stash : Nat
  park  : Nat
  rows  : Nat
  deriving DecidableEq, Repr

def Spares.init : Spares := { stash := 2, park := 2, rows := 2 }

/-- An entry of the firmware error log (R189, R301): a code, a launch or die, an address and a datum. -/
structure LogEntry where
  code : Nat
  who  : Nat
  addr : Word
  data : Word
  deriving DecidableEq, Repr

/-- A fetch and decode of the tile front end (R18). -/
structure Fetch where
  tile  : Nat
  guest : BitVec 8
  pc    : Word
  tid   : Nat
  at_   : Nat
  deriving DecidableEq, Repr

end Sys2Proof.Machine
end

