-- ==== Sys2Proof/Machine/Event.lean ====
section
/-!
DEFINITION. The device's events with their operands. The opcode table gives its event rows no fields, so an event's operands are the
model's reading of the rule that the row names (log entry 3); `State.event` holds them while the event is carried out.
-/

namespace Sys2Proof

open Sys2Proof.Machine

/-! ## Events -/

/-- An event of the opcode table with its operands. The two events that befall an instruction at its issue, DISTANCE_OVERRUN and
UNASSIGNED_ENCODING, concern the issuing thread and have none. -/
inductive Event where
  -- events of threads and cores
  | frameSpill (tid : Nat)
  | frameFill (tid : Nat)
  | rdvPhaseCompletion (core : Nat) (guest : BitVec 8) (k : BitVec 5) (closing phase : Nat)
  | gatherReductionComplete (tid : Nat)
  | publication (a : Access)
  | remoteStashAccess (r : StashReq)
  | parkTableRefusal (r : StashReq)
  | feResend (r : StashReq)
  | withdrawal (tid : Nat)
  | armRequest (tid m arm : Nat) (pa : Nat) (clock : Word)
  | monitorSignal (tid m arm : Nat) (wts : Word)
  | mwaitTimeout (tid : Nat)
  | interrupt (tid : Nat)
  | sleepExpiry (tid : Nat)
  | deadlineLate (tid : Nat)
  -- events of sum mode and the engines
  | declarationAtHome (a : Access) (parts : Nat)
  | sumPartArrival (a : Access) (part : Nat) (data : Line)
  | mergeFailure (pa : Nat)
  | matrixDispatch (tile : Nat)
  | stageAComplete (tile cmd : Nat)
  | stageBComplete (tile cmd : Nat)
  | mmaComplete (tile cmd : Nat)
  | mclrComplete (tile cmd : Nat)
  | flushReadoutComplete (tile cmd : Nat)
  | matrixContextSwitch (tile : Nat) (guest : BitVec 8)
  | engineFault (tile cmd : Nat) (va : Word) (kind code : Nat)
  | groupWatchdog (tile : Nat) (copy : Bool)
  | copyStart (tile : Nat)
  | copyFinish (tile cmd : Nat)
  | xdataWrite (tid : Nat)
  | wallReached (tid : Nat)
  -- events of memory
  | loadReply (r : LoadReply)
  | sendQueueFree (tid : Nat)
  | translationInstalled (tid : Nat)
  | storeAck (op : Nat) (wts : Word) (wb : Option (Nat × Nat))
  | atomicReply (r : AtomicReply)
  | homeLoad (a : Access) (k : LoadKind)
  | homeStore (a : Access) (op : Nat) (data : Line)
  | homeAtomic (a : Access) (op : Nat) (amo : AmoOp) (b d : Word)
  | postedRefusal (op : Nat) (r : Refused)
  | stashFill (tile idx line : Nat) (data : Line) (fe : BitVec 16) (stamp : Word) (err : Option Refused)
  | stashWriteBack (w : WriteBack)
  | dropMessage (tile idx line : Nat) (reg : Word) (op : Nat)
  | recallHolder (line tile : Nat)
  | recallAnswer (line tile : Nat) (stamp reg : Word) (fe : BitVec 16) (data : Option Line) (bad : Option (BitVec 8 × BitVec 8))
  | forwardedLoad (line tile : Nat) (reg : Word) (a : Access) (k : LoadKind)
  | faultServiceEnd (tid : Nat) (cmd : Option Nat) (mapped : Option Tables)  -- of a fault of the thread, or of a command of it
  | pageMigration (start : Bool) (src dst : Option Nat) (frames : Nat) (tables : Tables)
      (lines : List PageLine)   -- from and to frames of this device, or, none, another device; and what comes from there (R121)
  | redirect (m : HomeMsg)
  | tlbShootdown (core : Nat) (what : Shoot) (tid : Nat)
  -- events of launches and couriers
  | unitPlacement (launch : Nat)
  | launchCompletion (launch : Nat)
  | cancel (c : CancelScope)
  | courierSend (tile : Nat)
  | courierArrival (tid slot : Nat)
  -- events of the round
  | predrain
  | stop
  | pack (tile : Nat)
  | ship (tile : Nat)
  | unpack (tile : Nat)
  | resume
  | changeoverPostponement
  | forwardingNote (seq : Nat)
  | heldMessage (seq : Nat)
  -- events of sharing
  | sliceEnd (tile : Nat)
  | scrubPass
  | wayDivision (tile : Nat)
  | tokenRefill
  -- events of errors and repair
  | uncorrectableError (p : ErrPlace)
  | correctedError (l : Location)
  | leakTick
  | retirement (l : Location)
  | linkWake (link : Nat)
  | dieDead (die : Nat)
  | dieReset (die : Nat)
  | contextSave (tile : Nat)
  | contextRestore (tile : Nat)
  -- events of convoys and the pod
  | recordFire (guest : BitVec 8) (convoy : BitVec 16)
  | convoyStop (guest : BitVec 8) (convoy : BitVec 16)
  | stopCompletion (guest : BitVec 8) (convoy : BitVec 16)
  | convoyResume (guest : BitVec 8) (convoy : BitVec 16)
  | stragglerDeadline (guest : BitVec 8) (convoy : BitVec 16) (told : Option (Nat × Bool))   -- here, or told by another device: how many, and whether it aborts
  -- the messages of an agreement name its time
  | ready (guest : BitVec 8) (convoy : BitVec 16) (time : Word) (src : Nat) (counts : List (Nat × Nat))
  | commit (guest : BitVec 8) (convoy : BitVec 16) (time : Word) (count : Nat)
  | abandon (guest : BitVec 8) (convoy : BitVec 16) (time : Word) (missing : List Nat)
  | readyTimeout (guest : BitVec 8) (convoy : BitVec 16)
  | commitTimeout (guest : BitVec 8) (convoy : BitVec 16)
  | syncFrame (podTime : Word) (offset : Int) (slew : Int)
  | holdoverEntry (dev : Nat) (on : Bool)   -- of this device, or as another device of the pod reports it
  | podChangeoverInstant
  | changeoverInstant
  | peerRequest (r : PeerReq)
  | peerFaultService (dev rid : Nat) (mapped : Option Tables)
  | holdingNotice (rid op : Nat) (parked : Bool)   -- of a fault service (R340), or of a sum-mode line that has parked the load (R142)
  | peerTimeout (rid op : Nat)
  | guestSave (guest : BitVec 8)
  | guestRestore (guest : BitVec 8) (image : Option GuestImage)   -- of this device's own save, or as another device's firmware sends it
  -- events of the host and the firmware
  | queueRecord (queue : Nat)
  | qtailWrite (queue : Nat) (v : Word) (records : List (Nat × Line))   -- what the host has put into the ring
  | qstatWrite (queue : Nat) (v : Word)
  | hostWrite (pa : Nat) (guest : BitVec 8) (data : Line)
  -- the key for the first image, where firmware keeps each stack's tables (R119), and the device's index in its pod (R346)
  | boot (key : List Byte) (images : List (List Byte)) (tables : List (Nat × Nat × Nat)) (dev : Nat)
  | attestationRequest (guest : BitVec 8) (nonce : List Byte)
  | thermalTrip
  | powerGate (die : Nat)
  | frctlWrite (die : Nat) (region : BitVec 6) (v : Word)
  | gqosWrite (tile : Nat) (guest : BitVec 8) (v : Word)
  | snapctlWrite (v : Word)
  | snapshotFire
  | basicRegisterWrite (fn : Nat) (v : Word)   -- function 0 is the physical one, 1 + g that of guest g
  | expertRegisterWrite (tile : Nat) (r : ExpertReg) (v : Word)
  | reservationRequest (guest : BitVec 8) (epoch : Word)
  | reservationEnd (guest : BitVec 8)
  | guestCreation (guest : BitVec 8) (first len : Nat) (gen : BitVec 8) (backing : Word)
      (areas : List (Nat × Word))   -- tiles of the device whose backing area does not follow on from `backing` (R103)
      (banks : BitVec 32) (tables : Tables)
      (queues : List (Nat × Nat))   -- the queues that the driver grants it, with their sizes
  -- the entry for a device, or that it is invalid, and the device whose redirected requests it is for (R344)
  | peerTableInstall (guest : BitVec 8) (dev : Nat) (named : Option (BitVec 8)) (old : Nat)
  | linkAwake (link : Nat)
  | acknowledgementWait (tid : Nat) (copy : Option (Record × Bool))   -- and the record that the front desk arms, or disarms (R348, R349)
  deriving DecidableEq, Repr

/-- The row of the opcode table that an event is. -/
def Event.instr : Event → Instr
  | .frameSpill .. => .frameSpill
  | .frameFill .. => .frameFill
  | .rdvPhaseCompletion .. => .rdvPhaseCompletion
  | .gatherReductionComplete .. => .gatherReductionComplete
  | .publication .. => .publication
  | .remoteStashAccess .. => .remoteStashAccess
  | .parkTableRefusal .. => .parkTableRefusal
  | .feResend .. => .feResend
  | .withdrawal .. => .withdrawal
  | .armRequest .. => .armRequest
  | .monitorSignal .. => .monitorSignal
  | .mwaitTimeout .. => .mwaitTimeout
  | .interrupt .. => .interrupt
  | .sleepExpiry .. => .sleepExpiry
  | .deadlineLate .. => .deadlineLate
  | .declarationAtHome .. => .declarationAtHome
  | .sumPartArrival .. => .sumPartArrival
  | .mergeFailure .. => .mergeFailure
  | .matrixDispatch .. => .matrixDispatch
  | .stageAComplete .. => .stageAComplete
  | .stageBComplete .. => .stageBComplete
  | .mmaComplete .. => .mmaComplete
  | .mclrComplete .. => .mclrComplete
  | .flushReadoutComplete .. => .flushReadoutComplete
  | .matrixContextSwitch .. => .matrixContextSwitch
  | .engineFault .. => .engineFault
  | .groupWatchdog .. => .groupWatchdog
  | .copyStart .. => .copyStart
  | .copyFinish .. => .copyFinish
  | .xdataWrite .. => .xdataWrite
  | .wallReached .. => .wallReached
  | .loadReply .. => .loadReply
  | .sendQueueFree .. => .sendQueueFree
  | .translationInstalled .. => .translationInstalled
  | .storeAck .. => .storeAck
  | .atomicReply .. => .atomicReply
  | .homeLoad .. => .homeLoad
  | .homeStore .. => .homeStore
  | .homeAtomic .. => .homeAtomic
  | .postedRefusal .. => .postedRefusal
  | .stashFill .. => .stashFill
  | .stashWriteBack .. => .stashWriteBack
  | .dropMessage .. => .dropMessage
  | .recallHolder .. => .recallHolder
  | .recallAnswer .. => .recallAnswer
  | .forwardedLoad .. => .forwardedLoad
  | .faultServiceEnd .. => .faultServiceEnd
  | .pageMigration .. => .pageMigration
  | .redirect .. => .redirect
  | .tlbShootdown .. => .tlbShootdown
  | .unitPlacement .. => .unitPlacement
  | .launchCompletion .. => .launchCompletion
  | .cancel .. => .cancel
  | .courierSend .. => .courierSend
  | .courierArrival .. => .courierArrival
  | .predrain => .predrain
  | .stop => .stop
  | .pack .. => .pack
  | .ship .. => .ship
  | .unpack .. => .unpack
  | .resume => .resume
  | .changeoverPostponement => .changeoverPostponement
  | .forwardingNote .. => .forwardingNote
  | .heldMessage .. => .heldMessage
  | .sliceEnd .. => .sliceEnd
  | .scrubPass => .scrubPass
  | .wayDivision .. => .wayDivision
  | .tokenRefill => .tokenRefill
  | .uncorrectableError .. => .uncorrectableError
  | .correctedError .. => .correctedError
  | .leakTick => .leakTick
  | .retirement .. => .retirement
  | .linkWake .. => .linkWake
  | .dieDead .. => .dieDead
  | .dieReset .. => .dieReset
  | .contextSave .. => .contextSave
  | .contextRestore .. => .contextRestore
  | .recordFire .. => .recordFire
  | .convoyStop .. => .convoyStop
  | .stopCompletion .. => .stopCompletion
  | .convoyResume .. => .convoyResume
  | .stragglerDeadline .. => .stragglerDeadline
  | .ready .. => .ready
  | .commit .. => .commit
  | .abandon .. => .abandon
  | .readyTimeout .. => .readyTimeout
  | .commitTimeout .. => .commitTimeout
  | .syncFrame .. => .syncFrame
  | .holdoverEntry .. => .holdoverEntry
  | .podChangeoverInstant => .podChangeoverInstant
  | .changeoverInstant => .changeoverInstant
  | .peerRequest .. => .peerRequest
  | .peerFaultService .. => .peerFaultService
  | .holdingNotice .. => .holdingNotice
  | .peerTimeout .. => .peerTimeout
  | .guestSave .. => .guestSave
  | .guestRestore .. => .guestRestore
  | .queueRecord .. => .queueRecord
  | .qtailWrite .. => .qtailWrite
  | .qstatWrite .. => .qstatWrite
  | .hostWrite .. => .hostWrite
  | .boot .. => .boot
  | .attestationRequest .. => .attestationRequest
  | .thermalTrip => .thermalTrip
  | .powerGate .. => .powerGate
  | .frctlWrite .. => .frctlWrite
  | .gqosWrite .. => .gqosWrite
  | .snapctlWrite .. => .snapctlWrite
  | .snapshotFire => .snapshotFire
  | .basicRegisterWrite .. => .basicRegisterWrite
  | .expertRegisterWrite .. => .expertRegisterWrite
  | .reservationRequest .. => .reservationRequest
  | .reservationEnd .. => .reservationEnd
  | .guestCreation .. => .guestCreation
  | .peerTableInstall .. => .peerTableInstall
  | .linkAwake .. => .linkAwake
  | .acknowledgementWait .. => .acknowledgementWait

/-- A held request as the event that brings it back. -/
def HomeMsg.event : HomeMsg → Event
  | .load a k => .homeLoad a k
  | .store a op d => .homeStore a op d
  | .atomic a op o b d => .homeAtomic a op o b d
  | .publish a => .publication a
  | .declare a p => .declarationAtHome a p
  | .part a p d => .sumPartArrival a p d
  | .arm t m n pa c => .armRequest t m n pa c
  | .llc line t drop => .redirect (.llc line t drop)
  | .peer rid op => .redirect (.peer rid op)
  | .host pa g d => .hostWrite pa g d

/-- What falls due on the agenda: an event, or an instruction that completes a wait. -/
inductive Work where
  | event (e : Event)
  | word (i : Instr)
  deriving DecidableEq, Repr

end Sys2Proof
end

