-- ==== Sys2Proof/Machine/State.lean ====
section
/-!
DEFINITION. The state of the device as plain data, and the machine right after reset. Collections keyed by a number are
lists of pairs in rising order of the key (`Machine/KMap.lean` reads and writes them); a key that is not listed stands for
the value the reading operation names (an empty tile, an unmapped frame). Places are numbered along the round as the
parties see them: slot = ((lodge × 64 + tile) × 16 + core) × 16 + slot, core = slot / 16, tile = slot / 256; a changeover
moves every lodge together (R268), so these numbers stay and only the lodges' places on the mesh turn.
-/

namespace Sys2Proof.Machine

open Sys2Proof

/-- Why the model stops. -/
inductive Fault where
  /-- Raised by `exec` of an instruction word when `State.cur` names no running thread: no instruction issues from a free slot
  (R19). Safe: it is a use of `exec` that no step of the machine makes. -/
  | noThread
  /-- Raised by `exec` of an event when `State.event` does not hold that event's operands. Safe: it is a use of `exec` that no step
  of the machine makes. -/
  | noEvent
  deriving DecidableEq, Repr

/-- Why an instruction has no meaning. -/
inductive Refusal where
  /-- The instruction of this mnemonic is not modelled yet. Safe: nothing is claimed of it. No arm of `exec` answers it. -/
  | notModelled (mnemonic : String)
  deriving DecidableEq, Repr

/-! ## The agenda and the state -/

/-- A message in flight, or an event that falls due: the cycle, the order among those of one cycle (R145: class, lodge, place
within the lodge, then sequence number), the channel whose order it keeps (R129), the thread on whose behalf an instruction
is completed, and the step itself. -/
structure Pending where
  due   : Nat
  cls   : Nat
  lodge : Nat
  prio  : Nat
  seq   : Nat
  chan  : Nat × Nat
  cur   : Nat
  turn  : Nat
  note  : Nat                        -- how often it has been forwarded: `turn` stays the turn in which it was addressed (R263)
  unpaid : Option (Nat × Nat × BitVec 8 × Nat)  -- it waits at the egress of a tile since a cycle, for tokens of a guest and their number (R284)
  incarn : Option (Nat × BitVec 16)  -- the die that sent it, and its incarnation number then (R302)
  held  : Bool                       -- it reached its tile in a changeover's pause (R263)
  work  : Work
  deriving DecidableEq, Repr

/-- The report of an attestation (R368). -/
structure Report where
  bytes : Line
  deriving DecidableEq, Repr

/-- What the blocks hold in their snapshot registers since the last trigger (R372): the cycle, where the free values of their words are
read (log entry 22), and each tile's place in the changeover protocol at that point. -/
structure Latched where
  clk    : Nat
  words  : Nat
  phases : List (Nat × Phase)
  deriving DecidableEq, Repr

/-- Device registers as they stood at the start of the cycle, which MFS and CVSTAT read (R308, R346). -/
structure Seen where
  res     : Bool
  hold    : Bool
  chglate : Bool
  offset  : Int
  convoys : List Convoy
  loads   : List (Nat × Nat)         -- core to its ready count (R36)
  wall    : Word
  pexp    : Nat
  guests  : List (Nat × Guest)
  tiles   : List (Nat × Tile)
  regions : List (Nat × Region)
  lease   : Nat
  snapctl : Word
  snapat  : Word
  basic   : List (Nat × Word)
  deriving DecidableEq, Repr

structure State where
  -- time
  clk       : Nat
  wall      : Word
  wallFrac  : Nat                    -- in units of 1 / (21 × 10^6) ns
  slew      : Int                    -- parts per million (R330)
  synced    : Bool                   -- the first synchronisation has been made (R333)
  hold      : Bool
  offset    : Int
  goodSyncs : Nat
  lastSync  : Nat
  -- threads and cores
  threads   : List (Nat × Thread)
  banks     : List (Nat × Vector Word 32)    -- core × 256 + guest to k0–k31
  l1        : List (Nat × List Copy)         -- by core, most recently used first
  utlb      : List (Nat × List TlbEntry)     -- by core, most recently used first
  rdvUpdates : List RdvUpdate
  lateWrites : List LateWrite
  kWrites   : List (Nat × BitVec 8 × BitVec 5 × Nat)  -- core, guest, register, slot: written by an instruction in this cycle
  issuedNow : List (Nat × Nat)               -- threads that have issued in this cycle, with their cores
  fetches   : List Fetch
  -- tiles
  tiles     : List (Nat × Tile)
  stash     : List (Nat × StashLine)         -- tile × 1,024 + line
  l2        : List L2Copy
  locks     : List Lock
  -- homes
  mem       : List Host.Cell
  lines     : List (Nat × HomeLine)
  arms      : List Arm
  frames    : List (Nat × Frame)
  anchors   : List (Nat × Nat)               -- stack × 2^17 + index to the head of a valid chain
  tables    : List (Nat × Nat × Nat)         -- stack to where firmware keeps its inverted table and anchor array in home memory (R119)
  migrating : List (Nat × Nat)               -- frame ranges under migration
  regions   : List (Nat × Region)            -- die × 64 + region
  lease     : Nat
  -- operations in flight
  tagged    : List Tagged
  agenda    : List Pending
  peerOut   : List PeerOut
  peerAnswers : List PeerAnswer
  podOut    : List PodMsg
  heldPeer  : List HeldPeer                  -- peer requests under fault service here (R340)
  -- guests and work
  guests    : List (Nat × Guest)
  launches  : List (Nat × Launch)
  convoys   : List Convoy
  armed     : List Armed
  controls  : List Control
  queues    : List (Nat × Queue)
  saved     : List SavedGuest
  doneOwed  : List (BitVec 8 × Word)         -- completion signals whose page cannot be reached yet: guest and address (R33, R121)
  images    : List (Nat × TileImage)
  -- the round
  pexp      : Nat
  res       : Bool                           -- a reservation is held (R269)
  reservations : List (BitVec 8)             -- by these guests
  epoch     : Word
  instantK  : Nat                            -- number of the pod's next changeover (R338)
  nextInst  : Nat                            -- CLK of the next instant (R269)
  turn      : Nat
  paused    : Bool
  stopAt    : Nat                            -- CLK of the last stop
  preOn     : Bool                           -- pre-drain has begun for the next instant
  chglate   : Bool
  postponed : Nat                            -- postponements counted by firmware (R274)
  -- the pod
  dev       : Nat
  unreachable : List Nat
  podHold   : List Nat                       -- the other devices of the pod that are in holdover, as they have reported
  -- reliability, power and boot
  booted    : Bool
  bootFail  : Bool
  fwm       : List Byte
  reports   : List Report
  errlog    : List LogEntry
  -- locations name a tile by its site: the tile that stood there before the first changeover
  counters  : List (Location × Nat)
  lasting   : List Location
  retired   : List Location
  spares    : List (Nat × Spares)            -- by site (R374)
  derated   : List Nat
  degraded  : Bool
  links     : List Nat                       -- die links reported asleep, whose traffic takes the other path (R301)
  deadDies  : List Nat
  incarn    : List (Nat × BitVec 16)
  accepted  : List (Nat × BitVec 16)         -- the number that firmware has told the receivers for each sender (R302)
  gated     : List (Nat × Nat)               -- compute dies with the ends of their gated steps
  thermal   : Bool
  halted    : Bool                           -- every die stopped (R301, R370)
  snapctl   : Word
  snapat    : Word
  snapDue   : Option Nat
  snap      : Option Latched
  basic     : List (Nat × Word)              -- by function (R373)
  -- the model's own
  cur       : Nat                            -- the thread that issues
  event     : Option Event                   -- the event that is carried out
  inTurn    : Nat                            -- the turn of the request that a home answers at present, else the present one (R263)
  here      : Option Nat                     -- the die at which the present step takes place, whose number its packets carry (R302)
  seen      : Seen
  lateExpert : List (Nat × Nat × ExpertReg × Word)  -- writes to expert registers in this cycle: core, die, register, value (R309, R373)
  owners    : List (Nat × (BitVec 8 × BitVec 8))    -- slot to the guest and generation of its last thread (R101, R280)
  core      : Nat                            -- cores below this have had their turn in this cycle
  fresh     : Nat                            -- where the next free value is read
  seq       : Nat
  nextTid   : Nat
  nextOp    : Nat
  nextRid   : Nat
  nextLaunch : Nat
  deriving DecidableEq, Repr

/-- The machine right after device reset: no thread, no guest, nothing in flight, memory with nothing listed. -/
def State.reset : State :=
  { clk := 0, wall := 0, wallFrac := 0, slew := 0, synced := false, hold := true, offset := 0, goodSyncs := 0, lastSync := 0
    threads := [], banks := [], l1 := [], utlb := [], rdvUpdates := [], lateWrites := [], kWrites := [], issuedNow := [], fetches := []
    tiles := [], stash := [], l2 := [], locks := []
    mem := [], lines := [], arms := [], frames := [], anchors := [], tables := [], migrating := [], regions := [], lease := 16
    tagged := [], agenda := [], peerOut := [], peerAnswers := [], podOut := [], heldPeer := []
    guests := [], launches := [], convoys := [], armed := [], controls := [], queues := [], saved := [], doneOwed := [], images := []
    pexp := 26, res := false, reservations := [], epoch := 0, instantK := 1, nextInst := 2 ^ 26, turn := 0, paused := false, stopAt := 0
    preOn := false, chglate := false, postponed := 0, dev := 0, unreachable := [], podHold := []
    booted := false, bootFail := false, fwm := [], reports := [], errlog := [], counters := [], lasting := [], retired := []
    spares := []
    derated := [], degraded := false, links := [], deadDies := [], incarn := [], accepted := [], gated := [], thermal := false, halted := false
    snapctl := 0, snapat := 0, snapDue := none, snap := none, basic := []
    cur := 0, event := none, inTurn := 0, here := none
    seen := { res := false, hold := true, chglate := false, offset := 0, convoys := [], loads := [], wall := 0, pexp := 26, guests := []
              tiles := [], regions := [], lease := 16, snapctl := 0, snapat := 0, basic := [] }
    lateExpert := [], owners := [], core := 0, fresh := 0, seq := 0, nextTid := 0, nextOp := 1, nextRid := 1, nextLaunch := 1 }

end Sys2Proof.Machine
end

