-- ==== Sys2Proof/Machine/Ops.lean ====
section
/-!
DEFINITION. The named operations over the state that the meanings share: places, threads, tiles, guests and lines; the agenda;
completing an instruction and leaving the rotation (R26); taking an exception (R287 to R292) and returning from one (R316);
ending a thread and freeing its slot (R32, R33, R317).
-/

namespace Sys2Proof.Machine

open Sys2Proof

/-- The outcome of an instruction. -/
abbrev Result := Host.Outcome State Fault Refusal

/-! ## Places (R35) -/

def slotIn (k : Nat) : Nat := k % 16
def coreOf (k : Nat) : Nat := k / 16
def coreIn (k : Nat) : Nat := k / 16 % 16
def tileOf (k : Nat) : Nat := k / 256
def tileIn (k : Nat) : Nat := k / 256 % 64
def lodgeOf (k : Nat) : Nat := k / 16384

/-! ## The mesh (R2, R41, R265, R267)

A place is where a lodge stands: die × 16 + position, each die's 4 × 4 lodges numbered row by row, the four dies in a 2 × 2 square. -/

/-- The distance of two coordinates. -/
def dist (a b : Nat) : Nat := (a - b) + (b - a)

def placeDie (p : Nat) : Nat := p / 16
/-- The row and the column of a place among the device's 8 × 8 lodges. -/
def placeRow (p : Nat) : Nat := p / 32 * 4 + p % 16 / 4
def placeCol (p : Nat) : Nat := p / 16 % 2 * 4 + p % 4
def placeAt (row col : Nat) : Nat := (row / 4 * 2 + col / 4) * 16 + row % 4 * 4 + col % 4

/-- Mesh-adjacent places on one die, or places that face each other across one of the four die crossings (R267). -/
def placesMeet (p q : Nat) : Bool := dist (placeRow p) (placeRow q) + dist (placeCol p) (placeCol q) == 1

/-- A table is a circuit through all 64 lodges in which those that follow each other meet (R267). -/
def isRound (f : Nat → Nat) : Bool :=
  (List.range 64).all (fun k => f k < 64 && placesMeet (f k) (f ((k + 1) % 64))) && decide ((List.range 64).map f).Nodup

/-- One such circuit: along the first row, back and forth through the others, and up the first column. -/
def serpentine (k : Nat) : Nat :=
  if k < 8 then placeAt 0 k
  else if k < 57 then placeAt ((k - 8) / 7 + 1) (if (k - 8) / 7 % 2 = 0 then 7 - (k - 8) % 7 else (k - 8) % 7 + 1)
  else placeAt (64 - k) 0

/-- The place of the k-th lodge of the round (R267): the round table's, whatever circuit that is (log entry 7). -/
def roundPlace (k : Nat) : Nat := if isRound Config.roundTable then Config.roundTable (k % 64) else serpentine (k % 64)

/-- Where a lodge stands at present: a changeover moves every lodge one place along the round (R268). -/
def State.placeOfLodge (s : State) (lodge : Nat) : Nat := roundPlace ((lodge + s.turn) % 64)

/-- The two compute dies that a memory-side die links to (R2): which they are is not given (DESIGN CHOICE, log entry 78). -/
def memoryLinks (m : Nat) : Nat × Nat :=
  let p := Config.memoryLinks m
  if p.1 < 4 ∧ p.2 < 4 ∧ p.1 ≠ p.2 then p else (m / 2, (m / 2 + 1) % 4)

/-- The die links (R2): between neighbouring compute dies, and from each memory-side die, numbered from 4, to two compute dies. -/
def dieLinks : List (Nat × Nat) :=
  [(0, 1), (0, 2), (1, 3), (2, 3)] ++ (List.range 8).map (fun m => (4 + m, (memoryLinks m).1)) ++ (List.range 8).map (fun m => (4 + m, (memoryLinks m).2))

/-- The row and the column of a tile on the device's 64 × 64 grid (R41). -/
def State.tileRow (s : State) (tile : Nat) : Nat := placeRow (s.placeOfLodge (tile / 64)) * 8 + tile % 64 / 8
def State.tileCol (s : State) (tile : Nat) : Nat := placeCol (s.placeOfLodge (tile / 64)) * 8 + tile % 8

/-- The compute die that a tile stands on at present. -/
def State.dieOfTile (s : State) (tile : Nat) : Nat := placeDie (s.placeOfLodge (tile / 64))

/-- The site of a tile: the tile that stood there before the first changeover. What wears out stays with its site (R299, R300, R374). -/
def State.siteOf (s : State) (tile : Nat) : Nat := (tile / 64 + s.turn) % 64 * 64 + tile % 64

/-- The number of a tile in R145's order: die × 1,024 + row × 32 + column. -/
def State.meshNumber (s : State) (tile : Nat) : Nat :=
  s.dieOfTile tile * 1024 + s.tileRow tile % 32 * 32 + s.tileCol tile % 32

/-- Mesh hops between two tiles (R41): their Manhattan distance, and 4 more for each die boundary between them. -/
def State.hops (s : State) (x y : Nat) : Nat :=
  if x / 64 = y / 64 then dist (x % 64 / 8) (y % 64 / 8) + dist (x % 8) (y % 8)
  else
    let d := s.dieOfTile x
    let e := s.dieOfTile y
    dist (s.tileRow x) (s.tileRow y) + dist (s.tileCol x) (s.tileCol y) + 4 * (dist (d / 2) (e / 2) + dist (d % 2) (e % 2))

/-- The nominal delay of a tile-to-tile message (R40). -/
def State.tileDelay (s : State) (x y : Nat) : Nat := Config.latTile + Config.latHop * s.hops x y

/-- Memory keys of the on-chip spaces, above every home address: stash bytes by tile, local-store bytes by slot. -/
def stashKey (tile off : Nat) : Nat := 2 ^ 40 + tile * 2 ^ 17 + off
def localKey (slot off : Nat) : Nat := 2 ^ 41 + slot * 512 + off

/-! ## Parts of the state -/

def State.thread? (s : State) (t : Nat) : Option Thread := KMap.get? s.threads t
def State.setThread (s : State) (t : Nat) (th : Thread) : State := { s with threads := KMap.set s.threads t th }
def State.modThread (s : State) (t : Nat) (f : Thread → Thread) : State :=
  match s.thread? t with
  | some th => s.setThread t (f th)
  | none => s

def State.tile (s : State) (t : Nat) : Tile := KMap.getD s.tiles t .init
def State.setTile (s : State) (t : Nat) (x : Tile) : State := { s with tiles := KMap.set s.tiles t x }
def State.modTile (s : State) (t : Nat) (f : Tile → Tile) : State := s.setTile t (f (s.tile t))

def State.line (s : State) (l : Nat) : HomeLine := KMap.getD s.lines l .init
def State.setLine (s : State) (l : Nat) (x : HomeLine) : State := { s with lines := KMap.set s.lines l x }
def State.modLine (s : State) (l : Nat) (f : HomeLine → HomeLine) : State := s.setLine l (f (s.line l))

def State.guest (s : State) (g : BitVec 8) : Guest := KMap.getD s.guests g.toNat .none
def State.setGuest (s : State) (g : BitVec 8) (x : Guest) : State := { s with guests := KMap.set s.guests g.toNat x }
def State.modGuest (s : State) (g : BitVec 8) (f : Guest → Guest) : State := s.setGuest g (f (s.guest g))

def State.launch? (s : State) (l : Nat) : Option Launch := KMap.get? s.launches l
def State.modLaunch (s : State) (l : Nat) (f : Launch → Launch) : State :=
  match s.launch? l with
  | some x => { s with launches := KMap.set s.launches l (f x) }
  | none => s

def Tile.guest (x : Tile) (g : BitVec 8) : TileGuest := KMap.getD x.guests g.toNat .init
def Tile.modGuest (x : Tile) (g : BitVec 8) (f : TileGuest → TileGuest) : Tile :=
  { x with guests := KMap.set x.guests g.toNat (f (x.guest g)) }

/-- A stash line of its guest's present generation; one of an older generation counts as free (R280). -/
def State.lineLives (s : State) (l : StashLine) : Bool := l.gen == (s.guest l.guest).gen

/-- The resident line at index i of a tile's stash. -/
def State.stashLine? (s : State) (tile i : Nat) : Option StashLine := (KMap.get? s.stash (tile * 1024 + i)).filter s.lineLives
def State.setStashLine (s : State) (tile i : Nat) (l : StashLine) : State := { s with stash := KMap.set s.stash (tile * 1024 + i) l }
def State.dropStashLine (s : State) (tile i : Nat) : State := { s with stash := KMap.erase s.stash (tile * 1024 + i) }

def State.readMem (s : State) (a n : Nat) : List Byte := Memory.readN s.mem a n
def State.writeMem (s : State) (a : Nat) (bs : List Byte) : State := { s with mem := Memory.writeN s.mem a bs }

/-- The thread that occupies a slot, running or halted (R19). -/
def State.occupant (s : State) (k : Nat) : Option (Nat × Thread) := s.threads.find? (fun p => p.2.place == some k)

/-- The threads of a core. -/
def State.onCore (s : State) (c : Nat) : List (Nat × Thread) :=
  s.threads.filter (fun p => match p.2.place with | some k => coreOf k == c | none => false)

/-- In the rotation (R21): waiting for nothing, not halted, not carried, not stopped with its convoy. -/
def Thread.inRotation (th : Thread) : Bool := !th.halted && th.place.isSome && th.wait == .none && !th.stopped

/-- SELF (R35): places count from the party's first lodge. -/
def State.selfOf (s : State) (th : Thread) : Nat :=
  let g := s.guest th.guest
  (lodgeOf th.home + 64 - g.first) % 64 * 2 ^ 14 + tileIn th.home * 2 ^ 8 + coreIn th.home * 2 ^ 4 + slotIn th.home

/-- The tile that a lodge in the party and a tile in the lodge name. -/
def Guest.tile (g : Guest) (lodge tile : Nat) : Nat := (g.first + lodge) % 64 * 64 + tile

/-- Where a party's tile counts in its guest's default backing areas: lodge by lodge. -/
def Guest.tileIndex (g : Guest) (tile : Nat) : Nat := (tile / 64 + 64 - g.first) % 64 * 64 + tile % 64

/-! ## Shared registers (R19, R48) -/

def bankKey (core : Nat) (g : BitVec 8) : Nat := core * 256 + g.toNat
def State.bank (s : State) (core : Nat) (g : BitVec 8) : Vector Word 32 := KMap.getD s.banks (bankKey core g) (Vector.replicate 32 0)
def State.kread (s : State) (core : Nat) (g : BitVec 8) (k : BitVec 5) : Word := (s.bank core g)[k.toNat]
def State.kset (s : State) (core : Nat) (g : BitVec 8) (k : BitVec 5) (v : Word) : State :=
  { s with banks := KMap.set s.banks (bankKey core g) ((s.bank core g).set k.toNat v) }

/-! ## The agenda -/

/-- The order of a place among arrivals of one cycle (R145): class, lodge, place within the lodge (tile by tile). Class 0 holds what a
home takes up again before any arrival (R107), 1 the cores, 2 the front desk, and those from 3 on the peer devices. -/
structure Place where
  cls   : Nat
  lodge : Nat
  prio  : Nat
  deriving DecidableEq, Repr

/-- The places of one tile: 18 for each of its 16 cores (its slots, its engine accesses, and its stash at core 0). -/
def placesPerTile : Nat := 288

def placeOfHeld : Place := { cls := 0, lodge := 0, prio := 0 }
def placeOfSlot (k : Nat) : Place := { cls := 1, lodge := lodgeOf k, prio := k / 16 % 1024 * 18 + slotIn k }
def placeOfEngine (core : Nat) : Place := { cls := 1, lodge := core / 1024, prio := core % 1024 * 18 + 16 }
def placeOfStash (tile : Nat) : Place := { cls := 1, lodge := tile / 64, prio := tile % 64 * 16 * 18 + 17 }
def placeOfFront : Place := { cls := 2, lodge := 0, prio := 0 }
def placeOfPeer (dev : Nat) : Place := { cls := 3 + dev, lodge := 0, prio := 0 }

/-- An agent whose accesses leave through the egress of its tile. -/
def agentOnTile : Agent → Bool
  | .thread _ => true
  | .engine _ _ => true
  | .stash _ => true
  | _ => false

/-- No channel: a step whose order against others only its cycle gives. -/
def noChan : Nat × Nat := (0, 0)

/-- Messages of one thread to one line, of a tile's stash to a home, and of a home to a tile's stash, keep their order (R129, R156). -/
def chanThread (t line : Nat) : Nat × Nat := (1 + 3 * t, line)
def chanToHome (tile line : Nat) : Nat × Nat := (2 + 3 * tile, line)
def chanToStash (tile line : Nat) : Nat × Nat := (3 + 3 * tile, line)

/-- The latest cycle at which something on a channel is due. -/
def lastDue (agenda : List Pending) (chan : Nat × Nat) : Nat :=
  agenda.foldl (fun m p => if chan != noChan && p.chan == chan then max m p.due else m) 0

/-- The die of a home: memory-side dies count from 4, after the compute dies. -/
def homeDie (pa : Nat) : Nat := 4 + pa / 2 ^ 36

/-- The die of a thread's tile. -/
def State.dieOfThread (s : State) (t : Nat) : Option Nat := (KMap.get? s.threads t).map (fun th => s.dieOfTile (tileOf th.home))

/-- The die at which a step of the agenda takes place: that of the home or of the tile that a message reaches, or of its own thread. -/
def State.dieOf (s : State) (cur : Nat) (w : Work) : Option Nat :=
  match w with
  | .event (.homeLoad a _) => some (homeDie a.pa)
  | .event (.homeStore a _ _) => some (homeDie a.pa)
  | .event (.homeAtomic a _ _ _ _) => some (homeDie a.pa)
  | .event (.publication a) => some (homeDie a.pa)
  | .event (.declarationAtHome a _) => some (homeDie a.pa)
  | .event (.sumPartArrival a _ _) => some (homeDie a.pa)
  | .event (.armRequest _ _ _ pa _) => some (homeDie pa)
  | .event (.hostWrite pa _ _) => some (homeDie pa)
  | .event (.mergeFailure pa) => some (homeDie pa)
  | .event (.stashWriteBack w) => some (homeDie (w.line * 128))
  | .event (.dropMessage _ _ line _ _) => some (homeDie (line * 128))
  | .event (.recallAnswer line _ _ _ _ _ _) => some (homeDie (line * 128))
  | .event (.remoteStashAccess r) => some (s.dieOfTile r.tile)
  | .event (.parkTableRefusal r) => some (s.dieOfTile r.src)
  | .event (.feResend r) => some (s.dieOfTile r.src)
  | .event (.stashFill tile _ _ _ _ _ _) => some (s.dieOfTile tile)
  | .event (.recallHolder _ tile) => some (s.dieOfTile tile)
  | .event (.forwardedLoad _ tile _ _ _) => some (s.dieOfTile tile)
  | .event (.loadReply r) => match r.who with
    | .thread t => s.dieOfThread t
    | .engine tile _ => some (s.dieOfTile tile)
    | .stash tile => some (s.dieOfTile tile)
    | _ => none
  | .event (.atomicReply r) => match r.who with
    | .thread t => s.dieOfThread t
    | .engine tile _ => some (s.dieOfTile tile)
    | _ => none
  | .event (.monitorSignal t _ _ _) => s.dieOfThread t
  | .event (.matrixDispatch tile) => some (s.dieOfTile tile)
  | .event (.stageAComplete tile _) => some (s.dieOfTile tile)
  | .event (.stageBComplete tile _) => some (s.dieOfTile tile)
  | .event (.flushReadoutComplete tile _) => some (s.dieOfTile tile)
  | .event (.copyStart tile) => some (s.dieOfTile tile)
  | .event (.copyFinish tile _) => some (s.dieOfTile tile)
  | .event (.pack tile) => some (s.dieOfTile tile)
  | _ => s.dieOfThread cur

/-- The die that sends a packet (R302): the requester's compute die where the packet names it, else the die at which the present step takes
place. -/
def State.senderDie (s : State) (e : Event) : Option Nat :=
  let from_ := fun (a : Access) => if agentOnTile a.who then some (s.dieOfTile (a.core / 16)) else s.here
  match e with
  | .homeLoad a _ => from_ a
  | .homeStore a _ _ => from_ a
  | .homeAtomic a _ _ _ _ => from_ a
  | .publication a => from_ a
  | .declarationAtHome a _ => from_ a
  | .sumPartArrival a _ _ => from_ a
  | .remoteStashAccess r => some (s.dieOfTile r.src)
  | .stashWriteBack w => some (s.dieOfTile w.tile)
  | .dropMessage tile _ _ _ _ => some (s.dieOfTile tile)
  | .recallAnswer _ tile _ _ _ _ _ => some (s.dieOfTile tile)
  | _ => s.here

/-- The incarnation number of a die (R302). -/
def State.incarnation (s : State) (die : Nat) : BitVec 16 := KMap.getD s.incarn die 0

/-- Puts a step of a turn on the agenda for a cycle, no earlier than what its channel already holds, with what its message still has to
pay at an egress (R284), and the die that sends it (R302). -/
def State.postOwing (s : State) (unpaid : Option (Nat × Nat × BitVec 8 × Nat)) (die : Option Nat) (turn : Nat) (p : Place)
    (chan : Nat × Nat) (due cur : Nat) (w : Work) : State :=
  { s with
    agenda := s.agenda ++ [{ due := max due (lastDue s.agenda chan), cls := p.cls, lodge := p.lodge, prio := p.prio
                             seq := s.seq, chan := chan, cur := cur, turn := turn, note := 0, held := false, unpaid := unpaid
                             incarn := die.map (fun d => (d, s.incarnation d)), work := w }]
    seq := s.seq + 1 }

/-- Puts a step of a turn on it. -/
def State.postAs (s : State) (turn : Nat) (p : Place) (chan : Nat × Nat) (due cur : Nat) (w : Work) : State :=
  s.postOwing none none turn p chan due cur w

/-- Puts a step of the present turn on it. -/
def State.post (s : State) (p : Place) (chan : Nat × Nat) (due cur : Nat) (w : Work) : State := s.postAs s.turn p chan due cur w

/-! ### The egress of a tile (R284) -/

/-- Tokens for a number of bytes. -/
def tokensFor (n : Nat) : Nat := (n + 63) / 64

/-- The tile that a message toward the memory-side dies leaves, the guest that pays for it, and its tokens. -/
def State.egress (s : State) (e : Event) : Option (Nat × BitVec 8 × Nat) :=
  let from_ := fun (a : Access) n => if agentOnTile a.who then some (a.core / 16, a.guest, a.tokens.getD n) else none
  match e with
  | .homeLoad a k => from_ a (match k with | .bare => tokensFor a.n | .acq => 1 | _ => 2)
  | .homeStore a _ bs => from_ a (tokensFor bs.length)
  | .homeAtomic a _ _ _ _ => from_ a 1
  | .publication a => from_ a 1
  | .sumPartArrival a _ _ => from_ a 2
  | .stashWriteBack w => some (w.tile, (KMap.get? (KMap.getD s.tiles w.tile .init).banks (w.idx / 32)).getD 0, 2)
  | _ => none

/-- The tokens that a guest holds on a tile, and some of them spent. -/
def Tile.tokensOf (x : Tile) (g : BitVec 8) : Nat := (KMap.getD x.guests g.toNat .init).tokens
def Tile.spend (x : Tile) (g : BitVec 8) (n : Nat) : Tile :=
  let y := KMap.getD x.guests g.toNat .init
  { x with guests := KMap.set x.guests g.toNat { y with tokens := y.tokens - n } }

/-- Requests of a guest wait at the egress of a tile. -/
def State.egressQueue (s : State) (tile : Nat) (g : BitVec 8) : Bool :=
  s.agenda.any (fun p => p.unpaid.any (fun u => u.2.1 == tile && u.2.2.1 == g))

/-- A request that its guest's tokens pay for leaves (R284): the tile with the tokens spent, and the cycle by which the egress has sent it,
behind what it still sends at one token's worth per cycle. -/
def Tile.leaves (x : Tile) (clk : Nat) (g : BitVec 8) (n : Nat) : Tile × Nat :=
  let sent := max clk x.egressFree + n
  ({ x.spend g n with egressFree := sent }, sent)

/-- A guest's request of n tokens can leave a tile at once: its bucket holds them, and no request of the guest waits there (R284). -/
def State.canLeave (s : State) (tile : Nat) (g : BitVec 8) (n : Nat) : Bool :=
  n ≤ (KMap.getD s.tiles tile .init).tokensOf g && !s.egressQueue tile g

/-- Sends a message: its nominal delay, or the egress's where that takes longer (log entry 58), and what contention adds (log entry 2). What a
home sends carries the turn of the request (R263). A request toward the memory-side dies pays for itself, or waits at the egress until its
guest's tokens do (R284). -/
def State.send (s : State) (p : Place) (chan : Nat × Nat) (delay : Nat) (e : Event) : State :=
  let go := fun (s : State) owed sent =>
    ({ s with fresh := s.fresh + 1 }).postOwing owed (s.senderDie e) s.inTurn p chan (max (s.clk + delay) sent + Config.contention s.fresh) s.cur (.event e)
  match s.egress e with
  | none => go s none 0
  | some (tile, g, n) =>
    if s.canLeave tile g n then
      let (x, sent) := (KMap.getD s.tiles tile .init).leaves s.clk g n
      go { s with tiles := KMap.set s.tiles tile x } none sent
    else go s (some (s.clk, tile, g, n)) 0

/-- Puts an event of the device on the agenda for this cycle. -/
def State.now (s : State) (e : Event) : State := s.post placeOfFront noChan s.clk s.cur (.event e)

/-- A free truth value of Config, read at the next fresh number. -/
def State.flip (s : State) (f : Nat → Bool) : Bool × State := (f s.fresh, { s with fresh := s.fresh + 1 })

/-! ## Completing an instruction -/

/-- The loop end check (R74): where the thread goes on after the word at pc, whose successor is `next`, and its levels. The second
test is of the outer level once the inner one is disarmed there: while the inner level is armed at another end, an instruction at
the outer level's end steps no counter (DEDUCED, log entry 63). -/
def loopEnd (pc next : Word) (loops : List LoopLevel) : Word × List LoopLevel :=
  match loops with
  | [] => (next, [])
  | l :: rest =>
    if pc = l.stop then
      if l.count - 1 ≠ 0 then (l.start, { l with count := l.count - 1 } :: rest)
      else match rest with
        | [] => (next, [])
        | o :: rest' =>
          if pc = o.stop then
            if o.count - 1 ≠ 0 then (o.start, { o with count := o.count - 1 } :: rest') else (next, rest')
          else (next, o :: rest')
    else (next, l :: rest)

/-- TRAPC.ACTIVE (R288). -/
def Thread.active (th : Thread) : Bool := th.trapc.getLsbD 63

/-- The word after the one in hand. -/
def Thread.nextWord (th : Thread) : Word := th.pc + BitVec.ofNat 64 th.ilen

/-- Out of every wait, with the marks of the instruction in hand cleared. -/
def Thread.rejoin (th : Thread) : Thread :=
  { th with wait := .none, waitWid := th.waitWid + 1, replay := false, queued := false, forceHome := false, gather := none }

/-- The thread after it has completed an instruction that transfers no control (R74; the check is suspended in a handler, R76). -/
def Thread.advance (th : Thread) : Thread :=
  let r := if th.active then (th.nextWord, th.loops) else loopEnd th.pc th.nextWord th.loops
  { th.rejoin with pc := r.1, loops := r.2, issued := th.issued + 1 }

/-- The levels that a taken branch to `target` leaves armed (R75). -/
def loopsAfterBranch (target : Word) (loops : List LoopLevel) : List LoopLevel :=
  loops.dropWhile (fun l => !(l.start ≤ target && target ≤ l.stop))

/-- The thread after it has completed a transfer to `target`; `disarms` for the branches that R75 names. -/
def Thread.jumpTo (th : Thread) (target : Word) (disarms : Bool) : Thread :=
  { th.rejoin with
    pc := target, issued := th.issued + 1
    loops := if disarms && !th.active then loopsAfterBranch target th.loops else th.loops }

/-- The instruction of thread t completes. -/
def State.retire (s : State) (t : Nat) (th : Thread) : State := s.setThread t th.advance

/-- The thread as an instruction of it leaves the rotation: its clock and its shared bank stay as that instruction saw them at its
issue, also where one wait of it follows another (R26, R48, R152). -/
def State.leaving (s : State) (th : Thread) : Thread :=
  if th.replay || th.wait != .none then th else { th with issueClock := th.lts, issueBank := s.bank (coreOf th.home) th.guest }

/-- The clock that the instruction in hand was issued with (R152, R183). -/
def Thread.clock (th : Thread) : Word := if th.replay then th.issueClock else th.lts

/-- The clock that an access to a stash carries: a publication's is the thread's when it is made (R180). -/
def Thread.clockFor (th : Thread) : StashOp → Word
  | .publish => th.lts
  | _ => th.clock

/-- The thread leaves the rotation (R26). -/
def State.await (s : State) (t : Nat) (th : Thread) (w : Wait) : State :=
  s.setThread t { s.leaving th with wait := w, waitWid := th.waitWid + 1 }

/-- The waiting instruction of thread t is carried out now, in the cycle it rejoins, at a place among the steps of the cycle; it does not
issue again (R26), and reads the operands that it had at its issue (`State.leaving`; DEDUCED, log entry 51). -/
def State.resumeAt (s : State) (p : Place) (t : Nat) (i : Instr) (f : Thread → Thread) : State :=
  match s.thread? t with
  | some th => (s.setThread t (f { th with wait := .none, waitWid := th.waitWid + 1, replay := true })).post p noChan s.clk t (.word i)
  | none => s

/-- The same at the place of its slot. -/
def State.resumeWith (s : State) (t : Nat) (i : Instr) (f : Thread → Thread) : State :=
  s.resumeAt (placeOfSlot (((s.thread? t).map (fun th => th.home)).getD 0)) t i f

/-- An instruction word is carried out for the thread that issues, when one does; its length and the registers it names are
noted on the thread. A thread saved with its wait completes the instruction where it stands (R325). -/
def onThread (s : State) (len : Nat) (regs : List Reg) (f : Nat → Thread → State) : Result :=
  match s.thread? s.cur with
  | some th =>
    if th.halted || (th.place.isNone && !th.replay) then .fault .noThread
    else .next (f s.cur { th with
      ilen := len
      usedShared := th.usedShared || regs.any (fun r => match r with | .k _ => true | .x _ => false) })
  | none => .fault .noThread

/-- An event is carried out with the operands that the state holds for it. -/
def onEvent (s : State) (f : State → Event → Option State) : Result :=
  match s.event with
  | some e =>
    match f { s with event := none } e with
    | some s' => .next s'
    | none => .fault .noEvent
  | none => .fault .noEvent

/-! ## Logical time -/

/-- An instruction of the thread raises its clock as it completes. -/
def Thread.raise (th : Thread) (w : Word) : Thread := { th with lts := maxW th.lts w, ltsSeen := maxW th.ltsSeen w }

/-- An acknowledgement raises it; an MFS of the same cycle does not see that yet (R308). -/
def Thread.raiseAck (th : Thread) (w : Word) : Thread := { th with lts := maxW th.lts w, acked := th.acked + 1 }

/-- A wait for acknowledgements has ended: the thread's next instruction sees those that ended it, also in the same cycle (R23, R308). -/
def Thread.seesAcks (th : Thread) : Thread := { th with ltsSeen := th.lts, acked := 0 }

/-- FLOOR rises to a time (R154). -/
def State.raiseFloor (s : State) (g : BitVec 8) (w : Word) : State := s.modGuest g (fun x => { x with floor := maxW x.floor w })

/-! ## Tagged operations (R126, R127) -/

def State.outstanding (s : State) (t : Nat) : List Tagged := s.tagged.filter (fun x => x.tid == t && x.engine.isNone)

/-- The next tag: after 0xFFFF_FFFF comes 1. -/
def nextTag (t : BitVec 32) : BitVec 32 := if t + 1 = 0 then 1 else t + 1

/-- A tagged operation issues: it takes the slot's next tag and awaits `left` acknowledgements. -/
def State.takeTag (s : State) (t : Nat) (th : Thread) (va : Word) (pa key : Option Nat) (len left : Nat) (data : Word) : State × Thread × Nat :=
  let th := { th with lastTag := nextTag th.lastTag }
  let x : Tagged := { op := s.nextOp, tid := t, launch := th.launch, tag := th.lastTag, va := va, pa := pa, key := key, len := len
                      left := left, data := data, wb := false, engine := none }
  ({ s with nextOp := s.nextOp + 1, tagged := if left = 0 then s.tagged else s.tagged ++ [x] }, th, s.nextOp)

/-- The firmware error log (R189, R301). -/
def State.log (s : State) (code who : Nat) (addr data : Word) : State :=
  { s with errlog := s.errlog ++ [{ code := code, who := who, addr := addr, data := data }] }

/-! ## Launches (R33) -/

/-- The engine commands, queued or running, of a launch. -/
def State.commandsOf (s : State) (l : Nat) : Nat :=
  (s.tiles.map (fun p => ((p.2.mqueue ++ p.2.mrun ++ p.2.cqueue ++ p.2.crun).filter (fun c => c.launch == l)).length)).sum

/-- Whether a launch has met the conditions of R33. -/
def State.launchDone (s : State) (l : Nat) : Bool :=
  match s.launch? l with
  | some x =>
    x.status == .running && (x.cancelled || x.placed == x.rcd.units)
      && s.threads.all (fun p => p.2.launch != l || p.2.halted)
      && s.tagged.all (fun g => g.launch != l)
      && s.commandsOf l == 0
  | none => false

/-- A launch that has met them completes in this cycle. -/
def State.checkLaunch (s : State) (l : Nat) : State :=
  if s.launchDone l then s.now (.launchCompletion l) else s

/-! ## Ending a thread (R317) and freeing its slot -/

/-- A launch goes into a list in the order in which launches started. -/
def insertStarted (p : Nat × Launch) : List (Nat × Launch) → List (Nat × Launch)
  | [] => [p]
  | q :: qs => if p.2.started < q.2.started then p :: q :: qs else q :: insertStarted p qs

/-- The launches that still have a unit to place, in the order in which they started (R30). -/
def State.waitingLaunches (s : State) : List Nat :=
  ((s.launches.filter (fun p => p.2.status == .running && !p.2.cancelled && p.2.placed < p.2.rcd.units)).foldl
    (fun l p => insertStarted p l) []).map (·.1)

/-- The first of some waiting launches is offered a place; one that has no use for it passes the offer on (`State.placeNext`). -/
def State.offerUnits (s : State) (ls : List Nat) : State :=
  match ls with
  | [] => s
  | l :: _ => s.now (.unitPlacement l)

/-! ### Slots of a tile that guests share (R278, R279) -/

/-- The thread that occupies slot k, in it, or that is on its way into it (R38). -/
def State.slotTaken (s : State) (k : Nat) : Bool := s.threads.any (fun p => p.2.place == some k || (p.2.home == k && p.2.wait == .courier))

/-- The guests that have threads in the slots of a core. -/
def State.guestsOn (s : State) (core : Nat) : List (BitVec 8) := ((s.onCore core).map (fun p => p.2.guest)).eraseDups

/-- Whether a guest's thread may enter a slot of the tile now: the tile runs the guest, or no other, and one of the core's two
shared banks is the guest's or free (R278, R279). -/
def State.mayEnter (s : State) (slot : Nat) (g : BitVec 8) : Bool :=
  ((s.tile (tileOf slot)).current.all (· == g)) && !s.slotTaken slot &&
    ((s.guestsOn (coreOf slot)).filter (· != g)).length < 2

/-- A thread that is saved without a wait of its own and without a stop that holds it. -/
def Thread.ready (th : Thread) : Bool := th.place.isNone && !th.halted && !th.stopped && th.wait != .courier

/-- Every saved thread of a tile that may enter its slot does; its first issue comes no sooner than 64 cycles later (R278). -/
def State.enterSlots (s : State) (tile : Nat) : State :=
  (s.threads.filter (fun p => tileOf p.2.home == tile && p.2.ready)).foldl (fun s p =>
    if s.mayEnter p.2.home p.2.guest then
      s.setThread p.1 { p.2 with place := some p.2.home, lastIssue := some (s.clk + 56) }
    else s) s

/-! ### Queues of the engines (R197, R222, R226) -/

def Tile.queue (x : Tile) (copy : Bool) : List Cmd := if copy then x.cqueue else x.mqueue

/-- A queue changes; its watchdog counts anew when another command stands at its head (R226). -/
def Tile.setQueue (x : Tile) (copy : Bool) (q : List Cmd) : Tile :=
  let same := ((x.queue copy).head?.map (·.id)) == (q.head?.map (·.id))
  if copy then { x with cqueue := q, cwatch := if same then x.cwatch else 0 }
  else { x with mqueue := q, mwatch := if same then x.mwatch else 0 }

/-- Whether an instruction waits for an entry of the matrix or of the copy queue. -/
def entersQueue (copy : Bool) : Instr → Bool
  | .mstagea .. => !copy
  | .mstageb .. => !copy
  | .mma .. => !copy
  | .mflush .. => !copy
  | .mflushSum .. => !copy
  | .mclr .. => !copy
  | .cpy .. => copy
  | .cpyFill .. => copy
  | _ => false

/-- Thread p issued before another: by the cycle of its last issue, then by its slot. -/
def issuedFirst (p q : Nat × Thread) : Bool :=
  let a := p.2.lastIssue.getD 0
  let b := q.2.lastIssue.getD 0
  a < b || (a == b && p.2.home < q.2.home)

/-- A thread that waits for an entry of a queue and has not been let in yet. -/
def State.queuesFor (s : State) (tile : Nat) (copy : Bool) (t : Nat) (th : Thread) : Bool :=
  tileOf th.home == tile && (match th.wait with | .sendQueue i => entersQueue copy i | _ => false) &&
    !s.agenda.any (fun q => q.work == .event (.sendQueueFree t))

/-- Entries of a queue have freed: as many threads of the tile as entries, those first that issued first among the ones waiting, go on
(R26, R222). -/
def State.letIn (s : State) (tile : Nat) (copy : Bool) (entries : Nat) : State :=
  let ws := s.threads.filter (fun p => s.queuesFor tile copy p.1 p.2)
  let sorted := ws.foldl (fun (l : List (Nat × Thread)) p => l.takeWhile (issuedFirst · p) ++ p :: l.dropWhile (issuedFirst · p)) []
  (sorted.take entries).foldl (fun (s : State) p => s.post (placeOfSlot p.2.home) noChan s.clk p.1 (.event (.sendQueueFree p.1))) s

/-- Commands leave a queue otherwise than by their dispatch: those that `keep` refuses. -/
def State.dropQueued (s : State) (tile : Nat) (copy : Bool) (keep : Cmd → Bool) : State :=
  let q := (s.tile tile).queue copy
  let q' := q.filter keep
  if q'.length = q.length then s
  else (s.modTile tile (fun x => x.setQueue copy q')).letIn tile copy (q.length - q'.length)

/-- Slots of a tile have freed: saved threads that may enter them do so at once (R278), and waiting units are offered the rest (R30). -/
def State.slotsFreed (s : State) (tile : Nat) : State := (s.enterSlots tile).offerUnits s.waitingLaunches

/-- The slot of thread t frees: held commands of the slot are discarded (R197). -/
def State.freeSlot (s : State) (t : Nat) (th : Thread) : State :=
  let keep := fun (c : Cmd) => !(c.tid == t && c.held.isSome)
  let s := { s with threads := KMap.erase s.threads t }
  let s := (s.dropQueued (tileOf th.home) false keep).dropQueued (tileOf th.home) true keep
  (s.checkLaunch th.launch).slotsFreed (tileOf th.home)

/-- Whether t is, or was spawned by, context zero c. -/
def inUnit (c : Nat) (p : Nat × Thread) : Bool := p.1 == c || p.2.parent == some c

/-- A unit ends when context zero and every thread it spawned have halted; its slots then free (R32). -/
def State.endUnit (s : State) (c : Nat) : State :=
  match s.thread? c with
  | some _ =>
    let unit := s.threads.filter (inUnit c)
    if unit.all (fun p => p.2.halted) then unit.foldl (fun s p => s.freeSlot p.1 p.2) s else s
  | none => s

/-- A register written by an instruction that completes without issuing in this cycle: a shared one lands at the end of it (R48). -/
def State.writeRegLate (s : State) (th : Thread) (r : Reg) (v : Word) : State × Thread :=
  match r with
  | .x n => (s, if n = 0 then th else { th with x := th.x.set n.toNat v })
  | .k n =>
    ({ s with lateWrites := s.lateWrites ++
        [{ core := coreOf th.home, guest := th.guest, k := n, slot := slotIn th.home, val := v, clear := false }] }, th)

/-- Writes a register of a thread (R47); a shared register lands at once and is noted for R48, unless the instruction completes without
issuing in this cycle. -/
def State.writeReg (s : State) (th : Thread) (r : Reg) (v : Word) : State × Thread :=
  if th.replay then s.writeRegLate th r v
  else match r with
    | .x n => (s, if n = 0 then th else { th with x := th.x.set n.toNat v })
    | .k n =>
      ({ s.kset (coreOf th.home) th.guest n v with
         kWrites := s.kWrites ++ [(coreOf th.home, th.guest, n, slotIn th.home)] }, th)

/-- REAP completes (R83): `dead` is the halted thread d. -/
def State.reaped (s : State) (t : Nat) (th : Thread) (r : Reg) (d : Nat) (dead : Thread) (late : Bool) : State :=
  let (s, th) := if late then s.writeRegLate th r dead.x[8] else s.writeReg th r dead.x[8]
  (s.retire t (th.raise dead.lts)).freeSlot d dead

/-- Whether a REAP may take thread t: halted, every store acknowledged (R83). -/
def State.reapable (s : State) (t : Nat) (th : Thread) : Bool := th.halted && (s.outstanding t).isEmpty

/-- What the end of thread t, or an acknowledgement for it after its end, allows: a waiting REAP, the end of its unit, or the
freeing of its slot (R32, R83, R317). -/
def State.settle (s : State) (t : Nat) : State :=
  match s.thread? t with
  | none => s
  | some th =>
    if !th.halted then s
    else
      match th.parent with
      | some c =>
        match s.thread? c with
        | some p =>
          match p.wait with
          | .reap r k => if k == slotIn th.home && s.reapable t th then s.reaped c p r t th true else s.endUnit c
          | _ => s.endUnit c
        | none => s
      | none =>
        if slotIn th.home = 0 then s.endUnit t
        else if (s.outstanding t).isEmpty then s.freeSlot t th
        else s

/-- Thread t ends (R317): it leaves the rotation for good, its monitors are disarmed, its bindings and barrier records dropped;
FLOOR rises to its clock (R154). -/
def State.haltThread (s : State) (t : Nat) (th : Thread) : State :=
  let th := { th.rejoin with
    halted := true, loops := [], bindings := [], brecs := [], cancel := none
    mons := Vector.replicate 4 { arm := 0, signal := none } }
  let s := { (s.setThread t th).raiseFloor th.guest th.lts with arms := s.arms.filter (fun a => a.tid != t) }
  (s.settle t).checkLaunch th.launch

/-- The status that a thread's end reports against its launch (R291). -/
inductive EndStatus where
  | cancelled | faulted
  deriving DecidableEq, Repr

/-- The front end records against a launch how one of its threads ended, and the first cause of it (R291). -/
def Launch.blame (l : Launch) (e : EndStatus) (cause detail : Nat) : Launch :=
  let l := match e with
    | .cancelled => { l with cancelled := true }
    | .faulted => { l with faulted := true }
  { l with cause := if l.cause.isSome then l.cause else some (cause, detail) }

def State.endThread (s : State) (t : Nat) (th : Thread) (e : EndStatus) (cause detail : Nat) : State :=
  (s.modLaunch th.launch (fun l => l.blame e cause detail)).haltThread t th

/-! ## Exceptions -/

/-- Cause codes (R289). -/
def causeIllegalInstr : Nat := 0x01
def causeIllegalState : Nat := 0x02
def causeMisaligned : Nat := 0x03
def causeProtection : Nat := 0x04
def causePageFault : Nat := 0x05
def causeFrameOverflow : Nat := 0x07
def causeDivZero : Nat := 0x08
def causeFeRetry : Nat := 0x09
def causeLate : Nat := 0x0A
def causeEngine : Nat := 0x0B
def causeOverrun : Nat := 0x0C
def causeCancel : Nat := 0x0D
def causeStraggler : Nat := 0x0E
def causeUncorrectable : Nat := 0x0F
def causeSoftware : Nat := 0x10

/-- TRAPC at trap entry (R288): ACTIVE, DETAIL and CAUSE. -/
def trapcOf (cause detail : Nat) : Word := BitVec.ofNat 64 (2 ^ 63 + detail % 2 ^ 16 * 2 ^ 16 + cause % 2 ^ 8)

/-- The thread in its handler (R287). -/
def Thread.enter (th : Thread) (cause detail : Nat) (addr : Option Word) (epc : Word) : Thread :=
  { th.rejoin with
    epc := epc, trapc := trapcOf cause detail, taddr := addr.getD th.taddr, dist := 0, pc := th.tvec }

/-- A trap of the armed cause sets the snapshot's cycle (R372). -/
def State.snapTrap (s : State) (cause : Nat) : State :=
  if s.snapctl.getLsbD 63 && bits s.snapctl.toNat 8 4 == 1 && bits s.snapctl.toNat 0 8 == cause && s.snapDue.isNone then
    { s with snapDue := some (s.clk + 64) }
  else s

/-- Thread t takes a trap in this cycle (R287). With TVEC 0 it ends (R291), and so does a thread whose handler is running (R292). -/
def State.takeTrap (s : State) (t : Nat) (th : Thread) (cause detail : Nat) (addr : Option Word) (epc : Word) : State :=
  let th := { th with lastIssue := some s.clk }
  let s := s.snapTrap cause
  if th.active then (s.log 0x30 th.launch epc (BitVec.ofNat 64 cause)).endThread t th .faulted cause detail
  else if th.tvec = 0 then s.endThread t th (if cause = causeCancel then .cancelled else .faulted) cause detail
  else s.setThread t (th.enter cause detail addr epc)

/-- A precise trap at the instruction in hand. -/
def State.trapHere (s : State) (t : Nat) (th : Thread) (cause detail : Nat) (addr : Option Word) : State :=
  s.takeTrap t th cause detail addr th.pc

def State.illegalInstr (s : State) (t : Nat) (th : Thread) : State := s.trapHere t th causeIllegalInstr 0 none
def State.illegalState (s : State) (t : Nat) (th : Thread) : State := s.trapHere t th causeIllegalState 0 none
def State.misaligned (s : State) (t : Nat) (th : Thread) (a : Word) : State := s.trapHere t th causeMisaligned 0 (some a)
def State.protection (s : State) (t : Nat) (th : Thread) (step : Nat) (a : Word) : State :=
  s.trapHere t th causeProtection step (some a)

/-- The return from a handler (R316): PC := EPC, ACTIVE cleared, the loop end check resumed. -/
def Thread.leaveHandler (th : Thread) : Thread :=
  { th.rejoin with pc := th.epc, trapc := th.trapc &&& (BitVec.ofNat 64 (2 ^ 63 - 1)), issued := th.issued + 1 }

/-! ## Events that belong to no instruction (R294) -/

/-- Takes a pending event of groups 1 or 2 at the instruction about to issue, or at the waiting one. -/
def State.takeEvent (s : State) (t : Nat) (th : Thread) (e : TrapEvent) : State :=
  let th := match e.ef with | some (a, i) => { th with efaddr := a, efinfo := i } | none => th
  let th := match e.fe with | some (a, d) => { th with feaddr := a, fedata := d } | none => th
  s.takeTrap t th e.cause e.detail e.addr th.pc

/-- The event of the first three groups that the next issue takes, with the thread as it stands without it. -/
def Thread.nextEvent (th : Thread) : Option (TrapEvent × Thread) :=
  match th.engEvents with
  | e :: es => some (e, { th with engEvents := es })
  | [] =>
    match th.postEvents with
    | e :: es => some (e, { th with postEvents := es })
    | [] =>
      if th.straggler then
        some ({ cause := causeStraggler, detail := 0, addr := none, tag := 0, ef := none, fe := none }, { th with straggler := false })
      else none

/-- A thread that waits has a cancel or an event to take; an active handler takes events later (R34, R292, R294). -/
def Thread.hasPending (th : Thread) : Bool := th.cancel.isSome || (!th.active && th.nextEvent.isSome)

/-- A cancel or a pending event takes a thread at the instruction it waits in (R34, R294). -/
def State.takePending (s : State) (t : Nat) (th : Thread) : State :=
  match th.cancel with
  | some d => if th.active then s.endThread t th .cancelled causeCancel d else s.takeTrap t { th with cancel := none } causeCancel d none th.pc
  | none => if th.active then s
    else match th.nextEvent with
      | some (e, th) => s.takeEvent t th e
      | none => s

/-- The thread as the instruction that it waits in leaves it when it is not carried out: a waited atomic gives back its tag (R287). -/
def Thread.unissued (th : Thread) : Thread :=
  match th.wait with
  | .atomic _ _ _ _ last => { th with lastTag := last }
  | _ => th

/-- Keeps the losses of posted accesses in the order in which their tags were issued (R294): the one whose tag lies further behind the
slot's last tag, round the wrap after 0xFFFF_FFFF, was issued first. -/
def insertEvent (last : BitVec 32) (e : TrapEvent) : List TrapEvent → List TrapEvent
  | [] => [e]
  | x :: xs => if (last - BitVec.ofNat 32 x.tag) < (last - BitVec.ofNat 32 e.tag) then e :: x :: xs else x :: insertEvent last e xs

end Sys2Proof.Machine
end

