-- ==== Sys2Proof/Machine/Flags.lean ====
section
/-!
DEFINITION. Guard slots, the machine's only flags (R66, R196), and what a resolution does to the commands held on one (R197).
Integer, floating and packed instructions set no flag (R60, R237, R241).
-/

namespace Sys2Proof.Machine

open Sys2Proof

/-- QTEST's reading of a guard (R196). -/
def Guard.value : Guard → Word
  | .tt => 1
  | .ff => 0
  | .unresolved => 2

/-- A command is held under guard q of thread t. -/
def Cmd.heldOn (c : Cmd) (t : Nat) (q : BitVec 3) : Bool := c.tid == t && c.held == some q

/-- The commands held under guard q of thread t issue. -/
def issueHeld (t : Nat) (q : BitVec 3) (cs : List Cmd) : List Cmd := cs.map (fun c => if c.heldOn t q then { c with held := none } else c)

/-- A resolution of guard q of thread t to b, the thread as `th`: true issues the commands that are held under it, false discards them
(R197). -/
def State.resolve (s : State) (t : Nat) (th : Thread) (q : BitVec 3) (b : Bool) : State × Thread :=
  let tile := tileOf th.home
  let s :=
    if b then s.modTile tile (fun x => { x with mqueue := issueHeld t q x.mqueue, cqueue := issueHeld t q x.cqueue })
    else (s.dropQueued tile false (fun c => !c.heldOn t q)).dropQueued tile true (fun c => !c.heldOn t q)
  (s, { th with q := th.q.set q.toNat (if b then .tt else .ff) })

/-- QCLR: the guard is unresolved; held commands stay held (R196, R197). -/
def Thread.clearGuard (th : Thread) (q : BitVec 3) : Thread := { th with q := th.q.set q.toNat .unresolved }

/-- A guard read as data (R66): none where it is unresolved. -/
def Guard.asData : Guard → Option Bool
  | .tt => some true
  | .ff => some false
  | .unresolved => none

end Sys2Proof.Machine
end

