-- ==== Sys2Proof/Machine/Operands.lean ====
section
/-!
DEFINITION. Operands of instruction words: registers (R47), immediates and offsets (R46), addresses of the M, R and 16-bit forms,
and the shape of an instruction that only computes a result.
-/

namespace Sys2Proof.Machine

open Sys2Proof

/-- The value of a source register: x0 reads 0, a shared register the bank of the thread's guest on its core (R20, R47), which an
instruction that has waited read at its issue (R26; log entry 51). -/
def State.readReg (s : State) (th : Thread) (r : Reg) : Word :=
  match r with
  | .x n => if n = 0 then 0 else th.x[n.toNat]
  | .k n => if th.replay then th.issueBank[n.toNat] else s.kread (coreOf th.home) th.guest n

/-- imm10 and the other signed immediates (R46). -/
def immS {n : Nat} (i : BitVec n) : Word := i.signExtend 64

/-- A branch target: halfwords from the branch's own address (R46). -/
def branchTarget {n : Nat} (pc : Word) (o : BitVec n) : Word := pc + ((o.signExtend 64) <<< 1)

/-- The address of the M form, a + imm10 (R93). -/
def State.addrM (s : State) (th : Thread) (a : Reg) (i : BitVec 10) : Word := s.readReg th a + immS i

/-- The address of an indexed form: the index is signed and scaled by the width (R124). -/
def State.addrX (s : State) (th : Thread) (a b : Reg) (n : Nat) : Word := s.readReg th a + s.readReg th b * BitVec.ofNat 64 n

/-- The address of the 16-bit loads and stores: imm7 × 8 above x2 (R51). -/
def Thread.addr16 (th : Thread) (i : BitVec 7) : Word := th.x[2] + BitVec.ofNat 64 (i.toNat * 8)

/-- A 4-bit register field of a 16-bit word names x0 to x15 (R50). -/
def x16 (d : BitVec 4) : Reg := .x (d.setWidth 5)

/-- A write to d and completion, in the issue cycle (R58). -/
def State.result (s : State) (t : Nat) (th : Thread) (d : Reg) (v : Word) : State :=
  let (s, th) := s.writeReg th d v
  s.retire t th

/-- An instruction that writes d from two registers, from one, or from one and an immediate, and does nothing else. -/
def alu2 (len : Nat) (d a b : Reg) (f : Word → Word → Word) (s : State) : Result :=
  onThread s len [d, a, b] (fun t th => s.result t th d (f (s.readReg th a) (s.readReg th b)))

def alu1 (len : Nat) (d a : Reg) (f : Word → Word) (s : State) : Result :=
  onThread s len [d, a] (fun t th => s.result t th d (f (s.readReg th a)))

/-- An instruction that also reads d. -/
def alu3 (len : Nat) (d a b : Reg) (f : Word → Word → Word → Word) (s : State) : Result :=
  onThread s len [d, a, b] (fun t th => s.result t th d (f (s.readReg th a) (s.readReg th b) (s.readReg th d)))

/-- A register as the instruction that a thread waits in read it at its issue. -/
def State.waitedReg (s : State) (th : Thread) (r : Reg) : Word := s.readReg { th with replay := true } r

end Sys2Proof.Machine
end

