-- ==== Sys2Proof/Machine/Mem.lean ====
section
/-!
DEFINITION. Memory as programs see it (chapter 07): the address map (R99), translation (R117 to R120), the checks of R122 in their
order, home bytes with format regions (R116, R228), and which home bytes back a stash offset (R103).
-/

namespace Sys2Proof.Machine

open Sys2Proof

/-! ## The address map (R99) -/

inductive Space where
  | global
  | peer (dev : Nat)
  | own
  | party
  | loc
  | peerStash (dev : Nat)
  | reserved
  deriving DecidableEq, Repr

/-- Bits 55:0 of an address. -/
def low56 (va : Word) : Nat := va.toNat % 2 ^ 56
/-- Bits 63:56. -/
def topByte (va : Word) : Nat := va.toNat / 2 ^ 56

/-- The space of an address; a peer form of the device's own index is the local form. -/
def State.spaceOf (s : State) (va : Word) : Space :=
  let t := topByte va
  if t = 0 then .global
  else if 0x40 ≤ t ∧ t < 0x80 then (if t - 0x40 = s.dev then .global else .peer (t - 0x40))
  else if t = 0x80 then .own
  else if t = 0x81 then .party
  else if t = 0x82 then .loc
  else if 0xC0 ≤ t then (if t - 0xC0 = s.dev then .party else .peerStash (t - 0xC0))
  else .reserved

/-- The stash offset, and the lodge and tile fields, of a party-stash address. -/
def stashOff (va : Word) : Nat := va.toNat % 2 ^ 17
def tileField (va : Word) : Nat := bits va.toNat 17 6
def lodgeField (va : Word) : Nat := bits va.toNat 23 6

/-- Whether a guest's peer table has an entry for a device (R340). -/
def Guest.peerOk (g : Guest) (dev : Nat) : Bool := (KMap.get? g.peers dev).isSome

/-- Step 2 of R122: the address and n bytes from it lie in an assigned space, within its bound; so does the address alone, where n is 0. -/
def State.spaceOk (s : State) (g : BitVec 8) (va : Word) (n : Nat) : Bool :=
  let n := max 1 n
  match s.spaceOf va with
  | .global => true
  | .peer d => (s.guest g).peerOk d
  | .own => low56 va + n ≤ 2 ^ 17
  | .party => low56 va < 2 ^ 29 && stashOff va + n ≤ 2 ^ 17 && lodgeField va < (s.guest g).len
  | .loc => low56 va + n ≤ Config.localBytes
  | .peerStash d => low56 va < 2 ^ 29 && stashOff va + n ≤ 2 ^ 17 && (s.guest g).peerOk d
  | .reserved => false

/-- The spaces of the rows of R123. -/
def kindData : Space → Bool
  | .reserved => false
  | _ => true
def kindAmo : Space → Bool
  | .reserved => false
  | .loc => false
  | _ => true
def kindGlobal : Space → Bool
  | .global => true
  | _ => false
def kindOwn : Space → Bool
  | .own => true
  | _ => false
/-- Full-empty words lie in stashes (R182); monitors watch global and peer global lines (R191). -/
def kindStash : Space → Bool
  | .own => true
  | .party => true
  | .peerStash _ => true
  | _ => false
def kindMonitor : Space → Bool
  | .global => true
  | .peer _ => true
  | _ => false

/-! ## Translation (R117 to R120) -/

/-- The page sizes: 64 KiB, 2 MiB, 1 GiB. -/
def pageBits (size : Nat) : Nat := if size = 0 then 16 else if size = 1 then 21 else 30

/-- The hash of a walk's key (R120). -/
def walkHash (g : BitVec 8) (v : Nat) : Nat := ((v % 2 ^ 20) ^^^ (v / 2 ^ 20 % 2 ^ 20) ^^^ (g.toNat * 2 ^ 12 % 2 ^ 20))

/-- Follows a chain of the inverted table to the entry that matches; an entry that nothing has written ends it. -/
def State.chain (s : State) (g gen : BitVec 8) (v size : Nat) : (fuel : Nat) → Nat → Option (Nat × Frame)
  | 0, _ => none
  | fuel + 1, f =>
    let e := KMap.getD s.frames f .init
    if e.v && e.guest == g && e.vpn == v && e.size == size && e.gen == gen then some (f, e)
    else if e.nextv then s.chain g gen v size fuel e.next
    else none

/-- What a walk answers (R120). -/
inductive Walk where
  | none
  | frozen (e : TlbEntry)
  | page (e : TlbEntry)
  deriving DecidableEq, Repr

/-- The probe of one page size. -/
def State.probe (s : State) (g : BitVec 8) (va size : Nat) : Walk :=
  let gen := (s.guest g).gen
  let v := va / 2 ^ pageBits size * 2 ^ pageBits size / 2 ^ 16 % 2 ^ 40
  let h := walkHash g v
  match KMap.get? s.anchors (h % 8 * 2 ^ 17 + h / 8) with
  | some head =>
    match s.chain g gen v size (s.frames.length + 1) head with
    | some (f, e) =>
      let page : TlbEntry :=
        { slot := 0, guest := g, gen := gen, va := va / 2 ^ pageBits size * 2 ^ pageBits size, bits := pageBits size
          pa := f * 2 ^ 16, r := e.r, w := e.w, x := e.x }
      if e.frz then .frozen page else .page page
    | none => .none
  | none => .none

/-- A walk for guest g and a global virtual address (R120). -/
def State.walk (s : State) (g : BitVec 8) (va : Nat) : Walk :=
  match s.probe g va 0 with
  | .none => match s.probe g va 1 with
    | .none => s.probe g va 2
    | r => r
  | r => r

/-- A walk found a page under migration, which holds the access (R120). -/
def Walk.isFrozen : Walk → Bool
  | .frozen _ => true
  | _ => false

/-- The page that a look-up finds, frozen or not. -/
def Walk.found : Walk → Option TlbEntry
  | .page e => some e
  | .frozen e => some e
  | .none => Option.none

/-- The physical address of a virtual one under an entry whose page contains it. -/
def TlbEntry.phys (e : TlbEntry) (va : Nat) : Nat := e.pa + va % 2 ^ e.bits
def TlbEntry.covers (e : TlbEntry) (va : Nat) : Bool := va / 2 ^ e.bits * 2 ^ e.bits == e.va

/-- A hit of a TLB list: an entry of the guest's current generation whose page contains the address. -/
def State.tlbFind (s : State) (l : List TlbEntry) (slot : Nat) (g : BitVec 8) (va : Nat) : Option TlbEntry :=
  l.find? (fun e => e.slot == slot && e.guest == g && e.gen == (s.guest g).gen && e.covers va)

/-- The entries of a TLB that an install keeps beside entry e: one of an older generation is free for replacement (R280). -/
def State.tlbKeep (s : State) (e : TlbEntry) (l : List TlbEntry) : List TlbEntry :=
  l.filter (fun x => x != e && x.gen == (s.guest x.guest).gen)

/-- Installs an entry at the front of a list of bounded length. -/
def State.tlbInstall (s : State) (e : TlbEntry) (bound : Nat) (l : List TlbEntry) : List TlbEntry := (e :: s.tlbKeep e l).take bound

/-- The set of the tile TLB that a page falls in: 64 sets of 8 ways, by the low bits of the page's number (DESIGN CHOICE, log entry 59). -/
def TlbEntry.set (e : TlbEntry) : Nat := e.va / 2 ^ e.bits % 64

/-- Installs an entry in the tile TLB, in place of the least recently used of its full set (DESIGN CHOICE, log entry 59). -/
def State.tileTlbInstall (s : State) (e : TlbEntry) (l : List TlbEntry) : List TlbEntry :=
  let rest := s.tlbKeep e l
  let mates := rest.filter (fun x => x.set == e.set)
  match mates.getLast? with
  | some x => if Config.tileTlbWays ≤ mates.length then e :: rest.filter (· != x) else e :: rest
  | none => e :: rest

/-- A translation that starts at the tile TLB (R118). -/
def State.tilePage (s : State) (tile : Nat) (g : BitVec 8) (va : Nat) : Walk :=
  match s.tlbFind (s.tile tile).tlb 0 g va with
  | some e => .page e
  | none => s.walk g va

/-- A translation reaches the tile TLB and the micro-TLB for slot k (R118). -/
def State.warmTlb (s : State) (k : Nat) (e : TlbEntry) : State :=
  { (s.modTile (tileOf k) (fun x => { x with tlb := s.tileTlbInstall e x.tlb })) with
    utlb := KMap.set s.utlb (coreOf k) (s.tlbInstall { e with slot := slotIn k } Config.microTlb (KMap.getD s.utlb (coreOf k) [])) }

/-- The translation of an access (R118): a micro-TLB hit, or what it costs to go on. In a replay, the tile TLB serves as well,
since the translation that was waited for has just been installed there. -/
inductive Translated where
  | hit (e : TlbEntry)
  | miss (cycles : Nat)
  deriving DecidableEq, Repr

def State.translate (s : State) (k : Nat) (g : BitVec 8) (va : Nat) (replay : Bool) : Translated × State :=
  let mine := KMap.getD s.utlb (coreOf k) []
  match s.tlbFind mine (slotIn k) g va with
  | some e => (.hit e, { s with utlb := KMap.set s.utlb (coreOf k) (s.tlbInstall e Config.microTlb mine) })
  | none =>
    match s.tlbFind (s.tile (tileOf k)).tlb 0 g va with
    | some e =>
      if replay then
        (.hit e, s.warmTlb k e)
      else (.miss Config.latTileTlb, s)
    | none => (.miss Config.latWalk, s)

/-! ## The checks of an access (R122) -/

/-- Where an access goes. -/
inductive Target where
  | global (va : Word) (pa : Nat)
  | own (off : Nat)
  | party (tile off : Nat)
  | loc (key : Nat)
  | peer (dev : Nat)
  | peerStash (dev : Nat)
  deriving DecidableEq, Repr

inductive Check where
  | ok (t : Target)
  | trap (cause detail : Nat)
  | frozen
  | miss (cycles : Nat)
  deriving DecidableEq, Repr

/-- The bank of a tile that an offset falls in is assigned to the guest (R108). -/
def State.bankOk (s : State) (tile off : Nat) (g : BitVec 8) : Bool :=
  KMap.get? (s.tile tile).banks (off / 4096) == some g

/-- The launch's constant window (R111). -/
def State.constWindow (s : State) (th : Thread) : Nat × Nat :=
  match s.launch? th.launch with
  | some l => (l.rcd.const.toNat, l.rcd.constlen)
  | none => (0, 0)

/-- A byte of the range lies in the window; an empty window holds none (R352). -/
def State.inWindow (s : State) (th : Thread) (va : Word) (n : Nat) : Bool :=
  let w := s.constWindow th
  w.2 != 0 && overlaps va.toNat n w.1 w.2

/-- What an access asks: bytes, alignment, the spaces it may use, and whether it writes. -/
structure Ask where
  n      : Nat
  align  : Nat
  kind   : Space → Bool
  write  : Bool

/-- The checks of R122 made at issue, in their order, for the thread's access at `va`. -/
def State.check (s : State) (th : Thread) (va : Word) (a : Ask) : Check × State :=
  if va.toNat % a.align ≠ 0 then (.trap causeMisaligned 0, s)
  else if !s.spaceOk th.guest va a.n then (.trap causeProtection 2, s)
  else if !a.kind (s.spaceOf va) then (.trap causeProtection 3, s)
  else match s.spaceOf va with
    | .global =>
      match s.translate th.home th.guest (low56 va) th.replay with
      | (.miss c, s) => (.miss c, s)
      | (.hit e, s) =>
        if !(e.r && (!a.write || e.w)) then (.trap causeProtection 5, s)
        else if a.write && s.inWindow th (BitVec.ofNat 64 (low56 va)) a.n then (.trap causeProtection 6, s)
        else (.ok (.global (BitVec.ofNat 64 (low56 va)) (e.phys (low56 va))), s)
    | .own =>
      if s.bankOk (tileOf th.home) (stashOff va) th.guest && th.stashm.getLsbD (stashOff va / 4096) then (.ok (.own (stashOff va)), s)
      else (.trap causeProtection 5, s)
    | .party => (.ok (.party ((s.guest th.guest).tile (lodgeField va) (tileField va)) (stashOff va)), s)
    | .loc => (.ok (.loc (localKey th.home (low56 va))), s)
    | .peer d => (.ok (.peer d), s)
    | .peerStash d => (.ok (.peerStash d), s)
    | .reserved => (.trap causeProtection 2, s)

/-- Thread t waits for a translation (R118); the walk itself is made when it answers. -/
def State.awaitTlb (s : State) (t : Nat) (th : Thread) (i : Instr) (va : Word) (cycles : Nat) : State :=
  (s.post (placeOfSlot th.home) noChan (s.clk + cycles) t (.event (.translationInstalled t))).await t th (.tlb i va)

/-- An access to local store is noted (R102). -/
def Thread.touching (th : Thread) : Target → Thread
  | .loc _ => { th with usedLocal := true }
  | _ => th

/-- The thread makes an access: the first check that fails decides, and an access that passes goes to `f`. -/
def State.access (s : State) (t : Nat) (th : Thread) (i : Instr) (va : Word) (a : Ask) (f : State → Thread → Target → State) : State :=
  match s.check th va a with
  | (.ok x, s) => f s (th.touching x) x
  | (.trap c d, s) => s.trapHere t th c d (some va)
  | (.frozen, s) => s.await t th (.frozen (some i))
  | (.miss c, s) => s.awaitTlb t th i va c

/-! ## Home bytes -/

/-- The valid frame whose page contains a physical address, and the page's name there. -/
def State.frameOf (s : State) (pa : Nat) : Option (Nat × Frame) :=
  s.frames.find? (fun p => p.2.v && p.1 * 2 ^ 16 ≤ pa && pa < p.1 * 2 ^ 16 + 2 ^ pageBits p.2.size)

/-- The address by which the frame's guest names it. -/
def State.nameOf (s : State) (pa : Nat) : Word :=
  BitVec.ofNat 64 (match s.frameOf pa with
    | some (f, e) => e.vpn * 2 ^ 16 + (pa - f * 2 ^ 16)
    | none => pa)

def lineOf (pa : Nat) : Nat := pa / 128

/-- The enabled region whose delivered range holds a physical address (R116). -/
def State.regionAt (s : State) (pa : Nat) : Option Region :=
  (s.regions.find? (fun p => p.1 / 64 == pa / 2 ^ 36 && p.2.en && p.2.dbase ≤ pa && pa < p.2.dlim)).map (·.2)

def Region.dfmtOf (r : Region) : Fmt := (match r.dfmt with | 1 => .l6 | 2 => .l8 | 3 => .l12 | 6 => .h16 | _ => .bf16)
def Region.sfmtOf (r : Region) : Fmt := (match r.sfmt with | 0 => .l4 | 1 => .l6 | 2 => .l8 | 9 => .s4 | _ => .s8)

/-- The scale code of element e (R228, R213). -/
def State.regionScale (s : State) (r : Region) (e : Nat) : Nat := scaleCode (natOfBytes (s.readMem (r.scale + 2 * (e / r.block)) 2))

/-- Stored element e, read from its image as one little-endian integer (R228). -/
def State.regionStored (s : State) (r : Region) (e : Nat) : Nat :=
  let w := fmtBits r.sfmtOf
  bits (natOfBytes (s.readMem (r.sbase + e * w / 8) 2)) (e * w % 8) w

def State.regionElem (s : State) (r : Region) (e : Nat) : Nat :=
  regionDecode r.sfmtOf r.dfmtOf (s.regionStored r e) (s.regionScale r e)

/-- The elements that the delivered bytes at offset `off`, n of them, touch. -/
def Region.elems (r : Region) (off n : Nat) : List Nat :=
  let w := fmtBits r.dfmtOf
  (List.range ((off * 8 + n * 8 - 1) / w - off * 8 / w + 1)).map (· + off * 8 / w)

/-- Delivered bytes. -/
def State.regionRead (s : State) (r : Region) (off n : Nat) : List Byte :=
  let w := fmtBits r.dfmtOf
  let es := r.elems off n
  let first := off * 8 / w
  let all := es.foldl (fun v e => v + s.regionElem r e * 2 ^ ((e - first) * w)) 0
  bytesOf (all / 2 ^ (off * 8 - first * w)) n

/-- Writes stored element e, leaving its neighbours' bits. -/
def State.regionStore (s : State) (r : Region) (e code : Nat) : State :=
  let w := fmtBits r.sfmtOf
  let a := r.sbase + e * w / 8
  let old := natOfBytes (s.readMem a 2)
  let sh := e * w % 8
  s.writeMem a (bytesOf (old - bits old sh w * 2 ^ sh + code % 2 ^ w * 2 ^ sh) 2)

/-- The delivered bytes of a region's line as the home has them: its LLC copy, or the image decoded. -/
def State.delivered (s : State) (r : Region) (line : Nat) : Line :=
  ((s.line line).llc).getD (s.regionRead r (line * 128 - r.dbase) 128)

/-- The LLC copy of a line takes the decoded values of some elements. -/
def State.redecode (s : State) (r : Region) (es : List Nat) (line : Nat) : State :=
  match (s.line line).llc with
  | none => s
  | some d =>
    let w := fmtBits r.dfmtOf
    let base := (line * 128 - r.dbase) * 8
    -- bits of the elements before the line's start are shifted out, those past its end cut off
    let put := fun (v : Nat) (e : Nat) =>
      let x := s.regionElem r e
      if base ≤ e * w then
        let sh := e * w - base
        v - bits v sh w * 2 ^ sh + x * 2 ^ sh
      else
        let n := e * w + w - base
        v - bits v 0 n + x / 2 ^ (w - n)
    let es := es.filter (fun e => base < e * w + w && e * w < base + 1024)
    s.modLine line (fun l => { l with llc := some (bytesOf (es.foldl put (natOfBytes d) % 2 ^ 1024) 128) })

/-- A store to delivered bytes: every element it covers, in whole or in part, is encoded again whole, and the line's LLC copy holds the
decoded result (R116, R215). -/
def State.regionWrite (s : State) (r : Region) (off : Nat) (bs : List Byte) : State :=
  let w := fmtBits r.dfmtOf
  let n := bs.length
  let es := r.elems off n
  let first := off * 8 / w
  let lo := first * w / 8 / 128
  let hi := ((first + es.length) * w - 1) / 8 / 128
  let base := r.dbase / 128
  let old := (List.range (hi + 1 - lo)).flatMap (fun j => s.delivered r (base + lo + j))
  let all := bits (natOfBytes old) (first * w - lo * 1024) (es.length * w)
  let sh := off * 8 - first * w
  let new := all - bits all sh (8 * n) * 2 ^ sh + natOfBytes bs * 2 ^ sh
  let s := es.foldl (fun s e => s.regionStore r e (regionEncode r.sfmtOf r.dfmtOf (bits new ((e - first) * w) w) (s.regionScale r e))) s
  (List.range (hi + 1 - lo)).foldl (fun (s : State) j => s.redecode r es (base + lo + j)) s

/-- The bytes of home memory that lie in one line, as delivered: from the line's LLC copy where it keeps one, from the stored image or
from memory otherwise (R116, R320). -/
def State.homeRead (s : State) (pa n : Nat) : List Byte :=
  match (s.line (lineOf pa)).llc with
  | some d => (d.drop (pa % 128)).take n
  | none =>
    match s.regionAt pa with
    | some r => s.regionRead r (pa - r.dbase) n
    | none => s.readMem pa n

/-- A format region's line that an access touches stays in the LLC as it has been decoded (R116, R320). -/
def State.cacheLine (s : State) (line : Nat) : State :=
  if (s.line line).llc.isNone && (s.regionAt (line * 128)).isSome then
    s.modLine line (fun l => { l with llc := some (s.homeRead (line * 128) 128) })
  else s

/-- The stack and the frame that an address of a placed inverted table belongs to, and the head that one of a placed anchor array does
(R119, R120). -/
def State.tableEntry (s : State) (pa : Nat) : Option Nat :=
  s.tables.findSome? (fun p => if p.2.1 ≤ pa ∧ pa < p.2.1 + 2 ^ 24 then some (p.1 * 2 ^ 20 + (pa - p.2.1) / 16) else none)
def State.tableAnchor (s : State) (pa : Nat) : Option Nat :=
  s.tables.findSome? (fun p => if p.2.2 ≤ pa ∧ pa < p.2.2 + 2 ^ 20 then some (p.1 * 2 ^ 17 + (pa - p.2.2) / 8) else none)

/-- Where firmware has placed the entry of a frame, and an anchor. -/
def State.entryPa (s : State) (f : Nat) : Option Nat := (KMap.get? s.tables (f / 2 ^ 20)).map (fun p => p.1 + f % 2 ^ 20 * 16)
def State.anchorPa (s : State) (h : Nat) : Option Nat := (KMap.get? s.tables (h / 2 ^ 17)).map (fun p => p.2 + h % 2 ^ 17 * 8)

/-- An inverted-table entry takes a value, in the walker's view and in the memory that holds the table. -/
def State.putFrame (s : State) (f : Nat) (e : Frame) : State :=
  let s := { s with frames := KMap.set s.frames f e }
  match s.entryPa f with
  | some pa => s.writeMem pa (bytesOf e.toNat 16)
  | none => s

/-- An anchor takes a chain head (R120). -/
def State.putAnchor (s : State) (h head : Nat) : State :=
  let s := { s with anchors := KMap.set s.anchors h head }
  match s.anchorPa h with
  | some pa => s.writeMem pa (bytesOf (2 ^ 63 + head % 2 ^ 23) 8)
  | none => s

/-- What the walker finds after stores to the n bytes from `pa`: firmware writes the tables with ordinary stores (R319). The reserved bits of
an entry keep reading zero (R119). -/
def State.rereadTables (s : State) (pa n : Nat) : State :=
  if s.tables.isEmpty then s
  else
    let es := ((List.range ((pa + n + 15) / 16 - pa / 16)).filterMap (fun j => s.tableEntry (pa / 16 * 16 + 16 * j)))
    let hs := ((List.range ((pa + n + 7) / 8 - pa / 8)).filterMap (fun j => s.tableAnchor (pa / 8 * 8 + 8 * j)))
    let s := es.foldl (fun (s : State) f => match s.entryPa f with
      | some a =>
        let e := Frame.ofNat (natOfBytes (s.readMem a 16))
        ({ s with frames := KMap.set s.frames f e } : State).writeMem a (bytesOf e.toNat 16)
      | none => s) s
    hs.foldl (fun (s : State) h => match s.anchorPa h with
      | some a =>
        let w := natOfBytes (s.readMem a 8)
        { s with anchors := if bits w 63 1 = 1 then KMap.set s.anchors h (bits w 0 23) else KMap.erase s.anchors h }
      | none => s) s

/-- A store to bytes of one line of home memory: into the stored image of a format region, whose LLC copy then holds the decoded result,
or into memory. -/
def State.homeWrite (s : State) (pa : Nat) (bs : List Byte) : State :=
  match s.regionAt pa with
  | some r => (s.cacheLine (lineOf pa)).regionWrite r (pa - r.dbase) bs
  | none =>
    let s := (s.writeMem pa bs).rereadTables pa bs.length
    match (s.line (lineOf pa)).llc with
    | some d => s.modLine (lineOf pa) (fun l => { l with llc := some (patch d (pa % 128) (s.readMem pa bs.length)) })
    | none => s

/-! ## What backs a stash offset (R103) -/

/-- The guest to which the bank of an offset is assigned; 0 where none is. -/
def State.bankGuest (s : State) (tile off : Nat) : BitVec 8 := (KMap.get? (s.tile tile).banks (off / 4096)).getD 0

/-- The default backing area of a tile for a guest (R103): what firmware has set for the tile, or its place among areas that follow each
other from the guest's base, lodge by lodge and tile by tile (DESIGN CHOICE, log entry 56). -/
def Guest.areaOf (g : Guest) (tile : Nat) : Nat :=
  ((KMap.get? g.areas tile).map (·.toNat)).getD (g.backing.toNat + g.tileIndex tile * Config.stashBytes)

/-- The global virtual address that backs an offset of a tile's stash for a guest. -/
def State.backingVa (s : State) (tile off : Nat) (g : BitVec 8) : Nat :=
  match KMap.get? (s.tile tile).map (off / 2048) with
  | some m => m.va.toNat + off % 2048
  | none => (s.guest g).areaOf tile + off

/-- The physical address that backs an offset: the translation that SMAP pinned (R130), or a walk. A page under migration holds what
reaches its old home (R121). -/
def State.backingPa (s : State) (tile off : Nat) (g : BitVec 8) : Option Nat :=
  match KMap.get? (s.tile tile).map (off / 2048) with
  | some m => some (m.pa + off % 2048)
  | none =>
    match s.walk g (s.backingVa tile off g) with
    | .page e => some (e.phys (s.backingVa tile off g))
    | .frozen e => some (e.phys (s.backingVa tile off g))
    | .none => none

/-- The stash bytes that a target names, whichever of its two names is used (R129). -/
def stashKeyOf (t : Target) (tile : Nat) : Option Nat :=
  match t with
  | .own off => some (stashKey tile off)
  | .party x off => some (stashKey x off)
  | _ => none

/-- Where the bytes of a target lie in home memory, if they do on this device (R129). -/
def State.homeOf (s : State) (t : Target) (tile : Nat) (g : BitVec 8) : Option Nat :=
  match t with
  | .global _ pa => some pa
  | .own off => s.backingPa tile off g
  | .party x off => s.backingPa x off g
  | _ => none

end Sys2Proof.Machine
end

