-- ==== Sys2Proof/Machine/Home.lean ====
section
/-!
DEFINITION. What a home does (R145, R151, R152): leases, stores and atomics on a line, monitor signals (R166), registration to a
stash (R106, R155), recall (R107, R156), refusals (R376), poison (R298) and sum-mode lines (R142, R201).
-/

namespace Sys2Proof.Machine

open Sys2Proof

/-! ## Senders and receivers -/

/-- The place in R145's order of whoever made an access. -/
def State.placeOf (s : State) (who : Agent) (core : Nat) : Place :=
  match who with
  | .thread t => match s.thread? t with
    | some th => placeOfSlot th.home
    | none => placeOfSlot (core * 16)
  | .engine _ _ => placeOfEngine core
  | .stash tile => placeOfStash tile
  | .front => placeOfFront
  | .peer d _ _ => placeOfPeer d

/-- The message channel of an access: a thread's accesses to one line keep their order (R129). -/
def chanOf (who : Agent) (pa : Nat) : Nat × Nat :=
  match who with
  | .thread t => chanThread t (lineOf pa)
  | .stash tile => chanToHome tile (lineOf pa)
  | _ => noChan

/-! ## Replies -/

/-- The numbers of a gather's reads. -/
def Gather.asks (g : Gather) (rid : Nat) : Bool := g.base ≤ rid && rid < g.base + g.addrs.length

/-- Answers a peer device's request (R340). -/
def State.answerPeer (s : State) (dev rid : Nat) (stamp v : Word) (done : Bool) (wts : Word) (err : Option Refused) : State :=
  { s with peerAnswers := s.peerAnswers ++ [{ dev := dev, rid := rid, val := v, done := done, wts := wts, err := err, stamp := stamp, kind := .answer }] }

/-- A read of an index of a gather's list behind the header: the list is charged as one load, which has been charged (R141). -/
def State.readsList (s : State) (who : Agent) (rid : Nat) : Bool :=
  match who with
  | .thread t => (s.thread? t).any (fun th => match th.wait with
    | .gather g => g.phase == .indices && g.asks rid
    | _ => false)
  | _ => false

/-- A load's reply leaves for its requester. -/
def State.replyLoad (s : State) (who : Agent) (core delay : Nat) (r : LoadReply) : State :=
  match who with
  | .peer d rid w => s.answerPeer d rid w (BitVec.ofNat 64 (natOfBytes r.data)) r.err.isNone r.wts r.err
  | _ => s.send (s.placeOf who core) noChan (if s.readsList who r.rid then 0 else delay) (.loadReply r)

def State.replyAtomic (s : State) (who : Agent) (core delay : Nat) (r : AtomicReply) : State :=
  match who with
  | .peer d rid w => s.answerPeer d rid w r.old r.done r.wts r.err
  | _ => s.send (s.placeOf who core) noChan delay (.atomicReply r)

/-- The acknowledgement of a store; `wb` names the stash line that a write-back came from. -/
def State.replyStore (s : State) (who : Agent) (core delay op : Nat) (wts : Word) : State :=
  match who with
  | .peer d rid w => s.answerPeer d rid w 0 true wts none
  | _ => s.send (s.placeOf who core) noChan delay (.storeAck op wts none)

/-- A refusal of a posted access (R376). -/
def State.refuseStore (s : State) (who : Agent) (core delay op : Nat) (r : Refused) : State :=
  match who with
  | .peer d rid w => s.answerPeer d rid w 0 false 0 (some r)
  | _ => s.send (s.placeOf who core) noChan delay (.postedRefusal op r)

/-! ## Lines -/

/-- A monitor's signal goes back to a peer's thread (R191), stamped as it leaves (R325). -/
def State.signalPeer (s : State) (dev arm : Nat) (wts : Word) : State :=
  { s with peerAnswers := s.peerAnswers ++
      [{ dev := dev, rid := arm, val := 0, done := true, wts := wts, err := none, stamp := s.wall, kind := .signal }] }

/-- A peer device is told that its load is parked at a sum-mode line (DEDUCED, log entry 70). -/
def State.tellParked (s : State) (who : Agent) : State :=
  match who with
  | .peer dev rid w => { s with peerAnswers := s.peerAnswers ++
      [{ dev := dev, rid := rid, val := 0, done := false, wts := 0, err := none, stamp := w, kind := .parked }] }
  | _ => s

/-- Every armed monitor of a line is signalled with a time (R166). -/
def State.signal (s : State) (line delay : Nat) (wts : Word) : State :=
  (s.arms.filter (fun a => a.line == line)).foldl
    (fun s a => match a.peer with
      | none => s.send (s.placeOf (.thread a.tid) 0) noChan delay (.monitorSignal a.tid a.m a.arm wts)
      | some d => s.signalPeer d a.arm wts) s

/-- The line is in the LLC from its first access on (R41); `w`: it is written, and HBM's copy is old (R320). -/
def HomeLine.touch (l : HomeLine) (w : Bool) : HomeLine := { l with inLlc := true, dirty := l.dirty || w }

/-- A store, write-back or atomic of clock c moves the line's times (R152). -/
def HomeLine.write (l : HomeLine) (c : Word) : HomeLine :=
  let w := maxW c (if l.rts + 1 = 0 then l.rts else l.rts + 1)
  { l.touch true with wts := w, rts := w }

/-- A lease for a load of clock c (R151). -/
def HomeLine.lease (l : HomeLine) (c : Word) (lease : Nat) : HomeLine :=
  let top := if c.toNat + lease < 2 ^ 64 then c + BitVec.ofNat 64 lease else BitVec.ofNat 64 (2 ^ 64 - 1)
  { l.touch false with rts := maxW (maxW l.rts l.wts) top }

/-- What a store writes: its bytes in one piece, or, with gaps, the bytes between them (R161). -/
def runsOf (pa : Nat) (bs : List Byte) (gaps : List Nat) : List (Nat × List Byte) :=
  if gaps.isEmpty then [(pa, bs)]
  else (List.range bs.length).foldl (fun (rs : List (Nat × List Byte)) j =>
    let b := (bs.drop j).take 1
    if gaps.contains j then rs
    else match rs.getLast? with
      | some (a, l) => if a + l.length = pa + j then rs.dropLast ++ [(a, l ++ b)] else rs ++ [(pa + j, b)]
      | none => [(pa + j, b)]) []

/-- Writes of clock c to a line at its home, together (R152): they clear its poison where all 128 bytes are written (R298), and signal its
monitors once. The new wts. -/
def State.applyRuns (s : State) (line : Nat) (runs : List (Nat × List Byte)) (c : Word) : Word × State :=
  let s := (runs.foldl (fun (s : State) r => s.homeWrite r.1 r.2) s).modLine line (fun l =>
    let l := l.write c
    if runs.any (fun r => r.2.length == 128) then { l with poison := none } else l)
  let w := (s.line line).wts
  (w, s.signal line Config.latHome w)

/-- Applies bytes of clock c to a line at its home. -/
def State.applyStore (s : State) (pa : Nat) (bs : List Byte) (c : Word) : Word × State := s.applyRuns (lineOf pa) [(pa, bs)] c

/-- Whether a guest meets poison at a line (R298). -/
def State.poisoned (s : State) (line : Nat) (g : BitVec 8) : Bool :=
  let l := s.line line
  l.poison == some g && l.poisonGen == (s.guest g).gen

/-- A line whose home holds requests: its recall is under way (R107), or its page is frozen (R121). -/
def State.frozen (s : State) (line : Nat) : Bool :=
  s.migrating.any (fun r => r.1 * 512 ≤ line && line < (r.1 + r.2) * 512)
def State.holding (s : State) (line : Nat) : Bool := (s.line line).recalling || s.frozen line

def State.holdMsg (s : State) (line : Nat) (m : HomeMsg) : State := s.modLine line (fun l => { l with held := l.held ++ [(s.inTurn, m)] })

/-- The requests that a line holds come back, in their order and before any other arrival of the cycle (R107). -/
def State.release (s : State) (line : Nat) : State :=
  let ms := (s.line line).held
  ms.foldl (fun s m => s.postAs m.1 placeOfHeld noChan s.clk s.cur (.event m.2.event))
    (s.modLine line (fun l => { l with held := [] }))

/-- The home recalls a registered line from its holder, once (R107). -/
def State.recallLine (s : State) (line : Nat) : State :=
  match (s.line line).holder with
  | some (tile, _) =>
    if (s.line line).recalling then s
    else (s.modLine line (fun l => { l with recalling := true })).send (placeOfStash tile) (chanToStash tile line) 50
      (.recallHolder line tile)
  | none => s

/-- Index of a line in a tile's stash. -/
def State.stashIndex (s : State) (tile line : Nat) : Option Nat :=
  (s.stash.find? (fun p => p.1 / 1024 == tile && p.2.line == line && s.lineLives p.2)).map (·.1 % 1024)

/-- The bytes of a resident stash line. -/
def State.stashData (s : State) (tile idx : Nat) : Line := s.readMem (stashKey tile (idx * 128)) 128

/-- The holder's present data of a line, with its stamp and what it carries of an error: its resident copy, or what its write-back buffer
keeps of the registration `reg` (R156). -/
def State.holderData (s : State) (tile line : Nat) (reg : Word) : Option (Line × Word × Bool) :=
  match (s.stashIndex tile line).bind (fun i => (s.stashLine? tile i).map (fun l => (i, l))) with
  | some (i, l) => some (s.stashData tile i, l.stamp, l.poison)
  | none =>
    ((s.tile tile).wbuf.reverse.find? (fun w => w.line == line && w.reg == reg)).map (fun w => (w.data, w.stamp, w.bad.isSome))

/-- A complete line reaches its home: one with an uncorrectable error is poisoned there, and the error charged to the guest and generation
of its tags (R297), which firmware reports to the host (R298); any other clears the poison. -/
def State.spoilLine (s : State) (line : Nat) (bad : Option (BitVec 8 × BitVec 8)) : State :=
  match bad with
  | some (g, gen) =>
    if gen = (s.guest g).gen then
      (s.modLine line (fun l => { l with poison := some g, poisonGen := gen, poisonCode := 2 })).log 0x60 g.toNat
        (BitVec.ofNat 64 (line * 128)) 2
    else s
  | none => s.modLine line (fun l => { l with poison := none })

/-- What a stash line carries of an uncorrectable error. -/
def StashLine.bad (l : StashLine) : Option (BitVec 8 × BitVec 8) := if l.poison then some (l.guest, l.gen) else none

/-- The home ends a registration, applying the holder's data where it has changed (R155, R156). -/
def State.endRegistration (s : State) (line : Nat) (stamp : Word) (fe : BitVec 16) (data : Option Line)
    (bad : Option (BitVec 8 × BitVec 8)) : State :=
  let s := match data with
    | some d =>
      (((s.homeWrite (line * 128) d).modLine line
        (fun l => { l.touch true with wts := maxW l.wts stamp, rts := maxW l.rts stamp })).spoilLine line bad).signal line
        Config.latHome stamp
    | none => s
  s.modLine line (fun l => { l with holder := none, recalling := false, fe := fe })

/-- The structure code of the uncorrectable error that a guest meets at a line, as every name shows it: at its home, or with its holder
(R297, R298). -/
def State.errorAt (s : State) (line : Nat) (g : BitVec 8) : Option Nat :=
  if s.poisoned line g then some (s.line line).poisonCode
  else match (s.line line).holder with
    | none => none
    | some (tile, reg) => if (s.holderData tile line reg).any (fun d => d.2.2) then some 2 else none

/-- The bytes of a line as every name shows them (R107): what a fetch, or firmware, reads of it without leaving a trace. -/
def State.cohRead (s : State) (pa n : Nat) : List Byte :=
  match (s.line (lineOf pa)).holder with
  | none => s.homeRead pa n
  | some (tile, reg) =>
    match s.holderData tile (lineOf pa) reg with
    | some (d, _, _) => (d.drop (pa % 128)).take n
    | none => s.homeRead pa n

/-! ## Requests at a home -/

/-- Why a home refuses a request outright: its die is dead (R301), or the line is poisoned and the request would read it (R298). -/
def State.homeError (s : State) (a : Access) (reads : Bool) : Option Refused :=
  if s.deadDies.contains (homeDie a.pa) then some { cause := causeUncorrectable, detail := 5, addr := a.va }
  else if reads && s.poisoned (lineOf a.pa) a.guest then
    some { cause := causeUncorrectable, detail := (s.line (lineOf a.pa)).poisonCode, addr := a.va }
  else none

/-- The reply to a load that fails. -/
def failedLoad (a : Access) (k : LoadKind) (r : Refused) : LoadReply :=
  { who := a.who, rid := a.rid, line := lineOf a.pa, data := [], wts := 0, rts := 0, kind := k, err := some r }

/-- A load's answer from the home's own line: the whole line for a kind that a cache keeps, the bytes asked for otherwise. -/
def State.loadBytes (s : State) (a : Access) (k : LoadKind) : Line :=
  match k with
  | .core => s.homeRead (lineOf a.pa * 128) 128
  | .l2 => s.homeRead (lineOf a.pa * 128) 128
  | .ldc => s.homeRead (lineOf a.pa * 128) 128
  | .bare => s.homeRead a.pa a.n
  | .acq => s.homeRead a.pa a.n
  | .fill _ _ => s.homeRead (lineOf a.pa * 128) 128

/-- A home goes on with a request of a turn that it has kept. -/
def State.asOf (s : State) (turn : Nat) (f : State → State) : State := { f { s with inTurn := turn } with inTurn := s.inTurn }

/-- Sends a stash fill's line, or the error that ends it (R104). -/
def State.sendFill (s : State) (tile idx line delay : Nat) (data : Line) (fe : BitVec 16) (stamp : Word) (err : Option Refused) : State :=
  s.send (placeOfStash tile) (chanToStash tile line) delay (.stashFill tile idx line data fe stamp err)

/-- The answer that a load waits for is an error. -/
def State.failLoad (s : State) (a : Access) (k : LoadKind) (r : Refused) : State :=
  match k with
  | .fill tile idx => s.sendFill tile idx (lineOf a.pa) Config.latHome [] 0 0 (some r)
  | _ => s.replyLoad a.who a.core Config.latHome (failedLoad a k r)

/-- A stash fill at the home: the tile becomes the line's holder, with the stamp of its registration (R106, R155). It is
charged as a home access, 200 cycles in all (R104). -/
def State.register (s : State) (a : Access) (tile idx : Nat) : State :=
  let line := lineOf a.pa
  let s := s.cacheLine line
  let l := s.line line
  let stamp := maxW l.wts (if l.rts + 1 = 0 then l.rts else l.rts + 1)
  (s.setLine line { l.touch false with holder := some (tile, stamp) }).sendFill tile idx line Config.latHome
    (s.homeRead (line * 128) 128) l.fe stamp none

/-- A load that no holder and no merge stands in the way of (R151, R181). LDC is charged as a home hit (R125), and its answer says when
it was read (R112). -/
def State.grant (s : State) (a : Access) (k : LoadKind) : State :=
  let line := lineOf a.pa
  let s := s.cacheLine line
  let l := s.line line
  let delay := Config.latHome + (if l.inLlc || k = .ldc then 0 else Config.latHbmExtra)
  let l' := match k with
    | .acq => l.touch false
    | .ldc => l.touch false
    | _ => l.lease a.clock s.lease
  (s.setLine line l').replyLoad a.who a.core delay
    { who := a.who, rid := a.rid, line := line, data := s.loadBytes a k, wts := if k = .acq then 0 else l'.wts
      rts := if k = .ldc then BitVec.ofNat 64 s.clk else l'.rts, kind := k, err := none }

/-- Step 6 of R122, where the line's home lies: sum-mode lines refuse stores and atomics, format regions refuse atomics
(R116, R142) and the stores of a flush, which are whole lines (R251). -/
def State.targetRefusal (s : State) (a : Access) (atomic : Bool) : Option Refused :=
  if (s.line (lineOf a.pa)).sum.isSome || ((atomic || ((a.who matches .engine _ _) && a.n == 128)) && (s.regionAt a.pa).isSome) then
    some { cause := causeProtection, detail := 6, addr := a.va }
  else none

/-- A load arrives at its home (R151, R107, R142); the object of an ACQ in a format or sum-mode region is refused (R179). A load of a line that
is poisoned still by a merge that failed, and declared anew, meets the poison before the new merge (R142, R143; DEDUCED, log entry 73). -/
def State.homeLoad (s : State) (a : Access) (k : LoadKind) : State :=
  let line := lineOf a.pa
  match s.homeError a true with
  | some r => s.failLoad a k r
  | none =>
    if s.holding line then s.holdMsg line (.load a k)
    else match (if k = .acq then s.targetRefusal a true else none) with
    | some r => s.failLoad a k r
    | none =>
      let l := s.line line
      match l.sum with
      | some m => if k = .ldc then s.grant a k else (s.setLine line { l with sum := some { m with parked := m.parked ++ [(a, k, s.inTurn)] } }).tellParked a.who
      | none =>
        match l.holder, k with
        | some (t, _), .fill tile idx =>
          if t = tile then s.register a tile idx else (s.holdMsg line (.load a k)).recallLine line
        | some (t, reg), _ => s.send (placeOfStash t) (chanToStash t line) 40 (.forwardedLoad line t reg a k)
        | none, .fill tile idx => s.register a tile idx
        | none, _ => s.grant a k

/-- A store arrives at its home (R152, R107). -/
def State.homeStore (s : State) (a : Access) (op : Nat) (data : Line) : State :=
  let line := lineOf a.pa
  match s.homeError a false with
  | some r => s.refuseStore a.who a.core Config.latHome op r
  | none =>
    if s.holding line then s.holdMsg line (.store a op data)
    else match s.targetRefusal a false with
      | some r => s.refuseStore a.who a.core Config.latHome op r
      | none =>
        if (s.line line).holder.isSome then (s.holdMsg line (.store a op data)).recallLine line
        else
          let (w, s) := s.applyRuns line (runsOf a.pa data a.gaps) a.clock
          s.replyStore a.who a.core Config.latHome op w

/-! ## Atomics (R137, R139) -/

/-- The new value of an n-byte word, or none where a CAS fails. -/
def amoNew (op : AmoOp) (n : Nat) (o b d : Nat) : Option Nat :=
  let w := 8 * n
  let b := b % 2 ^ w
  match op with
  | .add => some ((o + b) % 2 ^ w)
  | .and => some (o &&& b)
  | .or => some (o ||| b)
  | .xor => some (o ^^^ b)
  | .min => some (if signedOf w b < signedOf w o then b else o)
  | .max => some (if signedOf w o < signedOf w b then b else o)
  | .minu => some (min o b)
  | .maxu => some (max o b)
  | .swap => some b
  | .cas => if o = b then some (d % 2 ^ w) else none
  | .fadd => some (fpAdd .f32 .rne (BitVec.ofNat 64 o) (BitVec.ofNat 64 b)).toNat

/-- An atomic's reply goes to its thread; a waited one is told what went wrong, a posted one is refused (R376). -/
def State.failAtomic (s : State) (a : Access) (op delay : Nat) (r : Refused) : State :=
  if op ≠ 0 ∧ a.rid = 0 then s.refuseStore a.who a.core delay op r
  else s.replyAtomic a.who a.core delay { who := a.who, rid := a.rid, op := op, old := 0, done := false, wts := 0, err := some r }

/-- An atomic arrives at its home (R136, R138). -/
def State.homeAtomic (s : State) (a : Access) (op : Nat) (o : AmoOp) (b d : Word) : State :=
  let line := lineOf a.pa
  match s.homeError a true with
  | some r => s.failAtomic a op Config.latHome r
  | none =>
    if s.holding line then s.holdMsg line (.atomic a op o b d)
    else match s.targetRefusal a true with
      | some r => s.failAtomic a op Config.latHome r
      | none =>
        if (s.line line).holder.isSome then (s.holdMsg line (.atomic a op o b d)).recallLine line
        else
          let old := natOfBytes (s.homeRead a.pa a.n)
          match amoNew o a.n old b.toNat d.toNat with
          | some v =>
            let (w, s) := s.applyStore a.pa (bytesOf v a.n) a.clock
            s.replyAtomic a.who a.core Config.latHome
              { who := a.who, rid := a.rid, op := op, old := BitVec.ofNat 64 old, done := true, wts := w, err := none }
          | none =>
            let l := (s.line line).lease a.clock s.lease
            (s.setLine line l).replyAtomic a.who a.core Config.latHome
              { who := a.who, rid := a.rid, op := op, old := BitVec.ofNat 64 old, done := false, wts := l.wts, err := none }

/-- REL's publication arrives at the object's home: X := max(X, lts), as a successful atomic (R180). -/
def State.publish (s : State) (a : Access) : State :=
  let line := lineOf a.pa
  match s.homeError a true with
  | some r => s.failAtomic a 0 Config.latHome r
  | none =>
    if s.holding line then s.holdMsg line (.publish a)
    else match s.targetRefusal a true with
      | some r => s.failAtomic a 0 Config.latHome r
      | none =>
        if (s.line line).holder.isSome then (s.holdMsg line (.publish a)).recallLine line
        else
          let old := natOfBytes (s.homeRead a.pa 8)
          let (w, s) := s.applyStore a.pa (bytesOf (max old a.clock.toNat) 8) a.clock
          s.replyAtomic a.who a.core Config.latHome
            { who := a.who, rid := a.rid, op := 0, old := BitVec.ofNat 64 old, done := true, wts := w, err := none }

end Sys2Proof.Machine
end

