-- ==== Sys2Proof/Machine/Stash.lean ====
section
/-!
DEFINITION. What a tile's stash does: residency and fills (R104, R106), accesses in bank order (R155), full/empty bits and the park
table (R182 to R187), and write-back (R105, R156).
-/

namespace Sys2Proof.Machine

open Sys2Proof

/-! ## Residency -/

/-- The resident line that holds an offset. -/
def State.resident (s : State) (tile off : Nat) : Option StashLine := s.stashLine? tile (off / 128)

/-- Asks the home for a line of the stash, once (R104); none where its backing page has no translation (a page fault). -/
def State.startFill (s : State) (tile idx : Nat) (g : BitVec 8) : Option State :=
  if (s.tile tile).filling.contains idx then some s
  else match s.backingPa tile (idx * 128) g with
    | none => none
    | some pa =>
      let a : Access := { who := .stash tile, rid := 0, va := BitVec.ofNat 64 (s.backingVa tile (idx * 128) g), pa := pa, n := 128
                          clock := 0, guest := g, core := tile * 16 }
      some ((s.modTile tile (fun x => { x with filling := x.filling ++ [idx] })).send (placeOfStash tile)
        (chanToHome tile (lineOf pa)) Config.latHome (.homeLoad a (.fill tile idx)))

/-! ## Bytes and bits of a resident line -/

def State.stashRead (s : State) (tile off n : Nat) : Nat := natOfBytes (s.readMem (stashKey tile off) n)

def State.modStashLine (s : State) (tile off : Nat) (f : StashLine → StashLine) : State :=
  match s.stashLine? tile (off / 128) with
  | some l => s.setStashLine tile (off / 128) (f l)
  | none => s

/-- The holder signals the monitors armed on a registered line, with its stamp (R191). -/
def State.stashSignal (s : State) (tile off : Nat) : State :=
  match s.stashLine? tile (off / 128) with
  | some l => s.signal l.line Config.latTile l.stamp
  | none => s

/-- A store to a resident line marks it dirty (R104). -/
def State.stashWrite (s : State) (tile off : Nat) (bs : List Byte) : State :=
  ((s.writeMem (stashKey tile off) bs).modStashLine tile off (fun l => { l with dirty := true })).stashSignal tile off

def feBit (off : Nat) : Nat := off % 128 / 8

def State.isFull (s : State) (tile off : Nat) : Bool :=
  match s.stashLine? tile (off / 128) with
  | some l => l.fe.getLsbD (feBit off)
  | none => false

/-- Sets or clears a word's full/empty bit. -/
def State.setFull (s : State) (tile off : Nat) (b : Bool) : State :=
  s.modStashLine tile off (fun l =>
    let m : BitVec 16 := 1 <<< feBit off
    { l with dirty := true, fe := if b then l.fe ||| m else l.fe &&& ~~~m })

/-- A write that sets a word full raises the line's stamp to the writer's clock (R183). -/
def State.raiseStamp (s : State) (tile off : Nat) (c : Word) : State :=
  s.modStashLine tile off (fun l => { l with stamp := maxW l.stamp c })

def State.stampOf (s : State) (tile off : Nat) : Word :=
  match s.stashLine? tile (off / 128) with
  | some l => l.stamp
  | none => 0

/-! ## Applying an access to a resident line -/

inductive StashAnswer where
  | done (old : Word) (ok : Bool)
  | park
  | refused (r : Refused)
  deriving DecidableEq, Repr

/-- Accesses that a format region behind the line refuses (R116, R182, R251). -/
def stashAtomicLike : StashOp → Bool
  | .load _ => false
  | .store _ _ => false
  | .storeGaps _ _ => false
  | _ => true

/-- Bytes in a place, with those at some offsets left as they were. -/
def withGaps (old bs : Line) (gaps : List Nat) : Line :=
  (List.range bs.length).map (fun j => ((if gaps.contains j then old else bs)[j]?).getD 0)

/-- The word becomes full with a value (R184). -/
def State.fill8 (s : State) (tile off : Nat) (v c : Word) : State :=
  ((s.raiseStamp tile off c).setFull tile off true).stashWrite tile off (bytesOf v.toNat 8)

/-- The word becomes empty; a monitor on its line is signalled by that too, as by any full-empty write (R191; DEDUCED, log entry 74). -/
def State.empty8 (s : State) (tile off : Nat) : State := (s.setFull tile off false).stashSignal tile off

/-- One access at the tile that holds the stash (R137, R155, R180, R184). -/
def State.applyStash (s : State) (tile off : Nat) (what : StashOp) (c : Word) (va : Word) : StashAnswer × State :=
  let word := BitVec.ofNat 64 (s.stashRead tile off 8)
  let full := s.isFull tile off
  let inRegion := match s.stashLine? tile (off / 128) with
    | some l => (s.regionAt (l.line * 128)).isSome
    | none => false
  if stashAtomicLike what && inRegion then (.refused { cause := causeProtection, detail := 6, addr := va }, s)
  else match what with
    | .load n => (.done (BitVec.ofNat 64 (s.stashRead tile off n)) true, s)
    | .store n v => (.done 0 true, s.stashWrite tile off (bytesOf v.toNat n))
    | .storeGaps bs gaps => (.done 0 true, s.stashWrite tile off (withGaps (s.readMem (stashKey tile off) bs.length) bs gaps))
    | .storeLine bs =>
      (.done 0 true, (s.stashWrite tile off bs).modStashLine tile off (fun l => { l with poison := l.poison && bs.length != 128 }))
    | .atomic n op b d =>
      let o := s.stashRead tile off n
      match amoNew op n o b.toNat d.toNat with
      | some v => (.done (BitVec.ofNat 64 o) true, s.stashWrite tile off (bytesOf v n))
      | none => (.done (BitVec.ofNat 64 o) false, s)
    | .ldf => if full then (.done word true, s.empty8 tile off) else (.park, s)
    | .stf v => if full then (.park, s) else (.done 0 true, s.fill8 tile off v c)
    | .ldfn => if full then (.done word true, s.empty8 tile off) else (.done 0 false, s)
    | .stfn v => if full then (.done 0 false, s) else (.done 0 true, s.fill8 tile off v c)
    | .feset =>
      if full then (.done 0 true, s)
      else (.done 0 true, ((s.raiseStamp tile off c).setFull tile off true).stashSignal tile off)
    | .feclr => if full then (.done 0 true, s.empty8 tile off) else (.done 0 true, s)
    | .publish => (.done word true, s.stashWrite tile off (bytesOf (max word.toNat c.toNat) 8))
    | .acq => (.done word true, s)

/-! ## Answers -/

/-- Whether a request is posted: the thread goes on, and an operation is acknowledged (R185, R376). -/
def stashPosted (r : StashReq) : Bool := r.op ≠ 0 && r.rid = 0

/-- The bytes that a load has read. -/
def State.loadedBytes (s : State) (r : StashReq) (n : Nat) : Line := s.readMem (stashKey r.tile r.off) n

/-- A remote request's answer travels back. -/
def State.answerStash (s : State) (r : StashReq) (old : Word) (ok : Bool) : State :=
  let delay := s.tileDelay r.tile r.src
  let stamp := s.stampOf r.tile r.off
  if stashPosted r then s.replyStore r.who 0 delay r.op stamp
  else match r.what with
    | .load n =>
      s.replyLoad r.who 0 delay
        { who := r.who, rid := r.rid, line := 0, data := s.loadedBytes r n, wts := stamp, rts := 0, kind := .bare, err := none }
    | _ => s.replyAtomic r.who 0 delay { who := r.who, rid := r.rid, op := r.op, old := old, done := ok, wts := stamp, err := none }

/-- A remote request is refused (R376). -/
def State.refuseStash (s : State) (r : StashReq) (e : Refused) : State :=
  let delay := s.tileDelay r.tile r.src
  if stashPosted r then s.refuseStore r.who 0 delay r.op e
  else match r.what with
    | .load _ =>
      s.replyLoad r.who 0 delay
        { who := r.who, rid := r.rid, line := 0, data := [], wts := 0, rts := 0, kind := .bare, err := some e }
    | _ => s.replyAtomic r.who 0 delay { who := r.who, rid := r.rid, op := r.op, old := 0, done := false, wts := 0, err := some e }

/-- A request through space 0x80 that has waited is applied: a thread's instruction completes in this cycle (R185), and an engine has its
answer in it. -/
def State.completeOwn (s : State) (r : StashReq) (old : Word) : State :=
  match r.who with
  | .engine _ _ =>
    s.post (s.placeOf r.who (r.tile * 16)) noChan s.clk s.cur (.event (match r.what with
      | .load n => .loadReply { who := r.who, rid := r.rid, line := 0, data := s.loadedBytes r n, wts := s.stampOf r.tile r.off, rts := 0
                                kind := .bare, err := none }
      | _ => .storeAck r.op (s.stampOf r.tile r.off) none))
  | .thread t =>
    match s.thread? t with
    | some th =>
      match th.wait with
      | .fullEmpty rid d _ =>
        if rid = r.rid then
          let th := th.raise (s.stampOf r.tile r.off)
          match d with
          | some d =>
            let (s, th) := s.writeRegLate th d old
            s.retire t th
          | none => s.retire t th
        else s
      | _ => s
    | none => s
  | _ => s

/-- Whether a parked request may be applied to a word in the given state. -/
def Parked.allowed (p : Parked) (off : Nat) (full : Bool) : Bool :=
  p.off == off && (match p.req.what with
    | .ldf => full
    | .stf _ => !full
    | _ => false)

/-- Removes the first request of a park table that is equal to one. -/
def unpark (p : Parked) : List Parked → List Parked
  | [] => []
  | x :: xs => if x = p then xs else x :: unpark p xs

/-- After a change of a word's bit: the oldest parked request that the new state allows is applied, and so on (R186). -/
def State.drainWord (s : State) (tile off : Nat) : (fuel : Nat) → State
  | 0 => s
  | fuel + 1 =>
    match (s.tile tile).park.find? (fun p => p.allowed off (s.isFull tile off)) with
    | none => s
    | some p =>
      let s := s.modTile tile (fun x => { x with park := unpark p x.park })
      match s.applyStash tile off p.req.what p.req.clock p.req.va with
      | (.done old ok, s) =>
        (if p.req.own then s.completeOwn p.req old else s.answerStash p.req old ok).drainWord tile off fuel
      | (_, s) => s

def State.drain (s : State) (tile off : Nat) : State := s.drainWord tile off ((s.tile tile).park.length + 1)

/-- The same for every word of a line that has come back to the stash. -/
def State.drainLine (s : State) (tile idx : Nat) : State :=
  ((((s.tile tile).park.filter (fun p => p.off / 128 == idx)).map (·.off)).eraseDups).foldl (fun s off => s.drain tile off) s

/-! ## Requests that may park -/

/-- Park-table entries of a tile: 64 (R185). -/
def State.parkFull (s : State) (tile : Nat) : Bool := Config.parkEntries ≤ (s.tile tile).park.length

/-- A request parks, or the full table refuses it; a refusal travels back to the sending core (R185, R187). -/
def State.parkRequest (s : State) (r : StashReq) : State :=
  if s.parkFull r.tile then
    let back := if r.own then 0 else s.tileDelay r.tile r.src
    if r.own then s.post (s.placeOf r.who 0) noChan s.clk s.cur (.event (.parkTableRefusal r))
    else s.send (s.placeOf r.who 0) noChan back (.parkTableRefusal r)
  else s.modTile r.tile (fun x => { x with park := x.park ++ [{ off := r.off, req := r }] })

/-- A request's answer, or its refusal: to the tile's own thread at once, to another's over the mesh. -/
def State.answerReq (s : State) (r : StashReq) (old : Word) (ok : Bool) : State :=
  if r.own then s.completeOwn r old else s.answerStash r old ok
def State.refuseReq (s : State) (r : StashReq) (e : Refused) : State :=
  match r.own, r.who with
  | true, .thread t => match s.thread? t with
    | some th => s.trapHere t th e.cause e.detail (some e.addr)
    | none => s
  | true, .engine _ _ =>
    s.post (s.placeOf r.who (r.tile * 16)) noChan s.clk s.cur (.event (
      if stashPosted r then .postedRefusal r.op e
      else .loadReply { who := r.who, rid := r.rid, line := 0, data := [], wts := 0, rts := 0, kind := .bare, err := some e }))
  | _, _ => s.refuseStash r e

/-- An access that a line with an uncorrectable error lets through: a write, which leaves the line as it is where it is narrower
(R298). -/
def writesOnly : StashOp → Bool
  | .store _ _ => true
  | .storeLine _ => true
  | .storeGaps _ _ => true
  | _ => false

/-- A request reaches the tile that holds the stash (R155, R108): its bank's guard, its fill, and its effect. -/
def State.remoteStash (s : State) (r : StashReq) : State :=
  if !s.bankOk r.tile r.off r.guest then s.refuseReq r { cause := causeProtection, detail := 5, addr := r.va }
  else match s.resident r.tile r.off with
    | none =>
      let s' := s.modTile r.tile (fun x => { x with
        fillWait := x.fillWait ++ [{ idx := r.off / 128, req := r, at_ := s.clk, turn := s.inTurn }] })
      (s'.startFill r.tile (r.off / 128) r.guest).getD s'
    | some l =>
      if l.poison && !writesOnly r.what then s.refuseReq r { cause := causeUncorrectable, detail := 2, addr := r.va }
      else match s.applyStash r.tile r.off r.what r.clock r.va with
        | (.done old ok, s) => (s.answerReq r old ok).drain r.tile r.off
        | (.refused e, s) => s.refuseReq r e
        | (.park, s) => s.parkRequest r

/-- The place of an access among those of one cycle to a bank (R155), for a stash that is reached over the mesh or by its own cores: by the
tile that it comes from, its core, and its slot or, after those, its engine; a peer's comes last. -/
def State.stashPlace (s : State) (who : Agent) (src : Nat) : Nat :=
  let at_ := fun (core slot : Nat) => s.meshNumber src * 512 + core * 32 + slot
  match who with
  | .thread t => match s.thread? t with
    | some th => at_ (coreIn th.home) (slotIn th.home)
    | none => at_ 0 0
  | .engine tile id => match ((s.tile tile).mrun ++ (s.tile tile).crun).find? (fun c => c.id == id) with
    | some c => at_ (c.self % 16) 16
    | none => at_ 15 16
  | .stash _ => at_ 15 17
  | .front => 4096 * 512
  | .peer d _ _ => 4097 * 512 + d

/-- Sends a request to another tile's stash, which it reaches after a delay. -/
def State.sendStashIn (s : State) (delay : Nat) (r : StashReq) : State :=
  s.send (s.placeOf r.who 0) (match r.who with | .thread t => chanThread t (stashKey r.tile r.off / 128) | _ => noChan) delay
    (.remoteStashAccess r)

def State.sendStash (s : State) (r : StashReq) : State := s.sendStashIn (s.tileDelay r.src r.tile) r

/-! ## The own stash -/

/-- The thread waits for a fill of its tile's stash; with no translation of the backing page, for the fault's service (R104, R295). -/
def State.awaitFill (s : State) (t : Nat) (th : Thread) (i : Instr) (off : Nat) (va : Word) : State :=
  match s.startFill (tileOf th.home) (off / 128) th.guest with
  | some s => s.await t th (.fill (tileOf th.home) (off / 128) va i)
  | none => s.await t th (.fault va)

/-- A thread's access through space 0x80 (R104, R155): filled first where it is not resident, then applied in this cycle.
`f` completes the instruction with the word's old value. -/
def State.ownAccess (s : State) (t : Nat) (th : Thread) (i : Instr) (off : Nat) (va : Word) (what : StashOp)
    (f : State → Thread → Word → Bool → State) (park : State → Thread → State) : State :=
  let tile := tileOf th.home
  match s.resident tile off with
  | none => s.awaitFill t th i off va
  | some l =>
    if l.poison && !writesOnly what then s.trapHere t th causeUncorrectable 2 (some va)
    else match s.applyStash tile off what (th.clockFor what) va with
      | (.done old ok, s) => (f s (th.raise (s.stampOf tile off)) old ok).drain tile off
      | (.refused r, s) => s.trapHere t th r.cause r.detail (some va)
      | (.park, s) => park s th

/-! ## Write-back (R105, R156) -/

/-- The write-back or drop message of a line with the given bytes leaves for its home; the stash keeps the line in its buffer until it is
acknowledged. -/
def State.postWriteBack (s : State) (tile idx : Nat) (l : StashLine) (data : Line) (drop : Bool) (op : Nat) : State :=
  let w : WriteBack := { tile := tile, idx := idx, line := l.line, data := data, fe := l.fe, stamp := l.stamp
                         reg := l.reg, drop := drop, op := op, bad := l.bad }
  let s := s.modTile tile (fun x => { x with wbuf := x.wbuf ++ [w] })
  s.send (placeOfStash tile) (chanToHome tile l.line) Config.latHome
    (if l.dirty then .stashWriteBack w else .dropMessage tile idx l.line l.reg op)

/-- The resident lines of a tile whose index lies in a range. -/
def State.linesIn (s : State) (tile lo hi : Nat) : List (Nat × StashLine) :=
  (s.stash.filter (fun p => p.1 / 1024 == tile && lo ≤ p.1 % 1024 && p.1 % 1024 < hi && s.lineLives p.2)).map (fun p => (p.1 % 1024, p.2))

/-- Writes back every dirty line of a range and keeps it resident (R105, R132). -/
def State.writeBackRange (s : State) (tile lo hi op : Nat) : State :=
  ((s.linesIn tile lo hi).filter (·.2.dirty)).foldl
    (fun s p => (s.postWriteBack tile p.1 p.2 (s.stashData tile p.1) false op).setStashLine tile p.1 { p.2 with dirty := false }) s

/-- Gives up every line of a range: a write-back of a dirty one, a drop message for a clean one (R106). -/
def State.dropRange (s : State) (tile lo hi op : Nat) : State :=
  (s.linesIn tile lo hi).foldl (fun s p => (s.postWriteBack tile p.1 p.2 (s.stashData tile p.1) true op).dropStashLine tile p.1) s

/-- The operation of a write-back to a dead memory-side die ends as its accesses do (R301). -/
def State.deadWriteBack (s : State) (tile line op : Nat) (va : Word) : State :=
  let s := s.send (placeOfStash tile) (chanToStash tile line) Config.latHome (.storeAck 0 0 (some (tile, line)))
  if op = 0 then s
  else s.send (placeOfStash tile) noChan Config.latHome (.postedRefusal op { cause := causeUncorrectable, detail := 5, addr := va })

/-- The address of a line that a stash index names through space 0x80. -/
def ownAddr (idx : Nat) : Word := BitVec.ofNat 64 (0x80 * 2 ^ 56 + idx * 128)

/-- A write-back reaches its home (R155, R156): applied while its registration stands, only acknowledged otherwise. -/
def State.homeWriteBack (s : State) (w : WriteBack) : State :=
  if s.deadDies.contains (homeDie (w.line * 128)) then s.deadWriteBack w.tile w.line w.op (ownAddr w.idx) else
  let stands := (s.line w.line).holder == some (w.tile, w.reg)
  let s :=
    if stands then
      let s := (((s.homeWrite (w.line * 128) w.data).modLine w.line
        (fun l => { l.touch true with
          wts := maxW l.wts w.stamp, rts := maxW l.rts w.stamp, fe := w.fe
          holder := if w.drop then none else l.holder })).spoilLine w.line w.bad).signal w.line Config.latHome w.stamp
      if w.drop then (s.modLine w.line (fun l => { l with recalling := false })).release w.line else s
    else s
  s.send (placeOfStash w.tile) (chanToStash w.tile w.line) Config.latHome
    (.storeAck w.op (s.line w.line).wts (some (w.tile, w.line)))

/-- A drop message of a clean line reaches its home (R106). -/
def State.homeDrop (s : State) (tile idx line : Nat) (reg : Word) (op : Nat) : State :=
  if s.deadDies.contains (homeDie (line * 128)) then s.deadWriteBack tile line op (ownAddr idx) else
  let s :=
    if (s.line line).holder == some (tile, reg) then
      (s.modLine line (fun l => { l with holder := none, recalling := false })).release line
    else s
  s.send (placeOfStash tile) (chanToStash tile line) Config.latHome (.storeAck op (s.line line).wts (some (tile, line)))

end Sys2Proof.Machine
end

