-- ==== Sys2Proof/Machine/Access.lean ====
section
/-!
DEFINITION. A thread's own side of its accesses: the send queue (R26), cached copies (R114, R151), loads, stores and atomics to
every space (R93, R94, R126, R129, R136, R138), and how a reply completes the waiting instruction.
-/

namespace Sys2Proof.Machine

open Sys2Proof

/-! ## The send queue -/

/-- An instruction that sends a message needs an entry of the send queue; with none free, the thread waits for one (R26). -/
def State.gate (s : State) (t : Nat) (th : Thread) (i : Instr) (f : State → Thread → State) : State :=
  if th.queued then f s th
  else match s.flip Config.sendFull with
    | (true, s) =>
      (({ s with fresh := s.fresh + 1 }).post (placeOfSlot th.home) noChan (s.clk + 1 + Config.contention s.fresh) t
        (.event (.sendQueueFree t))).await t th (.sendQueue i)
    | (false, s) => f s th

def State.takeRid (s : State) : Nat × State := (s.nextRid, { s with nextRid := s.nextRid + 1 })

/-- The access of thread t at n bytes, as a home sees it. -/
def accessOf (t : Nat) (th : Thread) (rid : Nat) (va : Word) (pa n : Nat) : Access :=
  { who := .thread t, rid := rid, va := va, pa := pa, n := n, clock := th.lts, guest := th.guest, core := coreOf th.home }

/-- A store or atomic of thread t, which carries its clock at issue (R152). -/
def writeOf (t : Nat) (th : Thread) (rid : Nat) (va : Word) (pa n : Nat) : Access := { accessOf t th rid va pa n with clock := th.clock }

/-- A request of thread t to another tile's stash. -/
def stashReqOf (t : Nat) (th : Thread) (rid op tile off : Nat) (va : Word) (what : StashOp) (own : Bool) : StashReq :=
  { who := .thread t, src := tileOf th.home, rid := rid, va := va, tile := tile, off := off, what := what, clock := th.clockFor what, guest := th.guest
    op := op, refusals := 0, own := own }

/-- The convoy that a launch belongs to on this device: a timed record's (R334, R351). -/
def Record.inConvoy (r : Record) : Option (BitVec 16) := if r.timed && r.convoy != 0 then some r.convoy else none
def State.convoyOfLaunch (s : State) (l : Nat) : Option (BitVec 16) := (s.launch? l).bind (fun l => l.rcd.inConvoy)
def State.convoyOf (s : State) (th : Thread) : Option (BitVec 16) := s.convoyOfLaunch th.launch

/-- The convoy of a thread on this device. -/
def State.convoyAt (s : State) (g : BitVec 8) (c : BitVec 16) : Option Convoy := s.convoys.find? (fun v => v.guest == g && v.id == c)
def State.convoyOfThread (s : State) (th : Thread) : Option Convoy := (s.convoyOf th).bind (s.convoyAt th.guest)

/-- From the cycle in which WALL reads a stop's time, or an agreed action's, a convoy's peer requests are held (R325, R336). -/
def Convoy.holds (v : Convoy) (wall : Word) : Bool := v.tp.any (fun p => p ≤ wall) || v.action.any (fun p => p.2 ≤ wall)

/-- A stop is in force: its time has come, and no agreement on it is pending (R324, R336). -/
def Convoy.inForce (v : Convoy) (wall : Word) : Bool := v.tp.any (fun p => p ≤ wall) && !v.action.any (fun p => p.1 == .stop)

/-- Whether a stop, or an agreement of R336, holds the peer requests that the threads of a launch issue (R325). -/
def State.holdsPeer (s : State) (g : BitVec 8) (l : Nat) : Bool := ((s.convoyOfLaunch l).bind (s.convoyAt g)).any (fun v => v.holds s.wall)

def State.modConvoy (s : State) (g : BitVec 8) (c : BitVec 16) (f : Convoy → Convoy) : State :=
  { s with convoys := s.convoys.map (fun (v : Convoy) => if v.guest = g ∧ v.id = c then f v else v) }

/-- A peer message of a launch's convoy leaves for a device (R336). -/
def State.countSent (s : State) (g : BitVec 8) (l dev : Nat) : State :=
  match s.convoyOfLaunch l with
  | some c => s.modConvoy g c (fun v => { v with sent := KMap.set v.sent dev (KMap.getD v.sent dev 0 + 1) })
  | none => s

/-- The peer port for a request to a line of a device: one of those cabled to it, by a hash of both (R342; log entry 78). -/
def portFor (dev : Nat) (va : Word) : Nat := Config.portHash dev (low56 va / 128) % Config.peerPorts

/-- A request to a peer device leaves, stamped with WALL, or is held for the convoy's stop, unstamped (R325); its answer comes from the pod
(R340). -/
def State.leavePeer (s : State) (g : BitVec 8) (o : PeerOut) : State :=
  let hold := s.holdsPeer g o.launch
  let s := if hold then s else s.countSent g o.launch o.dev
  { s with peerOut := s.peerOut ++ [{ o with port := portFor o.dev o.va, held := hold, sentAt := s.clk, stamp := if hold then none else some s.wall }] }

/-- The clock that an access to a peer carries (R152, R183). -/
def Thread.clockOf (th : Thread) : PeerOp → Word
  | .store _ _ => th.clock
  | .storeGaps _ _ => th.clock
  | .atomic _ _ _ _ => th.clock
  | .stash what => th.clockFor what
  | .arm _ _ => th.clock
  | _ => th.lts

/-- The guest that a guest's peer table names on a device (R340). -/
def State.namedAt (s : State) (g : BitVec 8) (dev : Nat) : BitVec 8 := (KMap.get? (s.guest g).peers dev).getD 0

/-- A thread makes a request to a peer device. -/
def State.sendPeer (s : State) (t : Nat) (th : Thread) (rid op dev : Nat) (va : Word) (what : PeerOp) : State :=
  s.leavePeer th.guest
    { rid := rid, tid := t, va := va, dev := dev, named := s.namedAt th.guest dev, what := what, clock := th.clockOf what, stamp := none, op := op, sentAt := 0, held := false
      turn := s.turn, refusals := 0, launch := th.launch, redirected := false, again := false, parked := false, eng := none }

/-! ## Cached copies (R114, R151) -/

/-- The slice and set of a line within a die (R114). -/
def l2Set (line : Nat) : Nat × Nat :=
  let pa := line * 128
  ((bits pa 7 10) ^^^ (bits pa 17 10) ^^^ (bits pa 27 10), (bits pa 17 8) ^^^ (bits pa 27 8))

/-- The tile that a slice of a die belongs to at present: slices are numbered row-major in the die's 32 × 32 tiles (R114, R267). -/
def State.sliceTile (s : State) (die slice : Nat) : Nat :=
  let row := slice / 32
  let col := slice % 32
  let place := die * 16 + row / 8 * 4 + col / 8
  let lodge := ((List.range 64).find? (fun l => s.placeOfLodge l == place)).getD 0
  lodge * 64 + row % 8 * 8 + col % 8

/-- A copy of its guest's present generation; one of an older generation counts as free (R280). -/
def State.copyLives (s : State) (x : Copy) : Bool := x.gen == (s.guest x.guest).gen

/-- A copy that serves a load of clock c: of the line, the guest and its generation, with a lease that covers c. -/
def State.copyServes (s : State) (x : Copy) (line : Nat) (g : BitVec 8) (c : Word) : Bool :=
  x.line == line && x.guest == g && s.copyLives x && c ≤ x.rts

/-- The copy that a cache keeps of a line when another reaches it: a lease is never shortened (R151). -/
def Copy.longer (x y : Copy) : Copy := if y.line = x.line ∧ y.guest = x.guest ∧ y.gen = x.gen ∧ x.rts < y.rts then y else x

/-- One of the ways or copies that a fill may take (log entry 8). -/
def State.pick {α : Type} (s : State) (l : List α) : Option α := l[Config.victim s.fresh % l.length]?

/-! ### L1: 32 sets of 4 ways -/

def l1Set (line : Nat) : Nat := line % 32

/-- The L1 copy that a load hits. -/
def State.l1Find (s : State) (core line : Nat) (g : BitVec 8) (c : Word) : Option Copy :=
  (KMap.getD s.l1 core []).find? (fun x => s.copyServes x line g c)

/-- A copy reaches a core's L1: it takes the place of an older one of its line, a free way of its set, or that of another copy. -/
def State.l1Fill (s : State) (core : Nat) (x : Copy) : State :=
  let l := KMap.getD s.l1 core []
  let x := l.foldl Copy.longer x
  let rest := l.filter (fun y => y.line != x.line && s.copyLives y)
  let mates := rest.filter (fun y => l1Set y.line == l1Set x.line)
  if mates.length < Config.l1Ways then { s with l1 := KMap.set s.l1 core (x :: rest) }
  else { s with l1 := KMap.set s.l1 core (x :: rest.filter (fun y => some y != s.pick mates)), fresh := s.fresh + 1 }

/-! ### L2: 256 sets of 16 ways in each slice (R114, R282) -/

/-- The live copies of a set, most recently used first. -/
def State.l2Mates (s : State) (die line : Nat) : List L2Copy :=
  s.l2.filter (fun x => x.die == die && l2Set x.copy.line == l2Set line && s.copyLives x.copy)

/-- The ways of a set of a tile's slice that are in use: not those retired (R300), nor in pre-drain the saddlebag's (R270). -/
def State.openWays (s : State) (tile set : Nat) : List Nat :=
  (List.range Config.l2Ways).filter (fun w => !s.retired.contains (.l2way (s.siteOf tile) set w) && !(s.preOn && 8 ≤ w))

/-- The locks in a line's set. -/
def State.l2Locks (s : State) (die line : Nat) : List Lock := s.locks.filter (fun k => k.die == die && l2Set k.line == l2Set line)

/-- The ways of a set that the division gives a guest: where the set has locks, or a retired way, by its own division (R282, R300). -/
def TileGuest.share (y : TileGuest) (set : Nat) : Nat := (KMap.get? y.setWays set).getD y.ways

/-- The ways that a guest holds in a line's set: those of its copies, and those of its locks, filled or not. -/
def State.waysHeld (s : State) (die line : Nat) (g : BitVec 8) : Nat :=
  (((s.l2Mates die line).filter (fun y => y.copy.guest == g)).map (·.way) ++
    ((s.l2Locks die line).filter (fun k => k.guest == g)).map (·.way)).eraseDups.length

/-- Of those, the ones beyond what the division gives the guest. -/
def State.waysBeyond (s : State) (x : Tile) (die line : Nat) (g : BitVec 8) : Nat :=
  s.waysHeld die line g - (x.guest g).share (l2Set line).2

/-- The ways that a line of guest g may take in its set (R133, R282): its own or its lock's; a free one, within what the division gives the
guest or leaves to all; else one that another guest holds beyond its ways, or one of its own. None takes the guest past its CEIL. -/
def State.waysFor (s : State) (die line : Nat) (g : BitVec 8) : List Nat :=
  let tile := s.sliceTile die (l2Set line).1
  let mates := s.l2Mates die line
  let locks := s.l2Locks die line
  let openw := s.openWays tile (l2Set line).2
  match mates.find? (fun y => y.copy.line == line), locks.find? (fun k => k.line == line) with
  | some y, _ => openw.filter (· == y.way)
  | none, some k => openw.filter (· == k.way)
  | none, none =>
    let x := s.tile tile
    let ways := openw.filter (fun w => !locks.any (fun k => k.way == w))
    let of_ := fun (p : BitVec 8 → Bool) => ways.filter (fun w => mates.any (fun y => y.way == w && p y.copy.guest))
    let free := ways.filter (fun w => !mates.any (fun y => y.way == w))
    let guests := (mates.map (fun y => y.copy.guest) ++ locks.map (fun k => k.guest)).eraseDups
    let left := openw.length - (x.guests.map (fun p => p.2.share (l2Set line).2)).sum
    let held := s.waysHeld die line g
    if (x.guest g).gqos.ceil ≤ held then of_ (· == g)
    else if !free.isEmpty && (held < (x.guest g).share (l2Set line).2 || (guests.map (s.waysBeyond x die line)).sum < left) then free
    else of_ (fun h => h == g || 0 < s.waysBeyond x die line h)

/-- A copy reaches the L2 slice of its line. -/
def State.l2Fill (s : State) (die : Nat) (x : Copy) : State :=
  let x := ((s.l2Mates die x.line).map (·.copy)).foldl Copy.longer x
  match s.pick (s.waysFor die x.line x.guest) with
  | none => s
  | some w =>
    { s with
      l2 := { die := die, way := w, copy := x } ::
        s.l2.filter (fun y => !(y.die == die && l2Set y.copy.line == l2Set x.line && (y.way == w || y.copy.line == x.line)))
      fresh := s.fresh + 1 }

/-- A load looks a line up in a sampled set: the guest's shadow tags there count at which of its last 16 lines it falls, resident or not,
and the line becomes the latest (R282; DESIGN CHOICE, log entry 72). -/
def TileGuest.sample (y : TileGuest) (set line : Nat) : TileGuest :=
  let tags := KMap.getD y.shadow set []
  { y with
    shadow := KMap.set y.shadow set ((line :: tags.filter (· != line)).take 16)
    hits := if tags.contains line then ((y.hits ++ List.replicate 16 0).take 16).modify (tags.takeWhile (· != line)).length (· + 1) else y.hits }

def State.l2Sample (s : State) (die line : Nat) (g : BitVec 8) : State :=
  if (l2Set line).2 % 8 ≠ 0 then s
  else s.modTile (s.sliceTile die (l2Set line).1) (fun t => t.modGuest g (fun y => y.sample (l2Set line).2 line))

/-- The L2 copy that a load hits; it becomes the most recently used. -/
def State.l2Find (s : State) (die line : Nat) (g : BitVec 8) (c : Word) : Option (Copy × State) :=
  (s.l2.find? (fun x => x.die == die && s.copyServes x.copy line g c)).map (fun x =>
    (x.copy, { s with l2 := x :: s.l2.filter (fun y => y != x) }))

/-- A store removes any copy of its line from the storing core's L1 (R115). -/
def State.l1Drop (s : State) (core line : Nat) : State :=
  { s with l1 := KMap.set s.l1 core ((KMap.getD s.l1 core []).filter (fun y => y.line != line)) }

/-! ## A thread's own outstanding operations (R115, R129) -/

/-- Whether two ranges of n and m bytes begin at known places and share a byte. -/
def placesOverlap (p : Option Nat) (n : Nat) (q : Option Nat) (m : Nat) : Bool :=
  match p, q with
  | some p, some q => overlaps p n q m
  | _, _ => false

/-- Whether an outstanding operation of thread t targets a byte of the access: by its name, by the stash bytes that it names, or by
where the byte lies at home. -/
def Tagged.meets (x : Tagged) (va : Word) (pa key : Option Nat) (n : Nat) : Bool :=
  !x.wb && (overlaps x.va.toNat x.len va.toNat n || placesOverlap x.pa x.len pa n || placesOverlap x.key x.len key n)

/-- The operations among some of them that do. -/
def State.meetingOps (s : State) (o : List Tagged) (th : Thread) (x : Target) (va : Word) (n : Nat) : List Nat :=
  if o.isEmpty then []
  else
    let pa := s.homeOf x (tileOf th.home) th.guest
    (o.filter (fun y => y.meets va pa (stashKeyOf x (tileOf th.home)) n)).map (fun y => y.op)

/-- The outstanding operations of thread t that target a byte of its load (R115). -/
def State.overlapping (s : State) (t : Nat) (th : Thread) (x : Target) (va : Word) (n : Nat) : List Nat :=
  s.meetingOps (s.outstanding t) th x va n
def State.ownOverlap (s : State) (t : Nat) (th : Thread) (x : Target) (va : Word) (n : Nat) : Bool := !(s.overlapping t th x va n).isEmpty

/-- The same for a store or atomic, which messages to one name keep in order: only another name's operation stands in its way, and the
thread waits for it (R129; DEDUCED, log entry 57). -/
def State.aliases (s : State) (t : Nat) (th : Thread) (x : Target) (va : Word) (n : Nat) : List Nat :=
  s.meetingOps ((s.outstanding t).filter (fun y => !overlaps y.va.toNat y.len va.toNat n)) th x va n
def State.aliasOverlap (s : State) (t : Nat) (th : Thread) (x : Target) (va : Word) (n : Nat) : Bool := !(s.aliases t th x va n).isEmpty

/-! ## Loads -/

/-- The value of loaded bytes (R93). -/
def LoadInto.value (l : LoadInto) (bs : List Byte) : Word :=
  if l.signed then sext (8 * l.n) (natOfBytes bs) else zext (8 * l.n) (natOfBytes bs)

/-- The loaded value lands and the load completes; `late`: in a cycle in which it does not issue (R48). -/
def State.landLoad (s : State) (t : Nat) (th : Thread) (l : LoadInto) (v : Word) (late : Bool) : State :=
  match l.dst with
  | .reg d =>
    let (s, th) := if late then s.writeRegLate th d v else s.writeReg th d v
    s.retire t th
  | .ext e => s.retire t { th with e := th.e.set e.toNat v }

/-- A load of a global line (R151): the home, where a stash holds the line (R155); else L1, the L2 slice, or the home. -/
def State.loadGlobal (s : State) (t : Nat) (th : Thread) (i : Instr) (va : Word) (pa : Nat) (l : LoadInto) : State :=
  let line := lineOf pa
  let core := coreOf th.home
  let die := s.dieOfTile (tileOf th.home)
  let fromHome := fun (s : State) => s.gate t th i (fun s th =>
    let (rid, s) := s.takeRid
    (s.send (placeOfSlot th.home) (chanThread t line) Config.latHome (.homeLoad (accessOf t th rid va pa l.n) .core)).await t th (.load rid l))
  if th.forceHome || (s.line line).holder.isSome then fromHome s
  else match s.l1Find core line th.guest th.lts with
    | some x => s.landLoad t (th.raise x.wts) l (l.value ((x.data.drop (pa % 128)).take l.n)) false
    | none =>
      let s := if th.queued then s else s.l2Sample die line th.guest
      match s.l2Find die line th.guest th.lts with
      | some (x, s) =>
        let (rid, s) := s.takeRid
        (s.send (placeOfSlot th.home) noChan Config.latL2 (.loadReply
          { who := .thread t, rid := rid, line := line, data := x.data, wts := x.wts, rts := x.rts, kind := .l2, err := none })).await
          t th (.load rid l)
      | none => fromHome s

/-- LD and its kin (R93, R115, R123): N bytes at `va` into a register or an extension register. -/
def State.load (s : State) (t : Nat) (th : Thread) (i : Instr) (l : LoadInto) : State :=
  s.access t th i l.va { n := l.n, align := l.n, kind := kindData, write := false } (fun s th x =>
    if s.ownOverlap t th x l.va l.n then s.await t th (.overlap i (s.overlapping t th x l.va l.n))
    else match x with
      | .loc key => s.landLoad t th l (l.value (s.readMem key l.n)) false
      | .own off => s.ownAccess t th i off l.va (.load l.n)
          (fun s th v _ => s.landLoad t th l (l.value (bytesOf v.toNat l.n)) false) (fun s th => s.setThread t th)
      | .global va pa => s.loadGlobal t th i va pa l
      | .party tile off => s.gate t th i (fun s th =>
          let (rid, s) := s.takeRid
          (s.sendStash (stashReqOf t th rid 0 tile off l.va (.load l.n) false)).await t th (.load rid l))
      | .peer d => s.gate t th i (fun s th =>
          let (rid, s) := s.takeRid
          (s.sendPeer t th rid 0 d l.va (.load l.n)).await t th (.load rid l))
      | .peerStash d => s.gate t th i (fun s th =>
          let (rid, s) := s.takeRid
          (s.sendPeer t th rid 0 d l.va (.stash (.load l.n))).await t th (.load rid l)))

/-! ## Stores -/

/-- A store that its tile applies in its issue cycle takes a tag acknowledged at once (R126). -/
def State.tagNow (s : State) (t : Nat) (th : Thread) (va : Word) (n : Nat) : State × Thread :=
  let (s, th, _) := s.takeTag t th va none none n 0 0
  (s, th)

/-- ST and its kin (R94, R126): n bytes of v at `va`. -/
def State.store (s : State) (t : Nat) (th : Thread) (i : Instr) (va : Word) (n : Nat) (v : Word) : State :=
  s.access t th i va { n := n, align := n, kind := kindData, write := true } (fun s th x =>
    if s.aliasOverlap t th x va n then s.await t th (.overlap i (s.aliases t th x va n))
    else
      let bs := bytesOf v.toNat n
      match x with
      | .loc key =>
        let (s, th) := s.tagNow t th va n
        (s.writeMem key bs).retire t th
      | .own off => s.ownAccess t th i off va (.store n v)
          (fun s th _ _ => let (s, th) := s.tagNow t th va n; s.retire t th) (fun s th => s.setThread t th)
      | .global gva pa => s.gate t th i (fun s th =>
          let (s, th, op) := s.takeTag t th va (some pa) none n 1 0
          ((s.l1Drop (coreOf th.home) (lineOf pa)).send (placeOfSlot th.home) (chanThread t (lineOf pa)) Config.latHome
            (.homeStore (writeOf t th 0 gva pa n) op bs)).retire t th)
      | .party tile off => s.gate t th i (fun s th =>
          let (s, th, op) := s.takeTag t th va (s.homeOf x tile th.guest) (stashKeyOf x tile) n 1 0
          (s.sendStash (stashReqOf t th 0 op tile off va (.store n v) false)).retire t th)
      | .peer d => s.gate t th i (fun s th =>
          let (s, th, op) := s.takeTag t th va none none n 1 0
          (s.sendPeer t th 0 op d va (.store n v)).retire t th)
      | .peerStash d => s.gate t th i (fun s th =>
          let (s, th, op) := s.takeTag t th va none none n 1 0
          (s.sendPeer t th 0 op d va (.stash (.store n v))).retire t th))

/-! ## Atomics -/

/-- The result that an atomic writes to d (R137). -/
def amoResult (n : Nat) (zero : Bool) (o : Word) : Word :=
  if n = 8 then o else if zero then zext 32 o.toNat else sext 32 o.toNat

/-- AMO (R136, R138): posted when d names x0, waited for otherwise. A copy of the line in L1 stays (R115 names stores only). -/
def State.atomic (s : State) (t : Nat) (th : Thread) (i : Instr) (va : Word) (n : Nat) (op : AmoOp) (b dv : Word) (d : Reg) : State :=
  let posted := d = .x 0
  let zero := op = .fadd
  s.access t th i va { n := n, align := n, kind := kindAmo, write := true } (fun s th x =>
    if s.aliasOverlap t th x va n then s.await t th (.overlap i (s.aliases t th x va n))
    else
      let go := fun (s : State) (pa : Option Nat) (f : State → Thread → Nat → Nat → State) => s.gate t th i (fun s th =>
        let last := th.lastTag
        let (s, th, tag) := s.takeTag t th va pa (stashKeyOf x (tileOf th.home)) n 1 0
        let (rid, s) := s.takeRid
        if posted then (f s th 0 tag).retire t th
        else (f s th rid tag).await t th (.atomic rid d n zero last))
      match x with
      | .own off => s.ownAccess t th i off va (.atomic n op b dv)
          (fun s th v _ =>
            let (s, th) := s.tagNow t th va n
            s.result t th d (amoResult n zero v)) (fun s th => s.setThread t th)
      | .global gva pa => go s (some pa) (fun s th rid tag =>
          s.send (placeOfSlot th.home) (chanThread t (lineOf pa)) Config.latHome
            (.homeAtomic (writeOf t th rid gva pa n) tag op b dv))
      | .party tile off => go s (s.homeOf x tile th.guest) (fun s th rid tag =>
          s.sendStash (stashReqOf t th rid tag tile off va (.atomic n op b dv) false))
      | .peer p => go s none (fun s th rid tag => s.sendPeer t th rid tag p va (.atomic n op b dv))
      | .peerStash p => go s none (fun s th rid tag => s.sendPeer t th rid tag p va (.stash (.atomic n op b dv)))
      | .loc _ => s.protection t th 3 va)

/-! ## Posted accesses that fail (R189, R376) -/

/-- A request of the thread with this number is parked at a sum-mode line, or waits at a stash for a fill that is (R142, R143). -/
def State.parkedAtSum (s : State) (mine : Nat → Bool) : Bool :=
  let parked := fun (f : Access → LoadKind → Bool) => s.lines.any (fun p => p.2.sum.any (fun m => m.parked.any (fun q => f q.1 q.2.1)))
  parked (fun a _ => mine a.rid && (a.who matches .thread _)) || s.peerOut.any (fun o => o.parked && mine o.rid) ||
    s.tiles.any (fun p => p.2.fillWait.any (fun w =>
      mine w.req.rid && (w.req.who matches .thread _) && parked (fun _ k => k == .fill p.1 w.idx)))

/-- What has parked there, or waits there, for a thread that no longer waits goes. -/
def State.unparkSum (s : State) (t : Nat) (mine : Nat → Bool) : State :=
  let gone := fun (w : FillWaiter) => w.req.who == .thread t && mine w.req.rid
  let ops := s.tiles.flatMap (fun p => (p.2.fillWait.filter gone).map (fun w => w.req.op))
  { s with
    tagged := s.tagged.filter (fun x => !ops.contains x.op)
    peerOut := s.peerOut.filter (fun o => !(o.parked && o.tid == t && mine o.rid))
    lines := s.lines.map (fun p => (p.1, { p.2 with
      sum := p.2.sum.map (fun m => { m with parked := m.parked.filter (fun q => !(q.1.who == .thread t && mine q.1.rid)) }) }))
    tiles := s.tiles.map (fun p => (p.1, { p.2 with fillWait := p.2.fillWait.filter (fun w => !gone w) })) }

/-- Wakes nothing itself: whether a wait is open-ended (R34). -/
def Wait.openEnded (s : State) : Wait → Bool
  | .rdv _ _ _ _ => true
  | .fullEmpty _ _ _ => true
  | .monitor _ => true
  | .barrier _ _ => true
  | .sleep _ => true
  | .wall _ => true
  | .reap _ _ => true
  | .load rid _ => s.parkedAtSum (· == rid)
  | .atomic rid _ _ _ _ => s.parkedAtSum (· == rid)
  | .feStatus rid _ _ => s.parkedAtSum (· == rid)
  | .acq rid => s.parkedAtSum (· == rid)
  | .relPub rid => s.parkedAtSum (· == rid)
  | .gather g => s.parkedAtSum g.asks
  | .fill tile idx _ _ => s.lines.any (fun p => p.2.sum.any (fun m => m.parked.any (fun q => q.2.1 == .fill tile idx)))
  | _ => false

/-- A rendezvous arrival is withdrawn: the slot's bit is cleared from ARRIVED on its behalf, at the end of the cycle (R48, R88). -/
def State.withdrawArrival (s : State) (th : Thread) (k : BitVec 5) : State :=
  { s with lateWrites := s.lateWrites ++
      [{ core := coreOf th.home, guest := th.guest, k := k, slot := slotIn th.home, val := s.kread (coreOf th.home) th.guest k
         clear := true }] }

/-- What a thread woken from an open-ended wait leaves behind is taken back: its arrival, its parked requests. A wait whose end
is certain already (a closed rendezvous phase) is not broken off: none (R88, R190). -/
def State.breakWait (s : State) (t : Nat) (th : Thread) : Option State :=
  match th.wait with
  | .rdv k _ phase _ => if phase ≠ 0 then none else some (s.withdrawArrival th k)
  | .load rid _ => some (s.unparkSum t (· == rid))
  | .atomic rid _ _ _ _ => some (s.unparkSum t (· == rid))
  | .feStatus rid _ _ => some (s.unparkSum t (· == rid))
  | .acq rid => some (s.unparkSum t (· == rid))
  | .relPub rid => some (s.unparkSum t (· == rid))
  | .gather g => some (s.unparkSum t g.asks)
  | _ => some s

/-- A refused full-empty request of thread t waits at its core to be sent again (R187). -/
def resends (t rid : Nat) (p : Pending) : Bool :=
  match p.work with
  | .event (.feResend r) => r.who == .thread t && r.rid == rid
  | _ => false

/-- What a thread was woken for comes after a request that it waits on is withdrawn (R190): one that is to be sent again is not; else a
withdrawal goes, once, to the tile or the device that holds the word. -/
def State.withdraw (s : State) (t : Nat) (th : Thread) (rid : Nat) (va : Word) : State :=
  if s.agenda.any (resends t rid) then ({ s with agenda := s.agenda.filter (fun p => !resends t rid p) } : State).takePending t th
  else if th.asked = some th.waitWid then s else
  let s := s.setThread t { th with asked := some th.waitWid }
  match s.spaceOf va with
  | .party =>
    let tile := (s.guest th.guest).tile (lodgeField va) (tileField va)
    s.send (placeOfSlot th.home) (chanThread t (stashKey tile (stashOff va) / 128)) (s.tileDelay (tileOf th.home) tile) (.withdrawal t)
  | .peerStash d => s.sendPeer t th rid 0 d va .withdraw
  | _ => s.post (placeOfSlot th.home) noChan s.clk t (.event (.withdrawal t))

/-- A pending event of group 1 or 2 wakes a thread on an open-ended wait, which takes it at the waiting instruction (R294);
an active handler's thread keeps it for later. -/
def State.wakeForEvent (s : State) (t : Nat) : State :=
  match s.thread? t with
  | some th =>
    if !th.halted && !th.active && th.wait.openEnded s then
      match th.wait with
      | .fullEmpty rid _ va => s.withdraw t th rid va
      | _ => match th.unissued.nextEvent, s.breakWait t th with
        | some (e, th), some s => s.takeEvent t th e
        | _, _ => s
    else s
  | none => s

/-- A posted access of thread t is lost: the thread keeps it for its next issue (R294), or it is reported against the launch (R189). -/
def State.loseAccess (s : State) (t launch : Nat) (e : TrapEvent) (addr data : Word) : State :=
  match s.thread? t with
  | some th =>
    if th.halted then (s.log 0x40 launch addr data).modLaunch launch (fun l => l.blame .faulted e.cause e.detail)
    else (s.setThread t { th with postEvents := insertEvent th.lastTag e th.postEvents }).wakeForEvent t
  | none => (s.log 0x40 launch addr data).modLaunch launch (fun l => l.blame .faulted e.cause e.detail)

end Sys2Proof.Machine
end

