-- ==== Sys2Proof/Machine/Atomic.lean ====
section
/-!
DEFINITION. Atomics at home (R136 to R139) and gather reductions (R140, R141).
-/

namespace Sys2Proof.Machine

open Sys2Proof

def widthBytes : Width → Nat
  | .w => 4 | .d => 8

/-- AMO: the CAS reads d at issue as its new value (R137). -/
def amo (i : Instr) (op : AmoOp) (w : Width) (d a b : Reg) (s : State) : Result :=
  onThread s 4 [d, a, b] (fun t th =>
    s.atomic t th i (s.readReg th a) (widthBytes w) op (s.readReg th b) (s.readReg th d) d)

def execAmoAdd (w : Width) (d a b : Reg) (s : State) : Result := amo (.amoAdd w d a b) .add w d a b s
def execAmoAnd (w : Width) (d a b : Reg) (s : State) : Result := amo (.amoAnd w d a b) .and w d a b s
def execAmoOr (w : Width) (d a b : Reg) (s : State) : Result := amo (.amoOr w d a b) .or w d a b s
def execAmoXor (w : Width) (d a b : Reg) (s : State) : Result := amo (.amoXor w d a b) .xor w d a b s
def execAmoMin (w : Width) (d a b : Reg) (s : State) : Result := amo (.amoMin w d a b) .min w d a b s
def execAmoMax (w : Width) (d a b : Reg) (s : State) : Result := amo (.amoMax w d a b) .max w d a b s
def execAmoMinu (w : Width) (d a b : Reg) (s : State) : Result := amo (.amoMinu w d a b) .minu w d a b s
def execAmoMaxu (w : Width) (d a b : Reg) (s : State) : Result := amo (.amoMaxu w d a b) .maxu w d a b s
def execAmoSwap (w : Width) (d a b : Reg) (s : State) : Result := amo (.amoSwap w d a b) .swap w d a b s
def execAmoCas (w : Width) (d a b : Reg) (s : State) : Result := amo (.amoCas w d a b) .cas w d a b s
def execAmoFadd (d a b : Reg) (s : State) : Result := amo (.amoFadd d a b) .fadd .w d a b s

/-! ## Gather reductions -/

/-- An element widened for its reduction (R140). -/
def gredWiden (op : GredOp) (w : Width) (v : Word) : Word :=
  match w, op with
  | .d, _ => v
  | .w, .minu => zext 32 v.toNat
  | .w, .maxu => zext 32 v.toNat
  | .w, .fadd => zext 32 v.toNat
  | .w, _ => sext 32 v.toNat

def gredCombine (op : GredOp) (x y : Word) : Word :=
  match op with
  | .add => x + y
  | .min => if y.slt x then y else x
  | .max => if x.slt y then y else x
  | .minu => if y.ult x then y else x
  | .maxu => if x.ult y then y else x
  | .fadd => fpAdd .f32 .rne x y

/-- The reduction of the elements in list order (R140). -/
def gredFold (op : GredOp) (w : Width) (vs : List Word) : Word :=
  match vs.map (gredWiden op w) with
  | [] => 0
  | v :: vs => vs.foldl (gredCombine op) v

/-- The values of the present phase in list order. -/
def Gather.values (g : Gather) : List Word := (List.range g.addrs.length).map (fun j => KMap.getD g.got j 0)

/-- The targets of the reads of a phase, or the first check in list order that fails (R122, R141). -/
inductive GatherCheck where
  | ok (ts : List Target)
  | stop (va : Word) (c : Check)

/-- The checks of the reads from a position on. A translation that has been waited for stays with the gather, so that each wait for one brings
it on. -/
def State.gatherCheck (s : State) (th : Thread) (align : Nat) : (pos : Nat) → List Word → Gather → GatherCheck × Gather × State
  | _, [], g => (.ok [], g, s)
  | pos, va :: vas, g =>
    let r : Check × State := match KMap.get? g.pas pos with
      | some pa => (.ok (.global (BitVec.ofNat 64 (low56 va)) pa), s)
      | none => s.check th va { n := g.width, align := align, kind := kindData, write := false }
    match r with
    | (.ok x, s) =>
      let g := match x with
        | .global _ pa => { g with pas := KMap.set g.pas pos pa }
        | _ => g
      match s.gatherCheck th align (pos + 1) vas g with
      | (.ok xs, g, s) => (.ok (x :: xs), g, s)
      | r => r
    | (c, s) => (.stop va c, g, s)

/-- What serves one read of a gather: a value at once, a line of the own stash that has to be filled, or a message. -/
inductive GatherRead where
  | value (v wts : Word)
  | fill (off : Nat)
  | poisoned (r : Refused)
  | away

/-- What serves a read of n bytes at present; `force`: its home must serve it (R115). -/
def State.gatherLook (s : State) (th : Thread) (force : Bool) (x : Target) (va : Word) (n : Nat) : GatherRead :=
  match x with
  | .loc key => .value (BitVec.ofNat 64 (natOfBytes (s.readMem key n))) 0
  | .own off => match s.resident (tileOf th.home) off with
    | none => .fill off
    | some l =>
      if l.poison then .poisoned { cause := causeUncorrectable, detail := 2, addr := va }
      else .value (BitVec.ofNat 64 (s.stashRead (tileOf th.home) off n)) l.stamp
  | .global _ pa =>
    match (if force || (s.line (lineOf pa)).holder.isSome then none else s.l1Find (coreOf th.home) (lineOf pa) th.guest th.lts) with
    | some c => .value (BitVec.ofNat 64 (natOfBytes ((c.data.drop (pa % 128)).take n))) c.wts
    | none => .away
  | _ => .away

/-- Sends the read with request number `rid` as an ordinary load of its space (R141). A list is charged as one load, that of its header:
`list`, a read of an index, arrives and is answered in the same cycle (log entry 24), and the first in each 64 bytes pays for them (R284). -/
def State.gatherSend (s : State) (t : Nat) (th : Thread) (list force : Bool) (x : Target) (rid : Nat) (va : Word) (n : Nat) : State :=
  let after := fun (delay : Nat) => if list then 0 else delay
  match x with
  | .global gva pa =>
    let die := s.dieOfTile (tileOf th.home)
    let home := force || (s.line (lineOf pa)).holder.isSome
    let s := if home then s else s.l2Sample die (lineOf pa) th.guest
    match (if home then none else s.l2Find die (lineOf pa) th.guest th.lts) with
    | some (c, s) => s.send (placeOfSlot th.home) noChan (after Config.latL2) (.loadReply
        { who := .thread t, rid := rid, line := lineOf pa, data := c.data, wts := c.wts, rts := c.rts
          kind := .l2, err := none })
    | none => s.send (placeOfSlot th.home) (chanThread t (lineOf pa)) (after Config.latHome)
        (.homeLoad { accessOf t th rid gva pa n with tokens := if list then some (if pa % 64 < n then 1 else 0) else none } .core)
  | .party tile off => s.sendStashIn (after (s.tileDelay (tileOf th.home) tile)) (stashReqOf t th rid 0 tile off va (.load n) false)
  | .peer d => s.sendPeer t th rid 0 d va (.load n)
  | .peerStash d => s.sendPeer t th rid 0 d va (.stash (.load n))
  | _ => s

/-- The reads of a phase in list order: those served at once, which raise the thread's clock (R151), and messages for the others. -/
def State.gatherIssue (s : State) (t : Nat) (th : Thread) : (pos : Nat) → List (Word × Target) → Gather → State × Thread × Gather
  | _, [], g => (s, th, g)
  | pos, (va, x) :: rest, g =>
    match s.gatherLook th (g.force.contains pos) x va g.width with
    | .value v w => s.gatherIssue t (th.raise w) (pos + 1) rest { g with got := KMap.set g.got pos v }
    | _ => (s.gatherSend t th (g.phase == .indices) (g.force.contains pos) x (g.base + pos) va g.width).gatherIssue t th (pos + 1) rest
        { g with atOnce := false }

/-- What a phase's values lead to: the next phase, a bad header, or the result. -/
inductive GatherNext where
  | phase (g : Gather)
  | illegal
  | result (v : Word)

def Gather.next (g : Gather) : GatherNext :=
  match g.phase with
  | .header =>
    let h := KMap.getD g.got 0 0
    let n := h.toNat % 128
    if h.toNat / 128 ≠ 0 ∨ n = 0 ∨ 64 < n then .illegal
    else .phase { g with phase := .indices, n := n, pas := [], got := [], force := [], width := 4
                         addrs := (List.range n).map (fun j => g.b + 8 + BitVec.ofNat 64 (4 * j)) }
  | .indices =>
    .phase { g with phase := .elements, pas := [], got := [], force := [], width := widthBytes g.w
                    addrs := g.values.map (fun x => g.a + BitVec.ofNat 64 (x.toNat % 2 ^ 32 * widthBytes g.w)) }
  | .elements => .result (gredFold g.op g.w g.values)

/-- All values of a gather are there: the reduction takes ⌈n / 8⌉ cycles more (R141). -/
def State.gathered (s : State) (t : Nat) (th : Thread) (g : Gather) : State :=
  (s.post (placeOfSlot th.home) noChan (s.clk + (g.n + 7) / 8) t (.event (.gatherReductionComplete t))).await t th (.gather g)

/-- The thread waits with the gather as far as it has come. -/
def Thread.gathers (th : Thread) (g : Gather) : Thread := { th with gather := some g }

/-- Goes on with a gather whose present phase has none of its values, and with the phases after it while their reads are served at once; at
most three phases follow each other. -/
def State.gatherRun (s : State) (t : Nat) : (fuel : Nat) → Thread → Gather → State
  | 0, th, g => s.await t th (.gather g)
  | fuel + 1, th, g =>
    match s.gatherCheck th (if g.phase = .header then 8 else g.width) 0 g.addrs g with
    | (.stop va (.trap c d), _, s) => s.trapHere t th c d (some va)
    | (.stop va (.miss c), g, s) => s.awaitTlb t (th.gathers g) g.i va c
    | (.stop _ _, g, s) => s.await t (th.gathers g) (.frozen (some g.i))
    | (.ok xs, g, s) =>
      let reads := g.addrs.zip xs
      let th := xs.foldl Thread.touching th
      let own := (List.range reads.length).filter (fun j => reads[j]?.any (fun p => s.ownOverlap t th p.2 p.1 g.width))
      if !own.isEmpty then s.await t (th.gathers { g with force := (g.force ++ own).eraseDups })
        (.overlap g.i (reads.flatMap (fun p => s.overlapping t th p.2 p.1 g.width)))
      else
        let looks := (List.range reads.length).zip reads |>.map (fun p => (p.2.1, s.gatherLook th (g.force.contains p.1) p.2.2 p.2.1 g.width))
        match looks.findSome? (fun p => match p.2 with | .poisoned r => some (p.1, r) | _ => none) with
        | some (va, r) => s.trapHere t th r.cause r.detail (some va)
        | none =>
          match looks.findSome? (fun p => match p.2 with | .fill off => some (p.1, off) | _ => none) with
          | some (va, off) => s.awaitFill t (th.gathers g) g.i off va
          | none =>
            let go := fun (s : State) (th : Thread) =>
              let (s, th, g) := ({ s with nextRid := s.nextRid + g.addrs.length } : State).gatherIssue t th 0 reads { g with base := s.nextRid }
              if g.got.length < g.addrs.length then s.await t th (.gather g)
              else match g.next with
                | .phase g => s.gatherRun t fuel th g
                | .illegal => s.illegalState t th
                | .result v => if g.atOnce && !th.replay then s.result t th g.d v else s.gathered t th g
            if looks.any (fun p => p.2 matches .away) then s.gate t (th.gathers g) g.i go else go s th

/-- GRED: the base and the list address are aligned; then the list is read, then the elements. One that has waited goes on from where it
stood. -/
def gred (i : Instr) (op : GredOp) (w : Width) (d a b : Reg) (s : State) : Result :=
  onThread s 4 [d, a, b] (fun t th =>
    let av := s.readReg th a
    let bv := s.readReg th b
    if av.toNat % widthBytes w ≠ 0 then s.misaligned t th av
    else if bv.toNat % 8 ≠ 0 then s.misaligned t th bv
    else s.gatherRun t 3 th ((if th.replay then th.gather else none).getD
      { i := i, op := op, w := w, d := d, a := av, b := bv, phase := .header, n := 0, addrs := [bv], width := 8, pas := [], got := []
        atOnce := true, force := [], base := 0 }))

def execGredAdd (w : Width) (d a b : Reg) (s : State) : Result := gred (.gredAdd w d a b) .add w d a b s
def execGredMin (w : Width) (d a b : Reg) (s : State) : Result := gred (.gredMin w d a b) .min w d a b s
def execGredMax (w : Width) (d a b : Reg) (s : State) : Result := gred (.gredMax w d a b) .max w d a b s
def execGredMinu (w : Width) (d a b : Reg) (s : State) : Result := gred (.gredMinu w d a b) .minu w d a b s
def execGredMaxu (w : Width) (d a b : Reg) (s : State) : Result := gred (.gredMaxu w d a b) .maxu w d a b s
def execGredFadd (d a b : Reg) (s : State) : Result := gred (.gredFadd d a b) .fadd .w d a b s

/-- A value of time `wts` arrives for the read with request number `rid` and raises the thread's clock (R151); the last one of a phase carries
the gather on. -/
def State.gatherArrive (s : State) (t : Nat) (th : Thread) (g : Gather) (rid : Nat) (v wts : Word) : State :=
  let th := th.raise wts
  let g := { g with got := KMap.set g.got (rid - g.base) v }
  if g.got.length < g.addrs.length then s.await t th (.gather g)
  else match g.next with
    | .phase g => s.gatherRun t 3 { th with replay := true } g
    | .illegal => s.illegalState t th
    | .result _ => s.gathered t th g

/-- GATHER_REDUCTION_COMPLETE: the result lands ⌈n / 8⌉ cycles after the last element arrived (R141). -/
def execGatherReductionComplete (s : State) : Result :=
  onEvent s (fun s e => match e with
    | .gatherReductionComplete t => some (match s.thread? t with
      | some th => match th.wait with
        | .gather g => match g.next with
          | .result v =>
            let (s, th) := s.writeRegLate th g.d v
            s.retire t th
          | _ => s
        | _ => s
      | none => s)
    | _ => none)

end Sys2Proof.Machine
end

