-- ==== Sys2Proof/Machine/StashCtl.lean ====
section
/-!
DEFINITION. Stash control (R130 to R135): SMAP, SUNMAP, SWB, SLOCK and SUNLOCK.
-/

namespace Sys2Proof.Machine

open Sys2Proof

/-- The checks of R122 to step 3, for an operand of the given alignment; the step that fails. -/
def State.earlyCheck (s : State) (th : Thread) (va : Word) (n align : Nat) (kind : Space → Bool) : Option (Nat × Nat) :=
  if va.toNat % align ≠ 0 then some (causeMisaligned, 0)
  else if !s.spaceOk th.guest va n then some (causeProtection, 2)
  else if !kind (s.spaceOf va) then some (causeProtection, 3)
  else none

/-- The guard of the own stash on every bank that a range touches (R108). -/
def State.ownGuard (s : State) (th : Thread) (off n : Nat) : Bool :=
  (List.range ((off + n - 1) / 4096 + 1 - off / 4096)).all (fun j =>
    s.bankOk (tileOf th.home) ((off / 4096 + j) * 4096) th.guest && th.stashm.getLsbD (off / 4096 + j))

/-- A word of the block has a request in the park table. -/
def Tile.blockBusy (x : Tile) (block : Nat) : Bool := x.park.any (fun p => p.off / 2048 == block)

/-- An operation that started write-backs and drop messages takes its tag, acknowledged at once when it started none (R126). -/
def State.tagWriteBacks (s : State) (t : Nat) (th : Thread) (va : Word) (len left : Nat) : State × Thread × Nat :=
  let (s, th, op) := s.takeTag t th va none none len left 0
  ({ s with tagged := s.tagged.map (fun x => if x.op = op then { x with wb := true } else x) }, th, op)

/-- The lines of block b are written back or dropped under a tag, and its entry becomes `e` (R130, R131). -/
def State.remap (s : State) (t : Nat) (th : Thread) (va : Word) (block : Nat) (e : Option MapEntry) : State × Thread :=
  let tile := tileOf th.home
  let left := (s.linesIn tile (block * 16) (block * 16 + 16)).length
  let (s, th, op) := s.tagWriteBacks t th va 2048 left
  let s := s.dropRange tile (block * 16) (block * 16 + 16) op
  (s.modTile tile (fun x => { x with map := match e with
    | some e => KMap.set x.map block e
    | none => KMap.erase x.map block }), th)

/-- The page through which an access of the thread has just been translated may be written (R117). -/
def State.pageWrites (s : State) (th : Thread) (va : Nat) : Bool :=
  (s.tlbFind (KMap.getD s.utlb (coreOf th.home) []) (slotIn th.home) th.guest va).any (fun e => e.w)

/-- SMAP (R130, R134): the checks of R122 in their order, the guard of the block's bank before the targets. -/
def execSmap (d a b : Reg) (s : State) : Result :=
  onThread s 4 [d, a, b] (fun t th =>
    let av := s.readReg th a
    let bv := s.readReg th b
    let tile := tileOf th.home
    let block := stashOff av / 2048
    if av.toNat % 2048 ≠ 0 then s.misaligned t th av
    else if bv.toNat % 2048 ≠ 0 then s.misaligned t th bv
    else if !s.spaceOk th.guest av 2048 then s.protection t th 2 av
    else if !s.spaceOk th.guest bv 2048 then s.protection t th 2 bv
    else if !kindOwn (s.spaceOf av) then s.protection t th 3 av
    else
        s.access t th (.smap d a b) bv { n := 2048, align := 1, kind := kindGlobal, write := false } (fun s th x =>
          match x with
          | .global va pa =>
            if !s.pageWrites th (low56 bv) then s.protection t th 5 bv
            else if !s.ownGuard th (stashOff av) 1 then s.protection t th 5 av
            else if s.inWindow th va 2048 then s.protection t th 6 bv
            else if (List.range 16).any (fun j => (s.line (lineOf pa + j)).sum.isSome) then s.protection t th 6 bv
            else if (s.tile tile).blockBusy block then s.result t th d 3
            else if (s.tile tile).map.any (fun p => p.1 != block && p.2.va == va && s.bankGuest tile (p.1 * 2048) == th.guest) then
              s.result t th d 4
            else
              let (s, th) := s.remap t th av block (some { va := va, pa := pa })
              s.result t th d 0
          | _ => s.protection t th 3 bv))

/-- SUNMAP (R131). -/
def execSunmap (a : Reg) (s : State) : Result :=
  onThread s 4 [a] (fun t th =>
    let av := s.readReg th a
    let block := stashOff av / 2048
    match s.earlyCheck th av 2048 2048 kindOwn with
    | some (c, k) => s.trapHere t th c k (some av)
    | none =>
      if !s.ownGuard th (stashOff av) 1 then s.protection t th 5 av
      else if (s.tile (tileOf th.home)).blockBusy block then s.illegalState t th
      else
        let (s, th) := s.remap t th av block none
        s.retire t th)

/-- SWB (R132): the range lies inside the stash; a count of 0 writes back nothing. -/
def execSwb (a b : Reg) (s : State) : Result :=
  onThread s 4 [a, b] (fun t th =>
    let av := s.readReg th a
    let n := (s.readReg th b).toNat
    let tile := tileOf th.home
    let off := stashOff av
    match s.earlyCheck th av n 1 kindOwn with
    | some (c, k) => s.trapHere t th c k (some av)
    | none =>
      if n ≠ 0 && !s.ownGuard th off n then s.protection t th 5 av
      else
        let hi := if n = 0 then off / 128 else (off + n - 1) / 128 + 1
        let left := ((s.linesIn tile (off / 128) hi).filter (·.2.dirty)).length
        let (s, th, op) := s.tagWriteBacks t th av n left
        (s.writeBackRange tile (off / 128) hi op).retire t th)

/-! ## L2 residency locks (R133 to R135) -/

/-- The lines that bytes a to a + b − 1 touch: the first and how many. -/
def lineSpan (a b : Nat) : Nat × Nat := (a / 128, if b = 0 then 0 else (a + b - 1) / 128 + 1 - a / 128)

/-- The checks of R122 to step 3 for the range of an SLOCK or SUNLOCK: the step that fails. -/
def State.lockCheck (s : State) (th : Thread) (a b : Word) : Option Nat :=
  if !s.spaceOk th.guest a b.toNat || 2 ^ 56 < low56 a + b.toNat then some 2
  else if !kindGlobal (s.spaceOf a) then some 3
  else none

/-- A translation of SLOCK's range as it looks it up: the tile TLB, or a walk (R133). -/
def State.lockPage (s : State) (tile : Nat) (g : BitVec 8) (va : Nat) : Walk := s.tilePage tile g va

/-- The pages of a guest that a look-up of any address of it can find: those of the tile TLB, and those of the inverted tables. -/
def State.pagesOf (s : State) (tile : Nat) (g : BitVec 8) : List TlbEntry :=
  ((s.tile tile).tlb.filter (fun e => e.guest == g && e.gen == (s.guest g).gen) ++ s.frames.filterMap (fun p =>
    if p.2.v && p.2.guest == g && p.2.gen == (s.guest g).gen then (s.lockPage tile g (p.2.vpn * 2 ^ 16)).found else none)).eraseDups

/-- The pages that lines `first` to `first + n - 1` of a guest's space lie in, as far as they are mapped: each with the lines in it. -/
def State.lockPages (s : State) (tile : Nat) (g : BitVec 8) (first n : Nat) : List (TlbEntry × List Nat) :=
  ((s.pagesOf tile g).map (fun e =>
    let lo := max first (e.va / 128)
    let hi := min (first + n) ((e.va + 2 ^ e.bits) / 128)
    (e, ((List.range (hi - lo)).map (lo + ·)).filter (fun l => (s.lockPage tile g (l * 128)).found == some e)))).filter (fun p => !p.2.isEmpty)

/-- The ways of a line's set that firmware has not retired (R300). -/
def State.setWays (s : State) (die line : Nat) : Nat :=
  ((List.range Config.l2Ways).filter (fun w => !s.retired.contains (.l2way (s.siteOf (s.sliceTile die (l2Set line).1)) (l2Set line).2 w))).length

/-- The status of an SLOCK of n lines, those mapped being known by their physical numbers: the lowest that applies (R134). -/
def State.lockStatus (s : State) (th : Thread) (die b n : Nat) (known : List Nat) : Nat :=
  let new := (known.filter (fun l => !s.locks.any (fun k => k.die == die && k.line == l))).eraseDups
  let mine := (known.filter (fun l => !s.locks.any (fun k => k.die == die && k.line == l && k.guest == th.guest))).eraseDups
  let tooMany := fun (l : Nat) =>
    let slice := (l2Set l).1
    ((s.tile (s.sliceTile die slice)).guest th.guest).gqos.lockq <
      (s.locks.filter (fun k => k.guest == th.guest && k.die == die && (l2Set k.line).1 == slice)).length +
        (mine.filter (fun k => (l2Set k).1 == slice)).length
  let inSet := fun x => ((s.locks.filter (fun k => k.die == die && l2Set k.line == x)).map (·.line)).eraseDups.length +
    (new.filter (fun l => l2Set l == x)).length
  if new.any (fun l => s.setWays die l ≤ inSet (l2Set l)) then 1
  else if mine.any tooMany then 2
  else if 65536 < b then 5
  else if known.length < n then 6
  else 0

/-- A line is locked in a way of its set: that of its copy, or of another guest's lock of it, or one that no lock keeps, of which there is
one where the status is 0 (R133, R134). -/
def State.lockIn (s : State) (k : Lock) : State :=
  let held := (s.locks.find? (fun j => j.die == k.die && j.line == k.line)).map (·.way)
  let copied := ((s.l2Mates k.die k.line).find? (fun y => y.copy.line == k.line)).map (·.way)
  let ways := (s.openWays (s.sliceTile k.die (l2Set k.line).1) (l2Set k.line).2).filter (fun w =>
    !(s.l2Locks k.die k.line).any (fun j => j.way == w))
  let w := ((held.orElse (fun _ => copied)).orElse (fun _ => s.pick ways)).getD 0
  { s with
    locks := s.locks ++ [{ k with way := w }], fresh := s.fresh + 1
    l2 := s.l2.filter (fun y => !(y.die == k.die && l2Set y.copy.line == l2Set k.line && y.way == w && y.copy.line != k.line)) }

/-- The lines of some pages, each with its virtual line number and its physical one. -/
def linesOfPages (pages : List (TlbEntry × List Nat)) : List (Nat × Nat) :=
  pages.flatMap (fun p => p.2.map (fun v => (v, lineOf (p.1.phys (v * 128)))))

/-- SLOCK (R133): all or nothing. -/
def execSlock (d a b : Reg) (s : State) : Result :=
  onThread s 4 [d, a, b] (fun t th =>
    let av := s.readReg th a
    let bv := s.readReg th b
    let tile := tileOf th.home
    let die := s.dieOfTile tile
    match s.lockCheck th av bv with
    | some k => s.protection t th k av
    | none =>
        let span := lineSpan (low56 av) bv.toNat
        let pages := s.lockPages tile th.guest span.1 span.2
        let mapped := (pages.map (fun p => p.2.length)).sum
        if pages.any (fun p => (s.lockPage tile th.guest p.1.va).isFrozen) then s.await t th (.frozen (some (.slock d a b)))
        else if !th.replay && (mapped < span.2 || pages.any (fun p => (s.tlbFind (s.tile tile).tlb 0 th.guest p.1.va).isNone)) then
          (s.post (placeOfSlot th.home) noChan (s.clk + Config.latWalk) t (.event (.translationInstalled t))).await t th
            (.slockWalk (.slock d a b))
        else
          let ls := linesOfPages pages
          let st := s.lockStatus th die bv.toNat span.2 (ls.map (·.2))
          let mine := ls.map (fun p => ({ die := die, way := 0, line := p.2, va := p.1 * 128, guest := th.guest, launch := th.launch } : Lock))
          let new := mine.filter (fun l => !s.locks.any (fun k => k.die == die && k.line == l.line && k.guest == th.guest))
          (if st = 0 then new.foldl (fun (s : State) k => s.lockIn k) s else s).result t th d (BitVec.ofNat 64 st))

/-- SUNLOCK (R133). -/
def execSunlock (a b : Reg) (s : State) : Result :=
  onThread s 4 [a, b] (fun t th =>
    let av := s.readReg th a
    let bv := s.readReg th b
    match s.lockCheck th av bv with
    | some k => s.protection t th k av
    | none =>
      ({ s with locks := s.locks.filter (fun k =>
        !(k.guest == th.guest && overlaps k.va 128 (low56 av) bv.toNat && bv != 0)) }).retire t th)

end Sys2Proof.Machine
end

