-- ==== Sys2Proof/Machine/Barrier.lean ====
section
/-!
DEFINITION. Barrier objects (R234, R235) and their instructions (R255 to R259).
-/

namespace Sys2Proof.Machine

open Sys2Proof

/-! ## The object (R234) -/

structure BarObj where
  due      : Nat
  observed : Nat
  arrivals : Nat
  arrived  : Nat
  phase    : Bool
  waiters  : Nat
  expected : Nat
  deriving DecidableEq, Repr

/-- The object in 256 bits; none where a reserved field is not zero or WAITERS exceeds 16 (R255). -/
def BarObj.ofNat (n : Nat) : Option BarObj :=
  if bits n 133 59 ≠ 0 ∨ bits n 117 11 ≠ 0 ∨ bits n 53 10 ≠ 0 ∨ 16 < bits n 48 5 then none
  else some { due := bits n 192 64, observed := bits n 128 5, arrivals := bits n 112 5, arrived := bits n 64 48
              phase := bits n 63 1 == 1, waiters := bits n 48 5, expected := bits n 0 48 }

def BarObj.toNat (o : BarObj) : Nat :=
  o.expected % 2 ^ 48 + o.waiters % 32 * 2 ^ 48 + (if o.phase then 2 ^ 63 else 0) + o.arrived % 2 ^ 48 * 2 ^ 64 +
    o.arrivals % 32 * 2 ^ 112 + o.observed % 32 * 2 ^ 128 + o.due % 2 ^ 64 * 2 ^ 192

def State.barObj (s : State) (tile off : Nat) : Option BarObj := BarObj.ofNat (s.stashRead tile off 32)
def State.setBarObj (s : State) (tile off : Nat) (o : BarObj) : State := s.stashWrite tile off (bytesOf o.toNat 32)

/-- The barrier object at an offset, wherever its line is. -/
def State.barPeek (s : State) (tile off : Nat) (g : BitVec 8) : Option BarObj :=
  match s.resident tile off with
  | some _ => s.barObj tile off
  | none => (s.backingPa tile off g).bind (fun pa => BarObj.ofNat (natOfBytes (s.cohRead pa 32)))

/-- The DUE of an object, with what the engine has promised, or adds to it, and that waits for the object's line to be in the stash (R233,
R236). -/
def State.dueOf (s : State) (tile off : Nat) (g : BitVec 8) : Nat :=
  (s.tile tile).fillWait.foldl (fun due w => match w.req.who, w.req.what with
    | .engine _ _, .atomic _ .add b _ => if w.req.off = off + 24 then due + b.toNat else due
    | .engine _ _, .atomic _ .maxu b _ => if w.req.off = off + 24 then max due b.toNat else due
    | _, _ => due) (((s.barPeek tile off g).map (fun o => o.due)).getD 0)

def State.stampsAt (s : State) (tile off : Nat) : Stamps := KMap.getD (s.tile tile).stamps off { stamp := 0, completed := 0 }
def State.setStamps (s : State) (tile off : Nat) (x : Stamps) : State :=
  s.modTile tile (fun y => { y with stamps := KMap.set y.stamps off x })

/-- A credit or an arrival raises the object's stamp (R163). -/
def State.raiseBar (s : State) (tile off : Nat) (c : Word) : State :=
  let x := s.stampsAt tile off
  s.setStamps tile off { x with stamp := maxW x.stamp c }

/-! ## Records (R256) -/

def Thread.brec (th : Thread) (a : Word) : Option BarrierRec := th.brecs.find? (fun r => r.addr == a)
def Thread.setBrec (th : Thread) (r : BarrierRec) : Thread :=
  { th with brecs := (r :: th.brecs.filter (fun x => x.addr != r.addr)).take Config.barrierRecords }

/-- A record of the open phase keeps ARR and REF where it held this phase already. -/
def Thread.touchBrec (th : Thread) (a : Word) (p : Bool) : Thread :=
  match th.brec a with
  | some r => th.setBrec (if r.p = p then r else { addr := a, p := p, arr := false, ref := false })
  | none => th.setBrec { addr := a, p := p, arr := false, ref := false }

/-! ## Completion of a phase (R235) -/

/-- The waiter of a flipped object completes its BWAIT (R258). -/
def State.finishWait (s : State) (t : Nat) (th : Thread) (tile off : Nat) (a : Word) (r : BarrierRec) : State :=
  match s.barObj tile off with
  | some o =>
    let th := (th.raise (s.stampsAt tile off).completed).setBrec { r with p := o.phase, arr := false }
    let s := if r.arr then s.setBarObj tile off { o with observed := min (o.observed + 1) o.waiters } else s
    s.retire t th
  | none => s.await t th (.barrier a false)

/-- The threads that wait at an object. -/
def State.barWaiters (s : State) (tile off : Nat) : List (Nat × Thread) :=
  s.threads.filter (fun p => tileOf p.2.home == tile &&
    (match p.2.wait with | .barrier a _ => stashOff a == off | _ => false))

/-- The test after each expectation, credit or arrival: a phase whose counts are met completes and releases its waiters. -/
def State.testBar (s : State) (tile off : Nat) : State :=
  match s.barObj tile off with
  | some o =>
    if (o.waiters ≠ 0 ∨ o.expected ≠ 0) ∧ o.arrivals = o.waiters ∧ o.expected ≤ o.arrived then
      let s := s.setBarObj tile off
        { due := 0, observed := 0, arrivals := 0, arrived := 0, phase := !o.phase, waiters := o.waiters, expected := 0 }
      let s := s.setStamps tile off { stamp := 0, completed := (s.stampsAt tile off).stamp }
      (s.barWaiters tile off).foldl (fun s p =>
        match s.thread? p.1 with
        | some th => match th.wait with
          | .barrier a _ => match th.brec a with
            | some r => s.finishWait p.1 th tile off a r
            | none => s
          | _ => s
        | none => s) s
    else s
  | none => s

/-- A credit of bytes with its clock; a copy engine's is never refused (R163, R235). -/
def State.credit (s : State) (tile off bytes : Nat) (c : Word) : State :=
  match s.barObj tile off with
  | some o =>
    ((s.setBarObj tile off { o with arrived := min (o.arrived + bytes) (2 ^ 48 - 1) }).raiseBar tile off c).testBar tile off
  | none => s

/-! ## The instructions -/

/-- The checks of R255 in their order; `f` acts on the object of a resident line. -/
def barrierOp (i : Instr) (regs : List Reg) (a : Reg) (f : State → Nat → Thread → Nat → Nat → Word → BarObj → State) (s : State) : Result :=
  onThread s 4 (a :: regs) (fun t th =>
    let va := s.readReg th a
    let tile := tileOf th.home
    match s.earlyCheck th va 32 32 kindOwn with
    | some (c, k) => s.trapHere t th c k (some va)
    | none =>
      let off := stashOff va
      if !s.ownGuard th off 1 then s.protection t th 5 va
      else match s.resident tile off with
        | none => s.awaitFill t th i off va
        | some l =>
          if l.poison then s.trapHere t th causeUncorrectable 2 (some va)
          else match s.barObj tile off with
            | none => s.illegalState t th
            | some o => f s t th tile off va o)

/-- BINIT (R257). -/
def execBinit (a b : Reg) (s : State) : Result :=
  barrierOp (.binit a b) [b] a (fun s t th tile off va o =>
    let n := (s.readReg th b).toNat
    if !(s.barWaiters tile off).isEmpty then s.illegalState t th
    else if 16 < n then s.illegalState t th
    else
      let s := s.setBarObj tile off { o with waiters := n, observed := n, expected := 0, arrived := 0, arrivals := 0, due := 0 }
      (s.setStamps tile off { stamp := 0, completed := 0 }).retire t
        (th.setBrec { addr := va, p := o.phase, arr := false, ref := false })) s

/-- BEXPECT (R257). -/
def execBexpect (a b : Reg) (s : State) : Result :=
  barrierOp (.bexpect a b) [b] a (fun s t th tile off va o =>
    let n := (s.readReg th b).toNat
    if 2 ^ 48 ≤ o.expected + n then s.illegalState t th
    else
      ((s.retire t (th.touchBrec va o.phase)).setBarObj tile off { o with expected := o.expected + n }).testBar tile off) s

/-- BARRIVE (R257): with x0, a thread's arrival, which may be refused; otherwise a credit of bytes. -/
def execBarrive (a b : Reg) (s : State) : Result :=
  barrierOp (.barrive a b) [b] a (fun s t th tile off va o =>
    if b = .x 0 then
      if o.waiters = 0 then s.illegalState t th
      else if (th.brec va).any (fun r => r.p == o.phase && r.arr) then s.illegalState t th
      else if o.observed < o.waiters ∨ o.arrivals = o.waiters then
        s.retire t (th.setBrec { addr := va, p := o.phase, arr := false, ref := true })
      else
        (((s.retire t (th.setBrec { addr := va, p := o.phase, arr := true, ref := false })).setBarObj tile off
          { o with arrivals := o.arrivals + 1 }).raiseBar tile off th.lts).testBar tile off
    else
      (s.retire t (th.touchBrec va o.phase)).credit tile off (s.readReg th b).toNat th.lts) s

/-- BWAIT and BWAIT.DL (R258): the deadline is checked at issue and at every cycle of the wait. In the cycle in which CLK first passes DUE a
flip may still come, and wins: the wait's own check decides at the end of it. -/
def execBwait (dl : Bool) (a : Reg) (s : State) : Result :=
  barrierOp (.bwait dl a) [] a (fun s t th tile off va o =>
    match th.brec va with
    | none => s.illegalState t th
    | some r =>
      if o.phase != r.p then s.finishWait t th tile off va r
      else if dl && o.due != 0 && o.due + 1 < s.clk then s.trapHere t th causeLate 0 (some va)
      else s.await t th (.barrier va dl)) s

/-- BTEST (R259). -/
def execBtest (d a : Reg) (s : State) : Result :=
  barrierOp (.btest d a) [d] a (fun s t th tile off va o =>
    let late := if o.due ≠ 0 ∧ o.due < s.clk then 4 else 0
    let phase := if o.phase then 2 else 0
    match th.brec va with
    | none => s.result t th d (BitVec.ofNat 64 (16 + late + phase))
    | some r =>
      let done := o.phase != r.p
      let th := if done then th.raise (s.stampsAt tile off).completed else th
      s.result t th d (BitVec.ofNat 64 ((if r.ref then 8 else 0) + late + phase + (if done then 1 else 0)))) s

/-- DEADLINE_LATE: CLK has passed DUE before the phase flipped; the thread takes LATE at its BWAIT.DL, object and record unchanged. -/
def execDeadlineLate (s : State) : Result :=
  onEvent s (fun s e => match e with
    | .deadlineLate t => some (match s.thread? t with
      | some th => match th.wait with
        | .barrier a true =>
          let due := s.dueOf (tileOf th.home) (stashOff a) th.guest
          if due ≠ 0 ∧ due < s.clk then s.trapHere t th causeLate 0 (some a) else s
        | _ => s
      | none => s)
    | _ => none)

end Sys2Proof.Machine
end

