-- ==== Sys2Proof/Machine/Integer.lean ====
section
/-!
DEFINITION. Integer arithmetic, logic, shifts, bit fields, comparison, selection, multiplication and division (R60 to R70), and
the 16-bit forms of them (R95). Each instruction computes in its own registers and completes in its issue cycle (R58).
-/

namespace Sys2Proof.Machine

open Sys2Proof

/-! ## Results -/

/-- A signed sum or difference, saturated (R60). -/
def sat64 (i : Int) : Word := BitVec.ofInt 64 (max (-(2 ^ 63 : Int)) (min (2 ^ 63 - 1) i))
def addsV (a b : Word) : Word := sat64 (a.toInt + b.toInt)
def subsV (a b : Word) : Word := sat64 (a.toInt - b.toInt)
def minV (a b : Word) : Word := if a.slt b then a else b
def maxV (a b : Word) : Word := if a.slt b then b else a
def minuV (a b : Word) : Word := if a.ult b then a else b
def maxuV (a b : Word) : Word := if a.ult b then b else a

/-- The shift count b[5:0], and b[4:0] for the .w forms (R62). -/
def cnt6 (b : Word) : Nat := b.toNat % 64
def cnt5 (b : Word) : Nat := b.toNat % 32
def sllV (a : Word) (n : Nat) : Word := a <<< n
def srlV (a : Word) (n : Nat) : Word := a >>> n
def sraV (a : Word) (n : Nat) : Word := a.sshiftRight n
def rolV (a : Word) (n : Nat) : Word := a.rotateLeft n
def rorV (a : Word) (n : Nat) : Word := a.rotateRight n
def sllWV (a : Word) (n : Nat) : Word := ((a.setWidth 32) <<< n).signExtend 64
def srlWV (a : Word) (n : Nat) : Word := ((a.setWidth 32) >>> n).signExtend 64
def sraWV (a : Word) (n : Nat) : Word := ((a.setWidth 32).sshiftRight n).signExtend 64

/-- Position and length of a bit field (R63). -/
def fieldPos (b : Word) : Nat := b.toNat % 64
def fieldLen (b : Word) : Nat := b.toNat / 64 % 64
def bextV (a b : Word) : Word := BitVec.ofNat 64 (bits a.toNat (fieldPos b) (fieldLen b))
def bextsV (a b : Word) : Word :=
  if fieldLen b = 0 then 0 else sext (fieldLen b) (bits a.toNat (fieldPos b) (fieldLen b))
def fieldMask (b : Word) : Word := BitVec.ofNat 64 (2 ^ fieldLen b - 1) <<< fieldPos b
def binsV (a b d : Word) : Word := (d &&& ~~~fieldMask b) ||| ((a <<< fieldPos b) &&& fieldMask b)

def clzV (a : Word) : Word := BitVec.ofNat 64 (64 - bitLen 64 a.toNat)
def ctzV (a : Word) : Word := BitVec.ofNat 64 (trailingZeros 64 a.toNat)
def popcV (a : Word) : Word := BitVec.ofNat 64 (popCount 64 a.toNat)
def rev8V (a : Word) : Word := BitVec.ofNat 64 (natOfBytes (bytesOf a.toNat 8).reverse)

/-- The high half of a product of integers (R67). -/
def highV (p : Int) : Word := BitVec.ofInt 64 (p / 2 ^ 64)
def mulhV (a b : Word) : Word := highV (a.toInt * b.toInt)
def mulhuV (a b : Word) : Word := highV ((a.toNat : Int) * b.toNat)
def mulhsuV (a b : Word) : Word := highV (a.toInt * b.toNat)

/-- Quotient and remainder, truncated toward zero, with the results of R68 for a zero divisor; overflow wraps to R68's results. -/
def divV (a b : Word) : Word := if b = 0 then BitVec.ofInt 64 (-1) else BitVec.ofInt 64 (a.toInt.tdiv b.toInt)
def remV (a b : Word) : Word := if b = 0 then a else BitVec.ofInt 64 (a.toInt.tmod b.toInt)
def divuV (a b : Word) : Word := if b = 0 then BitVec.ofInt 64 (-1) else BitVec.ofNat 64 (a.toNat / b.toNat)
def remuV (a b : Word) : Word := if b = 0 then a else BitVec.ofNat 64 (a.toNat % b.toNat)
def low32 (a : Word) : BitVec 32 := a.setWidth 32
def divWV (a b : Word) : Word :=
  if low32 b = 0 then BitVec.ofInt 64 (-1) else (BitVec.ofInt 32 ((low32 a).toInt.tdiv (low32 b).toInt)).signExtend 64
def remWV (a b : Word) : Word :=
  if low32 b = 0 then sext32 a else (BitVec.ofInt 32 ((low32 a).toInt.tmod (low32 b).toInt)).signExtend 64

/-- TCTL.TRAPZ makes a zero divisor trap (R69). -/
def divide (d a b : Reg) (zero : Word → Bool) (f : Word → Word → Word) (s : State) : Result :=
  onThread s 4 [d, a, b] (fun t th =>
    if th.trapz && zero (s.readReg th b) then s.trapHere t th causeDivZero 0 none
    else s.result t th d (f (s.readReg th a) (s.readReg th b)))

/-! ## Major 0x00 (R60) -/

def execAdd (d a b : Reg) (s : State) : Result := alu2 4 d a b (fun a b => a + b) s
def execSub (d a b : Reg) (s : State) : Result := alu2 4 d a b (fun a b => a - b) s
def execAnd (d a b : Reg) (s : State) : Result := alu2 4 d a b (fun a b => a &&& b) s
def execOr (d a b : Reg) (s : State) : Result := alu2 4 d a b (fun a b => a ||| b) s
def execXor (d a b : Reg) (s : State) : Result := alu2 4 d a b (fun a b => a ^^^ b) s
def execAndn (d a b : Reg) (s : State) : Result := alu2 4 d a b (fun a b => a &&& ~~~b) s
def execOrn (d a b : Reg) (s : State) : Result := alu2 4 d a b (fun a b => a ||| ~~~b) s
def execXnor (d a b : Reg) (s : State) : Result := alu2 4 d a b (fun a b => ~~~(a ^^^ b)) s
def execAddW (d a b : Reg) (s : State) : Result := alu2 4 d a b (fun a b => sext32 (a + b)) s
def execSubW (d a b : Reg) (s : State) : Result := alu2 4 d a b (fun a b => sext32 (a - b)) s
def execAdds (d a b : Reg) (s : State) : Result := alu2 4 d a b (fun a b => addsV a b) s
def execSubs (d a b : Reg) (s : State) : Result := alu2 4 d a b (fun a b => subsV a b) s
def execMin (d a b : Reg) (s : State) : Result := alu2 4 d a b (fun a b => minV a b) s
def execMax (d a b : Reg) (s : State) : Result := alu2 4 d a b (fun a b => maxV a b) s
def execMinu (d a b : Reg) (s : State) : Result := alu2 4 d a b (fun a b => minuV a b) s
def execMaxu (d a b : Reg) (s : State) : Result := alu2 4 d a b (fun a b => maxuV a b) s

/-! ## Major 0x01 (R61) -/

def execAddi (d a : Reg) (i : BitVec 10) (s : State) : Result := alu1 4 d a (fun a => a + immS i) s
def execAndi (d a : Reg) (i : BitVec 10) (s : State) : Result := alu1 4 d a (fun a => a &&& immS i) s
def execOri (d a : Reg) (i : BitVec 10) (s : State) : Result := alu1 4 d a (fun a => a ||| immS i) s
/-- The ranking program's buffer switch. With 5 to 8 nodes and three rounds R17 calls buffer 0 final, while its listing's third round
writes buffer 1; the instruction's own rule decides (DEDUCED, log entry 62). -/
def execXori (d a : Reg) (i : BitVec 10) (s : State) : Result := alu1 4 d a (fun a => a ^^^ immS i) s
def execAddiW (d a : Reg) (i : BitVec 10) (s : State) : Result := alu1 4 d a (fun a => sext32 (a + immS i)) s
def execSlti (d a : Reg) (i : BitVec 10) (s : State) : Result := alu1 4 d a (fun a => ofBool (a.slt (immS i))) s
def execSltiu (d a : Reg) (i : BitVec 10) (s : State) : Result := alu1 4 d a (fun a => ofBool (a.ult (immS i))) s

/-! ## Major 0x02 (R62 to R64) -/

def execSll (d a b : Reg) (s : State) : Result := alu2 4 d a b (fun a b => sllV a (cnt6 b)) s
def execSrl (d a b : Reg) (s : State) : Result := alu2 4 d a b (fun a b => srlV a (cnt6 b)) s
def execSra (d a b : Reg) (s : State) : Result := alu2 4 d a b (fun a b => sraV a (cnt6 b)) s
def execRol (d a b : Reg) (s : State) : Result := alu2 4 d a b (fun a b => rolV a (cnt6 b)) s
def execRor (d a b : Reg) (s : State) : Result := alu2 4 d a b (fun a b => rorV a (cnt6 b)) s
def execSllW (d a b : Reg) (s : State) : Result := alu2 4 d a b (fun a b => sllWV a (cnt5 b)) s
def execSrlW (d a b : Reg) (s : State) : Result := alu2 4 d a b (fun a b => srlWV a (cnt5 b)) s
def execSraW (d a b : Reg) (s : State) : Result := alu2 4 d a b (fun a b => sraWV a (cnt5 b)) s
def execSlli (d a : Reg) (n : BitVec 6) (s : State) : Result := alu1 4 d a (fun a => sllV a n.toNat) s
def execSrli (d a : Reg) (n : BitVec 6) (s : State) : Result := alu1 4 d a (fun a => srlV a n.toNat) s
def execSrai (d a : Reg) (n : BitVec 6) (s : State) : Result := alu1 4 d a (fun a => sraV a n.toNat) s
def execRori (d a : Reg) (n : BitVec 6) (s : State) : Result := alu1 4 d a (fun a => rorV a n.toNat) s
def execBext (d a b : Reg) (s : State) : Result := alu2 4 d a b (fun a b => bextV a b) s
def execBexts (d a b : Reg) (s : State) : Result := alu2 4 d a b (fun a b => bextsV a b) s
def execBins (d a b : Reg) (s : State) : Result := alu3 4 d a b (fun a b d => binsV a b d) s
def execClz (d a : Reg) (s : State) : Result := alu1 4 d a clzV s
def execCtz (d a : Reg) (s : State) : Result := alu1 4 d a ctzV s
def execPopc (d a : Reg) (s : State) : Result := alu1 4 d a popcV s
def execRev8 (d a : Reg) (s : State) : Result := alu1 4 d a rev8V s

/-! ## Major 0x03 (R65, R66) -/

def execSlt (d a b : Reg) (s : State) : Result := alu2 4 d a b (fun a b => ofBool (a.slt b)) s
def execSltu (d a b : Reg) (s : State) : Result := alu2 4 d a b (fun a b => ofBool (a.ult b)) s
def execSeq (d a b : Reg) (s : State) : Result := alu2 4 d a b (fun a b => ofBool (a == b)) s
def execSne (d a b : Reg) (s : State) : Result := alu2 4 d a b (fun a b => ofBool (a != b)) s
def execSle (d a b : Reg) (s : State) : Result := alu2 4 d a b (fun a b => ofBool (a.sle b)) s
def execSleu (d a b : Reg) (s : State) : Result := alu2 4 d a b (fun a b => ofBool (a.ule b)) s
/-- SEL: an unresolved guard takes an illegal-state trap (R66). -/
def execSel (d a b : Reg) (q : BitVec 3) (s : State) : Result :=
  onThread s 4 [d, a, b] (fun t th =>
    match (th.q[q.toNat]).asData with
    | some c => s.result t th d (if c then s.readReg th a else s.readReg th b)
    | none => s.illegalState t th)

/-! ## Major 0x04 (R67 to R69) -/

def execMul (d a b : Reg) (s : State) : Result := alu2 4 d a b (fun a b => a * b) s
def execMulh (d a b : Reg) (s : State) : Result := alu2 4 d a b (fun a b => mulhV a b) s
def execMulhu (d a b : Reg) (s : State) : Result := alu2 4 d a b (fun a b => mulhuV a b) s
def execMulhsu (d a b : Reg) (s : State) : Result := alu2 4 d a b (fun a b => mulhsuV a b) s
def execMulW (d a b : Reg) (s : State) : Result := alu2 4 d a b (fun a b => sext32 (a * b)) s
def execDiv (d a b : Reg) (s : State) : Result := divide d a b (fun b => b == 0) divV s
def execDivu (d a b : Reg) (s : State) : Result := divide d a b (fun b => b == 0) divuV s
def execRem (d a b : Reg) (s : State) : Result := divide d a b (fun b => b == 0) remV s
def execRemu (d a b : Reg) (s : State) : Result := divide d a b (fun b => b == 0) remuV s
def execDivW (d a b : Reg) (s : State) : Result := divide d a b (fun b => low32 b == 0) divWV s
def execRemW (d a b : Reg) (s : State) : Result := divide d a b (fun b => low32 b == 0) remWV s

/-! ## Major 0x05 (R54) -/

def execLui (d : Reg) (i : BitVec 19) (s : State) : Result :=
  onThread s 4 [d] (fun t th => s.result t th d ((i.signExtend 64) <<< 10))
def execAdr (d : Reg) (i : BitVec 19) (s : State) : Result :=
  onThread s 4 [d] (fun t th => s.result t th d (branchTarget th.pc i))

/-! ## Sixteen-bit forms (R95) -/

def execMov16 (d s : BitVec 4) (st : State) : Result := alu2 2 (x16 d) (x16 s) (.x 0) (fun a b => a + b) st
def execAddi16 (d : BitVec 4) (i : BitVec 7) (s : State) : Result := alu1 2 (x16 d) (x16 d) (fun a => a + immS i) s
def execAdd16 (d s : BitVec 4) (st : State) : Result := alu2 2 (x16 d) (x16 d) (x16 s) (fun a b => a + b) st
def execSub16 (d s : BitVec 4) (st : State) : Result := alu2 2 (x16 d) (x16 d) (x16 s) (fun a b => a - b) st
def execAnd16 (d s : BitVec 4) (st : State) : Result := alu2 2 (x16 d) (x16 d) (x16 s) (fun a b => a &&& b) st
def execOr16 (d s : BitVec 4) (st : State) : Result := alu2 2 (x16 d) (x16 d) (x16 s) (fun a b => a ||| b) st
def execXor16 (d s : BitVec 4) (st : State) : Result := alu2 2 (x16 d) (x16 d) (x16 s) (fun a b => a ^^^ b) st
def execSlt16 (d s : BitVec 4) (st : State) : Result := alu2 2 (x16 d) (x16 d) (x16 s) (fun a b => ofBool (a.slt b)) st
def execSltu16 (d s : BitVec 4) (st : State) : Result := alu2 2 (x16 d) (x16 d) (x16 s) (fun a b => ofBool (a.ult b)) st
/-- A count of 0 means 32 (R51). -/
def cnt16 (n : BitVec 5) : Nat := if n = 0 then 32 else n.toNat
def execSlli16 (d : BitVec 4) (n : BitVec 5) (s : State) : Result := alu1 2 (x16 d) (x16 d) (fun a => sllV a (cnt16 n)) s
def execSrli16 (d : BitVec 4) (n : BitVec 5) (s : State) : Result := alu1 2 (x16 d) (x16 d) (fun a => srlV a (cnt16 n)) s
def execSrai16 (d : BitVec 4) (n : BitVec 5) (s : State) : Result := alu1 2 (x16 d) (x16 d) (fun a => sraV a (cnt16 n)) s
def execNop16 (s : State) : Result := onThread s 2 [] (fun t th => s.retire t th)

end Sys2Proof.Machine
end

