-- ==== Sys2Proof/Machine/Control.lean ====
section
/-!
DEFINITION. Fetching an instruction's halfwords (R43, R100), branches and jumps (R55, R71, R72, R75), hardware loops (R73), and
their 16-bit forms (R95).
-/

namespace Sys2Proof.Machine

open Sys2Proof

/-! ## Fetch -/

/-- A halfword read for a fetch, or why it cannot be. -/
inductive Fetched where
  | half (h : Nat)
  | trap (cause detail : Nat)
  | miss (cycles : Nat)
  deriving DecidableEq, Repr

/-- Reads the halfword at a program address: the global space only (R100), translated like any access (R118), an executable page (R117),
whatever name it was written by (R107). `replay`: of an instruction that has waited for this translation. -/
def State.fetchHalf (s : State) (k : Nat) (g : BitVec 8) (va : Word) (replay : Bool) : Fetched :=
  if topByte va ≠ 0 then .trap causeProtection 2
  else match (s.translate k g (low56 va) replay).1 with
    | .miss c => .miss c
    | .hit e =>
      let pa := e.phys (low56 va)
      if !e.x then .trap causeProtection 5
      else if s.deadDies.contains (homeDie pa) then .trap causeUncorrectable 5
      else match s.errorAt (lineOf pa) g with
        | some code => .trap causeUncorrectable code
        | none => .half (natOfBytes (s.cohRead pa 2))

/-- A fetch on behalf of instruction i, which needs no more than one halfword: a fault belongs to the instruction. -/
def State.withHalf (s : State) (t : Nat) (th : Thread) (i : Instr) (va : Word) (f : State → Nat → State) : State :=
  match s.fetchHalf th.home th.guest va th.replay with
  | .half h => f (s.translate th.home th.guest (low56 va) th.replay).2 h
  | .trap c d => s.trapHere t th c d (some va)
  | .miss c => s.awaitTlb t th i va c

/-! ## Compare-and-branch (R71) -/

/-- A branch: taken when the condition holds; a taken one disarms loop levels (R75). -/
def branch {n : Nat} (len : Nat) (regs : List Reg) (o : BitVec n) (cond : State → Thread → Bool) (s : State) : Result :=
  onThread s len regs (fun t th =>
    if cond s th then s.setThread t (th.jumpTo (branchTarget th.pc o) true) else s.retire t th)

def cmpBranch (a b : Reg) (o : BitVec 10) (rel : Word → Word → Bool) (s : State) : Result :=
  branch 4 [a, b] o (fun s th => rel (s.readReg th a) (s.readReg th b)) s

def execBeq (a b : Reg) (o : BitVec 10) (s : State) : Result := cmpBranch a b o (fun a b => a == b) s
/-- BNE. It is line 12 of R147's and R148's programs: with both records in at the first look it skips the close, and the door stays 1, where
the two rules say 0; the model follows the instructions (DEDUCED, log entry 83). -/
def execBne (a b : Reg) (o : BitVec 10) (s : State) : Result := cmpBranch a b o (fun a b => a != b) s
def execBlt (a b : Reg) (o : BitVec 10) (s : State) : Result := cmpBranch a b o (fun a b => a.slt b) s
def execBge (a b : Reg) (o : BitVec 10) (s : State) : Result := cmpBranch a b o (fun a b => !a.slt b) s
def execBltu (a b : Reg) (o : BitVec 10) (s : State) : Result := cmpBranch a b o (fun a b => a.ult b) s
def execBgeu (a b : Reg) (o : BitVec 10) (s : State) : Result := cmpBranch a b o (fun a b => !a.ult b) s

/-- BQ and BNQ read a guard; an unresolved one traps (R66). -/
def guardBranch (q : BitVec 3) (o : BitVec 10) (want : Bool) (s : State) : Result :=
  onThread s 4 [] (fun t th =>
    match (th.q[q.toNat]).asData with
    | some c => if c == want then s.setThread t (th.jumpTo (branchTarget th.pc o) true) else s.retire t th
    | none => s.illegalState t th)

def execBq (q : BitVec 3) (o : BitVec 10) (s : State) : Result := guardBranch q o true s
def execBnq (q : BitVec 3) (o : BitVec 10) (s : State) : Result := guardBranch q o false s

/-! ## Jumps and calls (R55, R72) -/

def execJ (o : BitVec 24) (s : State) : Result := branch 4 [] o (fun _ _ => true) s

/-- CALL: x1 receives the address of the next word; calls disarm no level (R75). -/
def execCall (o : BitVec 24) (s : State) : Result :=
  onThread s 4 [] (fun t th =>
    s.setThread t { (th.jumpTo (branchTarget th.pc o) false) with x := th.x.set 1 th.nextWord })

/-- A computed target: bit 0 set raises a misaligned-access trap on the jump (R55). -/
def jumpReg (len : Nat) (a : Reg) (i : BitVec 10) (link : Bool) (s : State) : Result :=
  onThread s len [a] (fun t th =>
    let target := s.readReg th a + immS i
    if target.getLsbD 0 then s.misaligned t th target
    else s.setThread t { (th.jumpTo target false) with x := if link then th.x.set 1 th.nextWord else th.x })

def execJr (a : Reg) (i : BitVec 10) (s : State) : Result := jumpReg 4 a i false s
def execCallr (a : Reg) (i : BitVec 10) (s : State) : Result := jumpReg 4 a i true s

/-! ## LOOP (R73, R76) -/

/-- No loop end check follows a LOOP that is itself the end instruction of an armed level: R73 says where the thread goes on
(DEDUCED, log entry 64). -/
def execLoop (a : Reg) (i : BitVec 10) (s : State) : Result :=
  onThread s 4 [a] (fun t th =>
    let c := s.readReg th a
    let stop := th.pc + BitVec.ofNat 64 (2 * i.toNat)
    if th.active || 2 ≤ th.loops.length then s.illegalState t th
    else if c = 0 then
      s.withHalf t th (.loop a i) stop (fun s h =>
        s.setThread t (th.jumpTo (stop + (if h / 2 ^ 15 % 2 = 0 then 2 else 4)) false))
    else
      let th' := { th.rejoin with pc := th.nextWord, issued := th.issued + 1 }
      s.setThread t { th' with loops := { start := th.nextWord, stop := stop, count := c } :: th.loops })

/-! ## Sixteen-bit forms (R95) -/

def execBeqz16 (d : BitVec 4) (o : BitVec 7) (s : State) : Result := branch 2 [] o (fun s th => s.readReg th (x16 d) == 0) s
def execBnez16 (d : BitVec 4) (o : BitVec 7) (s : State) : Result := branch 2 [] o (fun s th => s.readReg th (x16 d) != 0) s
def execJ16 (o : BitVec 11) (s : State) : Result := branch 2 [] o (fun _ _ => true) s
def execRet16 (s : State) : Result := jumpReg 2 (.x 1) 0 false s

end Sys2Proof.Machine
end

