-- ==== Sys2Proof/Machine/Engine.lean ====
section
/-!
DEFINITION. The engines of a tile (R161, R162, R220 to R226): footprints and the edges they give, entering a queue under a guard
(R197), an engine's own accesses, and how a command fails and is discarded.
-/

namespace Sys2Proof.Machine

open Sys2Proof

/-! ## Footprints (R223, R231) -/

/-- A byte range as a command names it. -/
structure Foot where
  va : Word
  n  : Nat
  deriving DecidableEq, Repr

/-- The bytes that a range is, whichever of its two names for a stash of the party a command uses: stash bytes count through the party. -/
def State.footKey (s : State) (tile : Nat) (g : BitVec 8) (va : Word) : Nat × Nat :=
  match s.spaceOf va with
  | .own => (1, (s.guest g).tileIndex tile * 2 ^ 17 + stashOff va)
  | .party => (1, low56 va)
  | .global => (0, low56 va)
  | _ => (2, va.toNat)

def State.feetMeet (s : State) (tile : Nat) (g : BitVec 8) (x y : Foot) : Bool :=
  let a := s.footKey tile g x.va
  let b := s.footKey tile g y.va
  a.1 == b.1 && x.n != 0 && y.n != 0 && overlaps a.2 x.n b.2 y.n

/-- The number of elements of a copy, and the lowest and one past the highest byte of its strided side. -/
def CopyDesc.count (d : CopyDesc) : Nat := d.dims.foldl (fun n p => n * p.1) 1
def CopyDesc.bytes (d : CopyDesc) : Nat := d.count * d.esize
def CopyDesc.low (d : CopyDesc) (base : Int) : Int := d.dims.foldl (fun v p => v + min 0 (((p.1 : Int) - 1) * p.2)) base
def CopyDesc.high (d : CopyDesc) (base : Int) : Int := d.dims.foldl (fun v p => v + max 0 (((p.1 : Int) - 1) * p.2)) base + d.esize

/-- The bounding range of one side of a copy. -/
def CopyDesc.range (d : CopyDesc) (base : Word) (strided : Bool) : Int × Nat :=
  if d.count = 0 then (base.toNat, 0)
  else if strided then (d.low base.toNat, (d.high base.toNat - d.low base.toNat).toNat)
  else (base.toNat, d.bytes)

def footOf (r : Int × Nat) : Foot := { va := BitVec.ofInt 64 r.1, n := r.2 }

/-- The range of an MSTAGEB's rows. -/
def stageRange (a b : Word) : Int × Nat :=
  let lo := min (a.toNat : Int) (a.toNat + 15 * b.toInt)
  let hi := max (a.toNat : Int) (a.toNat + 15 * b.toInt) + 96
  (lo, (hi - lo).toNat)

def CmdKind.reads : CmdKind → List Foot
  | .stageA _ a b => [{ va := a, n := 32 }, { va := b, n := Config.stashBytes - stashOff b }]
  | .stageB _ a b => [footOf (stageRange a b)]
  | .copy d => if d.pattern.isSome then [] else [footOf (d.range d.src (!d.destSide))]
  | _ => []

def CmdKind.writes : CmdKind → List Foot
  | .mflush _ a => [{ va := a, n := 1024 }]
  | .mflushSum _ a _ => [{ va := a, n := 1024 }]
  | .copy d => [footOf (d.range d.dst d.destSide)]
  | _ => []

/-- Whether a flush's parts have landed: every one that is not acknowledged is held at its home for parts of lower index
(R162, R201; log entry 25). -/
def State.landed (s : State) (tile : Nat) (c : Cmd) : Bool :=
  match c.kind with
  | .mflushSum _ _ _ =>
    (s.tile tile).mrun.any (fun x => x.id == c.id) && c.reqs.all (fun r => r.stuck.isNone) && s.tagged.all (fun x => x.engine != some (tile, c.id) || x.pa.any (fun pa =>
      (s.line (lineOf pa)).sum.any (fun m => m.early.any (fun p => p.2.2.rid == x.op))))
  | _ => false

/-- Whether two commands share bytes in a way that orders them (R162). -/
def State.edge (s : State) (tile : Nat) (a b : Cmd) : Bool :=
  a.guest == b.guest &&
    (let m := fun (xs ys : List Foot) => xs.any (fun x => ys.any (s.feetMeet tile a.guest x))
     m a.kind.writes b.kind.reads || m a.kind.reads b.kind.writes || (m a.kind.writes b.kind.writes && !s.landed tile a))

/-- The commands of a tile, of both engines, queued or running. -/
def Tile.commands (x : Tile) : List Cmd := x.mqueue ++ x.mrun ++ x.cqueue ++ x.crun

/-- Whether a command still waits: for an earlier one that shares bytes, or for an earlier tagged operation of its thread (R161). -/
def State.blocked (s : State) (tile : Nat) (c : Cmd) : Bool :=
  (s.tile tile).commands.any (fun a => a.id < c.id && s.edge tile a c) || s.tagged.any (fun x => c.after.contains x.op)

/-! ## Entering a queue (R197, R222, R232) -/

/-- Commands that a queue holds at most. -/
def queueBound (copy : Bool) : Nat := if copy then Config.copyQueue else Config.matrixQueue
def Tile.run (x : Tile) (copy : Bool) : List Cmd := if copy then x.crun else x.mrun
def Tile.setRun (x : Tile) (copy : Bool) (q : List Cmd) : Tile := if copy then { x with crun := q } else { x with mrun := q }

/-- A command as its thread issues it. -/
def State.newCmd (s : State) (t : Nat) (th : Thread) (fn : Nat) (held : Option (BitVec 3)) (k : CmdKind) : Cmd :=
  let tile := tileOf th.home
  let c : Cmd :=
    { id := s.nextOp, tid := t, guest := th.guest, launch := th.launch, self := s.selfOf th / 16, stashm := th.stashm, clock := th.clock
      fn := fn, held := held, kind := k, after := [], pos := 0, reqs := [], faulted := none, rows := [], got := [] }
  { c with after := ((s.outstanding t).filter (fun x =>
      (k.reads ++ k.writes).any (fun f => s.feetMeet tile th.guest { va := x.va, n := x.len } f))).map (·.op) }

/-- A command issues: under its guard it enters its queue, is discarded, or enters it held; a full queue makes the thread wait. -/
def State.enqueue (s : State) (t : Nat) (th : Thread) (i : Instr) (g : Gd) (copy : Bool) (fn : Nat) (k : CmdKind) : State :=
  let st := match g with | none => Guard.tt | some q => th.q[q.toNat]
  if st = .ff then s.retire t th
  else if queueBound copy ≤ ((s.tile (tileOf th.home)).queue copy).length then s.await t th (.sendQueue i)
  else
    let c := s.newCmd t th fn (if st = .unresolved then g else none) k
    (({ s with nextOp := s.nextOp + 1 }).modTile (tileOf th.home) (fun x => x.setQueue copy (x.queue copy ++ [c]))).retire t th

/-! ## Failing (R226, R227, R297, R298) -/

def engineOf (copy : Bool) : Nat := if copy then 1 else 0

/-- The loss of a command is reported to the thread that issued it, or against its launch (R226). -/
def State.loseIssued (s : State) (x : Issuer) (cmd : Nat) (copy : Bool) (va : Word) (kind code : Nat) : State :=
  let info := BitVec.ofNat 64 (engineOf copy * 4096 + x.fn * 256 + kind)
  let cause := if kind = 4 then causeUncorrectable else causeEngine
  let e : TrapEvent :=
    { cause := cause, detail := if kind = 4 then code else 0
      addr := if kind = 4 then some va else none, tag := 0, ef := some (va, info), fe := none }
  let gone := fun (s : State) => (s.log 0x50 x.launch va info).modLaunch x.launch (fun l => l.blame .faulted e.cause e.detail)
  match s.thread? x.tid with
  | some th =>
    if th.halted then gone s
    else
      let th := match th.wait with
        | .engineFault _ k _ => if k = cmd then { th with wait := .none, waitWid := th.waitWid + 1 } else th
        | _ => th
      (s.setThread x.tid { th with engEvents := th.engEvents ++ [e] }).wakeForEvent x.tid
  | none => gone s

def Cmd.issuer (c : Cmd) : Issuer := { tid := c.tid, launch := c.launch, fn := c.fn }

/-- The frame that owns a physical address: its guest and generation. -/
def State.ownerOf (s : State) (pa : Nat) : BitVec 8 × BitVec 8 :=
  match s.frameOf pa with
  | some p => (p.2.guest, p.2.gen)
  | none => (0, 0)

/-- The lines that an MFLUSH.SUM names, as far as they are mapped. -/
def State.sumLines (s : State) (g : BitVec 8) (a : Word) : List Nat :=
  match s.walk g (low56 a) with
  | .page e => (List.range 8).map (fun j => e.phys (low56 a) + 128 * j)
  | .frozen e => (List.range 8).map (fun j => e.phys (low56 a) + 128 * j)
  | .none => []

/-- A stage that goes leaves its latch FREE. -/
def MatrixState.free (m : MatrixState) : CmdKind → MatrixState
  | .stageA false _ _ => { m with a0 := .init }
  | .stageA true _ _ => { m with a1 := .init }
  | .stageB false _ _ => { m with b0 := .init }
  | .stageB true _ _ => { m with b1 := .init }
  | _ => m

/-- A command is discarded: it leaves its queue or its engine, a running stage its latch; the homes of a flush's merges are told
(R143). -/
def State.discard (s : State) (tile : Nat) (copy : Bool) (c : Cmd) (va : Word) (kind code : Nat) : State :=
  let running := ((s.tile tile).run copy).any (fun x => x.id == c.id)
  let s := s.modTile tile (fun x =>
    let x := (x.setQueue copy ((x.queue copy).filter (fun y => y.id != c.id))).setRun copy ((x.run copy).filter (fun y => y.id != c.id))
    if running then { x with mx := x.mx.free c.kind } else x)
  let s := match c.kind with
    | .mflushSum _ a _ => (s.sumLines c.guest a).foldl (fun (s : State) pa => s.now (.mergeFailure pa)) s
    | _ => s
  let s := s.loseIssued c.issuer c.id copy va kind code
  ((if running then s else s.letIn tile copy 1)).checkLaunch c.launch

/-- A command by its number. -/
def Tile.cmd? (x : Tile) (id : Nat) : Option (Bool × Cmd) :=
  match (x.mqueue ++ x.mrun).find? (fun c => c.id == id) with
  | some c => some (false, c)
  | none => ((x.cqueue ++ x.crun).find? (fun c => c.id == id)).map (fun c => (true, c))

/-- Changes a running command. -/
def State.modCmd (s : State) (tile id : Nat) (f : Cmd → Cmd) : State :=
  let g := fun (c : Cmd) => if c.id = id then f c else c
  s.modTile tile (fun x => { x with mrun := x.mrun.map g, crun := x.crun.map g })

/-- A command has finished: FLOOR rises to its clock (R154), and its launch may be complete (R33). -/
def State.finishCmd (s : State) (tile : Nat) (c : Cmd) : State :=
  let s := s.modTile tile (fun x => { x with
    mrun := x.mrun.filter (fun y => y.id != c.id), crun := x.crun.filter (fun y => y.id != c.id) })
  (s.raiseFloor c.guest c.clock).checkLaunch c.launch

/-! ## An engine's own accesses (R161)

Each is a load or a store of the command's clock to the place that its address names, as far as one line of it goes; an answer completes
it (`State.engGot`, `State.engAcked` in Machine/Reply.lean). -/

/-- The place of an engine on its issuer's core (R145). -/
def Cmd.place (c : Cmd) (tile : Nat) : Place := placeOfEngine (tile * 16 + c.self % 16)

/-- An event of a command, at its cycle. -/
def State.engPost (s : State) (tile : Nat) (c : Cmd) (delay : Nat) (e : Event) : State :=
  s.post (c.place tile) noChan (s.clk + delay) s.cur (.event e)

/-- A command fails: a page fault goes under service, the rest discards it (R226). -/
def State.engFail (s : State) (tile : Nat) (c : Cmd) (va : Word) (kind : Nat) : State := s.engPost tile c 0 (.engineFault tile c.id va kind 0)

/-- An access joins those of its command that have not been answered. -/
def State.addReq (s : State) (tile : Nat) (c : Cmd) (r : EngReq) : State := s.modCmd tile c.id (fun c => { c with reqs := c.reqs ++ [r] })

/-- An engine's store awaits an acknowledgement. -/
def State.engTag (s : State) (c : Cmd) (tile : Nat) (r : EngReq) (pa : Option Nat) : State × Nat :=
  let x : Tagged := { op := s.nextOp, tid := c.tid, launch := c.launch, tag := 0, va := r.va, pa := pa, key := none, len := r.n, left := 1
                      data := 0, wb := false, engine := some (tile, c.id) }
  ({ s with nextOp := s.nextOp + 1, tagged := s.tagged ++ [x] }, s.nextOp)

/-- An access to home memory leaves as a message; a flush of a part leaves as that part (R253). -/
def State.engHome (s : State) (tile : Nat) (c : Cmd) (r : EngReq) (pa : Nat) : State :=
  let a : Access := { who := .engine tile c.id, rid := s.nextRid, va := BitVec.ofNat 64 (low56 r.va), pa := pa, n := r.n, clock := c.clock
                      guest := c.guest, core := tile * 16 + c.self % 16, tokens := r.tokens }
  match r.data with
  | none =>
    let s := ({ s with nextRid := s.nextRid + 1 } : State).addReq tile c { r with rid := a.rid, stuck := none }
    s.send (c.place tile) noChan Config.latHome (.homeLoad a .bare)
  | some bs =>
    let (s, op) := s.engTag c tile r (some pa)
    let s := s.addReq tile c { r with rid := op, stuck := none }
    s.send (c.place tile) noChan Config.latHome (match c.kind with
      | .mflushSum _ _ p => .sumPartArrival { a with rid := op } p bs
      | _ => .homeStore { a with rid := 0, gaps := r.gaps } op bs)

/-- An access to a stash of the party: applied in this cycle at the own tile's, and on arrival at another's. -/
def State.engStash (s : State) (tile : Nat) (c : Cmd) (r : EngReq) (target off : Nat) (own : Bool) : State :=
  let q : StashReq := { who := .engine tile c.id, src := tile, rid := s.nextRid, va := r.va, tile := target, off := off, what := .load r.n, clock := c.clock
                        guest := c.guest, op := 0, refusals := 0, own := own }
  let go := fun (s : State) (q : StashReq) => if own then s.remoteStash q else s.sendStash q
  match r.data with
  | none => go (({ s with nextRid := s.nextRid + 1 } : State).addReq tile c { r with rid := q.rid, stuck := none }) q
  | some bs =>
    let (s, op) := s.engTag c tile r none
    go (s.addReq tile c { r with rid := op, stuck := none })
      { q with rid := 0, op := op, what := if !r.gaps.isEmpty then .storeGaps bs r.gaps
                                                     else if bs.length ≤ 8 then .store r.n (BitVec.ofNat 64 (natOfBytes bs)) else .storeLine bs }

/-- An access to a peer device (R323, R340). -/
def State.engPeer (s : State) (tile : Nat) (c : Cmd) (r : EngReq) (dev : Nat) (stash : Bool) : State :=
  let v := fun (bs : Line) => BitVec.ofNat 64 (natOfBytes bs)
  let what : PeerOp := match r.data, stash with
    | none, false => .load r.n
    | none, true => .stash (.load r.n)
    | some bs, false => if r.gaps.isEmpty then .store r.n (v bs) else .storeGaps bs r.gaps
    | some bs, true => .stash (if r.gaps.isEmpty then .store r.n (v bs) else .storeGaps bs r.gaps)
  let rid := s.nextRid
  let o : PeerOut := { rid := rid, tid := c.tid, va := r.va, dev := dev, what := what, clock := c.clock, stamp := some s.wall, op := 0, sentAt := s.clk
                       held := false, turn := s.turn, refusals := 0, launch := c.launch, redirected := false, named := s.namedAt c.guest dev, again := false, parked := false
                       eng := some (tile, c.id, r.row) }
  ({ s.countSent c.guest c.launch dev with nextRid := rid + 1, peerOut := s.peerOut ++ [o] } : State).addReq tile c { r with rid := rid, stuck := none }

/-- A command makes an access. One whose page is not mapped is a fault of the command, and one whose page is under migration waits for the
migration's end (R121); both are made again (R226). -/
def State.engSend (s : State) (tile : Nat) (c : Cmd) (r : EngReq) : State :=
  let faults := fun (s : State) => (s.addReq tile c { r with stuck := some true }).engFail tile c r.va 1
  let stash := fun (target off : Nat) (own : Bool) =>
    if own && !c.stashm.getLsbD (off / 4096) then s.engFail tile c r.va 2
    else if (s.resident target off).isNone && (s.backingPa target (off / 128 * 128) c.guest).isNone then faults s
    else s.engStash tile c r target off own
  if !s.spaceOk c.guest r.va r.n then s.engFail tile c r.va 2
  else match s.spaceOf r.va with
    | .global => match s.tilePage tile c.guest (low56 r.va) with
      | .none => faults s
      | .frozen _ => s.addReq tile c { r with stuck := some false }
      | .page e =>
        if !(e.r && (r.data.isNone || e.w)) then s.engFail tile c r.va 2
        else (s.modTile tile (fun x => { x with tlb := s.tileTlbInstall e x.tlb })).engHome tile c r (e.phys (low56 r.va))
    | .own => stash tile (stashOff r.va) true
    | .party => stash ((s.guest c.guest).tile (lodgeField r.va) (tileField r.va)) (stashOff r.va) false
    | .peer d => s.engPeer tile c r d false
    | .peerStash d => s.engPeer tile c r d true
    | _ => s.engFail tile c r.va 2

/-- The accesses of a command that met a fault, or a migration, are made again. -/
def State.engAgain (s : State) (tile id : Nat) (fault : Bool) : State :=
  match (s.tile tile).cmd? id with
  | some (_, c) =>
    (c.reqs.filter (fun r => r.stuck == some fault)).foldl (fun (s : State) r => s.engSend tile c r)
      (s.modCmd tile id (fun c => { c with reqs := c.reqs.filter (fun r => r.stuck != some fault) }))
  | none => s

/-- The parts of a range of at most 128 bytes that lie in one line each: offset, address and length. -/
def lineParts (va : Word) (n : Nat) : List (Nat × Word × Nat) :=
  let k := 128 - va.toNat % 128
  if n ≤ k then [(0, va, n)] else [(0, va, k), (k, va + BitVec.ofNat 64 k, n - k)]

/-- A command reads a row. -/
def State.engRow (s : State) (tile : Nat) (c : Cmd) (row : Nat) (va : Word) (n : Nat) : State :=
  (lineParts va n).foldl (fun (s : State) p => s.engSend tile c
    { rid := 0, row := row, off := p.1, va := p.2.1, n := p.2.2, data := none, stuck := none }) s

/-- The bytes that the parts of a row have brought. -/
def Cmd.row (c : Cmd) (row : Nat) : Line := (c.got.filter (fun p => p.1 / 128 == row)).flatMap (·.2)

/-! ## Commands (R246, R247) -/

/-- Spaces that an engine may reach (R247, R232). -/
def kindEngine : Space → Bool
  | .loc => false
  | .reserved => false
  | _ => true

/-- A range lies within the bound of its space: of a party's stashes, it may go on from one tile's to the next one's. -/
def State.spanOk (s : State) (g : BitVec 8) (va : Word) (n : Nat) : Bool :=
  match s.spaceOf va with
  | .party => low56 va + n ≤ 2 ^ 29 && lodgeField (va + BitVec.ofNat 64 (max n 1 - 1)) < (s.guest g).len
  | .peerStash d => low56 va + n ≤ 2 ^ 29 && (s.guest g).peerOk d
  | _ => s.spaceOk g va n

/-- Why a range of bytes is refused at issue: the step of R122 that fails. -/
def State.rangeFault (s : State) (th : Thread) (r : Int × Nat) (window : Bool) : Option Nat :=
  let lo := BitVec.ofInt 64 r.1
  if r.1 < 0 ∨ (2 : Int) ^ 64 < r.1 + r.2 then some 2
  else if topByte lo ≠ topByte (BitVec.ofInt 64 (r.1 + max r.2 1 - 1)) then some 2
  else if s.spaceOf lo = .reserved then some 2
  else if !kindEngine (s.spaceOf lo) then some 3
  else if !s.spanOk th.guest lo r.2 then some 2
  else if window && s.spaceOf lo == .global && s.inWindow th (BitVec.ofNat 64 (low56 lo)) r.2 then some 6
  else none

/-- The step of R122 at which an address outside one space fails. -/
def State.spaceFault (s : State) (va : Word) (ok : Space → Bool) : Option Nat :=
  if s.spaceOf va = .reserved then some 2 else if ok (s.spaceOf va) then none else some 3

end Sys2Proof.Machine
end

