-- ==== Sys2Proof/Machine/Copy.lean ====
section
/-!
DEFINITION. The copy engine (R230 to R233): CPY, CPY.FILL and CPFREE (R254), the start of a command, its elements, and its end.
-/

namespace Sys2Proof.Machine

open Sys2Proof

/-! ## Descriptors (R230, R232) -/

/-- The descriptor that a thread's extension registers hold, and whether a reserved bit of it is set. -/
def Thread.copyDesc (th : Thread) (pattern : Option Word) : CopyDesc × Bool :=
  let ctl := th.e[14].toNat
  let n := bits ctl 0 4
  let es := th.e.toList
  let dims := (List.range n).map (fun d =>
    let w := ((es[d + 2]?).getD 0).toNat
    (bits w 40 24, signedOf 40 w))
  ({ src := th.e[0], dst := th.e[1], dims := dims, destSide := bits ctl 6 1 == 1, esize := 2 ^ bits ctl 4 2
     bar := if bits ctl 7 1 = 1 then none else some th.e[15], pattern := pattern },
   ctl / 2 ^ 8 != 0 || n == 0 || 12 < n)

/-- The first base, used stride or object address that is not aligned. -/
def CopyDesc.misaligned (d : CopyDesc) : Option Word :=
  let bad := fun (w : Word) => w.toNat % d.esize != 0
  if d.pattern.isNone && bad d.src then some d.src
  else if bad d.dst then some d.dst
  else match d.dims.find? (fun p => p.2 % (d.esize : Int) != 0) with
    | some p => some (BitVec.ofInt 64 p.2)
    | none => match d.bar with
      | some b => if b.toNat % 32 ≠ 0 then some b else none
      | none => none

/-- The first address that fails a check of step 3 of R232, with the step of R122. -/
def State.copyFault (s : State) (th : Thread) (d : CopyDesc) : Option (Nat × Word) :=
  let side := fun (base : Word) (strided : Bool) =>
    match s.rangeFault th (base.toNat, 1) true with
    | some k => some (k, base)
    | none => (s.rangeFault th (d.range base strided) true).map (fun k => (k, base))
  match (if d.pattern.isSome then none else side d.src (!d.destSide)) with
  | some r => some r
  | none => match side d.dst d.destSide with
    | some r => some r
    | none => match d.bar with
      | some b => match s.spaceFault b kindOwn with
        | some k => some (k, b)
        | none => if s.spaceOk th.guest b 32 then none else some (2, b)
      | none => none

/-- CPY and CPY.FILL: the descriptor's checks, then the guard (R254). -/
def copyOp (i : Instr) (g : Gd) (regs : List Reg) (fn : Nat) (pattern : State → Thread → Option Word) (s : State) : Result :=
  onThread s 4 regs (fun t th =>
    let (d, bad) := th.copyDesc (pattern s th)
    if bad || 2 ^ 32 < d.bytes then s.illegalState t th
    else match d.misaligned with
      | some a => s.misaligned t th a
      | none => match s.copyFault th d with
        | some (k, a) => s.protection t th k a
        | none => s.enqueue t th i g true fn (.copy d))

def execCpy (g : Gd) (s : State) : Result := copyOp (.cpy g) g [] 0 (fun _ _ => none) s
def execCpyFill (g : Gd) (a : Reg) (s : State) : Result := copyOp (.cpyFill g a) g [a] 1 (fun s th => some (s.readReg th a)) s

/-- CPFREE (R254). -/
def execCpfree (d : Reg) (s : State) : Result :=
  onThread s 4 [d] (fun t th =>
    let x := s.tile (tileOf th.home)
    s.result t th d (BitVec.ofNat 64 (Config.copyQueue - x.cqueue.length + (Config.matrixQueue - x.mqueue.length) * 256)))

/-! ## Starting (R233) -/

/-- The next command that may start: in queue order, past those that wait for an edge, never past an unresolved guarded one. -/
def State.startable (s : State) (tile : Nat) : Option Cmd :=
  ((s.tile tile).cqueue.takeWhile (fun c => c.held.isNone)).find? (fun c => !s.blocked tile c)

/-- Whether one of a command's bases lies in a peer space. -/
def State.copyPeer (s : State) (d : CopyDesc) : Bool :=
  let peer := fun (w : Word) => match s.spaceOf w with
    | .peer _ => true
    | .peerStash _ => true
    | _ => false
  peer d.dst || (d.pattern.isNone && peer d.src)

/-- The guard of R108 on a command's barrier object. -/
def State.barGuard (s : State) (tile : Nat) (c : Cmd) (b : Word) : Bool :=
  s.bankOk tile (stashOff b) c.guest && c.stashm.getLsbD (stashOff b / 4096)

/-- A change of a barrier object's DUE, which lies 24 bytes into it, as an access of the command to its own stash. With no page behind the
object it waits, as the command does, for the fault's service (R226). -/
def State.changeDue (s : State) (tile : Nat) (c : Cmd) (b : Word) (op : AmoOp) (v : Nat) : State :=
  let unmapped := (s.resident tile (stashOff b)).isNone && (s.backingPa tile (stashOff b) c.guest).isNone
  (if unmapped && c.faulted.isNone then s.engFail tile c b 1 else s).remoteStash
    { who := .engine tile c.id, src := tile, rid := 0, va := b, tile := tile, off := stashOff b + 24, what := .atomic 8 op (BitVec.ofNat 64 v) 0
      clock := c.clock, guest := c.guest, op := 0, refusals := 0, own := true }

/-- The promise that a starting command writes into its barrier object (R233), under the guard of its bank. -/
def State.promise (s : State) (tile : Nat) (c : Cmd) (d : CopyDesc) (b : Word) : State :=
  if !s.barGuard tile c b then s.engFail tile c b 2
  else s.changeDue tile c b .maxu (s.clk + (if s.copyPeer d then 4800 else 1024) + (d.bytes + 63) / 64)

def Cmd.desc (c : Cmd) : Option CopyDesc := match c.kind with | .copy d => some d | _ => none

/-- A command starts: it leaves the queue, and one of 0 bytes completes at once (R231). -/
def State.startCopy (s : State) (tile : Nat) (c : Cmd) : State :=
  match c.desc with
  | none => s
  | some d =>
    let s := (s.modTile tile (fun x =>
      let x := x.setQueue true (x.cqueue.filter (fun y => y.id != c.id))
      { x with crun := x.crun ++ [c] })).letIn tile true 1
    let s := match d.bar with
      | some b => s.promise tile c d b
      | none => s
    if d.count = 0 then s.engPost tile c 0 (.copyFinish tile c.id) else s

def State.startCopies (s : State) (tile : Nat) : (fuel : Nat) → State
  | 0 => s
  | fuel + 1 =>
    if Config.copyRunning ≤ (s.tile tile).crun.length then s
    else match s.startable tile with
      | some c => (s.startCopy tile c).startCopies tile fuel
      | none => s

/-- COPY_START. -/
def execCopyStart (s : State) : Result :=
  onEvent s (fun s e => match e with
    | .copyStart tile => some (s.startCopies tile Config.copyRunning)
    | _ => none)

/-! ## Elements (R231, R233) -/

/-- The offset of element j along the strided side. -/
def CopyDesc.stride (d : CopyDesc) (j : Nat) : Int :=
  (d.dims.foldl (fun (r : Nat × Int) p => (r.1 / max p.1 1, r.2 + (r.1 % max p.1 1 : Nat) * p.2)) (j, (0 : Int))).2

def CopyDesc.srcAt (d : CopyDesc) (j : Nat) : Word :=
  if d.destSide then d.src + BitVec.ofNat 64 (j * d.esize) else d.src + BitVec.ofInt 64 (d.stride j)
def CopyDesc.dstAt (d : CopyDesc) (j : Nat) : Word :=
  if d.destSide then d.dst + BitVec.ofInt 64 (d.stride j) else d.dst + BitVec.ofNat 64 (j * d.esize)

/-- Elements of at most 8 bytes, each within an aligned 8-byte word of the source and one of the destination, which the engine reads and writes
whole (R161; DEDUCED, log entry 60). -/
def CopyDesc.addr (d : CopyDesc) (dest : Bool) (j : Nat) : Word := if dest then d.dstAt j else d.srcAt j

/-- The elements that lie in the word of element j on one side, in order. -/
def CopyDesc.mates (d : CopyDesc) (dest : Bool) (j : Nat) : List Nat :=
  let js := if d.esize = 8 then [j]
    else if dest != d.destSide then (List.range (min d.count (j + 8))).drop (j - 7)   -- the dense side
    else List.range d.count
  js.filter (fun i => (d.addr dest i).toNat / 8 == (d.addr dest j).toNat / 8)

/-- The first of them: its number stands for the word. -/
def CopyDesc.word (d : CopyDesc) (dest : Bool) (j : Nat) : Nat := (d.mates dest j).headD j

/-- The place of an element in its word, and the bytes of the word that the command's elements span: where they begin, and how many. -/
def CopyDesc.at_ (d : CopyDesc) (dest : Bool) (j : Nat) : Nat := (d.addr dest j).toNat % 8
def CopyDesc.span (d : CopyDesc) (dest : Bool) (j : Nat) : Nat × Nat :=
  let os := (d.mates dest j).map (d.at_ dest)
  let lo := os.foldl min (d.at_ dest j)
  (lo, os.foldl max 0 + d.esize - lo)

/-- What a word pays at the egress: a token for every 64 bytes that the command moves, with the first element of them (R284; DEDUCED, log
entry 58). -/
def CopyDesc.tokens (d : CopyDesc) (dest : Bool) (j : Nat) : Nat := ((d.mates dest j).filter (fun i => i * d.esize % 64 == 0)).length

/-- The read of the source word that begins with element j. -/
def State.readWord (s : State) (tile : Nat) (c : Cmd) (d : CopyDesc) (j : Nat) : State :=
  let r := d.span false j
  s.engSend tile c { rid := 0, row := j, off := 0, va := d.srcAt j - BitVec.ofNat 64 (d.at_ false j - r.1), n := r.2, data := none
                     tokens := some (d.tokens false j), stuck := none }

/-- The bytes of element i, as the read of its word has brought them. -/
def Cmd.elem (c : Cmd) (d : CopyDesc) (i : Nat) : Line :=
  (((KMap.getD c.got (d.word false i * 128) []).drop (d.at_ false i - (d.span false i).1)).take d.esize)

/-- The write of the destination word of element j: its elements' bytes in their order, as one access. -/
def State.writeWord (s : State) (tile : Nat) (c : Cmd) (d : CopyDesc) (j : Nat) (elem : Nat → Line) : State :=
  let r := d.span true j
  let ms := d.mates true j
  let bs := ms.foldl (fun l i => patch l (d.at_ true i - r.1) (elem i)) (List.replicate r.2 0)
  let gaps := (List.range r.2).filter (fun o => ms.all (fun i => !(d.at_ true i - r.1 ≤ o && o < d.at_ true i - r.1 + d.esize)))
  s.engSend tile c { rid := 0, row := d.word true j, off := 0, va := d.dstAt j - BitVec.ofNat 64 (d.at_ true j - r.1), n := r.2
                     data := some bs, gaps := gaps, tokens := some (d.tokens true j), stuck := none }

/-- The next element of a running command has its turn: a source word is read with the first of its elements, and a pattern's destination word
written with the last of its own. The bytes that moved. -/
def State.moveElem (s : State) (tile : Nat) (c : Cmd) (left : Nat) : Nat × State :=
  match c.desc with
  | none => (0, s)
  | some d =>
    if c.faulted.isSome || d.count ≤ c.pos || left < d.esize then (0, s)
    else
      let s := s.modCmd tile c.id (fun c => { c with pos := c.pos + 1 })
      (d.esize, match d.pattern with
        | some p => if (d.mates true c.pos).getLast? = some c.pos then s.writeWord tile c d c.pos (fun _ => bytesOf p.toNat d.esize) else s
        | none => if d.word false c.pos = c.pos then s.readWord tile c d c.pos else s)

/-- One round: each running command in turn moves one element, within the cycle's bytes. -/
def State.copyRound (s : State) (tile : Nat) : List Nat → (left : Nat) → Nat × State
  | [], left => (left, s)
  | id :: ids, left =>
    match (s.tile tile).crun.find? (fun c => c.id == id) with
    | some c => match s.moveElem tile c left with
      | (n, s) => s.copyRound tile ids (left - n)
    | none => s.copyRound tile ids left

/-- At most 64 bytes in a cycle (R233). -/
def State.copyBytes (s : State) (tile : Nat) : (fuel : Nat) → (left : Nat) → State
  | 0, _ => s
  | fuel + 1, left =>
    match s.copyRound tile ((s.tile tile).crun.map (·.id)) left with
    | (left', s) => if left' = left then s else s.copyBytes tile fuel left'

/-- One cycle of a tile's copy engine. -/
def State.copyCycle (s : State) (tile : Nat) : State := s.copyBytes tile 64 64

/-- Every element of a destination word has been read. -/
def Cmd.wordRead (c : Cmd) (d : CopyDesc) (j : Nat) : Bool := (d.mates true j).all (fun i => (KMap.get? c.got (d.word false i * 128)).isSome)

/-- The answer to the read of the source word that begins with element j: the destination words that it completes are written, and what no
other will need goes. -/
def State.copyGot (s : State) (tile id j : Nat) : State :=
  match (s.tile tile).crun.find? (fun c => c.id == id) with
  | some c => match c.desc with
    | some d =>
      let words := (((d.mates false j).map (d.word true)).eraseDups).filter (c.wordRead d)
      let used := ((words.flatMap (fun w => (d.mates true w).map (d.word false))).eraseDups).filter (fun k =>
        (d.mates false k).all (c.wordRead d))
      words.foldl (fun (s : State) w => s.writeWord tile c d w (c.elem d))
        (s.modCmd tile id (fun c => { c with got := c.got.filter (fun p => !used.contains (p.1 / 128)) }))
    | none => s
  | none => s

/-- A copy whose elements have all moved and whose last write is acknowledged finishes in that cycle (R233). -/
def State.copyDone (s : State) (tile id : Nat) : State :=
  match (s.tile tile).crun.find? (fun c => c.id == id) with
  | some c => match c.desc with
    | some d => if c.pos = d.count ∧ c.reqs = [] ∧ c.faulted.isNone then s.engPost tile c 0 (.copyFinish tile id) else s
    | none => s
  | none => s

/-- Where an element that a command writes lies: home bytes, or stash bytes. -/
def State.destKey (s : State) (tile : Nat) (g : BitVec 8) (va : Word) : Option Nat :=
  match s.spaceOf va with
  | .global => match s.walk g (low56 va) with
    | .page e => some (e.phys (low56 va))
    | _ => none
  | .own => some (stashKey tile (stashOff va))
  | .party => some (stashKey ((s.guest g).tile (lodgeField va) (tileField va)) (stashOff va))
  | _ => none

/-- The 128 bytes from `base` are covered by elements at some keys. -/
def covered (keys : List Nat) (n base : Nat) : Bool :=
  (List.range 128).all (fun b => keys.any (fun k => k ≤ base + b && base + b < k + n))

/-- A line of which a copy has written all 128 bytes is poisoned no longer (R298). -/
def State.copyCleans (s : State) (tile : Nat) (c : Cmd) (d : CopyDesc) : State :=
  if s.lines.all (fun p => p.2.poison.isNone) && s.stash.all (fun p => !p.2.poison) then s
  else
    let keys := (List.range d.count).filterMap (fun j => s.destKey tile c.guest (d.dstAt j))
    { s with
      lines := s.lines.map (fun p =>
        if p.2.poison.isSome && covered keys d.esize (p.1 * 128) then (p.1, { p.2 with poison := none }) else p)
      stash := s.stash.map (fun p =>
        if p.2.poison && covered keys d.esize (stashKey (p.1 / 1024) (p.1 % 1024 * 128)) then (p.1, { p.2 with poison := false }) else p) }

/-- COPY_FINISH: the last write is acknowledged, and the barrier object is credited (R163, R235, R254), once its line is in the stash. Among the
accesses of a cycle to the bank the credit stands where this step does: before the cycle's issues where the last acknowledgement has brought it,
and after them where the engine's own turn has (DESIGN CHOICE, log entry 75). -/
def execCopyFinish (s : State) : Result :=
  onEvent s (fun s e => match e with
    | .copyFinish tile id => some (
      match (s.tile tile).crun.find? (fun c => c.id == id) with
      | some c => match c.desc with
        | some d =>
          let s := s.copyCleans tile c d
          match d.bar with
          | some b =>
            if !s.barGuard tile c b then s.discard tile true c b 2 0
            else if (s.resident tile (stashOff b)).isSome then (s.credit tile (stashOff b) d.bytes c.clock).finishCmd tile c
            else match s.startFill tile (stashOff b / 128) c.guest with
              | some s => s.engPost tile c 1 (.copyFinish tile id)
              | none => (if c.faulted.isSome then s else s.engFail tile c b 1).engPost tile c 1 (.copyFinish tile id)
          | none => s.finishCmd tile c
        | none => s
      | none => s)
    | _ => none)

end Sys2Proof.Machine
end

