-- ==== Sys2Proof/Machine/Sched.lean ====
section
/-!
DEFINITION. Which thread issues (R21, R22), the starting state of a thread (R31, R82), where a unit is placed (R30), and the passing
of slots between the guests of a tile (R278, R279) and at a convoy stop (R324, R327).
-/

namespace Sys2Proof.Machine

open Sys2Proof

/-! ## The barrel (R21, R22) -/

/-- The distance from a cycle to the next one that a slot owns. -/
def toOwn (slot c : Nat) : Nat := (slot + 16 - c % 16) % 16

/-- Eligible in cycle c (R21). -/
def Thread.eligible (th : Thread) (c : Nat) : Bool :=
  th.inRotation && (match th.lastIssue with | some l => l + 8 ≤ c | none => true) &&
    !(1 ≤ toOwn (slotIn th.home) c && toOwn (slotIn th.home) c ≤ 7)

/-- The thread that issues on a core in cycle c: the eligible owner, or the lowest-numbered eligible slot; a thread that has
yielded takes no empty cycle (R22, R89). -/
def State.chosen (s : State) (core c : Nat) : Option Nat :=
  let ts := (s.onCore core).filter (fun p => p.2.eligible c)
  match ts.find? (fun p => slotIn p.2.home == c % 16) with
  | some p => some p.1
  | none =>
    ((ts.filter (fun p => !p.2.yielded)).foldl (fun (b : Option (Nat × Nat)) p =>
      match b with
      | some (k, _) => if slotIn p.2.home < k then some (slotIn p.2.home, p.1) else b
      | none => some (slotIn p.2.home, p.1)) none).map (·.2)

/-! ## Starting threads -/

/-- The banks of a tile that are assigned to a guest (R109). -/
def Tile.bankMask (x : Tile) (g : BitVec 8) : BitVec 32 :=
  (List.range 32).foldl (fun v b => if KMap.get? x.banks b == some g then v ||| (1 <<< b) else v) 0

/-- The top of a slot's local-store allotment. -/
def topOfAllotment : Word := BitVec.ofNat 64 (0x82 * 2 ^ 56 + Config.localBytes)

/-- A thread at its start (R31, R82): everything the tables leave at 0 or empty. -/
def Thread.start (slot : Nat) (g gen : BitVec 8) (launch unit : Nat) (parent : Option Nat) (x : Vector Word 32) (pc lts : Word)
    (stashm : BitVec 32) (priv : Bool) (tvec : Word) : Thread :=
  { place := some slot, home := slot, halted := false, guest := g, gen := gen, launch := launch, unit := unit, parent := parent
    x := (x.set 0 0).set 2 topOfAllotment, e := Vector.replicate 16 0, q := Vector.replicate 8 .ff, pc := pc, lts := lts, ltsSeen := lts, acked := 0
    frames := [], transit := none, depth := 0, wsp := 0, loops := [], pin := false, yielded := false, usedShared := false
    usedLocal := false
    stashm := stashm, trapz := false, priv := priv, epc := 0, trapc := 0, taddr := 0, tvec := tvec, monst := 0
    feaddr := 0, fedata := 0, efaddr := 0, efinfo := 0, xsel := 0, issued := 0, waited := 0, lastTag := 0
    mons := Vector.replicate 4 { arm := 0, signal := none }, bindings := [], brecs := [], dist := 0, began := false
    lastIssue := none, wait := .none, waitWid := 0, pendClear := none, engEvents := [], postEvents := [], straggler := false
    cancel := none, asked := none, issueClock := lts, issueBank := Vector.replicate 32 0, forceHome := false, stopped := false, ilen := 4, replay := false, queued := false, gather := none }

/-- What a slot's local store holds of an older generation of its guest reads as zero (R101, R280). -/
def State.freshLocal (s : State) (slot : Nat) : State :=
  match KMap.get? s.owners slot with
  | some (g, gen) =>
    if gen = (s.guest g).gen then s else s.writeMem (localKey slot 0) (List.replicate Config.localBytes 0)
  | none => s

/-- A thread as it comes to its slot: in it, or, while another guest has the slot or the tile, saved until the slot passes (R278, R279). -/
def State.entering (s : State) (th : Thread) : Thread :=
  { th with place := if s.mayEnter th.home th.guest then some th.home else none }

/-- A new thread takes the next thread number, and its slot its tag. -/
def State.addThread (s : State) (th : Thread) : State :=
  let s := s.freshLocal th.home
  { s.setThread s.nextTid th with
    nextTid := s.nextTid + 1, owners := KMap.set s.owners th.home (th.guest, th.gen) }

/-- Slot k is not free for guest g: a thread is in it or on its way into it (R38), or a thread of the guest is saved from it. -/
def State.holdsSlot (s : State) (k : Nat) (g : BitVec 8) : Bool :=
  s.threads.any (fun p => p.2.home == k && (p.2.place == some k || p.2.wait == .courier || p.2.guest == g))

/-! ## Placement of units (R30) -/

/-- The cores of a party in ascending order of lodge, tile and core. -/
def Guest.cores (g : Guest) : List Nat :=
  (List.range g.len).flatMap (fun l => (List.range 64).flatMap (fun t => (List.range 16).map (fun c => g.tile l t * 16 + c)))

/-- The slots of a core below which a unit of a launch with quota q is placed: those from the quota of the unit in slot 0 on are left to
that unit's SPAWNs (R15, R30). -/
def State.topFor (s : State) (q : Nat) (g : BitVec 8) (core : Nat) : Nat :=
  let first := (s.threads.find? (fun p => p.2.home == core * 16 && p.2.guest == g && p.2.parent.isNone)).bind (fun p => s.launch? p.2.launch)
  match first with
  | some f => min q f.rcd.quota
  | none => q

/-- The slot of a core that a unit of a launch may take: the lowest free one that R30's conditions allow. -/
def State.slotFor (s : State) (l : Nat) (x : Launch) (core : Nat) : Option Nat :=
  let g := x.rcd.guest
  let here := s.threads.filter (fun p => coreOf p.2.home == core && p.2.guest == g)
  if x.rcd.quota ≤ (here.filter (fun p => p.2.launch == l)).length then none
  else ((List.range (s.topFor x.rcd.quota g core)).find? (fun k =>
    !s.holdsSlot (core * 16 + k) g && (k != 0 || here.all (fun p => slotIn p.2.home < x.rcd.quota)))).map (core * 16 + ·)

/-- The place for a launch's next unit, if there is one. -/
def State.placeFor (s : State) (l : Nat) (x : Launch) : Option Nat :=
  if s.saved.any (fun v => v.guest == x.rcd.guest) then none
  else (s.guest x.rcd.guest).cores.findSome? (s.slotFor l x)

/-- A core that holds no thread of a guest clears the guest's shared bank at the next placement there (R20). -/
def State.clearBank (s : State) (core : Nat) (g : BitVec 8) : State :=
  if s.threads.any (fun p => coreOf p.2.home == core && p.2.guest == g) then s
  else { s with banks := KMap.erase s.banks (bankKey core g) }

/-- The starting registers of unit u (R31). -/
def Launch.regs (x : Launch) (u : Nat) : Vector Word 32 :=
  (((Vector.replicate 32 0).set 3 x.rcd.param).set 4 (BitVec.ofNat 64 u)).set 5 (BitVec.ofNat 64 x.rcd.units) |>.set 6 x.rcd.const

/-- The tile runs a guest from here on. Where that is another than the one that ran there last, the stash writes back its dirty lines
(R105, R279). -/
def State.takeTile (s : State) (tile : Nat) (g : BitVec 8) : State :=
  let last := (s.tile tile).lastRan
  let s := s.modTile tile (fun y => { y with current := some g, lastRan := some g })
  if last.any (· != g) then s.writeBackRange tile 0 1024 0 else s

/-- The next unit of launch l starts in a slot (R31); on a tile that runs another guest, its thread is saved until the slot passes. -/
def State.placeUnit (s : State) (l : Nat) (x : Launch) (slot : Nat) : State :=
  let g := x.rcd.guest
  let tile := tileOf slot
  let s := s.clearBank (coreOf slot) g
  let s := if (s.tile tile).current.isNone then s.takeTile tile g else s
  let th := Thread.start slot g (s.guest g).gen l x.placed none (x.regs x.placed) x.rcd.code (s.guest g).floor
    ((s.tile tile).bankMask g) x.firmware 0
  (s.addThread (s.entering th)).modLaunch l (fun y => { y with placed := y.placed + 1 })

/-! ## Hand-over (R278, R279) and convoy stops (R324, R327) -/

/-- Whether a thread's slot passes to another guest at its next PREPT. -/
def State.passes (s : State) (th : Thread) : Bool := (s.tile (tileOf th.home)).current.any (· != th.guest)

/-- Whether a stop of the thread's convoy is in force. -/
def State.stopsHere (s : State) (th : Thread) : Bool := (s.convoyOfThread th).any (fun v => v.inForce s.wall)

/-- A thread's state goes to its guest's context save area, and the slot is offered to the guest that the tile runs (R30, R278). -/
def State.saveThread (s : State) (t : Nat) (th : Thread) : State :=
  (s.setThread t { th with place := none }).slotsFreed (tileOf th.home)

end Sys2Proof.Machine
end

