-- ==== Sys2Proof/Machine/Front.lean ====
section
/-!
DEFINITION. The front desk's part in launches: queue records (R351), their checks (R28, R352), the start of a launch (R29, R33), its
end and its graph's, and how a cancel acts (R34).
-/

namespace Sys2Proof.Machine

open Sys2Proof

/-! ## Records (R351) -/

def Record.ofBytes (b : Line) : Record :=
  let f := fieldAt b 38 1
  { code := BitVec.ofNat 64 (fieldAt b 0 8), param := BitVec.ofNat 64 (fieldAt b 8 8), const := BitVec.ofNat 64 (fieldAt b 16 8)
    done := BitVec.ofNat 64 (fieldAt b 24 8), units := fieldAt b 32 4, quota := fieldAt b 36 1
    guest := BitVec.ofNat 8 (fieldAt b 37 1), timed := bits f 0 1 == 1, after := bits f 1 1 == 1, policy := bits f 2 1 == 1
    kind := bits f 3 2, dist := fieldAt b 40 4, graph := BitVec.ofNat 16 (fieldAt b 44 2), constlen := fieldAt b 46 2 * 128
    convoy := BitVec.ofNat 16 (fieldAt b 48 2), skew := fieldAt b 50 2, leader := fieldAt b 52 1, ndev := fieldAt b 53 1
    when := BitVec.ofNat 64 (fieldAt b 56 8) }

/-- Reserved fields of the record are zero, and the fields that a control record holds at 0 (R351). -/
def recordReservedOk (b : Line) : Bool :=
  let r := Record.ofBytes b
  bits (fieldAt b 38 1) 5 3 == 0 && fieldAt b 39 1 == 0 && fieldAt b 54 2 == 0 &&
    (r.kind == 0 || (fieldAt b 0 24 == 0 && fieldAt b 32 4 == 0 && r.quota == 0 && fieldAt b 40 4 == 0 && r.graph == 0 &&
      fieldAt b 46 2 == 0 && r.skew == 0))

/-- Statuses of QSTAT (R353). -/
inductive QStatus where
  | tooMany | badQuota | badDist | capability (field : Nat) | badField | armFull
  deriving DecidableEq, Repr

def QStatus.code : QStatus → Nat
  | .tooMany => 1 | .badQuota => 2 | .badDist => 3 | .capability _ => 4 | .badField => 5 | .armFull => 6
def QStatus.field : QStatus → Nat
  | .capability f => f
  | _ => 0

/-- The guest's translation maps every byte of a range of global space with a permission (R352); a page under migration is mapped (R121). -/
def State.mapped (s : State) (g : BitVec 8) (va n : Nat) (ok : TlbEntry → Bool) : Bool :=
  va + n ≤ 2 ^ 56 && (n == 0 || (List.range ((va + n - 1) / 2 ^ 16 + 1 - va / 2 ^ 16)).all (fun j =>
    match s.walk g (max va ((va / 2 ^ 16 + j) * 2 ^ 16)) with
    | .page e => ok e
    | .frozen e => ok e
    | .none => false))

/-- The first pointer field outside its capability (R352). -/
def State.capabilityFault (s : State) (r : Record) : Option Nat :=
  if r.kind = 0 ∧ !s.mapped r.guest r.code.toNat 2 (fun e => e.x) then some 0
  else if r.kind = 0 ∧ 2 ^ 56 ≤ r.param.toNat then some 8
  else if r.kind = 0 ∧ r.constlen ≠ 0 ∧ !s.mapped r.guest r.const.toNat r.constlen (fun e => e.r) then some 16
  else if !s.mapped r.guest r.done.toNat 8 (fun e => e.r && e.w) then some 24
  else none

/-- Armed records of the device and of a guest, counting the CVARMs accepted and not yet armed (R334, R348). -/
def State.armCount (s : State) : Nat × (BitVec 8 → Nat) :=
  let waiting := s.agenda.filterMap (fun p => match p.work with
    | .event (.acknowledgementWait _ (some (r, true))) => some r.guest
    | _ => none)
  let all := (s.armed.filter (fun a => !a.fired)).map (·.rcd.guest) ++ waiting
  (all.length, fun g => (all.filter (· == g)).length)

def State.armLimit (s : State) (g : BitVec 8) : Bool :=
  Config.armedDevice ≤ s.armCount.1 || Config.armedGuest ≤ s.armCount.2 g

/-- Checks 1 to 5 of R352. -/
def Record.fieldFault (b : Line) : Option QStatus :=
  let r := Record.ofBytes b
  if r.kind = 0 ∧ 2 ^ 28 ≤ r.units then some .tooMany
  else if r.kind = 0 ∧ (r.quota < 1 ∨ 16 < r.quota) then some .badQuota
  else if r.kind = 0 ∧ (r.dist < 1 ∨ 65536 < r.dist) then some .badDist
  else if !recordReservedOk b then some .badField
  else if 8192 * 128 < r.constlen then some .badField
  else if (r.kind ≠ 0 ∨ r.timed) ∧ (r.convoy = 0 ∨ r.ndev = 0 ∨ 64 < r.ndev) then some .badField
  else if 64 ≤ r.leader then some .badField
  else if r.kind ≠ 0 ∧ r.after then some .badField
  else if r.code.getLsbD 0 then some .badField
  else if r.constlen ≠ 0 ∧ r.const.toNat % 128 ≠ 0 then some .badField
  else if r.done.toNat % 8 ≠ 0 then some .badField
  else none

/-- The checks of a record in their order (R28, R352): the first that fails decides. -/
def State.recordFault (s : State) (b : Line) (owner : BitVec 8) : Option QStatus :=
  let r := Record.ofBytes b
  match Record.fieldFault b with
  | some x => some x
  | none =>
    if r.guest ≠ owner then some (.capability 37)
    else match s.capabilityFault r with
      | some f => some (.capability f)
      | none => if r.timed ∧ r.kind = 0 ∧ s.armLimit r.guest then some .armFull else none

/-! ## Completion counters (R33, R337) -/

/-- The atomic with which the front desk adds 1 to a counter; its request number is the guest (R33). -/
def frontAdd (s : State) (g : BitVec 8) (done : Word) (pa : Nat) : Event :=
  .homeAtomic { who := .front, rid := g.toNat, va := done, pa := pa, n := 8, clock := (s.guest g).floor, guest := g, core := 0 } 0 .add 1 0

/-- The front desk signals a counter (R33): by an atomic that reaches the word's home in the next cycle, at its place in R145's order; the home
holds it while the page is under migration (R121); owed until then where the page is not mapped at present. Its acknowledgement raises
FLOOR (R154). -/
def State.signalDone (s : State) (g : BitVec 8) (done : Word) : State :=
  let add := fun (e : TlbEntry) =>
    s.post placeOfFront noChan (s.clk + 1) s.cur (.event (frontAdd s g done (e.phys (low56 done))))
  match s.walk g (low56 done) with
  | .page e => add e
  | .frozen e => add e
  | .none => { s with doneOwed := s.doneOwed ++ [(g, done)] }

/-- The signals that are owed are tried again. -/
def State.payDone (s : State) : State :=
  s.doneOwed.foldl (fun (s : State) p => s.signalDone p.1 p.2) { s with doneOwed := [] }

/-- A queue reports a status of a record (R353). -/
def State.report (s : State) (q index status field : Nat) (noop : Bool) : State :=
  match KMap.get? s.queues q with
  | some x => { s with queues := KMap.set s.queues q { x with
      qIndex := BitVec.ofNat 32 index, qField := BitVec.ofNat 8 field, qNoop := noop, qStatus := BitVec.ofNat 8 status } }
  | none => s

/-! ## Launches -/

/-- What AFTER goes by (R351): the queue, the guest and the graph of a record. -/
structure GraphKey where
  queue : Option Nat
  guest : BitVec 8
  graph : BitVec 16
  deriving DecidableEq, Repr

def graphKey (queue : Option Nat) (r : Record) : GraphKey := { queue := queue, guest := r.guest, graph := r.graph }
def Launch.graphKey (x : Launch) : GraphKey := Machine.graphKey x.queue x.rcd
def Armed.graphKey (a : Armed) : GraphKey := Machine.graphKey a.queue a.rcd

/-- Whether every launch record of the graph on this queue that came before number l has completed (R351), those still armed among them; none
of them CANCELLED or FAULTED (R34, R291). -/
def State.depsDone (s : State) (l : Nat) (k : GraphKey) : Bool :=
  s.launches.all (fun p => !(p.1 < l && p.2.graphKey == k) || p.2.status == .done) &&
    s.armed.all (fun a => !(a.number < l && a.graphKey == k))
def State.depsFailed (s : State) (l : Nat) (k : GraphKey) : Option LaunchStatus :=
  (s.launches.find? (fun p => p.1 < l && p.2.graphKey == k && (p.2.status == .cancelled || p.2.status == .faulted))).map (·.2.status)

/-- A launch starts: its units are offered places, or, with none, it completes at once (R29, R30). -/
def State.startLaunch (s : State) (l : Nat) : State :=
  match s.launch? l with
  | some x =>
    let s := ({ s with seq := s.seq + 1 } : State).modLaunch l (fun x => { x with status := .running, started := s.seq, startedAt := s.clk })
    if x.rcd.units = 0 then s.now (.launchCompletion l)
    else s.now (.unitPlacement l)
  | none => s

/-- A launch is over with a status: its counter is signalled (R33, R352), and its queue, or the error log, is told what ended it (R291,
R353). No other word is signalled when it was the last of its graph: R351 gives a graph no counter of its own (DESIGN CHOICE, log entry 81). -/
def State.closeLaunch (s : State) (l : Nat) (st : LaunchStatus) : State :=
  match s.launch? l with
  | some x =>
    let s := (s.modLaunch l (fun y => { y with status := st })).signalDone x.rcd.guest x.rcd.done
    let s := match x.cause with
      | some (c, d) => s.log 0x70 l (BitVec.ofNat 64 c) (BitVec.ofNat 64 d)
      | none => s
    match st, x.queue with
    | .faulted, some q => s.report q x.index 8 0 false
    | .cancelled, some q => s.report q x.index 7 0 false
    | _, _ => s
  | none => s

/-- The launch of a record before it starts. -/
def Launch.ofRecord (r : Record) (queue : Option Nat) (index : Nat) : Launch :=
  { rcd := r, queue := queue, index := index, placed := 0, cmds := 0, cancelled := false, faulted := false
    status := .waiting, firmware := queue.any (fun q => Config.hostQueues ≤ q), started := 0, startedAt := 0, cause := none }

/-- A launch record takes its place among the launches of its graph (R351). -/
def State.launchNumber (s : State) : Nat × State := (s.nextLaunch, { s with nextLaunch := s.nextLaunch + 1 })

/-- A launch record starts its launch under its number, or the launch waits for the earlier ones of its graph, or never starts (R28, R34,
R291). -/
def State.acceptLaunch (s : State) (r : Record) (queue : Option Nat) (index l : Nat) : State :=
  let x := Launch.ofRecord r queue index
  let s := { s with launches := KMap.set s.launches l x }
  if !r.after || s.depsDone l x.graphKey then s.startLaunch l
  else match s.depsFailed l x.graphKey with
    | some st => s.closeLaunch l st
    | none => s

/-- The launches of a graph that waited for number l start, or never do (R33, R34, R291). -/
def State.releaseAfter (s : State) (l : Nat) (k : GraphKey) : State :=
  (s.launches.filter (fun p => p.2.status == .waiting && p.2.graphKey == k && l < p.1)).foldl (fun (s : State) p =>
    match s.depsFailed p.1 k with
    | some st => s.closeLaunch p.1 st
    | none => if s.depsDone p.1 k then s.startLaunch p.1 else s) s

def State.releaseDependents (s : State) (l : Nat) : State :=
  match s.launch? l with
  | some x => s.releaseAfter l x.graphKey
  | none => s

/-- A timed record is armed (R334). -/
def State.armRecord (s : State) (r : Record) (queue : Option Nat) (index : Nat) : State :=
  let (l, s) := s.launchNumber
  { s with armed := s.armed ++ [{ rcd := r, queue := queue, index := index, number := l, fired := false }] }

/-- Armed records go: those that `which` names. -/
def State.unarm (s : State) (which : Armed → Bool) : State := { s with armed := s.armed.filter (fun a => !which a) }

/-- LAUNCH_COMPLETION (R33, R291). -/
def State.completeLaunch (s : State) (l : Nat) : State :=
  match s.launch? l with
  | some x =>
    if s.launchDone l then
      let s := s.closeLaunch l (if x.faulted then .faulted else if x.cancelled then .cancelled else .done)
      ({ s with locks := s.locks.filter (fun k => k.launch != l) } : State).releaseDependents l
    else s
  | none => s

/-! ## Cancel (R34) -/

/-- The launches, by number and record, that a cancel is about, those of armed records among them. A graph is known by its guest and its
GRAPH, on whichever queue (DESIGN CHOICE, log entry 67). -/
def cancelCovers (c : CancelScope) (l : Nat) (r : Record) : Bool :=
  match c with
  | .launch k => l == k
  | .graph g n => r.guest == g && r.graph == n
  | .convoy g n => r.guest == g && r.inConvoy == some n

/-- DETAIL of a cancel trap (R289). -/
def cancelDetail : CancelScope → Nat
  | .launch _ => 0
  | .graph _ _ => 1
  | .convoy _ _ => 2

/-- An armed record in the scope of a cancel ends as a launch that has not started does: CANCELLED, with its counter signalled (R34). -/
def State.cancelArmed (s : State) (detail : Nat) (a : Armed) : State :=
  let x := (Launch.ofRecord a.rcd a.queue a.index).blame .cancelled causeCancel detail
  (({ s with launches := KMap.set s.launches a.number x } : State).closeLaunch a.number .cancelled).releaseAfter a.number a.graphKey

/-- A running thread of the scope keeps the cancel for its next PREPT; one on an open-ended wait takes the trap there. A request of it
that may still be parked is withdrawn first (R190). -/
def State.cancelThread (s : State) (detail t : Nat) (th : Thread) : State :=
  if th.halted then s
  else
    let th := { th with cancel := some detail }
    let s := s.setThread t th
    match th.wait with
    | .fullEmpty rid _ va => s.withdraw t th rid va
    | w =>
      if w.openEnded s then
        match s.breakWait t th with
        | some s =>
          let th := th.unissued
          if th.active then s.endThread t th .cancelled causeCancel detail
          else s.takeTrap t { th with cancel := none } causeCancel detail none th.pc
        | none => s
      else s

end Sys2Proof.Machine
end

