-- ==== Sys2Proof/Machine/FullEmpty.lean ====
section
/-!
DEFINITION. Full-empty words (R182 to R187): LDF, STF, LDFN, STFN, FECLR and FESET.
-/

namespace Sys2Proof.Machine

open Sys2Proof

/-- The checks of a full-empty access: an 8-byte word of a stash (R182). -/
def State.feAccess (s : State) (t : Nat) (th : Thread) (i : Instr) (va : Word) (f : State → Thread → Target → State) : State :=
  s.access t th i va { n := 8, align := 8, kind := kindStash, write := true } (fun s th x =>
    if s.aliasOverlap t th x va 8 then s.await t th (.overlap i (s.aliases t th x va 8)) else f s th x)

/-- A request to another stash whose answer the thread waits for. -/
def State.feWaited (s : State) (t : Nat) (th : Thread) (i : Instr) (va : Word) (x : Target) (what : StashOp) (w : Nat → Wait) : State :=
  s.gate t th i (fun s th =>
    let (rid, s) := s.takeRid
    match x with
    | .party tile off => (s.sendStash (stashReqOf t th rid 0 tile off va what false)).await t th (w rid)
    | .peerStash d => (s.sendPeer t th rid 0 d va (.stash what)).await t th (w rid)
    | _ => s.protection t th 3 va)

/-- A request to another stash that is posted under a tag (R185). -/
def State.fePosted (s : State) (t : Nat) (th : Thread) (i : Instr) (va : Word) (x : Target) (what : StashOp) (data : Word) : State :=
  s.gate t th i (fun s th =>
    match x with
    | .party tile off =>
      let (s, th, op) := s.takeTag t th va (s.homeOf x tile th.guest) (stashKeyOf x tile) 8 1 data
      (s.sendStash (stashReqOf t th 0 op tile off va what false)).retire t th
    | .peerStash d =>
      let (s, th, op) := s.takeTag t th va none none 8 1 data
      (s.sendPeer t th 0 op d va (.stash what)).retire t th
    | _ => s.protection t th 3 va)

/-- LDF or STF of the own stash parks: the thread leaves the rotation under a full-empty wait (R185). -/
def State.parkOwn (s : State) (t : Nat) (th : Thread) (off : Nat) (va : Word) (what : StashOp) (d : Option Reg) : State :=
  let (rid, s) := s.takeRid
  (s.parkRequest (stashReqOf t th rid 0 (tileOf th.home) off va what true)).await t th (.fullEmpty rid d va)

def execLdf (d a : Reg) (i : BitVec 10) (s : State) : Result :=
  onThread s 4 [d, a] (fun t th =>
    let va := s.addrM th a i
    s.feAccess t th (.ldf d a i) va (fun s th x => match x with
      | .own off => s.ownAccess t th (.ldf d a i) off va .ldf (fun s th v _ => s.result t th d v)
          (fun s th => s.parkOwn t th off va .ldf (some d))
      | _ => s.feWaited t th (.ldf d a i) va x .ldf (fun rid => .fullEmpty rid (some d) va)))

def execStf (d a : Reg) (i : BitVec 10) (s : State) : Result :=
  onThread s 4 [d, a] (fun t th =>
    let va := s.addrM th a i
    let v := s.readReg th d
    s.feAccess t th (.stf d a i) va (fun s th x => match x with
      | .own off => s.ownAccess t th (.stf d a i) off va (.stf v) (fun s th _ _ => s.retire t th)
          (fun s th => s.parkOwn t th off va (.stf v) none)
      | _ => s.fePosted t th (.stf d a i) va x (.stf v) v))

/-- The outcome of LDFN and STFN: the status guard, and LDFN's d when the word was full (R184). -/
def State.feStatus (s : State) (t : Nat) (th : Thread) (d : Option Reg) (q : BitVec 3) (v : Word) (ok late : Bool) : State :=
  let (s, th) := s.resolve t th q ok
  let (s, th) := match d with
    | some d => if ok then (if late then s.writeRegLate th d v else s.writeReg th d v) else (s, th)
    | none => (s, th)
  s.retire t th

def execLdfn (d a : Reg) (q : BitVec 3) (s : State) : Result :=
  onThread s 4 [d, a] (fun t th =>
    let va := s.readReg th a
    s.feAccess t th (.ldfn d a q) va (fun s th x => match x with
      | .own off => s.ownAccess t th (.ldfn d a q) off va .ldfn (fun s th v ok => s.feStatus t th (some d) q v ok false)
          (fun s th => s.setThread t th)
      | _ => s.feWaited t th (.ldfn d a q) va x .ldfn (fun rid => .feStatus rid (some d) q)))

def execStfn (a b : Reg) (q : BitVec 3) (s : State) : Result :=
  onThread s 4 [a, b] (fun t th =>
    let va := s.readReg th a
    let v := s.readReg th b
    s.feAccess t th (.stfn a b q) va (fun s th x => match x with
      | .own off => s.ownAccess t th (.stfn a b q) off va (.stfn v) (fun s th _ ok => s.feStatus t th none q 0 ok false)
          (fun s th => s.setThread t th)
      | _ => s.feWaited t th (.stfn a b q) va x (.stfn v) (fun rid => .feStatus rid none q)))

/-- FESET and FECLR: applied at once in the own stash, posted to another (R185). -/
def setBit (i : Instr) (a : Reg) (imm : BitVec 10) (what : StashOp) (s : State) : Result :=
  onThread s 4 [a] (fun t th =>
    let va := s.addrM th a imm
    s.feAccess t th i va (fun s th x => match x with
      | .own off => s.ownAccess t th i off va what (fun s th _ _ => s.retire t th) (fun s th => s.setThread t th)
      | _ => s.fePosted t th i va x what 0))

def execFeclr (a : Reg) (i : BitVec 10) (s : State) : Result := setBit (.feclr a i) a i .feclr s
def execFeset (a : Reg) (i : BitVec 10) (s : State) : Result := setBit (.feset a i) a i .feset s

end Sys2Proof.Machine
end

