-- ==== Sys2Proof/Machine/Matrix.lean ====
section
/-!
DEFINITION. The matrix unit (R220 to R225): its commands (R246 to R253), dispatch, and the events of its steps; sum-mode lines at
their homes (R201, R252, R253).
-/

namespace Sys2Proof.Machine

open Sys2Proof

/-! ## Instructions (R247, R252) -/

def execMstagea (g : Gd) (l : Bool) (a b : Reg) (s : State) : Result :=
  onThread s 4 [a, b] (fun t th =>
    let av := s.readReg th a
    let bv := s.readReg th b
    if av.toNat % 32 ≠ 0 then s.misaligned t th av
    else if bv.toNat % 32 ≠ 0 then s.misaligned t th bv
    else match s.spaceFault av kindOwn, s.spaceFault bv kindOwn with
      | some k, _ => s.protection t th k av
      | none, some k => s.protection t th k bv
      | none, none =>
        if !s.spaceOk th.guest av 32 then s.protection t th 2 av
        else if !s.spaceOk th.guest bv 1 then s.protection t th 2 bv
        else s.enqueue t th (.mstagea g l a b) g false 0 (.stageA l av bv))

def execMstageb (g : Gd) (l : Bool) (a b : Reg) (s : State) : Result :=
  onThread s 4 [a, b] (fun t th =>
    let av := s.readReg th a
    let bv := s.readReg th b
    if av.toNat % 32 ≠ 0 then s.misaligned t th av
    else if bv.toNat % 32 ≠ 0 then s.misaligned t th bv
    else match s.rangeFault th (stageRange av bv) false with
      | some k => s.protection t th k av
      | none => s.enqueue t th (.mstageb g l a b) g false 1 (.stageB l av bv))

def execMma (g : Gd) (f : Fmt) (n l : Bool) (s : State) : Result :=
  onThread s 4 [] (fun t th => s.enqueue t th (.mma g f n l) g false 2 (.mma f n l))

def execMflush (g : Gd) (n : Bool) (a : Reg) (s : State) : Result :=
  onThread s 4 [a] (fun t th =>
    let av := s.readReg th a
    if av.toNat % 128 ≠ 0 then s.misaligned t th av
    else match s.rangeFault th (av.toNat, 1024) true with
      | some k => s.protection t th k av
      | none => s.enqueue t th (.mflush g n a) g false 3 (.mflush n av))

def execMflushSum (g : Gd) (n : Bool) (a b : Reg) (s : State) : Result :=
  onThread s 4 [a, b] (fun t th =>
    let av := s.readReg th a
    let p := (s.readReg th b).toNat
    if av.toNat % 1024 ≠ 0 then s.misaligned t th av
    else match s.spaceFault av kindGlobal with
      | some k => s.protection t th k av
      | none =>
        if 64 ≤ p then s.illegalState t th
        else s.enqueue t th (.mflushSum g n a b) g false 4 (.mflushSum n av p))

def execMclr (g : Gd) (n : Bool) (s : State) : Result :=
  onThread s 4 [] (fun t th => s.enqueue t th (.mclr g n) g false 5 (.mclr n))

/-- ACCDECL (R252): its checks, then its guard; the thread waits until the home has applied the declaration. -/
def execAccdecl (g : Gd) (a b : Reg) (s : State) : Result :=
  onThread s 4 [a, b] (fun t th =>
    let av := s.readReg th a
    let p := (s.readReg th b).toNat
    let i := Instr.accdecl g a b
    if av.toNat % 1024 ≠ 0 then s.misaligned t th av
    else match s.spaceFault av kindGlobal with
      | some k => s.protection t th k av
      | none =>
        if p < 1 ∨ 64 < p then s.illegalState t th
        else s.access t th i av { n := 1024, align := 1024, kind := kindGlobal, write := false } (fun s th x =>
          match x with
          | .global va pa =>
            if !s.pageWrites th (low56 av) then s.protection t th 5 av
            else if (List.range 8).any (fun j => (s.regionAt (pa + 128 * j)).isSome) then s.protection t th 6 av
            else match (match g with | none => Guard.tt | some q => th.q[q.toNat]) with
              | .ff => s.retire t th
              | .unresolved => s.illegalState t th
              | .tt => s.gate t th i (fun s th =>
                let (rid, s) := s.takeRid
                (s.send (placeOfSlot th.home) (chanThread t (lineOf pa)) Config.latHome
                  (.declarationAtHome (accessOf t th rid va pa 1024) p)).await t th (.declare rid))
          | _ => s.protection t th 3 av))

/-! ## Latches and accumulators -/

def MatrixState.latchA (m : MatrixState) (l : Bool) : Latch := if l then m.a1 else m.a0
def MatrixState.latchB (m : MatrixState) (l : Bool) : Latch := if l then m.b1 else m.b0
def MatrixState.setA (m : MatrixState) (l : Bool) (x : Latch) : MatrixState := if l then { m with a1 := x } else { m with a0 := x }
def MatrixState.setB (m : MatrixState) (l : Bool) (x : Latch) : MatrixState := if l then { m with b1 := x } else { m with b0 := x }
def MatrixState.acc (m : MatrixState) (n : Bool) : List (BitVec 32) := if n then m.acc1 else m.acc0
def MatrixState.setAcc (m : MatrixState) (n : Bool) (x : List (BitVec 32)) : MatrixState :=
  if n then { m with acc1 := x } else { m with acc0 := x }
def MatrixState.accBy (m : MatrixState) (n : Bool) (x : Option Issuer) : MatrixState := if n then { m with by1 := x } else { m with by0 := x }

def State.modMx (s : State) (tile : Nat) (f : MatrixState → MatrixState) : State := s.modTile tile (fun x => { x with mx := f x.mx })

/-- The lines of an accumulator in memory order (R251). -/
def accLines (acc : List (BitVec 32)) : List Line :=
  (List.range 8).map (fun j => ((acc.drop (32 * j)).take 32).flatMap (fun w => bytesOf w.toNat 4))

/-- acc + A·B for one output (R217, R250). -/
def mmaElem (f : Fmt) (core : Nat) (a b : Nat) (acc : BitVec 32) : BitVec 32 := accAdd core acc (BitVec.ofNat 32 (dot f core a b))

/-- The accumulator after an MMA of the given operand rows. -/
def mmaAcc (f : Fmt) (core : Nat) (as bs : List Line) (acc : List (BitVec 32)) : List (BitVec 32) :=
  (List.range 256).map (fun e =>
    mmaElem f core (natOfBytes ((as[e / 16]?).getD [])) (natOfBytes ((bs[e % 16]?).getD [])) ((acc[e]?).getD 0))

/-! ## Dispatch (R221, R222, R225) -/

/-- Whether a running command still uses an accumulator: a flush during its read-out, an MMA or MCLR until it ends. -/
def flushes (n : Bool) (c : Cmd) : Bool :=
  match c.kind with
  | .mflush m _ => m == n && c.pos == 0
  | .mflushSum m _ _ => m == n && c.pos == 0
  | _ => false
def writesAcc (n : Bool) (c : Cmd) : Bool :=
  match c.kind with
  | .mma _ m _ => m == n
  | .mclr m => m == n
  | _ => false
def clears (n : Bool) (c : Cmd) : Bool := match c.kind with | .mclr m => m == n | _ => false
def isMma (c : Cmd) : Bool := match c.kind with | .mma _ _ _ => true | _ => false

/-- The conditions of R222 that the unit's own state decides. -/
def Tile.unitFree (x : Tile) (k : CmdKind) : Bool :=
  match k with
  | .stageA l _ _ => (x.mx.latchA l).st == .free
  | .stageB l _ _ => (x.mx.latchB l).st == .free
  | .mma _ n l => (x.mx.latchA l).st == .full && (x.mx.latchB l).st == .full && !x.mrun.any isMma && !x.mrun.any (clears n) &&
      !x.mrun.any (flushes n)
  | .mflush n _ => !x.mrun.any (writesAcc n)
  | .mflushSum n _ _ => !x.mrun.any (writesAcc n)
  | .mclr n => !x.mrun.any (writesAcc n) && !x.mrun.any (flushes n)
  | .copy _ => false

/-- Whether the head of the matrix queue dispatches in this cycle. -/
def State.dispatches (s : State) (tile : Nat) (c : Cmd) : Bool :=
  let x := s.tile tile
  c.held.isNone && !x.mxSwitch && x.mxOwner.all (· == c.guest) && x.unitFree c.kind && !s.blocked tile c

/-- The head is another guest's, and every command ahead of it has finished: the unit changes over its state (R225). A flush has finished when
the last of its stores is acknowledged (DEDUCED, log entry 84). -/
def State.switches (s : State) (tile : Nat) (c : Cmd) : Bool :=
  let x := s.tile tile
  !x.mxSwitch && x.mxOwner.any (· != c.guest) && x.mrun.isEmpty

/-- The sixteen rows that an MSTAGEB names (R249). -/
def stageRowAddrs (a b : Word) : List (Nat × Word) := (List.range 16).map (fun j => (j, a + BitVec.ofNat 64 j * b))

/-- The parts in which line j of a flush leaves: whole, but for a peer, which takes eight bytes at a time. -/
def State.flushParts (s : State) (va : Word) (j : Nat) (bs : Line) : List EngReq :=
  let piece := fun (off n : Nat) => ({ rid := 0, row := j, off := off, va := va + BitVec.ofNat 64 (128 * j + off), n := n
                                       data := some ((bs.drop off).take n), stuck := none } : EngReq)
  match s.spaceOf va with
  | .peer _ => (List.range 16).map (fun i => piece (8 * i) 8)
  | .peerStash _ => (List.range 16).map (fun i => piece (8 * i) 8)
  | _ => [piece 0 128]

/-- The lines of a flush leave as stores in the dispatch cycle (R224). -/
def State.flushSend (s : State) (tile : Nat) (c : Cmd) (a : Word) (acc : List (BitVec 32)) : State :=
  (((accLines acc).zip (List.range 8)).flatMap (fun p => s.flushParts a p.2 p.1)).foldl (fun (s : State) r => s.engSend tile c r) s

/-- The head command dispatches: it leaves the queue and starts (R221, R222, R224). -/
def State.dispatch (s : State) (tile : Nat) (c : Cmd) : State :=
  let x := s.tile tile
  let start := fun (c : Cmd) (f : MatrixState → MatrixState) =>
    (s.modTile tile (fun x =>
      let x := x.setQueue false (x.mqueue.filter (fun y => y.id != c.id))
      { x with mrun := x.mrun ++ [c], mx := f x.mx, mxOwner := some c.guest })).letIn tile false 1
  let filling : Latch := { st := .filling, rows := [], by_ := some c.issuer }
  match c.kind with
  | .stageA l a _ => (start c (fun m => m.setA l filling)).engRow tile c 16 a 32
  | .stageB l a b =>
    (stageRowAddrs a b).foldl (fun (s : State) r => s.engRow tile c r.1 r.2 96) (start { c with pos := 1 } (fun m => m.setB l filling))
  | .mma _ n l =>
    let c := { c with rows := (x.mx.latchA l).rows ++ (x.mx.latchB l).rows }
    (start c (fun m => ((m.setA l .init).setB l .init).accBy n (some c.issuer))).engPost tile c 8 (.mmaComplete tile c.id)
  | .mclr n => (start c (fun m => m.accBy n (some c.issuer))).engPost tile c 1 (.mclrComplete tile c.id)
  | .mflush n a => ((start c id).flushSend tile c a (x.mx.acc n)).engPost tile c 8 (.flushReadoutComplete tile c.id)
  | .mflushSum n a _ => ((start c id).flushSend tile c a (x.mx.acc n)).engPost tile c 8 (.flushReadoutComplete tile c.id)
  | .copy _ => s

/-- The head and up to three commands behind it dispatch, each under the same test (R222). -/
def State.dispatchUpTo (s : State) (tile : Nat) : (fuel : Nat) → State
  | 0 => s
  | fuel + 1 =>
    match (s.tile tile).mqueue.head? with
    | none => s
    | some c =>
      if s.switches tile c then
        (s.modTile tile (fun x => { x with mxSwitch := true })).engPost tile c 256 (.matrixContextSwitch tile c.guest)
      else if s.dispatches tile c then (s.dispatch tile c).dispatchUpTo tile fuel
      else s

/-- MATRIX_DISPATCH. -/
def execMatrixDispatch (s : State) : Result :=
  onEvent s (fun s e => match e with
    | .matrixDispatch tile => some (s.dispatchUpTo tile 4)
    | _ => none)

/-- MATRIX_CONTEXT_SWITCH: the outgoing guest's 8 KiB go to its context save area, the incoming guest's are loaded, and a guest's
first command finds latches FREE and accumulators at +0 (R225). -/
def execMatrixContextSwitch (s : State) : Result :=
  onEvent s (fun s e => match e with
    | .matrixContextSwitch tile g => some (s.modTile tile (fun x =>
        let saved := match x.mxOwner with
          | some o => KMap.set x.mxSaved o.toNat x.mx
          | none => x.mxSaved
        { x with mxSaved := KMap.erase saved g.toNat, mx := KMap.getD saved g.toNat .init, mxOwner := some g, mxSwitch := false }))
    | _ => none)

/-! ## Completion -/

/-- The running matrix command of a number. -/
def State.running (s : State) (tile id : Nat) : Option Cmd := (s.tile tile).mrun.find? (fun c => c.id == id)

/-- The index vector of an MSTAGEA, and the rows that it names (R248). -/
def gatherRowAddrs (b : Word) (v : Line) : List (Nat × Word) :=
  (List.range 16).map (fun i => (i, b + BitVec.ofNat 64 (96 * fieldAt v (2 * i) 2)))

/-- The answer to a read of a stage: with the index vector, the rows are read; with the last row, staging begins (R224, R248, R249). -/
def State.stageGot (s : State) (tile id : Nat) : State :=
  match s.running tile id with
  | none => s
  | some c =>
    if !c.reqs.isEmpty || c.faulted.isSome then s
    else match c.kind with
      | .stageA _ _ b =>
        if c.pos = 0 then
          let rows := gatherRowAddrs b (c.row 16)
          match rows.find? (fun r => Config.stashBytes < low56 r.2 + 96) with
          | some r => s.engFail tile c r.2 2
          | none => rows.foldl (fun (s : State) r => s.engRow tile c r.1 r.2 96) (s.modCmd tile id (fun c => { c with pos := 1 }))
        else (s.modCmd tile id (fun c => { c with pos := 2 })).engPost tile c 16 (.stageAComplete tile id)
      | .stageB _ _ _ => (s.modCmd tile id (fun c => { c with pos := 2 })).engPost tile c 12 (.stageBComplete tile id)
      | _ => s

/-- The latch that a stage fills. -/
def Cmd.fills (c : Cmd) : Latch := { st := .full, rows := (List.range 16).map c.row, by_ := some c.issuer }

/-- STAGE_A_COMPLETE: the last row is in, and the latch is FULL (R221, R248). -/
def execStageAComplete (s : State) : Result :=
  onEvent s (fun s e => match e with
    | .stageAComplete tile id => some (
      match s.running tile id with
      | some c => match c.kind with
        | .stageA l _ _ => (s.modMx tile (fun m => m.setA l c.fills)).finishCmd tile c
        | _ => s
      | none => s)
    | _ => none)

/-- STAGE_B_COMPLETE (R221, R249). -/
def execStageBComplete (s : State) : Result :=
  onEvent s (fun s e => match e with
    | .stageBComplete tile id => some (
      match s.running tile id with
      | some c => match c.kind with
        | .stageB l _ _ => (s.modMx tile (fun m => m.setB l c.fills)).finishCmd tile c
        | _ => s
      | none => s)
    | _ => none)

/-- MMA_COMPLETE (R224, R250). -/
def execMmaComplete (s : State) : Result :=
  onEvent s (fun s e => match e with
    | .mmaComplete tile id => some (
      match s.running tile id with
      | some c => match c.kind with
        | .mma f n _ =>
          (s.modMx tile (fun m => m.setAcc n (mmaAcc f c.self (c.rows.take 16) (c.rows.drop 16) (m.acc n)))).finishCmd tile c
        | _ => s
      | none => s)
    | _ => none)

/-- MCLR_COMPLETE (R224, R251). -/
def execMclrComplete (s : State) : Result :=
  onEvent s (fun s e => match e with
    | .mclrComplete tile id => some (
      match s.running tile id with
      | some c => match c.kind with
        | .mclr n => (s.modMx tile (fun m => m.setAcc n (List.replicate 256 0))).finishCmd tile c
        | _ => s
      | none => s)
    | _ => none)

/-- A flush has finished when its read-out has ended and its stores are acknowledged. -/
def State.flushDone (s : State) (tile id : Nat) : State :=
  match s.running tile id with
  | some c => if c.pos = 1 ∧ c.reqs = [] ∧ c.faulted.isNone then s.finishCmd tile c else s
  | none => s

/-- FLUSH_READOUT_COMPLETE: the accumulator may be written again (R222, R224). -/
def execFlushReadoutComplete (s : State) : Result :=
  onEvent s (fun s e => match e with
    | .flushReadoutComplete tile id => some (
      match s.running tile id with
      | some c => match c.kind with
        | .mflush _ _ => (s.modCmd tile id (fun c => { c with pos := 1 })).flushDone tile id
        | .mflushSum _ _ _ => (s.modCmd tile id (fun c => { c with pos := 1 })).flushDone tile id
        | _ => s
      | none => s)
    | _ => none)

/-! ## Faults (R226) -/

/-- ENGINE_FAULT: a page fault goes under service and holds the issuing thread at its next issue; any other failure discards the
command. -/
def execEngineFault (s : State) : Result :=
  onEvent s (fun s e => match e with
    | .engineFault tile id va kind code => some (
      match (s.tile tile).cmd? id with
      | some (copy, c) =>
        if kind = 1 then s.modCmd tile id (fun c => { c with faulted := some (c.faulted.getD va) })
        else s.discard tile copy c va kind code
      | none => s)
    | _ => none)

/-- GROUP_WATCHDOG: the head of a queue has waited ENGWD cycles and is discarded (R226). -/
def execGroupWatchdog (s : State) : Result :=
  onEvent s (fun s e => match e with
    | .groupWatchdog tile copy => some (
      match ((s.tile tile).queue copy).head? with
      | some c =>
        s.discard tile copy c 0 3 0
      | none => s)
    | _ => none)

/-- The service of a command's page fault has ended: it goes on from where it stopped, or is discarded (R226). Its thread goes on with
it. -/
def State.engineServiced (s : State) (t id : Nat) (mapped : Bool) : State :=
  let found := s.tiles.findSome? (fun p => (p.2.cmd? id).bind (fun r => r.2.faulted.map (fun va => (p.1, r.1, r.2, va))))
  let s := match found with
    | some (tile, copy, c, va) =>
      if mapped then (s.modCmd tile id (fun c => { c with faulted := none })).engAgain tile id true
      else s.discard tile copy c va 1 0
    | none => s
  match s.thread? t with
  | some th => match th.wait with
    | .engineFault _ k _ => if k = id then s.setThread t { th with wait := .none, waitWid := th.waitWid + 1 } else s
    | _ => s
  | none => s

/-! ## Sum-mode lines at their homes (R201, R252, R253) -/

/-- The declaration's answer. -/
def State.answerDeclare (s : State) (a : Access) (err : Option Refused) : State :=
  s.replyAtomic a.who a.core Config.latHome { who := a.who, rid := a.rid, op := 0, old := 0, done := err.isNone, wts := 0, err := err }

/-- DECLARATION_AT_HOME (R252): stash holders are recalled, then all eight lines are declared or none. -/
def State.declareSum (s : State) (a : Access) (parts : Nat) : State :=
  let ls := (List.range 8).map (fun j => lineOf a.pa + j)
  match s.homeError a false with
  | some r => s.answerDeclare a (some r)
  | none =>
    match ls.find? (fun l => s.holding l || (s.line l).holder.isSome) with
    | some l => (s.holdMsg l (.declare a parts)).recallLine l
    | none =>
      if ls.any (fun l => (s.line l).sum.any (fun m => m.parts != parts)) then
        s.answerDeclare a (some { cause := causeIllegalState, detail := 0, addr := a.va })
      else
        (ls.foldl (fun s l => s.modLine l (fun h => match h.sum with
          | some _ => h
          | none => { h.touch false with sum := some { parts := parts, next := 0, acc := [], early := [], top := 0, parked := [] } })) s).answerDeclare
          a none

def execDeclarationAtHome (s : State) : Result :=
  onEvent s (fun s e => match e with
    | .declarationAtHome a parts => some (s.declareSum a parts)
    | _ => none)

/-- The words of a line, and a line of words. -/
def wordsOf (bs : Line) : List (BitVec 32) := (List.range 32).map (fun j => BitVec.ofNat 32 (fieldAt bs (4 * j) 4))
def lineOfWords (ws : List (BitVec 32)) : Line := ws.flatMap (fun w => bytesOf w.toNat 4)

/-- One part is added, and acknowledged with max(c, rts + 1) (R201, R253). -/
def State.addPart (s : State) (line : Nat) (m : Sum) (data : Line) (a : Access) : Sum × State :=
  let ws := wordsOf data
  let acc := if m.next = 0 then ws else (m.acc.zip ws).map (fun p => mergeAdd p.1 p.2)
  let rts := (s.line line).rts
  let w := maxW a.clock (if rts + 1 = 0 then rts else rts + 1)
  ({ m with acc := acc, next := m.next + 1, top := maxW m.top w }, s.replyStore a.who a.core Config.latHome a.rid w)

/-- The parts that can be added in order. -/
def State.addParts (s : State) (line : Nat) : (fuel : Nat) → Sum → Sum × State
  | 0, m => (m, s)
  | fuel + 1, m =>
    match m.early.find? (fun p => p.1 == m.next) with
    | some (_, d, a) =>
      let (m', s) := s.addPart line { m with early := m.early.filter (fun p => p.1 != m.next) } d a
      s.addParts line fuel m'
    | none => (m, s)

/-- The last part has been added: the line is an ordinary line with the merged value, and parked loads are answered (R253). -/
def State.completeMerge (s : State) (line : Nat) (m : Sum) : State :=
  let s := (s.homeWrite (line * 128) (lineOfWords m.acc)).modLine line (fun l =>
    { l.touch true with sum := none, wts := m.top, rts := m.top, poison := none })
  let s := s.signal line Config.latHome m.top
  m.parked.foldl (fun s p => s.asOf p.2.2 (fun s => s.homeLoad p.1 p.2.1)) s

/-- SUM_PART_ARRIVAL (R253). -/
def State.sumPart (s : State) (a : Access) (part : Nat) (data : Line) : State :=
  let line := lineOf a.pa
  let refuse := fun (s : State) => s.refuseStore a.who a.core Config.latHome a.rid { cause := causeProtection, detail := 6, addr := a.va }
  match s.homeError a false with
  | some r => s.refuseStore a.who a.core Config.latHome a.rid r
  | none =>
    if s.holding line then s.holdMsg line (.part a part data)
    else match (s.line line).sum with
      | none =>
        -- a part for a failed merge is dropped (R143)
        if (s.line line).poison.isSome && (s.line line).poisonCode == 7 then s.replyStore a.who a.core Config.latHome a.rid 0
        else refuse s
      | some m =>
        if m.parts ≤ part || part < m.next || m.early.any (fun p => p.1 == part) then refuse s
        else
          let (m, s) := s.addParts line 64 { m with early := m.early ++ [(part, data, a)] }
          if m.next = m.parts then s.completeMerge line m else s.modLine line (fun l => { l with sum := some m })

def execSumPartArrival (s : State) : Result :=
  onEvent s (fun s e => match e with
    | .sumPartArrival a part data => some (s.sumPart a part data)
    | _ => none)

/-- MERGE_FAILURE (R143): the line is poisoned for its owner, and every parked request is answered with structure code 7. -/
def execMergeFailure (s : State) : Result :=
  onEvent s (fun s e => match e with
    | .mergeFailure pa => some (
      let line := lineOf pa
      match (s.line line).sum with
      | none => s
      | some m =>
        let o := s.ownerOf pa
        let s := s.modLine line (fun l => { l with sum := none, poison := some o.1, poisonGen := o.2, poisonCode := 7 })
        let s := m.early.foldl (fun s p => s.replyStore p.2.2.who p.2.2.core Config.latHome p.2.2.rid 0) s
        m.parked.foldl (fun s p => s.asOf p.2.2 (fun s => s.failLoad p.1 p.2.1 { cause := causeUncorrectable, detail := 7, addr := p.1.va })) s)
    | _ => none)

end Sys2Proof.Machine
end

