-- ==== Sys2Proof/Machine/Monitors.lean ====
section
/-!
DEFINITION. Monitors, MWAIT and SLEEP (R166, R191 to R195), the guard-slot instructions (R196), and the events that end their waits.
-/

namespace Sys2Proof.Machine

open Sys2Proof

/-! ## Guards (R196) -/

def execQset (q : BitVec 3) (a : Reg) (s : State) : Result :=
  onThread s 4 [a] (fun t th =>
    let (s', th') := s.resolve t th q (s.readReg th a != 0)
    s'.retire t th')
def execQclr (q : BitVec 3) (s : State) : Result := onThread s 4 [] (fun t th => s.retire t (th.clearGuard q))
def execQtest (d : Reg) (q : BitVec 3) (s : State) : Result := onThread s 4 [d] (fun t th => s.result t th d (th.q[q.toNat]).value)

/-! ## MON and MONCLR (R191, R192) -/

def Thread.disarm (th : Thread) (m : Nat) : Thread := { th with mons := th.mons.set (m % 4) { arm := 0, signal := none } }

def execMon (a : Reg) (m : BitVec 2) (s : State) : Result :=
  onThread s 4 [a] (fun t th =>
    let va := s.readReg th a
    let i := Instr.mon a m
    s.access t th i va { n := 1, align := 1, kind := kindMonitor, write := false } (fun s th x => s.gate t th i (fun s th =>
      let (arm, s) := s.takeRid
      let th := { th with mons := th.mons.set m.toNat { arm := arm, signal := none }, usedShared := true }
      let s := { s with arms := s.arms.filter (fun r => !(r.tid == t && r.m == m.toNat)) }
      match x with
      | .global _ pa =>
        (s.send (placeOfSlot th.home) (chanThread t (lineOf pa)) Config.latHome (.armRequest t m.toNat arm pa th.clock)).retire t th
      | .peer d => (s.sendPeer t th arm 0 d va (.arm m.toNat arm)).retire t th
      | _ => s.protection t th 3 va)))

def execMonclr (l : Bool) (m : BitVec 2) (s : State) : Result :=
  onThread s 4 [] (fun t th =>
    let s := { s with arms := s.arms.filter (fun r => !(r.tid == t && (l || r.m == m.toNat))) }
    s.retire t (if l then { th with mons := Vector.replicate 4 { arm := 0, signal := none } } else th.disarm m.toNat))

/-! ## MWAIT and SLEEP (R193 to R195) -/

def Thread.armed (th : Thread) : Bool := th.mons.toList.any (fun m => m.arm != 0)
def Thread.signalled (th : Thread) : Bool := th.mons.toList.any (fun m => m.arm != 0 && m.signal.isSome)

/-- Every received signal is consumed: the clock rises to each one's wts, and MONST records which and why (R194). -/
def Thread.consume (th : Thread) (now time intr : Bool) : Thread :=
  let ms := th.mons.toList
  let th := ms.foldl (fun (th : Thread) m => th.raise (m.signal.getD 0)) th
  let sig := (List.range 4).foldl (fun v j => v + (if ((ms[j]?).any (fun m => m.signal.isSome)) then 2 ^ j else 0)) 0
  { th with
    monst := BitVec.ofNat 64 (sig + (if now then 16 else 0) + (if time then 32 else 0) + (if intr then 64 else 0))
    mons := th.mons.map (fun m => { m with signal := none }) }

def execMwait (a : Reg) (s : State) : Result :=
  onThread s 4 [a] (fun t th =>
    let n := (s.readReg th a).toNat
    if th.signalled then s.retire t (th.consume true false false)
    else if !th.armed && n = 0 then s.illegalState t th
    else if n = 0 then s.await t th (.monitor none)
    else
      (s.post (placeOfSlot th.home) noChan (s.clk + n) t (.event (.mwaitTimeout t))).await t th (.monitor (some (s.clk + n))))

def execSleep (a : Reg) (s : State) : Result :=
  onThread s 4 [a] (fun t th =>
    let n := (s.readReg th a).toNat
    if n = 0 then s.retire t th
    else (s.post (placeOfSlot th.home) noChan (s.clk + n) t (.event (.sleepExpiry t))).await t th (.sleep (s.clk + n)))

/-! ## Their events -/

/-- Monitor m of thread t is armed with this number still: a later MON, a MONCLR or the thread's end cancels an arm (R191, R192). -/
def State.armStands (s : State) (t m arm : Nat) : Bool := (s.thread? t).any (fun th => (th.mons[m % 4]).arm == arm)

/-- An arm that ends in an uncorrectable error is kept by its thread as the loss of a posted access (R294, R301). -/
def State.loseArm (s : State) (t : Nat) (va : Word) : State :=
  match s.thread? t with
  | some th => s.loseAccess t th.launch
      { cause := causeUncorrectable, detail := 5, addr := some va, tag := th.lastTag.toNat, ef := none, fe := none } va
      (BitVec.ofNat 64 causeUncorrectable)
  | none => s

/-- An arm request at the home (R166, R191): recorded for the line, with its holder while a stash holds it; signalled at once where the
line has already moved past the thread's clock, or where the home cannot record it (log entry 15). A page under migration holds it (R121),
and that of a cancelled arm finds nothing to do. At a dead die it is a posted access that fails (R301). -/
def State.armHome (s : State) (t m arm pa : Nat) (clock : Word) : State :=
  let line := lineOf pa
  let w := (s.line line).wts
  if s.deadDies.contains (homeDie pa) then s.loseArm t (s.nameOf pa)
  else if !s.armStands t m arm then s
  else if s.frozen line then s.holdMsg line (.arm t m arm pa clock)
  else
    let (full, s) := s.flip Config.armFull
    let s := if full then s else { s with arms := s.arms ++ [{ tid := t, m := m, arm := arm, line := line, peer := none }] }
    if full || clock < w then s.send (s.placeOf (.thread t) 0) noChan Config.latHome (.monitorSignal t m arm w) else s

/-- ARM_REQUEST. -/
def execArmRequest (s : State) : Result :=
  onEvent s (fun s e => match e with
    | .armRequest t m arm pa clock => some (s.armHome t m arm pa clock)
    | _ => none)

/-- MONITOR_SIGNAL reaches the core: one of a cancelled arm is discarded; a waiting MWAIT completes (R191, R193). -/
def execMonitorSignal (s : State) : Result :=
  onEvent s (fun s e => match e with
    | .monitorSignal t m arm wts => some (match s.thread? t with
      | some th =>
        let x := th.mons[m % 4]
        if x.arm = arm ∧ arm ≠ 0 ∧ !th.halted then
          let th := { th with mons := th.mons.set (m % 4) { x with signal := some (maxW (x.signal.getD 0) wts) } }
          match th.wait with
          | .monitor _ => s.retire t (th.consume false false false)
          | _ => s.setThread t th
        else s
      | none => s)
    | _ => none)

/-- MWAIT_TIMEOUT: the counter has reached the wait's deadline (R193). -/
def execMwaitTimeout (s : State) : Result :=
  onEvent s (fun s e => match e with
    | .mwaitTimeout t => some (match s.thread? t with
      | some th => match th.wait with
        | .monitor (some d) => if d ≤ s.clk then s.retire t (th.consume false true false) else s
        | _ => s
      | none => s)
    | _ => none)

/-- INTERRUPT: one delivered to the slot by firmware ends an MWAIT (R193); a thread that waits in none takes nothing from it. -/
def execInterrupt (s : State) : Result :=
  onEvent s (fun s e => match e with
    | .interrupt t => some (match s.thread? t with
      | some th => match th.wait with
        | .monitor _ => s.retire t (th.consume false false true)
        | _ => s
      | none => s)
    | _ => none)

/-- SLEEP_EXPIRY (R195). -/
def execSleepExpiry (s : State) : Result :=
  onEvent s (fun s e => match e with
    | .sleepExpiry t => some (match s.thread? t with
      | some th => match th.wait with
        | .sleep d => if d ≤ s.clk then s.retire t th else s
        | _ => s
      | none => s)
    | _ => none)

end Sys2Proof.Machine
end

