-- ==== Sys2Proof/Machine/Ordering.lean ====
section
/-!
DEFINITION. Ordering and waiting for acknowledgements (R160, R175 to R181): FENCE, ACQ, REL, BIND, UNBIND and WAITACK.
-/

namespace Sys2Proof.Machine

open Sys2Proof

/-! ## Scopes (R160) -/

def State.isPeer (s : State) (va : Word) : Bool :=
  match s.spaceOf va with
  | .peer _ => true
  | .peerStash _ => true
  | _ => false

/-- The operations that a scope waits for, by their address. -/
def State.inScope (s : State) (c : Scope) (va : Word) : Bool :=
  match c with
  | .slot => false
  | .convoy => true
  | _ => !s.isPeer va

/-- Where the object of ACQ and REL may lie. -/
def scopeKind (c : Scope) (x : Space) : Bool :=
  match x with
  | .global => true
  | .own => true
  | .party => (match c with | .party => true | .dev => true | .convoy => true | _ => false)
  | .peer _ => (match c with | .convoy => true | _ => false)
  | .peerStash _ => (match c with | .convoy => true | _ => false)
  | _ => false

/-! ## FENCE and WAITACK (R175, R176) -/

def State.fenceDone (s : State) (t : Nat) (c : Scope) : Bool := (s.outstanding t).all (fun x => !s.inScope c x.va)
def State.ackDone (s : State) (t : Nat) (tag : BitVec 32) : Bool := (s.outstanding t).all (fun x => tag != 0 && x.tag != tag)

def execFence (c : Scope) (s : State) : Result :=
  onThread s 4 [] (fun t th => if s.fenceDone t c then s.retire t th else s.await t th (.fence c))

def execWaitack (a : Reg) (s : State) : Result :=
  onThread s 4 [a] (fun t th =>
    let tag := (s.readReg th a).setWidth 32
    if s.ackDone t tag then s.retire t th else s.await t th (.ackTag tag))

/-! ## BIND and UNBIND (R177, R178) -/

/-- The space of an address for BIND's range check: each device index and each tile of a stash counts as its own. -/
def bindSpace (va : Nat) : Nat × Nat :=
  let t := va / 2 ^ 56
  if t = 0 then (0, 0)
  else if t < 0x40 then (1, 0)
  else if t < 0x80 then (2, t)
  else if t = 0x80 ∨ t = 0x81 then (3, va / 2 ^ 17)
  else if t = 0x82 then (4, 0)
  else if t < 0xC0 then (5, 0)
  else (6, va / 2 ^ 17)

def execBind (a b d : Reg) (s : State) : Result :=
  onThread s 4 [a, b, d] (fun t th =>
    let obj := s.readReg th a
    let base := s.readReg th b
    let len := s.readReg th d
    let known := th.bindings.any (fun x => x.obj == obj && x.base == base)
    if obj.toNat % 8 ≠ 0 then s.misaligned t th obj
    else if len = 0 ∨ 2 ^ 36 < len.toNat ∨ 2 ^ 64 < base.toNat + len.toNat ∨
        bindSpace base.toNat ≠ bindSpace (base.toNat + len.toNat - 1) then s.illegalState t th
    else if Config.bindings ≤ th.bindings.length && !known then s.illegalState t th
    else
      let x : Binding := { obj := obj, base := base, len := len }
      s.retire t { th with bindings :=
        if known then th.bindings.map (fun y => if y.obj == obj && y.base == base then x else y) else th.bindings ++ [x] })

def execUnbind (a b : Reg) (s : State) : Result :=
  onThread s 4 [a, b] (fun t th =>
    let obj := s.readReg th a
    let base := s.readReg th b
    s.retire t { th with bindings := th.bindings.filter (fun y => !(y.obj == obj && y.base == base)) })

/-! ## REL and ACQ (R179 to R181) -/

/-- Whether a REL of the object still waits: an operation in the scope's spaces to a range bound to the object. -/
def State.relWaits (s : State) (t : Nat) (th : Thread) (c : Scope) (obj : Word) : Bool :=
  (s.outstanding t).any (fun x => s.inScope c x.va &&
    th.bindings.any (fun y => y.obj == obj && overlaps y.base.toNat y.len.toNat x.va.toNat x.len))

def execRel (c : Scope) (a : Reg) (s : State) : Result :=
  onThread s 4 [a] (fun t th =>
    let obj := s.readReg th a
    let i := Instr.rel c a
    if c = .slot then s.retire t th
    else s.access t th i obj { n := 8, align := 8, kind := scopeKind c, write := true } (fun s th x =>
      if s.relWaits t th c obj then s.await t th (.relWait i)
      else
        let away := fun (s : State) (f : State → Thread → Nat → State) => s.gate t th i (fun s th =>
          let (rid, s) := s.takeRid
          (f s th rid).await t th (.relPub rid))
        match x with
        | .own off => s.ownAccess t th i off obj .publish (fun s th _ _ => s.retire t th) (fun s th => s.setThread t th)
        | .global va pa => away s (fun s th rid =>
            s.send (placeOfSlot th.home) (chanThread t (lineOf pa)) Config.latHome (.publication (accessOf t th rid va pa 8)))
        | .party tile off => away s (fun s th rid => s.sendStash (stashReqOf t th rid 0 tile off obj .publish false))
        | .peer d => away s (fun s th rid => s.sendPeer t th rid 0 d obj (.stash .publish))
        | .peerStash d => away s (fun s th rid => s.sendPeer t th rid 0 d obj (.stash .publish))
        | .loc _ => s.protection t th 3 obj))

def execAcq (c : Scope) (a : Reg) (s : State) : Result :=
  onThread s 4 [a] (fun t th =>
    let obj := s.readReg th a
    let i := Instr.acq c a
    if c = .slot then s.retire t th
    else s.access t th i obj { n := 8, align := 8, kind := scopeKind c, write := false } (fun s th x =>
      let away := fun (s : State) (f : State → Thread → Nat → State) => s.gate t th i (fun s th =>
        let (rid, s) := s.takeRid
        (f s th rid).await t th (.acq rid))
      match x with
      | .own off => s.ownAccess t th i off obj .acq (fun s th v _ => s.retire t (th.raise v)) (fun s th => s.setThread t th)
      | .global va pa => away s (fun s th rid =>
          s.send (placeOfSlot th.home) (chanThread t (lineOf pa)) Config.latHome (.homeLoad (accessOf t th rid va pa 8) .acq))
      | .party tile off => away s (fun s th rid => s.sendStash (stashReqOf t th rid 0 tile off obj .acq false))
      | .peer d => away s (fun s th rid => s.sendPeer t th rid 0 d obj (.stash .acq))
      | .peerStash d => away s (fun s th rid => s.sendPeer t th rid 0 d obj (.stash .acq))
      | .loc _ => s.protection t th 3 obj))

end Sys2Proof.Machine
end

