-- ==== Sys2Proof/Machine/Threads.lean ====
section
/-!
DEFINITION. Thread control (R81 to R92): SPAWN, REAP, rendezvous, YIELD, PREPT, PIN, UNPIN and RSELF.
-/

namespace Sys2Proof.Machine

open Sys2Proof

/-! ## SPAWN and REAP (R81 to R83) -/

/-- The per-core quota of a thread's launch. -/
def State.quotaOf (s : State) (th : Thread) : Nat :=
  match s.launch? th.launch with
  | some l => l.rcd.quota
  | none => 1

/-- The pre-emption distance of a thread's launch. -/
def State.distOf (s : State) (th : Thread) : Nat :=
  match s.launch? th.launch with
  | some l => l.rcd.dist
  | none => 65536

/-- The registers of a spawned thread (R82). -/
def spawnRegs (x : Vector Word 32) : Vector Word 32 :=
  ((((Vector.replicate 32 (0 : Word)).set 3 x[3]).set 4 x[4]).set 5 x[5]).set 6 x[6]

/-- The thread that SPAWN starts in a slot at an address (R82). -/
def Thread.child (th : Thread) (t slot : Nat) (pc : Word) : Thread :=
  Thread.start slot th.guest th.gen th.launch th.unit (some t) (spawnRegs th.x) pc th.lts th.stashm th.priv th.tvec

/-- A slot of the core is occupied for context zero where a thread of its own guest holds it: until the slots of a tile have passed, two
guests have each their own (R81, R278; DEDUCED, log entry 68). -/
def State.spawnTaken (s : State) (slot : Nat) (g : BitVec 8) : Bool := s.threads.any (fun p => p.2.home == slot && p.2.guest == g)

def execSpawn (a b : Reg) (s : State) : Result :=
  onThread s 4 [a, b] (fun t th =>
    let k := (s.readReg th a).toNat
    let start := s.readReg th b
    let slot := coreOf th.home * 16 + k
    if slotIn th.home ≠ 0 then s.illegalInstr t th
    else if k < s.quotaOf th ∨ 15 < k then s.illegalState t th
    else if s.spawnTaken slot th.guest then s.illegalState t th
    else if start.getLsbD 0 then s.misaligned t th start
    else (s.addThread (s.entering (th.child t slot start))).retire t th)

def execReap (d a : Reg) (s : State) : Result :=
  onThread s 4 [d, a] (fun t th =>
    let k := (s.readReg th a).toNat
    if slotIn th.home ≠ 0 then s.illegalInstr t th
    else if k < s.quotaOf th ∨ 15 < k then s.illegalState t th
    else match s.threads.find? (fun p => p.2.home == coreOf th.home * 16 + k && p.2.guest == th.guest) with
      | none => s.illegalState t th
      | some (c, dead) => if s.reapable c dead then s.reaped t th d c dead false else s.await t th (.reap d k))

/-! ## Rendezvous (R84 to R88) -/

def rdvReserved (v : Word) : Nat := v.toNat / 2 ^ 38
def rdvWaiters (v : Word) : Nat := bits v.toNat 32 5
def rdvPending (v : Word) : Nat := bits v.toNat 16 16
def rdvArrived (v : Word) : Nat := bits v.toNat 0 16

/-- The waiters of a core that the closing of object k releases (R88). -/
def closesOn (core : Nat) (g : BitVec 8) (k : BitVec 5) (arrived : Nat) (th : Thread) : Bool :=
  coreOf th.home == core && th.guest == g && arrived.testBit (slotIn th.home) &&
    (match th.wait with | .rdv k' _ phase _ => k' == k && phase == 0 | _ => false)

/-- The phase closes (R86, R87): its waiters are those whose bits are set, which are marked with the phase's own number, and it completes
8 cycles later. -/
def State.closePhase (s : State) (t : Nat) (th : Thread) (k : BitVec 5) (arrived : Nat) : State :=
  let core := coreOf th.home
  let phase := s.nextRid
  let closed := fun (p : Nat × Thread) =>
    if closesOn core th.guest k arrived p.2 then
      match p.2.wait with
      | .rdv k q _ c => (p.1, { p.2 with wait := .rdv k q phase c })
      | _ => p
    else p
  ({ s with threads := s.threads.map closed, nextRid := phase + 1 } : State).post (placeOfSlot th.home) noChan (s.clk + Config.latRdv) t
    (.event (.rdvPhaseCompletion core th.guest k t phase))

def execRdv (a : BitVec 5) (q : BitVec 3) (s : State) : Result :=
  onThread s 4 [.k a] (fun t th =>
    let v := s.readReg th (.k a)
    let me := slotIn th.home
    if rdvReserved v ≠ 0 ∨ rdvWaiters v = 0 ∨ 16 < rdvWaiters v then s.illegalState t th
    else if rdvPending v ≠ 0 ∨ popCount 16 (rdvArrived v) = rdvWaiters v then
      let (s, th) := s.resolve t th q false
      s.retire t th
    else if (rdvArrived v).testBit me then s.illegalState t th
    else
      let arrived := rdvArrived v + 2 ^ me
      let (s, th) := s.writeReg th (.k a) (setBits v 0 16 arrived)
      let s := s.await t th (.rdv a q 0 th.lts)
      if popCount 16 arrived = rdvWaiters v then s.closePhase t th a arrived else s)

/-- The object that RDV.INIT writes (R85). -/
def rdvObject (n : Nat) : Word := BitVec.ofNat 64 (n * 2 ^ 32)

def execRdvInitReg (a : BitVec 5) (b : Reg) (s : State) : Result :=
  onThread s 4 [.k a, b] (fun t th =>
    let n := (s.readReg th b).toNat
    if n < 1 ∨ 16 < n then s.illegalState t th else s.result t th (.k a) (rdvObject n))

def execRdvInitImm (a : BitVec 5) (i : BitVec 10) (s : State) : Result :=
  onThread s 4 [.k a] (fun t th => s.result t th (.k a) (rdvObject i.toNat))

/-- One waiter's RDV completes: its guard true, its clock raised, and its PENDING bit due at its next issue. -/
def State.releaseWaiter (s : State) (top : Word) (t : Nat) (th : Thread) : State :=
  match th.wait with
  | .rdv k q _ _ =>
    let (s, th) := s.resolve t th q true
    s.retire t { th.raise top with pendClear := some k }
  | _ => s

/-- RDV_PHASE_COMPLETION (R87). The object is written at the end of the cycle, on behalf of the closing slot (R48). -/
def execRdvPhaseCompletion (s : State) : Result :=
  onEvent s (fun s e => match e with
    | .rdvPhaseCompletion core g k closing phase => some (
      let ws := s.threads.filter (fun p => coreOf p.2.home == core && p.2.guest == g &&
        (match p.2.wait with | .rdv k' _ n _ => k' == k && n == phase | _ => false))
      let top := ws.foldl (fun m p => match p.2.wait with | .rdv _ _ _ c => maxW m c | _ => m) 0
      let slot := match s.thread? closing with | some th => slotIn th.home | none => 0
      let u : RdvUpdate := { core := core, guest := g, k := k, slot := slot, base := s.kread core g k, waiters := ws.map (·.1) }
      ws.foldl (fun s p => match s.thread? p.1 with | some th => s.releaseWaiter top p.1 th | none => s)
        { s with rdvUpdates := s.rdvUpdates ++ [u] })
    | _ => none)

/-! ## YIELD, PREPT, PIN, UNPIN and RSELF (R89 to R92) -/

def yieldOp (len : Nat) (s : State) : Result := onThread s len [] (fun t th => s.retire t { th with yielded := true })
def execYield (s : State) : Result := yieldOp 4 s
def execYield16 (s : State) : Result := yieldOp 2 s

/-- PREPT: the distance counter is cleared, and then at most one pending event takes effect: a cancel, a convoy stop, or a slice
hand-over (R90, R278, R292, R324). -/
def preptOp (len : Nat) (s : State) : Result :=
  onThread s len [] (fun t th =>
    let th := { th with dist := 0 }.advance
    match th.cancel with
    | some d =>
      if th.active then s.endThread t th .cancelled causeCancel d
      else s.takeTrap t { th with cancel := none } causeCancel d none th.pc
    | none =>
      if s.stopsHere th then s.setThread t { th with stopped := true }
      else if s.passes th then s.saveThread t th
      else s.setThread t th)

def execPrept (s : State) : Result := preptOp 4 s
def execPrept16 (s : State) : Result := preptOp 2 s

def execPin (s : State) : Result := onThread s 4 [] (fun t th => s.retire t { th with pin := true })
def execUnpin (s : State) : Result := onThread s 4 [] (fun t th => s.retire t { th with pin := false })

/-- The field of SELF that RSELF writes. -/
def selfField (f : SelfField) (v : Nat) : Nat :=
  match f with
  | .all => v
  | .slot => bits v 0 4
  | .core => bits v 4 4
  | .tile => bits v 8 6
  | .lodge => bits v 14 6

def execRself (x : SelfField) (d : Reg) (s : State) : Result :=
  onThread s 4 [d] (fun t th => s.result t th d (BitVec.ofNat 64 (selfField x (s.selfOf th))))

end Sys2Proof.Machine
end

