-- ==== Sys2Proof/Machine/Reply.lean ====
section
/-!
DEFINITION. What reaches a core, a stash or a home: answers and acknowledgements (R138, R151, R152), refusals (R187, R376), stash
fills, write-backs and recalls (R104 to R107, R155, R156), translations and the end of fault services (R118, R295).
-/

namespace Sys2Proof.Machine

open Sys2Proof

/-! ## Acknowledgements -/

/-- What an acknowledgement, or the loss of an operation, lets thread t go on with (R26, R115, R175, R176, R180). -/
def State.wakeOnAck (s : State) (t : Nat) : State :=
  match s.thread? t with
  | some th =>
    match th.wait with
    | .ackTag tag => if s.ackDone t tag then s.retire t th.seesAcks else s
    | .fence c => if s.fenceDone t c then s.retire t th.seesAcks else s
    | .relWait i => match i with
      | .rel c a => if s.relWaits t th c (s.waitedReg th a) then s else s.resumeWith t i id
      | _ => s
    | .overlap i _ => s.resumeWith t i (fun (th : Thread) => { th with forceHome := true })
    | _ => s
  | none => s

/-- An acknowledgement of a launch's operation raises its thread's clock; of one whose thread has ended, its guest's FLOOR, which stands at
least at that thread's clock (R154). -/
def State.raiseIssuer (s : State) (x : Tagged) (last : Bool) (wts : Word) : State :=
  let s := s.modThread x.tid (fun th =>
    let seen := th.acked + (if last then 1 else 0)
    { th.raiseAck wts with acked := seen })
  if (s.thread? x.tid).any (fun th => !th.halted) then s
  else match s.launch? x.launch with
    | some l => s.raiseFloor l.rcd.guest wts
    | none => s

/-- A store of a command is acknowledged, or answered by a peer: it raises the command's clock (R161). -/
def State.engAcked (s : State) (tile id rid : Nat) (wts : Word) : State :=
  let s := s.modCmd tile id (fun c => { c with
    clock := maxW c.clock wts, reqs := c.reqs.filter (fun r => !(r.data.isSome && r.rid == rid)) })
  (s.flushDone tile id).copyDone tile id

/-- One acknowledgement of an operation: with a time, it raises its thread's clock or its command's; without one, it does not. -/
def State.ackOp (s : State) (op : Nat) (wts : Option Word) : State :=
  match s.tagged.find? (fun (x : Tagged) => x.op == op) with
  | none => s
  | some x =>
    let last := x.left ≤ 1
    let s := { s with tagged :=
      if last then s.tagged.filter (fun (y : Tagged) => y.op != op)
      else s.tagged.map (fun (y : Tagged) => if y.op = op then { y with left := y.left - 1 } else y) }
    match x.engine with
    | some (tile, id) =>
      (s.engAcked tile id op (wts.getD 0)).checkLaunch x.launch
    | none => (((s.raiseIssuer x last (wts.getD 0)).wakeOnAck x.tid).settle x.tid).checkLaunch x.launch

/-- STORE_ACK (R152, R156): the operation is acknowledged, or a stash line leaves its write-back buffer. -/
def State.storeAcked (s : State) (op : Nat) (wts : Word) (wb : Option (Nat × Nat)) : State :=
  let s := { s with peerOut := s.peerOut.filter (fun (o : PeerOut) => !(o.op == op && op != 0)) }
  let s := match wb with
    | some (tile, line) => s.modTile tile (fun x => { x with wbuf := x.wbuf.eraseP (fun w => w.line == line) })
    | none => s
  if op = 0 then s else s.ackOp op (some wts)

def execStoreAck (s : State) : Result :=
  onEvent s (fun s e => match e with
    | .storeAck op wts wb => some (s.storeAcked op wts wb)
    | _ => none)

/-! ## Refusals of posted accesses (R376) -/

/-- An operation of an engine is refused: its command fails with the kind and code of the refusal (R226, R340). -/
def State.refuseEngine (s : State) (tile id : Nat) (r : Refused) : State :=
  match (s.tile tile).cmd? id with
  | some (copy, c) =>
    if r.cause = causePageFault then s.discard tile copy c r.addr 1 0
    else if r.cause = causeUncorrectable then s.discard tile copy c r.addr 4 r.detail
    else s.discard tile copy c r.addr 2 0
  | none => s

/-- The event that a lost posted access leaves for the second group of R294. -/
def lostEvent (r : Refused) (tag : Nat) (fe : Option (Word × Word)) : TrapEvent :=
  { cause := r.cause, detail := r.detail, addr := some r.addr, tag := tag, ef := none, fe := fe }

/-- A posted operation is lost: its tag is acknowledged without raising the clock, and its thread keeps the loss. -/
def State.losePosted (s : State) (op : Nat) (r : Refused) (fe : Bool) : State :=
  match s.tagged.find? (fun (x : Tagged) => x.op == op) with
  | none => s
  | some x =>
    match x.engine with
    | some (tile, id) =>
      (({ s with tagged := s.tagged.filter (fun (y : Tagged) => y.op != op) } : State).refuseEngine tile id r).checkLaunch x.launch
    | none =>
      let e := lostEvent r x.tag.toNat (if fe then some (x.va, x.data) else none)
      (s.ackOp op none).loseAccess x.tid x.launch e x.va (if fe then x.data else BitVec.ofNat 64 r.cause)

/-- POSTED_REFUSAL. -/
def execPostedRefusal (s : State) : Result :=
  onEvent s (fun s e => match e with
    | .postedRefusal op r => some (({ s with peerOut := s.peerOut.filter (fun (o : PeerOut) => !(o.op == op && op != 0)) } : State).losePosted op r false)
    | _ => none)

/-! ## Loads -/

/-- A request number of a peer request is answered. -/
def State.closePeer (s : State) (rid : Nat) : State :=
  if rid = 0 then s else { s with peerOut := s.peerOut.filter (fun (o : PeerOut) => o.rid != rid) }

/-- The copies that a reply leaves (R125, R151). -/
def State.fillCaches (s : State) (th : Thread) (r : LoadReply) : State :=
  let c : Copy := { line := r.line, guest := th.guest, gen := th.gen, data := r.data, wts := r.wts, rts := r.rts }
  match r.kind with
  | .core => (s.l1Fill (coreOf th.home) c).l2Fill (s.dieOfTile (tileOf th.home)) c
  | .l2 => s.l1Fill (coreOf th.home) c
  | .ldc => s.modTile (tileOf th.home) (fun x => { x with const := (c :: x.const).take Config.constLines })
  | _ => s

/-- The bytes of a reply that a load asked for. -/
def replyBytes (r : LoadReply) (va : Word) (n : Nat) : Line :=
  match r.kind with
  | .core => (r.data.drop (va.toNat % 128)).take n
  | .l2 => (r.data.drop (va.toNat % 128)).take n
  | .ldc => (r.data.drop (va.toNat % 128)).take n
  | _ => r.data.take n

/-- Whether a wait is for a reply with this number. -/
def Wait.expects (w : Wait) (rid : Nat) : Bool :=
  match w with
  | .load r _ => r == rid
  | .gather g => g.asks rid
  | .acq r => r == rid
  | .atomic r _ _ _ _ => r == rid
  | .fullEmpty r _ _ => r == rid
  | .feStatus r _ _ => r == rid
  | .relPub r => r == rid
  | .declare r => r == rid
  | _ => false

/-- A load's reply reaches its thread. ACQ takes the object's value from a home, and the line's stamp from a stash (R155, R181). -/
def State.threadReply (s : State) (t : Nat) (th : Thread) (r : LoadReply) : State :=
  match r.err with
  | some e => if th.wait.expects r.rid then s.trapHere t th e.cause e.detail (some e.addr) else s
  | none =>
    let s := s.fillCaches th r
    if !th.wait.expects r.rid then s
    else match th.wait with
      | .load _ l =>
        let th := if r.kind = .ldc then th else th.raise r.wts
        s.landLoad t th l (l.value (replyBytes r l.va l.n)) true
      | .gather g => s.gatherArrive t th g r.rid
          (BitVec.ofNat 64 (natOfBytes (replyBytes r (g.addrs.getD (r.rid - g.base) 0) g.width))) r.wts
      | .acq _ => s.retire t ((if r.kind = .acq then th else th.raise r.wts).raise (BitVec.ofNat 64 (natOfBytes (r.data.take 8))))
      | _ => s

/-- What a read of a command brings, part of a row of a stage or of a group of elements of a copy, raises the command's clock (R161). -/
def State.engGot (s : State) (tile id rid : Nat) (bs : Line) (wts : Word) : State :=
  match (s.tile tile).cmd? id with
  | some (copy, c) => match c.reqs.find? (fun r => r.data.isNone && r.rid == rid) with
    | some r =>
      let s := s.modCmd tile id (fun c => { c with
        clock := maxW c.clock wts, reqs := c.reqs.filter (fun q => !(q.data.isNone && q.rid == rid))
        got := KMap.set c.got (r.row * 128 + r.off) bs })
      if copy then s.copyGot tile id r.row else s.stageGot tile id
    | none => s
  | none => s

/-- LOAD_REPLY (R151). -/
def State.loadReplied (s : State) (r : LoadReply) : State :=
  match r.who with
  | .thread t => match (s.closePeer r.rid).thread? t with
    | some th => (s.closePeer r.rid).threadReply t th r
    | none => s.closePeer r.rid
  | .engine tile id => match r.err with
    | some e => if r.rid = 0 then s else (s.closePeer r.rid).refuseEngine tile id e
    | none => (s.closePeer r.rid).engGot tile id r.rid r.data r.wts
  | _ => s

def execLoadReply (s : State) : Result :=
  onEvent s (fun s e => match e with
    | .loadReply r => some (s.loadReplied r)
    | _ => none)

/-! ## Atomics, and the answers of stashes -/

/-- The answer to a waited request reaches its thread. -/
def State.threadAnswer (s : State) (t : Nat) (th : Thread) (r : AtomicReply) : State :=
  match th.wait with
  | .atomic _ d n zero _ =>
    let (s, th) := s.writeRegLate (th.raise r.wts) d (amoResult n zero r.old)
    s.retire t th
  | .fullEmpty _ d _ =>
    let (s, th) := match d with
      | some d => s.writeRegLate (th.raise r.wts) d r.old
      | none => (s, th.raise r.wts)
    s.retire t th
  | .feStatus _ d q => s.feStatus t (th.raise r.wts) d q r.old r.done true
  | .relPub _ => s.retire t (th.raise r.wts)
  | .acq _ => s.retire t ((th.raise r.wts).raise r.old)
  | .declare _ => s.retire t th
  | _ => s

/-- A waited request is refused: a precise trap that leaves the slot's tags as they were (R287), but for REL's publication, which counts as
posted (R376). An illegal state has no address (R289). -/
def State.threadRefused (s : State) (t : Nat) (th : Thread) (e : Refused) : State :=
  match th.wait with
  | .relPub _ => (s.retire t th).loseAccess t th.launch (lostEvent e th.lastTag.toNat none) e.addr (BitVec.ofNat 64 e.cause)
  | _ => s.trapHere t th.unissued e.cause e.detail (if e.cause = causeIllegalState then none else some e.addr)

/-- ATOMIC_REPLY (R138, R180, R181, R184, R252); that of a completion counter raises FLOOR (R154). An ACQ's from a peer's home carries no time of
the line, one from a holder there its stamp (R155, R181). -/
def State.atomicReplied (s : State) (r : AtomicReply) : State :=
  match r.who with
  | .thread t =>
    let s := if r.err.isSome then (s.peerOut.filter (fun o => o.rid == r.rid && r.rid != 0 && (o.what matches .arm _ _))).foldl
        (fun (s : State) o => s.loseArm o.tid o.va) s
      else s
    let s := s.closePeer r.rid
    let s := match r.err with
      | some _ => if r.op = 0 ∨ r.rid = 0 then s else s.ackOp r.op none
      | none => if r.op = 0 then s else s.ackOp r.op (some r.wts)
    match s.thread? t with
    | some th =>
      if r.rid = 0 then (match r.err with | some e => s.losePosted r.op e false | none => s)
      else if !th.wait.expects r.rid then s
      else match r.err with
        | some e => s.threadRefused t th e
        | none => s.threadAnswer t th r
    | none => match r.err with
      | some e => if r.rid = 0 then s.losePosted r.op e false else s
      | none => s
  | .engine tile id => match r.err with
    | some e => if r.rid = 0 then s else (s.closePeer r.rid).refuseEngine tile id e
    | none => (s.closePeer r.rid).engAcked tile id r.rid r.wts
  | .front => if r.err.isSome then s else s.raiseFloor (BitVec.ofNat 8 r.rid) r.wts
  | _ => s

def execAtomicReply (s : State) : Result :=
  onEvent s (fun s e => match e with
    | .atomicReply r => some (s.atomicReplied r)
    | _ => none)

/-! ## At the homes -/

def execHomeLoad (s : State) : Result :=
  onEvent s (fun s e => match e with
    | .homeLoad a k => some (s.homeLoad a k)
    | _ => none)
def execHomeStore (s : State) : Result :=
  onEvent s (fun s e => match e with
    | .homeStore a op data => some (s.homeStore a op data)
    | _ => none)
def execHomeAtomic (s : State) : Result :=
  onEvent s (fun s e => match e with
    | .homeAtomic a op o b d => some (s.homeAtomic a op o b d)
    | _ => none)
def execPublication (s : State) : Result :=
  onEvent s (fun s e => match e with
    | .publication a => some (s.publish a)
    | _ => none)
def execStashWriteBack (s : State) : Result :=
  onEvent s (fun s e => match e with
    | .stashWriteBack w => some (s.homeWriteBack w)
    | _ => none)
def execDropMessage (s : State) : Result :=
  onEvent s (fun s e => match e with
    | .dropMessage tile idx line reg op => some (s.homeDrop tile idx line reg op)
    | _ => none)

/-- RECALL_ANSWER (R107, R155, R156): applied while its registration stands; then the requests that waited go on. -/
def State.recallAnswered (s : State) (line tile : Nat) (stamp reg : Word) (fe : BitVec 16) (data : Option Line)
    (bad : Option (BitVec 8 × BitVec 8)) : State :=
  let s := if (s.line line).holder == some (tile, reg) then (s.endRegistration line stamp fe data bad).release line else s
  s.send (placeOfStash tile) (chanToStash tile line) Config.latHome (.storeAck 0 (s.line line).wts (some (tile, line)))

def execRecallAnswer (s : State) : Result :=
  onEvent s (fun s e => match e with
    | .recallAnswer line tile stamp reg fe data bad => some (s.recallAnswered line tile stamp reg fe data bad)
    | _ => none)

/-! ## At the stashes -/

/-- RECALL reaches the holder (R107, R156): it answers with its data and keeps the line in its buffer until that is
acknowledged. A line that it has given up already is on its way to the home. -/
def State.recalled (s : State) (line tile : Nat) : State :=
  match s.stashIndex tile line with
  | some i => match s.stashLine? tile i with
    | some l =>
      let changed := l.dirty || (s.tile tile).wbuf.any (fun w => w.line == line && w.reg == l.reg)
      let w : WriteBack := { tile := tile, idx := i, line := line, data := s.stashData tile i, fe := l.fe, stamp := l.stamp
                             reg := l.reg, drop := true, op := 0, bad := l.bad }
      let s := (s.modTile tile (fun x => { x with wbuf := x.wbuf ++ [w] })).dropStashLine tile i
      s.send (placeOfStash tile) (chanToHome tile line) 50
        (.recallAnswer line tile l.stamp l.reg l.fe (if changed then some w.data else none) l.bad)
    | none => s
  | none => s

def execRecallHolder (s : State) : Result :=
  onEvent s (fun s e => match e with
    | .recallHolder line tile => some (s.recalled line tile)
    | _ => none)

/-- FORWARDED_LOAD (R155, R156): answered from the resident copy or the write-back buffer; the reply fills no cache. -/
def State.forwarded (s : State) (line tile : Nat) (reg : Word) (a : Access) (k : LoadKind) : State :=
  match s.holderData tile line reg with
  | some (d, st, bad) =>
    if bad then s.replyLoad a.who a.core 60 (failedLoad a k { cause := causeUncorrectable, detail := 2, addr := a.va })
    else s.replyLoad a.who a.core 60
      { who := a.who, rid := a.rid, line := line, data := (d.drop (a.pa % 128)).take a.n, wts := if k = .ldc then 0 else st, rts := 0
        kind := .bare, err := none }
  | none => s.post (s.placeOf a.who a.core) noChan (s.clk + 1) s.cur (.event (.homeLoad a k))

def execForwardedLoad (s : State) : Result :=
  onEvent s (fun s e => match e with
    | .forwardedLoad line tile reg a k => some (s.forwarded line tile reg a k)
    | _ => none)

/-- The threads that wait for the fill of a stash line. -/
def State.fillWaiters (s : State) (tile idx : Nat) : List (Nat × Thread) :=
  s.threads.filter (fun p => match p.2.wait with | .fill t i _ _ => t == tile && i == idx | _ => false)

/-- What waited for a line: a thread of the tile since its instruction's issue, or a remote request since its arrival. -/
inductive Waited where
  | own (t : Nat) (th : Thread)
  | remote (w : FillWaiter)

/-- Its cycle, and its place among the accesses of one cycle (R155). -/
def State.waitedKey (s : State) : Waited → Nat × Nat
  | .own t th => (th.lastIssue.getD 0, s.stashPlace (.thread t) (tileOf th.home))
  | .remote w => (w.at_, s.stashPlace w.req.who w.req.src)

def State.waitedFirst (s : State) (x y : Waited) : Bool :=
  let a := s.waitedKey x
  let b := s.waitedKey y
  a.1 < b.1 || (a.1 == b.1 && a.2 ≤ b.2)

/-- What waited for a line goes on in this cycle, before anything else reaches the tile (R263), in the order of R155. -/
def State.wakeFill (s : State) (tile idx : Nat) : State :=
  let ws := ((s.tile tile).fillWait.filter (fun w => w.idx == idx)).map Waited.remote ++
    (s.fillWaiters tile idx).map (fun p => Waited.own p.1 p.2)
  let s := s.modTile tile (fun x => { x with fillWait := x.fillWait.filter (fun w => w.idx != idx) })
  let sorted := ws.foldl (fun (l : List Waited) w => l.takeWhile (s.waitedFirst · w) ++ w :: l.dropWhile (s.waitedFirst · w)) []
  sorted.foldl (fun (s : State) w => match w with
    | .own t th => (match th.wait with
      | .fill _ _ _ i => s.resumeAt placeOfHeld t i id
      | _ => s)
    | .remote w => s.post placeOfHeld noChan s.clk s.cur (.event (.remoteStashAccess w.req))) s

/-- A fill ends in an error: the waiting accesses fail. -/
def State.failFill (s : State) (tile idx : Nat) (e : Refused) : State :=
  let rs := (s.tile tile).fillWait.filter (fun w => w.idx == idx)
  let s := s.modTile tile (fun x => { x with fillWait := x.fillWait.filter (fun w => w.idx != idx) })
  let s := (s.fillWaiters tile idx).foldl (fun (s : State) p => match p.2.wait with
    | .fill _ _ va _ => s.trapHere p.1 p.2 e.cause e.detail (some va)
    | _ => s) s
  rs.foldl (fun (s : State) w => s.refuseReq w.req { e with addr := w.req.va }) s

/-- STASH_FILL (R104, R155). The line takes the place of one of an older generation (R280); requests that its words let through are applied
(R186). A line that no longer backs its offset goes back at once, and the fill is asked for anew. -/
def State.filled (s : State) (tile idx line : Nat) (data : Line) (fe : BitVec 16) (stamp : Word) (err : Option Refused) : State :=
  let s := s.modTile tile (fun x => { x with filling := x.filling.filter (· != idx) })
  match err with
  | some e => s.failFill tile idx e
  | none =>
    let g := s.bankGuest tile (idx * 128)
    let l : StashLine := { line := line, guest := g, gen := (s.guest g).gen, dirty := false, stamp := stamp, reg := stamp, fe := fe
                           poison := false }
    match s.stashLine? tile idx with
    | some old =>
      if old.line = line then ((s.setStashLine tile idx { old with reg := stamp, stamp := maxW old.stamp stamp }).drainLine tile idx).wakeFill tile idx
      else (s.postWriteBack tile idx l data true 0).wakeFill tile idx
    | none =>
      if (s.backingPa tile (idx * 128) g).any (fun pa => lineOf pa == line) then
        (((s.writeMem (stashKey tile (idx * 128)) data).setStashLine tile idx l).drainLine tile idx).wakeFill tile idx
      else (s.postWriteBack tile idx l data true 0).wakeFill tile idx

def execStashFill (s : State) : Result :=
  onEvent s (fun s e => match e with
    | .stashFill tile idx line data fe stamp err => some (s.filled tile idx line data fe stamp err)
    | _ => none)

def execRemoteStashAccess (s : State) : Result :=
  onEvent s (fun s e => match e with
    | .remoteStashAccess r => some (s.remoteStash r)
    | _ => none)

/-! ## Full park tables (R187) -/

/-- The thread waits on this request. -/
def Thread.waitsOn (th : Thread) (r : StashReq) : Bool :=
  match th.wait with
  | .fullEmpty rid _ _ => rid == r.rid
  | _ => false

/-- PARK_TABLE_REFUSAL reaches the sending core (R187), which counts the refusals of the request. -/
def State.parkRefused (s : State) (r : StashReq) : State :=
  let out := s.peerOut.find? (fun (o : PeerOut) => o.rid == r.rid && o.op == r.op)
  let k := (match out with | some o => o.refusals | none => r.refusals) + 1
  let s := { s with peerOut := s.peerOut.filter (fun (o : PeerOut) => !(o.rid == r.rid && o.op == r.op)) }
  match r.who with
  | .thread t =>
    let back := fun (s : State) (th : Option Thread) =>
      let place := match th with | some th => placeOfSlot th.home | none => placeOfFront
      s.post place noChan (s.clk + 16 * 2 ^ min (k - 1) 6) t (.event (.feResend { r with refusals := k }))
    let limit := fun (tile : Nat) => (s.tile tile).feretry ≤ k
    match s.thread? t with
    | some th =>
      if stashPosted r then
        if limit (tileOf th.home) then s.losePosted r.op { cause := causeFeRetry, detail := 1, addr := r.va } true else back s (some th)
      else if !th.waitsOn r then s
      else if th.hasPending then s.takePending t th
      else if limit (tileOf th.home) then s.trapHere t th causeFeRetry 0 (some r.va)
      else back s (some th)
    | none =>
      if !stashPosted r then s
      else if limit r.src then s.losePosted r.op { cause := causeFeRetry, detail := 1, addr := r.va } true else back s none
  | .peer d rid w => s.answerPeer d rid w 0 false 0 (some { cause := causeFeRetry, detail := 0, addr := r.va })
  | _ => s

def execParkTableRefusal (s : State) : Result :=
  onEvent s (fun s e => match e with
    | .parkTableRefusal r => some (s.parkRefused r)
    | _ => none)

/-- FE_RESEND: the request travels to the holding tile again (R187), unless its thread has something to take instead (R190, R294). -/
def State.resend (s : State) (r : StashReq) : State :=
  match r.who with
  | .thread t =>
    let th? := s.thread? t
    if !stashPosted r && !(th?.any (fun th => th.waitsOn r)) then s
    else if !stashPosted r && th?.any (fun th => th.hasPending) then (th?.map (fun th => s.takePending t th)).getD s
    else if r.own then s.remoteStash r
    else match s.spaceOf r.va with
      | .peerStash d => s.leavePeer r.guest
          { rid := r.rid, tid := t, va := r.va, dev := d, what := .stash r.what, clock := r.clock, stamp := none, op := r.op, sentAt := 0
            held := false, turn := s.turn, refusals := r.refusals, redirected := false, again := false, parked := false, eng := none
            named := s.namedAt r.guest d
            launch := match th? with
              | some th => th.launch
              | none => ((s.tagged.find? (fun (x : Tagged) => x.op == r.op)).map (fun (x : Tagged) => x.launch)).getD 0 }
      | _ => s.sendStash r
  | _ => s

def execFeResend (s : State) : Result :=
  onEvent s (fun s e => match e with
    | .feResend r => some (s.resend r)
    | _ => none)

/-- Whether a request is the one with number rid that thread t waits on. -/
def reqOf (r : StashReq) (t rid : Nat) : Bool := r.who == .thread t && r.rid == rid && !stashPosted r

/-- A retry of the request that is on its way. -/
def retries (t rid : Nat) (p : Pending) : Bool :=
  match p.work with
  | .event (.feResend r) => reqOf r t rid
  | .event (.parkTableRefusal r) => reqOf r t rid
  | .event (.remoteStashAccess r) => reqOf r t rid
  | _ => false

/-- WITHDRAWAL (R190): a request that has not been applied yet is removed, and its thread takes what it was woken for. -/
def State.withdrawn (s : State) (t : Nat) : State :=
  match s.thread? t with
  | some th => match th.wait with
    | .fullEmpty rid _ va =>
      let peer := match s.spaceOf va with | .peerStash _ => true | _ => false
      let found := peer || s.agenda.any (retries t rid) ||
        s.tiles.any (fun p => p.2.park.any (fun x => reqOf x.req t rid) || p.2.fillWait.any (fun x => reqOf x.req t rid))
      if found then
        let s : State := { s.closePeer rid with
          agenda := s.agenda.filter (fun p => !retries t rid p)
          tiles := s.tiles.map (fun p => (p.1, { p.2 with
            park := p.2.park.filter (fun x => !reqOf x.req t rid)
            fillWait := p.2.fillWait.filter (fun x => !reqOf x.req t rid) })) }
        s.takePending t th
      else s
    | _ => s
  | none => s

def execWithdrawal (s : State) : Result :=
  onEvent s (fun s e => match e with
    | .withdrawal t => some (s.withdrawn t)
    | _ => none)

/-! ## Queues, translations and faults -/

/-- SEND_QUEUE_FREE (R26). -/
def execSendQueueFree (s : State) : Result :=
  onEvent s (fun s e => match e with
    | .sendQueueFree t => some (match s.thread? t with
      | some th => match th.wait with
        | .sendQueue i => s.resumeWith t i (fun (th : Thread) => { th with queued := true })
        | _ => s
      | none => s)
    | _ => none)

/-- TRANSLATION_INSTALLED (R118, R120): the tile TLB or a walk answers; a page fault goes under service; a page under migration
holds the thread. -/
def State.translated (s : State) (t : Nat) (th : Thread) (i : Instr) (va : Word) : State :=
  let tile := tileOf th.home
  match s.tlbFind (s.tile tile).tlb 0 th.guest (low56 va) with
  | some _ => s.resumeWith t i id
  | none => match s.walk th.guest (low56 va) with
    | .page e => (s.modTile tile (fun x => { x with tlb := s.tileTlbInstall e x.tlb })).resumeWith t i id
    | .none => s.await t th (.fault va)
    | .frozen _ => s.await t th (.frozen (some i))

/-- The translation of a fetch answers: the thread is back in the rotation and fetches anew, or its page is faulted in or thawed first. With
an OVERRUN pending, a page fault is not serviced: the thread takes OVERRUN (R57). -/
def State.fetchTranslated (s : State) (t : Nat) (th : Thread) (va : Word) : State :=
  match s.tilePage (tileOf th.home) th.guest (low56 va) with
  | .page e => (s.warmTlb th.home e).setThread t th.rejoin
  | .none => if s.distOf th < th.dist then s.trapHere t th causeOverrun 0 none else s.await t th (.fault va)
  | .frozen _ => s.await t th (.frozen none)

def execTranslationInstalled (s : State) : Result :=
  onEvent s (fun s e => match e with
    | .translationInstalled t => some (match s.thread? t with
      | some th => match th.wait with
        | .tlb i va => s.translated t th i va
        | .fetchTlb va => s.fetchTranslated t th va
        | .slockWalk i => s.resumeWith t i id
        | _ => s
      | none => s)
    | _ => none)

/-- Firmware's writes to the inverted tables and anchor arrays take effect (R119, R120). -/
def State.install (s : State) (x : Tables) : State :=
  x.anchors.foldl (fun (s : State) p => s.putAnchor p.1 p.2) (x.frames.foldl (fun (s : State) p => s.putFrame p.1 p.2) s)

/-- Fills that had no translation of their backing page are tried again. -/
def State.retryFills (s : State) : State :=
  s.tiles.foldl (fun (s : State) p => p.2.fillWait.foldl (fun (s : State) q =>
    (s.startFill p.1 q.idx q.req.guest).getD s) s) s

/-- A declined page: the requests of thread t that wait for it at another tile's stash are refused (R295). -/
def State.declineFills (s : State) (t : Nat) : State :=
  s.tiles.foldl (fun (s : State) p =>
    let stuck := fun (q : FillWaiter) => q.req.who == .thread t && !(s.tile p.1).filling.contains q.idx
    let rs := (s.tile p.1).fillWait.filter stuck
    let s := s.modTile p.1 (fun x => { x with fillWait := x.fillWait.filter (fun q => !stuck q) })
    rs.foldl (fun (s : State) q => s.refuseReq q.req { cause := causePageFault, detail := 0, addr := q.req.va }) s) s

/-- FAULT_SERVICE_END of a fault of thread t (R295), or of its command with a number (R226): the front desk has mapped the page, or
declines to. -/
def State.faultServed (s : State) (t : Nat) (cmd : Option Nat) (mapped : Option Tables) : State :=
  let s := match mapped, cmd with
    | some x, _ => (s.install x).retryFills
    | none, none => s.declineFills t
    | none, some _ => s
  match cmd with
  | some id => s.engineServiced t id mapped.isSome
  | none => match s.thread? t with
    | some th => match th.wait with
      | .fault va => if mapped.isSome then s.setThread t th.rejoin else s.trapHere t th causePageFault 0 (some va)
      | .engineFault _ 0 _ => s.setThread t { th with wait := .none, waitWid := th.waitWid + 1 }
      | _ => s
    | none => s

def execFaultServiceEnd (s : State) : Result :=
  onEvent s (fun s e => match e with
    | .faultServiceEnd t cmd mapped => some (s.faultServed t cmd mapped)
    | _ => none)

end Sys2Proof.Machine
end

