-- ==== Sys2Proof/Machine/Expert.lean ====
section
/-!
DEFINITION. The expert register set (R314, R373) and the registers it reaches: tile settings, LEASE (R150), GQOS (R281), the format
region registers (R228, R229), SNAPCTL and SNAPAT (R371).
-/

namespace Sys2Proof.Machine

open Sys2Proof

/-! ## GQOS (R281) -/

def Gqos.toNat (q : Gqos) : Nat :=
  q.lockq * 2 ^ 40 + q.ceil * 2 ^ 35 + q.floor * 2 ^ 30 + q.vc * 2 ^ 27 + q.tickets * 2 ^ 16 + q.share

def Gqos.ofNat (n : Nat) : Gqos :=
  { lockq := bits n 40 16, ceil := bits n 35 5, floor := bits n 30 5, vc := bits n 27 3, tickets := bits n 16 8, share := bits n 0 11 }

/-- A value that no limit of the register's own map refuses. -/
def Gqos.legal (n : Nat) : Bool :=
  let q := Gqos.ofNat n
  bits n 56 8 == 0 && bits n 24 3 == 0 && bits n 11 5 == 0 && q.ceil ≤ 16 && q.floor ≤ q.ceil && (q.vc == 0 || 4 ≤ q.vc) &&
    q.tickets != 0 && q.share ≤ 1024

/-- A write to GQOS of a guest on a tile: ignored when it breaks a limit or a sum over the tile's guests. -/
def Tile.writeGqos (x : Tile) (g : BitVec 8) (v : Word) : Tile :=
  let others := (x.guests.filter (fun p => p.1 != g.toNat)).map (fun p => p.2.gqos)
  let q := Gqos.ofNat v.toNat
  if Gqos.legal v.toNat && (others.map (·.floor)).sum + q.floor ≤ 8 && (others.map (·.share)).sum + q.share ≤ 1024 then
    x.modGuest g (fun y => { y with gqos := q })
  else x

/-! ## Format regions (R228, R229) -/

def Region.ctl (r : Region) : Nat :=
  (if r.en then 2 ^ 63 else 0) + (if r.err then 2 ^ 62 else 0) + r.guest.toNat * 2 ^ 48 + r.block * 2 ^ 32 + r.dfmt * 16 + r.sfmt

/-- The format of a code of R53. -/
def fmtOfCode (c : Nat) : Option Fmt :=
  ([.l4, .l6, .l8, .l12, .f8n, .f8w, .h16, .bf16, .f32, .s4, .s8, .s16, .s32, .s64] : List Fmt)[c]?

/-- Bytes of n elements of a format. -/
def imageBytes (f : Fmt) (n : Nat) : Nat := (n * fmtBits f + 7) / 8

/-- Whether an enabling write is refused (R229): `others` are the die's other enabled regions. -/
def Region.refused (r : Region) (die : Nat) (others : List Region) : Bool :=
  match fmtOfCode r.sfmt, fmtOfCode r.dfmt with
  | some sf, some df =>
    let n := (r.dlim - r.dbase) * 8 / fmtBits df
    let stored := (r.sbase, imageBytes sf n)
    let scales := (r.scale, 2 * ((n + r.block - 1) / max r.block 1))
    let inStack := fun (x : Nat × Nat) => die * 2 ^ 36 ≤ x.1 && x.1 + x.2 ≤ (die + 1) * 2 ^ 36
    !regionPair sf df || r.block < 32 || 65504 < r.block || r.block % 32 != 0 || r.dlim ≤ r.dbase ||
      r.dbase % 128 != 0 || r.dlim % 128 != 0 || r.sbase % 128 != 0 || r.scale % 128 != 0 || !inStack stored || !inStack scales ||
      others.any (fun o => overlaps o.dbase (o.dlim - o.dbase) r.dbase (r.dlim - r.dbase) ||
        overlaps o.dbase (o.dlim - o.dbase) stored.1 stored.2 || overlaps o.dbase (o.dlim - o.dbase) scales.1 scales.2)
  | _, _ => true

def State.region (s : State) (die n : Nat) : Region := KMap.getD s.regions (die * 64 + n) .init
def State.setRegion (s : State) (die n : Nat) (r : Region) : State := { s with regions := KMap.set s.regions (die * 64 + n) r }

/-- A write to FRCTL (R229): one that sets EN is checked; reserved bits make it ignored (R6). One that is refused for EN stores the other fields
all the same (DESIGN CHOICE, log entry 79). -/
def State.writeFrctl (s : State) (die n : Nat) (v : Word) : State :=
  let w := v.toNat
  if bits w 56 6 ≠ 0 ∨ bits w 8 24 ≠ 0 then s
  else
    let r := { s.region die n with guest := BitVec.ofNat 8 (bits w 48 8), block := bits w 32 16, dfmt := bits w 4 4, sfmt := bits w 0 4 }
    if bits w 63 1 = 1 then
      let others := (s.regions.filter (fun p => p.1 / 64 == die && p.1 != die * 64 + n && p.2.en)).map (·.2)
      if r.refused die others then s.setRegion die n { r with en := false, err := true }
      else s.setRegion die n { r with en := true, err := false }
    else s.setRegion die n { r with en := false }

/-- A write to an address register of a region: 39 bits, the rest reserved. -/
def State.writeRegion (s : State) (die n : Nat) (v : Word) (f : Region → Nat → Region) : State :=
  if v.toNat / 2 ^ 39 ≠ 0 then s else s.setRegion die n (f (s.region die n) v.toNat)

/-! ## Snapshots (R371) -/

/-- A write to SNAPCTL: reserved bits or a refused source make it ignored as a whole; FIRED keeps its value until ARM is set. -/
def State.writeSnapctl (s : State) (v : Word) : State :=
  let w := v.toNat
  let src := bits w 8 4
  if bits w 12 50 ≠ 0 ∨ 2 < src then s
  else
    let arm := bits w 63 1
    let fired := if arm = 1 then 0 else bits s.snapctl.toNat 62 1
    { s with
      snapctl := BitVec.ofNat 64 (arm * 2 ^ 63 + fired * 2 ^ 62 + src * 256 + bits w 0 8)
      snapDue := if arm = 1 then (if src = 0 then some (s.clk + 64) else none) else none }

/-! ## Any expert register -/

/-- The value of an expert register, of a tile's or of a memory-side die's. -/
def State.expertRead (s : State) (tile die : Nat) (r : ExpertReg) : Word :=
  let x := s.tile tile
  match r with
  | .feretry => BitVec.ofNat 64 x.feretry
  | .engwd => BitVec.ofNat 64 x.engwd
  | .slice => BitVec.ofNat 64 x.slice
  | .courierThreshold => BitVec.ofNat 64 x.courierTh
  | .lease => BitVec.ofNat 64 s.lease
  | .gqos g => BitVec.ofNat 64 (x.guest g).gqos.toNat
  | .frdbase n => BitVec.ofNat 64 (s.region die n.toNat).dbase
  | .frdlim n => BitVec.ofNat 64 (s.region die n.toNat).dlim
  | .frsbase n => BitVec.ofNat 64 (s.region die n.toNat).sbase
  | .frscale n => BitVec.ofNat 64 (s.region die n.toNat).scale
  | .frctl n => BitVec.ofNat 64 (s.region die n.toNat).ctl
  | .snapctl => s.snapctl
  | .snapat => s.snapat
  | .pexp => BitVec.ofNat 64 s.pexp
  | .basic fn => KMap.getD s.basic fn 0

/-- A write to one setting within its limits; a value outside them is ignored. -/
def State.settingWrite (s : State) (tile die : Nat) (r : ExpertReg) (v : Word) : State :=
  let n := v.toNat
  let setting := fun (lo hi : Nat) (f : Tile → Tile) => if lo ≤ n ∧ n ≤ hi then s.modTile tile f else s
  match r with
  | .feretry => setting 1 65535 (fun x => { x with feretry := n })
  | .engwd => setting (2 ^ 16) (2 ^ 30) (fun x => { x with engwd := n })
  | .slice => setting (2 ^ 14) (2 ^ 22) (fun x => { x with slice := n })
  | .courierThreshold => setting 9 16 (fun x => { x with courierTh := n })
  | .lease => if 1 ≤ n ∧ n ≤ 255 ∧ !s.res then { s with lease := n } else s
  | .gqos g => s.modTile tile (fun x => x.writeGqos g v)
  | .frdbase k => s.writeRegion die k.toNat v (fun r n => { r with dbase := n })
  | .frdlim k => s.writeRegion die k.toNat v (fun r n => { r with dlim := n })
  | .frsbase k => s.writeRegion die k.toNat v (fun r n => { r with sbase := n })
  | .frscale k => s.writeRegion die k.toNat v (fun r n => { r with scale := n })
  | .frctl k => s.writeFrctl die k.toNat v
  | .snapctl => s.writeSnapctl v
  | .snapat => { s with snapat := v }
  | .pexp => if 22 ≤ n ∧ n ≤ 30 ∧ !s.res then { s with pexp := n } else s
  | .basic _ => s

/-! ### Basic registers (R373) -/

/-- The settings that each tile keeps, that each memory-side die keeps, and those of the device. -/
def tileSettings : List ExpertReg :=
  [.feretry, .engwd, .slice, .courierThreshold] ++ (List.range 256).map (fun g => .gqos (BitVec.ofNat 8 g))
def dieSettings : List ExpertReg :=
  (List.range 64).flatMap (fun n =>
    let n := BitVec.ofNat 6 n
    [.frdbase n, .frdlim n, .frsbase n, .frscale n, .frctl n])
def deviceSettings : List ExpertReg := [.lease, .snapctl, .snapat, .pexp]

/-- Writes the preset's value of a setting to a number of blocks. -/
def State.preset (s : State) (fn : Nat) (v : Word) (blocks : Nat) (r : ExpertReg) : State :=
  match Config.presetValue fn v r with
  | some x => (List.range blocks).foldl (fun (s : State) b => s.settingWrite b b r x) s
  | none => s

/-- A write to the basic register of a function: every setting that the preset covers is written. -/
def State.writeBasic (s : State) (fn : Nat) (v : Word) : State :=
  let s := { s with basic := KMap.set s.basic fn v }
  let s := tileSettings.foldl (fun (s : State) r => s.preset fn v Config.tiles r) s
  let s := dieSettings.foldl (fun (s : State) r => s.preset fn v 8 r) s
  deviceSettings.foldl (fun (s : State) r => s.preset fn v 1 r) s

/-- A write to any register that XDATA reaches. -/
def State.expertWrite (s : State) (tile die : Nat) (r : ExpertReg) (v : Word) : State :=
  match r with
  | .basic fn => s.writeBasic fn v
  | _ => s.settingWrite tile die r v

def isBasic : ExpertReg → Bool
  | .basic _ => true
  | _ => false

/-- A write in the midst of a cycle: it lands at once, and, since the basic writes of a cycle come before its expert writes, once more at the
cycle's end if it is one of the latter (R373). -/
def State.expertNow (s : State) (tile die : Nat) (r : ExpertReg) (v : Word) : State :=
  let s := if isBasic r then s else s.expertWrite tile die r v
  { s with lateExpert := s.lateExpert ++ [(tile * 16, die, r, v)] }

/-- The writes of a cycle that land at its end, the basic ones first (R309, R373). -/
def State.landExpert (s : State) : State :=
  ((s.lateExpert.filter (fun w => isBasic w.2.2.1)) ++ (s.lateExpert.filter (fun w => !isBasic w.2.2.1))).foldl
    (fun (s : State) w => s.expertWrite (w.1 / 16) w.2.1 w.2.2.1 w.2.2.2) { s with lateExpert := [] }

/-- The memory-side die that a block of XSEL names; block 0 is the tile. -/
def blockDie (block : Nat) : Nat := block - 1

end Sys2Proof.Machine
end

