-- ==== Sys2Proof/Machine/System.lean ====
section
/-!
DEFINITION. System and trap instructions (R304 to R321): MFS, MTS, TRAP, ERET, HALT, and the firmware forms GENBUMP, TLBINV,
TLBINVALL, CWB and CINV.
-/

namespace Sys2Proof.Machine

open Sys2Proof

/-! ## The named registers (R307) -/

/-- Selectors from 0x200 to 0x3FF, which only a privileged thread reads or writes (R305). -/
def sysHigh : SysReg → Bool
  | .xsel => true
  | .xdata => true
  | _ => false

/-- The counter registers (R313). -/
def sysCounter : SysReg → Bool
  | .issued => true | .waited => true | .fused => true | .couriers => true | .fwdnotes => true
  | _ => false

/-- The registers that MTS may not write (R307). -/
def sysReadOnly : SysReg → Bool
  | .self => true | .loads => true | .party => true | .clk => true | .wall => true | .chg => true | .gen => true | .lts => true
  | .rfs => true | .stag => true | .taddr => true | .monst => true | .feaddr => true | .fedata => true | .efaddr => true
  | .efinfo => true
  | _ => false

/-- The registers of the device, its tiles and its guests as they stood at the start of the cycle (R308). -/
def State.atStart (s : State) : State :=
  { s with
    res := s.seen.res, wall := s.seen.wall, pexp := s.seen.pexp, guests := s.seen.guests, tiles := s.seen.tiles, regions := s.seen.regions
    lease := s.seen.lease, snapctl := s.seen.snapctl, snapat := s.seen.snapat, basic := s.seen.basic }

/-- LOADS (R36). -/
def State.loadsOf (s : State) (tile : Nat) : Nat :=
  (List.range 16).foldl (fun v c => v + min 15 (KMap.getD s.seen.loads (tile * 16 + c) 0) * 2 ^ (4 * c)) 0

/-- PARTY (R266). -/
def State.partyOf (s : State) (g : BitVec 8) : Nat :=
  (if s.res then 2 ^ 31 else 0) + s.pexp % 32 * 2 ^ 24 + (s.guest g).len % 128

/-- STAG (R128): the acknowledgements of this cycle are not counted yet (R308). -/
def State.stagOf (s : State) (t : Nat) (th : Thread) : Nat :=
  min 65535 ((s.outstanding t).length + th.acked) * 2 ^ 32 + th.lastTag.toNat

/-- The expert register that XSEL names (R314). -/
def Thread.expert (th : Thread) : Option ExpertReg := Config.expertIndex (bits th.xsel.toNat 28 4) (bits th.xsel.toNat 0 16)

/-- The value of a register other than XDATA, as it stands at the start of the cycle (R308). -/
def State.sysRead (s : State) (t : Nat) (th : Thread) (r : SysReg) : Word :=
  let z := s.atStart
  let tg := (z.tile (tileOf th.home)).guest th.guest
  match r with
  | .self => BitVec.ofNat 64 (s.selfOf th)
  | .loads => BitVec.ofNat 64 (s.loadsOf (tileOf th.home))
  | .party => BitVec.ofNat 64 (z.partyOf th.guest)
  | .clk => BitVec.ofNat 64 s.clk
  | .wall => z.wall
  | .chg => (z.guest th.guest).chg
  | .gen => (z.guest th.guest).gen.setWidth 64
  | .lts => th.ltsSeen
  | .rfs => BitVec.ofNat 64 (th.depth % 2 ^ 16 * 2 ^ 16 + th.wsp)
  | .stag => BitVec.ofNat 64 (s.stagOf t th)
  | .stashm => th.stashm.setWidth 64
  | .tctl => BitVec.ofNat 64 ((if th.priv then 2 else 0) + (if th.trapz then 1 else 0))
  | .epc => th.epc
  | .trapc => th.trapc
  | .taddr => th.taddr
  | .tvec => th.tvec
  | .monst => th.monst
  | .feaddr => th.feaddr
  | .fedata => th.fedata
  | .efaddr => th.efaddr
  | .efinfo => th.efinfo
  | .issued => th.issued
  | .waited => th.waited
  | .fused => tg.fused
  | .couriers => tg.couriers
  | .fwdnotes => tg.fwdnotes
  | .xsel => th.xsel
  | .xdata => 0

/-- MFS (R306, R308, R314). -/
def execMfs (d : Reg) (r : SysReg) (s : State) : Result :=
  onThread s 4 [d] (fun t th =>
    if sysHigh r && !th.priv then s.illegalInstr t th
    else if r = .xdata then
      match th.expert with
      | some x => s.result t th d (s.atStart.expertRead (tileOf th.home) (blockDie (bits th.xsel.toNat 28 4)) x)
      | none => s.illegalState t th
    else s.result t th d (s.sysRead t th r))

/-- A per-slot register takes a value within its map (R6, R309). -/
def Thread.sysWrite (th : Thread) (r : SysReg) (v : Word) : Thread :=
  let n := v.toNat
  match r with
  | .stashm => if n / 2 ^ 32 ≠ 0 then th else { th with stashm := th.stashm &&& BitVec.ofNat 32 n }
  | .tctl => if n / 4 ≠ 0 then th else { th with trapz := v.getLsbD 0 }
  | .epc => { th with epc := v &&& ~~~1 }
  | .trapc =>
    if bits n 32 31 ≠ 0 ∨ bits n 8 8 ≠ 0 then th
    else { th with trapc := BitVec.ofNat 64 ((if th.active then 2 ^ 63 else 0) + n % 2 ^ 32) }
  | .tvec => { th with tvec := v &&& ~~~1 }
  | .waited => { th with waited := v }
  | .issued => { th with issued := v - 1 }     -- its own issue is not added (R313)
  | .xsel => { th with xsel := v }
  | _ => th

/-- A tile's counter of a guest takes a value. -/
def TileGuest.sysWrite (y : TileGuest) (r : SysReg) (v : Word) : TileGuest :=
  match r with
  | .fused => { y with fused := v }
  | .couriers => { y with couriers := v }
  | .fwdnotes => { y with fwdnotes := v }
  | _ => y

/-- A write to XDATA: a tile register's lands at the end of the cycle (R309), a memory-side die's when the die acknowledges it (R314). -/
def State.writeXdata (s : State) (t : Nat) (th : Thread) (v : Word) : State :=
  match th.expert with
  | none => s.illegalState t th
  | some x =>
    let block := bits th.xsel.toNat 28 4
    if block = 0 then
      ({ s with lateExpert := s.lateExpert ++ [(coreOf th.home, 0, x, v)] }).retire t th
    else
      (s.post (placeOfSlot th.home) noChan (s.clk + 100) t (.event (.xdataWrite t))).await t th (.xdata x (blockDie block) v)

/-- MTS (R306, R309, R314). -/
def execMts (r : SysReg) (a : Reg) (s : State) : Result :=
  onThread s 4 [a] (fun t th =>
    let v := s.readReg th a
    if (sysHigh r || sysCounter r) && !th.priv then s.illegalInstr t th
    else if sysReadOnly r then s.illegalInstr t th
    else if r = .xdata then s.writeXdata t th v
    else if r = .xsel ∧ (v.toNat / 2 ^ 32 ≠ 0 ∨ bits v.toNat 16 12 ≠ 0 ∨ 8 < bits v.toNat 28 4) then s.illegalState t th
    else
      (s.modTile (tileOf th.home) (fun x =>
        if sysCounter r then x.modGuest th.guest (fun y => y.sysWrite r v) else x)).retire t (th.sysWrite r v))

/-- A system instruction of thread t awaits its last acknowledgement at a cycle (R26). -/
def State.ackAt (s : State) (t : Nat) (th : Thread) (delay : Nat) : State :=
  s.post (placeOfSlot th.home) noChan (s.clk + delay) t (.event (.acknowledgementWait t none))

/-- XDATA_WRITE: the memory-side die takes the value and acknowledges (R314). -/
def execXdataWrite (s : State) : Result :=
  onEvent s (fun s e => match e with
    | .xdataWrite t => some (match s.thread? t with
      | some th => match th.wait with
        | .xdata r die v => (s.expertNow (tileOf th.home) die r v).ackAt t th 100
        | _ => s
      | none => s)
    | _ => none)

/-! ## TRAP, ERET and HALT (R315 to R317) -/

def execTrap (i : BitVec 10) (s : State) : Result := onThread s 4 [] (fun t th => s.trapHere t th causeSoftware i.toNat none)

def execEret (s : State) : Result :=
  onThread s 4 [] (fun t th =>
    if !th.active then s.illegalState t th
    else if th.cancel.isSome then s.endThread t th .cancelled causeCancel (th.cancel.getD 0)
    else s.setThread t th.leaveHandler)

/-- HALT completes as it ends the thread, and counts in ISSUED (R313). -/
def execHalt (s : State) : Result := onThread s 4 [] (fun t th => s.haltThread t { th with issued := th.issued + 1 })

/-! ## GENBUMP (R318) -/

/-- Whether any entry of the device carries a generation of a guest (R280). -/
def State.genHeld (s : State) (g gen : BitVec 8) : Bool :=
  s.owners.any (fun p => p.2.1 == g && p.2.2 == gen) || s.stash.any (fun p => p.2.guest == g && p.2.gen == gen) ||
    s.l1.any (fun p => p.2.any (fun c => c.guest == g && c.gen == gen)) || s.l2.any (fun c => c.copy.guest == g && c.copy.gen == gen) ||
    s.utlb.any (fun p => p.2.any (fun e => e.guest == g && e.gen == gen)) ||
    s.tiles.any (fun p => p.2.tlb.any (fun e => e.guest == g && e.gen == gen) || p.2.const.any (fun c => c.guest == g && c.gen == gen)) ||
    s.frames.any (fun p => p.2.v && p.2.guest == g && p.2.gen == gen) ||
    s.lines.any (fun p => p.2.poison == some g && p.2.poisonGen == gen)

/-- The generation that a bump gives. -/
def State.nextGen (s : State) (g : BitVec 8) : BitVec 8 := (s.guest g).gen + 1

/-- The frames of a guest's older generations, and whether a frame's page holds a physical address. -/
def State.staleFrames (s : State) (g : BitVec 8) : List (Nat × Frame) :=
  s.frames.filter (fun p => p.2.v && p.2.guest == g && p.2.gen != (s.guest g).gen)
def frameHolds (pa : Nat) (p : Nat × Frame) : Bool := p.1 * 65536 ≤ pa && pa < p.1 * 65536 + 2 ^ pageBits p.2.size

/-- A line of an older generation at its home: its words read as 0 and empty, nothing holds it, and its poison is gone (R110, R280, R298). -/
def HomeLine.wiped (l : HomeLine) : HomeLine :=
  { l with fe := 0, poison := none, holder := none, sum := none, llc := none, recalling := false }

/-- The frames that belong to a guest's present generation. -/
def State.liveFrames (s : State) : List (Nat × Frame) := s.frames.filter (fun p => p.2.v && p.2.gen == (s.guest p.2.guest).gen)

/-- A tile's matrix unit without what it keeps of a guest: the guest's next matrix command finds its latches FREE and its accumulators at
+0 (R225). -/
def Tile.forgetMatrix (x : Tile) (g : BitVec 8) : Tile :=
  let x := { x with mxSaved := KMap.erase x.mxSaved g.toNat }
  if x.mxOwner = some g then { x with mx := .init, mxOwner := none } else x

/-- What of a guest's older generations lies in home memory, shared banks and local store reads as zero from now on (R280, R318), and its
residency locks end (R135). No tile's matrix unit keeps anything of it (R225). Its stash lines, cached copies and translations are known by
their tags. -/
def State.wipe (s : State) (g : BitVec 8) : State :=
  let fs := s.staleFrames g
  let old := fun (pa : Nat) => fs.any (frameHolds pa) && !s.liveFrames.any (frameHolds pa)
  let stale := s.stash.filter (fun p => p.2.guest == g && !s.lineLives p.2)
  let ls := (s.lines.filter (fun p => old (p.1 * 128))).map (·.1)
  let lost := (s.lines.filter (fun p => !old (p.1 * 128) && stale.any (fun q => q.2.line == p.1 && p.2.holder == some (q.1 / 1024, q.2.reg)))).map (·.1)
  let s : State := { s with
    mem := Memory.keep s.mem (fun a => !(a < 2 ^ 39 && old a))
    tiles := s.tiles.map (fun p => (p.1, p.2.forgetMatrix g))
    banks := s.banks.filter (fun p => p.1 % 256 != g.toNat)
    locks := s.locks.filter (fun k => k.guest != g) }
  let s := (s.owners.filter (fun p => p.2.1 == g)).foldl (fun (s : State) p => s.freshLocal p.1) s
  let s := ls.foldl (fun (s : State) l => (s.modLine l HomeLine.wiped).release l) s
  lost.foldl (fun (s : State) l => (s.modLine l (fun x => { x with holder := none, recalling := false })).release l) s

/-- The new generation goes out to every tile, home and TLB, or the scrubber has to clear it first. -/
def State.bump (s : State) (t : Nat) (th : Thread) (g : BitVec 8) : State :=
  if s.genHeld g (s.nextGen g) then s.await t th (.genbump g)
  else (((s.modGuest g (fun x => { x with gen := x.gen + 1 })).wipe g).ackAt t th 2048).await t th (.system 0)

def execGenbump (a : Reg) (s : State) : Result :=
  onThread s 4 [a] (fun t th =>
    let v := s.readReg th a
    let g := BitVec.ofNat 8 v.toNat
    if !th.priv then s.illegalInstr t th
    else if v.toNat / 256 ≠ 0 then s.illegalState t th
    else if s.threads.any (fun p => p.2.guest == g) ∨
        s.launches.any (fun p => p.2.rcd.guest == g && (p.2.status == .running || p.2.status == .waiting)) then s.illegalState t th
    else s.bump t th g)

/-! ## Shoot-downs (R296, R319) -/

/-- Sends a shoot-down to each of a list of cores. -/
def State.shoot (s : State) (t : Nat) (th : Thread) (what : Shoot) (cores : List Nat) : State :=
  (cores.foldl (fun (s : State) c => s.post (placeOfSlot th.home) noChan (s.clk + 100) t (.event (.tlbShootdown c what t))) s).await
    t th (.system cores.length)

/-- The cores of the device. -/
def deviceCores : List Nat := List.range (Config.tiles * Config.coresPerTile)

def execTlbinv (a b : Reg) (s : State) : Result :=
  onThread s 4 [a, b] (fun t th =>
    let av := s.readReg th a
    let bv := s.readReg th b
    let g := BitVec.ofNat 8 bv.toNat
    if !th.priv then s.illegalInstr t th
    else if bv.toNat / 256 ≠ 0 then s.illegalState t th
    else if topByte av ≠ 0 then s.protection t th 2 av
    else
      let cores := (s.guest g).cores
      if cores.isEmpty then (s.ackAt t th 200).await t th (.system 0) else s.shoot t th (.page g av) cores)

def execTlbinvall (s : State) : Result :=
  onThread s 4 [] (fun t th => if !th.priv then s.illegalInstr t th else s.shoot t th .all deviceCores)

/-- Whether a shoot-down removes an entry. -/
def shotBy (w : Shoot) (e : TlbEntry) : Bool :=
  match w with
  | .all => true
  | .page g va => e.guest == g && e.covers (low56 va)

/-- The access that a message carries to a home. -/
def eventAccess : Event → Option Access
  | .homeLoad a _ => some a
  | .homeStore a _ _ => some a
  | .homeAtomic a _ _ _ _ => some a
  | .publication a => some a
  | .declarationAtHome a _ => some a
  | .sumPartArrival a _ _ => some a
  | _ => none

/-- Whether an access of a core that was translated through a removed entry has not reached its home yet. -/
def State.stillOut (s : State) (core : Nat) (w : Shoot) : Bool :=
  s.agenda.any (fun p => match p.work with
    | .event (.armRequest tid _ _ _ _) => (s.thread? tid).any (fun th => coreOf th.home == core && (match w with
        | .all => true
        | .page g _ => th.guest == g))
    | .event e => match eventAccess e with
      | some a => (a.who matches .thread _) && a.core == core && (match w with
        | .all => true
        | .page g va => a.guest == g && low56 a.va / 2 ^ 30 == low56 va / 2 ^ 30)
      | none => false
    | _ => false)

/-- TLB_SHOOTDOWN at a core's controller (R296). A gather reduction that waits on the core translates its addresses anew. -/
def State.shootAt (s : State) (core : Nat) (w : Shoot) (t : Nat) : State :=
  let s : State := { s with
    threads := s.threads.map (fun p => if coreOf p.2.home = core then
      (p.1, { p.2 with gather := p.2.gather.map (fun (g : Gather) => { g with pas := [] }) }) else p)
    utlb := KMap.set s.utlb core ((KMap.getD s.utlb core []).filter (fun e => !shotBy w e)) }
  if s.stillOut core w then s.post (placeOfSlot (core * 16)) noChan (s.clk + 1) t (.event (.tlbShootdown core w t))
  else
    let more := s.agenda.any (fun p => match p.work with
      | .event (.tlbShootdown c _ u) => u == t && c / 16 == core / 16
      | _ => false)
    let s := if more then s else s.modTile (core / 16) (fun x => { x with tlb := x.tlb.filter (fun e => !shotBy w e) })
    match s.thread? t with
    | some th => match th.wait with
      | .system n =>
        let s := s.setThread t { th with wait := .system (n - 1) }
        if n = 1 then s.ackAt t th 100 else s
      | _ => s
    | none => s

def execTlbShootdown (s : State) : Result :=
  onEvent s (fun s e => match e with
    | .tlbShootdown core w t => some (s.shootAt core w t)
    | _ => none)

/-! ## Last-level cache lines (R320) -/

/-- The home's part: the line is written to HBM, and CINV drops it from the LLC, with the decoded copy of a format region's line. -/
def HomeLine.writtenBack (l : HomeLine) (drop : Bool) : HomeLine :=
  { l with dirty := false, inLlc := l.inLlc && !drop, llc := if drop then none else l.llc }

/-- CWB or CINV of thread t reaches the home: any stash holder is recalled, and the home acts when its line is back. -/
def State.llcAt (s : State) (line t : Nat) (drop : Bool) : State :=
  match s.thread? t with
  | none => s
  | some th =>
    if s.deadDies.contains (homeDie (line * 128)) then s.trapHere t th causeUncorrectable 5 (some (BitVec.ofNat 64 (line * 128)))
    else if s.holding line then s.holdMsg line (.llc line t drop)
    else if (s.line line).holder.isSome then (s.holdMsg line (.llc line t drop)).recallLine line
    else (s.modLine line (fun l => l.writtenBack drop)).ackAt t th 100

/-- CWB and CINV: the request travels to the line's home; 200 cycles in all. -/
def lineOp (a : Reg) (drop : Bool) (s : State) : Result :=
  onThread s 4 [a] (fun t th =>
    let v := s.readReg th a
    if !th.priv then s.illegalInstr t th
    else if v.toNat / 2 ^ 39 ≠ 0 then s.protection t th 2 v
    else (s.post (placeOfSlot th.home) (chanThread t (lineOf v.toNat)) (s.clk + 100) t (.event (.redirect (.llc (lineOf v.toNat) t drop)))).await
      t th (.llc (lineOf v.toNat) drop))

def execCwb (a : Reg) (s : State) : Result := lineOp a false s
def execCinv (a : Reg) (s : State) : Result := lineOp a true s

end Sys2Proof.Machine
end

