-- ==== Sys2Proof/Machine/Convoy.lean ====
section
/-!
DEFINITION. Cancel (R34), and convoys on this device (R322 to R337, R345 to R349): stops and resumes, stragglers, the two-phase
agreement, control records, armed records, and the convoy instructions.
-/

namespace Sys2Proof.Machine

open Sys2Proof

/-! ## Convoys on the device -/

/-- A convoy that the device first hears of. -/
def Convoy.start (r : Record) : Convoy :=
  { guest := r.guest, id := r.convoy, leader := r.leader, ndev := r.ndev, strag := 0, fallback := false, aborted := false, stops := 0
    stopped := false, tp := none, tpCycle := 0, action := none, readyAt := 0, ready := [], acted := none, dropped := [], strays := []
    sent := [], counted := 0
    arrived := 0, done := none, actDone := none }

def State.ensureConvoy (s : State) (r : Record) : State :=
  match s.convoyAt r.guest r.convoy with
  | some _ => s
  | none => { s with convoys := s.convoys ++ [Convoy.start r] }

/-- A launch of the convoy has not completed. -/
def Launch.pending (x : Launch) : Bool := x.status == .running || x.status == .waiting
def State.convoyLive (s : State) (g : BitVec 8) (c : BitVec 16) : Bool :=
  s.launches.any (fun p => p.2.rcd.guest == g && p.2.rcd.inConvoy == some c && p.2.pending)

/-- The threads of a convoy. -/
def State.convoyThreads (s : State) (g : BitVec 8) (c : BitVec 16) : List (Nat × Thread) :=
  s.threads.filter (fun p => p.2.guest == g && s.convoyOf p.2 == some c)

/-- The other devices that a convoy of a guest runs on: those of the guest's peer table (R340). -/
def State.podDevs (s : State) (g : BitVec 8) : List Nat := ((s.guest g).peers.map (·.1)).filter (· != s.dev)

/-- Those of them that it can reach. -/
def State.otherDevs (s : State) (g : BitVec 8) : List Nat := (s.podDevs g).filter (fun d => !s.unreachable.contains d)

def State.sendPod (s : State) (d : Nat) (g : BitVec 8) (c : BitVec 16) (k : PodKind) : State :=
  { s with podOut := s.podOut ++ [{ dev := d, guest := g, convoy := c, kind := k }] }

/-! ## Stops (R324, R325) -/

/-- A posted operation whose peer message the stop holds (R325). -/
def State.opHeld (s : State) (op : Nat) : Bool := s.peerOut.any (fun o => o.held && o.op == op)

/-- The outstanding operations whose acknowledgements a thread waits for. -/
def State.awaited (s : State) (t : Nat) (th : Thread) : List Tagged :=
  (s.outstanding t).filter (fun x => match th.wait with
    | .ackTag tag => tag == 0 || x.tag == tag
    | .fence c => s.inScope c x.va
    | .relWait (.rel c a) =>
      s.inScope c x.va && th.bindings.any (fun y => y.obj == s.waitedReg th a && overlaps y.base.toNat y.len.toNat x.va.toNat x.len)
    | .overlap _ ops => ops.contains x.op
    | _ => false)

/-- The third row of R324: every tag still awaited, or REL's own publication, belongs to a held peer message. -/
def State.awaitsHeld (s : State) (t : Nat) (th : Thread) : Bool :=
  let xs := s.awaited t th
  (!xs.isEmpty && xs.all (fun x => s.opHeld x.op)) ||
    (match th.wait with | .relPub rid => s.peerOut.any (fun o => o.held && o.rid == rid) | _ => false)

/-- A stop holds the thread at the instruction it waits in (R324). -/
def State.holdable (s : State) (t : Nat) (th : Thread) : Bool := th.wait.openEnded s || s.awaitsHeld t th

/-- The threads of the convoy that wait where a stop can hold them stop there. -/
def State.stopWaiting (s : State) (g : BitVec 8) (c : BitVec 16) : State :=
  (s.convoyThreads g c).foldl (fun (s : State) p =>
    if !p.2.halted && !p.2.stopped && s.holdable p.1 p.2 then s.setThread p.1 { p.2 with stopped := true } else s) s

/-- A peer request that a launch of the convoy has made. -/
def State.convoyOwns (s : State) (g : BitVec 8) (c : BitVec 16) (o : PeerOut) : Bool :=
  s.convoyOfLaunch o.launch == some c && (s.launch? o.launch).any (fun x => x.rcd.guest == g)

/-- A peer's answer to a request may still be on its way. An LDF or STF that has not been answered within the time of both ways is parked at
the peer, no message of it is under way, and its answer then belongs to the saved thread; so is a load that the peer says it has parked
(DEDUCED, log entry 32). -/
def PeerOut.returns (o : PeerOut) (clk : Nat) : Bool :=
  match o.what with
  | .stash .ldf => clk < o.sentAt + 2 * Config.latPeerStash
  | .stash (.stf _) => clk < o.sentAt + 2 * Config.latPeerStash
  | .arm _ _ => false
  | .withdraw => false
  | _ => !o.parked

/-- A stop still waits for the answer to a peer request of the convoy that left before it. -/
def State.owed (s : State) (v : Convoy) : Bool :=
  s.peerOut.any (fun o => !o.held && s.convoyOwns v.guest v.id o && (o.eng.isNone || o.stamp.any (fun w => v.tp.any (w < ·))) && o.returns s.clk)

/-- A peer message of the convoy that was stamped before the stop's time is on its way here (R325): a request; an answer, which carries the
stamp of its request; or a monitor's signal. -/
def State.inbound (s : State) (v : Convoy) : Bool :=
  let answers := fun (mine : PeerOut → Bool) =>
    s.peerOut.any (fun o => mine o && s.convoyOwns v.guest v.id o && o.stamp.any (fun w => v.tp.any (w < ·)))
  s.agenda.any (fun p => match p.work with
    | .event (.peerRequest r) => r.guest == v.guest && r.convoy == v.id && v.tp.any (fun t => r.stamp < t)
    | .event (.loadReply r) => r.rid != 0 && answers (fun o => o.rid == r.rid)
    | .event (.atomicReply r) => r.rid != 0 && answers (fun o => o.rid == r.rid)
    | .event (.storeAck op _ _) => op != 0 && answers (fun o => o.op == op)
    | .event (.postedRefusal op _) => op != 0 && answers (fun o => o.op == op)
    | .event (.monitorSignal t _ arm _) => answers (fun o => o.tid == t && (match o.what with | .arm _ n => n == arm | _ => false))
    | _ => false)

/-- Every thread has stopped or halted, and every message stamped before Tp, or counted in a READY, has arrived (R325, R336). -/
def State.stopDone (s : State) (g : BitVec 8) (c : BitVec 16) : Bool :=
  match s.convoyAt g c with
  | some v => v.inForce s.wall && !v.stopped && v.counted ≤ v.arrived && !s.inbound v && !s.owed v &&
      (s.convoyThreads g c).all (fun p => p.2.halted || p.2.stopped)
  | none => false

def State.checkStop (s : State) (g : BitVec 8) (c : BitVec 16) : State := if s.stopDone g c then s.now (.stopCompletion g c) else s

/-- The front desk reports a control record's end: it adds 1 at DONE (R337). -/
def State.controlDone (s : State) (x : Control) : State := s.signalDone x.rcd.guest x.rcd.done
def State.controlNoop (s : State) (x : Control) : State := (s.report x.queue x.index 0 0 true).controlDone x

/-- The stop takes effect now, for the WALL time tp. The straggler deadline of each launch is set (R326). -/
def State.beginStop (s : State) (g : BitVec 8) (c : BitVec 16) (tp : Word) (x : Option Control) : State :=
  let s := s.modConvoy g c (fun v => { v with tp := some tp, tpCycle := s.clk, stopped := false, done := x, strays := [] })
  let s := s.stopWaiting g c
  let ds := (s.launches.filter (fun p => p.2.rcd.guest == g && p.2.rcd.inConvoy == some c && p.2.pending)).map (fun p => p.2.rcd.dist)
  let s := ds.eraseDups.foldl (fun (s : State) d =>
    s.post placeOfFront noChan (s.clk + d + Config.stragglerSlack) s.cur (.event (.stragglerDeadline g c none))) s
  s.checkStop g c

/-- STOP_COMPLETION (R325): the convoy's threads are saved, as at a slice hand-over. -/
def State.completeStop (s : State) (g : BitVec 8) (c : BitVec 16) : State :=
  if s.stopDone g c then
    let ts := s.convoyThreads g c
    let s := ts.foldl (fun (s : State) p => s.setThread p.1 { p.2 with place := none }) s
    let s := (ts.map (fun p => tileOf p.2.home)).eraseDups.foldl (fun (s : State) x => s.slotsFreed x) s
    let d := (s.convoyAt g c).bind (·.done)
    let s := s.modConvoy g c (fun v => { v with stopped := true, done := none })
    match d with
    | some x => s.controlDone x
    | none => s
  else s

/-! ## Resuming (R327) -/

/-- Held peer requests are stamped and sent, those of threads that have ended among them. -/
def State.sendHeld (s : State) (g : BitVec 8) (c : BitVec 16) : State :=
  let mine := fun (o : PeerOut) => o.held && s.convoyOwns g c o
  let s' := (s.peerOut.filter mine).foldl (fun (s : State) o => s.countSent g o.launch o.dev) s
  { s' with peerOut := s.peerOut.map (fun o => if mine o then { o with held := false, sentAt := s.clk, stamp := some s.wall } else o) }

/-- The convoy's threads return to their slots and rejoin. -/
def State.freeThreads (s : State) (g : BitVec 8) (c : BitVec 16) : State :=
  (s.convoyThreads g c).foldl (fun (s : State) p =>
    let th := { p.2 with stopped := false }
    s.setThread p.1 (if th.place.isNone && th.wait != .courier && s.mayEnter th.home th.guest then { th with place := some th.home } else th)) s

/-- The control record of a stop that has not completed, and now will not, is counted at its DONE: the device's part of it is over (R337). -/
def State.closeStop (s : State) (g : BitVec 8) (c : BitVec 16) : State :=
  match (s.convoyAt g c).bind (·.done) with
  | some x => (s.modConvoy g c (fun v => { v with done := none })).controlDone x
  | none => s

/-- So is that of an agreement that has ended without its action (R337). -/
def State.closeAct (s : State) (g : BitVec 8) (c : BitVec 16) : State :=
  match (s.convoyAt g c).bind (·.actDone) with
  | some x => (s.modConvoy g c (fun v => { v with actDone := none })).controlDone x
  | none => s

def State.resumeConvoy (s : State) (g : BitVec 8) (c : BitVec 16) : State :=
  (((s.closeStop g c).modConvoy g c (fun v => { v with tp := none, stopped := false })).freeThreads g c).sendHeld g c

/-! ## Cancel (R34) -/

/-- Held peer requests of a cancelled convoy are discarded: their tags are acknowledged without raising a clock (R326). -/
def State.discardHeld (s : State) (g : BitVec 8) (c : BitVec 16) : State :=
  let mine := fun (o : PeerOut) => o.held && s.convoyOwns g c o
  let gone := s.peerOut.filter mine
  let s := { s with peerOut := s.peerOut.filter (fun o => !mine o) }
  gone.foldl (fun (s : State) o => if o.op = 0 then s else s.ackOp o.op none) s

/-- The waits on a held request, which can only end with it: on its answer, or on acknowledgements of which its is one. -/
def State.waitsHeld (s : State) (t : Nat) (th : Thread) : Bool :=
  s.peerOut.any (fun o => o.held && o.rid != 0 && th.wait.expects o.rid) || (s.awaited t th).any (fun x => s.opHeld x.op)

/-- The threads of a scope keep the cancel, or take it where they wait; `woken`: those that waited on a discarded request. -/
def State.cancelThreads (s : State) (c : CancelScope) (ls woken : List Nat) : State :=
  (s.threads.filter (fun p => ls.contains p.2.launch)).foldl (fun (s : State) p =>
    match s.thread? p.1 with
    | some th =>
      if woken.contains p.1 ∧ !th.halted then s.takePending p.1 { th with cancel := some (cancelDetail c) }
      else s.cancelThread (cancelDetail c) p.1 th
    | none => s) s

/-- A cancelled launch that has not started ends at once; a running one when its threads have (R34). -/
def State.endCancelled (s : State) (l : Nat) : State :=
  match s.launch? l with
  | some x => if x.status = .waiting then (s.closeLaunch l .cancelled).releaseDependents l else s.checkLaunch l
  | none => s

/-- A cancel of a launch, a graph or a convoy, with its armed records. A convoy's ends its stop and its agreement as well. -/
def State.cancelScope (s : State) (c : CancelScope) : State :=
  let ls := (s.launches.filter (fun p => cancelCovers c p.1 p.2.rcd && p.2.pending)).map (·.1)
  let as := s.armed.filter (fun (a : Armed) => cancelCovers c a.number a.rcd)
  let s := ls.foldl (fun (s : State) l => s.modLaunch l (fun x => x.blame .cancelled causeCancel (cancelDetail c))) s
  let (woken, s) : List Nat × State := match c with
    | .convoy g n =>
      let woken := ((s.convoyThreads g n).filter (fun (p : Nat × Thread) => s.waitsHeld p.1 p.2)).map (·.1)
      let s := ((s.closeStop g n).closeAct g n).modConvoy g n (fun v => { v with aborted := true, tp := none, stopped := false, action := none })
      (woken, (s.freeThreads g n).discardHeld g n)
    | _ => ([], s)
  let s := as.foldl (fun (s : State) a => s.cancelArmed (cancelDetail c) a) (s.unarm (fun a => as.contains a))
  let s := s.cancelThreads c ls woken
  ls.foldl (fun (s : State) l => s.endCancelled l) s

/-! ## Stragglers (R326) -/

/-- Stragglers of another device: they are recorded, and under the policy abort the convoy is cancelled here too. -/
def State.toldStragglers (s : State) (g : BitVec 8) (c : BitVec 16) (n : Nat) (aborts : Bool) : State :=
  let s := s.modConvoy g c (fun v => { v with strag := min 255 (v.strag + n) })
  if aborts then s.cancelScope (.convoy g c) else s

/-- STRAGGLER_DEADLINE: the stragglers are recorded, once each, here and at every other device of the convoy. -/
def State.stragglers (s : State) (g : BitVec 8) (c : BitVec 16) : State :=
  match s.convoyAt g c with
  | some v =>
    let late := (s.convoyThreads g c).filter (fun p => !p.2.halted && !p.2.stopped && (match s.launch? p.2.launch with
      | some x => v.tpCycle + x.rcd.dist + Config.stragglerSlack ≤ s.clk
      | none => false))
    if !v.inForce s.wall || v.stopped || late.isEmpty then s
    else
      let new := (late.filter (fun p => !v.strays.contains p.1)).map (fun p => p.1)
      let s := s.modConvoy g c (fun v => { v with strag := min 255 (v.strag + new.length), strays := v.strays ++ new })
      let abort := late.any (fun p => match s.launch? p.2.launch with | some x => x.rcd.policy | none => false)
      let s := (s.otherDevs g).foldl (fun (s : State) d => s.sendPod d g c (.straggler new.length abort)) s
      if !abort then s
      else
        let s := late.foldl (fun (s : State) p =>
          let s := s.modLaunch p.2.launch (fun x => x.blame .faulted causeStraggler 0)
          if s.waitsHeld p.1 p.2 then
            if p.2.active then s.setThread p.1 { p.2.rejoin with straggler := true }
            else s.trapHere p.1 p.2 causeStraggler 0 none
          else s.setThread p.1 { p.2 with straggler := true }) s
        s.cancelScope (.convoy g c)
  | none => s

def execStragglerDeadline (s : State) : Result :=
  onEvent s (fun s e => match e with
    | .stragglerDeadline g c none => some (s.stragglers g c)
    | .stragglerDeadline g c (some (n, aborts)) => some (s.toldStragglers g c n aborts)
    | _ => none)

/-! ## Armed records (R335) -/

/-- The graph of a record starts under its convoy; the status of a convoy that had ended starts anew. -/
def State.startArmed (s : State) (a : Armed) (agreed : Bool) : State :=
  let r := a.rcd
  let s := s.ensureConvoy r
  let s := if s.convoyLive r.guest r.convoy then s
    else s.modConvoy r.guest r.convoy (fun v => { Convoy.start r with stops := v.stops, ready := v.ready, sent := v.sent, acted := v.acted
                                                                      dropped := v.dropped, counted := v.counted, arrived := v.arrived })
  (s.modConvoy r.guest r.convoy (fun v => { v with fallback := agreed })).acceptLaunch r a.queue a.index a.number

def armedFor (g : BitVec 8) (c : BitVec 16) (a : Armed) : Bool := a.rcd.guest == g && a.rcd.convoy == c

/-- Whether an armed record's time has come on a device that has been synchronised once (R333, R335). -/
def State.recordDue (s : State) (a : Armed) : Bool := s.synced && !a.fired && a.rcd.when ≤ s.wall

/-- The device starts a timed action on its own: it is synchronised, and its offset estimate is within the tolerance. -/
def State.direct (s : State) (skew : Nat) : Bool := !s.hold && s.offset.natAbs ≤ skew

/-! ## The agreement (R336) -/

/-- What the action of a convoy does at the commit. -/
def State.act (s : State) (g : BitVec 8) (c : BitVec 16) : State :=
  match s.convoyAt g c with
  | some v => match v.action with
    | some (a, t) =>
      let s := s.modConvoy g c (fun w => { w with action := none, acted := some t, ready := w.ready.filter (fun p => p.2.1 != t), actDone := none })
      match a with
      | .launch =>
        let as := s.armed.filter (fun (x : Armed) => armedFor g c x && x.fired)
        let s := s.unarm (fun (x : Armed) => armedFor g c x && x.fired)
        (as.foldl (fun (s : State) x => s.startArmed x true) s).sendHeld g c
      | .stop => s.beginStop g c s.wall v.actDone
      | .resume =>
        let s := s.resumeConvoy g c
        (match v.actDone with | some x => s.controlDone x | none => s)
      | .cancel =>
        let s := s.cancelScope (.convoy g c)
        (match v.actDone with | some x => s.controlDone x | none => s)
    | none => s
  | none => s

/-- A launch that an agreement abandons starts nowhere here, and those of its graph that wait for it never start (DESIGN CHOICE, log entry 71:
its counter is not signalled, and nothing is reported). -/
def State.dropLaunch (s : State) (a : Armed) : State :=
  let x := { Launch.ofRecord a.rcd a.queue a.index with status := .cancelled, cancelled := true }
  ({ s with launches := KMap.set s.launches a.number x } : State).releaseAfter a.number a.graphKey

/-- The agreement at time t cannot finish and is abandoned: a launch starts nowhere here, any other action cancels the convoy, and so does an
abandonment that comes after the commit. One that comes before this device's own time is kept until then. Firmware logs the devices whose
message was missing. -/
def State.abandon (s : State) (g : BitVec 8) (c : BitVec 16) (t : Word) (missing : List Nat) : State :=
  match s.convoyAt g c with
  | some v =>
    let logged := missing.foldl (fun (s : State) d => s.log 0x61 d (v.id.setWidth 64) t) s
    match v.action.filter (fun p => p.2 == t) with
    | some (a, _) =>
      let s := logged.modConvoy g c (fun w => { w with action := none, aborted := true, ready := w.ready.filter (fun p => p.2.1 != t) })
      match a with
      | .launch =>
        let as := s.armed.filter (fun (x : Armed) => armedFor g c x && x.fired)
        (as.foldl (fun (s : State) x => s.dropLaunch x) (s.unarm (fun x => as.contains x))).sendHeld g c
      | _ => s.cancelScope (.convoy g c)
    | none =>
      if v.acted = some t then logged.cancelScope (.convoy g c)
      else logged.modConvoy g c (fun w => { w with dropped := w.dropped ++ [t] })
  | none => s

/-- The READYs for a time, as devices with their counts, and what they count for one device. -/
def readysAt (t : Word) (rs : List (Nat × Word × List (Nat × Nat))) : List (Nat × List (Nat × Nat)) :=
  (rs.filter (fun p => p.2.1 == t)).map (fun p => (p.1, p.2.2))
def countsFor (d : Nat) (rs : List (Nat × List (Nat × Nat))) : Nat := (rs.map (fun p => KMap.getD p.2 d 0)).sum

/-- The leader holds READY from all the others: it commits (R336). The counts run from the convoy's beginning. -/
def State.tryCommit (s : State) (g : BitVec 8) (c : BitVec 16) : State :=
  match s.convoyAt g c with
  | some v => match v.action with
    | some (_, t) =>
      let rs := readysAt t v.ready
      if v.leader = s.dev ∧ v.ndev ≤ rs.length + 1 then
        let s := rs.foldl (fun (s : State) p => s.sendPod p.1 g c (.commit t (countsFor p.1 rs + KMap.getD v.sent p.1 0))) s
        (s.modConvoy g c (fun v => { v with counted := countsFor s.dev rs })).act g c
      else s
    | none => s
  | none => s

/-- From the cycle in which WALL reads T the device holds the convoy's peer requests, and READY leaves for the leader. What another device has
abandoned already is abandoned here. -/
def State.agree (s : State) (r : Record) (a : Action) (x : Option Control) : State :=
  let g := r.guest
  let c := r.convoy
  let s := (s.ensureConvoy r).modConvoy g c (fun v => { v with
    action := some (a, r.when), readyAt := s.clk, fallback := true, leader := r.leader, ndev := r.ndev, actDone := x })
  if (s.convoyAt g c).any (fun v => v.dropped.contains r.when) then
    (s.modConvoy g c (fun v => { v with dropped := v.dropped.filter (· != r.when) })).abandon g c r.when []
  else if r.leader = s.dev then
    (s.post placeOfFront noChan (s.clk + Config.readyLimit) s.cur (.event (.readyTimeout g c))).tryCommit g c
  else
    let counts := match s.convoyAt g c with | some v => v.sent | none => []
    (s.sendPod r.leader g c (.ready r.when counts)).post placeOfFront noChan (s.clk + Config.commitLimit) s.cur (.event (.commitTimeout g c))

/-- RECORD_FIRE (R322, R335). A record that must be agreed on waits for the end of another agreement of its convoy (log entry 32). -/
def State.fire (s : State) (g : BitVec 8) (c : BitVec 16) : State :=
  let due := s.armed.filter (fun (a : Armed) => armedFor g c a && s.recordDue a)
  due.foldl (fun (s : State) a =>
    let under := (s.convoyAt g c).bind (·.action)
    if s.direct a.rcd.skew then
      ({ s with armed := s.armed.eraseP (fun (x : Armed) => x == a) } : State).startArmed a false
    else if under.any (fun p => p != (.launch, a.rcd.when)) then s
    else
      let s := { s with armed := s.armed.map (fun (x : Armed) => if x = a then { x with fired := true } else x) }
      if under.isSome then s else s.agree a.rcd .launch none) s

def execRecordFire (s : State) : Result :=
  onEvent s (fun s e => match e with
    | .recordFire g c => some (s.fire g c)
    | _ => none)

/-- READY reaches the leader. -/
def execReady (s : State) : Result :=
  onEvent s (fun s e => match e with
    | .ready g c t src counts => some ((s.modConvoy g c (fun v => { v with ready := v.ready ++ [(src, t, counts)] })).tryCommit g c)
    | _ => none)

/-- COMMIT reaches a device; one that has abandoned ignores it. -/
def execCommit (s : State) : Result :=
  onEvent s (fun s e => match e with
    | .commit g c t count => some (match s.convoyAt g c with
      | some v =>
        if v.action.any (fun p => p.2 == t) then (s.modConvoy g c (fun v => { v with counted := count })).act g c else s
      | none => s)
    | _ => none)

def execAbandon (s : State) : Result :=
  onEvent s (fun s e => match e with
    | .abandon g c t missing => some (s.abandon g c t missing)
    | _ => none)

/-- A limit of R336 has passed: the agreement under way is abandoned here and at the devices that can be reached. -/
def State.giveUp (s : State) (g : BitVec 8) (c : BitVec 16) (limit : Nat) (missing : Convoy → Word → List Nat) : State :=
  match s.convoyAt g c with
  | some v => match v.action with
    | some (_, t) =>
      if v.readyAt + limit ≤ s.clk then
        ((s.otherDevs g).foldl (fun (s : State) d => s.sendPod d g c (.abandon t (missing v t))) s).abandon g c t (missing v t)
      else s
    | none => s
  | none => s

/-- The leader lacks a READY. -/
def execReadyTimeout (s : State) : Result :=
  onEvent s (fun s e => match e with
    | .readyTimeout g c => some (s.giveUp g c Config.readyLimit (fun v t =>
        (s.podDevs g).filter (fun d => (readysAt t v.ready).all (fun p => p.1 != d))))
    | _ => none)

/-- A device lacks COMMIT and ABANDON. -/
def execCommitTimeout (s : State) : Result :=
  onEvent s (fun s e => match e with
    | .commitTimeout g c => some (s.giveUp g c Config.commitLimit (fun v _ => [v.leader]))
    | _ => none)

/-! ## Control records (R337) -/

/-- The control records of a kind for a convoy whose time has come, and the state without them. -/
def State.dueControls (s : State) (g : BitVec 8) (c : BitVec 16) (kind : Nat) : List Control × State :=
  let due := fun (x : Control) => x.rcd.guest == g && x.rcd.convoy == c && x.rcd.kind == kind && x.rcd.when ≤ s.wall
  (s.controls.filter due, { s with controls := s.controls.filter (fun (x : Control) => !due x) })

/-- An agreement of the convoy is under way: a control record waits for its end, but for a stop of a convoy that is stopping by it (DEDUCED,
log entry 32). -/
def State.agreeing (s : State) (g : BitVec 8) (c : BitVec 16) (but : Option Action) : Bool :=
  (s.convoyAt g c).any (fun v => v.action.any (fun p => some p.1 != but))
def State.putOff (s : State) (x : Control) : State := { s with controls := s.controls ++ [x] }

/-- A control record's action runs under the agreement when a device of its guest's pod is known to be in holdover (log entry 32). -/
def State.mustAgree (s : State) (g : BitVec 8) : Bool := s.hold || (s.otherDevs g).any s.podHold.contains

/-- A stop's time has come. -/
def State.stopNow (s : State) (x : Control) : State :=
  let g := x.rcd.guest
  let c := x.rcd.convoy
  if s.convoyLive g c && (s.convoyAt g c).all (fun v => v.tp.isNone) && s.agreeing g c (some .stop) then s.putOff x else
  let s := s.modConvoy g c (fun v => { v with stops := v.stops - 1 })
  if !s.convoyLive g c || (s.convoyAt g c).any (fun v => v.tp.isSome || v.action.isSome) then s.controlNoop x
  else if s.mustAgree g then s.agree x.rcd .stop (some x)
  else (s.modConvoy g c (fun v => { v with fallback := false })).beginStop g c x.rcd.when (some x)

/-- CONVOY_STOP (R324, R337). -/
def execConvoyStop (s : State) : Result :=
  onEvent s (fun s e => match e with
    | .convoyStop g c => some (
      let (xs, s) := s.dueControls g c 1
      xs.foldl (fun (s : State) x => s.stopNow x) s)
    | _ => none)

def execStopCompletion (s : State) : Result :=
  onEvent s (fun s e => match e with
    | .stopCompletion g c => some (s.completeStop g c)
    | _ => none)

/-- A resume's time has come. -/
def State.resumeNow (s : State) (x : Control) : State :=
  let g := x.rcd.guest
  let c := x.rcd.convoy
  if !s.convoyLive g c then s.controlNoop x
  else if s.agreeing g c none then s.putOff x
  else if (s.convoyAt g c).all (fun v => v.tp.isNone) then s.controlNoop x
  else if s.mustAgree g then s.agree x.rcd .resume (some x)
  else ((s.modConvoy g c (fun v => { v with fallback := false })).resumeConvoy g c).controlDone x

/-- CONVOY_RESUME (R327, R337). -/
def execConvoyResume (s : State) : Result :=
  onEvent s (fun s e => match e with
    | .convoyResume g c => some (
      let (xs, s) := s.dueControls g c 2
      xs.foldl (fun (s : State) x => s.resumeNow x) s)
    | _ => none)

/-- A cancelling control record's time has come. -/
def State.cancelNow (s : State) (x : Control) : State :=
  let g := x.rcd.guest
  let c := x.rcd.convoy
  if !s.convoyLive g c then s.controlNoop x
  else if s.agreeing g c none then s.putOff x
  else if s.mustAgree g then s.agree x.rcd .cancel (some x)
  else ((s.modConvoy g c (fun v => { v with fallback := false })).cancelScope (.convoy g c)).controlDone x

/-- CANCEL (R34): the host's, or that of control records whose time has come. -/
def execCancel (s : State) : Result :=
  onEvent s (fun s e => match e with
    | .cancel c => some (match c with
      | .convoy g n =>
        match s.dueControls g n 3 with
        | ([], s) => s.cancelScope c
        | (xs, s) => xs.foldl (fun (s : State) x => s.cancelNow x) s
      | c => s.cancelScope c)
    | _ => none)

/-- What falls due by WALL in this cycle: armed records, control records, and the waits of WAITWALL that no stop holds. -/
def State.wallDue (s : State) : State :=
  let s := (s.armed.filter s.recordDue).foldl (fun (s : State) (a : Armed) => s.now (.recordFire a.rcd.guest a.rcd.convoy)) s
  let s := (s.controls.filter (fun (x : Control) => x.rcd.when ≤ s.wall)).foldl (fun (s : State) x =>
    s.now (if x.rcd.kind = 1 then .convoyStop x.rcd.guest x.rcd.convoy
      else if x.rcd.kind = 2 then .convoyResume x.rcd.guest x.rcd.convoy
      else .cancel (.convoy x.rcd.guest x.rcd.convoy))) s
  (s.threads.filter (fun p => !p.2.stopped && (match p.2.wait with | .wall t => t ≤ s.wall | _ => false))).foldl
    (fun (s : State) p => s.post (placeOfSlot p.2.home) noChan s.clk p.1 (.event (.wallReached p.1))) s

/-! ## The instructions (R345 to R349) -/

/-- OFFSET of convoy status: a signed 16-bit field that saturates at ±32,767 (R346). -/
def offsetField (x : Int) : Nat := natOfInt 16 (max (-32767) (min 32767 x))

/-- Convoy status at the start of the cycle (R346). -/
def State.cvStatus (s : State) (th : Thread) : Nat :=
  let v := (s.convoyOf th).bind (fun c => s.seen.convoys.find? (fun v => v.guest == th.guest && v.id == c))
  let id := match s.convoyOf th with | some c => c.toNat | none => 0
  let own := match v with
    | some v => min 255 v.strag * 2 ^ 32 + (if v.fallback then 64 else 0) + (if v.aborted then 32 else 0) +
        (if v.stops ≠ 0 ∨ v.action.any (fun p => p.1 == .stop) ∨ (v.tp.isSome ∧ !v.stopped) then 8 else 0)
    | none => 0
  id * 2 ^ 48 + s.dev % 64 * 2 ^ 40 + offsetField s.seen.offset * 2 ^ 16 + (if s.seen.hold then 128 else 0) +
    (if s.seen.chglate then 16 else 0) + own

/-- CVSTAT: it clears the CHGLATE that it has read. -/
def execCvstat (d : Reg) (s : State) : Result :=
  onThread s 4 [d] (fun t th =>
    ({ s with chglate := s.chglate && !s.seen.chglate } : State).result t th d (BitVec.ofNat 64 (s.cvStatus th)))

def execWaitwall (a : Reg) (s : State) : Result :=
  onThread s 4 [a] (fun t th =>
    let w := s.readReg th a
    if w ≤ s.wall then s.retire t th else s.await t th (.wall w))

/-- WALL_REACHED (R347). -/
def execWallReached (s : State) : Result :=
  onEvent s (fun s e => match e with
    | .wallReached t => some (match s.thread? t with
      | some th => match th.wait with
        | .wall w => if w ≤ s.wall && !th.stopped then s.retire t th else s
        | _ => s
      | none => s)
    | _ => none)

/-- The record at a, read as a load of 64 bytes from space 0x00 (R348, R349). -/
def withRecord (i : Instr) (a : Reg) (f : State → Nat → Thread → Line → State) (s : State) : Result :=
  onThread s 4 [a] (fun t th =>
    let va := s.readReg th a
    s.access t th i va { n := 64, align := 64, kind := kindGlobal, write := false } (fun s th x =>
      match x with
      | .global _ pa =>
        if s.ownOverlap t th x va 64 then s.await t th (.overlap i (s.overlapping t th x va 64))
        else if s.deadDies.contains (homeDie pa) then s.trapHere t th causeUncorrectable 5 (some va)
        else match s.errorAt (lineOf pa) th.guest with
          | some code => s.trapHere t th causeUncorrectable code (some va)
          | none => f s t th (s.cohRead pa 64)
      | _ => s.protection t th 3 va))

/-- The front desk takes its copy of the record, and answers after 200 cycles, whatever becomes of the thread (R348); in that cycle a firing
comes first (R349). -/
def State.armAt (s : State) (t : Nat) (r : Record) (add : Bool) : State :=
  s.post { cls := 1000, lodge := 0, prio := 0 } noChan (s.clk + 200) t (.event (.acknowledgementWait t (some (r, add))))

def execCvarm (a : Reg) (s : State) : Result :=
  withRecord (.cvarm a) a (fun s t th b =>
    let r := Record.ofBytes b
    if (s.recordFault b th.guest).isSome ∨ r.kind ≠ 0 ∨ !r.timed ∨ r.guest ≠ th.guest ∨ s.armLimit th.guest then s.illegalState t th
    else (s.armAt t r true).await t th .arm) s

def execCvdisarm (a : Reg) (s : State) : Result :=
  withRecord (.cvdisarm a) a (fun s t th b => (s.armAt t (Record.ofBytes b) false).await t th .arm) s

/-- ACKNOWLEDGEMENT_WAIT: the last acknowledgement that an untagged instruction awaits arrives, and its thread rejoins (R26). -/
def State.acknowledged (s : State) (t : Nat) (th : Thread) : State :=
  match th.wait with
  | .system 0 => s.retire t th
  | .llc _ _ => s.retire t th
  | .xdata _ _ _ => s.retire t th
  | .arm => s.retire t th
  | _ => s

/-- The front desk arms its copy of a record, or removes the armed record that it names and that has not fired; the launches of its graph no
longer wait for that (R348, R349; DESIGN CHOICE, log entry 71). -/
def State.armCopy (s : State) (r : Record) (add : Bool) : State :=
  if add then (s.armRecord r none 0).ensureConvoy r
  else
    let as := s.armed.filter (fun (x : Armed) => !x.fired && x.rcd.convoy == r.convoy && x.rcd.guest == r.guest && x.rcd.when == r.when)
    as.foldl (fun (s : State) x => s.releaseAfter x.number x.graphKey) (s.unarm (fun x => as.contains x))

def execAcknowledgementWait (s : State) : Result :=
  onEvent s (fun s e => match e with
    | .acknowledgementWait t copy => some (
      let s := match copy with
        | some (r, add) => s.armCopy r add
        | none => s
      let s := match s.thread? t with
        | some th => s.acknowledged t th
        | none => s
      if copy.isSome then s.wallDue else s)
    | _ => none)

end Sys2Proof.Machine
end

