-- ==== Sys2Proof/Machine/Firmware.lean ====
section
/-!
DEFINITION. Firmware, power and the registers above guests: boot and attestation (R367, R368), guests and peer tables (R265, R269,
R344), reservations (R269, R370, R375), power (R370), snapshots (R371, R372), basic and expert registers (R373).
-/

namespace Sys2Proof.Machine

open Sys2Proof

/-! ## Boot and attestation -/

/-- Each stage's signature is over its digest, with the key that the stage before it carries (R367). -/
def chainValid (key : List Byte) : List (List Byte) → Bool
  | [] => true
  | x :: xs => Config.signatureValid key (Config.sha512 x) x && chainValid (Config.keyIn x) xs

/-- BOOT (R367, R368): the key for the first image is the one whose digest is fused, and every stage is checked in turn; one that fails leaves the
device in reset for good. Firmware that runs sets the device's index in its pod (R346) and places the inverted table and the anchor array of
each stack in home memory (R119). -/
def State.boot (s : State) (key : List Byte) (images : List (List Byte)) (tables : List (Nat × Nat × Nat)) (dev : Nat) : State :=
  if s.booted || s.bootFail then s
  else if !images.isEmpty && Config.sha512 key == Config.fusedKey && chainValid key images then
    { s with
      booted := true, fwm := Config.sha512 (images.flatMap Config.sha512), dev := dev % 64
      tables := tables.foldl (fun m p => KMap.set m p.1 p.2) s.tables }
  else { s with bootFail := true }

def execBoot (s : State) : Result :=
  onEvent s (fun s e => match e with
    | .boot key images tables dev => some (s.boot key images tables dev)
    | _ => none)

/-- A list of bytes as a field of n. -/
def fieldOf (n : Nat) (bs : List Byte) : List Byte := (bs ++ List.replicate n 0).take n

/-- The code that is loaded for a guest, in the order of its frames: the bytes of its pages that it may execute. -/
def State.codeOf (s : State) (g : BitVec 8) : List Byte :=
  (s.frames.filter (fun p => p.2.v && p.2.x && p.2.guest == g && p.2.gen == (s.guest g).gen)).flatMap (fun p =>
    s.homeRead (p.1 * 65536) (2 ^ pageBits p.2.size))

/-- The registers of a guest's format regions, each in 8 bytes, in the order of R228's table. -/
def State.regionsOf (s : State) (g : BitVec 8) : List Byte :=
  ((s.regions.filter (fun p => p.2.en && p.2.guest == g)).flatMap (fun p =>
    [p.2.dbase, p.2.dlim, p.2.sbase, p.2.scale, p.2.ctl])).flatMap (fun n => bytesOf n 8)

/-- GUESTM (R368): the digest of the guest's loaded code and region registers (their order: DESIGN CHOICE, log entry 14). -/
def State.guestMeasure (s : State) (g : BitVec 8) : List Byte := Config.sha512 (s.codeOf g ++ s.regionsOf g)

/-- Bytes 0 to 207 of a report (R368). -/
def State.reportBody (s : State) (g : BitVec 8) (nonce : List Byte) : List Byte :=
  bytesOf 1 4 ++ [g, (s.guest g).gen] ++ bytesOf 0 2 ++ bytesOf s.wall.toNat 8 ++ fieldOf 64 nonce ++ fieldOf 64 s.fwm ++
    fieldOf 64 (s.guestMeasure g)

/-- ATTESTATION_REQUEST: the report, and the signature over its digest. -/
def State.attest (s : State) (g : BitVec 8) (nonce : List Byte) : State :=
  if !s.booted then s
  else
    let body := s.reportBody g nonce
    { s with
      reports := s.reports ++ [{ bytes := body ++ fieldOf 132 (Config.sign (Config.sha512 body)) }] }

def execAttestationRequest (s : State) : Result :=
  onEvent s (fun s e => match e with
    | .attestationRequest g nonce => some (s.attest g nonce)
    | _ => none)

/-! ## Guests -/

/-- Lodge k belongs to a guest's party. -/
def Guest.hasLodge (g : Guest) (k : Nat) : Bool := (k + 64 - g.first) % 64 < g.len

/-- A party that R265 allows: 1 to 64 lodges, each in the parties of at most four guests. -/
def State.partyOk (s : State) (g : BitVec 8) (first len : Nat) : Bool :=
  first < 64 && 1 ≤ len && len ≤ 64 && (List.range len).all (fun j =>
    ((s.guests.filter (fun p => p.1 != g.toNat)).filter (fun p => p.2.hasLodge ((first + j) % 64))).length < 4)

/-- The banks of a mask go to a guest on a tile (R108). -/
def Tile.grantBanks (x : Tile) (g : BitVec 8) (mask : BitVec 32) : Tile :=
  { x with banks := (List.range 32).foldl (fun m b => if mask.getLsbD b then KMap.set m b g else m) x.banks }

/-- A ring as the driver grants it (R350, R353). -/
def Queue.grant (g : BitVec 8) (exp : Nat) : Queue :=
  { guest := g, ringExp := exp, ring := [], tail := 0, head := 0, qIndex := 0, qField := 0, qNoop := false, qStop := false, qStatus := 0 }

/-- The counters of a guest start at 0 when it first runs on a tile (R313). -/
def Tile.newGuest (x : Tile) (g : BitVec 8) : Tile := x.modGuest g (fun y => { y with fused := 0, couriers := 0, fwdnotes := 0 })

/-- GUEST_CREATION (R269), with a backing area for each tile of the party (R103). Nothing of an earlier guest of the number is left. -/
def State.createGuest (s : State) (g : BitVec 8) (first len : Nat) (gen : BitVec 8) (backing : Word) (areas : List (Nat × Word))
    (banks : BitVec 32) (tables : Tables) (queues : List (Nat × Nat)) : State :=
  if !s.booted || !s.partyOk g first len then s
  else
    let x : Guest := { first := first, len := len, gen := gen, chg := 0, floor := 0, backing := backing, areas := areas, peers := [] }
    let s := ((s.setGuest g x).wipe g).install tables
    let s := { s with tiles := s.tiles.map (fun (p : Nat × Tile) => (p.1, p.2.newGuest g)) }
    let s := { s with queues := queues.foldl (fun m p =>
      if 4 ≤ p.2 ∧ p.2 ≤ 16 then KMap.set m p.1 (Queue.grant g p.2) else m) s.queues }
    if banks = 0 then s
    else (List.range len).foldl (fun (s : State) j => (List.range 64).foldl (fun (s : State) t =>
      s.modTile (x.tile j t) (fun y => y.grantBanks g banks)) s) s

def execGuestCreation (s : State) : Result :=
  onEvent s (fun s e => match e with
    | .guestCreation g first len gen backing areas banks tables queues =>
      some (s.createGuest g first len gen backing areas banks tables queues)
    | _ => none)

/-- The requests of a guest that a port holds for an entry are sent again to the device of the entry, under their own tags (R344). -/
def State.resendPeers (s : State) (g : BitVec 8) (old dev : Nat) (named : BitVec 8) : State :=
  let mine := fun (o : PeerOut) => o.redirected && o.dev == old && (s.launch? o.launch).any (fun l => l.rcd.guest == g)
  { s with peerOut := s.peerOut.map (fun o =>
      if mine o then { o with dev := dev, port := portFor dev o.va, named := named, again := true, redirected := false, sentAt := s.clk } else o) }

/-- PEER_TABLE_INSTALL (R340, R344): an entry of a guest's peer table, which names the guest on a device, or is invalid. With the entry for the new
place of the guest that was on device `old`, the requests that have been redirected from there are sent to it. -/
def State.installPeer (s : State) (g : BitVec 8) (dev : Nat) (named : Option (BitVec 8)) (old : Nat) : State :=
  match named with
  | none => s.modGuest g (fun x => { x with peers := KMap.erase x.peers dev })
  | some n => (s.modGuest g (fun x => { x with peers := KMap.set x.peers dev n })).resendPeers g old dev n

def execPeerTableInstall (s : State) : Result :=
  onEvent s (fun s e => match e with
    | .peerTableInstall g dev named old => some (s.installPeer g dev named old)
    | _ => none)

/-! ## Reservations (R269, R338, R370, R375) -/

/-- Nanoseconds of a period: ⌈2^PEXP / 2.1⌉. -/
def State.podPeriod (s : State) : Nat := (10 * 2 ^ s.pexp + 20) / 21

/-- The number of the first changeover of an epoch that lies ahead. -/
def State.firstInstant (s : State) (epoch : Word) : Nat :=
  if s.wall < epoch then 0 else (s.wall.toNat - epoch.toNat) / s.podPeriod + 1

/-- RESERVATION_REQUEST: none is admitted before the first synchronisation (R333), nor with more than 16 derated lodges. The first one held
sets the pod epoch, which stands until none is. -/
def State.reserve (s : State) (g : BitVec 8) (epoch : Word) : State :=
  let (ok, s) := s.flip Config.firmwareGrants
  if !s.booted || !s.synced || 16 < s.derated.length || !ok then s
  else
    let s := { s with reservations := if s.reservations.contains g then s.reservations else s.reservations ++ [g] }
    if s.res then s else { s with res := true, epoch := epoch, instantK := s.firstInstant epoch, gated := [] }

def execReservationRequest (s : State) : Result :=
  onEvent s (fun s e => match e with
    | .reservationRequest g epoch => some (s.reserve g epoch)
    | _ => none)

/-- When the last reservation ends, instants fall by CLK again, 2^PEXP cycles after the last one, which `nextInst` has kept. -/
def State.endReservation (s : State) (g : BitVec 8) : State :=
  let rs := s.reservations.filter (· != g)
  { s with reservations := rs, res := s.res && !rs.isEmpty }

def execReservationEnd (s : State) : Result :=
  onEvent s (fun s e => match e with
    | .reservationEnd g => some (s.endReservation g)
    | _ => none)

/-! ## Power (R370) -/

/-- THERMAL_TRIP: every die stops, and every convoy and launch is cancelled. -/
def State.trip (s : State) : State :=
  let s := { s with thermal := true, halted := true }
  let s := s.convoys.foldl (fun (s : State) v => s.cancelScope (.convoy v.guest v.id)) s
  (s.launches.filter (fun p => p.2.pending)).foldl (fun (s : State) p => s.cancelScope (.launch p.1)) s

def execThermalTrip (s : State) : Result :=
  onEvent s (fun s e => match e with
    | .thermalTrip => some s.trip
    | _ => none)

/-- The end of the first whole 16-cycle step that begins in this cycle or later. -/
def State.stepEnd (s : State) : Nat := ((s.clk + 15) / 16 + 1) * 16

/-- Whether a die's issue is gated in this cycle. -/
def State.gatedNow (s : State) (die : Nat) : Bool := s.gated.any (fun p => p.1 == die && p.2 ≤ s.clk + 16 && s.clk < p.2)

/-- POWER_GATE: no step is gated while a reservation is held. -/
def execPowerGate (s : State) : Result :=
  onEvent s (fun s e => match e with
    | .powerGate die => some (if s.res then s else { s with gated := s.gated ++ [(die, s.stepEnd)] })
    | _ => none)

/-! ## Registers of the physical function -/

def execFrctlWrite (s : State) : Result :=
  onEvent s (fun s e => match e with
    | .frctlWrite die n v => some (s.expertNow 0 die (.frctl n) v)
    | _ => none)

def execGqosWrite (s : State) : Result :=
  onEvent s (fun s e => match e with
    | .gqosWrite tile g v => some (s.expertNow tile 0 (.gqos g) v)
    | _ => none)

def execSnapctlWrite (s : State) : Result :=
  onEvent s (fun s e => match e with
    | .snapctlWrite v => some (s.expertNow 0 0 .snapctl v)
    | _ => none)

/-- What a block's snapshot registers hold since the last trigger, word by word (log entry 22). -/
def Latched.word (x : Latched) (block n : Nat) : Word := Config.snapshotOf x.words block n

/-- SNAPSHOT_FIRE (R372): ARM is cleared, FIRED set, and every block latches, as it stands before a stop of the same cycle, with each tile's place
in a changeover. -/
def State.latch (s : State) : State :=
  if s.snapctl.getLsbD 63 then
    { s with
      snapctl := setBits (setBits s.snapctl 63 1 0) 62 1 1
      snapDue := none, snap := some { clk := s.clk, words := s.fresh, phases := s.tiles.map (fun p => (p.1, p.2.phase)) }
      fresh := s.fresh + 1 }
  else s

def execSnapshotFire (s : State) : Result :=
  onEvent s (fun s e => match e with
    | .snapshotFire => some s.latch
    | _ => none)

/-! ## Basic and expert registers (R373) -/

/-- BASIC_REGISTER_WRITE. -/
def execBasicRegisterWrite (s : State) : Result :=
  onEvent s (fun s e => match e with
    | .basicRegisterWrite fn v => some (s.writeBasic fn v)
    | _ => none)

/-- EXPERT_REGISTER_WRITE: to the register of a tile, or of a memory-side die. -/
def execExpertRegisterWrite (s : State) : Result :=
  onEvent s (fun s e => match e with
    | .expertRegisterWrite b r v => some (s.expertNow b b r v)
    | _ => none)

end Sys2Proof.Machine
end

