-- ==== Sys2Proof/Machine/Floating.lean ====
section
/-!
DEFINITION. Floating point in registers (R237 to R240) and conversion (R211, R243). None traps or sets a flag.
-/

namespace Sys2Proof.Machine

open Sys2Proof

/-! ## Major 0x16 (R238, R239) -/

def execFadd (p : Fp) (r : Rm) (d a b : Reg) (s : State) : Result := alu2 4 d a b (fpAdd p r) s
def execFsub (p : Fp) (r : Rm) (d a b : Reg) (s : State) : Result := alu2 4 d a b (fpSub p r) s
def execFmul (p : Fp) (r : Rm) (d a b : Reg) (s : State) : Result := alu2 4 d a b (fpMul p r) s
def execFdiv (p : Fp) (r : Rm) (d a b : Reg) (s : State) : Result := alu2 4 d a b (fpDiv p r) s
def execFsqrt (p : Fp) (r : Rm) (d a : Reg) (s : State) : Result := alu1 4 d a (fpSqrt p r) s
def execFmin (p : Fp) (d a b : Reg) (s : State) : Result := alu2 4 d a b (fpMinMax p false) s
def execFmax (p : Fp) (d a b : Reg) (s : State) : Result := alu2 4 d a b (fpMinMax p true) s
def execFeq (p : Fp) (d a b : Reg) (s : State) : Result := alu2 4 d a b (fun a b => ofBool (fpEq p a b)) s
def execFlt (p : Fp) (d a b : Reg) (s : State) : Result := alu2 4 d a b (fun a b => ofBool (fpLt p a b)) s
def execFle (p : Fp) (d a b : Reg) (s : State) : Result := alu2 4 d a b (fun a b => ofBool (fpLe p a b)) s
def execFclass (p : Fp) (d a : Reg) (s : State) : Result := alu1 4 d a (fpClass p) s

/-! ## Major 0x17 (R240): d is the addend -/

def execFmadd (p : Fp) (r : Rm) (d a b : Reg) (s : State) : Result := alu3 4 d a b (fpFma p r false false) s
def execFmsub (p : Fp) (r : Rm) (d a b : Reg) (s : State) : Result := alu3 4 d a b (fpFma p r false true) s
def execFnmadd (p : Fp) (r : Rm) (d a b : Reg) (s : State) : Result := alu3 4 d a b (fpFma p r true true) s
def execFnmsub (p : Fp) (r : Rm) (d a b : Reg) (s : State) : Result := alu3 4 d a b (fpFma p r true false) s

/-! ## Major 0x19 (R243) -/

def execCvt (dst src : Fmt) (r : Rm) (d a : Reg) (s : State) : Result := alu1 4 d a (convert dst src r) s

end Sys2Proof.Machine
end

