-- ==== Sys2Proof/Machine/Frames.lean ====
section
/-!
DEFINITION. Register frames (R77 to R80): RFPUSH, RFPOP, and the events that spill and fill.
-/

namespace Sys2Proof.Machine

open Sys2Proof

/-- x16 to x31 of the running frame. -/
def Thread.frame (th : Thread) : Vector Word 16 := Vector.ofFn (fun i => th.x[16 + i.val])
/-- x0 to x15 with another frame's registers above them. -/
def Thread.withFrame (th : Thread) (f : Vector Word 16) : Thread :=
  { th with x := Vector.ofFn (fun i => if i.val < 16 then th.x[i.val] else f[i.val % 16]) }

def zeroFrame : Vector Word 16 := Vector.replicate 16 0

/-- The bound B of R78: x2's offset where x2 holds a local-store address, 512 otherwise. -/
def Thread.spillBound (th : Thread) : Nat :=
  let x2 := th.x[2].toNat
  if x2 / 2 ^ 56 = 0x82 ∧ x2 % 2 ^ 56 ≤ Config.localBytes then x2 % 2 ^ 56 else Config.localBytes

/-- The oldest set-aside frame and the others. -/
def splitOldest : List (Vector Word 16) → Option (List (Vector Word 16) × Vector Word 16)
  | [] => none
  | [f] => some ([], f)
  | f :: fs => (splitOldest fs).map (fun p => (f :: p.1, p.2))

/-- A new frame is pushed; the oldest set-aside frame moves to the free transit buffer when it would be the fifth resident one. -/
def Thread.push (th : Thread) : Thread :=
  let th :=
    if th.frames.length < Config.setAsideFrames then th
    else match splitOldest th.frames with
      | some (fs, old) =>
        { th with frames := fs, wsp := th.wsp + 128, usedLocal := true
                  transit := some { regs := old, base := localKey th.home th.wsp, done := 0 } }
      | none => th
  { (th.withFrame zeroFrame) with frames := th.frame :: th.frames, depth := th.depth + 1 }

/-- RFPUSH (R77, R78). -/
def execRfpush (s : State) : Result :=
  onThread s 4 [] (fun t th =>
    let spills := Config.setAsideFrames ≤ th.frames.length
    if spills && th.spillBound < th.wsp + 128 then s.trapHere t th causeFrameOverflow 0 none
    else if spills && th.transit.isSome then s.await t th .transit
    else s.retire t th.push)

/-- RFPOP (R77, R79): from the set-aside frames, from the transit buffer, or by a fill from local store, which takes a cycle in which no
thread of the core issues (R25) and 16 cycles in all. -/
def execRfpop (s : State) : Result :=
  onThread s 4 [] (fun t th =>
    if th.depth = 0 then s.illegalState t th
    else match th.frames with
      | f :: fs => s.retire t { (th.withFrame f) with frames := fs, depth := th.depth - 1 }
      | [] =>
        let th := { th with depth := th.depth - 1, wsp := th.wsp - 128 }
        match th.transit with
        | some r => s.retire t { (th.withFrame r.regs) with transit := none }
        | none =>
          s.await t th (.frameFill (s.clk + Config.latFrameFill)))

/-- FRAME_SPILL: one register of the transit buffer goes to local store; after the sixteenth the buffer is free, and an RFPUSH
that waits for it completes (R78). -/
def execFrameSpill (s : State) : Result :=
  onEvent s (fun s e => match e with
    | .frameSpill t => some (match s.thread? t with
      | some th => match th.transit with
        | some r =>
          let s := s.writeMem (r.base + 8 * r.done) (bytesOf (r.regs[r.done % 16]).toNat 8)
          if r.done + 1 < 16 then s.setThread t { th with transit := some { r with done := r.done + 1 } }
          else
            let th := { th with transit := none }
            if th.wait = .transit then s.retire t th.push else s.setThread t th
        | none => s
      | none => s)
    | _ => none)

/-- FRAME_FILL, after a cycle in which no thread of the core has issued (R25): the caller's frame is read from local store at the new WSP, and the RFPOP completes (R79). -/
def execFrameFill (s : State) : Result :=
  onEvent s (fun s e => match e with
    | .frameFill t => some (match s.thread? t with
      | some th =>
        if th.wait = .frameFilling then
          let f : Vector Word 16 := Vector.ofFn (fun i => BitVec.ofNat 64 (natOfBytes (s.readMem (localKey th.home (th.wsp + 8 * i.val)) 8)))
          s.retire t (th.withFrame f)
        else s
      | none => s)
    | _ => none)

end Sys2Proof.Machine
end

