-- ==== Sys2Proof/Machine/LoadStore.lean ====
section
/-!
DEFINITION. Loads and stores (R93, R94), indexed and constant-window loads (R124, R125), extension-register loads and stores
(R245), and the 16-bit forms (R95).
-/

namespace Sys2Proof.Machine

open Sys2Proof

/-! ## Basic loads and stores (R93, R94) -/

def ldM (i : Instr) (d a : Reg) (imm : BitVec 10) (n : Nat) (signed : Bool) (s : State) : Result :=
  onThread s 4 [d, a] (fun t th => s.load t th i { dst := .reg d, n := n, signed := signed, va := s.addrM th a imm })

def stM (i : Instr) (d a : Reg) (imm : BitVec 10) (n : Nat) (s : State) : Result :=
  onThread s 4 [d, a] (fun t th => s.store t th i (s.addrM th a imm) n (s.readReg th d))

def execLdB (d a : Reg) (i : BitVec 10) (s : State) : Result := ldM (.ldB d a i) d a i 1 true s
def execLdBz (d a : Reg) (i : BitVec 10) (s : State) : Result := ldM (.ldBz d a i) d a i 1 false s
def execLdH (d a : Reg) (i : BitVec 10) (s : State) : Result := ldM (.ldH d a i) d a i 2 true s
def execLdHz (d a : Reg) (i : BitVec 10) (s : State) : Result := ldM (.ldHz d a i) d a i 2 false s
def execLdW (d a : Reg) (i : BitVec 10) (s : State) : Result := ldM (.ldW d a i) d a i 4 true s
def execLdWz (d a : Reg) (i : BitVec 10) (s : State) : Result := ldM (.ldWz d a i) d a i 4 false s
def execLdD (d a : Reg) (i : BitVec 10) (s : State) : Result := ldM (.ldD d a i) d a i 8 true s
def execStB (d a : Reg) (i : BitVec 10) (s : State) : Result := stM (.stB d a i) d a i 1 s
def execStH (d a : Reg) (i : BitVec 10) (s : State) : Result := stM (.stH d a i) d a i 2 s
def execStW (d a : Reg) (i : BitVec 10) (s : State) : Result := stM (.stW d a i) d a i 4 s
def execStD (d a : Reg) (i : BitVec 10) (s : State) : Result := stM (.stD d a i) d a i 8 s

/-! ## Indexed forms (R124) -/

def ldX (i : Instr) (d a b : Reg) (n : Nat) (signed : Bool) (s : State) : Result :=
  onThread s 4 [d, a, b] (fun t th => s.load t th i { dst := .reg d, n := n, signed := signed, va := s.addrX th a b n })

def stX (i : Instr) (d a b : Reg) (n : Nat) (s : State) : Result :=
  onThread s 4 [d, a, b] (fun t th => s.store t th i (s.addrX th a b n) n (s.readReg th d))

def execLdxB (d a b : Reg) (s : State) : Result := ldX (.ldxB d a b) d a b 1 true s
def execLdxBz (d a b : Reg) (s : State) : Result := ldX (.ldxBz d a b) d a b 1 false s
def execLdxH (d a b : Reg) (s : State) : Result := ldX (.ldxH d a b) d a b 2 true s
def execLdxHz (d a b : Reg) (s : State) : Result := ldX (.ldxHz d a b) d a b 2 false s
def execLdxW (d a b : Reg) (s : State) : Result := ldX (.ldxW d a b) d a b 4 true s
def execLdxWz (d a b : Reg) (s : State) : Result := ldX (.ldxWz d a b) d a b 4 false s
def execLdxD (d a b : Reg) (s : State) : Result := ldX (.ldxD d a b) d a b 8 true s
def execStxB (d a b : Reg) (s : State) : Result := stX (.stxB d a b) d a b 1 s
def execStxH (d a b : Reg) (s : State) : Result := stX (.stxH d a b) d a b 2 s
def execStxW (d a b : Reg) (s : State) : Result := stX (.stxW d a b) d a b 4 s
def execStxD (d a b : Reg) (s : State) : Result := stX (.stxD d a b) d a b 8 s

/-! ## The constant window (R111, R112, R125) -/

/-- A copy of the constant cache that serves a read: any that the cache has held may, or none (R112, log entry 20). -/
def pickConst : List Copy → State → Option Copy × State
  | [], s => (none, s)
  | x :: xs, s => match s.flip Config.ldcOld with
    | (true, s) => (some x, s)
    | (false, s) => pickConst xs s

/-- LDC: every byte lies inside the launch's window; no lease is taken and the clock stays (R125). Copies read at their home before the launch
started serve it no more; one read in the very cycle in which it started still may (R112; DESIGN CHOICE, log entry 82). -/
def State.loadConst (s : State) (t : Nat) (th : Thread) (i : Instr) (l : LoadInto) : State :=
  let w := s.constWindow th
  if l.va.toNat % l.n ≠ 0 then s.misaligned t th l.va
  else if !s.spaceOk th.guest l.va l.n then s.protection t th 2 l.va
  else if s.spaceOf l.va ≠ .global then s.protection t th 3 l.va
  else if !(w.1 ≤ low56 l.va && low56 l.va + l.n ≤ w.1 + w.2) then s.protection t th 2 l.va
  else s.access t th i l.va { n := l.n, align := l.n, kind := kindGlobal, write := false } (fun s th x =>
    match x with
    | .global va pa =>
      let tile := tileOf th.home
      let began := ((s.launch? th.launch).map (·.startedAt)).getD 0
      match pickConst ((s.tile tile).const.filter (fun c =>
          c.line == lineOf pa && c.guest == th.guest && s.copyLives c && began ≤ c.rts.toNat)) s with
      | (some c, s) => s.landLoad t th l (l.value ((c.data.drop (pa % 128)).take l.n)) false
      | (none, s) => s.gate t th i (fun s th =>
          let (rid, s) := s.takeRid
          (s.send (placeOfSlot th.home) (chanThread t (lineOf pa)) Config.latHome
            (.homeLoad (accessOf t th rid va pa l.n) .ldc)).await t th (.load rid l))
    | _ => s.protection t th 3 l.va)

def ldC (i : Instr) (d a : Reg) (imm : BitVec 10) (n : Nat) (signed : Bool) (s : State) : Result :=
  onThread s 4 [d, a] (fun t th => s.loadConst t th i { dst := .reg d, n := n, signed := signed, va := s.addrM th a imm })

def execLdcW (d a : Reg) (i : BitVec 10) (s : State) : Result := ldC (.ldcW d a i) d a i 4 true s
def execLdcWz (d a : Reg) (i : BitVec 10) (s : State) : Result := ldC (.ldcWz d a i) d a i 4 false s
def execLdcD (d a : Reg) (i : BitVec 10) (s : State) : Result := ldC (.ldcD d a i) d a i 8 true s

/-! ## Sixteen-bit forms (R95) -/

def execLdD16 (d : BitVec 4) (i : BitVec 7) (s : State) : Result :=
  onThread s 2 [] (fun t th => s.load t th (.ldD16 d i) { dst := .reg (x16 d), n := 8, signed := true, va := th.addr16 i })
def execStD16 (d : BitVec 4) (i : BitVec 7) (s : State) : Result :=
  onThread s 2 [] (fun t th => s.store t th (.stD16 d i) (th.addr16 i) 8 (s.readReg th (x16 d)))

/-! ## Extension registers (R244, R245) -/

def execXset (e : BitVec 4) (a : Reg) (s : State) : Result :=
  onThread s 4 [a] (fun t th => s.retire t { th with e := th.e.set e.toNat (s.readReg th a) })
def execXmov (d : Reg) (e : BitVec 4) (s : State) : Result := onThread s 4 [d] (fun t th => s.result t th d th.e[e.toNat])
def execXld (e : BitVec 4) (a : Reg) (i : BitVec 10) (s : State) : Result :=
  onThread s 4 [a] (fun t th => s.load t th (.xld e a i) { dst := .ext e, n := 8, signed := true, va := s.addrM th a i })
def execXst (e : BitVec 4) (a : Reg) (i : BitVec 10) (s : State) : Result :=
  onThread s 4 [a] (fun t th => s.store t th (.xst e a i) (s.addrM th a i) 8 th.e[e.toNat])

end Sys2Proof.Machine
end

