-- ==== Sys2Proof/Machine/Migration.lean ====
section
/-!
DEFINITION. Page migration, within the device and between devices (R121, R130), and redirects (R121, R344).
-/

namespace Sys2Proof.Machine

open Sys2Proof

/-! ## Redirects -/

/-- The access that a message carries, and the message with another physical address. -/
def msgAccess : HomeMsg → Option Access
  | .load a _ => some a
  | .store a _ _ => some a
  | .atomic a _ _ _ _ => some a
  | .publish a => some a
  | .declare a _ => some a
  | .part a _ _ => some a
  | .arm _ _ _ _ _ => none
  | .llc _ _ _ => none
  | .peer _ _ => none
  | .host _ _ _ => none

def msgAt (pa : Nat) : HomeMsg → HomeMsg
  | .load a k => .load { a with pa := pa } k
  | .store a op d => .store { a with pa := pa } op d
  | .atomic a op o b d => .atomic { a with pa := pa } op o b d
  | .publish a => .publish { a with pa := pa }
  | .declare a p => .declare { a with pa := pa } p
  | .part a p d => .part { a with pa := pa } p d
  | m => m

/-- A request whose page has gone fails as one to an unmapped page. -/
def State.failMsg (s : State) (m : HomeMsg) : State :=
  let r := fun (a : Access) => ({ cause := causePageFault, detail := 0, addr := a.va } : Refused)
  match m with
  | .load a k => s.failLoad a k (r a)
  | .store a op _ => s.refuseStore a.who a.core Config.latHome op (r a)
  | .atomic a op _ _ _ => s.failAtomic a op Config.latHome (r a)
  | .publish a => s.failAtomic a 0 Config.latHome (r a)
  | .declare a _ => s.failAtomic a 0 Config.latHome (r a)
  | .part a _ _ => s.refuseStore a.who a.core Config.latHome a.rid (r a)
  | .arm _ _ _ _ _ => s
  | .llc _ _ _ => s
  | .peer _ _ => s
  | .host _ _ _ => s

/-- The translations of an address that a tile and its cores keep. -/
def State.dropTranslation (s : State) (tile : Nat) (g : BitVec 8) (va : Nat) : State :=
  let keep := fun (e : TlbEntry) => !(e.guest == g && e.covers va)
  let s := s.modTile tile (fun x => { x with tlb := x.tlb.filter keep })
  { s with utlb := s.utlb.map (fun p => if p.1 / 16 = tile then (p.1, p.2.filter keep) else p) }

/-- A peer's request is refused back to its sender, whose port holds it for the entry of the new place (R344). -/
def State.redirectPeer (s : State) (dev rid : Nat) (stamp : Word) : State :=
  { s with peerAnswers := s.peerAnswers ++
      [{ dev := dev, rid := rid, val := 0, done := false, wts := 0, err := none, stamp := stamp, kind := .redirect }] }

/-- REDIRECT: the sender's port invalidates the stale entry and re-issues the request with the new translation, under its own tag;
a peer's redirect is held for the entry of the guest's new place (R344). A CWB or CINV names a physical line and goes to its home (R320). -/
def State.redirect (s : State) (m : HomeMsg) : State :=
  match m with
  | .peer rid op =>
    { s with peerOut := s.peerOut.map (fun o => if o.rid = rid ∧ o.op = op then { o with redirected := true } else o) }
  | .llc line t drop => s.llcAt line t drop
  | .arm t m n pa clock =>
    match s.thread? t with
    | some th => s.send (placeOfSlot th.home) (chanThread t (lineOf pa)) Config.latHome (.armRequest t m n pa clock)
    | none => s
  | _ =>
    match msgAccess m with
    | some a =>
      let s := s.dropTranslation (a.core / 16) a.guest (low56 a.va)
      match s.walk a.guest (low56 a.va) with
      | .page e =>
        let m := msgAt (e.phys (low56 a.va)) m
        s.send (s.placeOf a.who a.core) (chanOf a.who (e.phys (low56 a.va))) Config.latHome m.event
      | .frozen _ => s.post (s.placeOf a.who a.core) noChan (s.clk + 1) s.cur (.event (.redirect m))
      | .none => match a.who with
        | .peer dev rid w => s.redirectPeer dev rid w
        | _ => s.failMsg m
    | none => s

def execRedirect (s : State) : Result :=
  onEvent s (fun s e => match e with
    | .redirect m => some (s.redirect m)
    | _ => none)

/-! ## Page migration -/

/-- Frames f to f + n − 1. -/
def inFrames (f n pa : Nat) : Bool := f * 65536 ≤ pa && pa < (f + n) * 65536

/-- The lines of a range of frames that a stash holds or that are being recalled. -/
def State.heldLines (s : State) (f n : Nat) : List Nat :=
  (s.lines.filter (fun p => inFrames f n (p.1 * 128) && (p.2.holder.isSome || p.2.recalling))).map (fun p => p.1)

/-- The valid entries of a range of frames. -/
def State.framesIn (s : State) (f n : Nat) : List (Nat × Frame) := s.frames.filter (fun p => f ≤ p.1 && p.1 < f + n && p.2.v)

/-- The freeze: entries are marked, and every stash holder is recalled. -/
def State.freeze (s : State) (src n : Nat) : State :=
  let s := (s.framesIn src n).foldl (fun (s : State) p => s.putFrame p.1 { p.2 with frz := true })
    { s with migrating := s.migrating ++ [(src, n)] }
  (s.heldLines src n).foldl (fun (s : State) l => s.recallLine l) s

/-- Mapping entries onto the frames become unmapped, once their lines have been recalled (R130). -/
def State.unmapFrames (s : State) (src n : Nat) : State :=
  { s with tiles := s.tiles.map (fun (p : Nat × Tile) => (p.1, { p.2 with map := p.2.map.filter (fun q => !inFrames src n q.2.pa) })) }

/-- An address of the old frames at its new place. -/
def moved (src dst n pa : Nat) : Nat := if inFrames src n pa then pa - src * 65536 + dst * 65536 else pa

/-- The bytes of the frames are copied. -/
def State.copyFrames (s : State) (src dst n : Nat) : State :=
  let s := (s.mem.filter (fun c => inFrames dst n c.1)).foldl (fun (s : State) c => s.writeMem c.1 [0]) s
  (s.mem.filter (fun c => inFrames src n c.1)).foldl (fun (s : State) c => s.writeMem (moved src dst n c.1) [c.2]) s

/-- A request that is on its way to an old home is refused back to its sender, in the cycle in which it arrives. -/
def redirectWork (src dst n : Nat) (w : Work) : Work :=
  let old := fun (a : Access) => inFrames src n a.pa
  match w with
  | .event (.homeLoad a k) => if old a then .event (.redirect (.load a k)) else w
  | .event (.homeStore a op d) => if old a then .event (.redirect (.store a op d)) else w
  | .event (.homeAtomic a op o b d) => if old a then .event (.redirect (.atomic a op o b d)) else w
  | .event (.publication a) => if old a then .event (.redirect (.publish a)) else w
  | .event (.declarationAtHome a p) => if old a then .event (.redirect (.declare a p)) else w
  | .event (.sumPartArrival a p d) => if old a then .event (.redirect (.part a p d)) else w
  | .event (.armRequest t m k pa c) => if inFrames src n pa then .event (.redirect (.arm t m k (moved src dst n pa) c)) else w
  | _ => w

/-- An open merge at its new home. -/
def Sum.at_ (m : Sum) (f : Nat → Nat) : Sum :=
  let at_ := fun (a : Access) => { a with pa := f a.pa }
  { m with early := m.early.map (fun p => (p.1, p.2.1, at_ p.2.2)), parked := m.parked.map (fun q => (at_ q.1, q.2)) }

/-- A line's record as its new home takes it over. -/
def HomeLine.movedTo (l : HomeLine) (f : Nat → Nat) : HomeLine := { l with held := [], llc := none, sum := l.sum.map (fun m => m.at_ f) }

/-- Line records, arms, locks and the ranges of outstanding operations follow the page; copies of the old lines and their
translations go. -/
def State.moveLines (s : State) (src dst n : Nat) : State :=
  let line := fun (l : Nat) => lineOf (moved src dst n (l * 128))
  let gone := s.lines.filter (fun p => inFrames src n (p.1 * 128))
  let lines := gone.foldl (fun m p => KMap.set (KMap.erase m p.1) (line p.1) (p.2.movedTo (moved src dst n)))
    (s.lines.filter (fun p => !inFrames dst n (p.1 * 128)))
  let keepC := fun (c : Copy) => !inFrames src n (c.line * 128) && !inFrames dst n (c.line * 128)
  let keepE := fun (e : TlbEntry) => !(e.pa < (src + n) * 65536 && src * 65536 < e.pa + 2 ^ e.bits)
  { s with
    lines := lines
    arms := s.arms.map (fun a => { a with line := line a.line })
    locks := s.locks.map (fun k => { k with line := line k.line })
    tagged := s.tagged.map (fun x => { x with pa := x.pa.map (moved src dst n) })
    agenda := s.agenda.map (fun p => { p with work := redirectWork src dst n p.work })
    l1 := s.l1.map (fun p => (p.1, p.2.filter keepC)), l2 := s.l2.filter (fun c => keepC c.copy)
    utlb := s.utlb.map (fun p => (p.1, p.2.filter keepE))
    tiles := s.tiles.map (fun p => (p.1, { p.2 with tlb := p.2.tlb.filter keepE, const := p.2.const.filter keepC })) }

/-- The threads and the commands that a frozen page held go on (R120, R121). -/
def State.thaw (s : State) : State :=
  let s := s.tiles.foldl (fun (s : State) p => p.2.commands.foldl (fun (s : State) c => s.engAgain p.1 c.id false) s) s
  s.threads.foldl (fun (s : State) p => match p.2.wait with
    | .frozen (some i) => s.resumeWith p.1 i id
    | .frozen none => s.setThread p.1 p.2.rejoin
    | .tlb _ _ =>
      if s.agenda.any (fun q => q.work == .event (.translationInstalled p.1)) then s
      else s.post (placeOfSlot p.2.home) noChan s.clk p.1 (.event (.translationInstalled p.1))
    | _ => s) s

/-- The held request of an old home as it comes back to its sender. -/
def heldEvent (src dst n : Nat) (m : HomeMsg) : Event :=
  match m with
  | .host pa g d => .hostWrite (moved src dst n pa) g d
  | .arm t m k pa c => .redirect (.arm t m k (moved src dst n pa) c)
  | m => .redirect m

/-- The copy, the update of both inverted tables, and the redirect of what the old homes held. -/
def State.migrate (s : State) (src dst n : Nat) (x : Tables) : State :=
  let held := (s.lines.filter (fun p => inFrames src n (p.1 * 128))).flatMap (fun p => p.2.held.map (·.2))
  let s := (s.copyFrames src dst n).moveLines src dst n
  let s := (s.framesIn src n).foldl (fun (s : State) p => s.putFrame p.1 { p.2 with v := false, frz := false })
    { s with migrating := s.migrating.filter (fun r => r != (src, n)) }
  let s := s.install x
  held.foldl (fun (s : State) m => s.send placeOfFront noChan Config.latHome (heldEvent src dst n m)) s.thaw

/-! ### Between devices (R121; DESIGN CHOICE, log entry 86) -/

/-- A monitor armed on a line that leaves is signalled, as one that its home cannot record (R191). -/
def State.dropArms (s : State) (src n : Nat) : State :=
  let gone := fun (a : Arm) => inFrames src n (a.line * 128)
  let s := ((s.arms.filter gone).map (·.line)).eraseDups.foldl (fun (s : State) l => s.signal l Config.latHome 0) s
  { s with arms := s.arms.filter (fun a => !gone a) }

/-- A page that goes to another device: what its old home held, or is on its way there, goes back to its senders, and nothing of it is left. -/
def State.leave (s : State) (src n : Nat) (x : Tables) : State :=
  let held := (s.lines.filter (fun p => inFrames src n (p.1 * 128))).flatMap (fun p => p.2.held.map (·.2))
  let s := (s.dropArms src n).moveLines src src n
  let s := (s.framesIn src n).foldl (fun (s : State) p => s.putFrame p.1 { p.2 with v := false, frz := false })
    { s with
      migrating := s.migrating.filter (fun r => r != (src, n))
      lines := s.lines.filter (fun p => !inFrames src n (p.1 * 128)), locks := s.locks.filter (fun k => !inFrames src n (k.line * 128)) }
  let s := s.install x
  held.foldl (fun (s : State) m => match m with
    | .arm t m k _ _ => s.send placeOfFront noChan Config.latHome (.monitorSignal t m k 0)
    | m => s.send placeOfFront noChan Config.latHome (heldEvent src src n m)) s.thaw

/-- A page that comes from another device: its lines have the bytes, the times and the full-empty bits that they had there. -/
def State.arrive (s : State) (dst n : Nat) (x : Tables) (ls : List PageLine) : State :=
  let s := { s with lines := s.lines.filter (fun p => !inFrames dst n (p.1 * 128)) }
  let s := ls.foldl (fun (s : State) l => (s.writeMem (dst * 65536 + l.at_ * 128) l.data).setLine (dst * 512 + l.at_)
    { HomeLine.init with wts := l.wts, rts := l.rts, fe := l.fe }) s
  (s.install x).thaw

/-- PAGE_MIGRATION: its start, which goes on until every line of the page is back at its home, and its end, which waits for that. A page that
comes from another device has no start here. -/
def State.pageMigration (s : State) (start : Bool) (src dst : Option Nat) (n : Nat) (x : Tables) (ls : List PageLine) : State :=
  match src with
  | none => match dst with
    | some dst => if start then s else s.arrive dst n x ls
    | none => s
  | some f =>
    let s := if start && !s.migrating.contains (f, n) then s.freeze f n else s
    if !s.migrating.contains (f, n) then s
    else if !(s.heldLines f n).isEmpty then
      s.post placeOfFront noChan (s.clk + 1) s.cur (.event (.pageMigration start src dst n x ls))
    else if start then s.unmapFrames f n
    else match dst with
      | some dst => (s.unmapFrames f n).migrate f dst n x
      | none => (s.unmapFrames f n).leave f n x

def execPageMigration (s : State) : Result :=
  onEvent s (fun s e => match e with
    | .pageMigration start src dst n x ls => some (s.pageMigration start src dst n x ls)
    | _ => none)

end Sys2Proof.Machine
end

