-- ==== Sys2Proof/Machine/Packed.lean ====
section
/-!
DEFINITION. Packed lanes (R241, R242).
-/

namespace Sys2Proof.Machine

open Sys2Proof

/-- Bits of a lane, and how many lanes a register holds. -/
def laneBits : Lanes → Nat
  | .b => 8 | .h => 16 | .w => 32 | .l6 => 6
def laneCount : Lanes → Nat
  | .b => 8 | .h => 4 | .w => 2 | .l6 => 10

/-- Applies f to each lane alone; bits above the last lane are 0. -/
def lanewise (l : Lanes) (f : Nat → Nat → Nat) (a b : Word) : Word :=
  let w := laneBits l
  BitVec.ofNat 64 ((List.range (laneCount l)).foldl (fun v i =>
    v + f (bits a.toNat (w * i) w) (bits b.toNat (w * i) w) % 2 ^ w * 2 ^ (w * i)) 0)

/-- A lane as an integer, unsigned or signed. -/
def laneInt (u : Bool) (w x : Nat) : Int := if u then (x : Int) else signedOf w x

/-- An integer saturated to the lane's range. -/
def saturate (u : Bool) (w : Nat) (v : Int) : Nat :=
  if u then (max 0 (min v (2 ^ w - 1 : Nat))).toNat
  else natOfInt w (max (-(2 ^ (w - 1) : Nat)) (min v (2 ^ (w - 1) - 1 : Nat)))

def l6Nan : Nat := logNan 6
def ones (w : Nat) : Nat := 2 ^ w - 1

/-- The smaller or larger of two lanes. -/
def laneMinMax (big u : Bool) (l : Lanes) (x y : Nat) : Nat :=
  match l with
  | .l6 =>
    if x = l6Nan ∨ y = l6Nan then l6Nan
    else
      let less := numLt (decodeNum .l6 y) (decodeNum .l6 x)
      if big then (if numLt (decodeNum .l6 x) (decodeNum .l6 y) then y else x) else (if less then y else x)
  | _ =>
    let w := laneBits l
    if big then (if laneInt u w x < laneInt u w y then y else x) else (if laneInt u w y < laneInt u w x then y else x)

def execPadd (l : Lanes) (d a b : Reg) (s : State) : Result := alu2 4 d a b (lanewise l (fun x y => x + y)) s
def execPsub (l : Lanes) (d a b : Reg) (s : State) : Result :=
  alu2 4 d a b (lanewise l (fun x y => x + 2 ^ laneBits l - y)) s
def execPadds (u : Bool) (l : Lanes) (d a b : Reg) (s : State) : Result :=
  alu2 4 d a b (lanewise l (fun x y => saturate u (laneBits l) (laneInt u (laneBits l) x + laneInt u (laneBits l) y))) s
def execPsubs (u : Bool) (l : Lanes) (d a b : Reg) (s : State) : Result :=
  alu2 4 d a b (lanewise l (fun x y => saturate u (laneBits l) (laneInt u (laneBits l) x - laneInt u (laneBits l) y))) s
def execPmin (u : Bool) (l : Lanes) (d a b : Reg) (s : State) : Result := alu2 4 d a b (lanewise l (laneMinMax false u l)) s
def execPmax (u : Bool) (l : Lanes) (d a b : Reg) (s : State) : Result := alu2 4 d a b (lanewise l (laneMinMax true u l)) s

/-- The product of two lanes: modulo 2^w, or of two L6 values (R242). -/
def laneMul (l : Lanes) (x y : Nat) : Nat :=
  match l with
  | .l6 => encodeNum .l6 .rne (product .l6 x y)
  | _ => x * y

def execPmul (l : Lanes) (d a b : Reg) (s : State) : Result := alu2 4 d a b (lanewise l (laneMul l)) s
def execPcmpeq (l : Lanes) (d a b : Reg) (s : State) : Result :=
  alu2 4 d a b (lanewise l (fun x y => if x = y ∧ ¬ (l = .l6 ∧ x = l6Nan) then ones (laneBits l) else 0)) s
def execPcmpgt (u : Bool) (l : Lanes) (d a b : Reg) (s : State) : Result :=
  alu2 4 d a b (lanewise l (fun x y => if laneInt u (laneBits l) y < laneInt u (laneBits l) x then ones (laneBits l) else 0)) s

end Sys2Proof.Machine
end

