-- ==== Sys2Proof/Machine/Peer.lean ====
section
/-!
DEFINITION. The pod: the convoy clock (R330 to R333), peer requests at this device and the answers to this device's own (R191, R323,
R340, R341, R376), and the saving and restoring of a guest (R343, R344).
-/

namespace Sys2Proof.Machine

open Sys2Proof

/-! ## The convoy clock -/

/-- SYNC_FRAME: the first sets WALL (R333); later ones steer its rate by at most 100 parts per million (R330). More than 200 ns of
offset begins holdover, and 16 frames in a row of at most 50 ns end it (R332). -/
def State.syncFrame (s : State) (podTime : Word) (offset slew : Int) : State :=
  let s := if s.synced then s else { s with synced := true, wall := podTime, wallFrac := 0 }
  let good := if offset.natAbs ≤ 50 then s.goodSyncs + 1 else 0
  let s := { s with
    lastSync := s.clk, offset := offset, slew := max (-100) (min 100 slew), goodSyncs := good, hold := s.hold && !(16 ≤ good) }
  if 200 < offset.natAbs then s.now (.holdoverEntry s.dev true) else s

def execSyncFrame (s : State) : Result :=
  onEvent s (fun s e => match e with
    | .syncFrame w offset slew => some (s.syncFrame w offset slew)
    | _ => none)

/-- HOLDOVER_ENTRY: WALL runs on the device's own oscillator (R332). The devices of a pod tell each other of it, for the actions on which
they must agree (DEDUCED, log entry 32). -/
def execHoldoverEntry (s : State) : Result :=
  onEvent s (fun s e => match e with
    | .holdoverEntry dev on => some (
      if dev = s.dev then (if on then { s with hold := true, goodSyncs := 0, slew := 0 } else s)
      else { s with podHold := if on then s.podHold.filter (· != dev) ++ [dev] else s.podHold.filter (· != dev) })
    | _ => none)

/-! ## Peer requests that arrive here (R340) -/

/-- The address of a request as its thread names it: with this device's index. -/
def State.peerName (s : State) (va : Word) : Word :=
  BitVec.ofNat 64 ((if topByte va = 0 then 0x40 + s.dev else 0xC0 + s.dev) * 2 ^ 56 + low56 va)

/-- The access of a peer's request at a home. -/
def State.peerAccess (s : State) (r : PeerReq) (pa n : Nat) : Access :=
  { who := .peer r.dev r.rid r.stamp, rid := r.rid, va := s.peerName r.va, pa := pa, n := n, clock := r.clock, guest := r.guest, core := 0 }

/-- A peer's request is refused; an arm is answered by a signal that raises no clock instead. -/
def State.refusePeer (s : State) (r : PeerReq) (cause detail : Nat) : State :=
  match r.what with
  | .arm _ arm => s.signalPeer r.dev arm 0
  | .withdraw => s
  | _ => s.answerPeer r.dev r.rid r.stamp 0 false 0 (some { cause := cause, detail := detail, addr := s.peerName r.va })

/-- Whether a request needs W permission. -/
def peerWrites : PeerOp → Bool
  | .store _ _ => true
  | .storeGaps _ _ => true
  | .atomic _ _ _ _ => true
  | .stash .publish => true
  | _ => false

/-- A monitor of a peer's thread is armed on a line of this device (R166, R191); one at a dead die fails as a posted access does (R301). -/
def State.armPeer (s : State) (r : PeerReq) (m arm pa : Nat) : State :=
  if s.deadDies.contains (homeDie pa) then
    s.answerPeer r.dev r.rid r.stamp 0 false 0 (some { cause := causeUncorrectable, detail := 5, addr := s.peerName r.va })
  else
  let w := (s.line (lineOf pa)).wts
  let (full, s) := s.flip Config.armFull
  let s := if full then s else { s with arms := s.arms ++ [{ tid := 2 ^ 64 + r.dev, m := m, arm := arm, line := lineOf pa, peer := some r.dev }] }
  if full || r.clock < w then s.signalPeer r.dev arm w else s

/-- The request is carried out at a line's home, as an access of the named guest. -/
def State.peerAtHome (s : State) (r : PeerReq) (pa : Nat) : State :=
  match r.what with
  | .load n => s.homeLoad (s.peerAccess r pa n) .bare
  | .store n v => s.homeStore (s.peerAccess r pa n) 0 (bytesOf v.toNat n)
  | .storeGaps bs gaps => s.homeStore { s.peerAccess r pa bs.length with gaps := gaps } 0 bs
  | .atomic n op b d => s.homeAtomic (s.peerAccess r pa n) 0 op b d
  | .stash .publish => s.publish (s.peerAccess r pa 8)
  | .stash .acq => s.homeLoad (s.peerAccess r pa 8) .acq
  | .arm m arm => s.armPeer r m arm pa
  | _ => s.refusePeer r causeProtection 3

/-- A request whose page is unmapped waits for the front desk's service (R340); an arm is answered at once (R191). -/
def State.holdPeer (s : State) (r : PeerReq) : State :=
  match r.what with
  | .arm _ arm => s.signalPeer r.dev arm 0
  | _ => { s with heldPeer := s.heldPeer ++ [{ req := r, since := s.clk }] }

/-- The request as one to a stash of the named guest's party. -/
def State.peerStashReq (s : State) (r : PeerReq) (what : StashOp) : StashReq :=
  let tile := (s.guest r.guest).tile (lodgeField r.va) (tileField r.va)
  { who := .peer r.dev r.rid r.stamp, src := tile, rid := r.rid, va := s.peerName r.va, tile := tile, off := stashOff r.va, what := what, clock := r.clock, guest := r.guest, op := 0, refusals := 0, own := false }

/-- A peer's request at a stash. -/
def State.peerAtStash (s : State) (r : PeerReq) (what : StashOp) : State :=
  let q := s.peerStashReq r what
  if s.bankOk q.tile q.off r.guest && (s.resident q.tile q.off).isNone && (s.backingPa q.tile q.off r.guest).isNone &&
      !(s.tile q.tile).filling.contains (q.off / 128) then s.holdPeer r
  else s.remoteStash q

/-- The checks of the request as the named guest's own access (R122), and then the access. -/
def State.servePeer (s : State) (r : PeerReq) : State :=
  match s.spaceOf r.va with
  | .global =>
    match s.walk r.guest (low56 r.va) with
    | .none => s.holdPeer r
    | .frozen e => (match r.what with
      | .arm _ _ => s.post (placeOfPeer r.dev) noChan (s.clk + 1) s.cur (.event (.peerRequest { r with convoy := 0 }))
      | _ => if e.r && (!peerWrites r.what || e.w) then s.peerAtHome r (e.phys (low56 r.va)) else s.refusePeer r causeProtection 5)
    | .page e => if e.r && (!peerWrites r.what || e.w) then s.peerAtHome r (e.phys (low56 r.va)) else s.refusePeer r causeProtection 5
  | .party =>
    match r.what with
    | .stash what => if s.spaceOk r.guest r.va 1 then s.peerAtStash r what else s.refusePeer r causeProtection 2
    | _ => s.refusePeer r causeProtection 3
  | _ => s.refusePeer r causeProtection 2

/-- Whether a request is the one that a peer withdraws. -/
def fromPeer (dev rid : Nat) (q : StashReq) : Bool := (match q.who with | .peer d n _ => d == dev && n == rid | _ => false)

/-- A peer withdraws a request (R190): removed and confirmed if it has not been applied; its answer is on its way otherwise. -/
def State.withdrawPeer (s : State) (dev rid : Nat) (stamp : Word) : State :=
  let mine := fun (h : HeldPeer) => h.req.dev == dev && h.req.rid == rid
  let found := s.heldPeer.any mine ||
    s.tiles.any (fun p => p.2.park.any (fun x => fromPeer dev rid x.req) || p.2.fillWait.any (fun x => fromPeer dev rid x.req))
  if found then
    { s with
      heldPeer := s.heldPeer.filter (fun h => !mine h)
      tiles := s.tiles.map (fun p => (p.1, { p.2 with
        park := p.2.park.filter (fun x => !fromPeer dev rid x.req), fillWait := p.2.fillWait.filter (fun x => !fromPeer dev rid x.req) }))
      peerAnswers := s.peerAnswers ++ [{ dev := dev, rid := rid, val := 0, done := false, wts := 0, err := none, stamp := stamp, kind := .withdrawn }] }
  else s

/-- The accesses to a stash that the save of their guest quarantines (R343): stores, STF, FESET, FECLR and atomics. -/
def peerQuarantined : PeerOp → Bool
  | .stash (.store _ _) => true
  | .stash (.storeLine _) => true
  | .stash (.storeGaps _ _) => true
  | .stash (.stf _) => true
  | .stash .feset => true
  | .stash .feclr => true
  | .stash (.atomic _ _ _ _) => true
  | _ => false

/-- PEER_REQUEST: redirected for a guest saved away, quarantined while it is being saved or restored (R343, R344), served otherwise. A convoy
counts it, but for one that it has counted where it went first (R336). -/
def State.peerArrived (s : State) (r : PeerReq) : State :=
  let s := if r.convoy = 0 || r.again then s else s.modConvoy r.guest r.convoy (fun v => { v with arrived := v.arrived + 1 })
  let s := match r.what, s.saved.find? (fun v => v.guest == r.guest) with
    | .withdraw, _ => s.withdrawPeer r.dev r.rid r.stamp
    | what, some v =>
      if v.complete && !v.restoring then s.redirectPeer r.dev r.rid r.stamp
      else if peerQuarantined what && s.spaceOf r.va == .party then
        { s with saved := s.saved.map (fun x => if x.guest = r.guest then { x with quarantine := x.quarantine ++ [r] } else x) }
      else s.servePeer r
    | _, none => s.servePeer r
  if r.convoy = 0 then s else s.checkStop r.guest r.convoy

def execPeerRequest (s : State) : Result :=
  onEvent s (fun s e => match e with
    | .peerRequest r => some (s.peerArrived r)
    | _ => none)

/-- PEER_FAULT_SERVICE: the front desk has mapped the page, and the request is tried again, or has declined (R340). -/
def State.peerServed (s : State) (dev rid : Nat) (mapped : Option Tables) : State :=
  let mine := fun (h : HeldPeer) => h.req.dev == dev && h.req.rid == rid
  match s.heldPeer.find? mine with
  | some h =>
    let s := { s with heldPeer := s.heldPeer.filter (fun h => !mine h) }
    match mapped with
    | some x => ((s.install x).retryFills).servePeer h.req
    | none => s.refusePeer h.req causePageFault 0
  | none => s

def execPeerFaultService (s : State) : Result :=
  onEvent s (fun s e => match e with
    | .peerFaultService dev rid mapped => some (s.peerServed dev rid mapped)
    | _ => none)

/-! ## Requests of this device (R340, R341) -/

def PeerOut.is (o : PeerOut) (rid op : Nat) : Bool := o.rid == rid && o.op == op

/-- HOLDING_NOTICE: the limit of the request begins anew; or the peer tells that its home has parked the load (log entry 70). -/
def execHoldingNotice (s : State) : Result :=
  onEvent s (fun s e => match e with
    | .holdingNotice rid op parked => some { s with peerOut := s.peerOut.map (fun o =>
        if o.is rid op then (if parked then { o with parked := true } else { o with sentAt := s.clk }) else o) }
    | _ => none)

/-- A peer request that waits for an answer: an arm and a withdrawal wait for none, and a held or redirected one has not left. -/
def PeerOut.awaits (o : PeerOut) : Bool :=
  !o.held && !o.redirected && (match o.what with | .arm _ _ => false | .withdraw => false | _ => true)

/-- PEER_TIMEOUT (R341). -/
def State.peerLate (s : State) (rid op : Nat) : State :=
  match s.peerOut.find? (fun o => o.is rid op) with
  | some o =>
    if !o.awaits || s.clk < o.sentAt + Config.peerLimit then s
    else
      let r : Refused := { cause := causeUncorrectable, detail := 6, addr := o.va }
      let s := { s with
        peerOut := s.peerOut.filter (fun o => !o.is rid op)
        unreachable := if s.unreachable.contains o.dev then s.unreachable else s.unreachable ++ [o.dev] }
      let s := s.log 0x80 o.dev o.va 0
      match o.eng with
      | some (tile, id, _) => s.refuseEngine tile id r
      | none =>
        if rid = 0 then s.losePosted op r false
        else
          let s := if op = 0 then s else s.ackOp op none
          match s.thread? o.tid with
          | some th => if th.wait.expects rid then s.threadRefused o.tid th r else s
          | none => s
  | none => s

def execPeerTimeout (s : State) : Result :=
  onEvent s (fun s e => match e with
    | .peerTimeout rid op => some (s.peerLate rid op)
    | _ => none)

/-! ## Saving and restoring a guest (R343, R344) -/

/-- A posted request that is parked in a stash of this device: it is part of the image. -/
def State.opParked (s : State) (op : Nat) : Bool := s.tiles.any (fun p => p.2.park.any (fun x => x.req.op == op))

/-- The waits that an image keeps: those that nothing under way ends. -/
def Wait.kept (s : State) : Wait → Bool
  | .none => true
  | .ackTag _ => true
  | .fence _ => true
  | .relWait _ => true
  | .overlap _ _ => true
  | w => w.openEnded s

/-- A guest's image is complete: nothing of it is on its way or at work, but for what is parked (DESIGN CHOICE, log entry 41). -/
def State.imageDone (s : State) (g : BitVec 8) : Bool :=
  s.tagged.all (fun x => (s.launch? x.launch).all (fun l => l.rcd.guest != g) || s.opParked x.op) &&
    s.threads.all (fun p => p.2.guest != g || p.2.halted || p.2.wait.kept s) &&
    s.tiles.all (fun p => p.2.commands.all (fun c => c.guest != g))

/-- GUEST_SAVE: the guest's threads leave their slots, which others may take; the save ends when its image is complete. -/
def State.saveGuest (s : State) (g : BitVec 8) : State :=
  match s.saved.find? (fun v => v.guest == g) with
  | none =>
    let ts := s.threads.filter (fun p => p.2.guest == g && !p.2.halted && !p.2.stopped)
    let v : SavedGuest := { guest := g, threads := ts.map (fun p => (p.1, p.2.home)), quarantine := [], complete := false }
    let s := ts.foldl (fun (s : State) p => s.setThread p.1 { p.2 with stopped := true, place := none }) { s with saved := s.saved ++ [v] }
    let s := (ts.map (fun p => tileOf p.2.home)).eraseDups.foldl (fun (s : State) x => s.slotsFreed x) s
    s.post placeOfFront noChan (s.clk + 1) s.cur (.event (.guestSave g))
  | some v =>
    if v.complete then s
    else if s.imageDone g then { s with saved := s.saved.map (fun x => if x.guest = g then { x with complete := true } else x) }
    else s.post placeOfFront noChan (s.clk + 1) s.cur (.event (.guestSave g))

def execGuestSave (s : State) : Result :=
  onEvent s (fun s e => match e with
    | .guestSave g => some (s.saveGuest g)
    | _ => none)

/-! ### An image that another device has sent (R343; DESIGN CHOICE, log entry 86) -/

/-- What the numbers of an image are counted on from: this device's next thread, launch, request and operation. -/
structure Numbers where
  tid    : Nat
  launch : Nat
  rid    : Nat
  op     : Nat

def State.numbers (s : State) : Numbers := { tid := s.nextTid, launch := s.nextLaunch, rid := s.nextRid, op := s.nextOp }

def Wait.renumbered (n : Numbers) : Wait → Wait
  | .load rid l => .load (n.rid + rid) l
  | .overlap i ops => .overlap i (ops.map (n.op + ·))
  | .atomic rid d k z last => .atomic (n.rid + rid) d k z last
  | .gather g => .gather { g with base := n.rid + g.base }
  | .fullEmpty rid d va => .fullEmpty (n.rid + rid) d va
  | .feStatus rid d q => .feStatus (n.rid + rid) d q
  | .relPub rid => .relPub (n.rid + rid)
  | .acq rid => .acq (n.rid + rid)
  | .declare rid => .declare (n.rid + rid)
  | w => w

/-- A thread of an image as the restore begins: saved, and stopped until every quarantined access has taken effect. Its monitors are signalled,
as those that their homes have not recorded (R191). -/
def Thread.restored (th : Thread) (g gen : BitVec 8) (n : Numbers) : Thread :=
  { th with
    place := none, stopped := true, guest := g, gen := gen, launch := n.launch + th.launch, parent := th.parent.map (n.tid + ·)
    wait := th.wait.renumbered n
    mons := th.mons.map (fun m => if m.arm = 0 then m else { arm := n.rid + m.arm, signal := some (m.signal.getD 0) }) }

def renumberedAgent (n : Numbers) : Agent → Agent
  | .thread t => .thread (n.tid + t)
  | a => a

def Parked.renumbered (p : Parked) (g : BitVec 8) (n : Numbers) : Parked :=
  let r := p.req
  let mine := r.who matches .thread _
  { p with req := { r with who := renumberedAgent n r.who, guest := g, rid := if mine && r.rid != 0 then n.rid + r.rid else r.rid
                           op := if mine && r.op != 0 then n.op + r.op else r.op } }

/-- A saved thread, its slot's tag and, where its wait has an end of its own, that end. -/
def State.restoreThread (s : State) (g : BitVec 8) (n : Numbers) (t : Nat) (th : Thread) : State :=
  let th := th.restored g (s.guest g).gen n
  let t := n.tid + t
  let s := { s.setThread t th with nextTid := max s.nextTid (t + 1), owners := KMap.set s.owners th.home (g, th.gen) }
  match th.wait with
  | .monitor (some d) => s.post (placeOfSlot th.home) noChan (max d s.clk) t (.event (.mwaitTimeout t))
  | .sleep d => s.post (placeOfSlot th.home) noChan (max d s.clk) t (.event (.sleepExpiry t))
  | _ => s

/-- A tile of the guest: its latches and accumulators, its stamps, its parked requests, and its stash's lines, registered to it. -/
def State.restoreTile (s : State) (g : BitVec 8) (n : Numbers) (tile : Nat) (m : TileImage) : State :=
  let s := s.modTile tile (fun x => { x with
    mxSaved := KMap.set x.mxSaved g.toNat m.mx, stamps := m.stamps.foldl (fun l p => KMap.set l p.1 p.2) x.stamps
    park := x.park ++ m.park.map (fun p => p.renumbered g n) })
  let s := m.lines.foldl (fun (s : State) p =>
    (s.setStashLine tile p.1 { p.2 with guest := g, gen := (s.guest g).gen }).modLine p.2.line (fun l => { l with holder := some (tile, p.2.reg) })) s
  m.stash.foldl (fun (s : State) c => s.writeMem (stashKey tile c.1) [c.2]) s

/-- The image is put in place; its quarantined accesses come next. -/
def State.placeImage (s : State) (g : BitVec 8) (m : GuestImage) : State :=
  let n := s.numbers
  let s := m.threads.foldl (fun (s : State) p => s.restoreThread g n p.1 p.2) s
  let s := m.launches.foldl (fun (s : State) p => { s with
    launches := KMap.set s.launches (n.launch + p.1) { p.2 with rcd := { p.2.rcd with guest := g } }, nextLaunch := max s.nextLaunch (n.launch + p.1 + 1) }) s
  let s := m.banks.foldl (fun (s : State) p => { s with banks := KMap.set s.banks (bankKey p.1 g) p.2 }) s
  let s := m.local_.foldl (fun (s : State) p => s.writeMem (localKey p.1 0) p.2) s
  let s := m.tiles.foldl (fun (s : State) p => s.restoreTile g n p.1 p.2) s
  let top := fun (l : List Nat) => l.foldl max 0 + 1
  let s : State := { s with
    tagged := s.tagged ++ m.tagged.map (fun (x : Tagged) => { x with op := n.op + x.op, tid := n.tid + x.tid, launch := n.launch + x.launch })
    nextOp := n.op + top (m.tagged.map (fun x => x.op))
    nextRid := n.rid + top (m.threads.flatMap (fun p => p.2.mons.toList.map (fun x => x.arm)) ++ m.tiles.flatMap (fun p => p.2.park.map (fun x => x.req.rid)))
    saved := s.saved.filter (fun v => v.guest != g) ++
      [{ guest := g, threads := m.threads.map (fun p => (n.tid + p.1, p.2.home)), quarantine := m.quarantine, complete := true, restoring := true }] }
  s.raiseFloor g m.floor

/-! ### The restore -/

/-- A quarantined access that the restore has begun has not taken effect yet: it waits for a fill, or for its page. -/
def State.unserved (s : State) (r : PeerReq) : Bool :=
  s.heldPeer.any (fun h => h.req.dev == r.dev && h.req.rid == r.rid) || s.tiles.any (fun p => p.2.fillWait.any (fun w => fromPeer r.dev r.rid w.req)) ||
    s.agenda.any (fun p => match p.work with
      | .event (.remoteStashAccess q) => fromPeer r.dev r.rid q
      | _ => false)

/-- The guest's threads are back: those that a slot takes go on, and its waiting units are placed; an MWAIT whose monitors have been signalled
ends. -/
def State.endRestore (s : State) (v : SavedGuest) : State :=
  let s := { s with saved := s.saved.filter (fun x => x.guest != v.guest) }
  let s := v.threads.foldl (fun (s : State) p => match s.thread? p.1 with
    | some th =>
      let th := { th with stopped := false }
      if th.signalled && (th.wait matches .monitor _) then s.retire p.1 (th.consume false false false) else s.setThread p.1 th
    | none => s) s
  let s := (v.threads.map (fun p => tileOf p.2)).eraseDups.foldl (fun (s : State) x => s.enterSlots x) s
  s.offerUnits s.waitingLaunches

/-- GUEST_RESTORE: the quarantined accesses take effect in their order, one after the other, before any thread of the guest issues. The first
that has taken effect goes from the list; the next begins, and the event comes again until there is none. -/
def State.restoreStep (s : State) (g : BitVec 8) : State :=
  match s.saved.find? (fun v => v.guest == g) with
  | some v =>
    let again := fun (s : State) => s.post placeOfFront noChan (s.clk + 1) s.cur (.event (.guestRestore g none))
    let put := fun (s : State) (w : SavedGuest) => { s with saved := s.saved.map (fun x => if x.guest = g then w else x) }
    if !v.complete then s
    else match v.quarantine with
      | [] => s.endRestore v
      | r :: rs =>
        if !v.serving then again ((put s { v with restoring := true, serving := true }).servePeer r)
        else if s.unserved r then again s
        else again (put s { v with quarantine := rs, serving := false })
  | none => s

/-- Of this device's own save, or of an image from another device, whose restore begins when it has been put in place. -/
def State.restoreGuest (s : State) (g : BitVec 8) (image : Option GuestImage) : State :=
  match image with
  | some m => (s.placeImage g m).restoreStep g
  | none => s.restoreStep g

def execGuestRestore (s : State) : Result :=
  onEvent s (fun s e => match e with
    | .guestRestore g image => some (s.restoreGuest g image)
    | _ => none)

end Sys2Proof.Machine
end

