-- ==== Sys2Proof/Machine/Qos.lean ====
section
/-!
DEFINITION. Sharing (R276 to R284): stride scheduling of a tile's guests and the hand-over at a slice's end, the scrubber of stale
generations, the division of the L2 ways, and the token buckets.
-/

namespace Sys2Proof.Machine

open Sys2Proof

/-! ## Stride scheduling (R276, R277) -/

/-- A thread that could run: not ended, not held by a stop, not on an open-ended wait. -/
def State.runnable (s : State) (th : Thread) : Bool := !th.halted && !th.stopped && !th.wait.openEnded s

/-- The guests with a runnable thread on a tile, in ascending order. -/
def State.runnableGuests (s : State) (tile : Nat) : List Nat :=
  ((s.threads.filter (fun p => tileOf p.2.home == tile && s.runnable p.2)).foldl
    (fun (m : List (Nat × Bool)) p => KMap.set m p.2.guest.toNat true) []).map (·.1)

/-- The guest with the smallest pass; the lower number on a tie. -/
def Tile.smallestPass (x : Tile) : List Nat → Option Nat
  | [] => none
  | g :: gs =>
    match x.smallestPass gs with
    | none => some g
    | some h => if (x.guest (BitVec.ofNat 8 g)).pass ≤ (x.guest (BitVec.ofNat 8 h)).pass then some g else some h

/-- A guest that joins the tile, or comes back to it, starts no lower than the smallest pass of those that run (R277). -/
def Tile.rejoinPass (x : Tile) (running : List Nat) : Tile :=
  let old := running.filter (fun g => !(x.guest (BitVec.ofNat 8 g)).idle)
  let low := match x.smallestPass old with | some g => (x.guest (BitVec.ofNat 8 g)).pass | none => 0
  let x := running.foldl (fun (x : Tile) g => x.modGuest (BitVec.ofNat 8 g) (fun y =>
    if y.idle then { y with pass := max y.pass low, idle := false } else y)) x
  { x with guests := x.guests.map (fun p => if running.contains p.1 then p else (p.1, { p.2 with idle := true })) }

def Gqos.stride (q : Gqos) : Nat := 2 ^ 20 / q.tickets

/-- SLICE_END: the tile goes over to the guest with the smallest pass; its stash writes back its dirty lines (R278, R279). -/
def State.endSlice (s : State) (tile : Nat) : State :=
  let s := s.modTile tile (fun x => { x with sliceAt := 0 })
  match (s.tile tile).smallestPass (s.runnableGuests tile) with
  | some n =>
    let g := BitVec.ofNat 8 n
    let s := s.modTile tile (fun x => x.modGuest g (fun y => { y with pass := (y.pass + y.gqos.stride) % 2 ^ 64 }))
    if (s.tile tile).current = some g then s else (s.takeTile tile g).slotsFreed tile
  | none => s

def execSliceEnd (s : State) : Result :=
  onEvent s (fun s e => match e with
    | .sliceEnd tile => some (s.endSlice tile)
    | _ => none)

/-! ## The scrubber (R280) -/

/-- Entries that carry their guest's present generation. -/
def State.current (s : State) (g gen : BitVec 8) : Bool := gen == (s.guest g).gen

/-- The stale lines of stashes go. -/
def State.scrubStash (s : State) : State := { s with stash := s.stash.filter (fun p => s.lineLives p.2) }

/-- The local store of a stale slot reads as zero, and its tag goes. -/
def State.scrubLocal (s : State) : State :=
  (s.owners.filter (fun p => !s.current p.2.1 p.2.2)).foldl (fun (s : State) p =>
    { s.freshLocal p.1 with owners := KMap.erase s.owners p.1 }) s

/-- Copies, translations, frames and poison of older generations go. -/
def State.scrubRest (s : State) : State :=
  let keepE := fun (e : TlbEntry) => s.current e.guest e.gen
  let keepC := fun (c : Copy) => s.current c.guest c.gen
  { s with
    l1 := s.l1.map (fun p => (p.1, p.2.filter keepC))
    l2 := s.l2.filter (fun c => keepC c.copy)
    utlb := s.utlb.map (fun p => (p.1, p.2.filter keepE))
    tiles := s.tiles.map (fun p => (p.1, { p.2 with tlb := p.2.tlb.filter keepE, const := p.2.const.filter keepC }))
    frames := s.frames.map (fun p => (p.1, if s.current p.2.guest p.2.gen then p.2 else { p.2 with v := false }))
    lines := s.lines.map (fun p => (p.1, match p.2.poison with
      | some g => if s.current g p.2.poisonGen then p.2 else { p.2 with poison := none }
      | none => p.2)) }

/-- SCRUB_PASS; the bumps that waited for it go on (R318). -/
def State.scrub (s : State) : State :=
  let s := s.scrubStash.scrubLocal.scrubRest
  s.threads.foldl (fun (s : State) p => match p.2.wait with
    | .genbump g => s.bump p.1 p.2 g
    | _ => s) s

def execScrubPass (s : State) : Result :=
  onEvent s (fun s e => match e with
    | .scrubPass => some s.scrub
    | _ => none)

/-! ## The division of the L2 ways (R282) -/

/-- The guest that the next way goes to: the largest count at its next position; the lower number on a tie. -/
def nextWay (gs : List (Nat × TileGuest)) : Option Nat :=
  (gs.foldl (fun (b : Option (Nat × Nat)) p =>
    let n := p.2.hits[p.2.ways]?.getD 0
    if p.2.gqos.ceil ≤ p.2.ways ∨ n = 0 then b
    else match b with
      | some (_, m) => if m < n then some (p.1, n) else b
      | none => some (p.1, n)) none).map (·.1)

/-- Gives `left` ways one at a time. -/
def giveWays : (left : Nat) → List (Nat × TileGuest) → List (Nat × TileGuest)
  | 0, gs => gs
  | left + 1, gs =>
    match nextWay gs with
    | some g => giveWays left (gs.map (fun p => if p.1 = g then (p.1, { p.2 with ways := p.2.ways + 1 }) else p))
    | none => gs

/-- Ways of a set divided among guests, each from its floor and from no fewer than the lines it holds locked there. -/
def divideSet (ways : Nat) (locked : Nat → Nat) (gs : List (Nat × TileGuest)) : List (Nat × TileGuest) :=
  let start := gs.map (fun p => (p.1, { p.2 with ways := max p.2.gqos.floor (locked p.1) }))
  giveWays (ways - (start.map (fun p => p.2.ways)).sum) start

/-- The locks in a tile's slice. -/
def State.sliceLocks (s : State) (tile : Nat) : List Lock := s.locks.filter (fun k => s.sliceTile k.die (l2Set k.line).1 == tile)

/-- The sets of a tile's slice that are divided on their own: those with locks, and those with a retired way. -/
def State.oddSets (s : State) (tile : Nat) : List Nat :=
  ((s.sliceLocks tile).map (fun k => (l2Set k.line).2) ++ s.retired.filterMap (fun l => match l with
    | .l2way site set _ => if site == s.siteOf tile then some set else none
    | _ => none)).eraseDups

/-- The ways of a tile's slice given out, set by set: during PREDRAIN those outside the saddlebag, and none that is retired (R300). Ways left
over are shared by all (`State.waysFor`). -/
def State.giveOut (s : State) (tile : Nat) : State :=
  let x := s.tile tile
  let lockedIn := fun (set g : Nat) => ((s.sliceLocks tile).filter (fun k => (l2Set k.line).2 == set && k.guest.toNat == g)).length
  let odd := (s.oddSets tile).map (fun set => (set, divideSet (s.openWays tile set).length (lockedIn set) x.guests))
  s.setTile tile { x with guests := (divideSet (if s.preOn then 8 else Config.l2Ways) (fun _ => 0) x.guests).map (fun p =>
    (p.1, { p.2 with setWays := odd.foldl (fun l q => KMap.set l q.1 (((KMap.get? q.2 p.1).map (·.ways)).getD 0)) [] })) }

/-- WAY_DIVISION: the ways are given out, and the counts halved. -/
def State.divideWays (s : State) (tile : Nat) : State :=
  (s.giveOut tile).modTile tile (fun x => { x with guests := x.guests.map (fun p => (p.1, { p.2 with hits := p.2.hits.map (· / 2) })) })

def execWayDivision (s : State) : Result :=
  onEvent s (fun s e => match e with
    | .wayDivision tile => some (s.divideWays tile)
    | _ => none)

/-! ## Token buckets (R284) -/

/-- The guests with a request that waits at a tile's egress. -/
def State.egressActive (s : State) (tile : Nat) : List Nat :=
  (s.agenda.filterMap (fun p => p.unpaid.bind (fun u => if u.2.1 = tile then some u.2.2.1.toNat else none))).eraseDups

/-- One refill of a tile's buckets. -/
def Tile.refill (x : Tile) (active : List Nat) : Tile :=
  let x := active.foldl (fun (x : Tile) g => x.modGuest (BitVec.ofNat 8 g) id) x
  let gs := x.guests.map (fun p => (p.1, { p.2 with tokens := p.2.tokens + p.2.gqos.share }))
  let rest := (gs.map (fun p => p.2.tokens - 4 * p.2.gqos.share)).sum
  let gs := gs.map (fun p => (p.1, { p.2 with tokens := min p.2.tokens (4 * p.2.gqos.share) }))
  let pool := rest + (1024 - (gs.map (fun p => p.2.gqos.share)).sum)
  let act := gs.filter (fun p => active.contains p.1)
  let shares := (act.map (fun p => p.2.gqos.share)).sum
  { x with guests := gs.map (fun p =>
      if active.contains p.1 then
        (p.1, { p.2 with tokens := p.2.tokens + (if 0 < shares then pool * p.2.gqos.share / shares else pool / act.length) })
      else p) }

/-- The requests that wait at an egress, in their order: each leaves when its guest's bucket holds its cost, and its guest's later ones wait
behind it. One that leaves arrives as much later as it has waited, and not before the egress has sent it. -/
def State.letOut (s : State) : State :=
  let waiting := s.agenda.filter (fun p => p.unpaid.isSome)
  (waiting.foldl (fun (r : State × List (Nat × BitVec 8)) p =>
    let s := r.1
    match p.unpaid with
    | some (since, tile, g, n) =>
      if r.2.contains (tile, g) then r
      else if (s.tile tile).tokensOf g < n then (s, r.2 ++ [(tile, g)])
      else
        let (x, sent) := (s.tile tile).leaves s.clk g n
        let s := s.setTile tile x
        ({ s with agenda := s.agenda.map (fun q =>
            if q.seq = p.seq then { q with unpaid := none, due := max (q.due + (s.clk - since)) sent } else q) }, r.2)
    | none => r) (s, [])).1

/-- TOKEN_REFILL, at every tile. -/
def execTokenRefill (s : State) : Result :=
  onEvent s (fun s e => match e with
    | .tokenRefill => some ({ s with tiles := s.tiles.map (fun p => (p.1, p.2.refill (s.egressActive p.1))) } : State).letOut
    | _ => none)

end Sys2Proof.Machine
end

