-- ==== Sys2Proof/Machine/Queue.lean ====
section
/-!
DEFINITION. Events of the host: queue records (R28, R334, R337, R351, R352), the queue registers (R353) and host writes (R154).
-/

namespace Sys2Proof.Machine

open Sys2Proof

/-! ## Queue records -/

/-- The record at an index of a ring in host memory; 64 bytes of zeros where the host has written none. -/
def Queue.record (q : Queue) (i : Nat) : Line := KMap.getD q.ring i (List.replicate 64 0)
/-- The ring index that the front desk reads next. -/
def Queue.ringIndex (q : Queue) : Nat := q.head.toNat % 2 ^ q.ringExp

def State.setQueue (s : State) (q : Nat) (x : Queue) : State := { s with queues := KMap.set s.queues q x }

/-- The next record of a queue is read, while there is one and the queue has not stopped. -/
def State.offerRecord (s : State) (q : Nat) : State :=
  match KMap.get? s.queues q with
  | some x => if x.qStop ∨ x.head = x.tail then s else s.now (.queueRecord q)
  | none => s

/-- A record that has passed its checks (R28, R334, R337). -/
def State.takeRecord (s : State) (q index : Nat) (r : Record) : State :=
  if r.kind = 0 then
    if r.timed then
      ((s.armRecord r (some q) index).ensureConvoy r).wallDue
    else
      let (l, s) := s.launchNumber
      s.acceptLaunch r (some q) index l
  else
    let s := ({ s with controls := s.controls ++ [{ rcd := r, queue := q, index := index }] } : State).ensureConvoy r
    (if r.kind = 1 then s.modConvoy r.guest r.convoy (fun v => { v with stops := v.stops + 1 }) else s).wallDue

/-- QUEUE_RECORD (R352): a record that fails a check stops its queue, with HEAD left at it. -/
def State.readRecord (s : State) (q : Nat) : State :=
  match KMap.get? s.queues q with
  | some x =>
    if !s.booted ∨ x.qStop ∨ x.head = x.tail then s
    else
      let b := x.record x.ringIndex
      match s.recordFault b x.guest with
      | some f => (s.setQueue q { x with qStop := true }).report q x.ringIndex f.code f.field false
      | none => ((s.setQueue q { x with head := x.head + 1 }).takeRecord q x.ringIndex (Record.ofBytes b)).offerRecord q
  | none => s

def execQueueRecord (s : State) : Result :=
  onEvent s (fun s e => match e with
    | .queueRecord q => some (s.readRecord q)
    | _ => none)

/-- QTAIL_WRITE (R353): ignored when it would pass HEAD by more than the ring size, or sets a reserved bit (R6). -/
def State.writeTail (s : State) (q : Nat) (v : Word) (records : List (Nat × Line)) : State :=
  match KMap.get? s.queues q with
  | some x =>
    let x := { x with ring := records.foldl (fun m p => KMap.set m (p.1 % 2 ^ x.ringExp) p.2) x.ring }
    let tail : BitVec 32 := v.setWidth 32
    if v.toNat / 2 ^ 32 ≠ 0 ∨ 2 ^ x.ringExp < (tail - x.head).toNat then s.setQueue q x
    else (s.setQueue q { x with tail := tail }).offerRecord q
  | none => s

def execQtailWrite (s : State) : Result :=
  onEvent s (fun s e => match e with
    | .qtailWrite q v rs => some (s.writeTail q v rs)
    | _ => none)

/-- QSTAT_WRITE (R353): STATUS takes its value; at 0 the front desk moves past the record that stopped the queue. -/
def State.writeStatus (s : State) (q : Nat) (v : Word) : State :=
  match KMap.get? s.queues q with
  | some x =>
    if bits v.toNat 9 15 ≠ 0 then s
    else
      let x := { x with qStatus := BitVec.ofNat 8 v.toNat }
      if x.qStatus = 0 ∧ x.qStop then (s.setQueue q { x with qStop := false, head := x.head + 1 }).offerRecord q
      else s.setQueue q x
  | none => s

def execQstatWrite (s : State) : Result :=
  onEvent s (fun s e => match e with
    | .qstatWrite q v => some (s.writeStatus q v)
    | _ => none)

/-! ## Host writes (R154) -/

/-- The parts of a run of bytes that lie in one line each. -/
def hostParts (pa : Nat) (data : Line) : (fuel : Nat) → List (Nat × Line)
  | 0 => []
  | fuel + 1 =>
    if data.isEmpty then []
    else
      let n := 128 - pa % 128
      (pa, data.take n) :: hostParts (pa + n) (data.drop n) fuel

/-- One part of a host write at its home: a store whose clock is FLOOR. A line that its home holds keeps it; a sum-mode line
refuses it (R142). -/
def State.hostPart (s : State) (g : BitVec 8) (pa : Nat) (data : Line) : State :=
  let line := lineOf pa
  if s.deadDies.contains (homeDie pa) || Config.homeBytes ≤ pa then s
  else if s.holding line then s.holdMsg line (.host pa g data)
  else if (s.line line).sum.isSome then s
  else if (s.line line).holder.isSome then (s.holdMsg line (.host pa g data)).recallLine line
  else
    let (w, s) := s.applyStore pa data (s.guest g).floor
    s.raiseFloor g w

/-- HOST_WRITE. -/
def State.hostWrite (s : State) (pa : Nat) (g : BitVec 8) (data : Line) : State :=
  (hostParts pa data (data.length + 1)).foldl (fun (s : State) p => s.hostPart g p.1 p.2) s

def execHostWrite (s : State) : Result :=
  onEvent s (fun s e => match e with
    | .hostWrite pa g data => some (s.hostWrite pa g data)
    | _ => none)

end Sys2Proof.Machine
end

