-- ==== Sys2Proof/Machine/Round.lean ====
section
/-!
DEFINITION. The round (R267 to R275): the classes of what the agenda holds, the changeover protocol, its postponement, and the
forwarding and holding of messages (R263).
-/

namespace Sys2Proof.Machine

open Sys2Proof

/-! ## What a changeover does with a step on the agenda -/

/-- How a step of the agenda meets a changeover: an arrival at a home, and work of the front desk, the firmware and the pod, go on
through the pause; a message to a tile, a peer's access to a stash among them, is forwarded and held (R263); a tile's own steps wait for the resume, but for an MMA and a
clearing, which complete (R270). -/
inductive StepKind where
  | home | device | message | tile
  deriving DecidableEq, Repr

def eventKind : Event → StepKind
  | .homeLoad .. => .home
  | .homeStore .. => .home
  | .homeAtomic .. => .home
  | .publication .. => .home
  | .declarationAtHome .. => .home
  | .sumPartArrival .. => .home
  | .xdataWrite .. => .home
  | .mergeFailure .. => .home
  | .armRequest .. => .home
  | .stashWriteBack .. => .home
  | .dropMessage .. => .home
  | .recallAnswer .. => .home
  | .redirect .. => .home
  | .hostWrite .. => .home
  | .loadReply .. => .message
  | .storeAck .. => .message
  | .atomicReply .. => .message
  | .postedRefusal .. => .message
  | .stashFill .. => .message
  | .recallHolder .. => .message
  | .forwardedLoad .. => .message
  | .remoteStashAccess .. => .message
  | .parkTableRefusal .. => .message
  | .withdrawal .. => .message
  | .acknowledgementWait .. => .message
  | .peerRequest r => if topByte r.va < 0x80 then .home else .message
  | .monitorSignal .. => .message
  | .frameSpill .. => .tile
  | .frameFill .. => .tile
  | .rdvPhaseCompletion .. => .tile
  | .gatherReductionComplete .. => .tile
  | .feResend .. => .tile
  | .mwaitTimeout .. => .tile
  | .interrupt .. => .tile
  | .sleepExpiry .. => .tile
  | .deadlineLate .. => .tile
  | .matrixDispatch .. => .tile
  | .stageAComplete .. => .tile
  | .stageBComplete .. => .tile
  | .flushReadoutComplete .. => .tile
  | .matrixContextSwitch .. => .tile
  | .engineFault .. => .tile
  | .groupWatchdog .. => .tile
  | .copyStart .. => .tile
  | .copyFinish .. => .tile
  | .wallReached .. => .tile
  | .sendQueueFree .. => .tile
  | .translationInstalled .. => .tile
  | .tlbShootdown .. => .tile
  | .unitPlacement .. => .tile
  | .courierSend .. => .tile
  | .courierArrival .. => .tile
  | .sliceEnd .. => .tile
  | .scrubPass => .tile
  | _ => .device

def Pending.kind (p : Pending) : StepKind :=
  match p.work with
  | .event e => eventKind e
  | .word _ => .tile

/-- A message of an earlier turn that has not retired yet: what the drain counters count (R273). -/
def undrained (turn : Nat) (p : Pending) : Bool :=
  p.turn < turn && (p.kind == .message || p.kind == .home || (match p.work with | .event (.courierArrival _ _) => true | _ => false))

/-- A request to a peer of an earlier turn that has not taken effect there, as far as this device can know: one whose answer is still
awaited. An LDF or STF may take its place in a park table there and retire without an answer, as an arm does: it counts for the nominal
cycles of its way (R40; DEDUCED, log entry 76). -/
def PeerOut.undrained (turn clk : Nat) (o : PeerOut) : Bool :=
  o.turn < turn && !o.held && !o.redirected && (match o.what with
    | .stash .ldf => clk < o.sentAt + Config.latPeerStash
    | .stash (.stf _) => clk < o.sentAt + Config.latPeerStash
    | .withdraw => clk < o.sentAt + Config.latPeerStash
    | .arm _ _ => clk < o.sentAt + Config.latPeerGlobal
    | _ => true)

/-- The drain counters of the earlier turns are 0: nothing of them is on its way, held at a home, parked at a sum-mode line, waiting at a stash
for a fill, or owed by a peer. -/
def State.drained (s : State) : Bool :=
  s.agenda.all (fun p => !undrained s.turn p) &&
    s.lines.all (fun p => p.2.held.all (fun m => s.turn ≤ m.1) && p.2.sum.all (fun m => m.parked.all (fun q => s.turn ≤ q.2.2))) &&
    s.tiles.all (fun p => p.2.fillWait.all (fun w => s.turn ≤ w.turn)) && s.peerOut.all (fun o => !o.undrained s.turn s.clk)

/-! ## Messages that meet the pause (R263) -/

/-- The thread that a message is for. -/
def State.messageThread (s : State) (e : Event) : Option Nat :=
  let ofAgent := fun (a : Agent) => match a with | .thread t => some t | _ => none
  let ofOp := fun (op : Nat) => (s.tagged.find? (fun x => x.op == op && x.engine.isNone)).map (·.tid)
  match e with
  | .loadReply r => ofAgent r.who
  | .atomicReply r => ofAgent r.who
  | .storeAck op _ _ => ofOp op
  | .postedRefusal op _ => ofOp op
  | .parkTableRefusal r => ofAgent r.who
  | .monitorSignal t _ _ _ => some t
  | .acknowledgementWait t _ => some t
  | _ => none

/-- FWDNOTES of the guest and tile of a message's thread rises as one arrives with a forwarding note (R273, R313). -/
def State.countNote (s : State) (p : Pending) : State :=
  match p.note, p.work with
  | _ + 1, .event e =>
    match (s.messageThread e).bind s.thread? with
    | some th => s.modTile (tileOf th.home) (fun x => x.modGuest th.guest (fun y => { y with fwdnotes := y.fwdnotes + 1 }))
    | none => s
  | _, _ => s

/-- FORWARDING_NOTE: the message is re-sent one lodge forward, and keeps the turn in which it was addressed. What its channel holds after
it still comes after it (R129, R156). -/
def State.forwardMessage (s : State) (seq : Nat) : State :=
  match s.agenda.find? (fun p => p.seq == seq) with
  | none => s
  | some p =>
    let mate := fun (q : Pending) => p.chan != noChan && q.chan == p.chan
    let due := (s.agenda.filter (fun q => mate q && q.seq < seq)).foldl (fun m q => max m q.due) (s.clk + 40 + Config.contention s.fresh)
    { s with
      fresh := s.fresh + 1
      agenda := s.agenda.map (fun q =>
        if q.seq = seq then { q with note := q.note + 1, due := due }
        else if mate q && seq < q.seq then { q with due := max q.due due } else q) }

def execForwardingNote (s : State) : Result :=
  onEvent s (fun s e => match e with
    | .forwardingNote seq => some (s.forwardMessage seq)
    | _ => none)

/-- HELD_MESSAGE: the message has reached its new tile, and takes effect at the resume. -/
def State.holdArrived (s : State) (seq : Nat) : State :=
  match s.agenda.find? (fun p => p.seq == seq) with
  | some p =>
    ({ s with agenda := s.agenda.map (fun q => if q.seq = seq then { q with held := true, note := 0 } else q) } : State).countNote p
  | none => s

def execHeldMessage (s : State) : Result :=
  onEvent s (fun s e => match e with
    | .heldMessage seq => some (s.holdArrived seq)
    | _ => none)

/-! ## The changeover protocol (R270) -/

def State.setPhases (s : State) (p : Phase) : State := { s with tiles := s.tiles.map (fun x => (x.1, { x.2 with phase := p })) }

/-- Every tile that something stands on is listed. -/
def State.listTiles (s : State) : State :=
  let ts := s.threads.map (fun p => tileOf p.2.home) ++ s.stash.map (fun p => p.1 / 1024)
  ts.foldl (fun (s : State) t => s.setTile t (s.tile t)) s

/-- The write-back of every dirty stash line of the device. -/
def State.cleanStashes (s : State) : State :=
  ((s.stash.filter (fun p => p.2.dirty)).map (fun p => p.1 / 1024)).eraseDups.foldl (fun (s : State) t => s.writeBackRange t 0 1024 0) s

/-- The L2 ways are divided anew at every tile, over 8 of them during PREDRAIN (R282). -/
def State.redivide (s : State) : State := s.tiles.foldl (fun (s : State) p => s.giveOut p.1) s

/-- PREDRAIN: dirty stash lines are written back, every lock ends, and 8 ways of every L2 set are emptied as the saddlebag. -/
def State.beginPredrain (s : State) : State :=
  ({ s.listTiles.cleanStashes.setPhases .predrain with preOn := true, locks := [], l2 := s.l2.filter (fun x => x.way < 8) } : State).redivide

def execPredrain (s : State) : Result :=
  onEvent s (fun s e => match e with
    | .predrain => some s.beginPredrain
    | _ => none)

/-- The instant has come: the stop follows in this cycle, or a postponement (R274). -/
def State.atInstant (s : State) : State := if s.drained then s.now .stop else s.now .changeoverPostponement

/-- CHANGEOVER_INSTANT (R269). -/
def execChangeoverInstant (s : State) : Result :=
  onEvent s (fun s e => match e with
    | .changeoverInstant => some ({ s with nextInst := s.nextInst + 2 ^ s.pexp } : State).atInstant
    | _ => none)

/-- POD_CHANGEOVER_INSTANT (R338). -/
def execPodChangeoverInstant (s : State) : Result :=
  onEvent s (fun s e => match e with
    | .podChangeoverInstant => some ({ s with instantK := s.instantK + 1, nextInst := s.clk + 2 ^ s.pexp } : State).atInstant
    | _ => none)

/-- CHANGEOVER_POSTPONEMENT (R274): under a reservation the device is reported to firmware as a straggler of the pod (R339; DESIGN CHOICE, log
entry 77). -/
def State.postpone (s : State) : State :=
  let s := if s.res then s.log 0x81 s.dev s.epoch (BitVec.ofNat 64 (s.instantK - 1)) else s
  ({ s with postponed := s.postponed + 1, chglate := s.chglate || s.res } : State).post placeOfFront noChan (s.clk + 1024) s.cur (.event .stop)

def execChangeoverPostponement (s : State) : Result :=
  onEvent s (fun s e => match e with
    | .changeoverPostponement => some s.postpone
    | _ => none)

/-- The site that keeps the spares of a location's kind, and how many it has left (R374). -/
def State.spareOf (s : State) (l : Location) : Option (Nat × Nat) :=
  let at_ := fun (site : Nat) => KMap.getD s.spares site .init
  match l with
  | .stashLine site _ => some (site, (at_ site).stash)
  | .parkEntry site _ => some (site, (at_ site).park)
  | .rowOf site _ _ => some (site, (at_ site).rows)
  | _ => none

/-- The lodges of lasting locations that no spare is left for are derated, at a STOP only (R300, R374, R375). -/
def State.derate (s : State) : State :=
  let worn := s.lasting.filter (fun l => (s.spareOf l).any (fun p => p.2 == 0))
  let s := worn.foldl (fun (s : State) l => match s.spareOf l with
    | some (site, _) => if s.derated.contains (roundPlace (site / 64)) then s else { s with derated := s.derated ++ [roundPlace (site / 64)] }
    | none => s) s
  { s with
    degraded := 4 < s.derated.length
    lasting := s.lasting.filter (fun l => !worn.contains l), retired := s.retired ++ worn }

/-- The first cycle for a resume at or after this one (R270). -/
def State.resumeCycle (s : State) : Nat := s.stopAt + max 1 ((s.clk - s.stopAt + 1023) / 1024) * 1024

/-- Once every tile has finished UNPACK, the resume cycle is fixed. -/
def State.checkResume (s : State) : State :=
  if s.paused && s.tiles.all (fun p => p.2.phase == .unpacked || p.2.phase == .run) then s.post placeOfFront noChan s.resumeCycle s.cur (.event .resume) else s

/-- Ends a tile's stay in a state of the protocol after at most `bound` cycles; how long it is, is not architected (log entry 19). -/
def State.stay (s : State) (f : Nat → Nat) (bound : Nat) (e : Event) : State :=
  ({ s with fresh := s.fresh + 1 }).post placeOfFront noChan (s.clk + min bound (f s.fresh)) s.cur (.event e)

/-- STOP: CHG advances, and every tile begins to pack. -/
def State.stopRound (s : State) : State :=
  if s.paused then s
  else if !s.drained then s.now .changeoverPostponement
  else
    let s := s.derate.listTiles.setPhases .stopped
    let s := { s with
      paused := true, stopAt := s.clk, turn := s.turn + 1, locks := []
      guests := s.guests.map (fun (p : Nat × Guest) => (p.1, { p.2 with chg := p.2.chg + 1 })) }
    (s.tiles.map (fun (p : Nat × Tile) => p.1)).foldl (fun (s : State) t => s.stay Config.packCycles 2048 (.pack t)) s.checkResume

def execStop (s : State) : Result :=
  onEvent s (fun s e => match e with
    | .stop => some s.stopRound
    | _ => none)

/-! ### The tile image (R270, R271) -/

/-- The threads in the slots of a tile. -/
def State.placedOn (s : State) (tile : Nat) : List Thread :=
  (s.threads.filter (fun p => p.2.place.any (fun k => tileOf k == tile))).map (·.2)

/-- The bytes of an image's three parts. -/
structure ImageParts where
  saddlebag : Nat
  localStore : Nat
  frames : Nat
  deriving DecidableEq, Repr

def ImageParts.total (x : ImageParts) : Nat := x.saddlebag + x.localStore + x.frames

/-- A tile's image: a record of 896 bytes for each occupied slot, and the tile state in use (at most 21,504 bytes; log entry 19); each core's
local store; the set-aside frames and transit buffers in use, and each core's shared banks. A tile that no party covers carries an empty
one. -/
def State.imageParts (s : State) (tile : Nat) : ImageParts :=
  if s.guests.all (fun p => p.2.len ≤ (tile / 64 + 64 - p.2.first) % 64) then { saddlebag := 0, localStore := 0, frames := 0 }
  else
    let ts := s.placedOn tile
    { saddlebag := 896 * ts.length + min 21504 (Config.tileImage s.turn tile)
      localStore := 16 * 8192
      frames := (ts.map (fun th => 128 * (th.frames.length + (if th.transit.isSome then 1 else 0)))).sum + 16 * 512 }

/-- The cycles of a tile's SHIP: by the larger of what it sends and what it receives from the lodge behind it. -/
def State.shipCycles (s : State) (tile : Nat) : Nat :=
  let behind := (tile / 64 + 63) % 64 * 64 + tile % 64
  (max (s.imageParts tile).total (s.imageParts behind).total + 63) / 64

/-- PACK: the tile's stash, L1, L2 and constant cache are given up; its image does not carry them (R271). -/
def State.packTile (s : State) (t : Nat) : State :=
  let s := (s.dropRange t 0 1024 0).modTile t (fun x => { x with
    phase := .packed, tlb := [], const := [], guests := x.guests.map (fun p => (p.1, { p.2 with shadow := [] })) })
  let s := { s with
    l1 := s.l1.filter (fun p => p.1 / 16 != t), utlb := s.utlb.filter (fun p => p.1 / 16 != t), l2 := [] }
  s.post placeOfFront noChan (s.clk + s.shipCycles t) s.cur (.event (.ship t))

def execPack (s : State) : Result :=
  onEvent s (fun s e => match e with
    | .pack t => some (s.packTile t)
    | _ => none)

/-- SHIP. -/
def execShip (s : State) : Result :=
  onEvent s (fun s e => match e with
    | .ship t => some ((s.modTile t (fun x => { x with phase := .shipped })).stay Config.unpackCycles 2048 (.unpack t))
    | _ => none)

/-- UNPACK. -/
def execUnpack (s : State) : Result :=
  onEvent s (fun s e => match e with
    | .unpack t => some (s.modTile t (fun x => { x with phase := .unpacked })).checkResume
    | _ => none)

/-- The length of the pause is added to the DUE of every object that a running copy will credit (R236). -/
def State.extendDue (s : State) (tile : Nat) : State :=
  let x := s.tile tile
  let bars := x.crun.foldl (fun (l : List (Word × Cmd)) c => match c.desc.bind (fun d => d.bar) with
    | some b => if l.any (fun p => p.1 == b) then l else l ++ [(b, c)]
    | none => l) []
  bars.foldl (fun (s : State) p =>
    if s.dueOf tile (stashOff p.1) p.2.guest ≠ 0 then s.changeDue tile p.2 p.1 .add (s.clk - s.stopAt) else s) s

/-- RESUME: issue goes on, and held messages take effect in the order of their arrival (R263). -/
def State.resumeRound (s : State) : State :=
  let s := (s.tiles.map (fun (p : Nat × Tile) => p.1)).foldl (fun (s : State) t => s.extendDue t) s
  ({ s.setPhases .run with
     paused := false, preOn := false
     agenda := s.agenda.map (fun p => if p.held then { p with held := false, turn := s.turn } else p) } : State).redivide

def execResume (s : State) : Result :=
  onEvent s (fun s e => match e with
    | .resume => some s.resumeRound
    | _ => none)

end Sys2Proof.Machine
end

