-- ==== Sys2Proof/Machine/Ras.lean ====
section
/-!
DEFINITION. Errors and repair (R297 to R303, R374): uncorrectable and corrected errors, retirement, die links and dead dies,
incarnations, and the context-save engine.
-/

namespace Sys2Proof.Machine

open Sys2Proof

/-! ## Uncorrectable errors (R297) -/

/-- The home marks a line poisoned, charged to the guest and generation of its frame; a stale generation is charged to no one. -/
def State.poisonHome (s : State) (line : Nat) : State :=
  let (g, gen) := s.ownerOf (line * 128)
  if gen ≠ (s.guest g).gen then s
  else (s.log 0x60 g.toNat (BitVec.ofNat 64 (line * 128)) 1).modLine line (fun l =>
    { l with poison := some g, poisonGen := gen, poisonCode := 1 })

/-- The words of an accumulator that has been discarded: nothing fixes them (log entry 23). -/
def lostWords (fresh : Nat) : List (BitVec 32) := (List.range 256).map (fun j => Config.lostWord (fresh + j))

/-- The slot whose command left what an engine has lost takes UNCORRECTABLE, with EFADDR 0 and EFINFO KIND 4; with that thread gone, it is
reported against its launch (R226, R297). -/
def State.blameIssuer (s : State) (x : Option Issuer) : State :=
  match x with
  | some x => (s.loseIssued x 0 false 0 4 4).checkLaunch x.launch
  | none => s

/-- An accumulator is discarded. -/
def State.loseAccumulator (s : State) (tile : Nat) (n : Bool) : State :=
  let m := (s.tile tile).mx
  ({ s.modTile tile (fun x => { x with mx := (m.setAcc n (lostWords s.fresh)).accBy n none }) with fresh := s.fresh + 256 } : State).blameIssuer
    (if n then m.by1 else m.by0)

/-- A latch is discarded: one that a stage is filling with its command, one that is FULL alone. -/
def State.loseLatch (s : State) (tile : Nat) (b l : Bool) : State :=
  let m := (s.tile tile).mx
  let x := if b then m.latchB l else m.latchA l
  let fills := fun (c : Cmd) => match c.kind with
    | .stageA k _ _ => !b && k == l
    | .stageB k _ _ => b && k == l
    | _ => false
  match x.st, (s.tile tile).mrun.find? fills with
  | .free, _ => s
  | .filling, some c => s.discard tile false c 0 4 4
  | _, _ => (s.modTile tile (fun y => { y with mx := if b then m.setB l .init else m.setA l .init })).blameIssuer x.by_

/-- UNCORRECTABLE_ERROR: by where it lies. -/
def State.uncorrectable (s : State) (p : ErrPlace) : State :=
  match p with
  | .cleanL1 core line => s.l1Drop core line
  | .cleanL2 die line => { s with l2 := s.l2.filter (fun c => !(c.die == die && c.copy.line == line)) }
  | .constant tile line => s.modTile tile (fun x => { x with const := x.const.filter (fun c => c.line != line) })
  | .cleanStash tile idx =>
    if (s.stashLine? tile idx).any (fun l => l.dirty) then s else s.dropRange tile idx (idx + 1) 0
  | .home line => s.poisonHome line
  | .dirtyStash tile idx => s.modStashLine tile (idx * 128) (fun l => if l.dirty then { l with poison := true } else l)
  | .threadState t =>
    match s.thread? t with
    | some th => if th.halted then s
      else (s.log 0x30 th.launch th.pc (BitVec.ofNat 64 causeUncorrectable)).endThread t th .faulted causeUncorrectable 4
    | none => s
  | .queued tile cmd copy =>
    match ((s.tile tile).queue copy ++ (s.tile tile).run copy).find? (fun c => c.id == cmd) with
    | some c => s.discard tile copy c 0 4 4
    | none => s
  | .latch tile b l => s.loseLatch tile b l
  | .accumulator tile n => s.loseAccumulator tile n

def execUncorrectableError (s : State) : Result :=
  onEvent s (fun s e => match e with
    | .uncorrectableError p => some (s.uncorrectable p)
    | _ => none)

/-! ## Corrected errors and retirement (R299, R300) -/

/-- The count of a location. -/
def countOf (l : Location) : List (Location × Nat) → Nat
  | [] => 0
  | p :: ps => if p.1 = l then p.2 else countOf l ps

/-- CORRECTED_ERROR: at 9 the location is lasting. -/
def State.corrected (s : State) (l : Location) : State :=
  let n := countOf l s.counters + 1
  let s := { s with counters := (l, n) :: s.counters.filter (fun p => p.1 != l) }
  if 9 ≤ n ∧ !s.lasting.contains l ∧ !s.retired.contains l then { s with lasting := s.lasting ++ [l] } else s

def execCorrectedError (s : State) : Result :=
  onEvent s (fun s e => match e with
    | .correctedError l => some (s.corrected l)
    | _ => none)

/-- LEAK_TICK: every counter loses 1, and none falls below 0. -/
def execLeakTick (s : State) : Result :=
  onEvent s (fun s e => match e with
    | .leakTick => some { s with counters := (s.counters.map (fun p => (p.1, p.2 - 1))).filter (fun p => p.2 != 0) }
    | _ => none)

/-- A site's spare of a location's kind is taken. -/
def Spares.take (x : Spares) : Location → Spares
  | .stashLine _ _ => { x with stash := x.stash - 1 }
  | .parkEntry _ _ => { x with park := x.park - 1 }
  | .rowOf _ _ _ => { x with rows := x.rows - 1 }
  | _ => x

/-- A way that is disabled in a set holds no copy, and the lock that keeps it ends. -/
def State.endWayLock (s : State) (site set way : Nat) : State :=
  let inSet := fun (die line : Nat) => s.siteOf (s.sliceTile die (l2Set line).1) == site && (l2Set line).2 == set
  { s with
    locks := s.locks.filter (fun k => !(k.way == way && inSet k.die k.line))
    l2 := s.l2.filter (fun x => !(x.way == way && inSet x.die x.copy.line)) }

/-- RETIREMENT: a location without a spare left stays in use until the next STOP derates its lodge. -/
def State.retireLocation (s : State) (l : Location) : State :=
  if !s.lasting.contains l || (s.spareOf l).any (fun p => p.2 == 0) then s
  else
    let s := { s with lasting := s.lasting.filter (· != l), retired := s.retired ++ [l] }
    match l with
    | .l2way site set way => s.endWayLock site set way
    | _ => match s.spareOf l with
      | some (site, _) => { s with spares := KMap.set s.spares site ((KMap.getD s.spares site .init).take l) }
      | none => s

def execRetirement (s : State) : Result :=
  onEvent s (fun s e => match e with
    | .retirement l => some (s.retireLocation l)
    | _ => none)

/-! ## Die links, dead dies and incarnations (R301, R302) -/

/-- LINK_WAKE: a link of the device still asleep is reported, and its traffic takes the other path. -/
def execLinkWake (s : State) : Result :=
  onEvent s (fun s e => match e with
    | .linkWake l => some (if dieLinks.length ≤ l then s
      else { (s.log 0x21 l 0 0) with links := if s.links.contains l then s.links else s.links ++ [l] })
    | _ => none)

/-- LINK_AWAKE: a link that wakes carries its traffic again. -/
def execLinkAwake (s : State) : Result :=
  onEvent s (fun s e => match e with
    | .linkAwake l => some { s with links := s.links.filter (· != l) }
    | _ => none)

/-- The loads parked at a line whose home is dead complete in error. -/
def State.failParked (s : State) (line : Nat) : State :=
  match (s.line line).sum with
  | some m =>
    let s := s.modLine line (fun l => { l with sum := some { m with parked := [] } })
    m.parked.foldl (fun (s : State) p => s.asOf p.2.2 (fun s => s.failLoad p.1 p.2.1 { cause := causeUncorrectable, detail := 5, addr := p.1.va })) s
  | none => s

/-- DIE_DEAD: accesses homed at a dead memory-side die fail, those that its homes hold too; a dead compute die stops the device. -/
def State.killDie (s : State) (die : Nat) : State :=
  let s := { (s.log 0x22 die 0 0) with deadDies := if s.deadDies.contains die then s.deadDies else s.deadDies ++ [die] }
  if die < 4 then { s with halted := true }
  else ((s.lines.map (fun (p : Nat × HomeLine) => p.1)).filter (fun l => homeDie (l * 128) == die)).foldl (fun (s : State) l =>
    ((s.modLine l (fun x => { x with recalling := false })).release l).failParked l) s

def execDieDead (s : State) : Result :=
  onEvent s (fun s e => match e with
    | .dieDead die => some (s.killDie die)
    | _ => none)

/-- DIE_RESET: the incarnation number advances, modulo 2^16, and firmware tells every receiver the new one before the die sends. -/
def execDieReset (s : State) : Result :=
  onEvent s (fun s e => match e with
    | .dieReset die => some
        (let n := s.incarnation die + 1
         { s with incarn := KMap.set s.incarn die n, accepted := KMap.set s.accepted die n })
    | _ => none)

/-- A receiver drops a packet whose sender's number is not the one that firmware has told it. -/
def State.accepts (s : State) (p : Pending) : Bool := p.incarn.all (fun d => KMap.getD s.accepted d.1 0 == d.2)

/-! ## The context-save engine (R303) -/

/-- A guest's thread runs on the tile. -/
def State.tileBusy (s : State) (tile : Nat) : Bool := s.threads.any (fun p => p.2.place.any (fun k => tileOf k == tile))

/-- The listed bytes of a tile's stash, by offset. -/
def State.stashCells (s : State) (tile : Nat) : List (Nat × Byte) :=
  (s.mem.filter (fun c => stashKey tile 0 ≤ c.1 && c.1 < stashKey (tile + 1) 0)).map (fun c => (c.1 - stashKey tile 0, c.2))

/-- CONTEXT_SAVE: the stash, the latches and accumulators, the barrier stamps and the park table. -/
def State.saveContext (s : State) (tile : Nat) : State :=
  if s.tileBusy tile then s
  else
    let x := s.tile tile
    let m : TileImage := { mx := x.mx, stamps := x.stamps, park := x.park, lines := s.linesIn tile 0 1024, stash := s.stashCells tile }
    { s with images := KMap.set s.images tile m }

def execContextSave (s : State) : Result :=
  onEvent s (fun s e => match e with
    | .contextSave tile => some (s.saveContext tile)
    | _ => none)

/-- CONTEXT_RESTORE. -/
def State.restoreContext (s : State) (tile : Nat) : State :=
  match KMap.get? s.images tile with
  | some m =>
    if s.tileBusy tile then s
    else
      let s := s.modTile tile (fun x => { x with mx := m.mx, stamps := m.stamps, park := m.park })
      let s := (s.linesIn tile 0 1024).foldl (fun (s : State) p => s.dropStashLine tile p.1) s
      let s := m.lines.foldl (fun (s : State) p => s.setStashLine tile p.1 p.2) s
      let s := (s.stashCells tile).foldl (fun (s : State) c => s.writeMem (stashKey tile c.1) [0]) s
      m.stash.foldl (fun (s : State) c => s.writeMem (stashKey tile c.1) [c.2]) s
  | none => s

def execContextRestore (s : State) : Result :=
  onEvent s (fun s e => match e with
    | .contextRestore tile => some (s.restoreContext tile)
    | _ => none)

end Sys2Proof.Machine
end

