-- ==== Sys2Proof/Machine/Units.lean ====
section
/-!
DEFINITION. Units and the events of a thread's issue: placement (R30, R31), the completion of a launch (R33), couriers (R37, R38),
distance overruns (R293), and words that no instruction assigns (R56).
-/

namespace Sys2Proof.Machine

open Sys2Proof

/-! ## Units and launches -/

/-- The waiting launches that started after launch l. -/
def State.waitingAfter (s : State) (l : Nat) : List Nat :=
  match s.launch? l with
  | some x => s.waitingLaunches.filter (fun k => (s.launch? k).any (fun y => x.started < y.started))
  | none => []

/-- UNIT_PLACEMENT: the next unit of a launch takes the slot that R30 gives it, if there is one, and the one after it is offered a
place; otherwise the launch that started next is. -/
def State.placeNext (s : State) (l : Nat) : State :=
  match s.launch? l with
  | some x =>
    if x.status = .running ∧ !x.cancelled ∧ x.placed < x.rcd.units then
      match s.placeFor l x with
      | some slot => (s.placeUnit l x slot).now (.unitPlacement l)
      | none => s.offerUnits (s.waitingAfter l)
    else s.offerUnits (s.waitingAfter l)
  | none => s

def execUnitPlacement (s : State) : Result :=
  onEvent s (fun s e => match e with
    | .unitPlacement l => some (s.placeNext l)
    | _ => none)

/-- LAUNCH_COMPLETION. -/
def execLaunchCompletion (s : State) : Result :=
  onEvent s (fun s e => match e with
    | .launchCompletion l => some (s.completeLaunch l)
    | _ => none)

/-! ## At an issue -/

/-- DISTANCE_OVERRUN: the issuing thread takes OVERRUN in place of its instruction (R293). -/
def execDistanceOverrun (s : State) : Result := onThread s 4 [] (fun t th => s.trapHere t th causeOverrun 0 none)

/-- UNASSIGNED_ENCODING: a precise illegal-instruction trap (R56). -/
def execUnassignedEncoding (s : State) : Result := onThread s 4 [] (fun t th => s.illegalInstr t th)

/-! ## Couriers (R37, R38) -/

/-- Threads in the rotation of a core. -/
def State.readyCount (s : State) (core : Nat) : Nat := ((s.onCore core).filter (fun p => p.2.inRotation)).length

/-- A thread that may be carried (R37). -/
def State.carriable (s : State) (t : Nat) (th : Thread) : Bool :=
  th.inRotation && !th.pin && slotIn th.home != 0 && th.parent.isNone && !th.usedShared && !th.usedLocal && th.wsp == 0 && th.transit.isNone &&
    (s.outstanding t).isEmpty

/-- The free slot in 1 to Q − 1 of a core that a thread of a launch may take, below the slots that are left to the SPAWNs of the unit in
slot 0 (R15, R30), on a tile that runs its guest, and with a shared bank for it (R278, R279). -/
def State.courierSlot (s : State) (core quota : Nat) (g : BitVec 8) : Option Nat :=
  ((List.range (s.topFor quota g core)).find? (fun k => k != 0 && !s.holdsSlot (core * 16 + k) g && s.mayEnter (core * 16 + k) g)).map (core * 16 + ·)

/-- The core, slot included, that a thread of a core is carried to: the lowest ready count, the lowest number on a tie. -/
def State.courierGoal (s : State) (core quota : Nat) (g : BitVec 8) : Option Nat :=
  let here := s.readyCount core
  let cs := (List.range 16).filterMap (fun j =>
    let c := core / 16 * 16 + j
    if c ≠ core ∧ s.readyCount c + 4 ≤ here then (s.courierSlot c quota g).map (fun k => (s.readyCount c, k)) else none)
  (cs.foldl (fun (b : Option (Nat × Nat)) p => match b with
    | some q => if p.1 < q.1 then some p else b
    | none => some p) none).map (·.2)

/-- The courier that a core would send: its eligible thread with the lowest slot number, and where it goes. A thread is eligible here when
R37 lets it be carried, whether or not it could issue in this cycle, and where that thread has no goal no other is tried (DEDUCED, log
entry 69). -/
def State.courierFrom (s : State) (core : Nat) : Option (Nat × Nat) :=
  let ts := (s.onCore core).filter (fun p => s.carriable p.1 p.2)
  let first := ts.foldl (fun (b : Option (Nat × Thread)) p => match b with
    | some q => if slotIn p.2.home < slotIn q.2.home then some p else b
    | none => some p) none
  first.bind (fun p => (s.courierGoal core (s.quotaOf p.2) p.2.guest).map (fun k => (p.1, k)))

/-- Whether a core's ready count has stayed at or above the threshold for 4,096 cycles, and no courier has left the tile in them. -/
def Tile.courierDue (x : Tile) (clk j : Nat) : Bool :=
  4096 ≤ KMap.getD x.high j 0 && (match x.lastCourier with | some c => c + 4096 ≤ clk | none => true)

/-- COURIER_SEND: the thread leaves for its new slot, which is kept for it and where it lands within 64 cycles; its old slot frees. Of several
cores of the tile that may send one in a cycle, the lowest does (DESIGN CHOICE, log entry 52). A bank of its guest on a core that holds no
thread of it is cleared as the courier is sent (DESIGN CHOICE, log entry 53). -/
def State.sendCourier (s : State) (tile : Nat) : State :=
  match (List.range 16).findSome? (fun j => if (s.tile tile).courierDue s.clk j then s.courierFrom (tile * 16 + j) else none) with
  | some (t, slot) =>
    match s.thread? t with
    | some th =>
      let s := s.modTile tile (fun x => { x with lastCourier := some s.clk }.modGuest th.guest (fun y => { y with couriers := y.couriers + 1 }))
      let s := s.clearBank (coreOf slot) th.guest
      let s := s.freshLocal slot
      let s := { s with fresh := s.fresh + 1, owners := KMap.set s.owners slot (th.guest, th.gen) }
      let s := (s.setThread t { th with place := none, home := slot, wait := .courier, waitWid := th.waitWid + 1 }).post (placeOfSlot slot) noChan
        (s.clk + min 64 (1 + Config.contention s.fresh)) t (.event (.courierArrival t slot))
      s.slotsFreed tile
    | none => s
  | none => s

def execCourierSend (s : State) : Result :=
  onEvent s (fun s e => match e with
    | .courierSend tile => some (s.sendCourier tile)
    | _ => none)

/-- COURIER_ARRIVAL: the thread rejoins in its new slot, or is saved while the tile has come to run another guest (R278). -/
def execCourierArrival (s : State) : Result :=
  onEvent s (fun s e => match e with
    | .courierArrival t slot => some (match s.thread? t with
      | some th =>
        if th.wait = .courier then
          let th := { th.rejoin with home := slot }
          let s := s.setThread t th
          s.setThread t (s.entering th)
        else s
      | none => s)
    | _ => none)

end Sys2Proof.Machine
end

