-- ==== Sys2Proof/Machine/Dispatch.lean ====
section
/-!
DEFINITION. The meaning of every instruction and event: one arm per constructor of `Instr`, each one call of its meaning.
-/

namespace Sys2Proof.Machine

open Sys2Proof

def exec (i : Instr) (s : State) : Host.Outcome State Fault Refusal :=
  match i with
  | .add d a b => Sys2Proof.Machine.execAdd d a b s
  | .sub d a b => Sys2Proof.Machine.execSub d a b s
  | .and d a b => Sys2Proof.Machine.execAnd d a b s
  | .or d a b => Sys2Proof.Machine.execOr d a b s
  | .xor d a b => Sys2Proof.Machine.execXor d a b s
  | .andn d a b => Sys2Proof.Machine.execAndn d a b s
  | .orn d a b => Sys2Proof.Machine.execOrn d a b s
  | .xnor d a b => Sys2Proof.Machine.execXnor d a b s
  | .addW d a b => Sys2Proof.Machine.execAddW d a b s
  | .subW d a b => Sys2Proof.Machine.execSubW d a b s
  | .adds d a b => Sys2Proof.Machine.execAdds d a b s
  | .subs d a b => Sys2Proof.Machine.execSubs d a b s
  | .min d a b => Sys2Proof.Machine.execMin d a b s
  | .max d a b => Sys2Proof.Machine.execMax d a b s
  | .minu d a b => Sys2Proof.Machine.execMinu d a b s
  | .maxu d a b => Sys2Proof.Machine.execMaxu d a b s
  | .addi d a imm => Sys2Proof.Machine.execAddi d a imm s
  | .andi d a imm => Sys2Proof.Machine.execAndi d a imm s
  | .ori d a imm => Sys2Proof.Machine.execOri d a imm s
  | .xori d a imm => Sys2Proof.Machine.execXori d a imm s
  | .addiW d a imm => Sys2Proof.Machine.execAddiW d a imm s
  | .slti d a imm => Sys2Proof.Machine.execSlti d a imm s
  | .sltiu d a imm => Sys2Proof.Machine.execSltiu d a imm s
  | .sll d a b => Sys2Proof.Machine.execSll d a b s
  | .srl d a b => Sys2Proof.Machine.execSrl d a b s
  | .sra d a b => Sys2Proof.Machine.execSra d a b s
  | .rol d a b => Sys2Proof.Machine.execRol d a b s
  | .ror d a b => Sys2Proof.Machine.execRor d a b s
  | .sllW d a b => Sys2Proof.Machine.execSllW d a b s
  | .srlW d a b => Sys2Proof.Machine.execSrlW d a b s
  | .sraW d a b => Sys2Proof.Machine.execSraW d a b s
  | .slli d a n => Sys2Proof.Machine.execSlli d a n s
  | .srli d a n => Sys2Proof.Machine.execSrli d a n s
  | .srai d a n => Sys2Proof.Machine.execSrai d a n s
  | .rori d a n => Sys2Proof.Machine.execRori d a n s
  | .bext d a b => Sys2Proof.Machine.execBext d a b s
  | .bexts d a b => Sys2Proof.Machine.execBexts d a b s
  | .bins d a b => Sys2Proof.Machine.execBins d a b s
  | .clz d a => Sys2Proof.Machine.execClz d a s
  | .ctz d a => Sys2Proof.Machine.execCtz d a s
  | .popc d a => Sys2Proof.Machine.execPopc d a s
  | .rev8 d a => Sys2Proof.Machine.execRev8 d a s
  | .slt d a b => Sys2Proof.Machine.execSlt d a b s
  | .sltu d a b => Sys2Proof.Machine.execSltu d a b s
  | .seq d a b => Sys2Proof.Machine.execSeq d a b s
  | .sne d a b => Sys2Proof.Machine.execSne d a b s
  | .sle d a b => Sys2Proof.Machine.execSle d a b s
  | .sleu d a b => Sys2Proof.Machine.execSleu d a b s
  | .sel d a b q => Sys2Proof.Machine.execSel d a b q s
  | .mul d a b => Sys2Proof.Machine.execMul d a b s
  | .mulh d a b => Sys2Proof.Machine.execMulh d a b s
  | .mulhu d a b => Sys2Proof.Machine.execMulhu d a b s
  | .mulhsu d a b => Sys2Proof.Machine.execMulhsu d a b s
  | .mulW d a b => Sys2Proof.Machine.execMulW d a b s
  | .div d a b => Sys2Proof.Machine.execDiv d a b s
  | .divu d a b => Sys2Proof.Machine.execDivu d a b s
  | .rem d a b => Sys2Proof.Machine.execRem d a b s
  | .remu d a b => Sys2Proof.Machine.execRemu d a b s
  | .divW d a b => Sys2Proof.Machine.execDivW d a b s
  | .remW d a b => Sys2Proof.Machine.execRemW d a b s
  | .lui d imm => Sys2Proof.Machine.execLui d imm s
  | .adr d imm => Sys2Proof.Machine.execAdr d imm s
  | .beq a b o => Sys2Proof.Machine.execBeq a b o s
  | .bne a b o => Sys2Proof.Machine.execBne a b o s
  | .blt a b o => Sys2Proof.Machine.execBlt a b o s
  | .bge a b o => Sys2Proof.Machine.execBge a b o s
  | .bltu a b o => Sys2Proof.Machine.execBltu a b o s
  | .bgeu a b o => Sys2Proof.Machine.execBgeu a b o s
  | .bq q o => Sys2Proof.Machine.execBq q o s
  | .bnq q o => Sys2Proof.Machine.execBnq q o s
  | .j o => Sys2Proof.Machine.execJ o s
  | .call o => Sys2Proof.Machine.execCall o s
  | .jr a imm => Sys2Proof.Machine.execJr a imm s
  | .callr a imm => Sys2Proof.Machine.execCallr a imm s
  | .loop a imm => Sys2Proof.Machine.execLoop a imm s
  | .rfpush => Sys2Proof.Machine.execRfpush s
  | .rfpop => Sys2Proof.Machine.execRfpop s
  | .spawn a b => Sys2Proof.Machine.execSpawn a b s
  | .reap d a => Sys2Proof.Machine.execReap d a s
  | .rdv a q => Sys2Proof.Machine.execRdv a q s
  | .rdvInitReg a b => Sys2Proof.Machine.execRdvInitReg a b s
  | .rdvInitImm a imm => Sys2Proof.Machine.execRdvInitImm a imm s
  | .yield => Sys2Proof.Machine.execYield s
  | .prept => Sys2Proof.Machine.execPrept s
  | .pin => Sys2Proof.Machine.execPin s
  | .unpin => Sys2Proof.Machine.execUnpin s
  | .rself x d => Sys2Proof.Machine.execRself x d s
  | .ldB d a imm => Sys2Proof.Machine.execLdB d a imm s
  | .ldBz d a imm => Sys2Proof.Machine.execLdBz d a imm s
  | .ldH d a imm => Sys2Proof.Machine.execLdH d a imm s
  | .ldHz d a imm => Sys2Proof.Machine.execLdHz d a imm s
  | .ldW d a imm => Sys2Proof.Machine.execLdW d a imm s
  | .ldWz d a imm => Sys2Proof.Machine.execLdWz d a imm s
  | .ldD d a imm => Sys2Proof.Machine.execLdD d a imm s
  | .stB d a imm => Sys2Proof.Machine.execStB d a imm s
  | .stH d a imm => Sys2Proof.Machine.execStH d a imm s
  | .stW d a imm => Sys2Proof.Machine.execStW d a imm s
  | .stD d a imm => Sys2Proof.Machine.execStD d a imm s
  | .ldxB d a b => Sys2Proof.Machine.execLdxB d a b s
  | .ldxBz d a b => Sys2Proof.Machine.execLdxBz d a b s
  | .ldxH d a b => Sys2Proof.Machine.execLdxH d a b s
  | .ldxHz d a b => Sys2Proof.Machine.execLdxHz d a b s
  | .ldxW d a b => Sys2Proof.Machine.execLdxW d a b s
  | .ldxWz d a b => Sys2Proof.Machine.execLdxWz d a b s
  | .ldxD d a b => Sys2Proof.Machine.execLdxD d a b s
  | .stxB d a b => Sys2Proof.Machine.execStxB d a b s
  | .stxH d a b => Sys2Proof.Machine.execStxH d a b s
  | .stxW d a b => Sys2Proof.Machine.execStxW d a b s
  | .stxD d a b => Sys2Proof.Machine.execStxD d a b s
  | .ldcW d a imm => Sys2Proof.Machine.execLdcW d a imm s
  | .ldcWz d a imm => Sys2Proof.Machine.execLdcWz d a imm s
  | .ldcD d a imm => Sys2Proof.Machine.execLdcD d a imm s
  | .smap d a b => Sys2Proof.Machine.execSmap d a b s
  | .sunmap a => Sys2Proof.Machine.execSunmap a s
  | .slock d a b => Sys2Proof.Machine.execSlock d a b s
  | .sunlock a b => Sys2Proof.Machine.execSunlock a b s
  | .swb a b => Sys2Proof.Machine.execSwb a b s
  | .amoAdd w d a b => Sys2Proof.Machine.execAmoAdd w d a b s
  | .amoAnd w d a b => Sys2Proof.Machine.execAmoAnd w d a b s
  | .amoOr w d a b => Sys2Proof.Machine.execAmoOr w d a b s
  | .amoXor w d a b => Sys2Proof.Machine.execAmoXor w d a b s
  | .amoMin w d a b => Sys2Proof.Machine.execAmoMin w d a b s
  | .amoMax w d a b => Sys2Proof.Machine.execAmoMax w d a b s
  | .amoMinu w d a b => Sys2Proof.Machine.execAmoMinu w d a b s
  | .amoMaxu w d a b => Sys2Proof.Machine.execAmoMaxu w d a b s
  | .amoSwap w d a b => Sys2Proof.Machine.execAmoSwap w d a b s
  | .amoCas w d a b => Sys2Proof.Machine.execAmoCas w d a b s
  | .amoFadd d a b => Sys2Proof.Machine.execAmoFadd d a b s
  | .gredAdd w d a b => Sys2Proof.Machine.execGredAdd w d a b s
  | .gredMin w d a b => Sys2Proof.Machine.execGredMin w d a b s
  | .gredMax w d a b => Sys2Proof.Machine.execGredMax w d a b s
  | .gredMinu w d a b => Sys2Proof.Machine.execGredMinu w d a b s
  | .gredMaxu w d a b => Sys2Proof.Machine.execGredMaxu w d a b s
  | .gredFadd d a b => Sys2Proof.Machine.execGredFadd d a b s
  | .fence s_ => Sys2Proof.Machine.execFence s_ s
  | .acq s_ a => Sys2Proof.Machine.execAcq s_ a s
  | .rel s_ a => Sys2Proof.Machine.execRel s_ a s
  | .bind a b d => Sys2Proof.Machine.execBind a b d s
  | .unbind a b => Sys2Proof.Machine.execUnbind a b s
  | .waitack a => Sys2Proof.Machine.execWaitack a s
  | .ldf d a imm => Sys2Proof.Machine.execLdf d a imm s
  | .stf d a imm => Sys2Proof.Machine.execStf d a imm s
  | .ldfn d a q => Sys2Proof.Machine.execLdfn d a q s
  | .stfn a b q => Sys2Proof.Machine.execStfn a b q s
  | .feclr a imm => Sys2Proof.Machine.execFeclr a imm s
  | .feset a imm => Sys2Proof.Machine.execFeset a imm s
  | .mon a m => Sys2Proof.Machine.execMon a m s
  | .monclr l m => Sys2Proof.Machine.execMonclr l m s
  | .mwait a => Sys2Proof.Machine.execMwait a s
  | .sleep a => Sys2Proof.Machine.execSleep a s
  | .binit a b => Sys2Proof.Machine.execBinit a b s
  | .bexpect a b => Sys2Proof.Machine.execBexpect a b s
  | .barrive a b => Sys2Proof.Machine.execBarrive a b s
  | .bwait dl a => Sys2Proof.Machine.execBwait dl a s
  | .btest d a => Sys2Proof.Machine.execBtest d a s
  | .xset e a => Sys2Proof.Machine.execXset e a s
  | .xmov d e => Sys2Proof.Machine.execXmov d e s
  | .xld e a imm => Sys2Proof.Machine.execXld e a imm s
  | .xst e a imm => Sys2Proof.Machine.execXst e a imm s
  | .qset q a => Sys2Proof.Machine.execQset q a s
  | .qclr q => Sys2Proof.Machine.execQclr q s
  | .qtest d q => Sys2Proof.Machine.execQtest d q s
  | .fadd p r d a b => Sys2Proof.Machine.execFadd p r d a b s
  | .fsub p r d a b => Sys2Proof.Machine.execFsub p r d a b s
  | .fmul p r d a b => Sys2Proof.Machine.execFmul p r d a b s
  | .fdiv p r d a b => Sys2Proof.Machine.execFdiv p r d a b s
  | .fsqrt p r d a => Sys2Proof.Machine.execFsqrt p r d a s
  | .fmin p d a b => Sys2Proof.Machine.execFmin p d a b s
  | .fmax p d a b => Sys2Proof.Machine.execFmax p d a b s
  | .feq p d a b => Sys2Proof.Machine.execFeq p d a b s
  | .flt p d a b => Sys2Proof.Machine.execFlt p d a b s
  | .fle p d a b => Sys2Proof.Machine.execFle p d a b s
  | .fclass p d a => Sys2Proof.Machine.execFclass p d a s
  | .fmadd p r d a b => Sys2Proof.Machine.execFmadd p r d a b s
  | .fmsub p r d a b => Sys2Proof.Machine.execFmsub p r d a b s
  | .fnmadd p r d a b => Sys2Proof.Machine.execFnmadd p r d a b s
  | .fnmsub p r d a b => Sys2Proof.Machine.execFnmsub p r d a b s
  | .padd l d a b => Sys2Proof.Machine.execPadd l d a b s
  | .psub l d a b => Sys2Proof.Machine.execPsub l d a b s
  | .padds u l d a b => Sys2Proof.Machine.execPadds u l d a b s
  | .psubs u l d a b => Sys2Proof.Machine.execPsubs u l d a b s
  | .pmin u l d a b => Sys2Proof.Machine.execPmin u l d a b s
  | .pmax u l d a b => Sys2Proof.Machine.execPmax u l d a b s
  | .pmul l d a b => Sys2Proof.Machine.execPmul l d a b s
  | .pcmpeq l d a b => Sys2Proof.Machine.execPcmpeq l d a b s
  | .pcmpgt u l d a b => Sys2Proof.Machine.execPcmpgt u l d a b s
  | .cvt dst src r d a => Sys2Proof.Machine.execCvt dst src r d a s
  | .mstagea g l a b => Sys2Proof.Machine.execMstagea g l a b s
  | .mstageb g l a b => Sys2Proof.Machine.execMstageb g l a b s
  | .mma g f n l => Sys2Proof.Machine.execMma g f n l s
  | .mflush g n a => Sys2Proof.Machine.execMflush g n a s
  | .mflushSum g n a b => Sys2Proof.Machine.execMflushSum g n a b s
  | .mclr g n => Sys2Proof.Machine.execMclr g n s
  | .accdecl g a b => Sys2Proof.Machine.execAccdecl g a b s
  | .cpy g => Sys2Proof.Machine.execCpy g s
  | .cpyFill g a => Sys2Proof.Machine.execCpyFill g a s
  | .cpfree d => Sys2Proof.Machine.execCpfree d s
  | .mfs d r => Sys2Proof.Machine.execMfs d r s
  | .mts r a => Sys2Proof.Machine.execMts r a s
  | .trap imm => Sys2Proof.Machine.execTrap imm s
  | .eret => Sys2Proof.Machine.execEret s
  | .halt => Sys2Proof.Machine.execHalt s
  | .genbump a => Sys2Proof.Machine.execGenbump a s
  | .tlbinv a b => Sys2Proof.Machine.execTlbinv a b s
  | .tlbinvall => Sys2Proof.Machine.execTlbinvall s
  | .cwb a => Sys2Proof.Machine.execCwb a s
  | .cinv a => Sys2Proof.Machine.execCinv a s
  | .cvstat d => Sys2Proof.Machine.execCvstat d s
  | .waitwall a => Sys2Proof.Machine.execWaitwall a s
  | .cvarm a => Sys2Proof.Machine.execCvarm a s
  | .cvdisarm a => Sys2Proof.Machine.execCvdisarm a s
  | .mov16 d s_ => Sys2Proof.Machine.execMov16 d s_ s
  | .add16 d s_ => Sys2Proof.Machine.execAdd16 d s_ s
  | .addi16 d imm => Sys2Proof.Machine.execAddi16 d imm s
  | .sub16 d s_ => Sys2Proof.Machine.execSub16 d s_ s
  | .and16 d s_ => Sys2Proof.Machine.execAnd16 d s_ s
  | .or16 d s_ => Sys2Proof.Machine.execOr16 d s_ s
  | .xor16 d s_ => Sys2Proof.Machine.execXor16 d s_ s
  | .slli16 d n => Sys2Proof.Machine.execSlli16 d n s
  | .srli16 d n => Sys2Proof.Machine.execSrli16 d n s
  | .srai16 d n => Sys2Proof.Machine.execSrai16 d n s
  | .ldD16 d imm => Sys2Proof.Machine.execLdD16 d imm s
  | .stD16 d imm => Sys2Proof.Machine.execStD16 d imm s
  | .beqz16 d o => Sys2Proof.Machine.execBeqz16 d o s
  | .bnez16 d o => Sys2Proof.Machine.execBnez16 d o s
  | .j16 o => Sys2Proof.Machine.execJ16 o s
  | .slt16 d s_ => Sys2Proof.Machine.execSlt16 d s_ s
  | .sltu16 d s_ => Sys2Proof.Machine.execSltu16 d s_ s
  | .nop16 => Sys2Proof.Machine.execNop16 s
  | .yield16 => Sys2Proof.Machine.execYield16 s
  | .prept16 => Sys2Proof.Machine.execPrept16 s
  | .ret16 => Sys2Proof.Machine.execRet16 s
  | .frameSpill => Sys2Proof.Machine.execFrameSpill s
  | .frameFill => Sys2Proof.Machine.execFrameFill s
  | .rdvPhaseCompletion => Sys2Proof.Machine.execRdvPhaseCompletion s
  | .gatherReductionComplete => Sys2Proof.Machine.execGatherReductionComplete s
  | .publication => Sys2Proof.Machine.execPublication s
  | .remoteStashAccess => Sys2Proof.Machine.execRemoteStashAccess s
  | .parkTableRefusal => Sys2Proof.Machine.execParkTableRefusal s
  | .feResend => Sys2Proof.Machine.execFeResend s
  | .withdrawal => Sys2Proof.Machine.execWithdrawal s
  | .armRequest => Sys2Proof.Machine.execArmRequest s
  | .monitorSignal => Sys2Proof.Machine.execMonitorSignal s
  | .mwaitTimeout => Sys2Proof.Machine.execMwaitTimeout s
  | .interrupt => Sys2Proof.Machine.execInterrupt s
  | .sleepExpiry => Sys2Proof.Machine.execSleepExpiry s
  | .deadlineLate => Sys2Proof.Machine.execDeadlineLate s
  | .declarationAtHome => Sys2Proof.Machine.execDeclarationAtHome s
  | .sumPartArrival => Sys2Proof.Machine.execSumPartArrival s
  | .mergeFailure => Sys2Proof.Machine.execMergeFailure s
  | .matrixDispatch => Sys2Proof.Machine.execMatrixDispatch s
  | .stageAComplete => Sys2Proof.Machine.execStageAComplete s
  | .stageBComplete => Sys2Proof.Machine.execStageBComplete s
  | .mmaComplete => Sys2Proof.Machine.execMmaComplete s
  | .mclrComplete => Sys2Proof.Machine.execMclrComplete s
  | .flushReadoutComplete => Sys2Proof.Machine.execFlushReadoutComplete s
  | .matrixContextSwitch => Sys2Proof.Machine.execMatrixContextSwitch s
  | .engineFault => Sys2Proof.Machine.execEngineFault s
  | .groupWatchdog => Sys2Proof.Machine.execGroupWatchdog s
  | .copyStart => Sys2Proof.Machine.execCopyStart s
  | .copyFinish => Sys2Proof.Machine.execCopyFinish s
  | .xdataWrite => Sys2Proof.Machine.execXdataWrite s
  | .wallReached => Sys2Proof.Machine.execWallReached s
  | .loadReply => Sys2Proof.Machine.execLoadReply s
  | .sendQueueFree => Sys2Proof.Machine.execSendQueueFree s
  | .translationInstalled => Sys2Proof.Machine.execTranslationInstalled s
  | .storeAck => Sys2Proof.Machine.execStoreAck s
  | .atomicReply => Sys2Proof.Machine.execAtomicReply s
  | .homeLoad => Sys2Proof.Machine.execHomeLoad s
  | .homeStore => Sys2Proof.Machine.execHomeStore s
  | .homeAtomic => Sys2Proof.Machine.execHomeAtomic s
  | .postedRefusal => Sys2Proof.Machine.execPostedRefusal s
  | .stashFill => Sys2Proof.Machine.execStashFill s
  | .stashWriteBack => Sys2Proof.Machine.execStashWriteBack s
  | .dropMessage => Sys2Proof.Machine.execDropMessage s
  | .recallHolder => Sys2Proof.Machine.execRecallHolder s
  | .recallAnswer => Sys2Proof.Machine.execRecallAnswer s
  | .forwardedLoad => Sys2Proof.Machine.execForwardedLoad s
  | .faultServiceEnd => Sys2Proof.Machine.execFaultServiceEnd s
  | .pageMigration => Sys2Proof.Machine.execPageMigration s
  | .redirect => Sys2Proof.Machine.execRedirect s
  | .tlbShootdown => Sys2Proof.Machine.execTlbShootdown s
  | .unitPlacement => Sys2Proof.Machine.execUnitPlacement s
  | .launchCompletion => Sys2Proof.Machine.execLaunchCompletion s
  | .cancel => Sys2Proof.Machine.execCancel s
  | .distanceOverrun => Sys2Proof.Machine.execDistanceOverrun s
  | .courierSend => Sys2Proof.Machine.execCourierSend s
  | .courierArrival => Sys2Proof.Machine.execCourierArrival s
  | .predrain => Sys2Proof.Machine.execPredrain s
  | .stop => Sys2Proof.Machine.execStop s
  | .pack => Sys2Proof.Machine.execPack s
  | .ship => Sys2Proof.Machine.execShip s
  | .unpack => Sys2Proof.Machine.execUnpack s
  | .resume => Sys2Proof.Machine.execResume s
  | .changeoverPostponement => Sys2Proof.Machine.execChangeoverPostponement s
  | .forwardingNote => Sys2Proof.Machine.execForwardingNote s
  | .heldMessage => Sys2Proof.Machine.execHeldMessage s
  | .sliceEnd => Sys2Proof.Machine.execSliceEnd s
  | .scrubPass => Sys2Proof.Machine.execScrubPass s
  | .wayDivision => Sys2Proof.Machine.execWayDivision s
  | .tokenRefill => Sys2Proof.Machine.execTokenRefill s
  | .uncorrectableError => Sys2Proof.Machine.execUncorrectableError s
  | .correctedError => Sys2Proof.Machine.execCorrectedError s
  | .leakTick => Sys2Proof.Machine.execLeakTick s
  | .retirement => Sys2Proof.Machine.execRetirement s
  | .linkWake => Sys2Proof.Machine.execLinkWake s
  | .dieDead => Sys2Proof.Machine.execDieDead s
  | .dieReset => Sys2Proof.Machine.execDieReset s
  | .contextSave => Sys2Proof.Machine.execContextSave s
  | .contextRestore => Sys2Proof.Machine.execContextRestore s
  | .recordFire => Sys2Proof.Machine.execRecordFire s
  | .convoyStop => Sys2Proof.Machine.execConvoyStop s
  | .stopCompletion => Sys2Proof.Machine.execStopCompletion s
  | .convoyResume => Sys2Proof.Machine.execConvoyResume s
  | .stragglerDeadline => Sys2Proof.Machine.execStragglerDeadline s
  | .ready => Sys2Proof.Machine.execReady s
  | .commit => Sys2Proof.Machine.execCommit s
  | .abandon => Sys2Proof.Machine.execAbandon s
  | .readyTimeout => Sys2Proof.Machine.execReadyTimeout s
  | .commitTimeout => Sys2Proof.Machine.execCommitTimeout s
  | .syncFrame => Sys2Proof.Machine.execSyncFrame s
  | .holdoverEntry => Sys2Proof.Machine.execHoldoverEntry s
  | .podChangeoverInstant => Sys2Proof.Machine.execPodChangeoverInstant s
  | .changeoverInstant => Sys2Proof.Machine.execChangeoverInstant s
  | .peerRequest => Sys2Proof.Machine.execPeerRequest s
  | .peerFaultService => Sys2Proof.Machine.execPeerFaultService s
  | .holdingNotice => Sys2Proof.Machine.execHoldingNotice s
  | .peerTimeout => Sys2Proof.Machine.execPeerTimeout s
  | .guestSave => Sys2Proof.Machine.execGuestSave s
  | .guestRestore => Sys2Proof.Machine.execGuestRestore s
  | .queueRecord => Sys2Proof.Machine.execQueueRecord s
  | .qtailWrite => Sys2Proof.Machine.execQtailWrite s
  | .qstatWrite => Sys2Proof.Machine.execQstatWrite s
  | .hostWrite => Sys2Proof.Machine.execHostWrite s
  | .boot => Sys2Proof.Machine.execBoot s
  | .attestationRequest => Sys2Proof.Machine.execAttestationRequest s
  | .thermalTrip => Sys2Proof.Machine.execThermalTrip s
  | .powerGate => Sys2Proof.Machine.execPowerGate s
  | .frctlWrite => Sys2Proof.Machine.execFrctlWrite s
  | .gqosWrite => Sys2Proof.Machine.execGqosWrite s
  | .snapctlWrite => Sys2Proof.Machine.execSnapctlWrite s
  | .snapshotFire => Sys2Proof.Machine.execSnapshotFire s
  | .basicRegisterWrite => Sys2Proof.Machine.execBasicRegisterWrite s
  | .expertRegisterWrite => Sys2Proof.Machine.execExpertRegisterWrite s
  | .unassignedEncoding => Sys2Proof.Machine.execUnassignedEncoding s
  | .reservationRequest => Sys2Proof.Machine.execReservationRequest s
  | .reservationEnd => Sys2Proof.Machine.execReservationEnd s
  | .guestCreation => Sys2Proof.Machine.execGuestCreation s
  | .peerTableInstall => Sys2Proof.Machine.execPeerTableInstall s
  | .linkAwake => Sys2Proof.Machine.execLinkAwake s
  | .acknowledgementWait => Sys2Proof.Machine.execAcknowledgementWait s

end Sys2Proof.Machine
end

