-- ==== Sys2Proof/WellFormed.lean ====
section
/-!
DEFINITION. Which terms of `Instr` are instructions: the operand values that R52, R53 and R56 shut out although the type has
room for them, each check under a name of its own. An event has no operand that the spec shuts out.
-/

namespace Sys2Proof

/-- The packed lanes an operation takes (R52): .l6 goes with PMIN, PMAX, PMUL, PCMPEQ and signed lanes only. -/
def Lanes.okArith (l : Lanes) : Bool := l != .l6
def Lanes.okMinMax (u : Bool) (l : Lanes) : Bool := l != .l6 || !u

/-- The operand formats of MMA: codes 0 to 11 (R53). -/
def Fmt.okMma (f : Fmt) : Bool := f != .s32 && f != .s64

/-- CVT's codes differ (R53). -/
def okCvt (dst src : Fmt) : Bool := dst != src

/-- LOOP's end offset is 1 to 1,023 (R52, R56). -/
def okLoop (i : BitVec 10) : Bool := i != 0

/-- RDV.INIT's immediate waiter count is 1 to 16 (R52, R56). -/
def okWaiters (i : BitVec 10) : Bool := 1 ≤ i.toNat && i.toNat ≤ 16

/-- `add x0, x0, x0` is the word 0x0000_8000, which is illegal (R56). -/
def okAdd (d a b : Reg) : Bool := !(d == .x 0 && a == .x 0 && b == .x 0)

/-- `mov x0, x0` is the halfword 0x0000, which is illegal (R51). -/
def okMov16 (d s : BitVec 4) : Bool := !(d == 0 && s == 0)

/-- Every check of an instruction's operands. -/
def Instr.wf : Instr → Bool
  | .add d a b => okAdd d a b
  | .mov16 d s => okMov16 d s
  | .loop _ i => okLoop i
  | .rdvInitImm _ i => okWaiters i
  | .padd l _ _ _ => l.okArith
  | .psub l _ _ _ => l.okArith
  | .padds _ l _ _ _ => l.okArith
  | .psubs _ l _ _ _ => l.okArith
  | .pcmpgt _ l _ _ _ => l.okArith
  | .pmin u l _ _ _ => Lanes.okMinMax u l
  | .pmax u l _ _ _ => Lanes.okMinMax u l
  | .cvt dst src _ _ _ => okCvt dst src
  | .mma _ f _ _ => f.okMma
  | _ => true

end Sys2Proof
end

