-- ==== Sys2Proof/Decode.lean ====
section
/-!
DEFINITION. The decoder (R42 to R57, R304), total on any bytes, and the encoder of every instruction word. A 32-bit word is
split into the fields of R44 (`Long`), a 16-bit word into those of R50 (`Short`); a field is a number below 2 to its width.
-/

namespace Sys2Proof

/-! ## Fields -/

/-- The fields of a 32-bit word (R44), without the length bit. -/
structure Long where
  major : Nat
  a : Nat
  b : Nat
  x : Nat
  d : Nat
  fn : Nat
  deriving DecidableEq, Repr

/-- The fields of a 16-bit word in format C1 (R50). -/
structure Short where
  op : Nat
  rd : Nat
  rs : Nat
  sub : Nat
  deriving DecidableEq, Repr

/-- The fields of the 32-bit word `w`. -/
def Long.split (w : Nat) : Long :=
  { major := w / 2 ^ 10 % 32, a := w / 2 ^ 26 % 64, b := w / 2 ^ 20 % 64, x := w / 2 ^ 16 % 16, d := w / 2 ^ 4 % 64, fn := w % 16 }

/-- The 32-bit word that holds the fields, with its length bit. -/
def Long.pack (f : Long) : Nat :=
  f.a * 2 ^ 26 + f.b * 2 ^ 20 + f.x * 2 ^ 16 + 2 ^ 15 + f.major * 2 ^ 10 + f.d * 2 ^ 4 + f.fn

/-- imm10 of formats I and M, offset10 of format B (R45). -/
def Long.imm10 (f : Long) : BitVec 10 := BitVec.ofNat 10 (f.b * 16 + f.x)

/-- imm19 of major 0x05 (R54). -/
def Long.imm19 (f : Long) : BitVec 19 := BitVec.ofNat 19 ((f.a * 1024 + f.b * 16 + f.x) * 8 + f.fn % 8)

/-- offset24 of major 0x07 (R55). -/
def Long.off24 (f : Long) : BitVec 24 := BitVec.ofNat 24 ((f.a * 1024 + f.b * 16 + f.x) * 256 + f.d % 16 * 16 + f.fn)

def Short.split (h : Nat) : Short := { op := h / 2 ^ 11 % 16, rd := h / 2 ^ 7 % 16, rs := h / 2 ^ 3 % 16, sub := h % 8 }
def Short.pack (f : Short) : Nat := f.op * 2 ^ 11 + f.rd * 2 ^ 7 + f.rs * 2 ^ 3 + f.sub
/-- imm7 of format C2 and imm11 of format C3 (R50). -/
def Short.imm7 (f : Short) : BitVec 7 := BitVec.ofNat 7 (f.rs * 8 + f.sub)
def Short.imm11 (f : Short) : BitVec 11 := BitVec.ofNat 11 (f.rd * 128 + f.rs * 8 + f.sub)

/-! ## Operands and codes -/

/-- A 6-bit register field: bit 5 selects the shared bank (R14, R47). -/
def Reg.ofField (n : Nat) : Reg := if n < 32 then .x (BitVec.ofNat 5 n) else .k (BitVec.ofNat 5 (n - 32))
def Reg.field : Reg → Nat
  | .x n => n.toNat
  | .k n => 32 + n.toNat

def Scope.ofCode : Nat → Option Scope
  | 0 => some .slot | 1 => some .core | 2 => some .tile | 3 => some .party | 4 => some .dev | 5 => some .convoy | _ => none
def Scope.code : Scope → Nat
  | .slot => 0 | .core => 1 | .tile => 2 | .party => 3 | .dev => 4 | .convoy => 5

def Rm.ofCode : Nat → Option Rm
  | 0 => some .rne | 1 => some .rtz | 2 => some .rdn | 3 => some .rup | 4 => some .rna | _ => none
def Rm.code : Rm → Nat
  | .rne => 0 | .rtz => 1 | .rdn => 2 | .rup => 3 | .rna => 4

def Fmt.ofCode : Nat → Option Fmt
  | 0 => some .l4 | 1 => some .l6 | 2 => some .l8 | 3 => some .l12 | 4 => some .f8n | 5 => some .f8w | 6 => some .h16
  | 7 => some .bf16 | 8 => some .f32 | 9 => some .s4 | 10 => some .s8 | 11 => some .s16 | 12 => some .s32 | 13 => some .s64 | _ => none
def Fmt.code : Fmt → Nat
  | .l4 => 0 | .l6 => 1 | .l8 => 2 | .l12 => 3 | .f8n => 4 | .f8w => 5 | .h16 => 6
  | .bf16 => 7 | .f32 => 8 | .s4 => 9 | .s8 => 10 | .s16 => 11 | .s32 => 12 | .s64 => 13

def Fp.ofBit (n : Nat) : Fp := if n = 0 then .f32 else .h16
def Fp.bit : Fp → Nat
  | .f32 => 0 | .h16 => 1

def Lanes.ofCode (n : Nat) : Lanes := if n = 0 then .b else if n = 1 then .h else if n = 2 then .w else .l6
def Lanes.code : Lanes → Nat
  | .b => 0 | .h => 1 | .w => 2 | .l6 => 3

def Width.ofBit (n : Nat) : Width := if n = 0 then .w else .d
def Width.bit : Width → Nat
  | .w => 0 | .d => 1

def SelfField.ofCode : Nat → Option SelfField
  | 0 => some .all | 1 => some .slot | 2 => some .core | 3 => some .tile | 4 => some .lodge | _ => none
def SelfField.code : SelfField → Nat
  | .all => 0 | .slot => 1 | .core => 2 | .tile => 3 | .lodge => 4

/-- The selector codes of the system registers (R307). -/
def SysReg.ofCode : Nat → Option SysReg
  | 0x000 => some .self
  | 0x001 => some .loads
  | 0x002 => some .party
  | 0x003 => some .clk
  | 0x004 => some .wall
  | 0x005 => some .chg
  | 0x006 => some .gen
  | 0x007 => some .lts
  | 0x008 => some .rfs
  | 0x009 => some .stag
  | 0x00A => some .stashm
  | 0x00B => some .tctl
  | 0x010 => some .epc
  | 0x011 => some .trapc
  | 0x012 => some .taddr
  | 0x013 => some .tvec
  | 0x014 => some .monst
  | 0x015 => some .feaddr
  | 0x016 => some .fedata
  | 0x017 => some .efaddr
  | 0x018 => some .efinfo
  | 0x020 => some .issued
  | 0x021 => some .waited
  | 0x022 => some .fused
  | 0x023 => some .couriers
  | 0x024 => some .fwdnotes
  | 0x200 => some .xsel
  | 0x201 => some .xdata
  | _ => none
def SysReg.code : SysReg → Nat
  | .self => 0x000
  | .loads => 0x001
  | .party => 0x002
  | .clk => 0x003
  | .wall => 0x004
  | .chg => 0x005
  | .gen => 0x006
  | .lts => 0x007
  | .rfs => 0x008
  | .stag => 0x009
  | .stashm => 0x00A
  | .tctl => 0x00B
  | .epc => 0x010
  | .trapc => 0x011
  | .taddr => 0x012
  | .tvec => 0x013
  | .monst => 0x014
  | .feaddr => 0x015
  | .fedata => 0x016
  | .efaddr => 0x017
  | .efinfo => 0x018
  | .issued => 0x020
  | .waited => 0x021
  | .fused => 0x022
  | .couriers => 0x023
  | .fwdnotes => 0x024
  | .xsel => 0x200
  | .xdata => 0x201

/-- A command guard in d[3:0] (R49): G = 0 has d[2:0] zero. -/
def Gd.ofField (d : Nat) : Option Gd :=
  if d = 0 then some none else if 8 ≤ d ∧ d < 16 then some (some (BitVec.ofNat 3 (d - 8))) else none
def Gd.field : Gd → Nat
  | none => 0
  | some q => 8 + q.toNat

def bit (b : Bool) : Nat := if b then 1 else 0

/-- A result that holds only under a condition on a field. -/
def need (c : Bool) (i : Instr) : Option Instr := if c then some i else none

/-! ## The 32-bit words -/

/-- Major 0x00 (R52). -/
def decode00 (f : Long) : Option Instr :=
  match f.fn with
  | 0 => need (f.x == 0 && !(f.d == 0 && f.a == 0 && f.b == 0)) (.add (.ofField f.d) (.ofField f.a) (.ofField f.b))
  | 1 => need (f.x == 0) (.sub (.ofField f.d) (.ofField f.a) (.ofField f.b))
  | 2 => need (f.x == 0) (.and (.ofField f.d) (.ofField f.a) (.ofField f.b))
  | 3 => need (f.x == 0) (.or (.ofField f.d) (.ofField f.a) (.ofField f.b))
  | 4 => need (f.x == 0) (.xor (.ofField f.d) (.ofField f.a) (.ofField f.b))
  | 5 => need (f.x == 0) (.andn (.ofField f.d) (.ofField f.a) (.ofField f.b))
  | 6 => need (f.x == 0) (.orn (.ofField f.d) (.ofField f.a) (.ofField f.b))
  | 7 => need (f.x == 0) (.xnor (.ofField f.d) (.ofField f.a) (.ofField f.b))
  | 8 => need (f.x == 0) (.addW (.ofField f.d) (.ofField f.a) (.ofField f.b))
  | 9 => need (f.x == 0) (.subW (.ofField f.d) (.ofField f.a) (.ofField f.b))
  | 10 => need (f.x == 0) (.adds (.ofField f.d) (.ofField f.a) (.ofField f.b))
  | 11 => need (f.x == 0) (.subs (.ofField f.d) (.ofField f.a) (.ofField f.b))
  | 12 => need (f.x == 0) (.min (.ofField f.d) (.ofField f.a) (.ofField f.b))
  | 13 => need (f.x == 0) (.max (.ofField f.d) (.ofField f.a) (.ofField f.b))
  | 14 => need (f.x == 0) (.minu (.ofField f.d) (.ofField f.a) (.ofField f.b))
  | 15 => need (f.x == 0) (.maxu (.ofField f.d) (.ofField f.a) (.ofField f.b))
  | _ => none

/-- Major 0x01 (R52). -/
def decode01 (f : Long) : Option Instr :=
  match f.fn with
  | 0 => some (.addi (.ofField f.d) (.ofField f.a) f.imm10)
  | 1 => some (.andi (.ofField f.d) (.ofField f.a) f.imm10)
  | 2 => some (.ori (.ofField f.d) (.ofField f.a) f.imm10)
  | 3 => some (.xori (.ofField f.d) (.ofField f.a) f.imm10)
  | 4 => some (.addiW (.ofField f.d) (.ofField f.a) f.imm10)
  | 5 => some (.slti (.ofField f.d) (.ofField f.a) f.imm10)
  | 6 => some (.sltiu (.ofField f.d) (.ofField f.a) f.imm10)
  | _ => none

/-- Major 0x02 (R52). -/
def decode02 (f : Long) : Option Instr :=
  match f.fn with
  | 0 => need (f.x == 0) (.sll (.ofField f.d) (.ofField f.a) (.ofField f.b))
  | 1 => need (f.x == 0) (.srl (.ofField f.d) (.ofField f.a) (.ofField f.b))
  | 2 => need (f.x == 0) (.sra (.ofField f.d) (.ofField f.a) (.ofField f.b))
  | 3 => need (f.x == 0) (.rol (.ofField f.d) (.ofField f.a) (.ofField f.b))
  | 4 => need (f.x == 0) (.ror (.ofField f.d) (.ofField f.a) (.ofField f.b))
  | 5 => need (f.x == 0) (.sllW (.ofField f.d) (.ofField f.a) (.ofField f.b))
  | 6 => need (f.x == 0) (.srlW (.ofField f.d) (.ofField f.a) (.ofField f.b))
  | 7 => need (f.x == 0) (.sraW (.ofField f.d) (.ofField f.a) (.ofField f.b))
  | 8 => need (f.b / 4 == 0) (.slli (.ofField f.d) (.ofField f.a) (BitVec.ofNat 6 (f.b * 16 + f.x)))
  | 9 => need (f.b / 4 == 0) (.srli (.ofField f.d) (.ofField f.a) (BitVec.ofNat 6 (f.b * 16 + f.x)))
  | 10 => need (f.b / 4 == 0) (.srai (.ofField f.d) (.ofField f.a) (BitVec.ofNat 6 (f.b * 16 + f.x)))
  | 11 => need (f.b / 4 == 0) (.rori (.ofField f.d) (.ofField f.a) (BitVec.ofNat 6 (f.b * 16 + f.x)))
  | 12 => need (f.x == 0) (.bext (.ofField f.d) (.ofField f.a) (.ofField f.b))
  | 13 => need (f.x == 0) (.bexts (.ofField f.d) (.ofField f.a) (.ofField f.b))
  | 14 => need (f.x == 0) (.bins (.ofField f.d) (.ofField f.a) (.ofField f.b))
  | 15 => if f.b ≠ 0 then none else match f.x with
    | 0 => some (.clz (.ofField f.d) (.ofField f.a))
    | 1 => some (.ctz (.ofField f.d) (.ofField f.a))
    | 2 => some (.popc (.ofField f.d) (.ofField f.a))
    | 3 => some (.rev8 (.ofField f.d) (.ofField f.a))
    | _ => none
  | _ => none

/-- Major 0x03 (R52). -/
def decode03 (f : Long) : Option Instr :=
  match f.fn with
  | 0 => need (f.x == 0) (.slt (.ofField f.d) (.ofField f.a) (.ofField f.b))
  | 1 => need (f.x == 0) (.sltu (.ofField f.d) (.ofField f.a) (.ofField f.b))
  | 2 => need (f.x == 0) (.seq (.ofField f.d) (.ofField f.a) (.ofField f.b))
  | 3 => need (f.x == 0) (.sne (.ofField f.d) (.ofField f.a) (.ofField f.b))
  | 4 => need (f.x == 0) (.sle (.ofField f.d) (.ofField f.a) (.ofField f.b))
  | 5 => need (f.x == 0) (.sleu (.ofField f.d) (.ofField f.a) (.ofField f.b))
  | 6 => need (f.x / 8 == 0) (.sel (.ofField f.d) (.ofField f.a) (.ofField f.b) (BitVec.ofNat 3 f.x))
  | _ => none

/-- Major 0x04 (R52). -/
def decode04 (f : Long) : Option Instr :=
  match f.fn with
  | 0 => need (f.x == 0) (.mul (.ofField f.d) (.ofField f.a) (.ofField f.b))
  | 1 => need (f.x == 0) (.mulh (.ofField f.d) (.ofField f.a) (.ofField f.b))
  | 2 => need (f.x == 0) (.mulhu (.ofField f.d) (.ofField f.a) (.ofField f.b))
  | 3 => need (f.x == 0) (.mulhsu (.ofField f.d) (.ofField f.a) (.ofField f.b))
  | 4 => need (f.x == 0) (.mulW (.ofField f.d) (.ofField f.a) (.ofField f.b))
  | 5 => need (f.x == 0) (.div (.ofField f.d) (.ofField f.a) (.ofField f.b))
  | 6 => need (f.x == 0) (.divu (.ofField f.d) (.ofField f.a) (.ofField f.b))
  | 7 => need (f.x == 0) (.rem (.ofField f.d) (.ofField f.a) (.ofField f.b))
  | 8 => need (f.x == 0) (.remu (.ofField f.d) (.ofField f.a) (.ofField f.b))
  | 9 => need (f.x == 0) (.divW (.ofField f.d) (.ofField f.a) (.ofField f.b))
  | 10 => need (f.x == 0) (.remW (.ofField f.d) (.ofField f.a) (.ofField f.b))
  | _ => none

/-- Major 0x05 (R52). -/
def decode05 (f : Long) : Option Instr :=
  if f.fn / 8 = 0 then some (.lui (.ofField f.d) f.imm19) else some (.adr (.ofField f.d) f.imm19)

/-- Major 0x06 (R52). -/
def decode06 (f : Long) : Option Instr :=
  match f.fn with
  | 0 => some (.beq (.ofField f.d) (.ofField f.a) f.imm10)
  | 1 => some (.bne (.ofField f.d) (.ofField f.a) f.imm10)
  | 2 => some (.blt (.ofField f.d) (.ofField f.a) f.imm10)
  | 3 => some (.bge (.ofField f.d) (.ofField f.a) f.imm10)
  | 4 => some (.bltu (.ofField f.d) (.ofField f.a) f.imm10)
  | 5 => some (.bgeu (.ofField f.d) (.ofField f.a) f.imm10)
  | 6 => need (f.a == 0 && f.d / 8 == 0) (.bq (BitVec.ofNat 3 f.d) f.imm10)
  | 7 => need (f.a == 0 && f.d / 8 == 0) (.bnq (BitVec.ofNat 3 f.d) f.imm10)
  | _ => none

/-- Major 0x07 (R52). -/
def decode07 (f : Long) : Option Instr :=
  match f.d / 16 with
    | 0 => some (.j f.off24)
    | 1 => some (.call f.off24)
    | 2 => if f.fn ≠ 0 then none else match f.d % 16 with
      | 0 => some (.jr (.ofField f.a) f.imm10)
      | 1 => some (.callr (.ofField f.a) f.imm10)
      | _ => none
    | _ => none

/-- Major 0x08 (R52). -/
def decode08 (f : Long) : Option Instr :=
  match f.fn with
  | 0 => need (f.d == 0 && !(f.b == 0 && f.x == 0)) (.loop (.ofField f.a) f.imm10)
  | 1 => need (f.a == 0 && f.b == 0 && f.x == 0 && f.d == 0) .rfpush
  | 2 => need (f.a == 0 && f.b == 0 && f.x == 0 && f.d == 0) .rfpop
  | _ => none

/-- Major 0x09 (R52). -/
def decode09 (f : Long) : Option Instr :=
  match f.fn with
  | 0 => need (f.x == 0 && f.d == 0) (.spawn (.ofField f.a) (.ofField f.b))
  | 1 => need (f.b == 0 && f.x == 0) (.reap (.ofField f.d) (.ofField f.a))
  | 2 => need (32 ≤ f.a && f.b == 0 && f.x == 0 && f.d / 8 == 0) (.rdv (BitVec.ofNat 5 (f.a - 32)) (BitVec.ofNat 3 f.d))
  | 3 => need (32 ≤ f.a && f.x == 0 && f.d == 0) (.rdvInitReg (BitVec.ofNat 5 (f.a - 32)) (.ofField f.b))
  | 4 => need (32 ≤ f.a && f.d == 0 && 1 ≤ f.b * 16 + f.x && f.b * 16 + f.x ≤ 16) (.rdvInitImm (BitVec.ofNat 5 (f.a - 32)) f.imm10)
  | 5 => need (f.a == 0 && f.b == 0 && f.x == 0 && f.d == 0) .yield
  | 6 => need (f.a == 0 && f.b == 0 && f.x == 0 && f.d == 0) .prept
  | 7 => need (f.a == 0 && f.b == 0 && f.x == 0 && f.d == 0) .pin
  | 8 => need (f.a == 0 && f.b == 0 && f.x == 0 && f.d == 0) .unpin
  | 9 => if f.a = 0 ∧ f.b = 0 then (SelfField.ofCode f.x).map (fun x => .rself x (.ofField f.d)) else none
  | _ => none

/-- Major 0x0a (R52). -/
def decode0A (f : Long) : Option Instr :=
  match f.fn with
  | 0 => some (.ldB (.ofField f.d) (.ofField f.a) f.imm10)
  | 1 => some (.ldBz (.ofField f.d) (.ofField f.a) f.imm10)
  | 2 => some (.ldH (.ofField f.d) (.ofField f.a) f.imm10)
  | 3 => some (.ldHz (.ofField f.d) (.ofField f.a) f.imm10)
  | 4 => some (.ldW (.ofField f.d) (.ofField f.a) f.imm10)
  | 5 => some (.ldWz (.ofField f.d) (.ofField f.a) f.imm10)
  | 6 => some (.ldD (.ofField f.d) (.ofField f.a) f.imm10)
  | _ => none

/-- Major 0x0b (R52). -/
def decode0B (f : Long) : Option Instr :=
  match f.fn with
  | 0 => some (.stB (.ofField f.d) (.ofField f.a) f.imm10)
  | 1 => some (.stH (.ofField f.d) (.ofField f.a) f.imm10)
  | 2 => some (.stW (.ofField f.d) (.ofField f.a) f.imm10)
  | 3 => some (.stD (.ofField f.d) (.ofField f.a) f.imm10)
  | _ => none

/-- Major 0x0c (R52). -/
def decode0C (f : Long) : Option Instr :=
  match f.fn with
  | 0 => need (f.x == 0) (.ldxB (.ofField f.d) (.ofField f.a) (.ofField f.b))
  | 1 => need (f.x == 0) (.ldxBz (.ofField f.d) (.ofField f.a) (.ofField f.b))
  | 2 => need (f.x == 0) (.ldxH (.ofField f.d) (.ofField f.a) (.ofField f.b))
  | 3 => need (f.x == 0) (.ldxHz (.ofField f.d) (.ofField f.a) (.ofField f.b))
  | 4 => need (f.x == 0) (.ldxW (.ofField f.d) (.ofField f.a) (.ofField f.b))
  | 5 => need (f.x == 0) (.ldxWz (.ofField f.d) (.ofField f.a) (.ofField f.b))
  | 6 => need (f.x == 0) (.ldxD (.ofField f.d) (.ofField f.a) (.ofField f.b))
  | 8 => need (f.x == 0) (.stxB (.ofField f.d) (.ofField f.a) (.ofField f.b))
  | 9 => need (f.x == 0) (.stxH (.ofField f.d) (.ofField f.a) (.ofField f.b))
  | 10 => need (f.x == 0) (.stxW (.ofField f.d) (.ofField f.a) (.ofField f.b))
  | 11 => need (f.x == 0) (.stxD (.ofField f.d) (.ofField f.a) (.ofField f.b))
  | 12 => some (.ldcW (.ofField f.d) (.ofField f.a) f.imm10)
  | 13 => some (.ldcWz (.ofField f.d) (.ofField f.a) f.imm10)
  | 14 => some (.ldcD (.ofField f.d) (.ofField f.a) f.imm10)
  | _ => none

/-- Major 0x0d (R52). -/
def decode0D (f : Long) : Option Instr :=
  match f.fn with
  | 0 => need (f.x == 0) (.smap (.ofField f.d) (.ofField f.a) (.ofField f.b))
  | 1 => need (f.b == 0 && f.x == 0 && f.d == 0) (.sunmap (.ofField f.a))
  | 2 => need (f.x == 0) (.slock (.ofField f.d) (.ofField f.a) (.ofField f.b))
  | 3 => need (f.x == 0 && f.d == 0) (.sunlock (.ofField f.a) (.ofField f.b))
  | 4 => need (f.x == 0 && f.d == 0) (.swb (.ofField f.a) (.ofField f.b))
  | _ => none

/-- Major 0x0e (R52). -/
def decode0E (f : Long) : Option Instr :=
  match f.fn with
  | 0 => need (f.x / 2 == 0) (.amoAdd (.ofBit f.x) (.ofField f.d) (.ofField f.a) (.ofField f.b))
  | 1 => need (f.x / 2 == 0) (.amoAnd (.ofBit f.x) (.ofField f.d) (.ofField f.a) (.ofField f.b))
  | 2 => need (f.x / 2 == 0) (.amoOr (.ofBit f.x) (.ofField f.d) (.ofField f.a) (.ofField f.b))
  | 3 => need (f.x / 2 == 0) (.amoXor (.ofBit f.x) (.ofField f.d) (.ofField f.a) (.ofField f.b))
  | 4 => need (f.x / 2 == 0) (.amoMin (.ofBit f.x) (.ofField f.d) (.ofField f.a) (.ofField f.b))
  | 5 => need (f.x / 2 == 0) (.amoMax (.ofBit f.x) (.ofField f.d) (.ofField f.a) (.ofField f.b))
  | 6 => need (f.x / 2 == 0) (.amoMinu (.ofBit f.x) (.ofField f.d) (.ofField f.a) (.ofField f.b))
  | 7 => need (f.x / 2 == 0) (.amoMaxu (.ofBit f.x) (.ofField f.d) (.ofField f.a) (.ofField f.b))
  | 8 => need (f.x / 2 == 0) (.amoSwap (.ofBit f.x) (.ofField f.d) (.ofField f.a) (.ofField f.b))
  | 9 => need (f.x / 2 == 0) (.amoCas (.ofBit f.x) (.ofField f.d) (.ofField f.a) (.ofField f.b))
  | 10 => need (f.x == 0) (.amoFadd (.ofField f.d) (.ofField f.a) (.ofField f.b))
  | _ => none

/-- Major 0x0f (R52). -/
def decode0F (f : Long) : Option Instr :=
  match f.fn with
  | 0 => need (f.x / 2 == 0) (.gredAdd (.ofBit f.x) (.ofField f.d) (.ofField f.a) (.ofField f.b))
  | 1 => need (f.x / 2 == 0) (.gredMin (.ofBit f.x) (.ofField f.d) (.ofField f.a) (.ofField f.b))
  | 2 => need (f.x / 2 == 0) (.gredMax (.ofBit f.x) (.ofField f.d) (.ofField f.a) (.ofField f.b))
  | 3 => need (f.x / 2 == 0) (.gredMinu (.ofBit f.x) (.ofField f.d) (.ofField f.a) (.ofField f.b))
  | 4 => need (f.x / 2 == 0) (.gredMaxu (.ofBit f.x) (.ofField f.d) (.ofField f.a) (.ofField f.b))
  | 5 => need (f.x == 0) (.gredFadd (.ofField f.d) (.ofField f.a) (.ofField f.b))
  | _ => none

/-- Major 0x10 (R52). -/
def decode10 (f : Long) : Option Instr :=
  match f.fn with
  | 0 => if f.a = 0 ∧ f.b = 0 ∧ f.d = 0 then (Scope.ofCode f.x).map .fence else none
  | 1 => if f.b = 0 ∧ f.d = 0 then (Scope.ofCode f.x).map (fun s => .acq s (.ofField f.a)) else none
  | 2 => if f.b = 0 ∧ f.d = 0 then (Scope.ofCode f.x).map (fun s => .rel s (.ofField f.a)) else none
  | 3 => need (f.x == 0) (.bind (.ofField f.a) (.ofField f.b) (.ofField f.d))
  | 4 => need (f.x == 0 && f.d == 0) (.unbind (.ofField f.a) (.ofField f.b))
  | 5 => need (f.b == 0 && f.x == 0 && f.d == 0) (.waitack (.ofField f.a))
  | _ => none

/-- Major 0x11 (R52). -/
def decode11 (f : Long) : Option Instr :=
  match f.fn with
  | 0 => some (.ldf (.ofField f.d) (.ofField f.a) f.imm10)
  | 1 => some (.stf (.ofField f.d) (.ofField f.a) f.imm10)
  | 2 => need (f.b == 0 && f.x / 8 == 0) (.ldfn (.ofField f.d) (.ofField f.a) (BitVec.ofNat 3 f.x))
  | 3 => need (f.d == 0 && f.x / 8 == 0) (.stfn (.ofField f.a) (.ofField f.b) (BitVec.ofNat 3 f.x))
  | 4 => need (f.d == 0) (.feclr (.ofField f.a) f.imm10)
  | 5 => need (f.d == 0) (.feset (.ofField f.a) f.imm10)
  | _ => none

/-- Major 0x12 (R52). -/
def decode12 (f : Long) : Option Instr :=
  match f.fn with
  | 0 => need (f.b == 0 && f.d == 0 && f.x / 4 == 0) (.mon (.ofField f.a) (BitVec.ofNat 2 f.x))
  | 1 => need (f.a == 0 && f.b == 0 && f.d == 0 && f.x / 8 == 0) (.monclr (f.x / 4 == 1) (BitVec.ofNat 2 f.x))
  | 2 => need (f.b == 0 && f.x == 0 && f.d == 0) (.mwait (.ofField f.a))
  | 3 => need (f.b == 0 && f.x == 0 && f.d == 0) (.sleep (.ofField f.a))
  | _ => none

/-- Major 0x13 (R52). -/
def decode13 (f : Long) : Option Instr :=
  match f.fn with
  | 0 => need (f.x == 0 && f.d == 0) (.binit (.ofField f.a) (.ofField f.b))
  | 1 => need (f.x == 0 && f.d == 0) (.bexpect (.ofField f.a) (.ofField f.b))
  | 2 => need (f.x == 0 && f.d == 0) (.barrive (.ofField f.a) (.ofField f.b))
  | 3 => need (f.b == 0 && f.d == 0 && f.x / 2 == 0) (.bwait (f.x == 1) (.ofField f.a))
  | 4 => need (f.b == 0 && f.x == 0) (.btest (.ofField f.d) (.ofField f.a))
  | _ => none

/-- Major 0x14 (R52). -/
def decode14 (f : Long) : Option Instr :=
  match f.fn with
  | 0 => need (f.b == 0 && f.x == 0 && f.d / 16 == 0) (.xset (BitVec.ofNat 4 f.d) (.ofField f.a))
  | 1 => need (f.a == 0 && f.b == 0) (.xmov (.ofField f.d) (BitVec.ofNat 4 f.x))
  | 2 => need (f.d / 16 == 0) (.xld (BitVec.ofNat 4 f.d) (.ofField f.a) f.imm10)
  | 3 => need (f.d / 16 == 0) (.xst (BitVec.ofNat 4 f.d) (.ofField f.a) f.imm10)
  | _ => none

/-- Major 0x15 (R52). -/
def decode15 (f : Long) : Option Instr :=
  match f.fn with
  | 0 => need (f.b == 0 && f.x == 0 && f.d / 8 == 0) (.qset (BitVec.ofNat 3 f.d) (.ofField f.a))
  | 1 => need (f.a == 0 && f.b == 0 && f.x == 0 && f.d / 8 == 0) (.qclr (BitVec.ofNat 3 f.d))
  | 2 => need (f.a == 0 && f.b == 0 && f.x / 8 == 0) (.qtest (.ofField f.d) (BitVec.ofNat 3 f.x))
  | _ => none

/-- Major 0x16 (R52). -/
def decode16 (f : Long) : Option Instr :=
  match f.fn with
  | 0 => (Rm.ofCode (f.x % 8)).map (fun r => .fadd (.ofBit (f.x / 8)) r (.ofField f.d) (.ofField f.a) (.ofField f.b))
  | 1 => (Rm.ofCode (f.x % 8)).map (fun r => .fsub (.ofBit (f.x / 8)) r (.ofField f.d) (.ofField f.a) (.ofField f.b))
  | 2 => (Rm.ofCode (f.x % 8)).map (fun r => .fmul (.ofBit (f.x / 8)) r (.ofField f.d) (.ofField f.a) (.ofField f.b))
  | 3 => (Rm.ofCode (f.x % 8)).map (fun r => .fdiv (.ofBit (f.x / 8)) r (.ofField f.d) (.ofField f.a) (.ofField f.b))
  | 4 => if f.b = 0 then (Rm.ofCode (f.x % 8)).map (fun r => .fsqrt (.ofBit (f.x / 8)) r (.ofField f.d) (.ofField f.a)) else none
  | 5 => need (f.x % 8 == 0) (.fmin (.ofBit (f.x / 8)) (.ofField f.d) (.ofField f.a) (.ofField f.b))
  | 6 => need (f.x % 8 == 0) (.fmax (.ofBit (f.x / 8)) (.ofField f.d) (.ofField f.a) (.ofField f.b))
  | 7 => need (f.x % 8 == 0) (.feq (.ofBit (f.x / 8)) (.ofField f.d) (.ofField f.a) (.ofField f.b))
  | 8 => need (f.x % 8 == 0) (.flt (.ofBit (f.x / 8)) (.ofField f.d) (.ofField f.a) (.ofField f.b))
  | 9 => need (f.x % 8 == 0) (.fle (.ofBit (f.x / 8)) (.ofField f.d) (.ofField f.a) (.ofField f.b))
  | 10 => need (f.b == 0 && f.x % 8 == 0) (.fclass (.ofBit (f.x / 8)) (.ofField f.d) (.ofField f.a))
  | _ => none

/-- Major 0x17 (R52). -/
def decode17 (f : Long) : Option Instr :=
  match f.fn with
  | 0 => (Rm.ofCode (f.x % 8)).map (fun r => .fmadd (.ofBit (f.x / 8)) r (.ofField f.d) (.ofField f.a) (.ofField f.b))
  | 1 => (Rm.ofCode (f.x % 8)).map (fun r => .fmsub (.ofBit (f.x / 8)) r (.ofField f.d) (.ofField f.a) (.ofField f.b))
  | 2 => (Rm.ofCode (f.x % 8)).map (fun r => .fnmadd (.ofBit (f.x / 8)) r (.ofField f.d) (.ofField f.a) (.ofField f.b))
  | 3 => (Rm.ofCode (f.x % 8)).map (fun r => .fnmsub (.ofBit (f.x / 8)) r (.ofField f.d) (.ofField f.a) (.ofField f.b))
  | _ => none

/-- Major 0x18 (R52). -/
def decode18 (f : Long) : Option Instr :=
  match f.fn with
  | 0 => need (f.x < 3) (.padd (.ofCode f.x) (.ofField f.d) (.ofField f.a) (.ofField f.b))
  | 1 => need (f.x < 3) (.psub (.ofCode f.x) (.ofField f.d) (.ofField f.a) (.ofField f.b))
  | 2 => need (f.x / 8 == 0 && f.x % 4 != 3) (.padds (f.x / 4 == 1) (.ofCode (f.x % 4)) (.ofField f.d) (.ofField f.a) (.ofField f.b))
  | 3 => need (f.x / 8 == 0 && f.x % 4 != 3) (.psubs (f.x / 4 == 1) (.ofCode (f.x % 4)) (.ofField f.d) (.ofField f.a) (.ofField f.b))
  | 4 => need (f.x < 7) (.pmin (f.x / 4 == 1) (.ofCode (f.x % 4)) (.ofField f.d) (.ofField f.a) (.ofField f.b))
  | 5 => need (f.x < 7) (.pmax (f.x / 4 == 1) (.ofCode (f.x % 4)) (.ofField f.d) (.ofField f.a) (.ofField f.b))
  | 6 => need (f.x < 4) (.pmul (.ofCode f.x) (.ofField f.d) (.ofField f.a) (.ofField f.b))
  | 7 => need (f.x < 4) (.pcmpeq (.ofCode f.x) (.ofField f.d) (.ofField f.a) (.ofField f.b))
  | 8 => need (f.x / 8 == 0 && f.x % 4 != 3) (.pcmpgt (f.x / 4 == 1) (.ofCode (f.x % 4)) (.ofField f.d) (.ofField f.a) (.ofField f.b))
  | _ => none

/-- Major 0x19 (R52). -/
def decode19 (f : Long) : Option Instr :=
  if f.b / 16 ≠ 0 ∨ f.x / 8 ≠ 0 ∨ f.fn = f.b then none else
    match Fmt.ofCode f.fn, Fmt.ofCode f.b, Rm.ofCode f.x with
    | some dst, some src, some r => some (.cvt dst src r (.ofField f.d) (.ofField f.a))
    | _, _, _ => none

/-- Major 0x1a (R52). -/
def decode1A (f : Long) : Option Instr :=
  match f.fn with
  | 0 => if f.x < 2 then (Gd.ofField f.d).map (fun g => .mstagea g (f.x == 1) (.ofField f.a) (.ofField f.b)) else none
  | 1 => if f.x < 2 then (Gd.ofField f.d).map (fun g => .mstageb g (f.x == 1) (.ofField f.a) (.ofField f.b)) else none
  | 2 => if f.a = 0 ∧ f.b < 4 ∧ f.x < 12 then
      match Gd.ofField f.d, Fmt.ofCode f.x with
      | some g, some t => some (.mma g t (f.b % 2 == 1) (f.b / 2 == 1))
      | _, _ => none
    else none
  | 3 => if f.b = 0 ∧ f.x < 2 then (Gd.ofField f.d).map (fun g => .mflush g (f.x == 1) (.ofField f.a)) else none
  | 4 => if f.x < 2 then (Gd.ofField f.d).map (fun g => .mflushSum g (f.x == 1) (.ofField f.a) (.ofField f.b)) else none
  | 5 => if f.a = 0 ∧ f.b = 0 ∧ f.x < 2 then (Gd.ofField f.d).map (fun g => .mclr g (f.x == 1)) else none
  | 6 => if f.x = 0 then (Gd.ofField f.d).map (fun g => .accdecl g (.ofField f.a) (.ofField f.b)) else none
  | _ => none

/-- Major 0x1b (R52). -/
def decode1B (f : Long) : Option Instr :=
  match f.fn with
  | 0 => if f.a = 0 ∧ f.b = 0 ∧ f.x = 0 then (Gd.ofField f.d).map (fun g => .cpy g ) else none
  | 1 => if f.b = 0 ∧ f.x = 0 then (Gd.ofField f.d).map (fun g => .cpyFill g (.ofField f.a)) else none
  | 2 => need (f.a == 0 && f.b == 0 && f.x == 0) (.cpfree (.ofField f.d))
  | _ => none

/-- Major 0x1c (R52). -/
def decode1C (f : Long) : Option Instr :=
  match f.fn with
  | 0 => if f.a = 0 then (SysReg.ofCode (f.b * 16 + f.x)).map (fun s => .mfs (.ofField f.d) s) else none
  | 1 => if f.d = 0 then (SysReg.ofCode (f.b * 16 + f.x)).map (fun s => .mts s (.ofField f.a)) else none
  | 2 => need (f.a == 0 && f.d == 0) (.trap f.imm10)
  | 3 => need (f.a == 0 && f.b == 0 && f.x == 0 && f.d == 0) .eret
  | 4 => need (f.a == 0 && f.b == 0 && f.x == 0 && f.d == 0) .halt
  | 5 => need (f.b == 0 && f.x == 0 && f.d == 0) (.genbump (.ofField f.a))
  | 6 => need (f.x == 0 && f.d == 0) (.tlbinv (.ofField f.a) (.ofField f.b))
  | 7 => need (f.a == 0 && f.b == 0 && f.x == 0 && f.d == 0) .tlbinvall
  | 8 => need (f.b == 0 && f.x == 0 && f.d == 0) (.cwb (.ofField f.a))
  | 9 => need (f.b == 0 && f.x == 0 && f.d == 0) (.cinv (.ofField f.a))
  | _ => none

/-- Major 0x1d (R52). -/
def decode1D (f : Long) : Option Instr :=
  match f.fn with
  | 0 => need (f.a == 0 && f.b == 0 && f.x == 0) (.cvstat (.ofField f.d))
  | 1 => need (f.b == 0 && f.x == 0 && f.d == 0) (.waitwall (.ofField f.a))
  | 2 => need (f.b == 0 && f.x == 0 && f.d == 0) (.cvarm (.ofField f.a))
  | 3 => need (f.b == 0 && f.x == 0 && f.d == 0) (.cvdisarm (.ofField f.a))
  | _ => none

/-- The instruction that the fields of a 32-bit word name; none where R56 calls the word illegal. -/
def Long.decode (f : Long) : Option Instr :=
  match f.major with
  | 0 => decode00 f
  | 1 => decode01 f
  | 2 => decode02 f
  | 3 => decode03 f
  | 4 => decode04 f
  | 5 => decode05 f
  | 6 => decode06 f
  | 7 => decode07 f
  | 8 => decode08 f
  | 9 => decode09 f
  | 10 => decode0A f
  | 11 => decode0B f
  | 12 => decode0C f
  | 13 => decode0D f
  | 14 => decode0E f
  | 15 => decode0F f
  | 16 => decode10 f
  | 17 => decode11 f
  | 18 => decode12 f
  | 19 => decode13 f
  | 20 => decode14 f
  | 21 => decode15 f
  | 22 => decode16 f
  | 23 => decode17 f
  | 24 => decode18 f
  | 25 => decode19 f
  | 26 => decode1A f
  | 27 => decode1B f
  | 28 => decode1C f
  | 29 => decode1D f
  | _ => none

/-! ## The 16-bit words -/

/-- The instruction that the fields of a 16-bit word name (R51). -/
def Short.decode (f : Short) : Option Instr :=
  match f.op with
  | 0 => need (f.sub == 0 && !(f.rd == 0 && f.rs == 0)) (.mov16 (BitVec.ofNat 4 f.rd) (BitVec.ofNat 4 f.rs))
  | 1 => need (f.sub == 0) (.add16 (BitVec.ofNat 4 f.rd) (BitVec.ofNat 4 f.rs))
  | 2 => some (.addi16 (BitVec.ofNat 4 f.rd) f.imm7)
  | 3 => need (f.sub == 0) (.sub16 (BitVec.ofNat 4 f.rd) (BitVec.ofNat 4 f.rs))
  | 4 => need (f.sub == 0) (.and16 (BitVec.ofNat 4 f.rd) (BitVec.ofNat 4 f.rs))
  | 5 => need (f.sub == 0) (.or16 (BitVec.ofNat 4 f.rd) (BitVec.ofNat 4 f.rs))
  | 6 => need (f.sub == 0) (.xor16 (BitVec.ofNat 4 f.rd) (BitVec.ofNat 4 f.rs))
  | 7 => match f.rs / 4 with
    | 0 => some (.slli16 (BitVec.ofNat 4 f.rd) (BitVec.ofNat 5 (f.rs % 4 * 8 + f.sub)))
    | 1 => some (.srli16 (BitVec.ofNat 4 f.rd) (BitVec.ofNat 5 (f.rs % 4 * 8 + f.sub)))
    | 2 => some (.srai16 (BitVec.ofNat 4 f.rd) (BitVec.ofNat 5 (f.rs % 4 * 8 + f.sub)))
    | _ => none
  | 8 => some (.ldD16 (BitVec.ofNat 4 f.rd) f.imm7)
  | 9 => some (.stD16 (BitVec.ofNat 4 f.rd) f.imm7)
  | 10 => some (.beqz16 (BitVec.ofNat 4 f.rd) f.imm7)
  | 11 => some (.bnez16 (BitVec.ofNat 4 f.rd) f.imm7)
  | 12 => some (.j16 f.imm11)
  | 13 => match f.sub with
    | 0 => some (.slt16 (BitVec.ofNat 4 f.rd) (BitVec.ofNat 4 f.rs))
    | 1 => some (.sltu16 (BitVec.ofNat 4 f.rd) (BitVec.ofNat 4 f.rs))
    | _ => none
  | 14 => if f.rd ≠ 0 ∨ f.rs ≠ 0 then none else match f.sub with
    | 0 => some .nop16
    | 1 => some .yield16
    | 2 => some .prept16
    | 3 => some .ret16
    | _ => none
  | _ => none

/-! ## Words and bytes -/

/-- An instruction word: a halfword with bit 15 clear, or a 32-bit word (R42). -/
inductive Encoded where
  | half (h : Nat)
  | word (w : Nat)
  deriving DecidableEq, Repr

/-- The decoder on an instruction word. -/
def Encoded.decode : Encoded → Option Instr
  | .half h => (Short.split h).decode
  | .word w => (Long.split w).decode

/-- The length in bytes. -/
def Encoded.len : Encoded → Nat
  | .half _ => 2
  | .word _ => 4

/-- The bytes of a word, as memory holds them (R42): each halfword little-endian, bits 15:0 first. -/
def Encoded.bytes : Encoded → List Byte
  | .half h => [BitVec.ofNat 8 h, BitVec.ofNat 8 (h / 2 ^ 8)]
  | .word w => [BitVec.ofNat 8 w, BitVec.ofNat 8 (w / 2 ^ 8), BitVec.ofNat 8 (w / 2 ^ 16), BitVec.ofNat 8 (w / 2 ^ 24)]

/-- The word that two halfwords make: bit 15 of the first is the length bit (R42). -/
def wordOfHalves (h0 h1 : Nat) : Encoded := if h0 / 2 ^ 15 % 2 = 0 then .half h0 else .word (h1 * 2 ^ 16 + h0)

/-- The instruction word at the head of a list of bytes and the bytes after it; none where the bytes end inside it. -/
def takeWord : List Byte → Option (Encoded × List Byte)
  | b0 :: b1 :: rest =>
    let h0 := b1.toNat * 2 ^ 8 + b0.toNat
    if h0 / 2 ^ 15 % 2 = 0 then some (.half h0, rest)
    else match rest with
      | b2 :: b3 :: rest' => some (wordOfHalves h0 (b3.toNat * 2 ^ 8 + b2.toNat), rest')
      | _ => none
  | _ => none

/-- The instruction at the head of a list of bytes; none where R56 calls the pattern illegal or the bytes end inside it. -/
def decodeBytes (bs : List Byte) : Option (Instr × List Byte) :=
  match takeWord bs with
  | some (e, rest) => e.decode.map (fun i => (i, rest))
  | none => none

/-- The bytes that hold the `nbits` lowest bits of w, the byte of bits 7:0 first. -/
def bytesOfNat : Nat → Nat → List Byte
  | 0, _ => []
  | k + 1, w => BitVec.ofNat 8 w :: bytesOfNat k (w / 2 ^ 8)

/-- The instruction that the decoder reads from an instruction whose bits are w. -/
def decodeTableWord (nbits w : Nat) : Option Instr :=
  (decodeBytes (bytesOfNat 4 (w % 2 ^ nbits))).map (·.1)

/-! ## The encoder -/

/-- The 32-bit encoding of an instruction (R52, R54, R55); none for a 16-bit form and for an event. -/
def Instr.long : Instr → Option Long
  | .add d a b => some { major := 0x0, a := a.field, b := b.field, x := 0, d := d.field, fn := 0 }
  | .sub d a b => some { major := 0x0, a := a.field, b := b.field, x := 0, d := d.field, fn := 1 }
  | .and d a b => some { major := 0x0, a := a.field, b := b.field, x := 0, d := d.field, fn := 2 }
  | .or d a b => some { major := 0x0, a := a.field, b := b.field, x := 0, d := d.field, fn := 3 }
  | .xor d a b => some { major := 0x0, a := a.field, b := b.field, x := 0, d := d.field, fn := 4 }
  | .andn d a b => some { major := 0x0, a := a.field, b := b.field, x := 0, d := d.field, fn := 5 }
  | .orn d a b => some { major := 0x0, a := a.field, b := b.field, x := 0, d := d.field, fn := 6 }
  | .xnor d a b => some { major := 0x0, a := a.field, b := b.field, x := 0, d := d.field, fn := 7 }
  | .addW d a b => some { major := 0x0, a := a.field, b := b.field, x := 0, d := d.field, fn := 8 }
  | .subW d a b => some { major := 0x0, a := a.field, b := b.field, x := 0, d := d.field, fn := 9 }
  | .adds d a b => some { major := 0x0, a := a.field, b := b.field, x := 0, d := d.field, fn := 10 }
  | .subs d a b => some { major := 0x0, a := a.field, b := b.field, x := 0, d := d.field, fn := 11 }
  | .min d a b => some { major := 0x0, a := a.field, b := b.field, x := 0, d := d.field, fn := 12 }
  | .max d a b => some { major := 0x0, a := a.field, b := b.field, x := 0, d := d.field, fn := 13 }
  | .minu d a b => some { major := 0x0, a := a.field, b := b.field, x := 0, d := d.field, fn := 14 }
  | .maxu d a b => some { major := 0x0, a := a.field, b := b.field, x := 0, d := d.field, fn := 15 }
  | .addi d a i => some { major := 0x1, a := a.field, b := i.toNat / 16, x := i.toNat % 16, d := d.field, fn := 0 }
  | .andi d a i => some { major := 0x1, a := a.field, b := i.toNat / 16, x := i.toNat % 16, d := d.field, fn := 1 }
  | .ori d a i => some { major := 0x1, a := a.field, b := i.toNat / 16, x := i.toNat % 16, d := d.field, fn := 2 }
  | .xori d a i => some { major := 0x1, a := a.field, b := i.toNat / 16, x := i.toNat % 16, d := d.field, fn := 3 }
  | .addiW d a i => some { major := 0x1, a := a.field, b := i.toNat / 16, x := i.toNat % 16, d := d.field, fn := 4 }
  | .slti d a i => some { major := 0x1, a := a.field, b := i.toNat / 16, x := i.toNat % 16, d := d.field, fn := 5 }
  | .sltiu d a i => some { major := 0x1, a := a.field, b := i.toNat / 16, x := i.toNat % 16, d := d.field, fn := 6 }
  | .sll d a b => some { major := 0x2, a := a.field, b := b.field, x := 0, d := d.field, fn := 0 }
  | .srl d a b => some { major := 0x2, a := a.field, b := b.field, x := 0, d := d.field, fn := 1 }
  | .sra d a b => some { major := 0x2, a := a.field, b := b.field, x := 0, d := d.field, fn := 2 }
  | .rol d a b => some { major := 0x2, a := a.field, b := b.field, x := 0, d := d.field, fn := 3 }
  | .ror d a b => some { major := 0x2, a := a.field, b := b.field, x := 0, d := d.field, fn := 4 }
  | .sllW d a b => some { major := 0x2, a := a.field, b := b.field, x := 0, d := d.field, fn := 5 }
  | .srlW d a b => some { major := 0x2, a := a.field, b := b.field, x := 0, d := d.field, fn := 6 }
  | .sraW d a b => some { major := 0x2, a := a.field, b := b.field, x := 0, d := d.field, fn := 7 }
  | .slli d a n => some { major := 0x2, a := a.field, b := n.toNat / 16, x := n.toNat % 16, d := d.field, fn := 8 }
  | .srli d a n => some { major := 0x2, a := a.field, b := n.toNat / 16, x := n.toNat % 16, d := d.field, fn := 9 }
  | .srai d a n => some { major := 0x2, a := a.field, b := n.toNat / 16, x := n.toNat % 16, d := d.field, fn := 10 }
  | .rori d a n => some { major := 0x2, a := a.field, b := n.toNat / 16, x := n.toNat % 16, d := d.field, fn := 11 }
  | .bext d a b => some { major := 0x2, a := a.field, b := b.field, x := 0, d := d.field, fn := 12 }
  | .bexts d a b => some { major := 0x2, a := a.field, b := b.field, x := 0, d := d.field, fn := 13 }
  | .bins d a b => some { major := 0x2, a := a.field, b := b.field, x := 0, d := d.field, fn := 14 }
  | .clz d a => some { major := 0x02, a := a.field, b := 0, x := 0, d := d.field, fn := 15 }
  | .ctz d a => some { major := 0x02, a := a.field, b := 0, x := 1, d := d.field, fn := 15 }
  | .popc d a => some { major := 0x02, a := a.field, b := 0, x := 2, d := d.field, fn := 15 }
  | .rev8 d a => some { major := 0x02, a := a.field, b := 0, x := 3, d := d.field, fn := 15 }
  | .slt d a b => some { major := 0x3, a := a.field, b := b.field, x := 0, d := d.field, fn := 0 }
  | .sltu d a b => some { major := 0x3, a := a.field, b := b.field, x := 0, d := d.field, fn := 1 }
  | .seq d a b => some { major := 0x3, a := a.field, b := b.field, x := 0, d := d.field, fn := 2 }
  | .sne d a b => some { major := 0x3, a := a.field, b := b.field, x := 0, d := d.field, fn := 3 }
  | .sle d a b => some { major := 0x3, a := a.field, b := b.field, x := 0, d := d.field, fn := 4 }
  | .sleu d a b => some { major := 0x3, a := a.field, b := b.field, x := 0, d := d.field, fn := 5 }
  | .sel d a b q => some { major := 0x3, a := a.field, b := b.field, x := q.toNat, d := d.field, fn := 6 }
  | .mul d a b => some { major := 0x4, a := a.field, b := b.field, x := 0, d := d.field, fn := 0 }
  | .mulh d a b => some { major := 0x4, a := a.field, b := b.field, x := 0, d := d.field, fn := 1 }
  | .mulhu d a b => some { major := 0x4, a := a.field, b := b.field, x := 0, d := d.field, fn := 2 }
  | .mulhsu d a b => some { major := 0x4, a := a.field, b := b.field, x := 0, d := d.field, fn := 3 }
  | .mulW d a b => some { major := 0x4, a := a.field, b := b.field, x := 0, d := d.field, fn := 4 }
  | .div d a b => some { major := 0x4, a := a.field, b := b.field, x := 0, d := d.field, fn := 5 }
  | .divu d a b => some { major := 0x4, a := a.field, b := b.field, x := 0, d := d.field, fn := 6 }
  | .rem d a b => some { major := 0x4, a := a.field, b := b.field, x := 0, d := d.field, fn := 7 }
  | .remu d a b => some { major := 0x4, a := a.field, b := b.field, x := 0, d := d.field, fn := 8 }
  | .divW d a b => some { major := 0x4, a := a.field, b := b.field, x := 0, d := d.field, fn := 9 }
  | .remW d a b => some { major := 0x4, a := a.field, b := b.field, x := 0, d := d.field, fn := 10 }
  | .lui d i => some { major := 0x05, a := i.toNat / 8192, b := i.toNat / 128 % 64, x := i.toNat / 8 % 16, d := d.field, fn := i.toNat % 8 }
  | .adr d i => some { major := 0x05, a := i.toNat / 8192, b := i.toNat / 128 % 64, x := i.toNat / 8 % 16, d := d.field, fn := 8 + i.toNat % 8 }
  | .beq a b o => some { major := 0x6, a := b.field, b := o.toNat / 16, x := o.toNat % 16, d := a.field, fn := 0 }
  | .bne a b o => some { major := 0x6, a := b.field, b := o.toNat / 16, x := o.toNat % 16, d := a.field, fn := 1 }
  | .blt a b o => some { major := 0x6, a := b.field, b := o.toNat / 16, x := o.toNat % 16, d := a.field, fn := 2 }
  | .bge a b o => some { major := 0x6, a := b.field, b := o.toNat / 16, x := o.toNat % 16, d := a.field, fn := 3 }
  | .bltu a b o => some { major := 0x6, a := b.field, b := o.toNat / 16, x := o.toNat % 16, d := a.field, fn := 4 }
  | .bgeu a b o => some { major := 0x6, a := b.field, b := o.toNat / 16, x := o.toNat % 16, d := a.field, fn := 5 }
  | .bq q o => some { major := 0x6, a := 0, b := o.toNat / 16, x := o.toNat % 16, d := q.toNat, fn := 6 }
  | .bnq q o => some { major := 0x6, a := 0, b := o.toNat / 16, x := o.toNat % 16, d := q.toNat, fn := 7 }
  | .j o => some { major := 0x07, a := o.toNat / 2 ^ 18, b := o.toNat / 2 ^ 12 % 64, x := o.toNat / 256 % 16, d := o.toNat / 16 % 16, fn := o.toNat % 16 }
  | .call o => some { major := 0x07, a := o.toNat / 2 ^ 18, b := o.toNat / 2 ^ 12 % 64, x := o.toNat / 256 % 16, d := 16 + o.toNat / 16 % 16, fn := o.toNat % 16 }
  | .jr a i => some { major := 0x07, a := a.field, b := i.toNat / 16, x := i.toNat % 16, d := 32, fn := 0 }
  | .callr a i => some { major := 0x07, a := a.field, b := i.toNat / 16, x := i.toNat % 16, d := 33, fn := 0 }
  | .loop a i => some { major := 0x8, a := a.field, b := i.toNat / 16, x := i.toNat % 16, d := 0, fn := 0 }
  | .rfpush => some { major := 0x8, a := 0, b := 0, x := 0, d := 0, fn := 1 }
  | .rfpop => some { major := 0x8, a := 0, b := 0, x := 0, d := 0, fn := 2 }
  | .spawn a b => some { major := 0x9, a := a.field, b := b.field, x := 0, d := 0, fn := 0 }
  | .reap d a => some { major := 0x9, a := a.field, b := 0, x := 0, d := d.field, fn := 1 }
  | .rdv a q => some { major := 0x9, a := 32 + a.toNat, b := 0, x := 0, d := q.toNat, fn := 2 }
  | .rdvInitReg a b => some { major := 0x9, a := 32 + a.toNat, b := b.field, x := 0, d := 0, fn := 3 }
  | .rdvInitImm a i => some { major := 0x9, a := 32 + a.toNat, b := i.toNat / 16, x := i.toNat % 16, d := 0, fn := 4 }
  | .yield => some { major := 0x9, a := 0, b := 0, x := 0, d := 0, fn := 5 }
  | .prept => some { major := 0x9, a := 0, b := 0, x := 0, d := 0, fn := 6 }
  | .pin => some { major := 0x9, a := 0, b := 0, x := 0, d := 0, fn := 7 }
  | .unpin => some { major := 0x9, a := 0, b := 0, x := 0, d := 0, fn := 8 }
  | .rself x d => some { major := 0x9, a := 0, b := 0, x := x.code, d := d.field, fn := 9 }
  | .ldB d a i => some { major := 0xa, a := a.field, b := i.toNat / 16, x := i.toNat % 16, d := d.field, fn := 0 }
  | .ldBz d a i => some { major := 0xa, a := a.field, b := i.toNat / 16, x := i.toNat % 16, d := d.field, fn := 1 }
  | .ldH d a i => some { major := 0xa, a := a.field, b := i.toNat / 16, x := i.toNat % 16, d := d.field, fn := 2 }
  | .ldHz d a i => some { major := 0xa, a := a.field, b := i.toNat / 16, x := i.toNat % 16, d := d.field, fn := 3 }
  | .ldW d a i => some { major := 0xa, a := a.field, b := i.toNat / 16, x := i.toNat % 16, d := d.field, fn := 4 }
  | .ldWz d a i => some { major := 0xa, a := a.field, b := i.toNat / 16, x := i.toNat % 16, d := d.field, fn := 5 }
  | .ldD d a i => some { major := 0xa, a := a.field, b := i.toNat / 16, x := i.toNat % 16, d := d.field, fn := 6 }
  | .stB d a i => some { major := 0xb, a := a.field, b := i.toNat / 16, x := i.toNat % 16, d := d.field, fn := 0 }
  | .stH d a i => some { major := 0xb, a := a.field, b := i.toNat / 16, x := i.toNat % 16, d := d.field, fn := 1 }
  | .stW d a i => some { major := 0xb, a := a.field, b := i.toNat / 16, x := i.toNat % 16, d := d.field, fn := 2 }
  | .stD d a i => some { major := 0xb, a := a.field, b := i.toNat / 16, x := i.toNat % 16, d := d.field, fn := 3 }
  | .ldxB d a b => some { major := 0xc, a := a.field, b := b.field, x := 0, d := d.field, fn := 0 }
  | .ldxBz d a b => some { major := 0xc, a := a.field, b := b.field, x := 0, d := d.field, fn := 1 }
  | .ldxH d a b => some { major := 0xc, a := a.field, b := b.field, x := 0, d := d.field, fn := 2 }
  | .ldxHz d a b => some { major := 0xc, a := a.field, b := b.field, x := 0, d := d.field, fn := 3 }
  | .ldxW d a b => some { major := 0xc, a := a.field, b := b.field, x := 0, d := d.field, fn := 4 }
  | .ldxWz d a b => some { major := 0xc, a := a.field, b := b.field, x := 0, d := d.field, fn := 5 }
  | .ldxD d a b => some { major := 0xc, a := a.field, b := b.field, x := 0, d := d.field, fn := 6 }
  | .stxB d a b => some { major := 0xc, a := a.field, b := b.field, x := 0, d := d.field, fn := 8 }
  | .stxH d a b => some { major := 0xc, a := a.field, b := b.field, x := 0, d := d.field, fn := 9 }
  | .stxW d a b => some { major := 0xc, a := a.field, b := b.field, x := 0, d := d.field, fn := 10 }
  | .stxD d a b => some { major := 0xc, a := a.field, b := b.field, x := 0, d := d.field, fn := 11 }
  | .ldcW d a i => some { major := 0xc, a := a.field, b := i.toNat / 16, x := i.toNat % 16, d := d.field, fn := 12 }
  | .ldcWz d a i => some { major := 0xc, a := a.field, b := i.toNat / 16, x := i.toNat % 16, d := d.field, fn := 13 }
  | .ldcD d a i => some { major := 0xc, a := a.field, b := i.toNat / 16, x := i.toNat % 16, d := d.field, fn := 14 }
  | .smap d a b => some { major := 0xd, a := a.field, b := b.field, x := 0, d := d.field, fn := 0 }
  | .sunmap a => some { major := 0xd, a := a.field, b := 0, x := 0, d := 0, fn := 1 }
  | .slock d a b => some { major := 0xd, a := a.field, b := b.field, x := 0, d := d.field, fn := 2 }
  | .sunlock a b => some { major := 0xd, a := a.field, b := b.field, x := 0, d := 0, fn := 3 }
  | .swb a b => some { major := 0xd, a := a.field, b := b.field, x := 0, d := 0, fn := 4 }
  | .amoAdd w d a b => some { major := 0xe, a := a.field, b := b.field, x := w.bit, d := d.field, fn := 0 }
  | .amoAnd w d a b => some { major := 0xe, a := a.field, b := b.field, x := w.bit, d := d.field, fn := 1 }
  | .amoOr w d a b => some { major := 0xe, a := a.field, b := b.field, x := w.bit, d := d.field, fn := 2 }
  | .amoXor w d a b => some { major := 0xe, a := a.field, b := b.field, x := w.bit, d := d.field, fn := 3 }
  | .amoMin w d a b => some { major := 0xe, a := a.field, b := b.field, x := w.bit, d := d.field, fn := 4 }
  | .amoMax w d a b => some { major := 0xe, a := a.field, b := b.field, x := w.bit, d := d.field, fn := 5 }
  | .amoMinu w d a b => some { major := 0xe, a := a.field, b := b.field, x := w.bit, d := d.field, fn := 6 }
  | .amoMaxu w d a b => some { major := 0xe, a := a.field, b := b.field, x := w.bit, d := d.field, fn := 7 }
  | .amoSwap w d a b => some { major := 0xe, a := a.field, b := b.field, x := w.bit, d := d.field, fn := 8 }
  | .amoCas w d a b => some { major := 0xe, a := a.field, b := b.field, x := w.bit, d := d.field, fn := 9 }
  | .amoFadd d a b => some { major := 0xe, a := a.field, b := b.field, x := 0, d := d.field, fn := 10 }
  | .gredAdd w d a b => some { major := 0xf, a := a.field, b := b.field, x := w.bit, d := d.field, fn := 0 }
  | .gredMin w d a b => some { major := 0xf, a := a.field, b := b.field, x := w.bit, d := d.field, fn := 1 }
  | .gredMax w d a b => some { major := 0xf, a := a.field, b := b.field, x := w.bit, d := d.field, fn := 2 }
  | .gredMinu w d a b => some { major := 0xf, a := a.field, b := b.field, x := w.bit, d := d.field, fn := 3 }
  | .gredMaxu w d a b => some { major := 0xf, a := a.field, b := b.field, x := w.bit, d := d.field, fn := 4 }
  | .gredFadd d a b => some { major := 0xf, a := a.field, b := b.field, x := 0, d := d.field, fn := 5 }
  | .fence s => some { major := 0x10, a := 0, b := 0, x := s.code, d := 0, fn := 0 }
  | .acq s a => some { major := 0x10, a := a.field, b := 0, x := s.code, d := 0, fn := 1 }
  | .rel s a => some { major := 0x10, a := a.field, b := 0, x := s.code, d := 0, fn := 2 }
  | .bind a b d => some { major := 0x10, a := a.field, b := b.field, x := 0, d := d.field, fn := 3 }
  | .unbind a b => some { major := 0x10, a := a.field, b := b.field, x := 0, d := 0, fn := 4 }
  | .waitack a => some { major := 0x10, a := a.field, b := 0, x := 0, d := 0, fn := 5 }
  | .ldf d a i => some { major := 0x11, a := a.field, b := i.toNat / 16, x := i.toNat % 16, d := d.field, fn := 0 }
  | .stf d a i => some { major := 0x11, a := a.field, b := i.toNat / 16, x := i.toNat % 16, d := d.field, fn := 1 }
  | .ldfn d a q => some { major := 0x11, a := a.field, b := 0, x := q.toNat, d := d.field, fn := 2 }
  | .stfn a b q => some { major := 0x11, a := a.field, b := b.field, x := q.toNat, d := 0, fn := 3 }
  | .feclr a i => some { major := 0x11, a := a.field, b := i.toNat / 16, x := i.toNat % 16, d := 0, fn := 4 }
  | .feset a i => some { major := 0x11, a := a.field, b := i.toNat / 16, x := i.toNat % 16, d := 0, fn := 5 }
  | .mon a m => some { major := 0x12, a := a.field, b := 0, x := m.toNat, d := 0, fn := 0 }
  | .monclr l m => some { major := 0x12, a := 0, b := 0, x := 4 * bit l + m.toNat, d := 0, fn := 1 }
  | .mwait a => some { major := 0x12, a := a.field, b := 0, x := 0, d := 0, fn := 2 }
  | .sleep a => some { major := 0x12, a := a.field, b := 0, x := 0, d := 0, fn := 3 }
  | .binit a b => some { major := 0x13, a := a.field, b := b.field, x := 0, d := 0, fn := 0 }
  | .bexpect a b => some { major := 0x13, a := a.field, b := b.field, x := 0, d := 0, fn := 1 }
  | .barrive a b => some { major := 0x13, a := a.field, b := b.field, x := 0, d := 0, fn := 2 }
  | .bwait dl a => some { major := 0x13, a := a.field, b := 0, x := bit dl, d := 0, fn := 3 }
  | .btest d a => some { major := 0x13, a := a.field, b := 0, x := 0, d := d.field, fn := 4 }
  | .xset e a => some { major := 0x14, a := a.field, b := 0, x := 0, d := e.toNat, fn := 0 }
  | .xmov d e => some { major := 0x14, a := 0, b := 0, x := e.toNat, d := d.field, fn := 1 }
  | .xld e a i => some { major := 0x14, a := a.field, b := i.toNat / 16, x := i.toNat % 16, d := e.toNat, fn := 2 }
  | .xst e a i => some { major := 0x14, a := a.field, b := i.toNat / 16, x := i.toNat % 16, d := e.toNat, fn := 3 }
  | .qset q a => some { major := 0x15, a := a.field, b := 0, x := 0, d := q.toNat, fn := 0 }
  | .qclr q => some { major := 0x15, a := 0, b := 0, x := 0, d := q.toNat, fn := 1 }
  | .qtest d q => some { major := 0x15, a := 0, b := 0, x := q.toNat, d := d.field, fn := 2 }
  | .fadd p r d a b => some { major := 0x16, a := a.field, b := b.field, x := 8 * p.bit + r.code, d := d.field, fn := 0 }
  | .fsub p r d a b => some { major := 0x16, a := a.field, b := b.field, x := 8 * p.bit + r.code, d := d.field, fn := 1 }
  | .fmul p r d a b => some { major := 0x16, a := a.field, b := b.field, x := 8 * p.bit + r.code, d := d.field, fn := 2 }
  | .fdiv p r d a b => some { major := 0x16, a := a.field, b := b.field, x := 8 * p.bit + r.code, d := d.field, fn := 3 }
  | .fsqrt p r d a => some { major := 0x16, a := a.field, b := 0, x := 8 * p.bit + r.code, d := d.field, fn := 4 }
  | .fmin p d a b => some { major := 0x16, a := a.field, b := b.field, x := 8 * p.bit, d := d.field, fn := 5 }
  | .fmax p d a b => some { major := 0x16, a := a.field, b := b.field, x := 8 * p.bit, d := d.field, fn := 6 }
  | .feq p d a b => some { major := 0x16, a := a.field, b := b.field, x := 8 * p.bit, d := d.field, fn := 7 }
  | .flt p d a b => some { major := 0x16, a := a.field, b := b.field, x := 8 * p.bit, d := d.field, fn := 8 }
  | .fle p d a b => some { major := 0x16, a := a.field, b := b.field, x := 8 * p.bit, d := d.field, fn := 9 }
  | .fclass p d a => some { major := 0x16, a := a.field, b := 0, x := 8 * p.bit, d := d.field, fn := 10 }
  | .fmadd p r d a b => some { major := 0x17, a := a.field, b := b.field, x := 8 * p.bit + r.code, d := d.field, fn := 0 }
  | .fmsub p r d a b => some { major := 0x17, a := a.field, b := b.field, x := 8 * p.bit + r.code, d := d.field, fn := 1 }
  | .fnmadd p r d a b => some { major := 0x17, a := a.field, b := b.field, x := 8 * p.bit + r.code, d := d.field, fn := 2 }
  | .fnmsub p r d a b => some { major := 0x17, a := a.field, b := b.field, x := 8 * p.bit + r.code, d := d.field, fn := 3 }
  | .padd l d a b => some { major := 0x18, a := a.field, b := b.field, x := l.code, d := d.field, fn := 0 }
  | .psub l d a b => some { major := 0x18, a := a.field, b := b.field, x := l.code, d := d.field, fn := 1 }
  | .padds u l d a b => some { major := 0x18, a := a.field, b := b.field, x := 4 * bit u + l.code, d := d.field, fn := 2 }
  | .psubs u l d a b => some { major := 0x18, a := a.field, b := b.field, x := 4 * bit u + l.code, d := d.field, fn := 3 }
  | .pmin u l d a b => some { major := 0x18, a := a.field, b := b.field, x := 4 * bit u + l.code, d := d.field, fn := 4 }
  | .pmax u l d a b => some { major := 0x18, a := a.field, b := b.field, x := 4 * bit u + l.code, d := d.field, fn := 5 }
  | .pmul l d a b => some { major := 0x18, a := a.field, b := b.field, x := l.code, d := d.field, fn := 6 }
  | .pcmpeq l d a b => some { major := 0x18, a := a.field, b := b.field, x := l.code, d := d.field, fn := 7 }
  | .pcmpgt u l d a b => some { major := 0x18, a := a.field, b := b.field, x := 4 * bit u + l.code, d := d.field, fn := 8 }
  | .cvt dst src r d a => some { major := 0x19, a := a.field, b := src.code, x := r.code, d := d.field, fn := dst.code }
  | .mstagea g l a b => some { major := 0x1a, a := a.field, b := b.field, x := bit l, d := g.field, fn := 0 }
  | .mstageb g l a b => some { major := 0x1a, a := a.field, b := b.field, x := bit l, d := g.field, fn := 1 }
  | .mma g t n l => some { major := 0x1a, a := 0, b := bit n + 2 * bit l, x := t.code, d := g.field, fn := 2 }
  | .mflush g n a => some { major := 0x1a, a := a.field, b := 0, x := bit n, d := g.field, fn := 3 }
  | .mflushSum g n a b => some { major := 0x1a, a := a.field, b := b.field, x := bit n, d := g.field, fn := 4 }
  | .mclr g n => some { major := 0x1a, a := 0, b := 0, x := bit n, d := g.field, fn := 5 }
  | .accdecl g a b => some { major := 0x1a, a := a.field, b := b.field, x := 0, d := g.field, fn := 6 }
  | .cpy g => some { major := 0x1b, a := 0, b := 0, x := 0, d := g.field, fn := 0 }
  | .cpyFill g a => some { major := 0x1b, a := a.field, b := 0, x := 0, d := g.field, fn := 1 }
  | .cpfree d => some { major := 0x1b, a := 0, b := 0, x := 0, d := d.field, fn := 2 }
  | .mfs d s => some { major := 0x1c, a := 0, b := s.code / 16, x := s.code % 16, d := d.field, fn := 0 }
  | .mts s a => some { major := 0x1c, a := a.field, b := s.code / 16, x := s.code % 16, d := 0, fn := 1 }
  | .trap i => some { major := 0x1c, a := 0, b := i.toNat / 16, x := i.toNat % 16, d := 0, fn := 2 }
  | .eret => some { major := 0x1c, a := 0, b := 0, x := 0, d := 0, fn := 3 }
  | .halt => some { major := 0x1c, a := 0, b := 0, x := 0, d := 0, fn := 4 }
  | .genbump a => some { major := 0x1c, a := a.field, b := 0, x := 0, d := 0, fn := 5 }
  | .tlbinv a b => some { major := 0x1c, a := a.field, b := b.field, x := 0, d := 0, fn := 6 }
  | .tlbinvall => some { major := 0x1c, a := 0, b := 0, x := 0, d := 0, fn := 7 }
  | .cwb a => some { major := 0x1c, a := a.field, b := 0, x := 0, d := 0, fn := 8 }
  | .cinv a => some { major := 0x1c, a := a.field, b := 0, x := 0, d := 0, fn := 9 }
  | .cvstat d => some { major := 0x1d, a := 0, b := 0, x := 0, d := d.field, fn := 0 }
  | .waitwall a => some { major := 0x1d, a := a.field, b := 0, x := 0, d := 0, fn := 1 }
  | .cvarm a => some { major := 0x1d, a := a.field, b := 0, x := 0, d := 0, fn := 2 }
  | .cvdisarm a => some { major := 0x1d, a := a.field, b := 0, x := 0, d := 0, fn := 3 }
  | _ => none

/-- The 16-bit encoding of an instruction (R51). -/
def Instr.short : Instr → Option Short
  | .mov16 d s => some { op := 0, rd := d.toNat, rs := s.toNat, sub := 0 }
  | .add16 d s => some { op := 1, rd := d.toNat, rs := s.toNat, sub := 0 }
  | .addi16 d i => some { op := 2, rd := d.toNat, rs := i.toNat / 8, sub := i.toNat % 8 }
  | .sub16 d s => some { op := 3, rd := d.toNat, rs := s.toNat, sub := 0 }
  | .and16 d s => some { op := 4, rd := d.toNat, rs := s.toNat, sub := 0 }
  | .or16 d s => some { op := 5, rd := d.toNat, rs := s.toNat, sub := 0 }
  | .xor16 d s => some { op := 6, rd := d.toNat, rs := s.toNat, sub := 0 }
  | .slli16 d n => some { op := 7, rd := d.toNat, rs := 0 + n.toNat / 8, sub := n.toNat % 8 }
  | .srli16 d n => some { op := 7, rd := d.toNat, rs := 4 + n.toNat / 8, sub := n.toNat % 8 }
  | .srai16 d n => some { op := 7, rd := d.toNat, rs := 8 + n.toNat / 8, sub := n.toNat % 8 }
  | .ldD16 d i => some { op := 8, rd := d.toNat, rs := i.toNat / 8, sub := i.toNat % 8 }
  | .stD16 d i => some { op := 9, rd := d.toNat, rs := i.toNat / 8, sub := i.toNat % 8 }
  | .beqz16 d o => some { op := 10, rd := d.toNat, rs := o.toNat / 8, sub := o.toNat % 8 }
  | .bnez16 d o => some { op := 11, rd := d.toNat, rs := o.toNat / 8, sub := o.toNat % 8 }
  | .j16 o => some { op := 12, rd := o.toNat / 128, rs := o.toNat / 8 % 16, sub := o.toNat % 8 }
  | .slt16 d s => some { op := 13, rd := d.toNat, rs := s.toNat, sub := 0 }
  | .sltu16 d s => some { op := 13, rd := d.toNat, rs := s.toNat, sub := 1 }
  | .nop16 => some { op := 14, rd := 0, rs := 0, sub := 0 }
  | .yield16 => some { op := 14, rd := 0, rs := 0, sub := 1 }
  | .prept16 => some { op := 14, rd := 0, rs := 0, sub := 2 }
  | .ret16 => some { op := 14, rd := 0, rs := 0, sub := 3 }
  | _ => none

/-- The word of an instruction; none for an event, which is not fetched. -/
def encode (i : Instr) : Option Encoded :=
  match i.long with
  | some f => some (.word f.pack)
  | none => i.short.map (fun f => .half f.pack)

/-- An instruction word, as against an event of the device (R42, R51, R52). -/
def Instr.isWord (i : Instr) : Bool := (encode i).isSome

/-- The length of an instruction word in bytes (R42), 4 for an event. -/
def Instr.len (i : Instr) : Nat := if i.short.isSome then 2 else 4

end Sys2Proof
end

