-- ==== Sys2Proof/Machine/Tick.lean ====
section
/-!
DEFINITION. What a step does around one instruction or event: which step of the agenda comes next (R145), which thread issues and
what it finds there (R18, R21, R22, R57, R293, R294), and the end of a cycle (R25, R48, R90, R308, R313).
-/

namespace Sys2Proof.Machine

open Sys2Proof

/-! ## The agenda -/

/-- The leaky counters' loss comes before a correction of the same cycle (R299), the trigger of a snapshot before whatever changes a state
(R372), and a write to a basic register before one to an expert register, by whichever way the latter comes (R373). -/
def workRank : Work → Nat
  | .event .leakTick => 0
  | .event .snapshotFire => 0
  | .event (.xdataWrite _) => 2
  | .event (.frctlWrite _ _ _) => 2
  | .event (.gqosWrite _ _ _) => 2
  | .event (.snapctlWrite _) => 2
  | .event (.expertRegisterWrite _ _ _) => 2
  | _ => 1

/-- The order of two steps of one cycle, before their sequence numbers (R145): 0 for neither, 1 for the first, 2 for the second. Tiles of
one lodge stand in the order of their numbers; those of two lodges in that of the mesh. -/
def State.order (s : State) (p q : Pending) : Nat :=
  let pick := fun (a b : Nat) (k : Nat) => if a < b then 1 else if b < a then 2 else k
  let mesh := fun (p : Pending) => s.meshNumber (p.lodge * 64 + p.prio / placesPerTile)
  pick p.due q.due (pick (workRank p.work) (workRank q.work) (pick p.cls q.cls
    (if p.lodge = q.lodge then pick p.prio q.prio 0
     else pick (mesh p) (mesh q) (pick (p.prio % placesPerTile) (q.prio % placesPerTile) (pick p.lodge q.lodge 0)))))

def State.before (s : State) (p q : Pending) : Bool := s.order p q == 1 || (s.order p q == 0 && p.seq < q.seq)

/-- A remote access that reaches a stash in this cycle waits for the cores of its tile that come before it and still issue in the cycle
(R155); one that has been held there takes effect before them (R263). -/
def State.behindOwn (s : State) (p : Pending) : Bool :=
  match p.work with
  | .event (.remoteStashAccess r) => p.due == s.clk && p.cls != 0 && !s.paused && !s.halted && (List.range 16).any (fun j =>
      let core := r.tile * 16 + j
      s.core ≤ core && (s.chosen core s.clk).any (fun t => s.stashPlace (.thread t) r.tile < s.stashPlace r.who r.src))
  | _ => false

/-- A step may be carried out now: it is due, it is not held and does not wait at an egress, and neither the pause nor a stop of every die
keeps it back. -/
def State.ripe (s : State) (p : Pending) : Bool :=
  p.due ≤ s.clk && !p.held && p.unpaid.isNone && !(s.paused && p.kind == .tile) && !(s.halted && p.kind != .device) && !s.behindOwn p

/-- The step that comes next. -/
def State.nextEntry (s : State) : Option Pending :=
  (s.agenda.filter s.ripe).foldl (fun (b : Option Pending) p => match b with
    | some q => if s.before p q then some p else b
    | none => some p) none

/-- What becomes of a message where it arrives: one of another incarnation of its sender is dropped (R302); one for a lodge that its party
has left is sent on, and one ahead of the resume is held (R263). -/
inductive Meeting where
  | go | forward | hold | drop
  deriving DecidableEq, Repr

def State.meeting (s : State) (p : Pending) : Meeting :=
  if !s.accepts p then .drop
  else if p.kind != .message then .go
  else if p.turn + p.note ≠ s.turn then .forward
  else if s.paused then .hold else .go

/-- The agenda without a step, which is in hand: where it takes place (R302), and, for an arrival at a home, the turn of its request, which
what the home sends carries (R263). -/
def State.takeEntry (s : State) (p : Pending) : State :=
  ({ s with
     agenda := s.agenda.filter (fun q => q.seq != p.seq), cur := p.cur, here := s.dieOf p.cur p.work
     inTurn := if p.kind == .home then p.turn else s.turn } : State).countNote p

/-- The thread of an instruction that completes a wait is there still. -/
def State.stillWaits (s : State) (t : Nat) : Bool := (s.thread? t).any (fun th => th.replay && !th.halted)

/-! ## Which thread issues (R21, R22, R270, R370) -/

/-- The cores from c on that hold a placed thread, the lowest first. -/
def State.coresFrom (s : State) (c : Nat) : List Nat :=
  (s.threads.foldl (fun (m : List (Nat × Bool)) p => match p.2.place with
    | some k => if c ≤ coreOf k then KMap.set m (coreOf k) true else m
    | none => m) []).map (·.1)

/-- The die of a core is gated in this cycle. -/
def State.coreGated (s : State) (core : Nat) : Bool := s.gated.any (fun p => s.gatedNow p.1 && p.1 == s.dieOfTile (core / 16))

/-- The next core of this cycle at which a thread issues, and the thread. -/
def State.nextIssue (s : State) : Option (Nat × Nat) :=
  if s.paused || s.halted then none
  else (s.coresFrom s.core).findSome? (fun c => if s.coreGated c then none else (s.chosen c s.clk).map (fun t => (c, t)))

/-! ## An issue -/

/-- A request at another tile's stash whose backing page is not mapped: its fill cannot begin, and the fault is under service (R295). -/
def Tile.stuckFor (x : Tile) (mine : StashReq → Bool) : Bool := x.fillWait.any (fun q => mine q.req && !x.filling.contains q.idx)

/-- A fault of thread t that is not its present instruction's is under service: of a command of it (R226), or, with command 0, of a posted
access to another tile's stash (R295). -/
def State.faultedCommand (s : State) (t : Nat) : Option (Nat × Nat) :=
  s.tiles.findSome? (fun p =>
    match p.2.commands.find? (fun c => c.tid == t && c.faulted.isSome) with
    | some c => some (p.1, c.id)
    | none => if p.2.stuckFor (fun r => r.who == .thread t) then some (p.1, 0) else none)

/-- The first issue after a rendezvous clears the slot's PENDING bit, unless it comes in the completion cycle (R87). -/
def State.clearPending (s : State) (t : Nat) (th : Thread) : State :=
  match th.pendClear with
  | some k =>
    let core := coreOf th.home
    if s.rdvUpdates.any (fun u => u.core == core && u.guest == th.guest && u.k == k && u.waiters.contains t) then s
    else s.kset core th.guest k (setBits (s.kread core th.guest k) (16 + slotIn th.home) 1 0)
  | none => s

/-- The thread as its issue begins. A yield lasts until its own cycle comes (R89). -/
def Thread.atIssue (th : Thread) (clk : Nat) : Thread :=
  { th with
    pendClear := none, began := true, lastIssue := some clk, replay := false
    yielded := th.yielded && slotIn th.home != clk % 16 }

/-- The front end takes the instruction from a fetch made for another thread of the tile no more than 15 cycles ago, or fetches it
anew (R18). A thread that comes back within 15 cycles to a program counter that it has fetched itself fetches anew, and other threads may take
that fetch for 15 cycles more (DESIGN CHOICE, log entry 80). -/
def State.noteFetch (s : State) (t : Nat) (th : Thread) : State :=
  let tile := tileOf th.home
  if s.fetches.any (fun f => f.tile == tile && f.guest == th.guest && f.pc == th.pc && f.tid != t && s.clk ≤ f.at_ + 15) then
    s.modTile tile (fun x => x.modGuest th.guest (fun y => { y with fused := y.fused + 1 }))
  else { s with fetches := s.fetches ++ [{ tile := tile, guest := th.guest, pc := th.pc, tid := t, at_ := s.clk }] }

/-- The instruction word at a thread's program counter, or why and at which address it cannot be fetched now (R57, R118). -/
inductive FetchedWord where
  | word (e : Encoded)
  | fail (f : Fetched) (va : Word)
  deriving DecidableEq, Repr

def State.fetchWord (s : State) (k : Nat) (g : BitVec 8) (pc : Word) : FetchedWord :=
  match s.fetchHalf k g pc false with
  | .half h0 =>
    if h0 / 2 ^ 15 % 2 = 0 then .word (wordOfHalves h0 0)
    else match s.fetchHalf k g (pc + 2) false with
      | .half h1 => .word (wordOfHalves h0 h1)
      | f => .fail f (pc + 2)
  | f => .fail f pc

/-- A fetch that brings no word in its issue cycle: its trap, or the wait for its translation (R118). -/
def State.fetchFailed (s : State) (t : Nat) (th : Thread) (f : Fetched) (va : Word) : State :=
  match f with
  | .half _ => s
  | .trap c d => s.trapHere t th c d (some va)
  | .miss c => (s.post (placeOfSlot th.home) noChan (s.clk + c) t (.event (.translationInstalled t))).await t th (.fetchTlb va)

/-- The translations that a fetch has used become the most recently used. -/
def State.fetchUsed (s : State) (k : Nat) (g : BitVec 8) (pc : Word) (e : Encoded) : State :=
  let s := (s.translate k g (low56 pc) false).2
  match e with
  | .half _ => s
  | .word _ => (s.translate k g (low56 (pc + 2)) false).2

def isPrept : Instr → Bool
  | .prept => true
  | .prept16 => true
  | _ => false

/-- What a thread's issue comes to. -/
inductive Issue where
  | done (s : State)                 -- an event, a wait or a fetch that fails
  | run (i : Instr) (s : State)

/-- Steps 1 to 3 of R57, and OVERRUN, which lets nothing but a PREPT through (R293). -/
def State.fetchIssue (s : State) (t : Nat) (th : Thread) : Issue :=
  let late := s.distOf th < th.dist
  match s.fetchWord th.home th.guest th.pc with
  | .fail (.miss c) va => .done (s.fetchFailed t th (.miss c) va)
  | .fail f va => if late then .run .distanceOverrun s else .done (s.fetchFailed t th f va)
  | .word e =>
    let s := (s.fetchUsed th.home th.guest th.pc e).noteFetch t th
    match e.decode with
    | none => if late then .run .distanceOverrun s else .run .unassignedEncoding s
    | some i => if late && !isPrept i then .run .distanceOverrun s else .run i s

/-- Thread t issues on a core: the events of R294 first, and then the instruction. -/
def State.issue (s : State) (core t : Nat) : Issue :=
  let s := { s with core := core + 1, cur := t, here := some (s.dieOfTile (core / 16)), inTurn := s.turn }
  match s.thread? t with
  | none => .done s
  | some th =>
    match s.faultedCommand t with
    | some (tile, cmd) => .done (s.await t th (.engineFault tile cmd false))
    | none =>
      let s := s.clearPending t th
      let th := th.atIssue s.clk
      let s := { (s.setThread t th) with issuedNow := s.issuedNow ++ [(t, core)] }
      match (if th.active then none else th.nextEvent) with
      | some (e, th) => .done (s.takeEvent t th e)
      | none => s.fetchIssue t th

/-! ## The end of a cycle -/

/-- A thread has issued on a core in this cycle. -/
def State.busyCore (s : State) (core : Nat) : Bool := s.issuedNow.any (fun p => p.2 == core)

/-- Frame spills: each thread with a transit buffer, on a core at which no thread has issued (R25, R78). A thread that halts spills no more
(DESIGN CHOICE, log entry 54). -/
def State.postSpills (s : State) : State :=
  (s.threads.filter (fun p => p.2.transit.isSome && !p.2.halted && !s.busyCore (coreOf p.2.home))).foldl (fun (s : State) p =>
    s.post (placeOfSlot p.2.home) noChan s.clk p.1 (.event (.frameSpill p.1))) s

/-- Frame fills take a cycle in which no thread of their core issues, too (R25). -/
def State.postFills (s : State) : State :=
  s.threads.foldl (fun (s : State) p => match p.2.wait with
    | .frameFill due =>
      if s.busyCore (coreOf p.2.home) then s
      else (s.setThread p.1 { p.2 with wait := .frameFilling }).post (placeOfSlot p.2.home) noChan (max due (s.clk + 1)) p.1
        (.event (.frameFill p.1))
    | _ => s) s

/-- The deadlines that CLK has passed (R258). -/
def State.postLate (s : State) : State :=
  (s.threads.filter (fun p => match p.2.wait with
    | .barrier a true =>
      let due := s.dueOf (tileOf p.2.home) (stashOff a) p.2.guest
      due != 0 && due < s.clk
    | _ => false)).foldl (fun (s : State) p => s.post (placeOfSlot p.2.home) noChan s.clk p.1 (.event (.deadlineLate p.1))) s

/-- The engines of a tile begin what they can (R222, R233). -/
def State.postEngines (s : State) : State :=
  s.tiles.foldl (fun (s : State) p =>
    let s := if p.2.mqueue.head?.any (fun c => s.dispatches p.1 c || s.switches p.1 c) then
        s.post (placeOfEngine (p.1 * 16)) noChan s.clk s.cur (.event (.matrixDispatch p.1))
      else s
    if p.2.crun.length < Config.copyRunning && (s.startable p.1).isSome then
      s.post (placeOfEngine (p.1 * 16)) noChan s.clk s.cur (.event (.copyStart p.1))
    else s) s

/-- `State.core` past the last core: the engines have had their turn; past that: the copies have moved; and the deadlines have passed. -/
def coresDone : Nat := 65536
def copiesDone : Nat := 65537
def lateDone : Nat := 65538

/-- After the last issue of a cycle. -/
def State.endIssues (s : State) : State :=
  let s := { s with core := coresDone }
  if s.paused || s.halted then s else s.postSpills.postFills.postEngines

/-- The copies of a cycle. -/
def State.endCopies (s : State) : State :=
  let s := { s with core := copiesDone }
  if s.paused || s.halted then s
  else ((s.tiles.filter (fun p => !p.2.crun.isEmpty)).map (fun p => p.1)).foldl (fun (s : State) t => s.copyCycle t) s

/-- The deadlines of a cycle: a phase that flips in it has flipped (R236, R258). -/
def State.endLate (s : State) : State :=
  let s := { s with core := lateDone }
  if s.paused || s.halted then s else s.postLate

/-! ### Shared registers (R48, R87) -/

/-- The object of a completed phase: ARRIVED 0, PHASE flipped, PENDING the waiters that have not issued in this cycle. -/
def State.rdvValue (s : State) (u : RdvUpdate) : Word :=
  let pending := u.waiters.foldl (fun v t => match s.thread? t with
    | some th => if s.issuedNow.any (fun p => p.1 == t) then v else v ||| 2 ^ slotIn th.home
    | none => v) 0
  (setBits (setBits u.base 0 16 0) 16 16 pending) ^^^ BitVec.ofNat 64 (2 ^ 37)

/-- Two writes of one cycle are to the same register. -/
def LateWrite.sameReg (w v : LateWrite) : Bool := w.core == v.core && w.guest == v.guest && w.k == v.k

/-- What a write leaves in its register: a withdrawal, the object without the bit of any slot withdrawn from it in this cycle (R88). -/
def State.lateValue (s : State) (w : LateWrite) : Word :=
  if w.clear then (s.lateWrites.filter (fun v => v.clear && v.sameReg w)).foldl (fun x v => setBits x v.slot 1 0) w.val else w.val

/-- The writes that land at the end of a cycle, in the ascending order of the slots on whose behalf they are made. -/
def State.landing (s : State) : List LateWrite :=
  let ws := s.lateWrites.map (fun w => { w with val := s.lateValue w }) ++
    s.rdvUpdates.map (fun u => { core := u.core, guest := u.guest, k := u.k, slot := u.slot, val := s.rdvValue u, clear := false })
  (List.range 16).flatMap (fun j => ws.filter (fun w => w.slot == j))

/-- An instruction of a higher slot has written the same register in this cycle; or one of the slot itself, which comes after in its
program (R23; DEDUCED, log entry 55). -/
def State.outranked (s : State) (w : LateWrite) : Bool :=
  s.kWrites.any (fun x => x.1 == w.core && x.2.1 == w.guest && x.2.2.1 == w.k && w.slot ≤ x.2.2.2)

def State.landShared (s : State) : State :=
  s.landing.foldl (fun (s : State) w => if s.outranked w then s else s.kset w.core w.guest w.k w.val) s

/-! ### Threads -/

/-- A thread's counters at the end of a cycle: the distance counter in the rotation (R90, R293), WAITED out of it while it holds its
slot (R313); and what MFS will see (R308). -/
def Thread.endCycle (th : Thread) (counts gated : Bool) : Thread :=
  let th := { th with ltsSeen := th.lts, acked := 0 }
  if !counts || th.halted || th.stopped || th.place.isNone then th
  else if th.wait = .none && !gated then (if th.began then { th with dist := th.dist + 1 } else th)
  else { th with waited := th.waited + 1 }

def State.endThreads (s : State) : State :=
  { s with threads := s.threads.map (fun p => (p.1, p.2.endCycle (!s.paused && !s.halted) (s.coreGated (coreOf p.2.home)))) }

/-! ### Tiles -/

/-- A page fault of the tile is under service (R226, R295). -/
def State.faultOnTile (s : State) (tile : Nat) (x : Tile) : Bool :=
  x.commands.any (fun c => c.faulted.isSome) || s.tiles.any (fun p => p.2.stuckFor (fun r => r.src == tile && (r.who matches .thread _))) ||
    s.threads.any (fun p => tileOf p.2.home == tile && (match p.2.wait with
    | .fault _ => true
    | .engineFault _ _ _ => true
    | _ => false))

/-- The count of a queue's watchdog after a cycle. -/
def watchdog (q : List Cmd) (n : Nat) (still : Bool) : Nat := if q.isEmpty then 0 else if still then n else n + 1

/-- How long each core's ready count has stayed at or above the courier threshold (R38). -/
def State.highCounts (s : State) (tile : Nat) (x : Tile) : List (Nat × Nat) :=
  ((List.range 16).map (fun j => (j, if x.courierTh ≤ s.readyCount (tile * 16 + j) then KMap.getD x.high j 0 + 1 else 0))).filter
    (fun p => p.2 != 0)

/-- A tile's counters at the end of a cycle. -/
def State.endTile (s : State) (p : Nat × Tile) : Nat × Tile :=
  let x := p.2
  let still := s.faultOnTile p.1 x
  let x := { x with
    mwatch := watchdog x.mqueue x.mwatch still, cwatch := watchdog x.cqueue x.cwatch still
    sliceAt := if x.current.isSome then x.sliceAt + 1 else 0, high := s.highCounts p.1 x }
  (p.1, x.rejoinPass (s.runnableGuests p.1))

/-- The tile's guest has no thread there any more: the tile goes to another at once, or to none. -/
def State.vacate (s : State) (tile : Nat) (x : Tile) : State :=
  match x.current with
  | some g =>
    let on := s.threads.filter (fun p => tileOf p.2.home == tile)
    if on.any (fun p => p.2.guest == g) then s
    else if on.isEmpty then s.modTile tile (fun x => { x with current := none })
    else s.now (.sliceEnd tile)
  | none => s

def State.endTiles (s : State) : State :=
  if s.paused || s.halted then s
  else
    let s := { s with tiles := s.tiles.map s.endTile }
    s.tiles.foldl (fun (s : State) p => s.vacate p.1 p.2) s

/-! ### Time -/

/-- WALL after a cycle of 10/21 ns, slewed (R330); it stands at 0 until the first synchronisation (R333). -/
def State.advanceWall (s : State) : State :=
  if !s.synced then s
  else
    let n := (s.wallFrac : Int) + 10000000 + 10 * s.slew
    { s with wall := s.wall + BitVec.ofNat 64 (n.toNat / 21000000), wallFrac := n.toNat % 21000000 }

/-- What MFS and CVSTAT read in the cycle that begins (R308, R346). -/
def State.look (s : State) : State :=
  { s with seen :=
      { res := s.res, hold := s.hold, chglate := s.chglate, offset := s.offset, convoys := s.convoys
        loads := (s.coresFrom 0).map (fun c => (c, s.readyCount c)), wall := s.wall, pexp := s.pexp
        guests := s.guests, tiles := s.tiles, regions := s.regions, lease := s.lease, snapctl := s.snapctl, snapat := s.snapat
        basic := s.basic } }

/-! ### What falls due as a cycle begins -/

/-- The events of a tile's watchdogs, slice and couriers. -/
def State.postTile (s : State) (tile : Nat) (x : Tile) : State :=
  let s := if x.engwd ≤ x.mwatch then s.now (.groupWatchdog tile false) else s
  let s := if x.engwd ≤ x.cwatch then s.now (.groupWatchdog tile true) else s
  let s := if x.slice ≤ x.sliceAt then s.now (.sliceEnd tile) else s
  if (List.range 16).any (fun j => x.courierDue s.clk j && (s.courierFrom (tile * 16 + j)).isSome) then s.now (.courierSend tile) else s

/-- The periodic events of the device. -/
def State.postPeriodic (s : State) : State :=
  let s := if s.clk % 1024 = 0 then s.now .tokenRefill else s
  let s := if s.clk % 2 ^ 20 = 0 then s.tiles.foldl (fun (s : State) p => s.now (.wayDivision p.1)) s else s
  let s := if s.clk % 2 ^ 24 = 0 then s.now .scrubPass else s
  if s.clk % 2 ^ 27 = 0 then s.now .leakTick else s

/-- The trigger's cycle has come (R372). -/
def State.postSnapshot (s : State) : State :=
  let atMatch := s.snapctl.getLsbD 63 && bits s.snapctl.toNat 8 4 == 2 && s.snapat.toNat == s.clk
  if atMatch || s.snapDue == some s.clk then s.now .snapshotFire else s

/-- The WALL time of the pod's next changeover (R338). -/
def State.podInstant (s : State) : Nat := s.epoch.toNat + s.instantK * s.podPeriod

/-- WALL as the device predicts it a number of cycles from now (R330, R338), in units of 1 / (21 × 10^6) ns. -/
def State.wallIn (s : State) (cycles : Nat) : Int :=
  (s.wall.toNat * 21000000 + s.wallFrac : Nat) + cycles * (10000000 + 10 * s.slew)

/-- Pre-drain and the instant (R269, R270, R338); during pre-drain, what is dirtied is written back. -/
def State.postRound (s : State) : State :=
  let near := if s.res then decide ((s.podInstant * 21000000 : Nat) ≤ s.wallIn Config.predrainCycles) else s.nextInst ≤ s.clk + Config.predrainCycles
  let s := if near && !s.preOn then s.now .predrain else if s.preOn then s.cleanStashes else s
  if s.res then (if s.podInstant ≤ s.wall.toNat then s.now .podChangeoverInstant else s)
  else if s.nextInst ≤ s.clk then s.now .changeoverInstant else s

/-- Stops in force go on to hold threads and may be complete (R324, R325). -/
def State.postStops (s : State) : State :=
  (s.convoys.filter (fun v => v.inForce s.wall && !v.stopped)).foldl
    (fun (s : State) v => (s.stopWaiting v.guest v.id).checkStop v.guest v.id) s

/-- Peer requests past their limit (R341), and the holding notices for those that peers make here (R340). -/
def State.postPeers (s : State) : State :=
  let s := (s.peerOut.filter (fun o => o.awaits && o.sentAt + Config.peerLimit == s.clk)).foldl
    (fun (s : State) o => s.now (.peerTimeout o.rid o.op)) s
  (s.heldPeer.filter (fun h => h.since < s.clk && (s.clk - h.since) % Config.holdingInterval == 0)).foldl (fun (s : State) h =>
    { s with peerAnswers := s.peerAnswers ++
        [{ dev := h.req.dev, rid := h.req.rid, val := 0, done := false, wts := 0, err := none
           stamp := h.req.stamp, kind := .holding }] }) s

/-- A thread that has come to an open-ended wait with a cancel or a pending event behind it is woken like one that waited already (R34,
R294). -/
def State.wakePending (s : State) : State :=
  (s.threads.filter (fun p => p.2.cancel.isSome || !p.2.engEvents.isEmpty || !p.2.postEvents.isEmpty)).foldl (fun (s : State) p =>
    match s.thread? p.1 with
    | some th => match th.cancel with
      | some d => s.cancelThread d p.1 th
      | none => s.wakeForEvent p.1
    | none => s) s

/-- Cycles of one second (R332). -/
def secondCycles : Nat := 2100000000

/-- What falls due as the cycle begins. -/
def State.begin_ (s : State) : State :=
  let s := s.postSnapshot.postPeriodic
  let s := if s.paused || s.halted then s else s.tiles.foldl (fun (s : State) p => s.postTile p.1 p.2) s.postRound.wakePending
  let s := if s.synced && !s.hold && s.lastSync + secondCycles == s.clk then s.now (.holdoverEntry s.dev true) else s
  s.wallDue.postStops.postPeers.payDone

/-! ### The LLC's capacity (R2) -/

/-- The lines that a memory-side die's LLC keeps. -/
def State.llcOf (s : State) (die : Nat) : List Nat :=
  (s.lines.filter (fun p => p.2.inLlc && homeDie (p.1 * 128) == die)).map (·.1)

/-- A line leaves the LLC of a die, a dirty one for HBM; which one is not given (DESIGN CHOICE, log entry 85). -/
def State.evict (s : State) (die : Nat) : State :=
  match s.pick (s.llcOf die) with
  | some l => ({ s with fresh := s.fresh + 1 } : State).modLine l (fun x => { x with inLlc := false, dirty := false, llc := none })
  | none => s

/-- At the end of a cycle no LLC keeps more lines than it holds. -/
def State.trimLlc (s : State) : State :=
  (List.range 8).foldl (fun (s : State) m =>
    (List.range ((s.llcOf (4 + m)).length - Config.llcLines)).foldl (fun (s : State) _ => s.evict (4 + m)) s) s

/-- The cycle ends, and the next begins. -/
def State.endCycle (s : State) : State :=
  let s := s.landShared.landExpert.trimLlc.endThreads.endTiles
  let s := { s with
    clk := s.clk + 1, core := 0, kWrites := [], lateWrites := [], rdvUpdates := [], issuedNow := []
    fetches := s.fetches.filter (fun f => s.clk ≤ f.at_ + 14), gated := s.gated.filter (fun p => s.clk + 1 < p.2) }
  s.advanceWall.look.begin_

/-- Time passes: the engines' turn, the copies' turn, the deadlines, the next cycle. -/
def State.passTime (s : State) : State :=
  let s := { s with here := none, inTurn := s.turn }
  if s.core < coresDone then s.endIssues
  else if s.core = coresDone then s.endCopies
  else if s.core = copiesDone then s.endLate else s.endCycle

end Sys2Proof.Machine
end

