-- ==== Sys2Proof/Machine/Step.lean ====
section
/-!
DEFINITION. One step (log entry 1): the next step of the agenda that is due, or else the next instruction that issues in this cycle,
or else the passing of time. `State.withFetchWord` puts an instruction where the next step fetches.
-/

namespace Sys2Proof.Machine

open Sys2Proof

/-- An event of the device, with its operands. -/
def State.runEvent (s : State) (e : Event) : Result := exec e.instr { s with event := some e }

/-- A step of the agenda. Only an instruction word completes as one, and only for a thread that still waits for it. -/
def State.runEntry (s : State) (p : Pending) : Result :=
  match s.meeting p with
  | .drop => .next (s.takeEntry p)
  | .forward => s.runEvent (.forwardingNote p.seq)
  | .hold => s.runEvent (.heldMessage p.seq)
  | .go =>
    match p.work with
    | .event e => (s.takeEntry p).runEvent e
    | .word i => if i.isWord && (s.takeEntry p).stillWaits p.cur then exec i (s.takeEntry p) else .next (s.takeEntry p)

/-- What an issue comes to, carried out. -/
def Issue.carryOut : Issue → Result
  | .done s => .next s
  | .run i s => exec i s

def step (s : State) : Host.Outcome State Fault Refusal :=
  match s.nextEntry with
  | some p => s.runEntry p
  | none =>
    match s.nextIssue with
    | some (core, t) => (s.issue core t).carryOut
    | none => .next s.passTime

/-! ## Placing an instruction (log entry 4) -/

/-- The instruction's bytes at a physical address, which nothing but memory holds. -/
def State.placeBytes (s : State) (pa : Nat) (bs : List Byte) : State :=
  { s with mem := Memory.writeN s.mem pa bs, lines := KMap.erase s.lines (lineOf pa) }

/-- The next issue of a thread with nothing else before its fetch, whose fetch reads the word that `bs` begins with. -/
def State.fetches? (s : State) (bs : List Byte) : Bool :=
  match s.nextEntry, s.nextIssue with
  | none, some (_, t) =>
    match s.thread? t with
    | some th =>
      (s.faultedCommand t).isNone && (th.active || th.nextEvent.isNone) && s.distOf th ≥ th.dist &&
        decide ((takeWord bs).map (fun r => FetchedWord.word r.1) = some (s.fetchWord th.home th.guest th.pc))
    | none => false
  | _, _ => false

/-- The bytes at the program counter of the thread that issues next. -/
def State.atNextFetch (s : State) (bs : List Byte) : State :=
  match s.nextIssue with
  | some (_, t) =>
    match s.thread? t with
    | some th =>
      match s.translate th.home th.guest (low56 th.pc) true with
      | (.hit e, s) => s.placeBytes (e.phys (low56 th.pc)) bs
      | _ => match s.walk th.guest (low56 th.pc) with
        | .page e => (s.warmTlb th.home e).placeBytes (e.phys (low56 th.pc)) bs
        | _ => s
    | none => s
  | none => s

/-- A record of a launch of one unit with its code at address 0. -/
def loadRecord : Record :=
  { code := 0, param := 0, const := 0, done := 0, units := 1, quota := 16, guest := 0, timed := false, after := false, policy := false
    kind := 0, dist := 65536, graph := 0, constlen := 0, convoy := 0, skew := 0, leader := 0, ndev := 0, when := 0 }

/-- The translation of the page at address 0. -/
def loadPage (gen : BitVec 8) : TlbEntry :=
  { slot := 0, guest := 0, gen := gen, va := 0, bits := 16, pa := 0, r := true, w := true, x := true }

/-- Guest 0 with one lodge, one page at address 0 that its programs may read, write and execute, and a launch whose one unit has been
placed in the slot of core 0 that owns this cycle. -/
def State.loadProgram (s : State) (bs : List Byte) : State :=
  let slot := s.clk % 16
  let s := { s with
    agenda := s.agenda.filter (fun p => s.clk < p.due || p.held), threads := s.threads.filter (fun p => !(s.onCore 0).any (fun q => q.1 == p.1))
    paused := false, halted := false, gated := [], core := 0, regions := []
    guests := KMap.set s.guests 0 { s.guest 0 with len := max 1 (s.guest 0).len }
    frames := KMap.set s.frames 0 { Frame.init with gen := (s.guest 0).gen, v := true, r := true, w := true, x := true }
    anchors := KMap.set s.anchors 0 0
    launches := KMap.set s.launches s.nextLaunch
      { rcd := loadRecord, queue := none, index := 0, placed := 1, cmds := 0, cancelled := false, faulted := false
        status := .running, firmware := false, started := s.seq, startedAt := s.clk, cause := none }
    seq := s.seq + 1, nextLaunch := s.nextLaunch + 1, nextTid := s.nextTid + 1
    tiles := KMap.set s.tiles 0 { s.tile 0 with current := some 0, lastRan := some 0 }
    owners := KMap.set s.owners slot (0, (s.guest 0).gen) }
  (({ s with
    threads := KMap.set s.threads (s.nextTid - 1)
      (Thread.start slot 0 (s.guest 0).gen (s.nextLaunch - 1) 0 none (Vector.replicate 32 0) 0 0 0 false 0) } : State).warmTlb slot
    (loadPage (s.guest 0).gen)).placeBytes 0 bs

/-- The machine with an instruction stored where step fetches its next one: at the program counter of the thread that issues next,
or, where none is about to issue from memory, at the start of a program that is loaded and placed. -/
def State.withFetchWord (s : State) (nbits w : Nat) : State :=
  let bs := bytesOfNat 4 (w % 2 ^ nbits)
  if (s.atNextFetch bs).fetches? bs then s.atNextFetch bs else s.loadProgram bs

end Sys2Proof.Machine
end

