-- ==== Sys2Proof/Safety.lean ====
section
/-!
DEFINITION. What counts as a safe run: one that never stops. A step stops only where it is asked to carry out an instruction with no
thread to carry it out for, or an event with no operands, which no step does from a state that meets `State.Orderly`.
-/

namespace Sys2Proof.Machine

open Sys2Proof

/-- The step from a state answers a next state. -/
def State.Goes (s : State) : Prop := ∃ u, step s = .next u

/-- Every one of the next n steps answers a next state. -/
def State.SafeFor : Nat → State → Prop
  | 0, _ => True
  | n + 1, s => ∃ u, step s = .next u ∧ State.SafeFor n u

/-- The threads are listed under distinct numbers, in rising order. -/
def State.Orderly (s : State) : Prop := KMap.sorted s.threads = true

/-- Memory is in its canonical form, addresses strictly rising and no entry that reads as an unlisted address does; and the threads
are listed under distinct numbers. -/
def State.Canonical (s : State) : Prop := Memory.wf s.mem = true ∧ s.Orderly

/-- The record's code starts at a halfword (R352). -/
def Record.Halfword (r : Record) : Prop := r.code.getLsbD 0 = false

/-- The addresses at which a thread may come to fetch are those of halfwords: its program counter (R42), EPC and TVEC (R290, R312),
and the starts of its loop levels. -/
def Thread.Halfwords (th : Thread) : Prop :=
  th.pc.getLsbD 0 = false ∧ th.epc.getLsbD 0 = false ∧ th.tvec.getLsbD 0 = false ∧ th.ilen % 2 = 0 ∧
    (∀ l ∈ th.loops, l.start.getLsbD 0 = false)

/-- The threads and launches of a guest's image do (R343). -/
def GuestImage.Halfwords (m : GuestImage) : Prop := (∀ p ∈ m.threads, p.2.Halfwords) ∧ (∀ p ∈ m.launches, p.2.rcd.Halfword)

/-- What an event brings in does: the record that the front desk is about to arm, and an image. -/
def Event.Halfwords : Event → Prop
  | .acknowledgementWait _ (some (r, true)) => Record.Halfword r
  | .guestRestore _ (some m) => GuestImage.Halfwords m
  | _ => True

/-- Every program counter of the machine stands at a halfword, and so does the code of every launch accepted or armed, and all that is on
its way in. -/
def State.Halfwords (s : State) : Prop :=
  (∀ p ∈ s.threads, p.2.Halfwords) ∧ (∀ p ∈ s.launches, p.2.rcd.Halfword) ∧ (∀ a ∈ s.armed, a.rcd.Halfword) ∧
    (∀ p ∈ s.agenda, ∀ e, p.work = .event e → Event.Halfwords e)

end Sys2Proof.Machine
end

