-- ==== Sys2Proof/Certificates/Slice0/Obligations.lean ====
section
/-!
DEFINITION. The statements for the provers, and the predicates that they share.
-/

namespace Sys2Proof.Claims

open Sys2Proof Sys2Proof.Machine

/-! ## What an instruction finds and leaves -/

/-- Thread t, as th, issues the word in hand: it is running, stands in its slot, and completes no wait of an earlier issue. -/
def Issuing (s : State) (t : Nat) (th : Thread) : Prop :=
  s.cur = t ∧ s.thread? t = some th ∧ th.halted = false ∧ th.place.isSome = true ∧ th.replay = false

/-- Thread t, as th, rejoins to carry out the word in hand, which it issued before it waited (R26). -/
def Rejoining (s : State) (t : Nat) (th : Thread) : Prop :=
  s.cur = t ∧ s.thread? t = some th ∧ th.halted = false ∧ th.replay = true

/-- Nothing of the machine has changed but threads, shared registers, and the note of who wrote them in this cycle. -/
def SameDevice (s u : State) : Prop := { u with threads := s.threads, banks := s.banks, kWrites := s.kWrites } = s

/-- Every thread but t is unchanged. -/
def SameOthers (s u : State) (t : Nat) : Prop := ∀ t', t' ≠ t → u.thread? t' = s.thread? t'

/-- Every shared register of every core and guest is unchanged. -/
def SameShared (s u : State) : Prop := ∀ c g k, u.kread c g k = s.kread c g k

/-- Every shared register is unchanged but the one that the destination names. -/
def SameSharedBut (s u : State) (th : Thread) (d : Reg) : Prop :=
  ∀ c g k, (d = .k k ∧ c = coreOf th.home ∧ g = th.guest) ∨ u.kread c g k = s.kread c g k

/-- Of the thread, nothing has changed but its private registers x1 to x31, its program counter and loop levels, ISSUED, and what the
model notes about the instruction in hand (its wait, its length, and whether it has named a shared register or local store). -/
def SameRest (th th' : Thread) : Prop :=
  { th' with x := th.x, pc := th.pc, loops := th.loops, issued := th.issued, wait := th.wait, waitWid := th.waitWid
             replay := th.replay, queued := th.queued, forceHome := th.forceHome, gather := th.gather, ilen := th.ilen
             usedShared := th.usedShared, usedLocal := th.usedLocal } = th

/-- The thread has gone on to the word after one of `len` bytes, by way of the loop end check, which a handler suspends (R74, R76). -/
def GoesOn (th th' : Thread) (len : Nat) : Prop :=
  let after := th.pc + BitVec.ofNat 64 len
  (th'.pc, th'.loops) = (if th.active then (after, th.loops) else loopEnd th.pc after th.loops) ∧
    th'.issued = th.issued + 1 ∧ th'.wait = .none

/-- The thread has gone on to `target`. -/
def GoesTo (th th' : Thread) (target : Word) : Prop :=
  th'.pc = target ∧ th'.issued = th.issued + 1 ∧ th'.wait = .none

/-- Every register that the thread can name, but d, reads as before. -/
def SameRegsBut (s u : State) (th th' : Thread) (d : Reg) : Prop := ∀ r, r ≠ d → u.readReg th' r = s.readReg th r

/-- The instruction answers a next state in which register d holds v (x0 reads 0 as ever), the thread has gone on to the next word,
and nothing else of the machine has changed. -/
def Computes (s : State) (t : Nat) (th : Thread) (i : Instr) (d : Reg) (v : Word) : Prop :=
  ∃ u th', exec i s = .next u ∧ u.thread? t = some th' ∧
    u.readReg th' d = (if d = .x 0 then 0 else v) ∧ SameRegsBut s u th th' d ∧ GoesOn th th' i.len ∧ SameRest th th' ∧
    SameSharedBut s u th d ∧ SameOthers s u t ∧ SameDevice s u

/-- Of the thread, a trap has changed EPC, TRAPC, TADDR, the program counter, the distance counter and what the model notes about the
instruction in hand; registers, guard slots, lts, bindings, monitors, tags and PIN are unchanged (R287). -/
def SameButTrap (th th' : Thread) : Prop :=
  { th' with epc := th.epc, trapc := th.trapc, taddr := th.taddr, pc := th.pc, dist := th.dist, lastIssue := th.lastIssue
             wait := th.wait, waitWid := th.waitWid, replay := th.replay, queued := th.queued, forceHome := th.forceHome
             gather := th.gather, ilen := th.ilen, usedShared := th.usedShared, usedLocal := th.usedLocal } = th

/-- A trap has left the machine as it was but for the thread, and the cycle of a snapshot that a trap triggers (R372). -/
def SameButSnap (s u : State) : Prop := { u with threads := s.threads, snapDue := s.snapDue } = s

/-- Thread th' is th in its handler: the trap's cause and detail, the data address if it has one, and the address EPC holds (R287). -/
def InHandler (th th' : Thread) (cause detail : Nat) (addr : Option Word) (epc : Word) : Prop :=
  th'.epc = epc ∧ th'.trapc = BitVec.ofNat 64 (2 ^ 63 + detail * 2 ^ 16 + cause) ∧ th'.taddr = addr.getD th.taddr ∧
    th'.pc = th.tvec ∧ th'.dist = 0 ∧ SameButTrap th th'

/-- The instruction takes a trap of a cause and detail at its own address, and changes nothing else of the machine. -/
def Traps (s : State) (t : Nat) (th : Thread) (i : Instr) (cause detail : Nat) (addr : Option Word) : Prop :=
  ∃ u th', exec i s = .next u ∧ u.thread? t = some th' ∧ InHandler th th' cause detail addr th.pc ∧
    SameOthers s u t ∧ SameButSnap s u

/-- The thread has a handler (TVEC is not 0) and is not in it (ACTIVE is clear). -/
def HasHandler (th : Thread) : Prop := th.tvec ≠ 0 ∧ th.active = false

/-- The word's low 32 bits, sign-extended. -/
def signed32 (v : Word) : Word := (v.setWidth 32).signExtend 64

/-- An integer brought into the range of a signed 64-bit number. -/
def clamp (i : Int) : Int := if i < -(2 ^ 63) then -(2 ^ 63) else if 2 ^ 63 - 1 < i then 2 ^ 63 - 1 else i

/-- 1 where a relation holds, 0 where it does not. -/
def truth (p : Prop) [Decidable p] : Word := if p then 1 else 0

end Sys2Proof.Claims

open Sys2Proof Sys2Proof.Machine Sys2Proof.Claims

/-! ## Integer instructions -/

/-- R60: the results of major 0x00. -/
def Sys2Proof.Claims.AddSubLogicResults : Prop :=
  ∀ s t th (d a b : Reg), Issuing s t th →
    let x := s.readReg th a
    let y := s.readReg th b
    Computes s t th (.add d a b) d (x + y) ∧ Computes s t th (.sub d a b) d (x - y) ∧
    Computes s t th (.and d a b) d (x &&& y) ∧ Computes s t th (.or d a b) d (x ||| y) ∧
    Computes s t th (.xor d a b) d (x ^^^ y) ∧ Computes s t th (.andn d a b) d (x &&& ~~~y) ∧
    Computes s t th (.orn d a b) d (x ||| ~~~y) ∧ Computes s t th (.xnor d a b) d (~~~(x ^^^ y)) ∧
    Computes s t th (.addW d a b) d (signed32 (x + y)) ∧ Computes s t th (.subW d a b) d (signed32 (x - y)) ∧
    Computes s t th (.adds d a b) d (BitVec.ofInt 64 (clamp (x.toInt + y.toInt))) ∧
    Computes s t th (.subs d a b) d (BitVec.ofInt 64 (clamp (x.toInt - y.toInt))) ∧
    Computes s t th (.min d a b) d (BitVec.ofInt 64 (min x.toInt y.toInt)) ∧
    Computes s t th (.max d a b) d (BitVec.ofInt 64 (max x.toInt y.toInt)) ∧
    Computes s t th (.minu d a b) d (BitVec.ofNat 64 (min x.toNat y.toNat)) ∧
    Computes s t th (.maxu d a b) d (BitVec.ofNat 64 (max x.toNat y.toNat))

/-- R61: the results of major 0x01; the immediate is sign-extended first. -/
def Sys2Proof.Claims.ImmediateResults : Prop :=
  ∀ s t th (d a : Reg) (i : BitVec 10), Issuing s t th →
    let x := s.readReg th a
    let m : Word := BitVec.ofInt 64 i.toInt
    Computes s t th (.addi d a i) d (x + m) ∧ Computes s t th (.andi d a i) d (x &&& m) ∧
    Computes s t th (.ori d a i) d (x ||| m) ∧ Computes s t th (.xori d a i) d (x ^^^ m) ∧
    Computes s t th (.addiW d a i) d (signed32 (x + m)) ∧
    Computes s t th (.slti d a i) d (truth (x.toInt < i.toInt)) ∧
    Computes s t th (.sltiu d a i) d (truth (x.toNat < m.toNat))

/-- R62: shifts and rotates; the register forms take their count from b[5:0], the .w forms from b[4:0]. -/
def Sys2Proof.Claims.ShiftResults : Prop :=
  ∀ s t th (d a b : Reg) (n : BitVec 6), Issuing s t th →
    let x := s.readReg th a
    let c := (s.readReg th b).toNat % 64
    let cw := (s.readReg th b).toNat % 32
    let lo : BitVec 32 := x.setWidth 32
    Computes s t th (.sll d a b) d (BitVec.ofNat 64 (x.toNat * 2 ^ c)) ∧
    Computes s t th (.srl d a b) d (BitVec.ofNat 64 (x.toNat / 2 ^ c)) ∧
    Computes s t th (.sra d a b) d (BitVec.ofInt 64 (x.toInt / 2 ^ c)) ∧
    Computes s t th (.rol d a b) d (x <<< c ||| x >>> (64 - c)) ∧
    Computes s t th (.ror d a b) d (x >>> c ||| x <<< (64 - c)) ∧
    Computes s t th (.sllW d a b) d ((lo <<< cw).signExtend 64) ∧
    Computes s t th (.srlW d a b) d ((lo >>> cw).signExtend 64) ∧
    Computes s t th (.sraW d a b) d (BitVec.ofInt 64 (lo.toInt / 2 ^ cw)) ∧
    Computes s t th (.slli d a n) d (BitVec.ofNat 64 (x.toNat * 2 ^ n.toNat)) ∧
    Computes s t th (.srli d a n) d (BitVec.ofNat 64 (x.toNat / 2 ^ n.toNat)) ∧
    Computes s t th (.srai d a n) d (BitVec.ofInt 64 (x.toInt / 2 ^ n.toNat)) ∧
    Computes s t th (.rori d a n) d (x >>> n.toNat ||| x <<< (64 - n.toNat))

/-- R63: bit fields, at position P = b[5:0] of length L = b[11:6]; BINS reads d. Each result is given bit by bit. -/
def Sys2Proof.Claims.BitFieldResults : Prop :=
  ∀ s t th (d a b : Reg), Issuing s t th →
    let x := s.readReg th a
    let y := s.readReg th b
    let old := s.readReg th d
    let p := y.toNat % 64
    let l := y.toNat / 64 % 64
    ∃ e es i : Word,
      Computes s t th (.bext d a b) d e ∧ Computes s t th (.bexts d a b) d es ∧ Computes s t th (.bins d a b) d i ∧
      (∀ j, j < 64 → e.getLsbD j = (decide (j < l) && x.getLsbD (p + j))) ∧
      (∀ j, j < 64 → es.getLsbD j = (if l = 0 then false else x.getLsbD (p + min j (l - 1)))) ∧
      (∀ j, j < 64 → i.getLsbD j = (if p ≤ j ∧ j < p + l then x.getLsbD (j - p) else old.getLsbD j))

/-- R64: leading and trailing zero bits, one bits, and the bytes in reverse order. -/
def Sys2Proof.Claims.BitCountResults : Prop :=
  ∀ s t th (d a : Reg), Issuing s t th →
    let x := s.readReg th a
    ∃ cl ct pc rv : Word,
      Computes s t th (.clz d a) d cl ∧ Computes s t th (.ctz d a) d ct ∧ Computes s t th (.popc d a) d pc ∧
      Computes s t th (.rev8 d a) d rv ∧
      cl.toNat ≤ 64 ∧ (∀ j, j < 64 → 64 - cl.toNat ≤ j → x.getLsbD j = false) ∧ (cl.toNat < 64 → x.getLsbD (63 - cl.toNat) = true) ∧
      ct.toNat ≤ 64 ∧ (∀ j, j < ct.toNat → x.getLsbD j = false) ∧ (ct.toNat < 64 → x.getLsbD ct.toNat = true) ∧
      pc.toNat = ((List.range 64).filter (fun j => x.getLsbD j)).length ∧
      (∀ j k, j < 8 → k < 8 → rv.getLsbD (8 * j + k) = x.getLsbD (8 * (7 - j) + k))

/-- R62, R63, R64: shifts, bit fields and bit counts. -/
def Obligations.BitResults : Prop := Claims.ShiftResults ∧ Claims.BitFieldResults ∧ Claims.BitCountResults

/-- R65: comparisons, and SEL on a resolved guard. -/
def Sys2Proof.Claims.CompareSelectResults : Prop :=
  ∀ s t th (d a b : Reg) (q : BitVec 3), Issuing s t th →
    let x := s.readReg th a
    let y := s.readReg th b
    Computes s t th (.slt d a b) d (truth (x.toInt < y.toInt)) ∧ Computes s t th (.sltu d a b) d (truth (x.toNat < y.toNat)) ∧
    Computes s t th (.seq d a b) d (truth (x = y)) ∧ Computes s t th (.sne d a b) d (truth (x ≠ y)) ∧
    Computes s t th (.sle d a b) d (truth (x.toInt ≤ y.toInt)) ∧ Computes s t th (.sleu d a b) d (truth (x.toNat ≤ y.toNat)) ∧
    (th.q[q.toNat] = .tt → Computes s t th (.sel d a b q) d x) ∧ (th.q[q.toNat] = .ff → Computes s t th (.sel d a b q) d y)

/-- R66: SEL, BQ and BNQ take an illegal-state trap on an unresolved guard. -/
def Sys2Proof.Claims.UnresolvedGuards : Prop :=
  ∀ s t th (d a b : Reg) (q : BitVec 3) (o : BitVec 10), Issuing s t th → HasHandler th → th.q[q.toNat] = .unresolved →
    Traps s t th (.sel d a b q) 2 0 none ∧ Traps s t th (.bq q o) 2 0 none ∧ Traps s t th (.bnq q o) 2 0 none

/-- R67, R68: products, and quotients and remainders on a divisor that is not zero. Overflow gives the results of R68 by wrapping. -/
def Sys2Proof.Claims.Products : Prop :=
  ∀ s t th (d a b : Reg), Issuing s t th →
    let x := s.readReg th a
    let y := s.readReg th b
    let xw := (signed32 x).toInt
    let yw := (signed32 y).toInt
    Computes s t th (.mul d a b) d (BitVec.ofNat 64 (x.toNat * y.toNat)) ∧
    Computes s t th (.mulh d a b) d (BitVec.ofInt 64 (x.toInt * y.toInt / 2 ^ 64)) ∧
    Computes s t th (.mulhu d a b) d (BitVec.ofNat 64 (x.toNat * y.toNat / 2 ^ 64)) ∧
    Computes s t th (.mulhsu d a b) d (BitVec.ofInt 64 (x.toInt * y.toNat / 2 ^ 64)) ∧
    Computes s t th (.mulW d a b) d (signed32 (BitVec.ofInt 64 (xw * yw))) ∧
    (y ≠ 0 → Computes s t th (.div d a b) d (BitVec.ofInt 64 (x.toInt.tdiv y.toInt)) ∧
      Computes s t th (.divu d a b) d (BitVec.ofNat 64 (x.toNat / y.toNat)) ∧
      Computes s t th (.rem d a b) d (BitVec.ofInt 64 (x.toInt.tmod y.toInt)) ∧
      Computes s t th (.remu d a b) d (BitVec.ofNat 64 (x.toNat % y.toNat))) ∧
    (yw ≠ 0 → Computes s t th (.divW d a b) d (signed32 (BitVec.ofInt 64 (xw.tdiv yw))) ∧
      Computes s t th (.remW d a b) d (signed32 (BitVec.ofInt 64 (xw.tmod yw))))

/-- R68, R69: a zero divisor gives all ones or the dividend while TRAPZ is clear, and traps, leaving d alone, while it is set. For the
.w forms, zero means b[31:0] = 0. -/
def Sys2Proof.Claims.ZeroDivisor : Prop :=
  ∀ s t th (d a b : Reg), Issuing s t th →
    let x := s.readReg th a
    let y := s.readReg th b
    let ones : Word := BitVec.ofInt 64 (-1)
    (th.trapz = false →
      (y = 0 → Computes s t th (.div d a b) d ones ∧ Computes s t th (.divu d a b) d ones ∧
        Computes s t th (.rem d a b) d x ∧ Computes s t th (.remu d a b) d x) ∧
      (y.toNat % 2 ^ 32 = 0 → Computes s t th (.divW d a b) d ones ∧ Computes s t th (.remW d a b) d (signed32 x))) ∧
    (th.trapz = true → HasHandler th →
      (y = 0 → Traps s t th (.div d a b) 8 0 none ∧ Traps s t th (.divu d a b) 8 0 none ∧
        Traps s t th (.rem d a b) 8 0 none ∧ Traps s t th (.remu d a b) 8 0 none) ∧
      (y.toNat % 2 ^ 32 = 0 → Traps s t th (.divW d a b) 8 0 none ∧ Traps s t th (.remW d a b) 8 0 none))

/-- R67, R68, R69: products, quotients and remainders. -/
def Obligations.MultiplyDivideResults : Prop := Claims.Products ∧ Claims.ZeroDivisor

/-- R54, R92: LUI, ADR and RSELF. -/
def Sys2Proof.Claims.UpperAndSelf : Prop :=
  ∀ s t th (d : Reg) (i : BitVec 19), Issuing s t th →
    Computes s t th (.lui d i) d (BitVec.ofInt 64 (i.toInt * 1024)) ∧
    Computes s t th (.adr d i) d (th.pc + BitVec.ofInt 64 (i.toInt * 2)) ∧
    (let self := s.selfOf th
     Computes s t th (.rself .all d) d (BitVec.ofNat 64 self) ∧
     Computes s t th (.rself .slot d) d (BitVec.ofNat 64 (self % 16)) ∧
     Computes s t th (.rself .core d) d (BitVec.ofNat 64 (self / 16 % 16)) ∧
     Computes s t th (.rself .tile d) d (BitVec.ofNat 64 (self / 256 % 64)) ∧
     Computes s t th (.rself .lodge d) d (BitVec.ofNat 64 (self / 16384 % 64)))

/-- R95: each 16-bit arithmetic form computes what its 32-bit counterpart does, and goes on two bytes further. -/
def Sys2Proof.Claims.ShortArithmetic : Prop :=
  ∀ s t th (d r : BitVec 4) (i : BitVec 7) (n : BitVec 5), Issuing s t th →
    let rd := Reg.x (d.setWidth 5)
    let x := s.readReg th rd
    let y := s.readReg th (Reg.x (r.setWidth 5))
    let c := if n.toNat = 0 then 32 else n.toNat
    Computes s t th (.mov16 d r) rd y ∧ Computes s t th (.add16 d r) rd (x + y) ∧ Computes s t th (.sub16 d r) rd (x - y) ∧
    Computes s t th (.and16 d r) rd (x &&& y) ∧ Computes s t th (.or16 d r) rd (x ||| y) ∧ Computes s t th (.xor16 d r) rd (x ^^^ y) ∧
    Computes s t th (.addi16 d i) rd (x + BitVec.ofInt 64 i.toInt) ∧
    Computes s t th (.slli16 d n) rd (BitVec.ofNat 64 (x.toNat * 2 ^ c)) ∧
    Computes s t th (.srli16 d n) rd (BitVec.ofNat 64 (x.toNat / 2 ^ c)) ∧
    Computes s t th (.srai16 d n) rd (BitVec.ofInt 64 (x.toInt / 2 ^ c)) ∧
    Computes s t th (.slt16 d r) rd (truth (x.toInt < y.toInt)) ∧ Computes s t th (.sltu16 d r) rd (truth (x.toNat < y.toNat)) ∧
    Computes s t th .nop16 (.x 0) 0

/-- R60, R61, R65, R95: arithmetic, logic, immediates, comparisons and selection, and their 16-bit forms. -/
def Obligations.ArithmeticResults : Prop :=
  Claims.AddSubLogicResults ∧ Claims.ImmediateResults ∧ Claims.CompareSelectResults ∧ Claims.ShortArithmetic

/-! ## Branches, jumps and loops -/

namespace Sys2Proof.Claims

/-- The instruction transfers control to `target`: the thread's registers become x and its loop levels ls, and nothing else of the
machine has changed. -/
def Jumps (s : State) (t : Nat) (th : Thread) (i : Instr) (target : Word) (x : Vector Word 32) (ls : List LoopLevel) : Prop :=
  ∃ u th', exec i s = .next u ∧ u.thread? t = some th' ∧ GoesTo th th' target ∧ th'.x = x ∧ th'.loops = ls ∧
    SameRest th th' ∧ SameShared s u ∧ SameOthers s u t ∧ SameDevice s u

/-- The instruction does nothing but go on to the next word. -/
def FallsThrough (s : State) (t : Nat) (th : Thread) (i : Instr) : Prop := Computes s t th i (.x 0) 0

/-- Where a halfword offset leads from the instruction. -/
def reach {n : Nat} (th : Thread) (o : BitVec n) : Word := th.pc + BitVec.ofInt 64 (o.toInt * 2)

/-- The levels that a taken branch to `target` leaves armed: it disarms the inner level whose range does not hold the target, and
the same test applies to the level that remains (R75). -/
def levelsAround (target : Word) : List LoopLevel → List LoopLevel
  | [] => []
  | l :: ls => if l.start ≤ target ∧ target ≤ l.stop then l :: ls else levelsAround target ls

/-- A branch of condition p: taken, or falling through. Outside a handler a taken one disarms levels (log entry 26). -/
def Branches {n : Nat} (s : State) (t : Nat) (th : Thread) (i : Instr) (p : Prop) (o : BitVec n) : Prop :=
  (p → Jumps s t th i (reach th o) th.x (if th.active then th.loops else levelsAround (reach th o) th.loops)) ∧
    (¬ p → FallsThrough s t th i)

/-- The return address in x1. -/
def linked (th : Thread) (len : Nat) : Vector Word 32 := th.x.set 1 (th.pc + BitVec.ofNat 64 len)

end Sys2Proof.Claims

/-- R71, R75, R95: compare-and-branch, J, and their 16-bit forms. -/
def Sys2Proof.Claims.CompareBranches : Prop :=
  ∀ s t th (a b : Reg) (d : BitVec 4) (o : BitVec 10) (o7 : BitVec 7) (o24 : BitVec 24) (o11 : BitVec 11), Issuing s t th →
    let x := s.readReg th a
    let y := s.readReg th b
    let z := s.readReg th (.x (d.setWidth 5))
    Branches s t th (.beq a b o) (x = y) o ∧ Branches s t th (.bne a b o) (x ≠ y) o ∧
    Branches s t th (.blt a b o) (x.toInt < y.toInt) o ∧ Branches s t th (.bge a b o) (y.toInt ≤ x.toInt) o ∧
    Branches s t th (.bltu a b o) (x.toNat < y.toNat) o ∧ Branches s t th (.bgeu a b o) (y.toNat ≤ x.toNat) o ∧
    Branches s t th (.beqz16 d o7) (z = 0) o7 ∧ Branches s t th (.bnez16 d o7) (z ≠ 0) o7 ∧
    Branches s t th (.j o24) True o24 ∧ Branches s t th (.j16 o11) True o11

/-- R71, R66: BQ and BNQ on a resolved guard. -/
def Sys2Proof.Claims.GuardBranches : Prop :=
  ∀ s t th (q : BitVec 3) (o : BitVec 10), Issuing s t th → th.q[q.toNat] ≠ .unresolved →
    Branches s t th (.bq q o) (th.q[q.toNat] = .tt) o ∧ Branches s t th (.bnq q o) (th.q[q.toNat] = .ff) o

/-- R66, R71, R75, R76, R95: branches, and what an unresolved guard does to BQ, BNQ and SEL. That a branch in a handler disarms
nothing is the model's reading of R76 (log entry 26). -/
def Obligations.BranchOutcomes : Prop := Claims.CompareBranches ∧ Claims.GuardBranches ∧ Claims.UnresolvedGuards

/-- R55, R72, R75: calls and computed jumps; a target with bit 0 set raises a misaligned-access trap on the jump, and leaves x1 alone.
CALLR reads a before it writes x1. No level is disarmed. -/
def Obligations.JumpOutcomes : Prop :=
  ∀ s t th (a : Reg) (i : BitVec 10) (o : BitVec 24), Issuing s t th →
    let target := s.readReg th a + BitVec.ofInt 64 i.toInt
    let back := s.readReg th (.x 1)
    Jumps s t th (.call o) (reach th o) (linked th 4) th.loops ∧
    (target.getLsbD 0 = false →
      Jumps s t th (.jr a i) target th.x th.loops ∧ Jumps s t th (.callr a i) target (linked th 4) th.loops) ∧
    (target.getLsbD 0 = true → HasHandler th →
      Traps s t th (.jr a i) 3 0 (some target) ∧ Traps s t th (.callr a i) 3 0 (some target)) ∧
    (back.getLsbD 0 = false → Jumps s t th .ret16 back th.x th.loops) ∧
    (back.getLsbD 0 = true → HasHandler th → Traps s t th .ret16 3 0 (some back))

/-- Thread t has ended: it has left its slot, or stands there halted with its registers, monitors disarmed and bindings dropped (R317). -/
def Sys2Proof.Claims.Ended (s u : State) (t : Nat) (th : Thread) : Prop :=
  (u.thread? t = none ∨ ∃ th', u.thread? t = some th' ∧ th'.halted = true ∧ th'.x = th.x ∧ th'.bindings = [] ∧ th'.brecs = [] ∧
    ∀ j (h : j < 4), th'.mons[j].arm = 0) ∧
  (∀ a ∈ u.arms, a.tid ≠ t) ∧ u.mem = s.mem ∧ th.lts ≤ (u.guest th.guest).floor

/-- The instruction would trap, and its thread ends instead: without a handler, or in it, where that is recorded as well (R291, R292); its
launch is faulted. -/
def Sys2Proof.Claims.EndsFaulted (s : State) (t : Nat) (th : Thread) (i : Instr) : Prop :=
  ∃ u, exec i s = .next u ∧ Ended s u t th ∧
    (∀ x, s.launch? th.launch = some x → ∃ y, u.launch? th.launch = some y ∧ y.faulted = true) ∧
    (th.active = true → u.errlog.length = s.errlog.length + 1)

/-- R73, R76: LOOP arms a level, goes past its end where the count is 0, or traps where two levels are armed; in a handler it traps, which
there ends the thread. That the two levels are looked at before the count, and that no end check follows a LOOP, are the model's readings
(log entries 47 and 64). A read of the end instruction that the micro-TLB serves notes its use there. -/
def Sys2Proof.Claims.LoopArming : Prop :=
  ∀ s t th (a : Reg) (i : BitVec 10), Issuing s t th →
    let c := s.readReg th a
    let start := th.pc + 4
    let stop := th.pc + BitVec.ofNat 64 (2 * i.toNat)
    (th.active = false → th.loops.length ≤ 1 → c ≠ 0 →
      Jumps s t th (.loop a i) start th.x ({ start := start, stop := stop, count := c } :: th.loops)) ∧
    (∀ h, th.active = false → th.loops.length ≤ 1 → c = 0 → s.fetchHalf th.home th.guest stop false = .half h →
      ∃ u th', exec (.loop a i) s = .next u ∧ u.thread? t = some th' ∧ GoesTo th th' (stop + (if h / 2 ^ 15 % 2 = 0 then 2 else 4)) ∧
        th'.x = th.x ∧ th'.loops = th.loops ∧ SameRest th th' ∧ SameShared s u ∧ SameOthers s u t ∧ SameDevice s { u with utlb := s.utlb }) ∧
    (2 ≤ th.loops.length → HasHandler th → Traps s t th (.loop a i) 2 0 none) ∧
    (th.active = true → KMap.sorted s.threads = true → EndsFaulted s t th (.loop a i))

/-- R74: the loop end check, on an instruction at pc whose next word is at `next`. The second test is made of the level that remains where the
inner one has just been disarmed, and of no other (log entry 63). -/
def Sys2Proof.Claims.LoopEndCheck : Prop :=
  ∀ (pc next : Word) (l o : LoopLevel) (ls : List LoopLevel),
    loopEnd pc next [] = (next, []) ∧
    (pc ≠ l.stop → loopEnd pc next (l :: ls) = (next, l :: ls)) ∧
    (pc = l.stop → l.count ≠ 1 → loopEnd pc next (l :: ls) = (l.start, { l with count := l.count - 1 } :: ls)) ∧
    (pc = l.stop → l.count = 1 → loopEnd pc next [l] = (next, [])) ∧
    (pc = l.stop → l.count = 1 → pc ≠ o.stop → loopEnd pc next (l :: o :: ls) = (next, o :: ls)) ∧
    (pc = l.stop → l.count = 1 → pc = o.stop → o.count ≠ 1 →
      loopEnd pc next (l :: o :: ls) = (o.start, { o with count := o.count - 1 } :: ls)) ∧
    (pc = l.stop → l.count = 1 → pc = o.stop → o.count = 1 → loopEnd pc next (l :: o :: ls) = (next, ls))

/-- R73, R74, R76: hardware loops, with the model's readings of log entries 47, 63 and 64. -/
def Obligations.LoopOutcomes : Prop := Claims.LoopArming ∧ Claims.LoopEndCheck

/-! ## Register frames -/

namespace Sys2Proof.Claims

/-- The instruction answers a next state in which thread t is th', and nothing else of the machine has changed. -/
def Becomes (s : State) (t : Nat) (i : Instr) (th' : Thread → Prop) : Prop :=
  ∃ u x, exec i s = .next u ∧ u.thread? t = some x ∧ th' x ∧ SameShared s u ∧ SameOthers s u t ∧ SameDevice s u

/-- Of the thread, nothing has changed but what SameRest lets change, and its frame stack. -/
def SameButFrames (th th' : Thread) : Prop :=
  SameRest th { th' with frames := th.frames, transit := th.transit, depth := th.depth, wsp := th.wsp }

/-- x0 to x15 are unchanged, and x16 to x31 hold f. -/
def FrameIs (th th' : Thread) (f : Nat → Word) : Prop :=
  (∀ j (h : j < 16), th'.x[j] = th.x[j]) ∧ ∀ j (h : j < 16), th'.x[16 + j] = f j

end Sys2Proof.Claims

/-- R77, R78: RFPUSH pushes a frame of zeros; as a fifth resident frame would follow, the oldest set-aside one moves to the transit
buffer, or the RFPUSH waits for the buffer, or takes a frame-overflow trap where the spill would pass the bound. -/
def Sys2Proof.Claims.FramePush : Prop :=
  ∀ s t th, Issuing s t th →
    (th.frames.length < 3 → Becomes s t .rfpush (fun th' =>
      FrameIs th th' (fun _ => 0) ∧ th'.frames = th.frame :: th.frames ∧ th'.depth = th.depth + 1 ∧ th'.wsp = th.wsp ∧
      th'.transit = th.transit ∧ GoesOn th th' 4 ∧ SameButFrames th th')) ∧
    (∀ fs old, th.frames = fs ++ [old] → 2 ≤ fs.length → th.wsp + 128 ≤ th.spillBound → th.transit = none →
      Becomes s t .rfpush (fun th' =>
        FrameIs th th' (fun _ => 0) ∧ th'.frames = th.frame :: fs ∧ th'.depth = th.depth + 1 ∧ th'.wsp = th.wsp + 128 ∧
        th'.transit = some { regs := old, base := localKey th.home th.wsp, done := 0 } ∧ GoesOn th th' 4 ∧ SameButFrames th th')) ∧
    (3 ≤ th.frames.length → th.wsp + 128 ≤ th.spillBound → th.transit ≠ none → Becomes s t .rfpush (fun th' =>
      th'.wait = .transit ∧ th'.pc = th.pc ∧ th'.x = th.x ∧ th'.frames = th.frames ∧ th'.depth = th.depth)) ∧
    (3 ≤ th.frames.length → th.spillBound < th.wsp + 128 → HasHandler th → Traps s t th .rfpush 7 0 none)

/-- R77, R79: RFPOP gives back the caller's x16 to x31 from the newest set-aside frame or the transit buffer; at DEPTH 0 it traps. -/
def Sys2Proof.Claims.FramePop : Prop :=
  ∀ s t th, Issuing s t th →
    (∀ f fs, th.depth ≠ 0 → th.frames = f :: fs → Becomes s t .rfpop (fun th' =>
      FrameIs th th' (fun j => f[j % 16]'(Nat.mod_lt _ (by decide))) ∧ th'.frames = fs ∧ th'.depth = th.depth - 1 ∧ th'.wsp = th.wsp ∧
      GoesOn th th' 4 ∧ SameButFrames th th')) ∧
    (∀ r, th.depth ≠ 0 → th.frames = [] → th.transit = some r → Becomes s t .rfpop (fun th' =>
      FrameIs th th' (fun j => r.regs[j % 16]'(Nat.mod_lt _ (by decide))) ∧ th'.transit = none ∧ th'.depth = th.depth - 1 ∧
      th'.wsp = th.wsp - 128 ∧ GoesOn th th' 4 ∧ SameButFrames th th')) ∧
    (th.depth ≠ 0 → th.frames = [] → th.transit = none → ∃ u th', exec .rfpop s = .next u ∧ u.thread? t = some th' ∧
      th'.wait = .frameFill (s.clk + 16) ∧ th'.wsp = th.wsp - 128 ∧ th'.depth = th.depth - 1 ∧ th'.x = th.x ∧ th'.pc = th.pc ∧
      SameOthers s u t) ∧
    (th.depth = 0 → HasHandler th → Traps s t th .rfpop 2 0 none)

/-- R77, R78, R79: register frames. -/
def Obligations.FrameOutcomes : Prop := Claims.FramePush ∧ Claims.FramePop

/-! ## Thread control -/

/-- R81, R82, R278: SPAWN starts a thread in the slot that a names. While another guest still holds that slot, or the tile, the thread is
saved until the slot passes, and only a thread of the own guest counts as an occupant (the model's reading, log entry 68). -/
def Sys2Proof.Claims.SpawnStarts : Prop :=
  ∀ s t th (a b : Reg), Issuing s t th → s.thread? s.nextTid = none →
    let k := (s.readReg th a).toNat
    let pc := s.readReg th b
    let slot := coreOf th.home * 16 + k
    slotIn th.home = 0 → s.quotaOf th ≤ k → k ≤ 15 → s.spawnTaken slot th.guest = false → pc.getLsbD 0 = false →
    ∃ u th' c, exec (.spawn a b) s = .next u ∧ u.thread? t = some th' ∧ u.thread? s.nextTid = some c ∧
      GoesOn th th' 4 ∧ SameRest th th' ∧ th'.x = th.x ∧ SameShared s u ∧
      (∀ t', t' ≠ t → t' ≠ s.nextTid → u.thread? t' = s.thread? t') ∧
      c.home = slot ∧ c.place = (if s.mayEnter slot th.guest then some slot else none) ∧ c.halted = false ∧ c.pc = pc ∧ c.guest = th.guest ∧ c.gen = th.gen ∧
      c.x[3] = th.x[3] ∧ c.x[4] = th.x[4] ∧ c.x[5] = th.x[5] ∧ c.x[6] = th.x[6] ∧
      c.x[2] = BitVec.ofNat 64 (0x82 * 2 ^ 56 + 512) ∧
      (∀ j (h : j < 32), j ≠ 2 → j ≠ 3 → j ≠ 4 → j ≠ 5 → j ≠ 6 → c.x[j] = 0) ∧ (∀ j (h : j < 16), c.e[j] = 0) ∧
      (∀ j (h : j < 8), c.q[j] = .ff) ∧ c.lts = th.lts ∧ c.pin = false ∧ c.loops = [] ∧ c.depth = 0 ∧ c.wsp = 0 ∧
      c.stashm = th.stashm ∧ c.tvec = th.tvec ∧ c.trapz = false ∧ c.priv = th.priv ∧
      c.epc = 0 ∧ c.trapc = 0 ∧ c.taddr = 0 ∧ c.monst = 0 ∧ c.feaddr = 0 ∧ c.fedata = 0 ∧ c.efaddr = 0 ∧ c.efinfo = 0 ∧
      c.lastTag = 0 ∧ c.issued = 0 ∧ c.waited = 0 ∧ c.bindings = [] ∧ c.brecs = [] ∧ (∀ j (h : j < 4), c.mons[j].arm = 0)

/-- R81: the checks of SPAWN, in their order. -/
def Sys2Proof.Claims.SpawnTraps : Prop :=
  ∀ s t th (a b : Reg), Issuing s t th → HasHandler th →
    let k := (s.readReg th a).toNat
    let pc := s.readReg th b
    (slotIn th.home ≠ 0 → Traps s t th (.spawn a b) 1 0 none ∧ Traps s t th (.reap a b) 1 0 none) ∧
    (slotIn th.home = 0 → (k < s.quotaOf th ∨ 15 < k) → Traps s t th (.spawn a b) 2 0 none) ∧
    (slotIn th.home = 0 → s.quotaOf th ≤ k → k ≤ 15 → s.spawnTaken (coreOf th.home * 16 + k) th.guest = true →
      Traps s t th (.spawn a b) 2 0 none) ∧
    (slotIn th.home = 0 → s.quotaOf th ≤ k → k ≤ 15 → s.spawnTaken (coreOf th.home * 16 + k) th.guest = false →
      pc.getLsbD 0 = true → Traps s t th (.spawn a b) 3 0 (some pc))

/-- R83: REAP of a halted thread, dead, whose stores are all acknowledged takes its x8 and its clock, and frees its slot; REAP of one
that still runs waits; REAP of a free slot traps. -/
def Sys2Proof.Claims.Reaping : Prop :=
  ∀ s t th (d a : Reg), Issuing s t th → slotIn th.home = 0 →
    let k := (s.readReg th a).toNat
    let at_ := fun (p : Nat × Thread) => p.2.home == coreOf th.home * 16 + k && p.2.guest == th.guest
    s.quotaOf th ≤ k → k ≤ 15 →
    (∀ c dead, c ≠ t → s.threads.find? at_ = some (c, dead) → dead.halted = true → s.outstanding c = [] →
      ∃ u th', exec (.reap d a) s = .next u ∧ u.thread? t = some th' ∧ u.thread? c = none ∧
        u.readReg th' d = (if d = .x 0 then (0 : Word) else dead.x[8]) ∧ SameRegsBut s u th th' d ∧ SameSharedBut s u th d ∧
        th'.lts = (if th.lts ≤ dead.lts then dead.lts else th.lts) ∧ GoesOn th th' 4 ∧ u.mem = s.mem) ∧
    (∀ c dead, s.threads.find? at_ = some (c, dead) → (dead.halted = false ∨ s.outstanding c ≠ []) →
      Becomes s t (.reap d a) (fun th' => th'.wait = .reap d k ∧ th'.pc = th.pc ∧ th'.x = th.x)) ∧
    (s.threads.find? at_ = none → HasHandler th → Traps s t th (.reap d a) 2 0 none)

/-- R81, R82, R83: SPAWN and REAP. -/
def Obligations.SpawnOutcomes : Prop := Claims.SpawnStarts ∧ Claims.SpawnTraps ∧ Claims.Reaping

/-- R86, R87: RDV is refused, accepted, or closes the phase, which completes 8 cycles later. -/
def Sys2Proof.Claims.RdvArrivals : Prop :=
  ∀ s t th (k : BitVec 5) (q : BitVec 3), Issuing s t th →
    let v := (s.readReg th (.k k)).toNat
    let me := slotIn th.home
    let arrived := v % 2 ^ 16
    let pending := v / 2 ^ 16 % 2 ^ 16
    let waiters := v / 2 ^ 32 % 2 ^ 5
    let count := fun (x : Nat) => ((List.range 16).filter (fun j => x.testBit j)).length
    ((v / 2 ^ 38 ≠ 0 ∨ waiters = 0 ∨ 16 < waiters) → HasHandler th → Traps s t th (.rdv k q) 2 0 none) ∧
    (v / 2 ^ 38 = 0 → 1 ≤ waiters → waiters ≤ 16 → (pending ≠ 0 ∨ count arrived = waiters) →
      ∃ u th', exec (.rdv k q) s = .next u ∧ u.thread? t = some th' ∧ th'.q = th.q.set q.toNat .ff ∧ GoesOn th th' 4 ∧
        SameRest th { th' with q := th.q } ∧ th'.x = th.x ∧ SameShared s u ∧ SameOthers s u t ∧ u.mem = s.mem) ∧
    (v / 2 ^ 38 = 0 → 1 ≤ waiters → waiters ≤ 16 → pending = 0 → count arrived ≠ waiters → arrived.testBit me = true →
      HasHandler th → Traps s t th (.rdv k q) 2 0 none) ∧
    (v / 2 ^ 38 = 0 → 1 ≤ waiters → waiters ≤ 16 → pending = 0 → count arrived ≠ waiters → arrived.testBit me = false →
      ∃ u th' phase, exec (.rdv k q) s = .next u ∧ u.thread? t = some th' ∧ th'.wait = .rdv k q phase th.lts ∧ th'.pc = th.pc ∧
        u.readReg th' (.k k) = BitVec.ofNat 64 (v + 2 ^ me) ∧ (∀ r, r ≠ .k k → u.readReg th' r = s.readReg th r) ∧
        (count (arrived + 2 ^ me) = waiters →
          ∃ p ∈ u.agenda, p.due = s.clk + 8 ∧ p.work = .event (.rdvPhaseCompletion (coreOf th.home) th.guest k t phase)) ∧
        (count (arrived + 2 ^ me) ≠ waiters → phase = 0 ∧ u.agenda = s.agenda))

/-- R85: RDV.INIT writes the object with its waiter count and every other field 0; the register form traps outside 1 to 16. -/
def Sys2Proof.Claims.RdvInit : Prop :=
  ∀ s t th (k : BitVec 5) (b : Reg) (i : BitVec 10), Issuing s t th →
    let n := (s.readReg th b).toNat
    (1 ≤ n → n ≤ 16 → Computes s t th (.rdvInitReg k b) (.k k) (BitVec.ofNat 64 (n * 2 ^ 32))) ∧
    ((n = 0 ∨ 16 < n) → HasHandler th → Traps s t th (.rdvInitReg k b) 2 0 none) ∧
    Computes s t th (.rdvInitImm k i) (.k k) (BitVec.ofNat 64 (i.toNat * 2 ^ 32))

/-- R85, R86, R87: rendezvous. -/
def Obligations.RendezvousOutcomes : Prop := Claims.RdvArrivals ∧ Claims.RdvInit

/-- R89 to R91: YIELD, PREPT with nothing pending, PIN and UNPIN change one note of the thread each; PREPT with a cancel pending takes
the cancel trap with EPC at the next word. -/
def Obligations.ThreadNotes : Prop :=
  ∀ s t th, Issuing s t th →
    (Becomes s t .yield (fun th' => th'.yielded = true ∧ th'.x = th.x ∧ GoesOn th th' 4 ∧ SameRest th { th' with yielded := th.yielded })) ∧
    (Becomes s t .yield16 (fun th' => th'.yielded = true ∧ th'.x = th.x ∧ GoesOn th th' 2 ∧ SameRest th { th' with yielded := th.yielded })) ∧
    (Becomes s t .pin (fun th' => th'.pin = true ∧ th'.x = th.x ∧ GoesOn th th' 4 ∧ SameRest th { th' with pin := th.pin })) ∧
    (Becomes s t .unpin (fun th' => th'.pin = false ∧ th'.x = th.x ∧ GoesOn th th' 4 ∧ SameRest th { th' with pin := th.pin })) ∧
    (th.cancel = none → s.stopsHere th = false → s.passes th = false →
      Becomes s t .prept (fun th' => th'.dist = 0 ∧ th'.x = th.x ∧ GoesOn th th' 4 ∧ SameRest th { th' with dist := th.dist }) ∧
      Becomes s t .prept16 (fun th' => th'.dist = 0 ∧ th'.x = th.x ∧ GoesOn th th' 2 ∧ SameRest th { th' with dist := th.dist })) ∧
    (∀ c, th.cancel = some c → HasHandler th → ∃ u th', exec .prept s = .next u ∧ u.thread? t = some th' ∧
      th'.epc = (loopEnd th.pc (th.pc + 4) th.loops).1 ∧ th'.trapc = trapcOf 0x0D c ∧ th'.pc = th.tvec ∧ th'.cancel = none ∧ th'.dist = 0 ∧
      th'.x = th.x)

/-! ## Loads and stores -/

namespace Sys2Proof.Claims

/-- A load or a store of one form: the word, the register of a load (or what a store stores), its address, its width in bytes, and
whether the value is sign-extended. -/
structure Form where
  i      : Instr
  d      : Reg
  v      : Word
  va     : Word
  n      : Nat
  signed : Bool

/-- The addresses of R93, R124 and R95. -/
def addrOf (s : State) (th : Thread) (a : Reg) (m : BitVec 10) : Word := s.readReg th a + BitVec.ofInt 64 m.toInt
def addrAt (s : State) (th : Thread) (a b : Reg) (n : Nat) : Word := s.readReg th a + s.readReg th b * BitVec.ofNat 64 n
def addrShort (th : Thread) (m : BitVec 7) : Word := th.x[2] + BitVec.ofNat 64 (m.toNat * 8)

/-- Every load into a register: R93, R124 and R95. -/
def loadForms (s : State) (th : Thread) (d a b : Reg) (m : BitVec 10) (d4 : BitVec 4) (m7 : BitVec 7) : List Form :=
  [⟨.ldB d a m, d, 0, addrOf s th a m, 1, true⟩, ⟨.ldBz d a m, d, 0, addrOf s th a m, 1, false⟩,
   ⟨.ldH d a m, d, 0, addrOf s th a m, 2, true⟩, ⟨.ldHz d a m, d, 0, addrOf s th a m, 2, false⟩,
   ⟨.ldW d a m, d, 0, addrOf s th a m, 4, true⟩, ⟨.ldWz d a m, d, 0, addrOf s th a m, 4, false⟩,
   ⟨.ldD d a m, d, 0, addrOf s th a m, 8, true⟩,
   ⟨.ldxB d a b, d, 0, addrAt s th a b 1, 1, true⟩, ⟨.ldxBz d a b, d, 0, addrAt s th a b 1, 1, false⟩,
   ⟨.ldxH d a b, d, 0, addrAt s th a b 2, 2, true⟩, ⟨.ldxHz d a b, d, 0, addrAt s th a b 2, 2, false⟩,
   ⟨.ldxW d a b, d, 0, addrAt s th a b 4, 4, true⟩, ⟨.ldxWz d a b, d, 0, addrAt s th a b 4, 4, false⟩,
   ⟨.ldxD d a b, d, 0, addrAt s th a b 8, 8, true⟩,
   ⟨.ldD16 d4 m7, .x (d4.setWidth 5), 0, addrShort th m7, 8, true⟩]

/-- Every store: R94, R124, R95 and R245, with the word it stores from. -/
def storeForms (s : State) (th : Thread) (d a b : Reg) (m : BitVec 10) (d4 e : BitVec 4) (m7 : BitVec 7) : List Form :=
  [⟨.stB d a m, d, s.readReg th d, addrOf s th a m, 1, false⟩, ⟨.stH d a m, d, s.readReg th d, addrOf s th a m, 2, false⟩,
   ⟨.stW d a m, d, s.readReg th d, addrOf s th a m, 4, false⟩, ⟨.stD d a m, d, s.readReg th d, addrOf s th a m, 8, false⟩,
   ⟨.stxB d a b, d, s.readReg th d, addrAt s th a b 1, 1, false⟩, ⟨.stxH d a b, d, s.readReg th d, addrAt s th a b 2, 2, false⟩,
   ⟨.stxW d a b, d, s.readReg th d, addrAt s th a b 4, 4, false⟩, ⟨.stxD d a b, d, s.readReg th d, addrAt s th a b 8, 8, false⟩,
   ⟨.stD16 d4 m7, .x (d4.setWidth 5), s.readReg th (.x (d4.setWidth 5)), addrShort th m7, 8, false⟩,
   ⟨.xst e a m, .x 0, th.e[e.toNat], addrOf s th a m, 8, false⟩]

/-- The n bytes at a key of memory as one number, the lowest byte first (R5). -/
def numberAt (s : State) (key n : Nat) : Nat := natOfBytes (s.readMem key n)

/-- An n-byte number widened as R93 says. -/
def widened (n : Nat) (signed : Bool) (v : Nat) : Word :=
  if signed then (BitVec.ofNat (8 * n) v).signExtend 64 else BitVec.ofNat 64 v

/-- The addresses of the own stash and of local store (R99). -/
def ownVa (off : Nat) : Word := BitVec.ofNat 64 (0x80 * 2 ^ 56 + off)
def localVa (off : Nat) : Word := BitVec.ofNat 64 (0x82 * 2 ^ 56 + off)

/-- n aligned bytes of the slot's local store, at offset off. -/
def LocalAt (va : Word) (n off : Nat) : Prop := va = localVa off ∧ off + n ≤ 512 ∧ off % n = 0

/-- No outstanding operation of the thread, by name or by place, meets the n bytes that x denotes (R115, R129). -/
def Clear (s : State) (t : Nat) (th : Thread) (x : Target) (va : Word) (n : Nat) : Prop := s.ownOverlap t th x va n = false

/-- Memory after a store of n bytes of v at a key: each byte stored, and every other byte as before. -/
def Stored (s u : State) (key n : Nat) (v : Word) : Prop :=
  (∀ j, j < n → Memory.read u.mem (key + j) = v.extractLsb' (8 * j) 8) ∧
    ∀ k, (k < key ∨ key + n ≤ k) → Memory.read u.mem k = Memory.read s.mem k

/-- The tag after a thread's latest (R127). -/
def tagAfter (t : BitVec 32) : BitVec 32 := if t = BitVec.ofNat 32 (2 ^ 32 - 1) then 1 else t + 1

/-- n aligned bytes of the own stash, at offset off of line l, which is resident, of the guest's generation, sound and permitted. -/
def OwnLine (s : State) (th : Thread) (va : Word) (n off : Nat) (l : StashLine) : Prop :=
  va = ownVa off ∧ off + n ≤ 2 ^ 17 ∧ off % n = 0 ∧ s.stashLine? (tileOf th.home) (off / 128) = some l ∧
    l.gen = (s.guest l.guest).gen ∧ l.poison = false ∧
    KMap.get? (s.tile (tileOf th.home)).banks (off / 4096) = some th.guest ∧ th.stashm.getLsbD (off / 4096) = true

/-- The same, with no request parked on that offset (R185, R186). -/
def OwnAt (s : State) (th : Thread) (va : Word) (n off : Nat) (l : StashLine) : Prop :=
  OwnLine s th va n off l ∧ ∀ p ∈ (s.tile (tileOf th.home)).park, p.off ≠ off

/-- The later of two times. -/
def later (a b : Word) : Word := if a ≤ b then b else a

/-- What a write to a resident line of the own stash may change of the device beside memory: the line is dirty, and signals for the
monitors armed on it have left. -/
def SameButStash (s u : State) (tile idx : Nat) (l : StashLine) : Prop :=
  u.stashLine? tile idx = some l ∧ (∀ j, j ≠ tile * 1024 + idx → KMap.get? u.stash j = KMap.get? s.stash j) ∧
    { u with threads := s.threads, banks := s.banks, kWrites := s.kWrites, mem := s.mem, stash := s.stash, agenda := s.agenda
             fresh := s.fresh, seq := s.seq, peerAnswers := s.peerAnswers, nextOp := s.nextOp, tagged := s.tagged } = s

/-- The instruction in hand reads nothing, writes nothing and waits: the thread stands where it stood, with its registers. -/
def Waits (s : State) (t : Nat) (th : Thread) (i : Instr) (w : Wait → Prop) : Prop :=
  ∃ u th', exec i s = .next u ∧ u.thread? t = some th' ∧ w th'.wait ∧ th'.pc = th.pc ∧ th'.x = th.x ∧ th'.issued = th.issued ∧
    SameShared s u ∧ SameOthers s u t ∧ u.mem = s.mem

/-- An instruction that sends a message needs an entry of its core's send queue (R26): it waits where none is free, which is a free value of the
model (log entry 15), and does p where one is, or where it rejoins with the entry that it has waited for. -/
def Gated (s : State) (t : Nat) (th : Thread) (i : Instr) (p : Prop) : Prop :=
  Issuing s t th ∨ Rejoining s t th →
    if th.queued = false ∧ Config.sendFull s.fresh = true then Waits s t th i (fun w => w = .sendQueue i) else p

/-- A register written by an instruction that completes without issuing: a shared register's write lands at the end of the cycle (R48). -/
def Lands (s u : State) (th th' : Thread) (d : Reg) (v : Word) : Prop :=
  match d with
  | .x n => th'.x = (if n = 0 then th.x else th.x.set n.toNat v) ∧ u.lateWrites = s.lateWrites
  | .k k => th'.x = th.x ∧
      u.lateWrites = s.lateWrites ++ [{ core := coreOf th.home, guest := th.guest, k := k, slot := slotIn th.home, val := v, clear := false }]

end Sys2Proof.Claims

/-- R93, R95, R101, R124, R245: loads from local store complete in their issue cycle with the value widened. -/
def Obligations.LocalLoads : Prop :=
  ∀ s t th (d a b : Reg) (m : BitVec 10) (d4 e : BitVec 4) (m7 : BitVec 7), Issuing s t th →
    (∀ f ∈ loadForms s th d a b m d4 m7, ∀ off, LocalAt f.va f.n off → Clear s t th (.loc (localKey th.home off)) f.va f.n →
      Computes s t th f.i f.d (widened f.n f.signed (numberAt s (localKey th.home off) f.n))) ∧
    (∀ off, LocalAt (addrOf s th a m) 8 off → Clear s t th (.loc (localKey th.home off)) (addrOf s th a m) 8 →
      Becomes s t (.xld e a m) (fun th' =>
        th'.e = th.e.set e.toNat (BitVec.ofNat 64 (numberAt s (localKey th.home off) 8)) ∧ th'.x = th.x ∧ GoesOn th th' 4 ∧
        SameRest th { th' with e := th.e }))

/-- R94, R126, R127: stores to local store put the low bytes of their word there in their issue cycle, under the next tag, which is
acknowledged at once; every other byte of memory is unchanged. -/
def Obligations.LocalStores : Prop :=
  ∀ s t th (d a b : Reg) (m : BitVec 10) (d4 e : BitVec 4) (m7 : BitVec 7), Issuing s t th →
    ∀ f ∈ storeForms s th d a b m d4 e m7, ∀ off, LocalAt f.va f.n off → Clear s t th (.loc (localKey th.home off)) f.va f.n →
      ∃ u th', exec f.i s = .next u ∧ u.thread? t = some th' ∧ Stored s u (localKey th.home off) f.n f.v ∧
        th'.lastTag = tagAfter th.lastTag ∧ th'.x = th.x ∧ GoesOn th th' f.i.len ∧ SameRest th { th' with lastTag := th.lastTag } ∧
        SameOthers s u t ∧ { u with threads := s.threads, mem := s.mem, nextOp := s.nextOp } = s

/-- R104, R155, R183: a load of a resident line of the own stash completes in its issue cycle and raises the clock to the line's stamp. -/
def Obligations.StashLoads : Prop :=
  ∀ s t th (d a b : Reg) (m : BitVec 10) (d4 e : BitVec 4) (m7 : BitVec 7), Issuing s t th →
    (∀ f ∈ loadForms s th d a b m d4 m7, ∀ off l, OwnAt s th f.va f.n off l → Clear s t th (.own off) f.va f.n →
      ∃ u th', exec f.i s = .next u ∧ u.thread? t = some th' ∧
        u.readReg th' f.d = (if f.d = .x 0 then 0 else widened f.n f.signed (numberAt s (stashKey (tileOf th.home) off) f.n)) ∧
        SameRegsBut s u th th' f.d ∧ th'.lts = later th.lts l.stamp ∧ GoesOn th th' f.i.len ∧
        SameRest th { th' with lts := th.lts, ltsSeen := th.ltsSeen } ∧ SameSharedBut s u th f.d ∧ SameOthers s u t ∧ SameDevice s u) ∧
    (∀ off l, OwnAt s th (addrOf s th a m) 8 off l → Clear s t th (.own off) (addrOf s th a m) 8 →
      Becomes s t (.xld e a m) (fun th' =>
        th'.e = th.e.set e.toNat (BitVec.ofNat 64 (numberAt s (stashKey (tileOf th.home) off) 8)) ∧ th'.x = th.x ∧
        th'.lts = later th.lts l.stamp ∧ GoesOn th th' 4 ∧
        SameRest th { th' with e := th.e, lts := th.lts, ltsSeen := th.ltsSeen }))

/-- R104, R126, R155: a store to a resident line of the own stash is applied in its issue cycle and marks the line dirty. -/
def Obligations.StashStores : Prop :=
  ∀ s t th (d a b : Reg) (m : BitVec 10) (d4 e : BitVec 4) (m7 : BitVec 7), Issuing s t th →
    ∀ f ∈ storeForms s th d a b m d4 e m7, ∀ off l, OwnAt s th f.va f.n off l → Clear s t th (.own off) f.va f.n →
      ∃ u th', exec f.i s = .next u ∧ u.thread? t = some th' ∧ Stored s u (stashKey (tileOf th.home) off) f.n f.v ∧
        SameButStash s u (tileOf th.home) (off / 128) { l with dirty := true } ∧ u.tagged = s.tagged ∧
        th'.lastTag = tagAfter th.lastTag ∧ th'.lts = later th.lts l.stamp ∧ th'.x = th.x ∧ GoesOn th th' f.i.len ∧
        SameRest th { th' with lastTag := th.lastTag, lts := th.lts, ltsSeen := th.ltsSeen } ∧ SameShared s u ∧ SameOthers s u t

/-- R122, R123: alignment is checked first, then the space, then the kind, then the guard; the trap names the address. -/
def Obligations.AccessChecks : Prop :=
  ∀ s t th (d a b : Reg) (m : BitVec 10) (d4 e : BitVec 4) (m7 : BitVec 7) (w : Width), Issuing s t th → HasHandler th →
    let reserved := fun (va : Word) => let x := va.toNat / 2 ^ 56; (1 ≤ x ∧ x < 0x40) ∨ (0x83 ≤ x ∧ x < 0xC0)
    let n := (match w with | .w => 4 | .d => 8)
    let va := s.readReg th a
    (∀ f ∈ loadForms s th d a b m d4 m7 ++ storeForms s th d a b m d4 e m7,
      (f.va.toNat % f.n ≠ 0 → Traps s t th f.i 3 0 (some f.va)) ∧
      (f.va.toNat % f.n = 0 → reserved f.va → Traps s t th f.i 4 2 (some f.va)) ∧
      (∀ off, f.va = localVa off → off % f.n = 0 → 512 ≤ off → off < 2 ^ 56 → Traps s t th f.i 4 2 (some f.va)) ∧
      (∀ off, f.va = ownVa off → off % f.n = 0 → off + f.n ≤ 2 ^ 17 → th.stashm.getLsbD (off / 4096) = false →
        Traps s t th f.i 4 5 (some f.va))) ∧
    (va.toNat % n ≠ 0 → Traps s t th (.amoAdd w d a b) 3 0 (some va) ∧ Traps s t th (.gredAdd w d a b) 3 0 (some va)) ∧
    (∀ off, va = localVa off → off % n = 0 → off + n ≤ 512 → Traps s t th (.amoAdd w d a b) 4 3 (some va)) ∧
    (∀ off, addrOf s th a m = localVa off → off % 8 = 0 → off + 8 ≤ 512 → Traps s t th (.ldcD d a m) 4 3 (some (addrOf s th a m)))

namespace Sys2Proof.Claims

/-- n aligned bytes at a global address that the core's micro-TLB translates with the permissions the access needs, to pa (R117, R118);
a store's lie outside the constant window (R111). -/
def GlobalAt (s : State) (th : Thread) (va : Word) (n pa : Nat) (write : Bool) : Prop :=
  va.toNat < 2 ^ 56 ∧ va.toNat % n = 0 ∧
    ∃ e, s.tlbFind (KMap.getD s.utlb (coreOf th.home) []) (slotIn th.home) th.guest va.toNat = some e ∧ e.r = true ∧
      pa = e.pa + va.toNat % 2 ^ e.bits ∧ (write = true → e.w = true ∧ s.inWindow th va n = false)

/-- An address of the party stash, at offset off of a tile of the thread's party, aligned for n bytes: by its own space, or by the peer form of
the device's own index (R99). -/
def PartyAt (s : State) (th : Thread) (va : Word) (n tile off : Nat) : Prop :=
  ∃ top lodge k, (top = 0x81 ∨ top = 0xC0 + s.dev ∧ s.dev < 64) ∧ va = BitVec.ofNat 64 (top * 2 ^ 56 + lodge * 2 ^ 23 + k * 2 ^ 17 + off) ∧
    lodge < (s.guest th.guest).len ∧ lodge < 64 ∧ k < 64 ∧ off + n ≤ 2 ^ 17 ∧ off % n = 0 ∧ tile = (s.guest th.guest).tile lodge k

/-- n aligned bytes of a peer device's global space, or of its stash, on a device that the guest's peer table has an entry for (R99, R340). -/
def PeerAt (s : State) (th : Thread) (va : Word) (n dev : Nat) : Prop :=
  va.toNat / 2 ^ 56 = 0x40 + dev ∧ dev < 64 ∧ dev ≠ s.dev ∧ va.toNat % n = 0 ∧ (s.guest th.guest).peerOk dev = true
def PeerStashAt (s : State) (th : Thread) (va : Word) (n dev : Nat) : Prop :=
  va.toNat / 2 ^ 56 = 0xC0 + dev ∧ dev ≠ s.dev ∧ va.toNat % n = 0 ∧ va.toNat % 2 ^ 56 < 2 ^ 29 ∧ va.toNat % 2 ^ 17 + n ≤ 2 ^ 17 ∧
    (s.guest th.guest).peerOk dev = true

/-- No outstanding operation of the thread under another name meets the n bytes that x denotes; those under this name keep their order (R129). -/
def Unaliased (s : State) (t : Nat) (th : Thread) (x : Target) (va : Word) (n : Nat) : Prop := s.aliasOverlap t th x va n = false

/-- One message is on its way, no earlier than `delay` cycles from now due, or waits at its tile's egress until the guest's tokens pay for it
(R284), and it carries e. -/
def Sent (s u : State) (delay : Nat) (e : Event) : Prop :=
  ∃ p, u.agenda = s.agenda ++ [p] ∧ p.work = .event e ∧ s.clk + delay ≤ p.due

/-- The access as its home sees it. A load's carries the thread's clock, a store's or an atomic's the one of its issue (R151, R152). -/
def AccessIs (a : Access) (t : Nat) (th : Thread) (va : Word) (pa n : Nat) (clock : Word) : Prop :=
  a.who = .thread t ∧ a.va = va ∧ a.pa = pa ∧ a.n = n ∧ a.clock = clock ∧ a.guest = th.guest ∧ a.core = coreOf th.home ∧ a.gaps = [] ∧
    a.tokens = none

/-- The request as the tile that holds the stash sees it. -/
def RequestIs (r : StashReq) (t : Nat) (th : Thread) (va : Word) (tile off : Nat) (what : StashOp) : Prop :=
  r.who = .thread t ∧ r.src = tileOf th.home ∧ r.va = va ∧ r.tile = tile ∧ r.off = off ∧ r.what = what ∧ r.clock = th.clockFor what ∧
    r.guest = th.guest ∧ r.refusals = 0 ∧ r.own = false

/-- One request has gone to a peer device, for the guest that the peer table names there, stamped with WALL, or it is held for the convoy's
stop, unstamped (R325, R340). -/
def AsksPeer (s u : State) (t : Nat) (th : Thread) (va : Word) (dev rid op : Nat) (what : PeerOp) : Prop :=
  ∃ o, u.peerOut = s.peerOut ++ [o] ∧ o.tid = t ∧ o.rid = rid ∧ o.op = op ∧ o.va = va ∧ o.dev = dev ∧ o.what = what ∧
    o.clock = th.clockOf what ∧ o.named = s.namedAt th.guest dev ∧ o.launch = th.launch ∧ o.held = s.holdsPeer th.guest th.launch ∧
    o.stamp = (if s.holdsPeer th.guest th.launch then none else some s.wall) ∧ o.redirected = false

/-- A tagged operation of n bytes at va has joined those outstanding, under the thread's next tag (R126, R127). -/
def Tags (s u : State) (t : Nat) (th th' : Thread) (va : Word) (n op : Nat) : Prop :=
  th'.lastTag = tagAfter th.lastTag ∧ ∃ x, u.tagged = s.tagged ++ [x] ∧ x.op = op ∧ x.tid = t ∧ x.tag = th'.lastTag ∧ x.va = va ∧ x.len = n ∧
    x.left = 1 ∧ x.engine = none ∧ x.wb = false

/-- No cached copy of a line serves the thread. -/
def NoCopy (s : State) (th : Thread) (line : Nat) : Prop :=
  (∀ c ∈ KMap.getD s.l1 (coreOf th.home) [], c.line ≠ line) ∧ ∀ c ∈ s.l2, c.copy.line ≠ line

/-- Every atomic, with the operation that its message carries. -/
def amoForms (w : Width) (d a b : Reg) : List (Instr × AmoOp × Nat) :=
  let n := (match w with | .w => 4 | .d => 8)
  [(.amoAdd w d a b, .add, n), (.amoAnd w d a b, .and, n), (.amoOr w d a b, .or, n), (.amoXor w d a b, .xor, n),
   (.amoMin w d a b, .min, n), (.amoMax w d a b, .max, n), (.amoMinu w d a b, .minu, n), (.amoMaxu w d a b, .maxu, n),
   (.amoSwap w d a b, .swap, n), (.amoCas w d a b, .cas, n), (.amoFadd d a b, .fadd, 4)]

/-- The new value of an n-byte word (R137); a CAS that fails gives none. The F32 sum is R139's. -/
def amoValue (op : AmoOp) (n : Nat) (o b d : BitVec (8 * n)) : Option (BitVec (8 * n)) :=
  match op with
  | .add => some (o + b) | .and => some (o &&& b) | .or => some (o ||| b) | .xor => some (o ^^^ b)
  | .min => some (if o.toInt ≤ b.toInt then o else b) | .max => some (if o.toInt ≤ b.toInt then b else o)
  | .minu => some (if o.toNat ≤ b.toNat then o else b) | .maxu => some (if o.toNat ≤ b.toNat then b else o)
  | .swap => some b
  | .cas => if o = b then some d else none
  | .fadd => some ((fpAdd .f32 .rne (o.setWidth 64) (b.setWidth 64)).setWidth (8 * n))

end Sys2Proof.Claims

/-- R26, R94, R115, R126, R138, R151, R152, R245: what goes to a global line's home. A load that no cached copy serves asks the home and waits;
a store and an atomic whose d is x0 are posted under a tag, and the thread goes on; an atomic that writes d waits. At its issue each waits for an
entry of the send queue where none is free (the model's free value, log entry 15), and it does all this where one is, or once it has one. -/
def Obligations.RequestsToHomes : Prop :=
  ∀ s t th (d a b : Reg) (m : BitVec 10) (d4 e : BitVec 4) (m7 : BitVec 7) (w : Width),
    let asks := fun (i : Instr) (va : Word) (n pa : Nat) (l : LoadInto) => ∃ u th' rid x, exec i s = .next u ∧ u.thread? t = some th' ∧
      th'.wait = .load rid l ∧ Sent s u 100 (.homeLoad x .core) ∧ AccessIs x t th va pa n th.lts ∧ x.rid = rid ∧
      th'.pc = th.pc ∧ th'.x = th.x ∧ u.mem = s.mem ∧ SameShared s u ∧ SameOthers s u t
    (∀ f ∈ loadForms s th d a b m d4 m7, ∀ pa, GlobalAt s th f.va f.n pa false → Clear s t th (.global f.va pa) f.va f.n →
      NoCopy s th (pa / 128) → Gated s t th f.i (asks f.i f.va f.n pa { dst := .reg f.d, n := f.n, signed := f.signed, va := f.va })) ∧
    (let va := addrOf s th a m
     ∀ pa, GlobalAt s th va 8 pa false → Clear s t th (.global va pa) va 8 → NoCopy s th (pa / 128) →
      Gated s t th (.xld e a m) (asks (.xld e a m) va 8 pa { dst := .ext e, n := 8, signed := true, va := va })) ∧
    (∀ f ∈ storeForms s th d a b m d4 e m7, ∀ pa, GlobalAt s th f.va f.n pa true → Unaliased s t th (.global f.va pa) f.va f.n →
      Gated s t th f.i (∃ u th' op bs x, exec f.i s = .next u ∧ u.thread? t = some th' ∧ Sent s u 100 (.homeStore x op bs) ∧
        AccessIs x t th f.va pa f.n th.clock ∧ bs = (List.range f.n).map (fun j => f.v.extractLsb' (8 * j) 8) ∧ Tags s u t th th' f.va f.n op ∧
        (∀ c ∈ KMap.getD u.l1 (coreOf th.home) [], c.line ≠ pa / 128) ∧
        GoesOn th th' f.i.len ∧ SameRest th { th' with lastTag := th.lastTag } ∧ th'.x = th.x ∧
        u.mem = s.mem ∧ SameShared s u ∧ SameOthers s u t)) ∧
    (∀ f ∈ amoForms w d a b, ∀ pa, GlobalAt s th (s.readReg th a) f.2.2 pa true →
      Unaliased s t th (.global (s.readReg th a) pa) (s.readReg th a) f.2.2 →
      Gated s t th f.1 (∃ u th' op x, exec f.1 s = .next u ∧ u.thread? t = some th' ∧
        Sent s u 100 (.homeAtomic x op f.2.1 (s.readReg th b) (s.readReg th d)) ∧ AccessIs x t th (s.readReg th a) pa f.2.2 th.clock ∧
        Tags s u t th th' (s.readReg th a) f.2.2 op ∧ th'.x = th.x ∧
        (if d = .x 0 then GoesOn th th' 4 else th'.pc = th.pc ∧ th'.wait = .atomic x.rid d f.2.2 (f.2.1 = .fadd) th.lastTag) ∧
        u.mem = s.mem ∧ SameShared s u ∧ SameOthers s u t))

namespace Sys2Proof.Claims

/-- A request of an instruction to a stash that is not its own tile's, or to a peer device: the word, its address and bytes, what it asks of a
stash, what of a peer's global space (none: it may not lie there), what the thread waits for (none: it is posted), and whether it takes a tag. -/
structure Request where
  i      : Instr
  va     : Word
  n      : Nat
  what   : StashOp
  peer   : Option PeerOp
  wait   : Option (Nat → Wait)
  tagged : Bool

/-- Loads, among them those into extension registers (R93, R124, R245). -/
def loadRequests (s : State) (th : Thread) (d a b : Reg) (m : BitVec 10) (d4 e : BitVec 4) (m7 : BitVec 7) : List Request :=
  let load := fun (i : Instr) (l : LoadInto) =>
    ({ i := i, va := l.va, n := l.n, what := .load l.n, peer := some (.load l.n), wait := some (fun rid => .load rid l), tagged := false } : Request)
  load (.xld e a m) { dst := .ext e, n := 8, signed := true, va := addrOf s th a m } ::
    (loadForms s th d a b m d4 m7).map (fun f => load f.i { dst := .reg f.d, n := f.n, signed := f.signed, va := f.va })

/-- Stores, atomics, and the full-empty instructions (R94, R136, R182): those that wait for no answer are posted under a tag. -/
def writeRequests (s : State) (th : Thread) (d a b : Reg) (m : BitVec 10) (d4 e : BitVec 4) (m7 : BitVec 7) (w : Width) (q : BitVec 3) :
    List Request :=
  let va := addrOf s th a m
  let wa := s.readReg th a
  let posted := fun (i : Instr) (va : Word) (n : Nat) (what : StashOp) (peer : Option PeerOp) =>
    ({ i := i, va := va, n := n, what := what, peer := peer, wait := none, tagged := true } : Request)
  let waited := fun (i : Instr) (va : Word) (what : StashOp) (x : Nat → Wait) =>
    ({ i := i, va := va, n := 8, what := what, peer := none, wait := some x, tagged := false } : Request)
  (storeForms s th d a b m d4 e m7).map (fun f => posted f.i f.va f.n (.store f.n f.v) (some (.store f.n f.v))) ++
  (amoForms w d a b).map (fun f =>
    let op := StashOp.atomic f.2.2 f.2.1 (s.readReg th b) (s.readReg th d)
    ({ i := f.1, va := wa, n := f.2.2, what := op, peer := some (.atomic f.2.2 f.2.1 (s.readReg th b) (s.readReg th d))
       wait := if d = .x 0 then none else some (fun rid => .atomic rid d f.2.2 (f.2.1 = .fadd) th.lastTag), tagged := true } : Request)) ++
  [posted (.stf d a m) va 8 (.stf (s.readReg th d)) none, posted (.feset a m) va 8 .feset none, posted (.feclr a m) va 8 .feclr none,
   waited (.ldf d a m) va .ldf (fun rid => .fullEmpty rid (some d) va), waited (.ldfn d a q) wa .ldfn (fun rid => .feStatus rid (some d) q),
   waited (.stfn a b q) wa (.stfn (s.readReg th b)) (fun rid => .feStatus rid none q)]

/-- The request leaves as `carries` says, under its number and its operation's; the thread waits for its answer, or goes on. -/
def Asks (s : State) (t : Nat) (th : Thread) (r : Request) (carries : State → Nat → Nat → Prop) : Prop :=
  ∃ u th' rid op, exec r.i s = .next u ∧ u.thread? t = some th' ∧ carries u rid op ∧
    (match r.wait with
     | some w => th'.wait = w rid ∧ th'.pc = th.pc ∧ th'.issued = th.issued
     | none => rid = 0 ∧ GoesOn th th' r.i.len ∧ SameRest th { th' with lastTag := th.lastTag }) ∧
    (if r.tagged then Tags s u t th th' r.va r.n op else op = 0 ∧ th'.lastTag = th.lastTag ∧ u.tagged = s.tagged) ∧
    th'.x = th.x ∧ u.mem = s.mem ∧ SameShared s u ∧ SameOthers s u t

/-- A request to a tile of the party, to a peer's stash and to a peer's global space, for whichever of these its address names. `clear` says that
no other access of the thread stands in its way. -/
def AsksAway (s : State) (t : Nat) (th : Thread) (r : Request) (clear : Target → Prop) : Prop :=
  (∀ tile off, PartyAt s th r.va r.n tile off → clear (.party tile off) → Gated s t th r.i (Asks s t th r (fun u rid op =>
    ∃ q, Sent s u (s.tileDelay (tileOf th.home) tile) (.remoteStashAccess q) ∧ RequestIs q t th r.va tile off r.what ∧ q.rid = rid ∧ q.op = op))) ∧
  (∀ dev, PeerStashAt s th r.va r.n dev → clear (.peerStash dev) → Gated s t th r.i (Asks s t th r (fun u rid op =>
    AsksPeer s u t th r.va dev rid op (.stash r.what)))) ∧
  (∀ dev p, r.peer = some p → PeerAt s th r.va r.n dev → clear (.peer dev) → Gated s t th r.i (Asks s t th r (fun u rid op =>
    AsksPeer s u t th r.va dev rid op p)))

end Sys2Proof.Claims

/-- R26, R94, R99, R126, R129, R136, R155, R182, R185, R340: what goes to another tile's stash, to a peer's stash and to its global space:
loads wait for their answer, and so do atomics that write d, LDF, LDFN and STFN; stores, the other atomics, STF, FESET and FECLR are posted under a
tag. The send queue's entry is as for a home (log entry 15). Barrier objects lie in the own stash alone, and full-empty words in no global space. -/
def Obligations.RequestsToTiles : Prop :=
  ∀ s t th (d a b : Reg) (m : BitVec 10) (d4 e : BitVec 4) (m7 : BitVec 7) (w : Width) (q : BitVec 3),
    (∀ r ∈ loadRequests s th d a b m d4 e m7, AsksAway s t th r (fun x => Clear s t th x r.va r.n)) ∧
    (∀ r ∈ writeRequests s th d a b m d4 e m7 w q, AsksAway s t th r (fun x => Unaliased s t th x r.va r.n)) ∧
    (Issuing s t th → HasHandler th →
      (∀ r ∈ writeRequests s th d a b m d4 e m7 w q, r.peer = none → ∀ dev, PeerAt s th r.va 8 dev → Traps s t th r.i 4 3 (some r.va)) ∧
      (let va := s.readReg th a
       (∃ tile off, PartyAt s th va 32 tile off) ∨ (∃ dev, PeerAt s th va 32 dev ∨ PeerStashAt s th va 32 dev) →
        ∀ i ∈ [Instr.binit a b, .bexpect a b, .barrive a b, .bwait true a, .bwait false a, .btest d a], Traps s t th i 4 3 (some va)))

/-- R26, R111, R112, R125: LDC of the constant window takes the word from a copy of its line that the tile has read since the launch started, or
asks the home, as it does with no such copy; it takes no lease and leaves the clock. Which of these happens with copies cached is free (log entry
20): where the free value is true for the first of them the instruction completes with that copy's word, and else the others are tried. The entry
of the send queue that the request needs is free too (log entry 15). -/
def Obligations.ConstantReads : Prop :=
  ∀ s t th (d a : Reg) (m : BitVec 10),
    ∀ i n signed, (i, n, signed) ∈ [(Instr.ldcW d a m, 4, true), (.ldcWz d a m, 4, false), (.ldcD d a m, 8, true)] →
    let va := addrOf s th a m
    let w := s.constWindow th
    ∀ pa, GlobalAt s th va n pa false → w.1 ≤ va.toNat → va.toNat + n ≤ w.1 + w.2 →
    let began := ((s.launch? th.launch).map (fun x => x.startedAt)).getD 0
    let copies := (s.tile (tileOf th.home)).const.filter
      (fun c => c.line == pa / 128 && c.guest == th.guest && c.gen == (s.guest th.guest).gen && began ≤ c.rts.toNat)
    let asks := ∃ u th' x, exec i s = .next u ∧ u.thread? t = some th' ∧ th'.wait = .load x.rid { dst := .reg d, n := n, signed := signed, va := va } ∧
      Sent s u 100 (.homeLoad x .ldc) ∧ AccessIs x t th va pa n th.lts ∧ th'.pc = th.pc ∧ th'.x = th.x ∧
      th'.lts = th.lts ∧ u.mem = s.mem ∧ SameShared s u ∧ SameOthers s u t
    let value := fun (c : Copy) => widened n signed (natOfBytes ((c.data.drop (pa % 128)).take n))
    let sends := asks ∨ th.queued = false ∧ Waits s t th i (fun w => w = .sendQueue i)
    let reads := fun (c : Copy) => ∃ u th', exec i s = .next u ∧ u.thread? t = some th' ∧ u.readReg th' d = (if d = .x 0 then 0 else value c) ∧
      SameRegsBut s u th th' d ∧ GoesOn th th' 4 ∧ SameRest th th' ∧ SameSharedBut s u th d ∧ SameOthers s u t ∧ u.mem = s.mem
    let lands := fun (c : Copy) => ∃ u th', exec i s = .next u ∧ u.thread? t = some th' ∧ Lands s u th th' d (value c) ∧ GoesOn th th' 4 ∧
      th'.lts = th.lts ∧ SameShared s u ∧ SameOthers s u t ∧ u.mem = s.mem
    (copies = [] → Gated s t th i asks) ∧
    (∀ c cs, copies = c :: cs →
      (Issuing s t th → if Config.ldcOld s.fresh = true then reads c else sends ∨ ∃ x ∈ cs, reads x) ∧
      (Rejoining s t th → if Config.ldcOld s.fresh = true then lands c else sends ∨ ∃ x ∈ cs, lands x))

/-- R136, R137: an atomic on a resident word of the own stash is carried out in its issue cycle. -/
def Obligations.StashAtomics : Prop :=
  ∀ s t th (d a b : Reg) (w : Width), Issuing s t th → ∀ f ∈ amoForms w d a b, ∀ off l,
    let va := s.readReg th a
    let n := f.2.2
    let key := stashKey (tileOf th.home) off
    let o : BitVec (8 * n) := BitVec.ofNat (8 * n) (numberAt s key n)
    let new := amoValue f.2.1 n o ((s.readReg th b).setWidth (8 * n)) ((s.readReg th d).setWidth (8 * n))
    OwnAt s th va n off l → Clear s t th (.own off) va n → s.regionAt (l.line * 128) = none →
    ∃ u th', exec f.1 s = .next u ∧ u.thread? t = some th' ∧
      u.readReg th' d = (if d = .x 0 then 0 else if f.2.1 = .fadd then o.setWidth 64 else o.signExtend 64) ∧
      SameRegsBut s u th th' d ∧ SameSharedBut s u th d ∧
      (∀ v, new = some v → Stored s u key n (v.setWidth 64) ∧
        SameButStash s u (tileOf th.home) (off / 128) { l with dirty := true }) ∧
      (new = none → u.mem = s.mem ∧ u.stash = s.stash) ∧
      th'.lastTag = tagAfter th.lastTag ∧ th'.lts = later th.lts l.stamp ∧ GoesOn th th' 4 ∧
      SameRest th { th' with lastTag := th.lastTag, lts := th.lts, ltsSeen := th.ltsSeen } ∧ SameOthers s u t

namespace Sys2Proof.Claims

/-- Every gather reduction: how it widens an element of w bytes, and how it combines two. -/
def gredForms (w : Width) (d a b : Reg) : List (Instr × Nat × (Nat → Word) × (Word → Word → Word)) :=
  let n := (match w with | .w => 4 | .d => 8)
  let sx := fun (v : Nat) => (BitVec.ofNat (8 * n) v).signExtend 64
  let zx := fun (v : Nat) => BitVec.ofNat 64 v
  [(.gredAdd w d a b, n, sx, fun x y => x + y),
   (.gredMin w d a b, n, sx, fun x y => BitVec.ofInt 64 (min x.toInt y.toInt)),
   (.gredMax w d a b, n, sx, fun x y => BitVec.ofInt 64 (max x.toInt y.toInt)),
   (.gredMinu w d a b, n, zx, fun x y => BitVec.ofNat 64 (min x.toNat y.toNat)),
   (.gredMaxu w d a b, n, zx, fun x y => BitVec.ofNat 64 (max x.toNat y.toNat)),
   (.gredFadd d a b, 4, zx, fun x y => fpAdd .f32 .rne x y)]

/-- The value of a reduction over a list of elements (R140). -/
def reduced (widen : Nat → Word) (combine : Word → Word → Word) : List Nat → Word
  | [] => 0
  | e :: es => es.foldl (fun acc x => combine acc (widen x)) (widen e)

end Sys2Proof.Claims

/-- R140, R141: a gather reduction whose list and elements lie in local store completes in its issue cycle; a header outside 1 to 64
traps. -/
def Obligations.GatherResults : Prop :=
  ∀ s t th (d a b : Reg) (w : Width), Issuing s t th → s.outstanding t = [] → ∀ f ∈ gredForms w d a b, ∀ base list,
    s.readReg th a = localVa base → s.readReg th b = localVa list → base % f.2.1 = 0 → base < 512 → list % 8 = 0 → list + 8 ≤ 512 →
    let at_ := fun (off n : Nat) => numberAt s (localKey th.home off) n
    let n := at_ list 8
    let index := fun (j : Nat) => at_ (list + 8 + 4 * j) 4
    (1 ≤ n → n ≤ 64 → list + 8 + 4 * n ≤ 512 → (∀ j, j < n → base + index j * f.2.1 + f.2.1 ≤ 512) →
      ∃ u th', exec f.1 s = .next u ∧ u.thread? t = some th' ∧
        u.readReg th' d = (if d = .x 0 then 0 else
          reduced f.2.2.1 f.2.2.2 ((List.range n).map (fun j => at_ (base + index j * f.2.1) f.2.1))) ∧
        SameRegsBut s u th th' d ∧ GoesOn th th' 4 ∧ SameRest th th' ∧ SameSharedBut s u th d ∧ SameOthers s u t ∧
        SameDevice s { u with nextRid := s.nextRid }) ∧
    ((n = 0 ∨ 64 < n) → HasHandler th →
      ∃ u th', exec f.1 s = .next u ∧ u.thread? t = some th' ∧ InHandler th th' 2 0 none th.pc ∧ u.mem = s.mem ∧ SameOthers s u t)

/-- R130, R131, R132, R134: SMAP, SUNMAP and SWB on a block of the own stash whose bank and mask let the thread at it. -/
def Obligations.StashMapping : Prop :=
  ∀ s t th (d a b : Reg), Issuing s t th →
    let av := s.readReg th a
    let bv := s.readReg th b
    let tile := tileOf th.home
    ∀ off, av = ownVa off → off < 2 ^ 17 → KMap.get? (s.tile tile).banks (off / 4096) = some th.guest →
    th.stashm.getLsbD (off / 4096) = true →
    let busy := ∃ p ∈ (s.tile tile).park, p.off / 2048 = off / 2048
    let gone := fun (u : State) => ∀ j, j < 16 → u.stashLine? tile (off / 2048 * 16 + j) = none
    (off % 2048 = 0 → ∀ pa, GlobalAt s th bv 2048 pa true → (∀ j, j < 16 → (s.line (pa / 128 + j)).sum = none) →
      let twice := ∃ p ∈ (s.tile tile).map, p.1 ≠ off / 2048 ∧ p.2.va = bv ∧ s.bankGuest tile (p.1 * 2048) = th.guest
      let answers := fun (v : Word) (p : State → Thread → Prop) => ∃ u th', exec (.smap d a b) s = .next u ∧ u.thread? t = some th' ∧
        u.readReg th' d = (if d = .x 0 then 0 else v) ∧ SameRegsBut s u th th' d ∧ GoesOn th th' 4 ∧ SameSharedBut s u th d ∧
        SameOthers s u t ∧ u.mem = s.mem ∧ p u th'
      (busy → answers 3 (fun u th' => SameRest th th' ∧ u.stash = s.stash ∧ u.tiles = s.tiles ∧ u.agenda = s.agenda)) ∧
      (¬ busy → twice → answers 4 (fun u th' => SameRest th th' ∧ u.stash = s.stash ∧ u.tiles = s.tiles ∧ u.agenda = s.agenda)) ∧
      (¬ busy → ¬ twice → answers 0 (fun u th' => gone u ∧ th'.lastTag = tagAfter th.lastTag ∧
        SameRest th { th' with lastTag := th.lastTag } ∧
        KMap.get? (u.tile tile).map (off / 2048) = some { va := bv, pa := pa }))) ∧
    (off % 2048 = 0 →
      (busy → HasHandler th → Traps s t th (.sunmap a) 2 0 none) ∧
      (¬ busy → ∃ u th', exec (.sunmap a) s = .next u ∧ u.thread? t = some th' ∧ gone u ∧ th'.lastTag = tagAfter th.lastTag ∧
        th'.x = th.x ∧ GoesOn th th' 4 ∧ SameRest th { th' with lastTag := th.lastTag } ∧ SameShared s u ∧ SameOthers s u t ∧
        u.mem = s.mem ∧ (KMap.sorted (s.tile tile).map = true → KMap.get? (u.tile tile).map (off / 2048) = none))) ∧
    (bv = 0 → ∃ u th', exec (.swb a b) s = .next u ∧ u.thread? t = some th' ∧ th'.lastTag = tagAfter th.lastTag ∧ th'.x = th.x ∧
      GoesOn th th' 4 ∧ SameRest th { th' with lastTag := th.lastTag } ∧ SameShared s u ∧ SameOthers s u t ∧
      SameDevice s { u with nextOp := s.nextOp }) ∧
    (1 ≤ bv.toNat → off % 4096 + bv.toNat ≤ 4096 →
      ∃ u th', exec (.swb a b) s = .next u ∧ u.thread? t = some th' ∧ th'.lastTag = tagAfter th.lastTag ∧ th'.x = th.x ∧
        GoesOn th th' 4 ∧ SameRest th { th' with lastTag := th.lastTag } ∧ SameShared s u ∧ SameOthers s u t ∧ u.mem = s.mem ∧
        (∀ j, off / 128 ≤ j → j ≤ (off + bv.toNat - 1) / 128 →
          u.stashLine? tile j = (s.stashLine? tile j).map (fun l => { l with dirty := false })) ∧
        (∀ j, j < 1024 → (j < off / 128 ∨ (off + bv.toNat - 1) / 128 < j) → u.stashLine? tile j = s.stashLine? tile j))

/-- R133: SLOCK of a range of the global space whose every line lies in a page that the tile TLB holds, none of them under migration,
completes in its issue cycle with its status in d: with status 0 the guest holds every line of the range locked, and with another none has
been. With a translation missing it first waits for its walks. A range that leaves its space traps, and so does one of another space. -/
def Sys2Proof.Claims.Locking : Prop :=
  ∀ s t th (d a b : Reg), Issuing s t th →
    let av := s.readReg th a
    let n := (s.readReg th b).toNat
    let tile := tileOf th.home
    let die := s.dieOfTile tile
    let count := if n = 0 then 0 else (av.toNat + n - 1) / 128 + 1 - av.toNat / 128
    let pages := s.lockPages tile th.guest (av.toNat / 128) count
    let lines := linesOfPages pages
    let inTlb := count ≤ lines.length ∧ ∀ p ∈ pages, (s.tlbFind (s.tile tile).tlb 0 th.guest p.1.va).isSome = true
    let status := BitVec.ofNat 64 (s.lockStatus th die n count (lines.map (·.2)))
    av.toNat < 2 ^ 56 →
    (av.toNat + n ≤ 2 ^ 56 → inTlb →
      ∃ u th', exec (.slock d a b) s = .next u ∧ u.thread? t = some th' ∧
        u.readReg th' d = (if d = .x 0 then 0 else status) ∧ SameRegsBut s u th th' d ∧ GoesOn th th' 4 ∧ SameRest th th' ∧
        SameSharedBut s u th d ∧ SameOthers s u t ∧ SameDevice s { u with locks := s.locks, l2 := s.l2, fresh := s.fresh } ∧
        (status ≠ 0 → u.locks = s.locks ∧ u.l2 = s.l2) ∧
        (status = 0 → (∀ k ∈ s.locks, k ∈ u.locks) ∧
          ∀ l ∈ lines, ∃ k ∈ u.locks, k.die = die ∧ k.line = l.2 ∧ k.guest = th.guest)) ∧
    (av.toNat + n ≤ 2 ^ 56 → (∀ p ∈ pages, (s.lockPage tile th.guest p.1.va).isFrozen = false) → ¬ inTlb →
      Waits s t th (.slock d a b) (fun w => w = .slockWalk (.slock d a b))) ∧
    (2 ^ 56 < av.toNat + n → HasHandler th →
      Traps s t th (.slock d a b) 4 2 (some av) ∧ Traps s t th (.sunlock a b) 4 2 (some av)) ∧
    (HasHandler th → ∀ off, av = ownVa off → off < 2 ^ 17 →
      let detail := if off + n ≤ 2 ^ 17 then 3 else 2
      Traps s t th (.slock d a b) 4 detail (some av) ∧ Traps s t th (.sunlock a b) 4 detail (some av))

/-- R134: the statuses of SLOCK. Of those that apply the lowest is given: 1 where some set would hold more locked lines than it has ways
but one, 2 where the guest would hold more than LOCKQ lets it in a slice, 5 for more than 65,536 bytes, 6 where a line lies in no mapped
page. `known` are the lines that do. -/
def Sys2Proof.Claims.LockStatuses : Prop :=
  ∀ (s : State) (th : Thread) (die bytes count : Nat) (known : List Nat),
    let st := s.lockStatus th die bytes count known
    let slice := fun (l : Nat) => (l2Set l).1
    let lockq := fun (l : Nat) => ((s.tile (s.sliceTile die (slice l))).guest th.guest).gqos.lockq
    let new := fun (l : Nat) => l ∈ known ∧ ∀ k ∈ s.locks, ¬ (k.die = die ∧ k.line = l)
    let mine := fun (l : Nat) => l ∈ known ∧ ∀ k ∈ s.locks, ¬ (k.die = die ∧ k.line = l ∧ k.guest = th.guest)
    let inSet := fun (l : Nat) => (((s.locks.filter (fun k => k.die == die && l2Set k.line == l2Set l)).map (·.line) ++
      known.filter (fun m => l2Set m == l2Set l)).eraseDups).length
    let inSlice := fun (l : Nat) => (s.locks.filter (fun k => k.guest == th.guest && k.die == die && slice k.line == slice l)).length +
      ((known.filter (fun m => slice m == slice l && !s.locks.any (fun k => k.die == die && k.line == m && k.guest == th.guest))).eraseDups).length
    let floor := ∃ l, new l ∧ s.setWays die l ≤ inSet l
    let quota := ∃ l, mine l ∧ lockq l < inSlice l
    (floor → st = 1) ∧ (¬ floor → quota → st = 2) ∧
    (¬ floor → ¬ quota → st = (if 65536 < bytes then 5 else if known.length < count then 6 else 0))

/-- R133: SUNLOCK of a range of the global space unlocks the guest's locked lines of it, and no others. -/
def Sys2Proof.Claims.Unlocking : Prop :=
  ∀ s t th (a b : Reg), Issuing s t th →
    let av := s.readReg th a
    let n := (s.readReg th b).toNat
    av.toNat + n ≤ 2 ^ 56 → av.toNat < 2 ^ 56 →
    ∃ u th', exec (.sunlock a b) s = .next u ∧ u.thread? t = some th' ∧ th'.x = th.x ∧ GoesOn th th' 4 ∧ SameRest th th' ∧
      SameShared s u ∧ SameOthers s u t ∧ SameDevice s { u with locks := s.locks } ∧
      ∀ k, k ∈ u.locks ↔ k ∈ s.locks ∧ ¬ (k.guest = th.guest ∧ n ≠ 0 ∧ k.va < av.toNat + n ∧ av.toNat < k.va + 128)

/-- R133, R134: residency locks. -/
def Obligations.ResidencyLocks : Prop := Claims.Locking ∧ Claims.LockStatuses ∧ Claims.Unlocking

/-! ## Ordering -/

/-- R160, R175, R176: FENCE and WAITACK go on with nothing outstanding that they wait for, and wait otherwise. -/
def Obligations.FenceAndWaitack : Prop :=
  ∀ s t th (a : Reg) (c : Scope), Issuing s t th →
    let tag : BitVec 32 := (s.readReg th a).setWidth 32
    let awaited := fun (x : Tagged) => c = .convoy ∨ (c ≠ .slot ∧ s.isPeer x.va = false)
    ((∀ x ∈ s.outstanding t, ¬ awaited x) → FallsThrough s t th (.fence c)) ∧
    ((∃ x ∈ s.outstanding t, awaited x) → Waits s t th (.fence c) (fun w => w = .fence c)) ∧
    ((∀ x ∈ s.outstanding t, tag ≠ 0 ∧ x.tag ≠ tag) → FallsThrough s t th (.waitack a)) ∧
    ((∃ x ∈ s.outstanding t, tag = 0 ∨ x.tag = tag) → Waits s t th (.waitack a) (fun w => w = .ackTag tag))

/-- R177, R178: BIND's checks in their order, and the binding it records; UNBIND removes a binding of that object and base. -/
def Obligations.Bindings : Prop :=
  ∀ s t th (a b d : Reg), Issuing s t th →
    let obj := s.readReg th a
    let base := s.readReg th b
    let len := s.readReg th d
    let top := fun (n : Nat) => n / 2 ^ 56
    let last := base.toNat + len.toNat - 1
    let stash := fun (n : Nat) => top n = 0x80 ∨ top n = 0x81 ∨ 0xC0 ≤ top n
    let bad := len = 0 ∨ 2 ^ 36 < len.toNat ∨ 2 ^ 64 < base.toNat + len.toNat
    let known := ∃ x ∈ th.bindings, x.obj = obj ∧ x.base = base
    let whole := top base.toNat = top last ∧ (stash base.toNat → base.toNat / 2 ^ 17 = last / 2 ^ 17)
    (HasHandler th → obj.toNat % 8 ≠ 0 → Traps s t th (.bind a b d) 3 0 (some obj)) ∧
    (HasHandler th → obj.toNat % 8 = 0 → (bad ∨ (top base.toNat = 0 ∧ top last ≠ 0) ∨
      (stash base.toNat ∧ base.toNat / 2 ^ 17 ≠ last / 2 ^ 17)) → Traps s t th (.bind a b d) 2 0 none) ∧
    (HasHandler th → obj.toNat % 8 = 0 → 8 ≤ th.bindings.length → ¬ known → Traps s t th (.bind a b d) 2 0 none) ∧
    (obj.toNat % 8 = 0 → ¬ bad → whole → (known ∨ th.bindings.length < 8) → Becomes s t (.bind a b d) (fun th' =>
      { obj := obj, base := base, len := len } ∈ th'.bindings ∧
      (∀ x, ¬ (x.obj = obj ∧ x.base = base) → (x ∈ th'.bindings ↔ x ∈ th.bindings)) ∧
      (∀ x ∈ th'.bindings, x.obj = obj → x.base = base → x.len = len) ∧
      th'.x = th.x ∧ GoesOn th th' 4 ∧ SameRest th { th' with bindings := th.bindings })) ∧
    Becomes s t (.unbind a b) (fun th' => (∀ x, x ∈ th'.bindings ↔ x ∈ th.bindings ∧ ¬ (x.obj = obj ∧ x.base = base)) ∧
      th'.x = th.x ∧ GoesOn th th' 4 ∧ SameRest th { th' with bindings := th.bindings })

/-- R160, R179, R180, R181: REL and ACQ. Scope .slot does nothing; on an object in the own stash they complete in their issue cycle,
REL with X := max(X, lts); a global object's REL sends its publication, and its ACQ a read that takes no lease, and both wait, as they do
for an object in the party stash under a scope of .party or wider, and for a peer's under .convoy; a narrower scope traps. The send queue's entry
is the model's free value (log entry 15). -/
def Obligations.ReleaseAcquire : Prop :=
  ∀ s t th (a : Reg) (c : Scope),
    let obj := s.readReg th a
    let unbound := ∀ x ∈ s.outstanding t, (c = .convoy ∨ s.isPeer x.va = false) → ∀ y ∈ th.bindings, y.obj = obj →
      overlaps y.base.toNat y.len.toNat x.va.toNat x.len = false
    (Issuing s t th → FallsThrough s t th (.rel .slot a) ∧ FallsThrough s t th (.acq .slot a) ∧
    (HasHandler th → c ≠ .slot → obj.toNat % 8 ≠ 0 → Traps s t th (.rel c a) 3 0 (some obj) ∧ Traps s t th (.acq c a) 3 0 (some obj)) ∧
    (HasHandler th → c ≠ .slot → ∀ off, LocalAt obj 8 off → Traps s t th (.rel c a) 4 3 (some obj) ∧ Traps s t th (.acq c a) 4 3 (some obj)) ∧
    (∀ off l, c ≠ .slot → OwnAt s th obj 8 off l → s.regionAt (l.line * 128) = none →
      let x := BitVec.ofNat 64 (numberAt s (stashKey (tileOf th.home) off) 8)
      (unbound → ∃ u th', exec (.rel c a) s = .next u ∧ u.thread? t = some th' ∧
        Stored s u (stashKey (tileOf th.home) off) 8 (later x th.lts) ∧
        SameButStash s u (tileOf th.home) (off / 128) { l with dirty := true } ∧ th'.lts = later th.lts l.stamp ∧ th'.x = th.x ∧
        GoesOn th th' 4 ∧ SameRest th { th' with lts := th.lts, ltsSeen := th.ltsSeen } ∧ SameShared s u ∧ SameOthers s u t) ∧
      Becomes s t (.acq c a) (fun th' => th'.lts = later (later th.lts l.stamp) x ∧ th'.x = th.x ∧ GoesOn th th' 4 ∧
        SameRest th { th' with lts := th.lts, ltsSeen := th.ltsSeen })) ∧
    (HasHandler th → (∃ tile off, PartyAt s th obj 8 tile off ∧ (c = .core ∨ c = .tile)) ∨
        (∃ dev, (PeerAt s th obj 8 dev ∨ PeerStashAt s th obj 8 dev) ∧ c ≠ .slot ∧ c ≠ .convoy) →
      Traps s t th (.rel c a) 4 3 (some obj) ∧ Traps s t th (.acq c a) 4 3 (some obj))) ∧
    (∀ pa, c ≠ .slot →
      (unbound → GlobalAt s th obj 8 pa true → Gated s t th (.rel c a) (∃ u th' x, exec (.rel c a) s = .next u ∧ u.thread? t = some th' ∧
        Sent s u 100 (.publication x) ∧ AccessIs x t th obj pa 8 th.lts ∧ th'.wait = .relPub x.rid ∧ th'.pc = th.pc ∧ th'.x = th.x ∧
        u.mem = s.mem ∧ SameShared s u ∧ SameOthers s u t)) ∧
      (GlobalAt s th obj 8 pa false → Gated s t th (.acq c a) (∃ u th' x, exec (.acq c a) s = .next u ∧ u.thread? t = some th' ∧
        Sent s u 100 (.homeLoad x .acq) ∧ AccessIs x t th obj pa 8 th.lts ∧ th'.wait = .acq x.rid ∧ th'.pc = th.pc ∧ th'.x = th.x ∧
        u.mem = s.mem ∧ SameShared s u ∧ SameOthers s u t))) ∧
    (let object := fun (i : Instr) (what : StashOp) (w : Nat → Wait) =>
       ({ i := i, va := obj, n := 8, what := what, peer := some (.stash what), wait := some w, tagged := false } : Request)
     let fits := fun (x : Target) => match x with | .party _ _ => c = .party ∨ c = .dev ∨ c = .convoy | _ => c = .convoy
     AsksAway s t th (object (.rel c a) .publish .relPub) (fun x => fits x ∧ unbound) ∧
       AsksAway s t th (object (.acq c a) .acq .acq) fits)

/-! ## Full-empty words -/

namespace Sys2Proof.Claims

/-- A full-empty instruction is carried out at once: d holds v where there is one, the guard q where there is one, and the line is l. -/
def FeDone (s : State) (t : Nat) (th : Thread) (i : Instr) (d : Option (Reg × Word)) (q : Option (BitVec 3 × Guard)) (idx : Nat)
    (l : StashLine) (stored : State → Prop) : Prop :=
  ∃ u th', exec i s = .next u ∧ u.thread? t = some th' ∧
    (match d with
     | some (d, v) => u.readReg th' d = (if d = .x 0 then 0 else v) ∧ SameRegsBut s u th th' d ∧ SameSharedBut s u th d
     | none => th'.x = th.x ∧ SameShared s u) ∧
    (match q with | some (q, v) => th'.q = th.q.set q.toNat v | none => th'.q = th.q) ∧
    u.stashLine? (tileOf th.home) idx = some l ∧ stored u ∧ th'.lts = later th.lts l.stamp ∧ GoesOn th th' 4 ∧
    SameRest th { th' with lts := th.lts, ltsSeen := th.ltsSeen, q := th.q } ∧ SameOthers s u t ∧
    (u.tile (tileOf th.home)).park = (s.tile (tileOf th.home)).park ∧ u.lines = s.lines

/-- The request parks at the tile that holds the word, and the thread waits for it. -/
def FeParks (s : State) (t : Nat) (th : Thread) (i : Instr) (d : Option Reg) (va : Word) (off : Nat) (what : StashOp) : Prop :=
  ∃ u th' rid p, exec i s = .next u ∧ u.thread? t = some th' ∧ th'.wait = .fullEmpty rid d va ∧
    (u.tile (tileOf th.home)).park = (s.tile (tileOf th.home)).park ++ [p] ∧ p.off = off ∧ p.req.rid = rid ∧ p.req.what = what ∧
    p.req.who = .thread t ∧ th'.pc = th.pc ∧ th'.x = th.x ∧ u.mem = s.mem ∧ u.stash = s.stash ∧ SameShared s u ∧ SameOthers s u t

/-- The line with the bit of word i set or cleared, and dirty. -/
def filled (l : StashLine) (i : Nat) (stamp : Word) : StashLine := { l with dirty := true, fe := l.fe ||| (1 : BitVec 16) <<< i, stamp := stamp }
def emptied (l : StashLine) (i : Nat) : StashLine := { l with dirty := true, fe := l.fe &&& ~~~((1 : BitVec 16) <<< i) }

end Sys2Proof.Claims

/-- R182 to R185: the full-empty instructions on a resident word of the own stash, full or empty. That they take no tag there is the model's
reading (log entry 35). -/
def Obligations.FullEmptyOutcomes : Prop :=
  ∀ s t th (d a b : Reg) (m : BitVec 10) (q : BitVec 3) (off : Nat) (l : StashLine), Issuing s t th →
    let key := stashKey (tileOf th.home) off
    let word := BitVec.ofNat 64 (numberAt s key 8)
    let i := off % 128 / 8
    let idx := off / 128
    let full := l.fe.getLsbD i = true
    let same := fun (u : State) => u.mem = s.mem
    let set := filled l i (later l.stamp th.lts)
    let room := (s.tile (tileOf th.home)).park.length < 64
    s.regionAt (l.line * 128) = none →
    (OwnAt s th (addrOf s th a m) 8 off l → Clear s t th (.own off) (addrOf s th a m) 8 →
      (full → FeDone s t th (.ldf d a m) (some (d, word)) none idx (emptied l i) same) ∧
      (¬ full → room → FeParks s t th (.ldf d a m) (some d) (addrOf s th a m) off .ldf) ∧
      (full → room → FeParks s t th (.stf d a m) none (addrOf s th a m) off (.stf (s.readReg th d))) ∧
      (¬ full → FeDone s t th (.stf d a m) none none idx set (fun u => Stored s u key 8 (s.readReg th d))) ∧
      (full → FeDone s t th (.feclr a m) none none idx (emptied l i) same) ∧
      (¬ full → FeDone s t th (.feclr a m) none none idx l same) ∧
      (full → FeDone s t th (.feset a m) none none idx l same) ∧
      (¬ full → FeDone s t th (.feset a m) none none idx set same)) ∧
    (OwnAt s th (s.readReg th a) 8 off l → Clear s t th (.own off) (s.readReg th a) 8 →
      (full → FeDone s t th (.ldfn d a q) (some (d, word)) (some (q, .tt)) idx (emptied l i) same) ∧
      (¬ full → FeDone s t th (.ldfn d a q) none (some (q, .ff)) idx l same) ∧
      (full → FeDone s t th (.stfn a b q) none (some (q, .ff)) idx l same) ∧
      (¬ full → FeDone s t th (.stfn a b q) none (some (q, .tt)) idx set (fun u => Stored s u key 8 (s.readReg th b))))

/-! ## Monitors, sleep and guards -/

/-- R166, R191, R192: MON posts its arm request, which carries the clock of its issue, to the line's home or to the peer device, and drops what the
monitor held; a stash address is no place for one; MONCLR disarms one or all. The send queue's entry is the model's free value (log entry 15). -/
def Sys2Proof.Claims.MonitorArming : Prop :=
  ∀ s t th (a : Reg) (m : BitVec 2),
    let va := s.readReg th a
    let arms := fun (carries : State → Nat → Prop) => Gated s t th (.mon a m) (∃ u th' arm, exec (.mon a m) s = .next u ∧ u.thread? t = some th' ∧
      carries u arm ∧ (∀ j (h : j < 4), th'.mons[j] = if j = m.toNat then { arm := arm, signal := none } else th.mons[j]) ∧
      (∀ r, r ∈ u.arms ↔ r ∈ s.arms ∧ ¬ (r.tid = t ∧ r.m = m.toNat)) ∧ th'.usedShared = true ∧
      th'.x = th.x ∧ GoesOn th th' 4 ∧ SameRest th { th' with mons := th.mons } ∧ u.mem = s.mem ∧ SameShared s u ∧ SameOthers s u t)
    (∀ pa, GlobalAt s th va 1 pa false → arms (fun u arm => Sent s u 100 (.armRequest t m.toNat arm pa th.clock))) ∧
    (∀ dev, PeerAt s th va 1 dev → arms (fun u arm => AsksPeer s u t th va dev arm 0 (.arm m.toNat arm))) ∧
    (Issuing s t th → HasHandler th → (∃ off, va = ownVa off ∧ off + 1 ≤ 2 ^ 17) ∨ (∃ tile off, PartyAt s th va 1 tile off) ∨
      (∃ dev, PeerStashAt s th va 1 dev) → Traps s t th (.mon a m) 4 3 (some va)) ∧
    (Issuing s t th → ∀ l : Bool, ∃ u th', exec (.monclr l m) s = .next u ∧ u.thread? t = some th' ∧
      (∀ j (h : j < 4), th'.mons[j] = if l = true ∨ j = m.toNat then { arm := 0, signal := none } else th.mons[j]) ∧
      (∀ r, r ∈ u.arms ↔ r ∈ s.arms ∧ ¬ (r.tid = t ∧ (l = true ∨ r.m = m.toNat))) ∧ th'.x = th.x ∧ GoesOn th th' 4 ∧
      SameRest th { th' with mons := th.mons } ∧ SameShared s u ∧ SameOthers s u t ∧ SameDevice s { u with arms := s.arms })

/-- R193, R194, R195: MWAIT takes the signals held and says so in MONST, or waits, with its timeout if there is one, or traps with
nothing armed; SLEEP waits for its cycle. -/
def Sys2Proof.Claims.MonitorWaits : Prop :=
  ∀ s t th (a : Reg), Issuing s t th →
    let n := (s.readReg th a).toNat
    let held := fun (j : Nat) => ∃ h : j < 4, th.mons[j].arm ≠ 0 ∧ th.mons[j].signal.isSome = true
    let armed := ∃ j, ∃ h : j < 4, th.mons[j].arm ≠ 0
    ((∃ j, held j) → Becomes s t (.mwait a) (fun th' =>
      (∀ j (h : j < 4), th'.monst.getLsbD j = th.mons[j].signal.isSome) ∧ th'.monst.toNat / 16 = 1 ∧
      (∀ j (h : j < 4), th'.mons[j] = { th.mons[j] with signal := none }) ∧
      (∀ j (h : j < 4) w, th.mons[j].signal = some w → w ≤ th'.lts) ∧ th.lts ≤ th'.lts ∧
      th'.x = th.x ∧ GoesOn th th' 4 ∧ SameRest th { th' with mons := th.mons, monst := th.monst, lts := th.lts, ltsSeen := th.ltsSeen })) ∧
    ((∀ j, ¬ held j) → armed → n = 0 → Waits s t th (.mwait a) (fun w => w = .monitor none)) ∧
    ((∀ j, ¬ held j) → n ≠ 0 → Waits s t th (.mwait a) (fun w => w = .monitor (some (s.clk + n))) ∧
      ∃ u p, exec (.mwait a) s = .next u ∧ u.agenda = s.agenda ++ [p] ∧ p.due = s.clk + n ∧ p.work = .event (.mwaitTimeout t)) ∧
    (HasHandler th → ¬ armed → n = 0 → Traps s t th (.mwait a) 2 0 none) ∧
    (n = 0 → FallsThrough s t th (.sleep a)) ∧
    (n ≠ 0 → Waits s t th (.sleep a) (fun w => w = .sleep (s.clk + n)) ∧
      ∃ u p, exec (.sleep a) s = .next u ∧ u.agenda = s.agenda ++ [p] ∧ p.due = s.clk + n ∧ p.work = .event (.sleepExpiry t))

/-- R191 to R195: monitors and sleep. -/
def Obligations.MonitorOutcomes : Prop := Claims.MonitorArming ∧ Claims.MonitorWaits

/-- R196, R197: the guard instructions; QSET resolves, which issues or discards the commands held on the guard; QCLR does not. -/
def Obligations.GuardInstructions : Prop :=
  ∀ s t th (a d : Reg) (q : BitVec 3), Issuing s t th →
    let b := s.readReg th a ≠ 0
    let held := fun (c : Cmd) => c.tid = t ∧ c.held = some q
    (∃ u th', exec (.qset q a) s = .next u ∧ u.thread? t = some th' ∧ (b → th'.q = th.q.set q.toNat .tt) ∧ (¬ b → th'.q = th.q.set q.toNat .ff) ∧
      (∀ f ∈ [Tile.mqueue, Tile.cqueue], (∀ c ∈ f (u.tile (tileOf th.home)), ¬ held c) ∧
        (∀ c ∈ f (s.tile (tileOf th.home)), (held c → b → { c with held := none } ∈ f (u.tile (tileOf th.home))) ∧
          (¬ held c → c ∈ f (u.tile (tileOf th.home)))) ∧
        (¬ b → ∀ c ∈ f (u.tile (tileOf th.home)), c ∈ f (s.tile (tileOf th.home)))) ∧
      th'.x = th.x ∧ GoesOn th th' 4 ∧ SameRest th { th' with q := th.q } ∧ SameShared s u ∧ SameOthers s u t ∧
      SameDevice s { u with tiles := s.tiles }) ∧
    Becomes s t (.qclr q) (fun th' => th'.q = th.q.set q.toNat .unresolved ∧ th'.x = th.x ∧ GoesOn th th' 4 ∧ SameRest th { th' with q := th.q }) ∧
    Computes s t th (.qtest d q) d (match th.q[q.toNat] with | .tt => 1 | .ff => 0 | .unresolved => 2)

/-! ## Barrier objects -/

namespace Sys2Proof.Claims

/-- A barrier instruction is carried out: the object at the offset becomes o and the thread's record of it r; the rest of memory is
unchanged. -/
def BarDone (s : State) (t : Nat) (th : Thread) (i : Instr) (off : Nat) (o : BarObj) (r : BarrierRec) : Prop :=
  ∃ u th', exec i s = .next u ∧ u.thread? t = some th' ∧ u.barObj (tileOf th.home) off = some o ∧ th'.brec r.addr = some r ∧
    (∀ k, (k < stashKey (tileOf th.home) off ∨ stashKey (tileOf th.home) off + 32 ≤ k) → Memory.read u.mem k = Memory.read s.mem k) ∧
    th'.x = th.x ∧ GoesOn th th' 4 ∧ SameRest th { th' with brecs := th.brecs, lts := th.lts, ltsSeen := th.ltsSeen } ∧
    SameShared s u ∧ SameOthers s u t

/-- The object as a completed phase leaves it (R235). -/
def flipped (o : BarObj) : BarObj :=
  { due := 0, observed := 0, arrivals := 0, arrived := 0, phase := !o.phase, waiters := o.waiters, expected := 0 }

/-- A phase whose counts are met (R235). -/
def met (o : BarObj) : Prop := (o.waiters ≠ 0 ∨ o.expected ≠ 0) ∧ o.arrivals = o.waiters ∧ o.expected ≤ o.arrived

end Sys2Proof.Claims

/-- R234, R235, R255 to R257: the setting instructions on an object of the own stash at which no thread waits. -/
def Obligations.BarrierSetting : Prop :=
  ∀ s t th (a b : Reg) (off : Nat) (l : StashLine) (o : BarObj), Issuing s t th →
    let va := s.readReg th a
    let n := (s.readReg th b).toNat
    let tile := tileOf th.home
    OwnLine s th va 32 off l → s.barObj tile off = some o → s.barWaiters tile off = [] →
    let kept : BarrierRec := (match th.brec va with
      | some r => if r.p = o.phase then r else { addr := va, p := o.phase, arr := false, ref := false }
      | none => { addr := va, p := o.phase, arr := false, ref := false })
    let after := fun (i : Instr) (x : BarObj) (r : BarrierRec) =>
      (¬ met x → BarDone s t th i off x r) ∧ (met x → BarDone s t th i off (flipped x) r)
    (n ≤ 16 → BarDone s t th (.binit a b) off { o with waiters := n, observed := n, expected := 0, arrived := 0, arrivals := 0, due := 0 }
      { addr := va, p := o.phase, arr := false, ref := false }) ∧
    (16 < n → HasHandler th → Traps s t th (.binit a b) 2 0 none) ∧
    (o.expected + n < 2 ^ 48 → after (.bexpect a b) { o with expected := o.expected + n } kept) ∧
    (2 ^ 48 ≤ o.expected + n → HasHandler th → Traps s t th (.bexpect a b) 2 0 none) ∧
    (b ≠ .x 0 → after (.barrive a b) { o with arrived := min (o.arrived + n) (2 ^ 48 - 1) } kept) ∧
    (b = .x 0 →
      let again := ∃ r, th.brec va = some r ∧ r.p = o.phase ∧ r.arr = true
      ((o.waiters = 0 ∨ again) → HasHandler th → Traps s t th (.barrive a b) 2 0 none) ∧
      (o.waiters ≠ 0 → ¬ again → (o.observed < o.waiters ∨ o.arrivals = o.waiters) →
        BarDone s t th (.barrive a b) off o { addr := va, p := o.phase, arr := false, ref := true }) ∧
      (o.waiters ≠ 0 → ¬ again → o.waiters ≤ o.observed → o.arrivals ≠ o.waiters → o.arrivals < 31 →
        after (.barrive a b) { o with arrivals := o.arrivals + 1 } { addr := va, p := o.phase, arr := true, ref := false }))

/-- R258, R259: BWAIT completes once the phase differs from its record's, waits otherwise, and takes LATE past its deadline; BTEST
reads the state of both. In the cycle in which CLK first passes DUE, BWAIT.DL still waits at its issue, since a flip of that cycle wins, and the check
at the cycle's end decides (log entry 75); and BTEST raises the clock only where it reads a completed phase (log entry 40): both are the model's
readings. -/
def Obligations.BarrierWaiting : Prop :=
  ∀ s t th (d a : Reg) (dl : Bool) (off : Nat) (l : StashLine) (o : BarObj), Issuing s t th →
    let va := s.readReg th a
    let tile := tileOf th.home
    let late := o.due ≠ 0 ∧ o.due < s.clk
    let past := o.due ≠ 0 ∧ o.due + 1 < s.clk
    OwnLine s th va 32 off l → s.barObj tile off = some o →
    (th.brec va = none → HasHandler th → Traps s t th (.bwait dl a) 2 0 none) ∧
    (∀ r, th.brec va = some r → r.p ≠ o.phase →
      BarDone s t th (.bwait dl a) off (if r.arr then { o with observed := min (o.observed + 1) o.waiters } else o)
        { r with p := o.phase, arr := false }) ∧
    (∀ r, th.brec va = some r → r.p = o.phase → ¬ (dl = true ∧ past) → Waits s t th (.bwait dl a) (fun w => w = .barrier va dl)) ∧
    (∀ r, th.brec va = some r → r.p = o.phase → dl = true → past → HasHandler th → Traps s t th (.bwait dl a) 0x0A 0 (some va)) ∧
    (∃ u th' v, exec (.btest d a) s = .next u ∧ u.thread? t = some th' ∧ u.readReg th' d = (if d = .x 0 then 0 else v) ∧ v.toNat < 32 ∧
      (v.getLsbD 4 = true ↔ th.brec va = none) ∧ (v.getLsbD 3 = true ↔ ∃ r, th.brec va = some r ∧ r.ref = true) ∧
      (v.getLsbD 2 = true ↔ late) ∧ v.getLsbD 1 = o.phase ∧ (v.getLsbD 0 = true ↔ ∃ r, th.brec va = some r ∧ r.p ≠ o.phase) ∧
      th'.lts = (if v.getLsbD 0 then later th.lts (s.stampsAt tile off).completed else th.lts) ∧
      SameRegsBut s u th th' d ∧ GoesOn th th' 4 ∧ SameRest th { th' with lts := th.lts, ltsSeen := th.ltsSeen } ∧
      SameSharedBut s u th d ∧ SameOthers s u t ∧ SameDevice s u)

/-- R244, R245: XSET and XMOV move a word into and out of an extension register. -/
def Sys2Proof.Claims.ExtensionMoves : Prop :=
  ∀ s t th (d a : Reg) (e : BitVec 4), Issuing s t th →
    Becomes s t (.xset e a) (fun th' => th'.e = th.e.set e.toNat (s.readReg th a) ∧ th'.x = th.x ∧ GoesOn th th' 4 ∧ SameRest th { th' with e := th.e }) ∧
    Computes s t th (.xmov d e) d th.e[e.toNat]

/-- R54, R92, R244, R245: moves into a register that compute nothing from another. -/
def Obligations.MoveResults : Prop := Claims.UpperAndSelf ∧ Claims.ExtensionMoves

/-! ## Floating point, conversion and packed lanes -/

namespace Sys2Proof.Claims

/-- The rational number that a finite value is. -/
def ratOf : Machine.Num → ℚ
  | .fin neg m e => (if neg then -1 else 1) * (m : ℚ) * (2 : ℚ) ^ e
  | _ => 0

def finite : Machine.Num → Prop
  | .fin _ _ _ => True
  | _ => False

/-- The value of a register's low bits in a floating-point format (R206, R237). -/
def numOf (p : Fp) (w : Word) : Machine.Num := decodeNum (fpFmt p) w.toNat

/-- A NaN operand with its quiet bit, 22 or 9, set, and the upper bits of the register dropped (R239). -/
def quiet (p : Fp) (w : Word) : Word :=
  match p with
  | .f32 => (w &&& BitVec.ofNat 64 (2 ^ 32 - 1)) ||| BitVec.ofNat 64 (2 ^ 22)
  | .h16 => (w &&& BitVec.ofNat 64 (2 ^ 16 - 1)) ||| BitVec.ofNat 64 (2 ^ 9)

/-- The result of a floating-point function of a list of operands (R239): the first NaN among them, made quiet; else the quiet NaN where
the operation is invalid; else its value, rounded once. -/
def floatResult (p : Fp) (r : Rm) (ops : List Word) (v : Option Machine.Num) : Word :=
  match ops.find? (fun w => numOf p w == .nan) with
  | some w => quiet p w
  | none => match v with
    | some x => BitVec.ofNat 64 (encodeNum (fpFmt p) r x)
    | none => (match p with | .f32 => 0x7FC00000 | .h16 => 0x7E00)

/-- Where a float value stands: ordered by size, with −∞ and +∞ at the ends. -/
def lessNum (a b : Machine.Num) : Prop :=
  match a, b with
  | .inf s, .inf t => s = true ∧ t = false
  | .inf s, .fin _ _ _ => s = true
  | .fin _ _ _, .inf t => t = false
  | .fin _ _ _, .fin _ _ _ => ratOf a < ratOf b
  | _, _ => False
def sameNum (a b : Machine.Num) : Prop :=
  match a, b with
  | .inf s, .inf t => s = t
  | .fin _ _ _, .fin _ _ _ => ratOf a = ratOf b
  | _, _ => False

end Sys2Proof.Claims

/-- R237 to R240: the functions that round complete with the first NaN made quiet, the default NaN of an invalid operation, or the
exact value rounded once. -/
def Obligations.FloatResults : Prop :=
  ∀ s t th (p : Fp) (r : Rm) (d a b : Reg), Issuing s t th →
    let x := s.readReg th a
    let y := s.readReg th b
    let z := s.readReg th d
    let X := numOf p x
    let Y := numOf p y
    let Z := numOf p z
    let prod := numMul X Y
    Computes s t th (.fadd p r d a b) d (floatResult p r [x, y] (numAdd r X Y)) ∧
    Computes s t th (.fsub p r d a b) d (floatResult p r [x, y] (numAdd r X (numNeg Y))) ∧
    Computes s t th (.fmul p r d a b) d (floatResult p r [x, y] prod) ∧
    Computes s t th (.fdiv p r d a b) d (floatResult p r [x, y] (numDiv X Y)) ∧
    Computes s t th (.fsqrt p r d a) d (floatResult p r [x] (numSqrt X)) ∧
    Computes s t th (.fmadd p r d a b) d (floatResult p r [x, y, z] (prod.bind (fun v => numAdd r v Z))) ∧
    Computes s t th (.fmsub p r d a b) d (floatResult p r [x, y, z] (prod.bind (fun v => numAdd r v (numNeg Z)))) ∧
    Computes s t th (.fnmadd p r d a b) d (floatResult p r [x, y, z] (prod.bind (fun v => numAdd r (numNeg v) (numNeg Z)))) ∧
    Computes s t th (.fnmsub p r d a b) d (floatResult p r [x, y, z] (prod.bind (fun v => numAdd r (numNeg v) Z)))

/-- R238: the exact values behind those results, on finite operands. An exact zero sum of operands of opposite sign is +0, and −0 in
mode RDN; a quotient or root is within its last carried bit of the exact one, on the side that every mode rounds alike. -/
def Sys2Proof.Claims.ExactValues : Prop :=
  ∀ (r : Rm) (sa sb : Bool) (m k : Nat) (e g : Int),
    let x := Machine.Num.fin sa m e
    let y := Machine.Num.fin sb k g
    (∃ v, numAdd r x y = some v ∧ finite v ∧ ratOf v = ratOf x + ratOf y ∧
      (ratOf x + ratOf y = 0 → m ≠ 0 → v = .fin (r == .rdn) 0 0)) ∧
    (∃ v, numMul x y = some v ∧ finite v ∧ ratOf v = ratOf x * ratOf y ∧ ∀ h j i, v = .fin h j i → h = (sa != sb)) ∧
    (k ≠ 0 → ∃ n i, numDiv x y = some (.fin (sa != sb) n i) ∧
      (n % 2 = 0 → ratOf (.fin (sa != sb) n i) = ratOf x / ratOf y) ∧
      (n % 2 = 1 → |ratOf (.fin false (n - 1) i)| < |ratOf x / ratOf y| ∧ |ratOf x / ratOf y| < |ratOf (.fin false (n + 1) i)|)) ∧
    (k = 0 → m ≠ 0 → numDiv x y = some (.inf (sa != sb))) ∧ (k = 0 → m = 0 → numDiv x y = none) ∧
    (m = 0 → numSqrt x = some (.fin sa 0 0)) ∧ (m ≠ 0 → sa = true → numSqrt x = none) ∧
    (m ≠ 0 → m < 2 ^ 53 → sa = false → ∃ n i, numSqrt x = some (.fin false n i) ∧
      (n % 2 = 0 → ratOf (.fin false n i) ^ 2 = ratOf x) ∧
      (n % 2 = 1 → ratOf (.fin false (n - 1) i) ^ 2 < ratOf x ∧ ratOf x < ratOf (.fin false (n + 1) i) ^ 2))

/-- R205, R206: rounding into F32 and H16 by RDN, RUP and RTZ gives the nearest representable value on the side that the mode names. -/
def Sys2Proof.Claims.DirectedRounding : Prop :=
  ∀ (p : Fp) (neg : Bool) (m : Nat) (e : Int),
    let x := Machine.Num.fin neg m e
    let value := fun (r : Rm) => decodeNum (fpFmt p) (encodeNum (fpFmt p) r x)
    (finite (value .rdn) → ratOf (value .rdn) ≤ ratOf x ∧
      ∀ c, finite (decodeNum (fpFmt p) c) → ratOf (decodeNum (fpFmt p) c) ≤ ratOf x → ratOf (decodeNum (fpFmt p) c) ≤ ratOf (value .rdn)) ∧
    (finite (value .rup) → ratOf x ≤ ratOf (value .rup) ∧
      ∀ c, finite (decodeNum (fpFmt p) c) → ratOf x ≤ ratOf (decodeNum (fpFmt p) c) → ratOf (value .rup) ≤ ratOf (decodeNum (fpFmt p) c)) ∧
    finite (value .rtz) ∧ |ratOf (value .rtz)| ≤ |ratOf x| ∧
      ∀ c, finite (decodeNum (fpFmt p) c) → |ratOf (decodeNum (fpFmt p) c)| ≤ |ratOf x| → |ratOf (decodeNum (fpFmt p) c)| ≤ |ratOf (value .rtz)|

/-- R205, R206, R238: the values behind the floating-point results, and what rounding makes of them. -/
def Obligations.FloatValues : Prop := Claims.ExactValues ∧ Claims.DirectedRounding

/-- R238, R239: on all operands each comparison, minimum, maximum and class completes. FEQ, FLT and FLE write 1 where the relation holds
of the operands' values and 0 where it does not, as with a NaN. FMIN and FMAX write the low bits of the operand that they choose: the
smaller or the larger, of two equal ones the one with the sign, or without it, the other of a NaN, and of two NaNs a, made quiet. FCLASS
sets the one bit of its operand's class. -/
def Obligations.FloatComparisons : Prop :=
  ∀ s t th (p : Fp) (d a b : Reg), Issuing s t th →
    let x := s.readReg th a
    let y := s.readReg th b
    let X := numOf p x
    let Y := numOf p y
    let low := fun (w : Word) => BitVec.ofNat 64 (w.toNat % (match p with | .f32 => 2 ^ 32 | .h16 => 2 ^ 16))
    let sign := fun (w : Word) => w.getLsbD (match p with | .f32 => 31 | .h16 => 15)
    let exponent := x.toNat / (match p with | .f32 => 2 ^ 23 | .h16 => 2 ^ 10) % (match p with | .f32 => 2 ^ 8 | .h16 => 2 ^ 5)
    let quietBit := x.getLsbD (match p with | .f32 => 22 | .h16 => 9)
    (∃ v, Computes s t th (.feq p d a b) d v ∧ (sameNum X Y → v = 1) ∧ (¬ sameNum X Y → v = 0)) ∧
    (∃ v, Computes s t th (.flt p d a b) d v ∧ (lessNum X Y → v = 1) ∧ (¬ lessNum X Y → v = 0)) ∧
    (∃ v, Computes s t th (.fle p d a b) d v ∧ (lessNum X Y ∨ sameNum X Y → v = 1) ∧ (¬ (lessNum X Y ∨ sameNum X Y) → v = 0)) ∧
    (∃ v, Computes s t th (.fmin p d a b) d v ∧ (lessNum X Y → v = low x) ∧ (lessNum Y X → v = low y) ∧
      (sameNum X Y → v = if sign x then low x else low y) ∧ (X = .nan → Y ≠ .nan → v = low y) ∧ (X ≠ .nan → Y = .nan → v = low x) ∧
      (X = .nan → Y = .nan → v = quiet p x)) ∧
    (∃ v, Computes s t th (.fmax p d a b) d v ∧ (lessNum X Y → v = low y) ∧ (lessNum Y X → v = low x) ∧
      (sameNum X Y → v = if sign x then low y else low x) ∧ (X = .nan → Y ≠ .nan → v = low y) ∧ (X ≠ .nan → Y = .nan → v = low x) ∧
      (X = .nan → Y = .nan → v = quiet p x)) ∧
    (∃ k, k < 10 ∧ Computes s t th (.fclass p d a) d (BitVec.ofNat 64 (2 ^ k)) ∧
      (k = 0 ↔ X = .inf true) ∧ (k = 7 ↔ X = .inf false) ∧ ((k = 8 ∨ k = 9) ↔ X = .nan) ∧
      ((k = 1 ∨ k = 2) ↔ finite X ∧ ratOf X < 0) ∧ ((k = 5 ∨ k = 6) ↔ finite X ∧ 0 < ratOf X) ∧ ((k = 3 ∨ k = 4) ↔ finite X ∧ ratOf X = 0) ∧
      (k ∈ [1, 6] → exponent ≠ 0) ∧ (k ∈ [2, 5] → exponent = 0) ∧
      (k ∈ [0, 1, 2, 3] → sign x = true) ∧ (k ∈ [4, 5, 6, 7] → sign x = false) ∧ (k = 9 → quietBit = true) ∧ (k = 8 → quietBit = false))

namespace Sys2Proof.Claims

/-- What a NaN becomes (R212). -/
def nanCode : Fmt → Nat
  | .l4 => 0xC | .l6 => 0x30 | .l8 => 0xC0 | .l12 => 0xC00 | .f8n => 0x7F | .f8w => 0x7E | .h16 => 0x7E00 | .bf16 => 0x7FC0
  | .f32 => 0x7FC00000 | _ => 0

/-- A code as CVT writes it to d (R211): S formats sign-extended. -/
def codeValue (f : Fmt) (c : Nat) : Word :=
  match f with
  | .s4 => (BitVec.ofNat 4 c).signExtend 64 | .s8 => (BitVec.ofNat 8 c).signExtend 64 | .s16 => (BitVec.ofNat 16 c).signExtend 64
  | .s32 => (BitVec.ofNat 32 c).signExtend 64 | .s64 => BitVec.ofNat 64 c | _ => BitVec.ofNat 64 c

end Sys2Proof.Claims

/-- R211, R212, R243: CVT completes with a code of the destination; a NaN gives the code of R212, and a non-zero value that the
destination represents gives the code that represents it, in every mode. -/
def Obligations.ConversionResults : Prop :=
  ∀ s t th (dst src : Fmt) (r : Rm) (d a : Reg), Issuing s t th →
    let X := decodeNum src (s.readReg th a).toNat
    ∃ c, c < 2 ^ fmtBits dst ∧ Computes s t th (.cvt dst src r d a) d (codeValue dst c) ∧
      (X = .nan → c = nanCode dst) ∧
      (∀ k, k < 2 ^ fmtBits dst → finite X → ratOf X ≠ 0 → finite (decodeNum dst k) → ratOf (decodeNum dst k) = ratOf X → c = k)

namespace Sys2Proof.Claims

def laneWidth : Lanes → Nat
  | .b => 8 | .h => 16 | .w => 32 | .l6 => 6

/-- The instruction answers a next state in which each lane of d is f of the same lanes of a and b, and the bits above the lanes are 0. -/
def Lanewise (s : State) (t : Nat) (th : Thread) (i : Instr) (d a b : Reg) (l : Lanes)
    (f : BitVec (laneWidth l) → BitVec (laneWidth l) → BitVec (laneWidth l)) : Prop :=
  let w := laneWidth l
  ∃ v : Word, Computes s t th i d v ∧ (l = .l6 → v.toNat < 2 ^ 60) ∧
    ∀ j, w * (j + 1) ≤ 64 → v.extractLsb' (w * j) w = f ((s.readReg th a).extractLsb' (w * j) w) ((s.readReg th b).extractLsb' (w * j) w)

/-- An integer brought into the range of a lane, unsigned or signed. -/
def clampLane (u : Bool) (w : Nat) (i : Int) : Int :=
  if u then max 0 (min (2 ^ w - 1) i) else max (-(2 ^ (w - 1))) (min (2 ^ (w - 1) - 1) i)

/-- A lane as an integer. -/
def laneOf (u : Bool) {w : Nat} (x : BitVec w) : Int := if u then x.toNat else x.toInt

end Sys2Proof.Claims

/-- R241, R242: the packed instructions, lane by lane. For L6 lanes a NaN (0x30) makes a NaN, and equals nothing. -/
def Obligations.PackedResults : Prop :=
  ∀ s t th (d a b : Reg) (l : Lanes) (u : Bool), Issuing s t th →
    (l ≠ .l6 →
      Lanewise s t th (.padd l d a b) d a b l (fun x y => x + y) ∧
      Lanewise s t th (.psub l d a b) d a b l (fun x y => x - y) ∧
      Lanewise s t th (.padds u l d a b) d a b l (fun x y => BitVec.ofInt _ (clampLane u (laneWidth l) (laneOf u x + laneOf u y))) ∧
      Lanewise s t th (.psubs u l d a b) d a b l (fun x y => BitVec.ofInt _ (clampLane u (laneWidth l) (laneOf u x - laneOf u y))) ∧
      Lanewise s t th (.pmin u l d a b) d a b l (fun x y => if laneOf u x ≤ laneOf u y then x else y) ∧
      Lanewise s t th (.pmax u l d a b) d a b l (fun x y => if laneOf u x ≤ laneOf u y then y else x) ∧
      Lanewise s t th (.pmul l d a b) d a b l (fun x y => x * y) ∧
      Lanewise s t th (.pcmpeq l d a b) d a b l (fun x y => if x = y then BitVec.ofInt _ (-1) else 0) ∧
      Lanewise s t th (.pcmpgt u l d a b) d a b l (fun x y => if laneOf u y < laneOf u x then BitVec.ofInt _ (-1) else 0)) ∧
    (let nan : BitVec 6 := 0x30
     let num := fun (x : BitVec 6) => ratOf (decodeNum .l6 x.toNat)
     Lanewise s t th (.pmin false .l6 d a b) d a b .l6 (fun (x y : BitVec 6) => if x = nan ∨ y = nan then nan else if num x ≤ num y then x else y) ∧
     Lanewise s t th (.pmax false .l6 d a b) d a b .l6 (fun (x y : BitVec 6) => if x = nan ∨ y = nan then nan else if num x ≤ num y then y else x) ∧
     Lanewise s t th (.pcmpeq .l6 d a b) d a b .l6 (fun (x y : BitVec 6) => if x = y ∧ x ≠ nan then BitVec.ofInt 6 (-1) else 0) ∧
     ∃ f : BitVec 6 → BitVec 6 → BitVec 6, Lanewise s t th (.pmul .l6 d a b) d a b .l6 f ∧
       ∀ x y, (x = nan ∨ y = nan → f x y = nan) ∧ (x ≠ nan → y ≠ nan → (x = 0x10 ∨ y = 0x10) → f x y = 0x10) ∧
         (∀ z : BitVec 6, x ≠ nan → y ≠ nan → x ≠ 0x10 → y ≠ 0x10 → z ≠ nan → z ≠ 0x10 →
           (z.setWidth 5).toInt = (x.setWidth 5).toInt + (y.setWidth 5).toInt → z.getLsbD 5 = (x.getLsbD 5 != y.getLsbD 5) → f x y = z))

/-! ## Engine commands -/

namespace Sys2Proof.Claims

/-- What a command's guard says (R49, R197): an unguarded command is as one whose guard is true. -/
def guardOf (th : Thread) (g : Gd) : Guard := match g with | none => .tt | some q => th.q[q.toNat]

/-- A command that has passed its checks: a false guard discards it; else it enters its queue, held while the guard is unresolved, with
its thread's clock; a full queue makes the thread wait. -/
def Enters (s : State) (t : Nat) (th : Thread) (i : Instr) (g : Gd) (queue : Tile → List Cmd) (bound : Nat) (k : CmdKind) : Prop :=
  (guardOf th g = .ff → FallsThrough s t th i) ∧
  (guardOf th g ≠ .ff → bound ≤ (queue (s.tile (tileOf th.home))).length → Waits s t th i (fun w => w = .sendQueue i)) ∧
  (guardOf th g ≠ .ff → (queue (s.tile (tileOf th.home))).length < bound →
    ∃ u th' c, exec i s = .next u ∧ u.thread? t = some th' ∧
      queue (u.tile (tileOf th.home)) = queue (s.tile (tileOf th.home)) ++ [c] ∧ c.kind = k ∧ c.tid = t ∧ c.guest = th.guest ∧
      c.launch = th.launch ∧ c.clock = th.lts ∧ c.stashm = th.stashm ∧
      c.held = (if guardOf th g = .unresolved then g else none) ∧
      th'.x = th.x ∧ GoesOn th th' 4 ∧ SameRest th th' ∧ SameShared s u ∧ SameOthers s u t ∧
      SameDevice s { u with tiles := s.tiles, nextOp := s.nextOp })

/-- Bytes from lo up to hi lie in the global space or in the own stash (R99). -/
def Within (lo hi : Int) : Prop :=
  (0 ≤ lo ∧ hi ≤ 2 ^ 56) ∨ (0x80 * 2 ^ 56 ≤ lo ∧ hi ≤ 0x80 * 2 ^ 56 + 2 ^ 17)

end Sys2Proof.Claims

/-- R197, R222, R232, R247, R254: every matrix and copy command that passes its checks enters its queue under its guard. -/
def Sys2Proof.Claims.CommandEntry : Prop :=
  ∀ s t th (g : Gd) (l n : Bool) (f : Fmt) (a b : Reg), Issuing s t th →
    let av := s.readReg th a
    let bv := s.readReg th b
    let matrix := fun (i : Instr) (k : CmdKind) => Enters s t th i g Tile.mqueue 16 k
    matrix (.mma g f n l) (.mma f n l) ∧ matrix (.mclr g n) (.mclr n) ∧
    (∀ p q, av = ownVa p → bv = ownVa q → p % 32 = 0 → q % 32 = 0 → p < 2 ^ 17 → q < 2 ^ 17 →
      matrix (.mstagea g l a b) (.stageA l av bv)) ∧
    (av.toNat % 32 = 0 → bv.toNat % 32 = 0 →
      Within (min (av.toNat : Int) (av.toNat + 15 * bv.toInt)) (max (av.toNat : Int) (av.toNat + 15 * bv.toInt) + 96) →
      matrix (.mstageb g l a b) (.stageB l av bv)) ∧
    (av.toNat % 128 = 0 → Within av.toNat (av.toNat + 1024) → (topByte av = 0 → s.inWindow th av 1024 = false) →
      matrix (.mflush g n a) (.mflush n av)) ∧
    (av.toNat % 1024 = 0 → av.toNat < 2 ^ 56 → bv.toNat < 64 → matrix (.mflushSum g n a b) (.mflushSum n av bv.toNat)) ∧
    (let d := (th.copyDesc none).1
     (th.copyDesc none).2 = false → d.bytes ≤ 2 ^ 32 → d.misaligned = none → s.copyFault th d = none →
      Enters s t th (.cpy g) g Tile.cqueue 32 (.copy d)) ∧
    (let d := (th.copyDesc (some av)).1
     (th.copyDesc (some av)).2 = false → d.bytes ≤ 2 ^ 32 → d.misaligned = none → s.copyFault th d = none →
      Enters s t th (.cpyFill g a) g Tile.cqueue 32 (.copy d))

/-- R230, R232, R247: the first checks of the commands, which come before the guard; a reserved bit of the copy descriptor, a count
of dimensions outside 1 to 12, a misaligned operand, or an operand in local store. -/
def Sys2Proof.Claims.CommandChecks : Prop :=
  ∀ s t th (g : Gd) (l n : Bool) (a b : Reg), Issuing s t th → HasHandler th →
    let av := s.readReg th a
    let bv := s.readReg th b
    let ndim := th.e[14].toNat % 16
    (av.toNat % 32 ≠ 0 → Traps s t th (.mstagea g l a b) 3 0 (some av) ∧ Traps s t th (.mstageb g l a b) 3 0 (some av)) ∧
    (av.toNat % 32 = 0 → bv.toNat % 32 ≠ 0 →
      Traps s t th (.mstagea g l a b) 3 0 (some bv) ∧ Traps s t th (.mstageb g l a b) 3 0 (some bv)) ∧
    (av.toNat % 128 ≠ 0 → Traps s t th (.mflush g n a) 3 0 (some av)) ∧
    (av.toNat % 1024 ≠ 0 → Traps s t th (.mflushSum g n a b) 3 0 (some av)) ∧
    (av.toNat % 1024 = 0 → av.toNat < 2 ^ 56 → 64 ≤ bv.toNat → Traps s t th (.mflushSum g n a b) 2 0 none) ∧
    (∀ off, off < 512 → av = localVa off →
      (off % 128 = 0 → Traps s t th (.mflush g n a) 4 3 (some av)) ∧
      (off = 0 → Traps s t th (.mflushSum g n a b) 4 3 (some av)) ∧
      (off % 32 = 0 → bv.toNat % 32 = 0 → Traps s t th (.mstagea g l a b) 4 3 (some av))) ∧
    ((th.e[14].toNat / 256 ≠ 0 ∨ ndim = 0 ∨ 12 < ndim) →
      Traps s t th (.cpy g) 2 0 none ∧ Traps s t th (.cpyFill g a) 2 0 none)

/-- R252: ACCDECL's checks in their order, its guard, and the declaration that it sends; the thread waits until the home has applied it. That the
guard comes after all the checks, and the trap that an unresolved one takes, are the model's readings (log entry 31); the send queue's entry is its
free value (log entry 15). -/
def Obligations.DeclarationOutcomes : Prop :=
  ∀ s t th (g : Gd) (a b : Reg),
    let av := s.readReg th a
    let p := (s.readReg th b).toNat
    let i := Instr.accdecl g a b
    (Issuing s t th → (HasHandler th → av.toNat % 1024 ≠ 0 → Traps s t th i 3 0 (some av)) ∧
    (HasHandler th → ∀ off, av = ownVa off → off < 2 ^ 56 → off % 1024 = 0 → Traps s t th i 4 3 (some av)) ∧
    (HasHandler th → av.toNat % 1024 = 0 → av.toNat < 2 ^ 56 → (p = 0 ∨ 64 < p) → Traps s t th i 2 0 none)) ∧
    (∀ pa, 1 ≤ p → p ≤ 64 → GlobalAt s th av 1024 pa true → (∀ j, j < 8 → s.regionAt (pa + 128 * j) = none) →
      (Issuing s t th → guardOf th g = .ff → ∃ u th', exec i s = .next u ∧ u.thread? t = some th' ∧ th'.x = th.x ∧ GoesOn th th' 4 ∧ SameRest th th' ∧
        SameShared s u ∧ SameOthers s u t ∧ SameDevice s { u with utlb := s.utlb }) ∧
      (Issuing s t th → guardOf th g = .unresolved → HasHandler th → ∃ u th', exec i s = .next u ∧ u.thread? t = some th' ∧ InHandler th th' 2 0 none th.pc ∧
        SameOthers s u t ∧ u.mem = s.mem) ∧
      (guardOf th g = .tt → Gated s t th i (∃ u th' x, exec i s = .next u ∧ u.thread? t = some th' ∧
        Sent s u 100 (.declarationAtHome x p) ∧ AccessIs x t th av pa 1024 th.lts ∧ th'.wait = .declare x.rid ∧ th'.pc = th.pc ∧ th'.x = th.x ∧
        u.mem = s.mem ∧ SameShared s u ∧ SameOthers s u t)))

/-- R254: CPFREE counts the free entries of both queues. -/
def Sys2Proof.Claims.FreeEntries : Prop :=
  ∀ s t th (d : Reg), Issuing s t th →
    let x := s.tile (tileOf th.home)
    x.cqueue.length ≤ 32 → x.mqueue.length ≤ 16 →
    Computes s t th (.cpfree d) d (BitVec.ofNat 64 (32 - x.cqueue.length + 256 * (16 - x.mqueue.length)))

/-- R197, R222, R230, R232, R247, R254: engine commands at their issue. -/
def Obligations.CommandOutcomes : Prop := Claims.CommandEntry ∧ Claims.CommandChecks ∧ Claims.FreeEntries

/-! ## System registers -/

/-- R305 to R308, R310 to R314: MFS reads each register as it stood at the start of the issue cycle; one from 0x200 on only for a
privileged thread. What of the state stands for that start is the model's (log entry 29). -/
def Obligations.RegisterReads : Prop :=
  ∀ s t th (d : Reg), Issuing s t th →
    let reads := fun (r : SysReg) (v : Word) => Computes s t th (.mfs d r) d v
    let tile := tileOf th.home
    let g := KMap.getD s.seen.guests th.guest.toNat .none
    let c := (KMap.getD s.seen.tiles tile .init).guest th.guest
    reads .clk (BitVec.ofNat 64 s.clk) ∧ reads .wall s.seen.wall ∧ reads .chg g.chg ∧ reads .gen (g.gen.setWidth 64) ∧
    reads .self (BitVec.ofNat 64 (s.selfOf th)) ∧
    (∃ v : Word, reads .loads v ∧ ∀ j, j < 16 → v.toNat / 2 ^ (4 * j) % 16 = min 15 (KMap.getD s.seen.loads (tile * 16 + j) 0)) ∧
    reads .party (BitVec.ofNat 64 ((if s.seen.res then 2 ^ 31 else 0) + s.seen.pexp % 32 * 2 ^ 24 + g.len % 128)) ∧
    reads .lts th.ltsSeen ∧ reads .rfs (BitVec.ofNat 64 (th.depth % 2 ^ 16 * 2 ^ 16 + th.wsp)) ∧
    reads .stag (BitVec.ofNat 64 (min 65535 ((s.outstanding t).length + th.acked) * 2 ^ 32 + th.lastTag.toNat)) ∧
    reads .stashm (th.stashm.setWidth 64) ∧
    reads .tctl (BitVec.ofNat 64 ((if th.priv then 2 else 0) + (if th.trapz then 1 else 0))) ∧
    reads .epc th.epc ∧ reads .trapc th.trapc ∧ reads .taddr th.taddr ∧ reads .tvec th.tvec ∧ reads .monst th.monst ∧
    reads .feaddr th.feaddr ∧ reads .fedata th.fedata ∧ reads .efaddr th.efaddr ∧ reads .efinfo th.efinfo ∧
    reads .issued th.issued ∧ reads .waited th.waited ∧
    reads .fused c.fused ∧ reads .couriers c.couriers ∧ reads .fwdnotes c.fwdnotes ∧
    (th.priv = true → reads .xsel th.xsel ∧
      (match th.expert with
       | some x => ∃ v, reads .xdata v ∧ v = s.atStart.expertRead tile (blockDie (th.xsel.toNat / 2 ^ 28 % 16)) x
       | none => HasHandler th → Traps s t th (.mfs d .xdata) 2 0 none)) ∧
    (th.priv = false → HasHandler th → Traps s t th (.mfs d .xsel) 1 0 none ∧ Traps s t th (.mfs d .xdata) 1 0 none)

/-- R6, R109, R288, R306, R309, R311 to R314: MTS writes each register within its map; a reserved bit set leaves the register as it was. -/
def Obligations.RegisterWrites : Prop :=
  ∀ s t th (a : Reg), Issuing s t th →
    let v := s.readReg th a
    let ordinary := fun (r : SysReg) (p : Thread → Prop) => ∃ u th', exec (.mts r a) s = .next u ∧ u.thread? t = some th' ∧ p th' ∧
      th'.x = th.x ∧ GoesOn th th' 4 ∧ SameShared s u ∧ SameOthers s u t ∧ u.mem = s.mem
    ordinary .stashm (fun th' => th'.stashm = (if v.toNat < 2 ^ 32 then th.stashm &&& v.setWidth 32 else th.stashm) ∧
      SameRest th { th' with stashm := th.stashm }) ∧
    ordinary .tctl (fun th' => th'.trapz = (if v.toNat < 4 then v.getLsbD 0 else th.trapz) ∧ th'.priv = th.priv ∧
      SameRest th { th' with trapz := th.trapz }) ∧
    ordinary .epc (fun th' => th'.epc = v - (v &&& 1) ∧ SameRest th { th' with epc := th.epc }) ∧
    ordinary .tvec (fun th' => th'.tvec = v - (v &&& 1) ∧ SameRest th { th' with tvec := th.tvec }) ∧
    ordinary .trapc (fun th' => th'.trapc = (if v.toNat / 2 ^ 32 % 2 ^ 31 = 0 ∧ v.toNat / 2 ^ 8 % 2 ^ 8 = 0 then
        BitVec.ofNat 64 ((if th.active then 2 ^ 63 else 0) + v.toNat % 2 ^ 32) else th.trapc) ∧ SameRest th { th' with trapc := th.trapc }) ∧
    (th.priv = true →
      ordinary .waited (fun th' => th'.waited = v ∧ SameRest th { th' with waited := th.waited }) ∧
      (∃ u th', exec (.mts .issued a) s = .next u ∧ u.thread? t = some th' ∧ th'.issued = v ∧ th'.x = th.x ∧
        SameRest th { th' with issued := th.issued }) ∧
      (∀ r, ∀ f : TileGuest → Word, (r, f) ∈ [(SysReg.fused, TileGuest.fused), (.couriers, TileGuest.couriers), (.fwdnotes, TileGuest.fwdnotes)] →
        ∃ u th', exec (.mts r a) s = .next u ∧ u.thread? t = some th' ∧ f ((u.tile (tileOf th.home)).guest th.guest) = v ∧
          th'.x = th.x ∧ GoesOn th th' 4 ∧ SameRest th th') ∧
      (v.toNat < 2 ^ 32 → v.toNat / 2 ^ 16 % 2 ^ 12 = 0 → v.toNat / 2 ^ 28 ≤ 8 → ordinary .xsel (fun th' => th'.xsel = v)) ∧
      ((2 ^ 32 ≤ v.toNat ∨ v.toNat / 2 ^ 16 % 2 ^ 12 ≠ 0 ∨ 8 < v.toNat / 2 ^ 28 % 16) → HasHandler th → Traps s t th (.mts .xsel a) 2 0 none) ∧
      (let block := th.xsel.toNat / 2 ^ 28 % 16
       match th.expert with
       | some x =>
         (block = 0 → ∃ u th', exec (.mts .xdata a) s = .next u ∧ u.thread? t = some th' ∧ th'.x = th.x ∧ GoesOn th th' 4 ∧ SameRest th th' ∧
           u.lateExpert = s.lateExpert ++ [(coreOf th.home, 0, x, v)] ∧ SameShared s u ∧ SameOthers s u t ∧ u.mem = s.mem) ∧
         (block ≠ 0 → ∃ u th', exec (.mts .xdata a) s = .next u ∧ u.thread? t = some th' ∧ th'.wait = .xdata x (blockDie block) v ∧
           th'.x = th.x ∧ th'.pc = th.pc ∧ (∃ p ∈ u.agenda, p.work = .event (.xdataWrite t) ∧ p.due = s.clk + 100) ∧ SameOthers s u t ∧
           u.mem = s.mem)
       | none => HasHandler th → Traps s t th (.mts .xdata a) 2 0 none)) ∧
    (HasHandler th →
      (∀ r ∈ [SysReg.self, .loads, .party, .clk, .wall, .chg, .gen, .lts, .rfs, .stag, .taddr, .monst, .feaddr, .fedata, .efaddr, .efinfo],
        Traps s t th (.mts r a) 1 0 none) ∧
      (th.priv = false → ∀ r ∈ [SysReg.issued, .waited, .fused, .couriers, .fwdnotes, .xsel, .xdata], Traps s t th (.mts r a) 1 0 none))

/-! ## Traps, returns and the end of a thread -/

/-- R287, R288, R315: TRAP n takes the software trap at its own address, with DETAIL n. -/
def Sys2Proof.Claims.TrapInstruction : Prop :=
  ∀ s t th (i : BitVec 10), Issuing s t th → HasHandler th → Traps s t th (.trap i) 0x10 i.toNat none

/-- R291, R292: with TVEC 0, or in its handler, a thread that would trap ends instead, and its launch is faulted; a trap in a handler is
also recorded. -/
def Sys2Proof.Claims.TrapWithoutHandler : Prop :=
  ∀ s t th (i : BitVec 10), Issuing s t th → KMap.sorted s.threads = true → (th.tvec = 0 ∨ th.active = true) → EndsFaulted s t th (.trap i)

/-- R287, R288, R291, R292, R315: the software trap, with a handler and without one. -/
def Obligations.TrapOutcomes : Prop := Claims.TrapInstruction ∧ Claims.TrapWithoutHandler

/-- R316: ERET goes back to EPC and clears ACTIVE alone; outside a handler it traps; with a cancel pending it ends the thread. -/
def Sys2Proof.Claims.ReturnFromTrap : Prop :=
  ∀ s t th, Issuing s t th →
    (th.active = true → th.cancel = none → Becomes s t .eret (fun th' => th'.pc = th.epc ∧ th'.trapc.getLsbD 63 = false ∧
      th'.trapc = th.trapc - BitVec.ofNat 64 (2 ^ 63) ∧ th'.x = th.x ∧ th'.loops = th.loops ∧ th'.dist = th.dist ∧
      th'.issued = th.issued + 1 ∧ th'.wait = .none ∧ SameRest th { th' with trapc := th.trapc })) ∧
    (HasHandler th → Traps s t th .eret 2 0 none) ∧
    (∀ c, th.active = true → th.cancel = some c → KMap.sorted s.threads = true → ∃ u, exec .eret s = .next u ∧ Ended s u t th ∧
      ∀ x, s.launch? th.launch = some x → ∃ y, u.launch? th.launch = some y ∧ y.cancelled = true)

/-- R83, R317: HALT ends the thread; its posted stores and queued commands go on, and its launch is not faulted for it. -/
def Sys2Proof.Claims.HaltEnds : Prop :=
  ∀ s t th, Issuing s t th → KMap.sorted s.threads = true →
    ∃ u, exec .halt s = .next u ∧ Ended s u t th ∧ u.tagged = s.tagged ∧
      ∀ l x, s.launch? l = some x → u.launch? l = some x

/-- R83, R316, R317: ERET and HALT. -/
def Obligations.ReturnAndHalt : Prop := Claims.ReturnFromTrap ∧ Claims.HaltEnds

/-! ## Firmware's instructions and the convoy's -/

/-- R305, R306: without privilege, each of firmware's instructions is an illegal instruction, before any other check. -/
def Sys2Proof.Claims.Privilege : Prop :=
  ∀ s t th (a b : Reg), Issuing s t th → HasHandler th → th.priv = false →
    Traps s t th (.genbump a) 1 0 none ∧ Traps s t th (.tlbinv a b) 1 0 none ∧ Traps s t th .tlbinvall 1 0 none ∧
    Traps s t th (.cwb a) 1 0 none ∧ Traps s t th (.cinv a) 1 0 none

/-- R280, R318, R319, R320: what firmware's instructions do for a privileged thread: the new generation, by which the guest's shared
registers and its pages read as zero, the shoot-downs to every core concerned, the request to a line's home; the thread waits for the
acknowledgements. The exact delays, of which these rules only say what traces charge (log entry 2), that the wipe is made at the issue (log entry
36), and that GEN changes there (log entry 39) are the model's choices. -/
def Sys2Proof.Claims.FirmwareEffects : Prop :=
  ∀ s t th (a b : Reg), Issuing s t th → th.priv = true →
    let av := s.readReg th a
    let bv := s.readReg th b
    let waits := fun (i : Instr) (w : Wait) (p : State → Prop) => ∃ u th', exec i s = .next u ∧ u.thread? t = some th' ∧ th'.wait = w ∧
      th'.pc = th.pc ∧ th'.x = th.x ∧ SameOthers s u t ∧ p u
    let same := fun (u : State) => SameShared s u ∧ u.mem = s.mem
    let inPage := fun (g : BitVec 8) (pa : Nat) => ∃ p ∈ s.frames, p.2.v = true ∧ p.2.guest = g ∧ p.1 * 65536 ≤ pa ∧
      pa < p.1 * 65536 + 2 ^ pageBits p.2.size
    let due := fun (u : State) (n : Nat) (e : Event) => ∃ p ∈ u.agenda, p.due = s.clk + n ∧ p.work = .event e
    let busy := fun (g : BitVec 8) => (∃ p ∈ s.threads, p.2.guest = g) ∨
      ∃ p ∈ s.launches, p.2.rcd.guest = g ∧ (p.2.status = .running ∨ p.2.status = .waiting)
    (∀ g : BitVec 8, av.toNat = g.toNat → ¬ busy g →
      (s.genHeld g ((s.guest g).gen + 1) = false →
        waits (.genbump a) (.system 0) (fun u => (u.guest g).gen = (s.guest g).gen + 1 ∧ due u 2048 (.acknowledgementWait t none) ∧
          (∀ c k, u.kread c g k = 0) ∧ (∀ c g' k, g' ≠ g → u.kread c g' k = s.kread c g' k) ∧
          ∀ pa, pa < 2 ^ 39 → (inPage g pa → u.readMem pa 1 = [0]) ∧ (¬ inPage g pa → u.readMem pa 1 = s.readMem pa 1))) ∧
      (s.genHeld g ((s.guest g).gen + 1) = true →
        waits (.genbump a) (.genbump g) (fun u => u.guests = s.guests ∧ same u))) ∧
    (HasHandler th → (256 ≤ av.toNat ∨ busy (av.setWidth 8)) → Traps s t th (.genbump a) 2 0 none) ∧
    (HasHandler th → 256 ≤ bv.toNat → Traps s t th (.tlbinv a b) 2 0 none) ∧
    (HasHandler th → bv.toNat < 256 → topByte av ≠ 0 → Traps s t th (.tlbinv a b) 4 2 (some av)) ∧
    (bv.toNat < 256 → topByte av = 0 → (s.guest (bv.setWidth 8)).len ≠ 0 →
      waits (.tlbinv a b) (.system ((s.guest (bv.setWidth 8)).len * 1024)) (fun u => same u ∧
        ∀ l k c, l < (s.guest (bv.setWidth 8)).len → k < 64 → c < 16 →
          due u 100 (.tlbShootdown ((s.guest (bv.setWidth 8)).tile l k * 16 + c) (.page (bv.setWidth 8) av) t))) ∧
    waits .tlbinvall (.system 65536) (fun u => same u ∧ ∀ c, c < 65536 → due u 100 (.tlbShootdown c .all t)) ∧
    (av.toNat < 2 ^ 39 → ∀ drop, waits (if drop then .cinv a else .cwb a) (.llc (av.toNat / 128) drop) (fun u => same u ∧
      ∃ p ∈ u.agenda, s.clk + 100 ≤ p.due ∧ p.work = .event (.redirect (.llc (av.toNat / 128) t drop)))) ∧
    (HasHandler th → 2 ^ 39 ≤ av.toNat → Traps s t th (.cwb a) 4 2 (some av) ∧ Traps s t th (.cinv a) 4 2 (some av))

/-- R305, R306, R318, R319, R320: firmware's instructions, without privilege and with it. -/
def Obligations.FirmwareOutcomes : Prop := Claims.Privilege ∧ Claims.FirmwareEffects

/-- R346, R347, R348, R349: CVSTAT reads the convoy's status and clears the CHGLATE that it read; WAITWALL goes on once WALL has come;
CVARM refuses what is no timed launch record of the guest, and both front-desk instructions wait 200 cycles for their answer. That it is 200
cycles exactly (log entry 2), and that the status is read as at the start of the issue cycle (log entry 29), are the model's choices. -/
def Obligations.ConvoyInstructions : Prop :=
  ∀ s t th (d a : Reg), Issuing s t th →
    let w := s.readReg th a
    (∃ u th' v, exec (.cvstat d) s = .next u ∧ u.thread? t = some th' ∧ u.readReg th' d = (if d = .x 0 then 0 else v) ∧
      v.toNat / 2 ^ 40 % 2 ^ 6 = s.dev % 2 ^ 6 ∧ v.getLsbD 7 = s.seen.hold ∧ v.getLsbD 4 = s.seen.chglate ∧
      v.toNat / 2 ^ 48 = (match s.convoyOf th with | some c => c.toNat | none => 0) ∧
      (v.extractLsb' 16 16).toInt = max (-32767) (min 32767 s.seen.offset) ∧ v.toNat / 2 ^ 46 % 4 = 0 ∧
      u.chglate = (s.chglate && !s.seen.chglate) ∧ SameRegsBut s u th th' d ∧ GoesOn th th' 4 ∧ SameRest th th' ∧
      SameSharedBut s u th d ∧ SameOthers s u t ∧ SameDevice s { u with chglate := s.chglate }) ∧
    (w.toNat ≤ s.wall.toNat → FallsThrough s t th (.waitwall a)) ∧
    (s.wall.toNat < w.toNat → Waits s t th (.waitwall a) (fun x => x = .wall w)) ∧
    (∀ pa, GlobalAt s th w 64 pa false → Clear s t th (.global w pa) w 64 → s.deadDies = [] → s.errorAt (pa / 128) th.guest = none →
      let b := s.cohRead pa 64
      let r := Record.ofBytes b
      let ok := s.recordFault b th.guest = none ∧ r.kind = 0 ∧ r.timed = true ∧ r.guest = th.guest ∧ s.armLimit th.guest = false
      let answered := fun (i : Instr) (add : Bool) => ∃ u th', exec i s = .next u ∧ u.thread? t = some th' ∧ th'.wait = .arm ∧ th'.pc = th.pc ∧
        th'.x = th.x ∧ SameOthers s u t ∧ u.mem = s.mem ∧
        ∃ p ∈ u.agenda, p.due = s.clk + 200 ∧ p.work = .event (.acknowledgementWait t (some (r, add)))
      (ok → answered (.cvarm a) true) ∧ answered (.cvdisarm a) false ∧
      (¬ ok → HasHandler th → ∃ u th', exec (.cvarm a) s = .next u ∧ u.thread? t = some th' ∧ InHandler th th' 2 0 none th.pc ∧
        SameOthers s u t ∧ u.mem = s.mem))

/-! ## Events of the device -/

namespace Sys2Proof.Claims

/-- Event e, with its operands, is carried out in s: it answers a next state that meets p. -/
def Runs (s : State) (e : Event) (p : State → Prop) : Prop := ∃ u, exec e.instr { s with event := some e } = .next u ∧ p u

/-- The same, of thread t, as th before and as th' after. -/
def RunsOn (s : State) (t : Nat) (e : Event) (p : State → Thread → Prop) : Prop :=
  Runs s e (fun u => ∃ th', u.thread? t = some th' ∧ p u th')

/-- A step has been put on the agenda, no earlier than `delay` cycles from now due, that carries out e. -/
def Emits (s u : State) (delay : Nat) (e : Event) : Prop := ∃ p ∈ u.agenda, p.work = .event e ∧ s.clk + delay ≤ p.due

/-- The waiting instruction of thread t is carried out in this cycle (R26). -/
def Resumes (u : State) (t : Nat) (th' : Thread) (i : Instr) : Prop :=
  th'.wait = .none ∧ th'.replay = true ∧ ∃ p ∈ u.agenda, p.work = .word i ∧ p.cur = t

/-- The thread's waiting instruction has completed: it goes on to the next word. -/
def Done (th th' : Thread) : Prop := GoesOn th th' th.ilen

/-- Nothing of the machine has changed but thread t, and what `f` puts back. -/
def OnlyThread (s u : State) (t : Nat) : Prop := SameOthers s u t ∧ { u with threads := s.threads, event := s.event } = s

end Sys2Proof.Claims

/-- R26, R48, R78, R79, R118, R141, R193 to R195, R309, R314, R347: the events that end the waits of threads. An event finds its thread
waiting for it. -/
def Sys2Proof.Claims.WaitEvents : Prop :=
  ∀ s t th, s.thread? t = some th →
    (∀ r, th.transit = some r → r.done < 15 → RunsOn s t (.frameSpill t) (fun u th' =>
      th' = { th with transit := some { r with done := r.done + 1 } } ∧
      Stored s u (r.base + 8 * r.done) 8 (r.regs[r.done % 16]'(Nat.mod_lt _ (by decide))) ∧ SameOthers s u t)) ∧
    (∀ r, th.transit = some r → r.done = 15 → th.wait ≠ .transit → RunsOn s t (.frameSpill t) (fun u th' =>
      th' = { th with transit := none } ∧ Stored s u (r.base + 120) 8 r.regs[15] ∧ SameOthers s u t)) ∧
    (∀ r, th.transit = some r → r.done = 15 → th.wait = .transit → RunsOn s t (.frameSpill t) (fun u th' =>
      FrameIs th th' (fun _ => 0) ∧ th'.depth = th.depth + 1 ∧ Stored s u (r.base + 120) 8 r.regs[15] ∧ Done th th')) ∧
    (th.wait = .frameFilling → RunsOn s t (.frameFill t) (fun u th' =>
      FrameIs th th' (fun j => BitVec.ofNat 64 (numberAt s (localKey th.home (th.wsp + 8 * j)) 8)) ∧ th'.depth = th.depth ∧ Done th th' ∧
      OnlyThread s u t)) ∧
    (∀ g v, th.wait = .gather g → g.next = .result v → RunsOn s t (.gatherReductionComplete t) (fun u th' =>
      Lands s u th th' g.d v ∧ Done th th' ∧ SameOthers s u t ∧ u.mem = s.mem)) ∧
    (∀ d, th.wait = .monitor (some d) → d ≤ s.clk → RunsOn s t (.mwaitTimeout t) (fun u th' =>
      th'.monst.getLsbD 5 = true ∧ th'.x = th.x ∧ Done th th' ∧ OnlyThread s u t)) ∧
    (∀ d, th.wait = .monitor d → RunsOn s t (.interrupt t) (fun u th' =>
      th'.monst.getLsbD 6 = true ∧ th'.x = th.x ∧ Done th th' ∧ OnlyThread s u t)) ∧
    (∀ d, th.wait = .sleep d → d ≤ s.clk → RunsOn s t (.sleepExpiry t) (fun u th' =>
      th'.x = th.x ∧ Done th th' ∧ SameRest th th' ∧ OnlyThread s u t)) ∧
    (∀ w, th.wait = .wall w → w ≤ s.wall → th.stopped = false → RunsOn s t (.wallReached t) (fun u th' =>
      th'.x = th.x ∧ Done th th' ∧ SameRest th th' ∧ OnlyThread s u t)) ∧
    (∀ r die v, th.wait = .xdata r die v → RunsOn s t (.xdataWrite t) (fun u th' =>
      th' = th ∧ Emits s u 100 (.acknowledgementWait t none) ∧ SameOthers s u t ∧
      { u with agenda := s.agenda, seq := s.seq, event := s.event } = s.expertNow (tileOf th.home) die r v)) ∧
    (∀ i, th.wait = .sendQueue i → RunsOn s t (.sendQueueFree t) (fun u th' =>
      th'.queued = true ∧ th'.pc = th.pc ∧ th'.x = th.x ∧ Resumes u t th' i ∧ SameOthers s u t ∧ u.mem = s.mem)) ∧
    (∀ i va e, th.wait = .tlb i va → s.tlbFind (s.tile (tileOf th.home)).tlb 0 th.guest (va.toNat % 2 ^ 56) = some e →
      RunsOn s t (.translationInstalled t) (fun u th' => th'.pc = th.pc ∧ th'.x = th.x ∧ Resumes u t th' i ∧ SameOthers s u t ∧ u.mem = s.mem)) ∧
    (∀ i va, th.wait = .tlb i va → s.tlbFind (s.tile (tileOf th.home)).tlb 0 th.guest (va.toNat % 2 ^ 56) = none →
      s.walk th.guest (va.toNat % 2 ^ 56) = .none → RunsOn s t (.translationInstalled t) (fun u th' =>
        th'.wait = .fault va ∧ th'.pc = th.pc ∧ th'.x = th.x ∧ OnlyThread s u t)) ∧
    (∀ i, th.wait = .slockWalk i → RunsOn s t (.translationInstalled t) (fun u th' =>
      th'.pc = th.pc ∧ th'.x = th.x ∧ Resumes u t th' i ∧ SameOthers s u t ∧ u.mem = s.mem)) ∧
    (∀ va, th.wait = .fetchTlb va →
      (∀ e, s.tilePage (tileOf th.home) th.guest (va.toNat % 2 ^ 56) = .page e → RunsOn s t (.translationInstalled t) (fun u th' =>
        th'.wait = .none ∧ th'.replay = false ∧ th'.pc = th.pc ∧ th'.x = th.x ∧ SameRest th th' ∧ SameOthers s u t ∧ u.mem = s.mem)) ∧
      (s.tilePage (tileOf th.home) th.guest (va.toNat % 2 ^ 56) = .none → th.dist ≤ s.distOf th →
        RunsOn s t (.translationInstalled t) (fun u th' => th'.wait = .fault va ∧ th'.pc = th.pc ∧ th'.x = th.x ∧ OnlyThread s u t)) ∧
      (s.tilePage (tileOf th.home) th.guest (va.toNat % 2 ^ 56) = .none → s.distOf th < th.dist → HasHandler th →
        RunsOn s t (.translationInstalled t) (fun u th' => InHandler th th' 0x0C 0 none th.pc ∧ SameOthers s u t ∧ u.mem = s.mem)))

/-- R26, R32, R38, R56, R87, R166, R191, R258, R293, R295, R318, R320, R349: the other events of threads and cores. -/
def Sys2Proof.Claims.ThreadEvents : Prop :=
  (∀ s t th, Issuing s t th → HasHandler th →
    Traps s t th .distanceOverrun 0x0C 0 none ∧ Traps s t th .unassignedEncoding 1 0 none) ∧
  ∀ s t th, s.thread? t = some th →
    (∀ a o, th.wait = .barrier a true → s.resident (tileOf th.home) (a.toNat % 2 ^ 17) ≠ none → (s.tile (tileOf th.home)).fillWait = [] →
      s.barObj (tileOf th.home) (a.toNat % 2 ^ 17) = some o → o.due ≠ 0 → o.due < s.clk → HasHandler th →
      RunsOn s t (.deadlineLate t) (fun u th' => InHandler th th' 0x0A 0 (some a) th.pc ∧ SameOthers s u t ∧ u.mem = s.mem)) ∧
    (∀ m arm pa clock, s.armStands t m arm = true → s.frozen (pa / 128) = false → s.deadDies.contains (homeDie pa) = false → Runs s (.armRequest t m arm pa clock) (fun u =>
      let w := (s.line (pa / 128)).wts
      let signal := Emits s u 100 (.monitorSignal t m arm w)
      (signal ∨ { tid := t, m := m, arm := arm, line := pa / 128, peer := none } ∈ u.arms) ∧ (clock < w → signal) ∧
      (∀ r, ¬ (r.tid = t ∧ r.m = m) → (r ∈ u.arms ↔ r ∈ s.arms)) ∧ u.threads = s.threads ∧ u.mem = s.mem)) ∧
    (∀ m arm w (h : m < 4), th.halted = false → th.mons[m].arm = arm → arm ≠ 0 →
      ((∀ d, th.wait ≠ .monitor d) → RunsOn s t (.monitorSignal t m arm w) (fun u th' =>
        th'.mons[m].signal = some (match th.mons[m].signal with | some v => later v w | none => w) ∧ th'.pc = th.pc ∧ th'.x = th.x ∧
        th'.lts = th.lts ∧ OnlyThread s u t)) ∧
      (∀ d, th.wait = .monitor d → RunsOn s t (.monitorSignal t m arm w) (fun u th' =>
        th'.monst.getLsbD m = true ∧ w ≤ th'.lts ∧ th'.mons[m].signal = none ∧ th'.x = th.x ∧ Done th th' ∧ OnlyThread s u t))) ∧
    (∀ m arm w (h : m < 4), th.mons[m].arm ≠ arm → Runs s (.monitorSignal t m arm w) (fun u => { u with event := s.event } = s)) ∧
    (∀ core g k q c closing phase, KMap.sorted s.threads = true → coreOf th.home = core → th.guest = g → th.wait = .rdv k q phase c →
      RunsOn s t (.rdvPhaseCompletion core g k closing phase) (fun u th' =>
        th'.q = th.q.set q.toNat .tt ∧ c ≤ th'.lts ∧ th'.pendClear = some k ∧ th'.x = th.x ∧ Done th th' ∧ u.mem = s.mem)) ∧
    (∀ va, th.wait = .fault va → (∀ p ∈ s.tiles, p.2.fillWait = []) →
      (HasHandler th → RunsOn s t (.faultServiceEnd t none none) (fun u th' => InHandler th th' 5 0 (some va) th.pc ∧ SameOthers s u t ∧ u.mem = s.mem)) ∧
      (∀ f e, RunsOn s t (.faultServiceEnd t none (some { frames := [(f, e)], anchors := [] })) (fun u th' =>
        th'.wait = .none ∧ th'.pc = th.pc ∧ th'.x = th.x ∧ u.frames = KMap.set s.frames f e ∧ SameOthers s u t ∧
        (s.tables = [] → u.mem = s.mem)))) ∧
    ((th.wait = .system 0 ∨ (∃ l drop, th.wait = .llc l drop) ∨ (∃ r die v, th.wait = .xdata r die v)) →
      RunsOn s t (.acknowledgementWait t none) (fun u th' => th'.x = th.x ∧ Done th th' ∧ SameRest th th' ∧ OnlyThread s u t)) ∧
    (∀ l drop, s.deadDies.contains (homeDie (l * 128)) = false → s.holding l = false → (s.line l).holder = none →
      RunsOn s t (.redirect (.llc l t drop)) (fun u th' => (u.line l).dirty = false ∧
        (u.line l).inLlc = (if drop then false else (s.line l).inLlc) ∧ (u.line l).llc = (if drop then none else (s.line l).llc) ∧
        Emits s u 100 (.acknowledgementWait t none) ∧ th' = th ∧ u.mem = s.mem)) ∧
    (∀ tile slot, (∀ p ∈ s.threads, p.2.ready = false) → (s.tile tile).courierDue s.clk 0 = true → s.courierFrom (tile * 16) = some (t, slot) →
      RunsOn s t (.courierSend tile) (fun u th' => th' = { th with place := none, home := slot, wait := .courier, waitWid := th.waitWid + 1 } ∧
        (u.tile tile).lastCourier = some s.clk ∧ ((u.tile tile).guest th.guest).couriers = ((s.tile tile).guest th.guest).couriers + 1 ∧
        (∃ p ∈ u.agenda, p.work = .event (.courierArrival t slot) ∧ p.due ≤ s.clk + 64) ∧ SameOthers s u t)) ∧
    (∀ slot, th.wait = .courier → RunsOn s t (.courierArrival t slot) (fun u th' =>
      th'.place = (if (s.setThread t { th.rejoin with home := slot }).mayEnter slot th.guest then some slot else none) ∧ th'.home = slot ∧
      th'.wait = .none ∧ th'.pc = th.pc ∧ th'.x = th.x ∧ OnlyThread s u t)) ∧
    (∀ rid d va c, th.wait = .fullEmpty rid d va → th.cancel = some c → HasHandler th →
      (∃ p ∈ s.tiles, ∃ x ∈ p.2.park, reqOf x.req t rid = true) →
      RunsOn s t (.withdrawal t) (fun u th' => InHandler { th with cancel := none } th' 0x0D c none th.pc ∧
        (∀ p ∈ u.tiles, ∀ x ∈ p.2.park, reqOf x.req t rid = false) ∧ SameOthers s u t ∧ u.mem = s.mem))

/-- R26, R32, R38, R48, R56, R78, R79, R87, R118, R141, R166, R191 to R195, R258, R293, R295, R309, R314, R318, R320, R347, R349: the
events of threads and cores. The operands of the events are the model's own
(log entry 3). -/
def Obligations.ThreadEvents : Prop := Claims.WaitEvents ∧ Claims.ThreadEvents

namespace Sys2Proof.Claims

/-- No entry of an inverted table lies in the line, whose reserved bits read as zero whatever is stored (R119). -/
def NoTable (s : State) (line : Nat) : Prop := ∀ k, k / 128 = line → s.tableEntry k = none ∧ s.tableAnchor k = none

/-- Nothing stands in the way of a request at a line's home: no stash holds the line, no request waits there, it takes no sums, and its
bytes are memory's own, not decoded from another image, nor those of a table (R107, R116, R119, R142). -/
def Calm (s : State) (pa : Nat) : Prop :=
  (s.line (pa / 128)).holder = none ∧ s.holding (pa / 128) = false ∧ (s.line (pa / 128)).sum = none ∧ s.regionAt pa = none ∧
    s.regionAt (pa / 128 * 128) = none ∧ (s.line (pa / 128)).llc = none ∧ NoTable s (pa / 128)

/-- The home answers: its die is alive, and the guest meets no poison (R298, R301). -/
def Alive (s : State) (pa : Nat) (g : BitVec 8) : Prop :=
  s.deadDies.contains (homeDie pa) = false ∧ s.poisoned (pa / 128) g = false

/-- The first time after a lease, which saturates (R152). -/
def afterLease (r : Word) : Word := if r + 1 = 0 then r else r + 1

/-- The time that a store of clock c gives a line (R152). -/
def storeTime (s : State) (pa : Nat) (c : Word) : Word := later c (afterLease (s.line (pa / 128)).rts)

/-- Memory after bytes bs at a key: each byte written, and every other byte as before. -/
def Holds (s u : State) (key : Nat) (bs : List Byte) : Prop :=
  (∀ j (h : j < bs.length), Memory.read u.mem (key + j) = bs[j]) ∧
    ∀ k, (k < key ∨ key + bs.length ≤ k) → Memory.read u.mem k = Memory.read s.mem k

/-- The posted operation of thread t, if the number names one, awaits one acknowledgement more. -/
def LastAck (s : State) (op t : Nat) : Prop :=
  ∀ x, s.tagged.find? (fun (x : Tagged) => x.op == op) = some x → x.left = 1 ∧ x.tid = t ∧ x.engine = none

/-- The operation is no longer outstanding; the others are. -/
def Acked (s u : State) (op : Nat) : Prop := ∀ y, y ∈ u.tagged ↔ y ∈ s.tagged ∧ y.op ≠ op

/-- R107, R137, R138, R151, R152, R154, R180, R181, R155, R156: what a home does with the accesses of threads, with the host's writes, and with
what stashes send it. -/
def HomeEvents : Prop :=
  ∀ s (a : Access) t, a.who = .thread t → a.pa % 128 + a.n ≤ 128 → Alive s a.pa a.guest →
    let line := a.pa / 128
    let times := fun (u : State) => (u.line line).wts = storeTime s a.pa a.clock ∧ (u.line line).rts = storeTime s a.pa a.clock
    (∀ k, k = .core ∨ k = .bare → Calm s a.pa → s.readsList a.who a.rid = false → Runs s (.homeLoad a k) (fun u => ∃ r, Emits s u 100 (.loadReply r) ∧
      r.who = a.who ∧ r.rid = a.rid ∧ r.kind = k ∧ r.err = none ∧ r.wts = (s.line line).wts ∧ (u.line line).rts = r.rts ∧
      r.rts.toNat = max (max (s.line line).rts.toNat (s.line line).wts.toNat) (min (a.clock.toNat + s.lease) (2 ^ 64 - 1)) ∧
      r.data = (if k = .core then s.readMem (line * 128) 128 else s.readMem a.pa a.n) ∧ u.mem = s.mem ∧ u.threads = s.threads)) ∧
    (∀ k T x, k = .core ∨ k = .bare → s.holding line = false → (s.line line).sum = none → (s.line line).holder = some (T, x) →
      Runs s (.homeLoad a k) (fun u => Emits s u 40 (.forwardedLoad line T x a k) ∧ u.lines = s.lines ∧ u.mem = s.mem ∧ u.threads = s.threads)) ∧
    (∀ op (bs : Line), bs.length = a.n → a.gaps = [] → Calm s a.pa → Runs s (.homeStore a op bs) (fun u =>
      Holds s u a.pa bs ∧ times u ∧ Emits s u 100 (.storeAck op (storeTime s a.pa a.clock) none) ∧ u.threads = s.threads)) ∧
    (∀ op (bs : Line) T x, s.holding line = false → (s.line line).sum = none → (s.line line).holder = some (T, x) →
      Runs s (.homeStore a op bs) (fun u => (u.line line).held = (s.line line).held ++ [(s.inTurn, .store a op bs)] ∧ (u.line line).recalling = true ∧
        Emits s u 50 (.recallHolder line T) ∧ u.mem = s.mem ∧ u.threads = s.threads)) ∧
    (∀ op o b d, a.n = 4 ∨ a.n = 8 → (o = .fadd → a.n = 4) → Calm s a.pa →
      let old : BitVec (8 * a.n) := BitVec.ofNat (8 * a.n) (numberAt s a.pa a.n)
      Runs s (.homeAtomic a op o b d) (fun u => ∃ r, Emits s u 100 (.atomicReply r) ∧ r.who = a.who ∧ r.rid = a.rid ∧ r.op = op ∧
        r.err = none ∧ r.old = BitVec.ofNat 64 (numberAt s a.pa a.n) ∧ u.threads = s.threads ∧
        (match amoValue o a.n old (b.setWidth (8 * a.n)) (d.setWidth (8 * a.n)) with
         | some v => Stored s u a.pa a.n (v.setWidth 64) ∧ times u ∧ r.wts = storeTime s a.pa a.clock
         | none => u.mem = s.mem ∧ r.wts = (s.line line).wts))) ∧
    (a.n = 8 → Calm s a.pa → Runs s (.publication a) (fun u => ∃ r, Emits s u 100 (.atomicReply r) ∧ r.who = a.who ∧ r.rid = a.rid ∧
      r.err = none ∧ Stored s u a.pa 8 (later (BitVec.ofNat 64 (numberAt s a.pa 8)) a.clock) ∧ times u ∧ u.threads = s.threads)) ∧
    (∀ g (bs : Line), bs ≠ [] → a.pa % 128 + bs.length ≤ 128 → a.pa < 2 ^ 39 → Calm s a.pa → Runs s (.hostWrite a.pa g bs) (fun u =>
      let w := storeTime s a.pa (s.guest g).floor
      Holds s u a.pa bs ∧ (u.line line).wts = w ∧ (u.guest g).floor = later (s.guest g).floor w ∧ u.threads = s.threads)) ∧
    (∀ w : WriteBack, w.data.length = 128 → w.bad = none → s.regionAt (w.line * 128) = none → NoTable s w.line → (s.line w.line).held = [] →
      s.deadDies.contains (homeDie (w.line * 128)) = false →
      let stands := (s.line w.line).holder = some (w.tile, w.reg)
      Runs s (.stashWriteBack w) (fun u => (∃ v, Emits s u 100 (.storeAck w.op v (some (w.tile, w.line)))) ∧ u.threads = s.threads ∧
        (stands → Holds s u (w.line * 128) w.data ∧ (u.line w.line).fe = w.fe ∧ (u.line w.line).wts = later (s.line w.line).wts w.stamp ∧
          (u.line w.line).holder = (if w.drop then none else (s.line w.line).holder)) ∧
        (¬ stands → u.mem = s.mem ∧ u.lines = s.lines))) ∧
    (∀ tile idx l reg op, (s.line l).held = [] → s.deadDies.contains (homeDie (l * 128)) = false → Runs s (.dropMessage tile idx l reg op) (fun u =>
      (∃ v, Emits s u 100 (.storeAck op v (some (tile, l)))) ∧ u.mem = s.mem ∧ u.threads = s.threads ∧
      ((s.line l).holder = some (tile, reg) → (u.line l).holder = none) ∧ ((s.line l).holder ≠ some (tile, reg) → u.lines = s.lines))) ∧
    (∀ l tile stamp reg fe d, (∀ x, d = some x → x.length = 128) → (s.line l).held = [] → s.regionAt (l * 128) = none → NoTable s l →
      Runs s (.recallAnswer l tile stamp reg fe d none) (fun u =>
        ((s.line l).holder = some (tile, reg) → (u.line l).holder = none ∧ (u.line l).recalling = false ∧ (u.line l).fe = fe ∧
          (match d with | some x => Holds s u (l * 128) x | none => u.mem = s.mem)) ∧
        ((s.line l).holder ≠ some (tile, reg) → u.mem = s.mem ∧ u.lines = s.lines) ∧ u.threads = s.threads)) ∧
    (∀ k e, s.walk a.guest (a.va.toNat % 2 ^ 56) = .page e → Runs s (.redirect (.load a k)) (fun u =>
      Emits s u 100 (.homeLoad { a with pa := e.phys (a.va.toNat % 2 ^ 56) } k) ∧ u.mem = s.mem ∧ u.threads = s.threads))

/-- R26, R104 to R107, R115, R118, R138, R151, R152, R155, R156, R185, R187, R296, R376: what reaches a core or a stash. -/
def MessageEvents : Prop :=
  ∀ s t th, s.thread? t = some th → th.halted = false →
    (∀ rid l r d, th.wait = .load rid l → l.dst = .reg d → r.who = .thread t → r.rid = rid → rid ≠ 0 → r.kind = .core → r.err = none →
      RunsOn s t (.loadReply r) (fun u th' =>
        Lands s u th th' d (widened l.n l.signed (natOfBytes ((r.data.drop (l.va.toNat % 128)).take l.n))) ∧ th'.lts = later th.lts r.wts ∧
        Done th th' ∧ SameOthers s u t ∧ u.mem = s.mem)) ∧
    (∀ rid l r e, th.wait = .load rid l → r.who = .thread t → r.rid = rid → r.err = some e → HasHandler th →
      RunsOn s t (.loadReply r) (fun u th' => InHandler th th' e.cause e.detail (some e.addr) th.pc ∧ SameOthers s u t ∧ u.mem = s.mem)) ∧
    (∀ op w, op ≠ 0 → LastAck s op t → (∃ x ∈ s.tagged, x.op = op) → th.wait = .none → RunsOn s t (.storeAck op w none) (fun u th' =>
      th' = { th with lts := later th.lts w, acked := th.acked + 1 } ∧ Acked s u op ∧ SameOthers s u t ∧ u.mem = s.mem)) ∧
    (∀ op w tag, op ≠ 0 → LastAck s op t → (∃ x ∈ s.tagged, x.op = op ∧ x.tag = tag) → th.wait = .ackTag tag → tag ≠ 0 →
      (∀ y ∈ s.tagged, y.tid = t → y.tag = tag → y.engine = none → y.op = op) → RunsOn s t (.storeAck op w none) (fun u th' =>
        th'.lts = later th.lts w ∧ Done th th' ∧ th'.x = th.x ∧ Acked s u op ∧ SameOthers s u t ∧ u.mem = s.mem)) ∧
    (∀ op e, op ≠ 0 → LastAck s op t → (∃ x ∈ s.tagged, x.op = op) → th.wait = .none → RunsOn s t (.postedRefusal op e) (fun u th' =>
      (∃ v ∈ th'.postEvents, v.cause = e.cause ∧ v.detail = e.detail ∧ v.addr = some e.addr) ∧ th'.lts = th.lts ∧ th'.pc = th.pc ∧
      th'.x = th.x ∧ Acked s u op ∧ SameOthers s u t ∧ u.mem = s.mem)) ∧
    (∀ rid d n z last r, th.wait = .atomic rid d n z last → r.who = .thread t → r.rid = rid → rid ≠ 0 → r.err = none → LastAck s r.op t →
      RunsOn s t (.atomicReply r) (fun u th' =>
        Lands s u th th' d (if n = 8 then r.old else widened 4 (!z) (r.old.toNat % 2 ^ 32)) ∧ th'.lts = later th.lts r.wts ∧ Done th th' ∧
        SameOthers s u t ∧ u.mem = s.mem)) ∧
    (∀ tile idx l pa (d : Line) fe st, d.length = 128 → s.stashLine? tile idx = none →
      s.backingPa tile (idx * 128) (s.bankGuest tile (idx * 128)) = some pa → pa / 128 = l → (s.tile tile).fillWait = [] →
      (∀ p ∈ (s.tile tile).park, p.off / 128 ≠ idx) →
      (∀ p ∈ s.threads, ∀ va i, p.2.wait ≠ .fill tile idx va i) → Runs s (.stashFill tile idx l d fe st none) (fun u =>
        (∃ x, u.stashLine? tile idx = some x ∧ x.line = l ∧ x.stamp = st ∧ x.fe = fe ∧ x.dirty = false ∧ x.poison = false) ∧
        Holds s u (stashKey tile (idx * 128)) d ∧ (∀ j ∈ (u.tile tile).filling, j ≠ idx) ∧ u.threads = s.threads)) ∧
    (∀ l tile i x, s.stashIndex tile l = some i → s.stashLine? tile i = some x → KMap.sorted s.stash = true →
      Runs s (.recallHolder l tile) (fun u => u.stashLine? tile i = none ∧ (∃ d, Emits s u 50 (.recallAnswer l tile x.stamp x.reg x.fe d x.bad) ∧
        (x.dirty = true → d = some (s.readMem (stashKey tile (i * 128)) 128)) ∧
        (x.dirty = false → (∀ w ∈ (s.tile tile).wbuf, ¬ (w.line = l ∧ w.reg = x.reg)) → d = none)) ∧ u.mem = s.mem ∧ u.threads = s.threads)) ∧
    (∀ l tile reg a d st, a.who = .thread t → s.holderData tile l reg = some (d, st, false) → s.readsList a.who a.rid = false →
      Runs s (.forwardedLoad l tile reg a .core) (fun u => ∃ r, Emits s u 60 (.loadReply r) ∧ r.who = a.who ∧ r.rid = a.rid ∧ r.wts = st ∧
        r.data = (d.drop (a.pa % 128)).take a.n ∧ r.kind = .bare ∧ r.err = none ∧ u.mem = s.mem ∧ u.threads = s.threads)) ∧
    (∀ (r : StashReq) x, r.who = .thread t → r.own = false → r.off % 128 + 8 ≤ 128 → s.resident r.tile r.off = some x → x.poison = false →
      s.bankOk r.tile r.off r.guest = true → (s.tile r.tile).park = [] →
      (∀ n, r.what = .load n → r.op = 0 → Runs s (.remoteStashAccess r) (fun u => ∃ y, Emits s u 0 (.loadReply y) ∧ y.who = r.who ∧ y.rid = r.rid ∧
        y.wts = x.stamp ∧ y.err = none ∧ y.data = s.readMem (stashKey r.tile r.off) n ∧
        u.mem = s.mem ∧ u.threads = s.threads)) ∧
      (∀ n v, r.what = .store n v → n ≤ 8 → r.op ≠ 0 → r.rid = 0 → Runs s (.remoteStashAccess r) (fun u => Emits s u 0 (.storeAck r.op x.stamp none) ∧
        Stored s u (stashKey r.tile r.off) n v ∧ (∃ y, u.stashLine? r.tile (r.off / 128) = some y ∧ y.dirty = true) ∧
        u.threads = s.threads))) ∧
    (∀ (r : StashReq) d, r.who = .thread t → th.wait = .fullEmpty r.rid d r.va → r.rid ≠ 0 → th.hasPending = false →
      (∀ o ∈ s.peerOut, o.rid ≠ r.rid) →
      (r.refusals + 1 < (s.tile (tileOf th.home)).feretry → Runs s (.parkTableRefusal r) (fun u =>
        (∃ p ∈ u.agenda, p.work = .event (.feResend { r with refusals := r.refusals + 1 }) ∧ p.due = s.clk + 16 * 2 ^ min r.refusals 6) ∧
        u.threads = s.threads ∧ u.mem = s.mem)) ∧
      ((s.tile (tileOf th.home)).feretry ≤ r.refusals + 1 → HasHandler th → RunsOn s t (.parkTableRefusal r) (fun u th' =>
        InHandler th th' 9 0 (some r.va) th.pc ∧ SameOthers s u t ∧ u.mem = s.mem)) ∧
      (r.own = false → (∀ v, s.spaceOf r.va ≠ .peerStash v) → Runs s (.feResend r) (fun u =>
        Emits s u 0 (.remoteStashAccess r) ∧ u.threads = s.threads ∧ u.mem = s.mem))) ∧
    (∀ core w j, Runs s (.tlbShootdown core w j) (fun u => (∀ e ∈ KMap.getD u.utlb core [], shotBy w e = false) ∧ u.mem = s.mem)) ∧
    (∀ src n ls, (∀ dst x, KMap.sorted s.frames = true → (src, n) ∉ s.migrating →
        Runs s (.pageMigration true (some src) dst n x ls) (fun u => (src, n) ∈ u.migrating ∧
          (∀ f e, (f, e) ∈ s.frames → src ≤ f → f < src + n → e.v = true → KMap.get? u.frames f = some { e with frz := true }) ∧
          (s.tables = [] → u.mem = s.mem) ∧ u.threads = s.threads)) ∧
      (∀ dst x, s.Canonical → s.tables = [] → (∀ p ∈ s.tiles, p.2.commands = []) → (src, n) ∈ s.migrating → s.heldLines src n = [] →
        (src + n ≤ dst ∨ dst + n ≤ src) →
        Runs s (.pageMigration false (some src) (some dst) n x ls) (fun u => (src, n) ∉ u.migrating ∧
          ∀ k, k < n * 65536 → Memory.read u.mem (dst * 65536 + k) = Memory.read s.mem (src * 65536 + k))))

/-- R83, R125, R175, R180, R181, R184, R252, R349: what ends the waits of FENCE, REL, ACQ, ACCDECL, LDC, the full-empty instructions,
CVARM, CVDISARM and REAP. -/
def WaitAnswers : Prop :=
  ∀ s t th, s.thread? t = some th → th.halted = false →
    (∀ op w c, op ≠ 0 → LastAck s op t → (∃ x ∈ s.tagged, x.op = op) → th.wait = .fence c →
      (∀ y ∈ s.tagged, y.tid = t → y.engine = none → y.op = op) → RunsOn s t (.storeAck op w none) (fun u th' =>
        th'.lts = later th.lts w ∧ Done th th' ∧ th'.x = th.x ∧ Acked s u op ∧ SameOthers s u t ∧ u.mem = s.mem)) ∧
    (∀ rid l r d, th.wait = .load rid l → l.dst = .reg d → r.who = .thread t → r.rid = rid → rid ≠ 0 → r.kind = .ldc → r.err = none →
      RunsOn s t (.loadReply r) (fun u th' =>
        Lands s u th th' d (widened l.n l.signed (natOfBytes ((r.data.drop (l.va.toNat % 128)).take l.n))) ∧ th'.lts = th.lts ∧
        Done th th' ∧ SameOthers s u t ∧ u.mem = s.mem)) ∧
    (∀ r, th.wait = .acq r.rid → r.who = .thread t → r.kind = .acq → r.err = none → RunsOn s t (.loadReply r) (fun u th' =>
      th'.lts = later th.lts (BitVec.ofNat 64 (natOfBytes (r.data.take 8))) ∧ Done th th' ∧ th'.x = th.x ∧
      SameOthers s u t ∧ u.mem = s.mem)) ∧
    (∀ r : AtomicReply, r.who = .thread t → r.rid ≠ 0 → r.op = 0 → r.err = none →
      (th.wait = .relPub r.rid → RunsOn s t (.atomicReply r) (fun u th' => th'.lts = later th.lts r.wts ∧ Done th th' ∧ th'.x = th.x ∧
        SameOthers s u t ∧ u.mem = s.mem)) ∧
      (th.wait = .acq r.rid → RunsOn s t (.atomicReply r) (fun u th' => th'.lts = later (later th.lts r.wts) r.old ∧ Done th th' ∧
        th'.x = th.x ∧ SameOthers s u t ∧ u.mem = s.mem)) ∧
      (th.wait = .declare r.rid → RunsOn s t (.atomicReply r) (fun u th' => th'.lts = th.lts ∧ Done th th' ∧ th'.x = th.x ∧
        SameOthers s u t ∧ u.mem = s.mem)) ∧
      (∀ va d, th.wait = .fullEmpty r.rid (some d) va → RunsOn s t (.atomicReply r) (fun u th' => Lands s u th th' d r.old ∧
        th'.lts = later th.lts r.wts ∧ Done th th' ∧ SameOthers s u t ∧ u.mem = s.mem)) ∧
      (∀ va, th.wait = .fullEmpty r.rid none va → RunsOn s t (.atomicReply r) (fun u th' => th'.x = th.x ∧
        th'.lts = later th.lts r.wts ∧ Done th th' ∧ SameOthers s u t ∧ u.mem = s.mem)) ∧
      (∀ d q, th.wait = .feStatus r.rid (some d) q → RunsOn s t (.atomicReply r) (fun u th' =>
        th'.q = th.q.set q.toNat (if r.done then .tt else .ff) ∧ th'.lts = later th.lts r.wts ∧ Done th th' ∧
        (r.done = true → Lands s u th th' d r.old) ∧ (r.done = false → th'.x = th.x ∧ u.lateWrites = s.lateWrites) ∧
        SameOthers s u t ∧ u.mem = s.mem))) ∧
    (∀ r : Record,
      Runs s (.acknowledgementWait t (some (r, true))) (fun u => u.mem = s.mem ∧
        u.armed = s.armed ++ [{ rcd := r, queue := none, index := 0, number := s.nextLaunch, fired := false }]) ∧
      Runs s (.acknowledgementWait t (some (r, false))) (fun u => u.mem = s.mem ∧
        ∀ a, a ∈ u.armed ↔ a ∈ s.armed ∧ ¬ (a.fired = false ∧ a.rcd.convoy = r.convoy ∧ a.rcd.guest = r.guest ∧ a.rcd.when = r.when)) ∧
      (∀ add, th.wait = .arm → RunsOn s t (.acknowledgementWait t (some (r, add))) (fun u th' =>
        th'.x = th.x ∧ Done th th' ∧ SameOthers s u t))) ∧
    (∀ c p d, Issuing s t th → KMap.sorted s.threads = true → th.parent = some c → c ≠ t → s.thread? c = some p →
      p.wait = .reap d (slotIn th.home) → s.outstanding t = [] → ∃ u p', exec .halt s = .next u ∧ u.thread? t = none ∧
        u.thread? c = some p' ∧ Lands s u p p' d th.x[8] ∧ p'.lts = later p.lts th.lts ∧ Done p p' ∧ u.mem = s.mem)

end Sys2Proof.Claims

/-- R83, R107, R115, R121, R125, R138, R151, R152, R155, R156, R175, R180, R181, R184, R185, R187, R252, R349, R376: the events of memory, at homes, at
stashes and at cores. The operands and delays of the events are the model's own (log entries 2 and 3). -/
def Obligations.MemoryEvents : Prop := Claims.HomeEvents ∧ Claims.MessageEvents ∧ Claims.WaitAnswers

namespace Sys2Proof.Claims

/-- The one command that runs in the matrix unit of a tile. -/
def Running (s : State) (tile : Nat) (c : Cmd) (k : CmdKind) : Prop :=
  (s.tile tile).mrun = [c] ∧ c.kind = k ∧ c.faulted = none

/-- That command has finished: it runs no longer, and FLOOR has risen to its clock (R154). -/
def Finished (s u : State) (tile : Nat) (c : Cmd) : Prop :=
  (u.tile tile).mrun = [] ∧ later (s.guest c.guest).floor c.clock = (u.guest c.guest).floor ∧ u.mem = s.mem ∧ u.threads = s.threads

end Sys2Proof.Claims

/-- R142, R143, R201, R252, R253: the events of sum mode at a line's home. The operands of the events are the model's own (log entry 3). -/
def Obligations.SumModeEvents : Prop :=
  ∀ s (a : Access) parts tile cmd t, s.deadDies.contains (homeDie a.pa) = false →
    let line := a.pa / 128
    (a.who = .thread t → (∀ j, j < 8 → (s.line (line + j)).holder = none ∧ s.holding (line + j) = false ∧ (s.line (line + j)).sum = none) →
      Runs s (.declarationAtHome a parts) (fun u => (∃ r, Emits s u 100 (.atomicReply r) ∧ r.who = a.who ∧ r.rid = a.rid ∧ r.err = none) ∧
        (∀ j, j < 8 → ∃ m, (u.line (line + j)).sum = some m ∧ m.parts = parts ∧ m.next = 0 ∧ m.early = [] ∧ m.parked = []) ∧ u.mem = s.mem)) ∧
    (∀ m part (d : Line), a.who = .engine tile cmd → s.holding line = false → (s.line line).sum = some m → m.early = [] →
      let words := wordsOf d
      let acc := if part = 0 then words else (m.acc.zip words).map (fun p => mergeAdd p.1 p.2)
      (part = m.next → part + 1 < m.parts → Runs s (.sumPartArrival a part d) (fun u =>
        Emits s u 100 (.storeAck a.rid (storeTime s a.pa a.clock) none) ∧ u.mem = s.mem ∧
        ∃ x, (u.line line).sum = some x ∧ x.next = part + 1 ∧ x.acc = acc ∧ x.parts = m.parts)) ∧
      (part = m.next → part + 1 = m.parts → part < 64 → m.parked = [] → s.regionAt (line * 128) = none → NoTable s line →
        Runs s (.sumPartArrival a part d) (fun u => Emits s u 100 (.storeAck a.rid (storeTime s a.pa a.clock) none) ∧
          (u.line line).sum = none ∧ (u.line line).wts = later m.top (storeTime s a.pa a.clock) ∧ Holds s u (line * 128) (lineOfWords acc))) ∧
      ((part < m.next ∨ m.parts ≤ part) → Runs s (.sumPartArrival a part d) (fun u => u.lines = s.lines ∧ u.mem = s.mem ∧
        ∃ r, Emits s u 100 (.postedRefusal a.rid r) ∧ r.cause = 4 ∧ r.detail = 6 ∧ r.addr = a.va))) ∧
    (∀ m, (s.line line).sum = some m → Runs s (.mergeFailure a.pa) (fun u => (u.line line).sum = none ∧
      (u.line line).poison = some (s.ownerOf a.pa).1 ∧ (u.line line).poisonCode = 7 ∧ u.mem = s.mem ∧ u.threads = s.threads))

/-- R154, R162, R197, R217, R220 to R226, R231, R233, R248 to R251: the events of the engines. The operands of the events are the model's
own (log entry 3). -/
def Obligations.EngineEvents : Prop :=
  ∀ s tile c,
    let x := s.tile tile
    (∀ f n l, x.mqueue = [c] → c.kind = .mma f n l → s.dispatches tile c = true → Runs s (.matrixDispatch tile) (fun u =>
      (u.tile tile).mqueue = [] ∧ (∃ d, (u.tile tile).mrun = x.mrun ++ [d] ∧ d.id = c.id ∧ d.rows = (x.mx.latchA l).rows ++ (x.mx.latchB l).rows) ∧
      ((u.tile tile).mx.latchA l).st = .free ∧ ((u.tile tile).mx.latchB l).st = .free ∧ Emits s u 8 (.mmaComplete tile c.id) ∧ u.mem = s.mem)) ∧
    (∀ l a b, Running s tile c (.stageA l a b) → Runs s (.stageAComplete tile c.id) (fun u =>
      (u.tile tile).mx.latchA l = ⟨.full, (List.range 16).map c.row, some ⟨c.tid, c.launch, c.fn⟩⟩ ∧ (u.tile tile).mx.latchB = x.mx.latchB ∧ (u.tile tile).mx.acc = x.mx.acc ∧ Finished s u tile c)) ∧
    (∀ l a b, Running s tile c (.stageB l a b) → Runs s (.stageBComplete tile c.id) (fun u =>
      (u.tile tile).mx.latchB l = ⟨.full, (List.range 16).map c.row, some ⟨c.tid, c.launch, c.fn⟩⟩ ∧ (u.tile tile).mx.latchA = x.mx.latchA ∧ (u.tile tile).mx.acc = x.mx.acc ∧ Finished s u tile c)) ∧
    (∀ f n l, Running s tile c (.mma f n l) → Runs s (.mmaComplete tile c.id) (fun u => ((u.tile tile).mx.acc n).length = 256 ∧
      (∀ i j, i < 16 → j < 16 → ((u.tile tile).mx.acc n)[16 * i + j]? = some (mmaElem f c.self (natOfBytes (((c.rows.take 16)[i]?).getD []))
        (natOfBytes (((c.rows.drop 16)[j]?).getD [])) (((x.mx.acc n)[16 * i + j]?).getD 0))) ∧
      (u.tile tile).mx.acc (!n) = x.mx.acc (!n) ∧ Finished s u tile c)) ∧
    (∀ n, Running s tile c (.mclr n) → Runs s (.mclrComplete tile c.id) (fun u => (u.tile tile).mx.acc n = List.replicate 256 0 ∧
      (u.tile tile).mx.acc (!n) = x.mx.acc (!n) ∧ Finished s u tile c)) ∧
    (∀ n a p k, k ∈ [CmdKind.mflush n a, .mflushSum n a p] → Running s tile c k → Runs s (.flushReadoutComplete tile c.id) (fun u =>
      (u.tile tile).mx = x.mx ∧ (c.reqs = [] → Finished s u tile c) ∧ (c.reqs ≠ [] → (u.tile tile).mrun = [{ c with pos := 1 }]))) ∧
    (∀ o g, x.mxOwner = some o → o ≠ g → KMap.sorted x.mxSaved = true → Runs s (.matrixContextSwitch tile g) (fun u =>
      (u.tile tile).mxOwner = some g ∧ (u.tile tile).mxSwitch = false ∧ KMap.get? (u.tile tile).mxSaved o.toNat = some x.mx ∧
      (u.tile tile).mx = KMap.getD x.mxSaved g.toNat .init ∧ u.mem = s.mem ∧ u.threads = s.threads)) ∧
    (∀ k va, Running s tile c k → x.mqueue = [] → Runs s (.engineFault tile c.id va 1 0) (fun u =>
      (u.tile tile).mrun = [{ c with faulted := some va }] ∧ u.mem = s.mem ∧ u.threads = s.threads)) ∧
    (∀ th f n l va, Running s tile c (.mma f n l) → x.mqueue = [] → s.thread? c.tid = some th → th.halted = false → th.wait = .none →
      RunsOn s c.tid (.engineFault tile c.id va 2 0) (fun u th' => (u.tile tile).mrun = [] ∧ th'.pc = th.pc ∧ th'.x = th.x ∧ th'.lts = th.lts ∧
        (∃ e, th'.engEvents = th.engEvents ++ [e] ∧ e.cause = 0x0B ∧ e.ef = some (va, BitVec.ofNat 64 (c.fn * 256 + 2))) ∧
        SameOthers s u c.tid ∧ u.mem = s.mem)) ∧
    (∀ th f n l rest, x.mqueue = c :: rest → c.kind = .mma f n l → s.thread? c.tid = some th → th.halted = false → th.wait = .none →
      RunsOn s c.tid (.groupWatchdog tile false) (fun u th' => (∀ y ∈ (u.tile tile).mqueue, y.id ≠ c.id) ∧ (u.tile tile).mwatch = 0 ∧
        th'.pc = th.pc ∧ th'.x = th.x ∧ (∃ e, th'.engEvents = th.engEvents ++ [e] ∧ e.cause = 0x0B ∧
          e.ef = some (0, BitVec.ofNat 64 (c.fn * 256 + 3))) ∧ SameOthers s u c.tid ∧ u.mem = s.mem)) ∧
    (∀ d, x.cqueue = [c] → x.crun = [] → c.kind = .copy d → d.bar = none → d.count ≠ 0 → c.held = none → s.blocked tile c = false →
      Runs s (.copyStart tile) (fun u => (u.tile tile).cqueue = [] ∧ (u.tile tile).crun = [c] ∧ (u.tile tile).cwatch = 0 ∧ u.mem = s.mem ∧
        u.threads = s.threads)) ∧
    (∀ d, x.crun = [c] → c.kind = .copy d → d.bar = none → Runs s (.copyFinish tile c.id) (fun u => (u.tile tile).crun = [] ∧
      (u.guest c.guest).floor = later (s.guest c.guest).floor c.clock ∧ u.mem = s.mem ∧ u.threads = s.threads))

/-- R28 to R34, R154, R351 to R353: the events of launches and of the host's queues. The operands of the events are the model's own
(log entry 3). -/
def Obligations.LaunchEvents : Prop :=
  (∀ s l (x : Launch), s.launch? l = some x →
    (∀ slot, x.status = .running → x.cancelled = false → x.placed < x.rcd.units → s.placeFor l x = some slot → s.mayEnter slot x.rcd.guest = true →
      (s.tile (tileOf slot)).current = some x.rcd.guest → Runs s (.unitPlacement l) (fun u => ∃ th y, u.thread? s.nextTid = some th ∧
        th.place = some slot ∧ th.guest = x.rcd.guest ∧ th.launch = l ∧ th.pc = x.rcd.code ∧ th.halted = false ∧ th.wait = .none ∧
        th.x[3] = x.rcd.param ∧ th.x[4] = BitVec.ofNat 64 x.placed ∧ th.x[5] = BitVec.ofNat 64 x.rcd.units ∧ th.x[6] = x.rcd.const ∧
        th.x[2] = BitVec.ofNat 64 (0x82 * 2 ^ 56 + 512) ∧ th.lts = (s.guest x.rcd.guest).floor ∧ th.tvec = 0 ∧
        (∀ j (h : j < 8), th.q[j] = .ff) ∧ u.launch? l = some y ∧ y.placed = x.placed + 1 ∧ Emits s u 0 (.unitPlacement l) ∧
        SameOthers s u s.nextTid)) ∧
    (∀ e, s.launchDone l = true → x.cancelled = false → x.faulted = false → s.walk x.rcd.guest (x.rcd.done.toNat % 2 ^ 56) = .page e →
      (∀ p ∈ s.launches, p.2.status ≠ .waiting) → Runs s (.launchCompletion l) (fun u =>
        (∃ y, u.launch? l = some y ∧ y.status = .done) ∧ (∃ a, Emits s u 1 (.homeAtomic a 0 .add 1 0) ∧ a.who = .front ∧ a.n = 8 ∧
          a.pa = e.phys (x.rcd.done.toNat % 2 ^ 56) ∧ a.clock = (s.guest x.rcd.guest).floor) ∧
        (∀ k ∈ u.locks, k.launch ≠ l) ∧ u.threads = s.threads ∧ u.mem = s.mem)) ∧
    (∀ t th, s.threads = [(t, th)] → s.launches = [(l, x)] → x.status = .running → th.launch = l → th.halted = false → th.wait = .none →
      Runs s (.cancel (.launch l)) (fun u => u.threads = [(t, { th with cancel := some 0 })] ∧ (∃ y, u.launch? l = some y ∧ y.cancelled = true) ∧
        u.mem = s.mem))) ∧
  ∀ s q (x : Queue), KMap.get? s.queues q = some x →
    let rec_ := x.record (x.head.toNat % 2 ^ x.ringExp)
    let r := Record.ofBytes rec_
    (s.booted = true → x.qStop = false → x.head ≠ x.tail →
      (∀ f, s.recordFault rec_ x.guest = some f → Runs s (.queueRecord q) (fun u => ∃ y, KMap.get? u.queues q = some y ∧ y.head = x.head ∧
        y.qStop = true ∧ y.qStatus = BitVec.ofNat 8 f.code ∧ y.qField = BitVec.ofNat 8 f.field ∧ u.launches = s.launches ∧ u.mem = s.mem)) ∧
      (s.recordFault rec_ x.guest = none → r.kind = 0 → r.timed = false → Runs s (.queueRecord q) (fun u =>
        (∃ y, KMap.get? u.queues q = some y ∧ y.head = x.head + 1 ∧ y.qStop = false) ∧
        (∃ y, u.launch? s.nextLaunch = some y ∧ y.rcd = r ∧ y.placed = 0 ∧ y.queue = some q) ∧ u.mem = s.mem ∧ u.threads = s.threads))) ∧
    (∀ v : Word, (v.toNat < 2 ^ 32 → (v.setWidth 32 - x.head).toNat ≤ 2 ^ x.ringExp → Runs s (.qtailWrite q v []) (fun u =>
        ∃ y, KMap.get? u.queues q = some y ∧ y.tail = v.setWidth 32 ∧ y.head = x.head ∧ u.mem = s.mem)) ∧
      ((2 ^ 32 ≤ v.toNat ∨ 2 ^ x.ringExp < (v.setWidth 32 - x.head : BitVec 32).toNat) → Runs s (.qtailWrite q v []) (fun u =>
        ∃ y, KMap.get? u.queues q = some y ∧ y.tail = x.tail ∧ y.head = x.head ∧ u.mem = s.mem))) ∧
    (x.qStop = true → Runs s (.qstatWrite q 0) (fun u => ∃ y, KMap.get? u.queues q = some y ∧ y.qStop = false ∧ y.head = x.head + 1 ∧
      y.qStatus = 0 ∧ u.mem = s.mem)) ∧
    (∀ v : Word, v.toNat / 2 ^ 9 % 2 ^ 15 ≠ 0 → Runs s (.qstatWrite q v) (fun u => { u with event := s.event } = s))

/-- R263, R267 to R284, R338, R339: the events of the round and of sharing. The operands of the events are the model's own (log entry 3). What
PACK and the stop do with the translation buffer and with the copies in L2 is the model's choice (log entry 48); at which
instants of CLK and of WALL the changeovers fall is its reading (log entry 28). That a forwarding note takes 40 cycles is read from R263's
trace. -/
def Obligations.RoundEvents : Prop :=
  ∀ s tile,
    Runs s .predrain (fun u => u.preOn = true ∧ u.locks = [] ∧ u.mem = s.mem ∧ u.threads = s.threads) ∧
    (s.paused = false → s.drained = true → Runs s .stop (fun u => u.paused = true ∧ u.stopAt = s.clk ∧ u.turn = s.turn + 1 ∧
      (∀ g (x : Guest), (g, x) ∈ s.guests → (g, { x with chg := x.chg + 1 }) ∈ u.guests) ∧
      (∀ p ∈ s.tiles, Emits s u 0 (.pack p.1)) ∧ u.threads = s.threads ∧ u.mem = s.mem)) ∧
    (s.paused = false → s.drained = false → Runs s .stop (fun u => u.paused = false ∧ Emits s u 0 .changeoverPostponement ∧ u.mem = s.mem)) ∧
    (KMap.sorted s.stash = true → Runs s (.pack tile) (fun u => (u.tile tile).phase = .packed ∧ (u.tile tile).tlb = [] ∧ u.l2 = [] ∧
      (∀ i, i < 1024 → u.stashLine? tile i = none) ∧ (∀ p ∈ u.l1, p.1 / 16 ≠ tile) ∧ Emits s u 0 (.ship tile) ∧
      u.threads = s.threads ∧ u.mem = s.mem)) ∧
    Runs s (.ship tile) (fun u => (u.tile tile).phase = .shipped ∧ Emits s u 0 (.unpack tile) ∧ u.threads = s.threads ∧ u.mem = s.mem) ∧
    Runs s (.unpack tile) (fun u => (u.tile tile).phase = .unpacked ∧ u.threads = s.threads ∧ u.mem = s.mem ∧
      (s.paused = true → KMap.sorted s.tiles = true → (∀ p ∈ s.tiles, p.1 ≠ tile → p.2.phase = .unpacked) → Emits s u 0 .resume)) ∧
    ((∀ p ∈ s.tiles, p.2.crun = []) → Runs s .resume (fun u => u.paused = false ∧ u.preOn = false ∧ (∀ p ∈ u.tiles, p.2.phase = .run) ∧
      (∀ p ∈ u.agenda, p.held = false) ∧ u.threads = s.threads ∧ u.mem = s.mem)) ∧
    Runs s .changeoverPostponement (fun u => u.postponed = s.postponed + 1 ∧ u.chglate = (s.chglate || s.res) ∧ Emits s u 1024 .stop ∧
      u.threads = s.threads ∧ u.mem = s.mem) ∧
    Runs s .changeoverInstant (fun u => u.nextInst = s.nextInst + 2 ^ s.pexp ∧
      Emits s u 0 (if s.drained then .stop else .changeoverPostponement) ∧ u.threads = s.threads ∧ u.mem = s.mem) ∧
    Runs s .podChangeoverInstant (fun u => u.instantK = s.instantK + 1 ∧
      Emits s u 0 (if s.drained then .stop else .changeoverPostponement) ∧ u.threads = s.threads ∧ u.mem = s.mem) ∧
    (∀ p ∈ s.agenda, Runs s (.forwardingNote p.seq) (fun u => (∃ q ∈ u.agenda, q.seq = p.seq ∧ q.work = p.work ∧ q.note = p.note + 1 ∧
        q.turn = p.turn ∧ s.clk + 40 ≤ q.due) ∧ u.threads = s.threads ∧ u.mem = s.mem) ∧
      Runs s (.heldMessage p.seq) (fun u => (∃ q ∈ u.agenda, q.seq = p.seq ∧ q.work = p.work ∧ q.held = true) ∧
        u.threads = s.threads ∧ u.mem = s.mem)) ∧
    (∀ n, (s.tile tile).smallestPass (s.runnableGuests tile) = some n → Runs s (.sliceEnd tile) (fun u =>
      let g := BitVec.ofNat 8 n
      (u.tile tile).current = some g ∧ (u.tile tile).sliceAt = 0 ∧
      ((u.tile tile).guest g).pass = (((s.tile tile).guest g).pass + 2 ^ 20 / ((s.tile tile).guest g).gqos.tickets) % 2 ^ 64 ∧ u.mem = s.mem)) ∧
    (s.stash = [] → s.owners = [] → (∀ p ∈ s.threads, ∀ g, p.2.wait ≠ .genbump g) → Runs s .scrubPass (fun u =>
      (∀ c ∈ u.l2, c.copy.gen = (s.guest c.copy.guest).gen) ∧ (∀ p ∈ u.l1, ∀ c ∈ p.2, c.gen = (s.guest c.guest).gen) ∧
      (∀ p ∈ u.utlb, ∀ e ∈ p.2, e.gen = (s.guest e.guest).gen) ∧ (∀ p ∈ u.frames, p.2.v = true → p.2.gen = (s.guest p.2.guest).gen) ∧
      u.threads = s.threads ∧ u.mem = s.mem)) ∧
    Runs s (.wayDivision tile) (fun u => (∀ g (x : TileGuest), (g, x) ∈ (s.tile tile).guests → ∃ y, (g, y) ∈ (u.tile tile).guests ∧
      y.hits = x.hits.map (· / 2) ∧ x.gqos.floor ≤ y.ways ∧ y.gqos = x.gqos) ∧ u.threads = s.threads ∧ u.mem = s.mem) ∧
    ((∀ p ∈ s.agenda, p.unpaid = none) → Runs s .tokenRefill (fun u => (∀ k (x : Tile) g (y : TileGuest), (k, x) ∈ s.tiles → (g, y) ∈ x.guests →
      ∃ x' y', (k, x') ∈ u.tiles ∧ (g, y') ∈ x'.guests ∧ y'.tokens = min (y.tokens + y.gqos.share) (4 * y.gqos.share)) ∧
      u.threads = s.threads ∧ u.mem = s.mem))

/-- R322 to R337: the events of convoys, and of the agreements on timed actions. The operands of the events are the model's own (log
entry 3). The clauses of recordFire under HOLD, of ready, commit, abandon, readyTimeout and commitTimeout rest on the model's reading of the
agreements (log entry 32); that an abandoned launch is reported as cancelled is its choice (log entry 71), and so is the list of stragglers told of
already (log entry 32). -/
def Obligations.ConvoyEvents : Prop :=
  ∀ s (g : BitVec 8) (c : BitVec 16) (v : Convoy), s.convoys = [v] → v.guest = g → v.id = c →
    let still := fun (u : State) => u.mem = s.mem
    let becomes := fun (u : State) (p : Convoy → Prop) => ∃ y, u.convoyAt g c = some y ∧ p y
    (∀ a : Armed, s.armed = [a] → a.rcd.guest = g → a.rcd.convoy = c → s.synced = true → a.fired = false → a.rcd.when ≤ s.wall →
      (s.hold = false → s.offset.natAbs ≤ a.rcd.skew → Runs s (.recordFire g c) (fun u => u.armed = [] ∧
        (∃ x, u.launch? a.number = some x ∧ x.rcd = a.rcd) ∧ u.threads = s.threads ∧ still u)) ∧
      (s.hold = true → a.rcd.leader ≠ s.dev → v.action = none → a.rcd.when ∉ v.dropped → Runs s (.recordFire g c) (fun u => u.armed = [{ a with fired := true }] ∧
        becomes u (fun y => y.action = some (.launch, a.rcd.when) ∧ y.readyAt = s.clk) ∧
        (∃ m ∈ u.podOut, m.dev = a.rcd.leader ∧ m.convoy = c ∧ m.kind = .ready a.rcd.when v.sent) ∧
        Emits s u 2100000 (.commitTimeout g c) ∧ u.launches = s.launches ∧ u.threads = s.threads ∧ still u))) ∧
    (∀ x : Control, s.controls = [x] → x.rcd.guest = g → x.rcd.convoy = c → x.rcd.when ≤ s.wall → s.mustAgree g = false → s.convoyLive g c = true →
      v.action = none →
      (x.rcd.kind = 1 → v.tp = none → Runs s (.convoyStop g c) (fun u => u.controls = [] ∧ becomes u (fun y => y.tp = some x.rcd.when ∧
        y.stops = v.stops - 1 ∧ y.stopped = false ∧ y.done = some x) ∧ still u)) ∧
      (x.rcd.kind = 2 → v.tp ≠ none →
        Runs s (.convoyResume g c) (fun u => u.controls = [] ∧ becomes u (fun y => y.tp = none ∧ y.stopped = false) ∧ still u))) ∧
    (∀ t th, s.threads = [(t, th)] → s.convoyOf th = some c → th.guest = g → s.stopDone g c = true → v.done = none →
      Runs s (.stopCompletion g c) (fun u => (∃ th', u.thread? t = some th' ∧ th'.place = none ∧ th'.x = th.x ∧ th'.pc = th.pc) ∧
        becomes u (fun y => y.stopped = true) ∧ still u)) ∧
    (∀ t th x, s.threads = [(t, th)] → s.convoyOf th = some c → th.guest = g → th.halted = false → th.stopped = false →
      s.launch? th.launch = some x → v.inForce s.wall = true → v.stopped = false → x.rcd.policy = false →
      t ∉ v.strays → v.tpCycle + x.rcd.dist + 4200 ≤ s.clk → Runs s (.stragglerDeadline g c none) (fun u =>
        becomes u (fun y => y.strag = min 255 (v.strag + 1)) ∧ u.threads = s.threads ∧ still u)) ∧
    (v.stopped = true → Runs s (.stragglerDeadline g c none) (fun u => { u with event := s.event } = s)) ∧
    (∀ n, Runs s (.stragglerDeadline g c (some (n, false))) (fun u => becomes u (fun y => y.strag = min 255 (v.strag + n)) ∧
      u.threads = s.threads ∧ still u)) ∧
    (∀ w src counts, v.leader ≠ s.dev → Runs s (.ready g c w src counts) (fun u => becomes u (fun y => y.ready = v.ready ++ [(src, w, counts)]) ∧
      u.threads = s.threads ∧ still u)) ∧
    (∀ w n, v.action = none → Runs s (.commit g c w n) (fun u => { u with event := s.event } = s)) ∧
    (∀ n w, v.action = some (.stop, w) → Runs s (.commit g c w n) (fun u => becomes u (fun y => y.action = none ∧ y.tp = some s.wall ∧
      y.counted = n ∧ y.acted = some w ∧ y.done = v.actDone) ∧ still u)) ∧
    (∀ w missing, v.action = none → v.acted ≠ some w → Runs s (.abandon g c w missing) (fun u =>
      becomes u (fun y => y = { v with dropped := v.dropped ++ [w] }) ∧ u.errlog.length = s.errlog.length + missing.length ∧
      u.threads = s.threads ∧ still u)) ∧
    (∀ w, v.action = some (.launch, w) → (∀ p ∈ s.launches, p.2.status ≠ .waiting) →
      let fired := s.armed.filter (fun a => a.rcd.guest == g && a.rcd.convoy == c && a.fired)
      let absent := (s.podDevs g).filter (fun d => (readysAt w v.ready).all (fun p => p.1 != d))
      let gone := fun (k : Nat) (u : State) => becomes u (fun y => y.action = none ∧ y.aborted = true) ∧ u.errlog.length = s.errlog.length + k ∧
        (∀ a, a ∈ u.armed ↔ a ∈ s.armed ∧ a ∉ fired) ∧
        (∀ a ∈ fired, ∃ x, u.launch? a.number = some x ∧ x.status = .cancelled ∧ x.placed = 0) ∧
        (∀ n, (∀ a ∈ fired, a.number ≠ n) → u.launch? n = s.launch? n) ∧ u.threads = s.threads ∧ still u
      (∀ missing, Runs s (.abandon g c w missing) (gone missing.length)) ∧
      (v.readyAt + 105000 ≤ s.clk → Runs s (.readyTimeout g c) (gone absent.length)) ∧
      (v.readyAt + 2100000 ≤ s.clk → Runs s (.commitTimeout g c) (gone 1))) ∧
    (v.action = none → Runs s (.readyTimeout g c) (fun u => { u with event := s.event } = s) ∧
      Runs s (.commitTimeout g c) (fun u => { u with event := s.event } = s))

/-- R330 to R333, R340, R341, R343, R344, R376: the clock of the pod, the requests of peers, and the saving of a guest. The operands of the
events are the model's own (log entry 3). The clauses of syncFrame and holdoverEntry on HOLD, here and of the pod, rest on log entry 32; those of
guestSave, that a save is not complete at once and that its event comes again until it is, and of guestRestore, one access at a time, on log
entry 41; that of a notice of parking on log entry 70. -/
def Obligations.PodEvents : Prop :=
  ∀ s,
    (∀ w offset slew, Runs s (.syncFrame w offset slew) (fun u => u.synced = true ∧ u.lastSync = s.clk ∧ u.offset = offset ∧
      u.slew = max (-100) (min 100 slew) ∧ u.wall = (if s.synced then s.wall else w) ∧
      u.goodSyncs = (if offset.natAbs ≤ 50 then s.goodSyncs + 1 else 0) ∧ (u.hold = true ↔ s.hold = true ∧ u.goodSyncs < 16) ∧
      (200 < offset.natAbs → Emits s u 0 (.holdoverEntry s.dev true)) ∧ u.threads = s.threads ∧ u.mem = s.mem)) ∧
    Runs s (.holdoverEntry s.dev true) (fun u => u.hold = true ∧ u.goodSyncs = 0 ∧ u.threads = s.threads ∧ u.mem = s.mem) ∧
    (∀ d on, d ≠ s.dev → Runs s (.holdoverEntry d on) (fun u => (d ∈ u.podHold ↔ on = true) ∧ u.hold = s.hold ∧ u.threads = s.threads ∧
      u.mem = s.mem)) ∧
    (∀ (r : PeerReq) n e, r.convoy = 0 → r.what = .load n → r.va.toNat < 2 ^ 56 → (∀ x ∈ s.saved, x.guest ≠ r.guest) →
      s.walk r.guest r.va.toNat = .page e → e.r = true →
      let pa := e.phys r.va.toNat
      Calm s pa → Alive s pa r.guest → Runs s (.peerRequest r) (fun u => u.threads = s.threads ∧ u.mem = s.mem ∧
        ∃ a, u.peerAnswers = s.peerAnswers ++ [a] ∧ a.dev = r.dev ∧ a.rid = r.rid ∧ a.kind = .answer ∧ a.err = none ∧
          a.val = BitVec.ofNat 64 (numberAt s pa n) ∧ a.wts = (s.line (pa / 128)).wts)) ∧
    (∀ (r : PeerReq) since, r.what = .load 8 → s.heldPeer = [{ req := r, since := since }] → Runs s (.peerFaultService r.dev r.rid none) (fun u =>
      u.heldPeer = [] ∧ u.threads = s.threads ∧ u.mem = s.mem ∧ ∃ a f, u.peerAnswers = s.peerAnswers ++ [a] ∧ a.dev = r.dev ∧ a.rid = r.rid ∧
        a.err = some f ∧ f.cause = 5)) ∧
    (∀ rid op parked, Runs s (.holdingNotice rid op parked) (fun u =>
      (∀ o ∈ s.peerOut, o.rid = rid → o.op = op → (if parked then { o with parked := true } else { o with sentAt := s.clk }) ∈ u.peerOut) ∧
      (∀ o ∈ s.peerOut, ¬ (o.rid = rid ∧ o.op = op) → o ∈ u.peerOut) ∧ u.threads = s.threads ∧ u.mem = s.mem)) ∧
    (∀ (o : PeerOut) t th l, s.peerOut = [o] → o.tid = t → o.op = 0 → o.rid ≠ 0 → o.eng = none → o.held = false → o.redirected = false →
      (∃ n, o.what = .load n) → s.thread? t = some th → th.wait = .load o.rid l → HasHandler th →
      (o.sentAt + 2100000 ≤ s.clk → RunsOn s t (.peerTimeout o.rid 0) (fun u th' => InHandler th th' 0x0F 6 (some o.va) th.pc ∧
        o.dev ∈ u.unreachable ∧ u.peerOut = [] ∧ SameOthers s u t ∧ u.mem = s.mem)) ∧
      (s.clk < o.sentAt + 2100000 → Runs s (.peerTimeout o.rid 0) (fun u => { u with event := s.event } = s))) ∧
    (∀ g t th, s.threads = [(t, th)] → th.guest = g → th.halted = false → th.stopped = false → s.saved = [] →
      Runs s (.guestSave g) (fun u => (∃ th', u.thread? t = some th' ∧ th'.place = none ∧ th'.stopped = true ∧ th'.x = th.x ∧ th'.pc = th.pc) ∧
        (∃ v, u.saved = [v] ∧ v.guest = g ∧ v.complete = false ∧ v.quarantine = []) ∧ Emits s u 1 (.guestSave g) ∧ u.mem = s.mem)) ∧
    (∀ (v : SavedGuest), s.saved = [v] → v.complete = true → v.quarantine = [] → v.threads = [] → Runs s (.guestRestore v.guest none) (fun u =>
      u.saved = [] ∧ u.mem = s.mem)) ∧
    (∀ (v : SavedGuest) r rs, s.saved = [v] → v.complete = true → v.quarantine = r :: rs → v.serving = true → s.unserved r = false →
      Runs s (.guestRestore v.guest none) (fun u => u.saved = [{ v with quarantine := rs, serving := false }] ∧
        Emits s u 1 (.guestRestore v.guest none) ∧ u.threads = s.threads ∧ u.mem = s.mem))

/-- R228, R229, R281, R297 to R303, R367, R368, R370 to R373, R375: the events of errors, repair, power, boot and firmware's registers. The
operands of the events are the model's own (log entry 3). -/
def Obligations.DeviceEvents : Prop :=
  ∀ s,
    let still := fun (u : State) => u.threads = s.threads ∧ u.mem = s.mem
    (∀ line, (s.ownerOf (line * 128)).2 = (s.guest (s.ownerOf (line * 128)).1).gen → Runs s (.uncorrectableError (.home line)) (fun u =>
      (u.line line).poison = some (s.ownerOf (line * 128)).1 ∧ u.errlog.length = s.errlog.length + 1 ∧ still u)) ∧
    (∀ tile idx l, s.stashLine? tile idx = some l → l.dirty = true → idx < 1024 → Runs s (.uncorrectableError (.dirtyStash tile idx)) (fun u =>
      u.stashLine? tile idx = some { l with poison := true } ∧ still u)) ∧
    (∀ core line, Runs s (.uncorrectableError (.cleanL1 core line)) (fun u =>
      (∀ c ∈ KMap.getD u.l1 core [], c.line ≠ line) ∧ still u)) ∧
    (∀ l, Runs s (.correctedError l) (fun u => countOf l u.counters = countOf l s.counters + 1 ∧
      (9 ≤ countOf l s.counters + 1 → l ∈ u.lasting ∨ l ∈ s.retired) ∧ still u)) ∧
    Runs s .leakTick (fun u => u.counters = (s.counters.map (fun p => (p.1, p.2 - 1))).filter (fun p => p.2 != 0) ∧ still u) ∧
    (∀ n, .llc n ∈ s.lasting → Runs s (.retirement (.llc n)) (fun u => .llc n ∈ u.retired ∧ .llc n ∉ u.lasting ∧ still u)) ∧
    (∀ l, l < 20 → Runs s (.linkWake l) (fun u => l ∈ u.links ∧ u.errlog.length = s.errlog.length + 1 ∧ still u)) ∧
    (∀ l, Runs s (.linkAwake l) (fun u => l ∉ u.links ∧ still u)) ∧
    (∀ d, Runs s (.dieDead d) (fun u => d ∈ u.deadDies ∧ (d < 4 → u.halted = true) ∧ (4 ≤ d → u.halted = s.halted) ∧ still u)) ∧
    (∀ d, Runs s (.dieReset d) (fun u => KMap.getD u.incarn d 0 = KMap.getD s.incarn d 0 + 1 ∧
      KMap.getD u.accepted d 0 = KMap.getD s.incarn d 0 + 1 ∧ still u)) ∧
    (∀ tile, s.tileBusy tile = false → Runs s (.contextSave tile) (fun u => (∃ m, KMap.get? u.images tile = some m ∧ m.mx = (s.tile tile).mx ∧
      m.stamps = (s.tile tile).stamps ∧ m.park = (s.tile tile).park) ∧ still u)) ∧
    (∀ tile m, s.tileBusy tile = false → KMap.get? s.images tile = some m → Runs s (.contextRestore tile) (fun u =>
      (u.tile tile).mx = m.mx ∧ (u.tile tile).stamps = m.stamps ∧ (u.tile tile).park = m.park ∧ u.threads = s.threads)) ∧
    (∀ key images tables dev, s.booted = false →
      (s.bootFail = false → images ≠ [] → Config.sha512 key = Config.fusedKey → chainValid key images = true →
        Runs s (.boot key images tables dev) (fun u => u.booted = true ∧ u.fwm = Config.sha512 (images.flatMap Config.sha512) ∧
          u.dev = dev % 64 ∧ still u)) ∧
      ((images = [] ∨ Config.sha512 key ≠ Config.fusedKey ∨ chainValid key images = false) →
        Runs s (.boot key images tables dev) (fun u => u.booted = false ∧ u.bootFail = true ∧ still u)) ∧
      (s.bootFail = true → Runs s (.boot key images tables dev) (fun u => { u with event := s.event } = s))) ∧
    (∀ g nonce, s.booted = true → nonce.length = 64 → Runs s (.attestationRequest g nonce) (fun u => still u ∧ ∃ r, u.reports = s.reports ++ [r] ∧
      r.bytes.length = 340 ∧ r.bytes.take 4 = [1, 0, 0, 0] ∧ (r.bytes.drop 4).take 2 = [g, (s.guest g).gen] ∧
      (r.bytes.drop 8).take 8 = bytesOf s.wall.toNat 8 ∧ (r.bytes.drop 16).take 64 = nonce)) ∧
    (s.convoys = [] → s.launches = [] → Runs s .thermalTrip (fun u => u.halted = true ∧ u.thermal = true ∧ still u)) ∧
    (∀ d, (s.res = true → Runs s (.powerGate d) (fun u => { u with event := s.event } = s)) ∧
      (s.res = false → Runs s (.powerGate d) (fun u => ∃ e, u.gated = s.gated ++ [(d, e)] ∧ e % 16 = 0 ∧ s.clk + 16 ≤ e ∧ e ≤ s.clk + 31 ∧ still u))) ∧
    (∀ d n (v : Word), Runs s (.frctlWrite d n v) (fun u => still u ∧
      (v.toNat / 2 ^ 56 % 2 ^ 6 ≠ 0 ∨ v.toNat / 2 ^ 8 % 2 ^ 24 ≠ 0 → u.regions = s.regions) ∧
      (v.toNat / 2 ^ 56 % 2 ^ 6 = 0 → v.toNat / 2 ^ 8 % 2 ^ 24 = 0 → v.getLsbD 63 = false → (u.region d n.toNat).en = false ∧
        (u.region d n.toNat).block = v.toNat / 2 ^ 32 % 2 ^ 16 ∧ (u.region d n.toNat).dbase = (s.region d n.toNat).dbase))) ∧
    (∀ tile g (v : Word), Runs s (.gqosWrite tile g v) (fun u => still u ∧ ((u.tile tile).guest g).gqos =
      (let others := ((s.tile tile).guests.filter (fun p => p.1 != g.toNat)).map (fun p => p.2.gqos)
       let q := Gqos.ofNat v.toNat
       if Gqos.legal v.toNat = true ∧ (others.map (·.floor)).sum + q.floor ≤ 8 ∧ (others.map (·.share)).sum + q.share ≤ 1024 then q
       else ((s.tile tile).guest g).gqos))) ∧
    (∀ v : Word, Runs s (.snapctlWrite v) (fun u => still u ∧
      ((v.toNat / 2 ^ 12 % 2 ^ 50 ≠ 0 ∨ 2 < v.toNat / 2 ^ 8 % 2 ^ 4) → u.snapctl = s.snapctl) ∧
      (v.toNat / 2 ^ 12 % 2 ^ 50 = 0 → v.toNat / 2 ^ 8 % 2 ^ 4 ≤ 2 → u.snapctl.getLsbD 63 = v.getLsbD 63 ∧
        u.snapctl.toNat % 2 ^ 12 = v.toNat % 2 ^ 12))) ∧
    (s.snapctl.getLsbD 63 = true → Runs s .snapshotFire (fun u => u.snapctl.getLsbD 63 = false ∧ u.snapctl.getLsbD 62 = true ∧ still u ∧
      ∃ x, u.snap = some x ∧ x.clk = s.clk ∧ x.phases = s.tiles.map (fun p => (p.1, p.2.phase)))) ∧
    (∀ fn v, Runs s (.basicRegisterWrite fn v) (fun u => KMap.getD u.basic fn 0 = v ∧ still u)) ∧
    (∀ b (v : Word), Runs s (.expertRegisterWrite b .lease v) (fun u => still u ∧
      u.lease = (if 1 ≤ v.toNat ∧ v.toNat ≤ 255 ∧ s.res = false then v.toNat else s.lease))) ∧
    (∀ g e, (s.booted = false ∨ s.synced = false ∨ 16 < s.derated.length) → Runs s (.reservationRequest g e) (fun u => u.res = s.res ∧ u.epoch = s.epoch ∧ still u)) ∧
    (∀ g e, Runs s (.reservationRequest g e) (fun u => (u.res = s.res ∨ (u.res = true ∧ u.epoch = e)) ∧ still u)) ∧
    (∀ g, Runs s (.reservationEnd g) (fun u => u.reservations = s.reservations.filter (· != g) ∧
      u.res = (s.res && !(s.reservations.filter (· != g)).isEmpty) ∧ u.nextInst = s.nextInst ∧ still u)) ∧
    (∀ g first len gen backing areas tables, s.booted = true → s.partyOk g first len = true →
      Runs s (.guestCreation g first len gen backing areas 0 tables []) (fun u => u.threads = s.threads ∧
        (∀ p ∈ u.tiles, (p.2.guest g).fused = 0 ∧ (p.2.guest g).couriers = 0 ∧ (p.2.guest g).fwdnotes = 0) ∧
        u.guest g = { first := first, len := len, gen := gen, chg := 0, floor := 0, backing := backing, areas := areas, peers := [] })) ∧
    (∀ g dev named old, Runs s (.peerTableInstall g dev named old) (fun u => KMap.get? (u.guest g).peers dev = named ∧ still u))


/-! ## Decoding -/

/-- R42 to R56: every well-formed instruction word, laid out as its bytes, decodes to itself and leaves what follows; and bytes that
decode begin with the word that encodes what they decode to, which is well formed. -/
def Obligations.DecodeEncode : Prop :=
  (∀ i e rest, i.wf = true → encode i = some e → decodeBytes (e.bytes ++ rest) = some (i, rest)) ∧
    (∀ bs i rest, decodeBytes bs = some (i, rest) → i.wf = true ∧ ∃ e, encode i = some e ∧ bs = e.bytes ++ rest)

/-- R44 to R56: words written out from the spec's encodings decode to what they stand for, and words that R56 calls illegal do not
decode. -/
def Obligations.SampleWords : Prop :=
  decodeTableWord 32 0xA1408280 = some (.add (.k 8) (.k 8) (.x 20)) ∧
  decodeTableWord 32 0x00288480 = some (.addi (.x 8) (.x 0) 40) ∧
  decodeTableWord 32 0x03F898B0 = some (.beq (.x 11) (.x 0) 0x3F8) ∧
  decodeTableWord 32 0x00008400 = some (.addi (.x 0) (.x 0) 0) ∧
  decodeTableWord 32 0x100094A8 = some (.adr (.x 10) 0x8000) ∧
  decodeTableWord 16 0x7000 = some .nop16 ∧ decodeTableWord 16 0x0000 = none ∧ decodeTableWord 16 0x7800 = none ∧ decodeTableWord 32 0x00008000 = none ∧
  (∀ w : BitVec 32, w.toNat / 2 ^ 15 % 2 = 1 → w.toNat / 2 ^ 10 % 2 ^ 5 ∈ [0x1E, 0x1F] → decodeTableWord 32 w.toNat = none) ∧
  (∀ h : BitVec 16, h.toNat / 2 ^ 11 = 15 → decodeTableWord 16 h.toNat = none)

/-! ## The step -/

/-- The state in which the instruction of thread t, chosen on a core, is carried out: PENDING is cleared, the issue is noted, and the
front end has taken the word e, by translations that are now the ones used last (R18, R57, R87, R118). -/
def Sys2Proof.Claims.issued (s : State) (core t : Nat) (th : Thread) (e : Encoded) : State :=
  let s := ({ s with core := core + 1, cur := t, here := some (s.dieOfTile (core / 16)), inTurn := s.turn } : State).clearPending t th
  (({ (s.setThread t (th.atIssue s.clk)) with issuedNow := s.issuedNow ++ [(t, core)] } : State).fetchUsed th.home th.guest th.pc e).noteFetch t
    (th.atIssue s.clk)

/-- R42, R43, R56, R57, R118, R293: where nothing of the agenda is due, the thread that issues next carries out the instruction that the
bytes at its program counter decode to, unless its distance counter has run over and the instruction is no PREPT, which traps; bytes
that decode to nothing trap; a fetch that misses the translation buffers waits for its walk, and one that fails a check traps; and where
nothing is due and no thread issues, time passes. -/
def Sys2Proof.Claims.IssueRuns : Prop :=
  ∀ s, s.nextEntry = none →
    (∀ core t th, s.nextIssue = some (core, t) → s.thread? t = some th → s.faultedCommand t = none → (th.active = true ∨ th.nextEvent = none) →
      (∀ e, s.fetchWord th.home th.guest th.pc = .word e →
        let u := Claims.issued s core t th e
        (∀ i, e.decode = some i → (th.dist ≤ s.distOf th ∨ isPrept i = true) → step s = exec i u) ∧
        (∀ i, e.decode = some i → s.distOf th < th.dist → isPrept i = false → step s = exec .distanceOverrun u) ∧
        (e.decode = none → th.dist ≤ s.distOf th → step s = exec .unassignedEncoding u) ∧
        (e.decode = none → s.distOf th < th.dist → step s = exec .distanceOverrun u)) ∧
      (∀ c va, s.fetchWord th.home th.guest th.pc = .fail (.miss c) va → ∃ u th', step s = .next u ∧ u.thread? t = some th' ∧
        th'.wait = .fetchTlb va ∧ th'.pc = th.pc ∧ th'.x = th.x ∧ (∃ p ∈ u.agenda, p.work = .event (.translationInstalled t) ∧ p.due = s.clk + c) ∧
        SameOthers s u t ∧ u.mem = s.mem) ∧
      (∀ c d va, s.fetchWord th.home th.guest th.pc = .fail (.trap c d) va → th.dist ≤ s.distOf th → HasHandler th →
        ∃ u th', step s = .next u ∧ u.thread? t = some th' ∧ InHandler (th.atIssue s.clk) th' c d (some va) th.pc ∧
          SameOthers s u t ∧ u.mem = s.mem)) ∧
    (s.nextIssue = none → step s = .next s.passTime)

/-- The model's step of the agenda (log entry 1): an entry that is due, and no message that its tile would forward or hold, is taken
and carried out, an event with its operands, and the instruction of a thread that waits for it. -/
def Sys2Proof.Claims.AgendaRuns : Prop :=
  ∀ s p, s.nextEntry = some p → s.meeting p = .go →
    (∀ e, p.work = .event e → step s = exec e.instr { s.takeEntry p with event := some e }) ∧
    (∀ i, p.work = .word i → i.isWord = true → (s.takeEntry p).stillWaits p.cur = true → step s = exec i (s.takeEntry p)) ∧
    (∀ i, p.work = .word i → (s.takeEntry p).stillWaits p.cur = false → step s = .next (s.takeEntry p))

/-- A step is that of the instruction at the program counter of the thread that issues next, or that of an agenda entry. -/
def Obligations.StepRunsDecoded : Prop := Claims.IssueRuns ∧ Claims.AgendaRuns

/-! ## The machine as a whole -/

/-- R310, R332, R333, R269, R281, R119, R228, R311, R371: the values that the spec gives for reset. -/
def Obligations.ResetValues : Prop :=
  let s := State.reset
  s.clk = 0 ∧ s.wall = 0 ∧ s.synced = false ∧ s.hold = true ∧ s.nextInst = 2 ^ s.pexp ∧ s.snapctl = 0 ∧ s.snapat = 0 ∧
    (∀ tile g, ((s.tile tile).guest g).gqos = { lockq := 0, ceil := 16, floor := 0, vc := 0, tickets := 1, share := 0 }) ∧
    (∀ d n, s.region d n = Region.init) ∧ s.threads = [] ∧ s.Canonical ∧ s.Halfwords ∧ s.Orderly

/-- From a state whose threads have distinct numbers, however many steps follow, each answers a next state: no instruction and no
event stops the machine. Instructions that cannot go on trap, wait or end their thread (R56, R57, R287, R291). -/
def Obligations.StepAnswers : Prop := ∀ (s : State) (n : Nat), s.Orderly → s.SafeFor n

/-- Every step keeps memory in its canonical form, and the threads under distinct numbers. Both are the model's own (log entry 5): they rest on no
rule of the spec. -/
def Obligations.StepKeepsCanonical : Prop := ∀ s u : State, s.Canonical → step s = .next u → u.Canonical

/-- R42: bit 0 of every program counter is always 0. Every step keeps it so, and with it EPC, TVEC, the starts of the loop levels
and the code of launches. -/
def Obligations.StepKeepsHalfwords : Prop := ∀ s u : State, s.Halfwords → step s = .next u → u.Halfwords
end

