-- ==== Sys2Proof/Laws/KMap.lean ====
section
/-!
SUPPORT. Reading and writing collections keyed by a number, and the canonical form of memory.
-/

namespace Sys2Proof.Machine

open Sys2Proof

@[simp] theorem KMap.get?_set_self {α : Type} (m : List (Nat × α)) (k : Nat) (v : α) :
    KMap.get? (KMap.set m k v) k = some v := by
  induction m with
  | nil => simp [KMap.set, KMap.get?]
  | cons p m ih =>
    obtain ⟨k', v'⟩ := p
    simp only [KMap.set]
    split
    · simp [KMap.get?]
    · split
      · simp [KMap.get?]
      · simp [KMap.get?, ih]
        omega

theorem KMap.get?_set_ne {α : Type} (m : List (Nat × α)) {k k' : Nat} (v : α) (h : k' ≠ k) :
    KMap.get? (KMap.set m k v) k' = KMap.get? m k' := by
  induction m with
  | nil => simp [KMap.set, KMap.get?, Ne.symm h]
  | cons p m ih =>
    obtain ⟨k₀, v₀⟩ := p
    simp only [KMap.set]
    split
    · simp [KMap.get?, Ne.symm h]
    · split
      · rename_i h₂
        subst h₂
        simp [KMap.get?, Ne.symm h]
      · simp [KMap.get?, ih]

theorem KMap.get?_set {α : Type} (m : List (Nat × α)) (k k' : Nat) (v : α) :
    KMap.get? (KMap.set m k v) k' = if k' = k then some v else KMap.get? m k' := by
  split
  · rename_i h; subst h; simp
  · rename_i h; exact KMap.get?_set_ne m v h

theorem KMap.get?_erase {α : Type} (m : List (Nat × α)) (k k' : Nat) :
    KMap.get? (KMap.erase m k) k' = if k' = k then none else KMap.get? m k' := by
  induction m with
  | nil => simp [KMap.erase, KMap.get?]
  | cons p m ih =>
    obtain ⟨k₀, v₀⟩ := p
    simp only [KMap.erase]
    split
    · rename_i h₂; subst h₂
      rw [ih]
      by_cases h : k' = k₀
      · simp [h]
      · simp [KMap.get?, h, Ne.symm h]
    · rename_i h₂
      simp only [KMap.get?]
      by_cases h : k₀ = k'
      · subst h; simp [h₂]
      · simp [h, ih]

@[simp] theorem KMap.getD_set_self {α : Type} (m : List (Nat × α)) (k : Nat) (v d : α) :
    KMap.getD (KMap.set m k v) k d = v := by simp [KMap.getD]

theorem KMap.getD_set {α : Type} (m : List (Nat × α)) (k k' : Nat) (v d : α) :
    KMap.getD (KMap.set m k v) k' d = if k' = k then v else KMap.getD m k' d := by
  simp only [KMap.getD, KMap.get?_set]; split <;> simp

/-! ## Rising keys -/

/-- Every key of the collection lies above k. -/
def KMap.above {α : Type} (k : Nat) (m : List (Nat × α)) : Prop := ∀ p ∈ m, k < p.1

theorem KMap.sorted_cons {α : Type} (k : Nat) (v : α) (m : List (Nat × α)) :
    KMap.sorted ((k, v) :: m) = true ↔ KMap.above k m ∧ KMap.sorted m = true := by
  induction m generalizing k v with
  | nil => simp [KMap.sorted, KMap.above]
  | cons p m ih =>
    obtain ⟨k', v'⟩ := p
    have := ih k' v'
    constructor
    · intro h
      simp only [KMap.sorted, Bool.and_eq_true, decide_eq_true_eq] at h
      refine ⟨?_, h.2⟩
      intro q hq
      rcases List.mem_cons.mp hq with rfl | hq
      · exact h.1
      · have := (this.mp h.2).1 q hq
        omega
    · rintro ⟨h₁, h₂⟩
      simp only [KMap.sorted, Bool.and_eq_true, decide_eq_true_eq]
      exact ⟨h₁ (k', v') (List.mem_cons_self ..), h₂⟩

theorem KMap.mem_set {α : Type} {m : List (Nat × α)} {k : Nat} {v : α} {p : Nat × α} (h : p ∈ KMap.set m k v) :
    p = (k, v) ∨ p ∈ m := by
  induction m with
  | nil => simpa [KMap.set] using h
  | cons q m ih =>
    obtain ⟨k', v'⟩ := q
    simp only [KMap.set] at h
    split at h
    · simpa using h
    · split at h
      · rcases List.mem_cons.mp h with rfl | h
        · exact .inl rfl
        · exact .inr (List.mem_cons_of_mem _ h)
      · rcases List.mem_cons.mp h with rfl | h
        · exact .inr (List.mem_cons_self ..)
        · rcases ih h with h | h
          · exact .inl h
          · exact .inr (List.mem_cons_of_mem _ h)

theorem KMap.sorted_set {α : Type} {m : List (Nat × α)} (k : Nat) (v : α) (h : KMap.sorted m = true) :
    KMap.sorted (KMap.set m k v) = true := by
  induction m with
  | nil => rfl
  | cons q m ih =>
    obtain ⟨k', v'⟩ := q
    have ⟨ha, hs⟩ := (KMap.sorted_cons _ _ _).mp h
    simp only [KMap.set]
    split
    · rename_i hk
      refine (KMap.sorted_cons _ _ _).mpr ⟨?_, h⟩
      intro p hp
      rcases List.mem_cons.mp hp with rfl | hp
      · exact hk
      · have := ha p hp; omega
    · split
      · rename_i hk; subst hk
        exact (KMap.sorted_cons _ _ _).mpr ⟨ha, hs⟩
      · refine (KMap.sorted_cons _ _ _).mpr ⟨?_, ih hs⟩
        intro p hp
        rcases KMap.mem_set hp with rfl | hp
        · show k' < k; omega
        · exact ha p hp

theorem KMap.mem_erase {α : Type} {m : List (Nat × α)} {k : Nat} {p : Nat × α} (h : p ∈ KMap.erase m k) : p ∈ m := by
  induction m with
  | nil => simpa [KMap.erase] using h
  | cons q m ih =>
    obtain ⟨k', v'⟩ := q
    simp only [KMap.erase] at h
    split at h
    · exact List.mem_cons_of_mem _ (ih h)
    · rcases List.mem_cons.mp h with rfl | h
      · exact List.mem_cons_self ..
      · exact List.mem_cons_of_mem _ (ih h)

theorem KMap.sorted_erase {α : Type} {m : List (Nat × α)} (k : Nat) (h : KMap.sorted m = true) :
    KMap.sorted (KMap.erase m k) = true := by
  induction m with
  | nil => rfl
  | cons q m ih =>
    obtain ⟨k', v'⟩ := q
    have ⟨ha, hs⟩ := (KMap.sorted_cons _ _ _).mp h
    simp only [KMap.erase]
    split
    · exact ih hs
    · exact (KMap.sorted_cons _ _ _).mpr ⟨fun p hp => ha p (KMap.mem_erase hp), ih hs⟩

theorem KMap.sorted_filter {α : Type} {m : List (Nat × α)} (f : Nat × α → Bool) (h : KMap.sorted m = true) :
    KMap.sorted (m.filter f) = true := by
  induction m with
  | nil => rfl
  | cons q m ih =>
    have ⟨ha, hs⟩ := (KMap.sorted_cons _ _ _).mp h
    simp only [List.filter_cons]
    split
    · exact (KMap.sorted_cons _ _ _).mpr ⟨fun p hp => ha p (List.mem_filter.mp hp).1, ih hs⟩
    · exact ih hs

theorem KMap.get?_filter {α : Type} (m : List (Nat × α)) (f : Nat → Bool) (k : Nat) :
    KMap.get? (m.filter (fun c => f c.1)) k = if f k then KMap.get? m k else none := by
  induction m with
  | nil => simp [KMap.get?]
  | cons q m ih =>
    obtain ⟨k', v⟩ := q
    by_cases hk : k' = k
    · subst hk
      by_cases hf : f k' = true <;> simp_all [KMap.get?]
    · by_cases hf : f k' = true <;> simp_all [KMap.get?]

/-! ## Memory -/

/-- Wiping memory keeps the canonical form. -/
theorem Memory.wf_keep {m : List Host.Cell} (f : Nat → Bool) (h : Memory.wf m = true) : Memory.wf (Memory.keep m f) = true := by
  simp only [Memory.wf, Bool.and_eq_true, List.all_eq_true] at h ⊢
  exact ⟨KMap.sorted_filter _ h.1, fun p hp => h.2 p (List.mem_filter.mp hp).1⟩

/-- A byte that is kept reads as before, every other byte as 0. -/
theorem Memory.read_keep (m : List Host.Cell) (f : Nat → Bool) (a : Nat) :
    Memory.read (Memory.keep m f) a = if f a then Memory.read m a else 0 := by
  simp only [Memory.read, KMap.getD, Memory.keep, KMap.get?_filter]
  split <;> rfl

theorem Memory.read_write (m : List Host.Cell) (a a' : Nat) (v : Byte) :
    Memory.read (Memory.write m a v) a' = if a' = a then v else Memory.read m a' := by
  unfold Memory.read Memory.write
  split
  · rename_i h
    simp only [KMap.getD, KMap.get?_erase]
    split <;> simp [h]
  · rw [KMap.getD_set]

/-- A write keeps the canonical form. -/
theorem Memory.wf_write {m : List Host.Cell} (a : Nat) (v : Byte) (h : Memory.wf m = true) :
    Memory.wf (Memory.write m a v) = true := by
  simp only [Memory.wf, Bool.and_eq_true, List.all_eq_true] at h ⊢
  unfold Memory.write
  split
  · exact ⟨KMap.sorted_erase _ h.1, fun p hp => h.2 p (KMap.mem_erase hp)⟩
  · rename_i hv
    refine ⟨KMap.sorted_set _ _ h.1, fun p hp => ?_⟩
    rcases KMap.mem_set hp with rfl | hp
    · simpa using hv
    · exact h.2 p hp

/-- Every write of memory keeps the canonical form. -/
theorem Memory.wf_writeN {m : List Host.Cell} (a : Nat) (bs : List Byte) (h : Memory.wf m = true) :
    Memory.wf (Memory.writeN m a bs) = true := by
  induction bs generalizing m a with
  | nil => exact h
  | cons b bs ih => exact ih (a + 1) (Memory.wf_write a b h)

/-- A byte outside the bytes written reads as before. -/
theorem Memory.read_writeN_out (m : List Host.Cell) (a a' : Nat) (bs : List Byte) (h : a' < a ∨ a + bs.length ≤ a') :
    Memory.read (Memory.writeN m a bs) a' = Memory.read m a' := by
  induction bs generalizing m a with
  | nil => rfl
  | cons b bs ih =>
    simp only [List.length_cons] at h
    rw [Memory.writeN, ih _ _ (by omega), Memory.read_write]
    simp; omega

theorem Memory.read_writeN_in (m : List Host.Cell) (a j : Nat) (bs : List Byte) (h : j < bs.length) :
    Memory.read (Memory.writeN m a bs) (a + j) = bs[j] := by
  induction bs generalizing m a j with
  | nil => simp at h
  | cons b bs ih =>
    rw [Memory.writeN]
    cases j with
    | zero => rw [Memory.read_writeN_out _ _ _ _ (by omega), Memory.read_write]; simp
    | succ j =>
      have := ih (Memory.write m a b) (a + 1) j (by simpa using h)
      rw [show a + (j + 1) = a + 1 + j by omega, this]; simp

/-- The canonical form makes equal what reads equal: a list in it is known by its reads. -/
theorem Memory.read_of_mem {m : List Host.Cell} {c : Host.Cell} (h : Memory.wf m = true) (hc : c ∈ m) :
    Memory.read m c.1 = c.2 := by
  simp only [Memory.wf, Bool.and_eq_true] at h
  obtain ⟨h, -⟩ := h
  induction m with
  | nil => simp at hc
  | cons q m ih =>
    obtain ⟨k, v⟩ := q
    have ⟨ha, hs⟩ := (KMap.sorted_cons _ _ _).mp h
    rcases List.mem_cons.mp hc with rfl | hc
    · simp [Memory.read, KMap.getD, KMap.get?]
    · have := ha c hc
      have := ih hc hs
      simp only [Memory.read, KMap.getD, KMap.get?] at this ⊢
      rw [if_neg (by omega)]; exact this

/-- A read of as many bytes as were written, from where they were written, gives them. -/
theorem Memory.readN_writeN (m : List Host.Cell) (a : Nat) (bs : List Byte) :
    Memory.readN (Memory.writeN m a bs) a bs.length = bs := by
  suffices ∀ (bs : List Byte) (m : List Host.Cell) (a : Nat) (m' : List Host.Cell),
      (∀ j (h : j < bs.length), Memory.read m' (a + j) = bs[j]) → Memory.readN m' a bs.length = bs by
    exact this bs m a _ (fun j h => Memory.read_writeN_in m a j bs h)
  intro bs
  induction bs with
  | nil => intro m a m' _; rfl
  | cons b bs ih =>
    intro m a m' h
    simp only [List.length_cons, Memory.readN]
    have h0 := h 0 (by simp)
    simp only [Nat.add_zero, List.getElem_cons_zero] at h0
    rw [h0]
    congr 1
    apply ih m (a + 1) m'
    intro j hj
    have := h (j + 1) (by simpa using hj)
    rw [show a + 1 + j = a + (j + 1) by omega, this]; simp

end Sys2Proof.Machine
end

