-- ==== Sys2Proof/Laws/State.lean ====
section
/-!
SUPPORT. What the named updates of the state leave alone, field by field, and what they set.
-/

namespace Sys2Proof.Machine

open Sys2Proof

@[simp] theorem State.setThread_clk (s : State) (t : Nat) (th : Thread) : (s.setThread t th).clk = s.clk := rfl
@[simp] theorem State.setThread_wall (s : State) (t : Nat) (th : Thread) : (s.setThread t th).wall = s.wall := rfl
@[simp] theorem State.setThread_wallFrac (s : State) (t : Nat) (th : Thread) : (s.setThread t th).wallFrac = s.wallFrac := rfl
@[simp] theorem State.setThread_slew (s : State) (t : Nat) (th : Thread) : (s.setThread t th).slew = s.slew := rfl
@[simp] theorem State.setThread_synced (s : State) (t : Nat) (th : Thread) : (s.setThread t th).synced = s.synced := rfl
@[simp] theorem State.setThread_hold (s : State) (t : Nat) (th : Thread) : (s.setThread t th).hold = s.hold := rfl
@[simp] theorem State.setThread_offset (s : State) (t : Nat) (th : Thread) : (s.setThread t th).offset = s.offset := rfl
@[simp] theorem State.setThread_goodSyncs (s : State) (t : Nat) (th : Thread) : (s.setThread t th).goodSyncs = s.goodSyncs := rfl
@[simp] theorem State.setThread_lastSync (s : State) (t : Nat) (th : Thread) : (s.setThread t th).lastSync = s.lastSync := rfl
@[simp] theorem State.setThread_banks (s : State) (t : Nat) (th : Thread) : (s.setThread t th).banks = s.banks := rfl
@[simp] theorem State.setThread_l1 (s : State) (t : Nat) (th : Thread) : (s.setThread t th).l1 = s.l1 := rfl
@[simp] theorem State.setThread_utlb (s : State) (t : Nat) (th : Thread) : (s.setThread t th).utlb = s.utlb := rfl
@[simp] theorem State.setThread_rdvUpdates (s : State) (t : Nat) (th : Thread) : (s.setThread t th).rdvUpdates = s.rdvUpdates := rfl
@[simp] theorem State.setThread_lateWrites (s : State) (t : Nat) (th : Thread) : (s.setThread t th).lateWrites = s.lateWrites := rfl
@[simp] theorem State.setThread_kWrites (s : State) (t : Nat) (th : Thread) : (s.setThread t th).kWrites = s.kWrites := rfl
@[simp] theorem State.setThread_issuedNow (s : State) (t : Nat) (th : Thread) : (s.setThread t th).issuedNow = s.issuedNow := rfl
@[simp] theorem State.setThread_fetches (s : State) (t : Nat) (th : Thread) : (s.setThread t th).fetches = s.fetches := rfl
@[simp] theorem State.setThread_tiles (s : State) (t : Nat) (th : Thread) : (s.setThread t th).tiles = s.tiles := rfl
@[simp] theorem State.setThread_stash (s : State) (t : Nat) (th : Thread) : (s.setThread t th).stash = s.stash := rfl
@[simp] theorem State.setThread_l2 (s : State) (t : Nat) (th : Thread) : (s.setThread t th).l2 = s.l2 := rfl
@[simp] theorem State.setThread_locks (s : State) (t : Nat) (th : Thread) : (s.setThread t th).locks = s.locks := rfl
@[simp] theorem State.setThread_mem (s : State) (t : Nat) (th : Thread) : (s.setThread t th).mem = s.mem := rfl
@[simp] theorem State.setThread_lines (s : State) (t : Nat) (th : Thread) : (s.setThread t th).lines = s.lines := rfl
@[simp] theorem State.setThread_arms (s : State) (t : Nat) (th : Thread) : (s.setThread t th).arms = s.arms := rfl
@[simp] theorem State.setThread_frames (s : State) (t : Nat) (th : Thread) : (s.setThread t th).frames = s.frames := rfl
@[simp] theorem State.setThread_anchors (s : State) (t : Nat) (th : Thread) : (s.setThread t th).anchors = s.anchors := rfl
@[simp] theorem State.setThread_tables (s : State) (t : Nat) (th : Thread) : (s.setThread t th).tables = s.tables := rfl
@[simp] theorem State.setThread_migrating (s : State) (t : Nat) (th : Thread) : (s.setThread t th).migrating = s.migrating := rfl
@[simp] theorem State.setThread_regions (s : State) (t : Nat) (th : Thread) : (s.setThread t th).regions = s.regions := rfl
@[simp] theorem State.setThread_lease (s : State) (t : Nat) (th : Thread) : (s.setThread t th).lease = s.lease := rfl
@[simp] theorem State.setThread_tagged (s : State) (t : Nat) (th : Thread) : (s.setThread t th).tagged = s.tagged := rfl
@[simp] theorem State.setThread_agenda (s : State) (t : Nat) (th : Thread) : (s.setThread t th).agenda = s.agenda := rfl
@[simp] theorem State.setThread_peerOut (s : State) (t : Nat) (th : Thread) : (s.setThread t th).peerOut = s.peerOut := rfl
@[simp] theorem State.setThread_peerAnswers (s : State) (t : Nat) (th : Thread) : (s.setThread t th).peerAnswers = s.peerAnswers := rfl
@[simp] theorem State.setThread_podOut (s : State) (t : Nat) (th : Thread) : (s.setThread t th).podOut = s.podOut := rfl
@[simp] theorem State.setThread_heldPeer (s : State) (t : Nat) (th : Thread) : (s.setThread t th).heldPeer = s.heldPeer := rfl
@[simp] theorem State.setThread_guests (s : State) (t : Nat) (th : Thread) : (s.setThread t th).guests = s.guests := rfl
@[simp] theorem State.setThread_launches (s : State) (t : Nat) (th : Thread) : (s.setThread t th).launches = s.launches := rfl
@[simp] theorem State.setThread_convoys (s : State) (t : Nat) (th : Thread) : (s.setThread t th).convoys = s.convoys := rfl
@[simp] theorem State.setThread_armed (s : State) (t : Nat) (th : Thread) : (s.setThread t th).armed = s.armed := rfl
@[simp] theorem State.setThread_controls (s : State) (t : Nat) (th : Thread) : (s.setThread t th).controls = s.controls := rfl
@[simp] theorem State.setThread_queues (s : State) (t : Nat) (th : Thread) : (s.setThread t th).queues = s.queues := rfl
@[simp] theorem State.setThread_saved (s : State) (t : Nat) (th : Thread) : (s.setThread t th).saved = s.saved := rfl
@[simp] theorem State.setThread_doneOwed (s : State) (t : Nat) (th : Thread) : (s.setThread t th).doneOwed = s.doneOwed := rfl
@[simp] theorem State.setThread_images (s : State) (t : Nat) (th : Thread) : (s.setThread t th).images = s.images := rfl
@[simp] theorem State.setThread_pexp (s : State) (t : Nat) (th : Thread) : (s.setThread t th).pexp = s.pexp := rfl
@[simp] theorem State.setThread_res (s : State) (t : Nat) (th : Thread) : (s.setThread t th).res = s.res := rfl
@[simp] theorem State.setThread_reservations (s : State) (t : Nat) (th : Thread) : (s.setThread t th).reservations = s.reservations := rfl
@[simp] theorem State.setThread_epoch (s : State) (t : Nat) (th : Thread) : (s.setThread t th).epoch = s.epoch := rfl
@[simp] theorem State.setThread_instantK (s : State) (t : Nat) (th : Thread) : (s.setThread t th).instantK = s.instantK := rfl
@[simp] theorem State.setThread_nextInst (s : State) (t : Nat) (th : Thread) : (s.setThread t th).nextInst = s.nextInst := rfl
@[simp] theorem State.setThread_turn (s : State) (t : Nat) (th : Thread) : (s.setThread t th).turn = s.turn := rfl
@[simp] theorem State.setThread_paused (s : State) (t : Nat) (th : Thread) : (s.setThread t th).paused = s.paused := rfl
@[simp] theorem State.setThread_stopAt (s : State) (t : Nat) (th : Thread) : (s.setThread t th).stopAt = s.stopAt := rfl
@[simp] theorem State.setThread_preOn (s : State) (t : Nat) (th : Thread) : (s.setThread t th).preOn = s.preOn := rfl
@[simp] theorem State.setThread_chglate (s : State) (t : Nat) (th : Thread) : (s.setThread t th).chglate = s.chglate := rfl
@[simp] theorem State.setThread_postponed (s : State) (t : Nat) (th : Thread) : (s.setThread t th).postponed = s.postponed := rfl
@[simp] theorem State.setThread_dev (s : State) (t : Nat) (th : Thread) : (s.setThread t th).dev = s.dev := rfl
@[simp] theorem State.setThread_podHold (s : State) (t : Nat) (th : Thread) : (s.setThread t th).podHold = s.podHold := rfl
@[simp] theorem State.setThread_unreachable (s : State) (t : Nat) (th : Thread) : (s.setThread t th).unreachable = s.unreachable := rfl
@[simp] theorem State.setThread_booted (s : State) (t : Nat) (th : Thread) : (s.setThread t th).booted = s.booted := rfl
@[simp] theorem State.setThread_bootFail (s : State) (t : Nat) (th : Thread) : (s.setThread t th).bootFail = s.bootFail := rfl
@[simp] theorem State.setThread_fwm (s : State) (t : Nat) (th : Thread) : (s.setThread t th).fwm = s.fwm := rfl
@[simp] theorem State.setThread_reports (s : State) (t : Nat) (th : Thread) : (s.setThread t th).reports = s.reports := rfl
@[simp] theorem State.setThread_errlog (s : State) (t : Nat) (th : Thread) : (s.setThread t th).errlog = s.errlog := rfl
@[simp] theorem State.setThread_counters (s : State) (t : Nat) (th : Thread) : (s.setThread t th).counters = s.counters := rfl
@[simp] theorem State.setThread_lasting (s : State) (t : Nat) (th : Thread) : (s.setThread t th).lasting = s.lasting := rfl
@[simp] theorem State.setThread_retired (s : State) (t : Nat) (th : Thread) : (s.setThread t th).retired = s.retired := rfl
@[simp] theorem State.setThread_derated (s : State) (t : Nat) (th : Thread) : (s.setThread t th).derated = s.derated := rfl
@[simp] theorem State.setThread_degraded (s : State) (t : Nat) (th : Thread) : (s.setThread t th).degraded = s.degraded := rfl
@[simp] theorem State.setThread_links (s : State) (t : Nat) (th : Thread) : (s.setThread t th).links = s.links := rfl
@[simp] theorem State.setThread_deadDies (s : State) (t : Nat) (th : Thread) : (s.setThread t th).deadDies = s.deadDies := rfl
@[simp] theorem State.setThread_incarn (s : State) (t : Nat) (th : Thread) : (s.setThread t th).incarn = s.incarn := rfl
@[simp] theorem State.setThread_accepted (s : State) (t : Nat) (th : Thread) : (s.setThread t th).accepted = s.accepted := rfl
@[simp] theorem State.setThread_gated (s : State) (t : Nat) (th : Thread) : (s.setThread t th).gated = s.gated := rfl
@[simp] theorem State.setThread_thermal (s : State) (t : Nat) (th : Thread) : (s.setThread t th).thermal = s.thermal := rfl
@[simp] theorem State.setThread_halted (s : State) (t : Nat) (th : Thread) : (s.setThread t th).halted = s.halted := rfl
@[simp] theorem State.setThread_snapctl (s : State) (t : Nat) (th : Thread) : (s.setThread t th).snapctl = s.snapctl := rfl
@[simp] theorem State.setThread_snapat (s : State) (t : Nat) (th : Thread) : (s.setThread t th).snapat = s.snapat := rfl
@[simp] theorem State.setThread_snapDue (s : State) (t : Nat) (th : Thread) : (s.setThread t th).snapDue = s.snapDue := rfl
@[simp] theorem State.setThread_snap (s : State) (t : Nat) (th : Thread) : (s.setThread t th).snap = s.snap := rfl
@[simp] theorem State.setThread_basic (s : State) (t : Nat) (th : Thread) : (s.setThread t th).basic = s.basic := rfl
@[simp] theorem State.setThread_cur (s : State) (t : Nat) (th : Thread) : (s.setThread t th).cur = s.cur := rfl
@[simp] theorem State.setThread_event (s : State) (t : Nat) (th : Thread) : (s.setThread t th).event = s.event := rfl
@[simp] theorem State.setThread_inTurn (s : State) (t : Nat) (th : Thread) : (s.setThread t th).inTurn = s.inTurn := rfl
@[simp] theorem State.setThread_here (s : State) (t : Nat) (th : Thread) : (s.setThread t th).here = s.here := rfl
@[simp] theorem State.setThread_spares (s : State) (t : Nat) (th : Thread) : (s.setThread t th).spares = s.spares := rfl
@[simp] theorem State.setThread_seen (s : State) (t : Nat) (th : Thread) : (s.setThread t th).seen = s.seen := rfl
@[simp] theorem State.setThread_lateExpert (s : State) (t : Nat) (th : Thread) : (s.setThread t th).lateExpert = s.lateExpert := rfl
@[simp] theorem State.setThread_owners (s : State) (t : Nat) (th : Thread) : (s.setThread t th).owners = s.owners := rfl
@[simp] theorem State.setThread_core (s : State) (t : Nat) (th : Thread) : (s.setThread t th).core = s.core := rfl
@[simp] theorem State.setThread_fresh (s : State) (t : Nat) (th : Thread) : (s.setThread t th).fresh = s.fresh := rfl
@[simp] theorem State.setThread_seq (s : State) (t : Nat) (th : Thread) : (s.setThread t th).seq = s.seq := rfl
@[simp] theorem State.setThread_nextTid (s : State) (t : Nat) (th : Thread) : (s.setThread t th).nextTid = s.nextTid := rfl
@[simp] theorem State.setThread_nextOp (s : State) (t : Nat) (th : Thread) : (s.setThread t th).nextOp = s.nextOp := rfl
@[simp] theorem State.setThread_nextRid (s : State) (t : Nat) (th : Thread) : (s.setThread t th).nextRid = s.nextRid := rfl
@[simp] theorem State.setThread_nextLaunch (s : State) (t : Nat) (th : Thread) : (s.setThread t th).nextLaunch = s.nextLaunch := rfl

@[simp] theorem State.setTile_clk (s : State) (n : Nat) (x : Tile) : (s.setTile n x).clk = s.clk := rfl
@[simp] theorem State.setTile_wall (s : State) (n : Nat) (x : Tile) : (s.setTile n x).wall = s.wall := rfl
@[simp] theorem State.setTile_wallFrac (s : State) (n : Nat) (x : Tile) : (s.setTile n x).wallFrac = s.wallFrac := rfl
@[simp] theorem State.setTile_slew (s : State) (n : Nat) (x : Tile) : (s.setTile n x).slew = s.slew := rfl
@[simp] theorem State.setTile_synced (s : State) (n : Nat) (x : Tile) : (s.setTile n x).synced = s.synced := rfl
@[simp] theorem State.setTile_hold (s : State) (n : Nat) (x : Tile) : (s.setTile n x).hold = s.hold := rfl
@[simp] theorem State.setTile_offset (s : State) (n : Nat) (x : Tile) : (s.setTile n x).offset = s.offset := rfl
@[simp] theorem State.setTile_goodSyncs (s : State) (n : Nat) (x : Tile) : (s.setTile n x).goodSyncs = s.goodSyncs := rfl
@[simp] theorem State.setTile_lastSync (s : State) (n : Nat) (x : Tile) : (s.setTile n x).lastSync = s.lastSync := rfl
@[simp] theorem State.setTile_threads (s : State) (n : Nat) (x : Tile) : (s.setTile n x).threads = s.threads := rfl
@[simp] theorem State.setTile_banks (s : State) (n : Nat) (x : Tile) : (s.setTile n x).banks = s.banks := rfl
@[simp] theorem State.setTile_l1 (s : State) (n : Nat) (x : Tile) : (s.setTile n x).l1 = s.l1 := rfl
@[simp] theorem State.setTile_utlb (s : State) (n : Nat) (x : Tile) : (s.setTile n x).utlb = s.utlb := rfl
@[simp] theorem State.setTile_rdvUpdates (s : State) (n : Nat) (x : Tile) : (s.setTile n x).rdvUpdates = s.rdvUpdates := rfl
@[simp] theorem State.setTile_lateWrites (s : State) (n : Nat) (x : Tile) : (s.setTile n x).lateWrites = s.lateWrites := rfl
@[simp] theorem State.setTile_kWrites (s : State) (n : Nat) (x : Tile) : (s.setTile n x).kWrites = s.kWrites := rfl
@[simp] theorem State.setTile_issuedNow (s : State) (n : Nat) (x : Tile) : (s.setTile n x).issuedNow = s.issuedNow := rfl
@[simp] theorem State.setTile_fetches (s : State) (n : Nat) (x : Tile) : (s.setTile n x).fetches = s.fetches := rfl
@[simp] theorem State.setTile_stash (s : State) (n : Nat) (x : Tile) : (s.setTile n x).stash = s.stash := rfl
@[simp] theorem State.setTile_l2 (s : State) (n : Nat) (x : Tile) : (s.setTile n x).l2 = s.l2 := rfl
@[simp] theorem State.setTile_locks (s : State) (n : Nat) (x : Tile) : (s.setTile n x).locks = s.locks := rfl
@[simp] theorem State.setTile_mem (s : State) (n : Nat) (x : Tile) : (s.setTile n x).mem = s.mem := rfl
@[simp] theorem State.setTile_lines (s : State) (n : Nat) (x : Tile) : (s.setTile n x).lines = s.lines := rfl
@[simp] theorem State.setTile_arms (s : State) (n : Nat) (x : Tile) : (s.setTile n x).arms = s.arms := rfl
@[simp] theorem State.setTile_frames (s : State) (n : Nat) (x : Tile) : (s.setTile n x).frames = s.frames := rfl
@[simp] theorem State.setTile_anchors (s : State) (n : Nat) (x : Tile) : (s.setTile n x).anchors = s.anchors := rfl
@[simp] theorem State.setTile_tables (s : State) (n : Nat) (x : Tile) : (s.setTile n x).tables = s.tables := rfl
@[simp] theorem State.setTile_migrating (s : State) (n : Nat) (x : Tile) : (s.setTile n x).migrating = s.migrating := rfl
@[simp] theorem State.setTile_regions (s : State) (n : Nat) (x : Tile) : (s.setTile n x).regions = s.regions := rfl
@[simp] theorem State.setTile_lease (s : State) (n : Nat) (x : Tile) : (s.setTile n x).lease = s.lease := rfl
@[simp] theorem State.setTile_tagged (s : State) (n : Nat) (x : Tile) : (s.setTile n x).tagged = s.tagged := rfl
@[simp] theorem State.setTile_agenda (s : State) (n : Nat) (x : Tile) : (s.setTile n x).agenda = s.agenda := rfl
@[simp] theorem State.setTile_peerOut (s : State) (n : Nat) (x : Tile) : (s.setTile n x).peerOut = s.peerOut := rfl
@[simp] theorem State.setTile_peerAnswers (s : State) (n : Nat) (x : Tile) : (s.setTile n x).peerAnswers = s.peerAnswers := rfl
@[simp] theorem State.setTile_podOut (s : State) (n : Nat) (x : Tile) : (s.setTile n x).podOut = s.podOut := rfl
@[simp] theorem State.setTile_heldPeer (s : State) (n : Nat) (x : Tile) : (s.setTile n x).heldPeer = s.heldPeer := rfl
@[simp] theorem State.setTile_guests (s : State) (n : Nat) (x : Tile) : (s.setTile n x).guests = s.guests := rfl
@[simp] theorem State.setTile_launches (s : State) (n : Nat) (x : Tile) : (s.setTile n x).launches = s.launches := rfl
@[simp] theorem State.setTile_convoys (s : State) (n : Nat) (x : Tile) : (s.setTile n x).convoys = s.convoys := rfl
@[simp] theorem State.setTile_armed (s : State) (n : Nat) (x : Tile) : (s.setTile n x).armed = s.armed := rfl
@[simp] theorem State.setTile_controls (s : State) (n : Nat) (x : Tile) : (s.setTile n x).controls = s.controls := rfl
@[simp] theorem State.setTile_queues (s : State) (n : Nat) (x : Tile) : (s.setTile n x).queues = s.queues := rfl
@[simp] theorem State.setTile_saved (s : State) (n : Nat) (x : Tile) : (s.setTile n x).saved = s.saved := rfl
@[simp] theorem State.setTile_doneOwed (s : State) (n : Nat) (x : Tile) : (s.setTile n x).doneOwed = s.doneOwed := rfl
@[simp] theorem State.setTile_images (s : State) (n : Nat) (x : Tile) : (s.setTile n x).images = s.images := rfl
@[simp] theorem State.setTile_pexp (s : State) (n : Nat) (x : Tile) : (s.setTile n x).pexp = s.pexp := rfl
@[simp] theorem State.setTile_res (s : State) (n : Nat) (x : Tile) : (s.setTile n x).res = s.res := rfl
@[simp] theorem State.setTile_reservations (s : State) (n : Nat) (x : Tile) : (s.setTile n x).reservations = s.reservations := rfl
@[simp] theorem State.setTile_epoch (s : State) (n : Nat) (x : Tile) : (s.setTile n x).epoch = s.epoch := rfl
@[simp] theorem State.setTile_instantK (s : State) (n : Nat) (x : Tile) : (s.setTile n x).instantK = s.instantK := rfl
@[simp] theorem State.setTile_nextInst (s : State) (n : Nat) (x : Tile) : (s.setTile n x).nextInst = s.nextInst := rfl
@[simp] theorem State.setTile_turn (s : State) (n : Nat) (x : Tile) : (s.setTile n x).turn = s.turn := rfl
@[simp] theorem State.setTile_paused (s : State) (n : Nat) (x : Tile) : (s.setTile n x).paused = s.paused := rfl
@[simp] theorem State.setTile_stopAt (s : State) (n : Nat) (x : Tile) : (s.setTile n x).stopAt = s.stopAt := rfl
@[simp] theorem State.setTile_preOn (s : State) (n : Nat) (x : Tile) : (s.setTile n x).preOn = s.preOn := rfl
@[simp] theorem State.setTile_chglate (s : State) (n : Nat) (x : Tile) : (s.setTile n x).chglate = s.chglate := rfl
@[simp] theorem State.setTile_postponed (s : State) (n : Nat) (x : Tile) : (s.setTile n x).postponed = s.postponed := rfl
@[simp] theorem State.setTile_dev (s : State) (n : Nat) (x : Tile) : (s.setTile n x).dev = s.dev := rfl
@[simp] theorem State.setTile_podHold (s : State) (n : Nat) (x : Tile) : (s.setTile n x).podHold = s.podHold := rfl
@[simp] theorem State.setTile_unreachable (s : State) (n : Nat) (x : Tile) : (s.setTile n x).unreachable = s.unreachable := rfl
@[simp] theorem State.setTile_booted (s : State) (n : Nat) (x : Tile) : (s.setTile n x).booted = s.booted := rfl
@[simp] theorem State.setTile_bootFail (s : State) (n : Nat) (x : Tile) : (s.setTile n x).bootFail = s.bootFail := rfl
@[simp] theorem State.setTile_fwm (s : State) (n : Nat) (x : Tile) : (s.setTile n x).fwm = s.fwm := rfl
@[simp] theorem State.setTile_reports (s : State) (n : Nat) (x : Tile) : (s.setTile n x).reports = s.reports := rfl
@[simp] theorem State.setTile_errlog (s : State) (n : Nat) (x : Tile) : (s.setTile n x).errlog = s.errlog := rfl
@[simp] theorem State.setTile_counters (s : State) (n : Nat) (x : Tile) : (s.setTile n x).counters = s.counters := rfl
@[simp] theorem State.setTile_lasting (s : State) (n : Nat) (x : Tile) : (s.setTile n x).lasting = s.lasting := rfl
@[simp] theorem State.setTile_retired (s : State) (n : Nat) (x : Tile) : (s.setTile n x).retired = s.retired := rfl
@[simp] theorem State.setTile_derated (s : State) (n : Nat) (x : Tile) : (s.setTile n x).derated = s.derated := rfl
@[simp] theorem State.setTile_degraded (s : State) (n : Nat) (x : Tile) : (s.setTile n x).degraded = s.degraded := rfl
@[simp] theorem State.setTile_links (s : State) (n : Nat) (x : Tile) : (s.setTile n x).links = s.links := rfl
@[simp] theorem State.setTile_deadDies (s : State) (n : Nat) (x : Tile) : (s.setTile n x).deadDies = s.deadDies := rfl
@[simp] theorem State.setTile_incarn (s : State) (n : Nat) (x : Tile) : (s.setTile n x).incarn = s.incarn := rfl
@[simp] theorem State.setTile_accepted (s : State) (n : Nat) (x : Tile) : (s.setTile n x).accepted = s.accepted := rfl
@[simp] theorem State.setTile_gated (s : State) (n : Nat) (x : Tile) : (s.setTile n x).gated = s.gated := rfl
@[simp] theorem State.setTile_thermal (s : State) (n : Nat) (x : Tile) : (s.setTile n x).thermal = s.thermal := rfl
@[simp] theorem State.setTile_halted (s : State) (n : Nat) (x : Tile) : (s.setTile n x).halted = s.halted := rfl
@[simp] theorem State.setTile_snapctl (s : State) (n : Nat) (x : Tile) : (s.setTile n x).snapctl = s.snapctl := rfl
@[simp] theorem State.setTile_snapat (s : State) (n : Nat) (x : Tile) : (s.setTile n x).snapat = s.snapat := rfl
@[simp] theorem State.setTile_snapDue (s : State) (n : Nat) (x : Tile) : (s.setTile n x).snapDue = s.snapDue := rfl
@[simp] theorem State.setTile_snap (s : State) (n : Nat) (x : Tile) : (s.setTile n x).snap = s.snap := rfl
@[simp] theorem State.setTile_basic (s : State) (n : Nat) (x : Tile) : (s.setTile n x).basic = s.basic := rfl
@[simp] theorem State.setTile_cur (s : State) (n : Nat) (x : Tile) : (s.setTile n x).cur = s.cur := rfl
@[simp] theorem State.setTile_event (s : State) (n : Nat) (x : Tile) : (s.setTile n x).event = s.event := rfl
@[simp] theorem State.setTile_inTurn (s : State) (n : Nat) (x : Tile) : (s.setTile n x).inTurn = s.inTurn := rfl
@[simp] theorem State.setTile_here (s : State) (n : Nat) (x : Tile) : (s.setTile n x).here = s.here := rfl
@[simp] theorem State.setTile_spares (s : State) (n : Nat) (x : Tile) : (s.setTile n x).spares = s.spares := rfl
@[simp] theorem State.setTile_seen (s : State) (n : Nat) (x : Tile) : (s.setTile n x).seen = s.seen := rfl
@[simp] theorem State.setTile_lateExpert (s : State) (n : Nat) (x : Tile) : (s.setTile n x).lateExpert = s.lateExpert := rfl
@[simp] theorem State.setTile_owners (s : State) (n : Nat) (x : Tile) : (s.setTile n x).owners = s.owners := rfl
@[simp] theorem State.setTile_core (s : State) (n : Nat) (x : Tile) : (s.setTile n x).core = s.core := rfl
@[simp] theorem State.setTile_fresh (s : State) (n : Nat) (x : Tile) : (s.setTile n x).fresh = s.fresh := rfl
@[simp] theorem State.setTile_seq (s : State) (n : Nat) (x : Tile) : (s.setTile n x).seq = s.seq := rfl
@[simp] theorem State.setTile_nextTid (s : State) (n : Nat) (x : Tile) : (s.setTile n x).nextTid = s.nextTid := rfl
@[simp] theorem State.setTile_nextOp (s : State) (n : Nat) (x : Tile) : (s.setTile n x).nextOp = s.nextOp := rfl
@[simp] theorem State.setTile_nextRid (s : State) (n : Nat) (x : Tile) : (s.setTile n x).nextRid = s.nextRid := rfl
@[simp] theorem State.setTile_nextLaunch (s : State) (n : Nat) (x : Tile) : (s.setTile n x).nextLaunch = s.nextLaunch := rfl

@[simp] theorem State.setLine_clk (s : State) (l : Nat) (x : HomeLine) : (s.setLine l x).clk = s.clk := rfl
@[simp] theorem State.setLine_wall (s : State) (l : Nat) (x : HomeLine) : (s.setLine l x).wall = s.wall := rfl
@[simp] theorem State.setLine_wallFrac (s : State) (l : Nat) (x : HomeLine) : (s.setLine l x).wallFrac = s.wallFrac := rfl
@[simp] theorem State.setLine_slew (s : State) (l : Nat) (x : HomeLine) : (s.setLine l x).slew = s.slew := rfl
@[simp] theorem State.setLine_synced (s : State) (l : Nat) (x : HomeLine) : (s.setLine l x).synced = s.synced := rfl
@[simp] theorem State.setLine_hold (s : State) (l : Nat) (x : HomeLine) : (s.setLine l x).hold = s.hold := rfl
@[simp] theorem State.setLine_offset (s : State) (l : Nat) (x : HomeLine) : (s.setLine l x).offset = s.offset := rfl
@[simp] theorem State.setLine_goodSyncs (s : State) (l : Nat) (x : HomeLine) : (s.setLine l x).goodSyncs = s.goodSyncs := rfl
@[simp] theorem State.setLine_lastSync (s : State) (l : Nat) (x : HomeLine) : (s.setLine l x).lastSync = s.lastSync := rfl
@[simp] theorem State.setLine_threads (s : State) (l : Nat) (x : HomeLine) : (s.setLine l x).threads = s.threads := rfl
@[simp] theorem State.setLine_banks (s : State) (l : Nat) (x : HomeLine) : (s.setLine l x).banks = s.banks := rfl
@[simp] theorem State.setLine_l1 (s : State) (l : Nat) (x : HomeLine) : (s.setLine l x).l1 = s.l1 := rfl
@[simp] theorem State.setLine_utlb (s : State) (l : Nat) (x : HomeLine) : (s.setLine l x).utlb = s.utlb := rfl
@[simp] theorem State.setLine_rdvUpdates (s : State) (l : Nat) (x : HomeLine) : (s.setLine l x).rdvUpdates = s.rdvUpdates := rfl
@[simp] theorem State.setLine_lateWrites (s : State) (l : Nat) (x : HomeLine) : (s.setLine l x).lateWrites = s.lateWrites := rfl
@[simp] theorem State.setLine_kWrites (s : State) (l : Nat) (x : HomeLine) : (s.setLine l x).kWrites = s.kWrites := rfl
@[simp] theorem State.setLine_issuedNow (s : State) (l : Nat) (x : HomeLine) : (s.setLine l x).issuedNow = s.issuedNow := rfl
@[simp] theorem State.setLine_fetches (s : State) (l : Nat) (x : HomeLine) : (s.setLine l x).fetches = s.fetches := rfl
@[simp] theorem State.setLine_tiles (s : State) (l : Nat) (x : HomeLine) : (s.setLine l x).tiles = s.tiles := rfl
@[simp] theorem State.setLine_stash (s : State) (l : Nat) (x : HomeLine) : (s.setLine l x).stash = s.stash := rfl
@[simp] theorem State.setLine_l2 (s : State) (l : Nat) (x : HomeLine) : (s.setLine l x).l2 = s.l2 := rfl
@[simp] theorem State.setLine_locks (s : State) (l : Nat) (x : HomeLine) : (s.setLine l x).locks = s.locks := rfl
@[simp] theorem State.setLine_mem (s : State) (l : Nat) (x : HomeLine) : (s.setLine l x).mem = s.mem := rfl
@[simp] theorem State.setLine_arms (s : State) (l : Nat) (x : HomeLine) : (s.setLine l x).arms = s.arms := rfl
@[simp] theorem State.setLine_frames (s : State) (l : Nat) (x : HomeLine) : (s.setLine l x).frames = s.frames := rfl
@[simp] theorem State.setLine_anchors (s : State) (l : Nat) (x : HomeLine) : (s.setLine l x).anchors = s.anchors := rfl
@[simp] theorem State.setLine_tables (s : State) (l : Nat) (x : HomeLine) : (s.setLine l x).tables = s.tables := rfl
@[simp] theorem State.setLine_migrating (s : State) (l : Nat) (x : HomeLine) : (s.setLine l x).migrating = s.migrating := rfl
@[simp] theorem State.setLine_regions (s : State) (l : Nat) (x : HomeLine) : (s.setLine l x).regions = s.regions := rfl
@[simp] theorem State.setLine_lease (s : State) (l : Nat) (x : HomeLine) : (s.setLine l x).lease = s.lease := rfl
@[simp] theorem State.setLine_tagged (s : State) (l : Nat) (x : HomeLine) : (s.setLine l x).tagged = s.tagged := rfl
@[simp] theorem State.setLine_agenda (s : State) (l : Nat) (x : HomeLine) : (s.setLine l x).agenda = s.agenda := rfl
@[simp] theorem State.setLine_peerOut (s : State) (l : Nat) (x : HomeLine) : (s.setLine l x).peerOut = s.peerOut := rfl
@[simp] theorem State.setLine_peerAnswers (s : State) (l : Nat) (x : HomeLine) : (s.setLine l x).peerAnswers = s.peerAnswers := rfl
@[simp] theorem State.setLine_podOut (s : State) (l : Nat) (x : HomeLine) : (s.setLine l x).podOut = s.podOut := rfl
@[simp] theorem State.setLine_heldPeer (s : State) (l : Nat) (x : HomeLine) : (s.setLine l x).heldPeer = s.heldPeer := rfl
@[simp] theorem State.setLine_guests (s : State) (l : Nat) (x : HomeLine) : (s.setLine l x).guests = s.guests := rfl
@[simp] theorem State.setLine_launches (s : State) (l : Nat) (x : HomeLine) : (s.setLine l x).launches = s.launches := rfl
@[simp] theorem State.setLine_convoys (s : State) (l : Nat) (x : HomeLine) : (s.setLine l x).convoys = s.convoys := rfl
@[simp] theorem State.setLine_armed (s : State) (l : Nat) (x : HomeLine) : (s.setLine l x).armed = s.armed := rfl
@[simp] theorem State.setLine_controls (s : State) (l : Nat) (x : HomeLine) : (s.setLine l x).controls = s.controls := rfl
@[simp] theorem State.setLine_queues (s : State) (l : Nat) (x : HomeLine) : (s.setLine l x).queues = s.queues := rfl
@[simp] theorem State.setLine_saved (s : State) (l : Nat) (x : HomeLine) : (s.setLine l x).saved = s.saved := rfl
@[simp] theorem State.setLine_doneOwed (s : State) (l : Nat) (x : HomeLine) : (s.setLine l x).doneOwed = s.doneOwed := rfl
@[simp] theorem State.setLine_images (s : State) (l : Nat) (x : HomeLine) : (s.setLine l x).images = s.images := rfl
@[simp] theorem State.setLine_pexp (s : State) (l : Nat) (x : HomeLine) : (s.setLine l x).pexp = s.pexp := rfl
@[simp] theorem State.setLine_res (s : State) (l : Nat) (x : HomeLine) : (s.setLine l x).res = s.res := rfl
@[simp] theorem State.setLine_reservations (s : State) (l : Nat) (x : HomeLine) : (s.setLine l x).reservations = s.reservations := rfl
@[simp] theorem State.setLine_epoch (s : State) (l : Nat) (x : HomeLine) : (s.setLine l x).epoch = s.epoch := rfl
@[simp] theorem State.setLine_instantK (s : State) (l : Nat) (x : HomeLine) : (s.setLine l x).instantK = s.instantK := rfl
@[simp] theorem State.setLine_nextInst (s : State) (l : Nat) (x : HomeLine) : (s.setLine l x).nextInst = s.nextInst := rfl
@[simp] theorem State.setLine_turn (s : State) (l : Nat) (x : HomeLine) : (s.setLine l x).turn = s.turn := rfl
@[simp] theorem State.setLine_paused (s : State) (l : Nat) (x : HomeLine) : (s.setLine l x).paused = s.paused := rfl
@[simp] theorem State.setLine_stopAt (s : State) (l : Nat) (x : HomeLine) : (s.setLine l x).stopAt = s.stopAt := rfl
@[simp] theorem State.setLine_preOn (s : State) (l : Nat) (x : HomeLine) : (s.setLine l x).preOn = s.preOn := rfl
@[simp] theorem State.setLine_chglate (s : State) (l : Nat) (x : HomeLine) : (s.setLine l x).chglate = s.chglate := rfl
@[simp] theorem State.setLine_postponed (s : State) (l : Nat) (x : HomeLine) : (s.setLine l x).postponed = s.postponed := rfl
@[simp] theorem State.setLine_dev (s : State) (l : Nat) (x : HomeLine) : (s.setLine l x).dev = s.dev := rfl
@[simp] theorem State.setLine_podHold (s : State) (l : Nat) (x : HomeLine) : (s.setLine l x).podHold = s.podHold := rfl
@[simp] theorem State.setLine_unreachable (s : State) (l : Nat) (x : HomeLine) : (s.setLine l x).unreachable = s.unreachable := rfl
@[simp] theorem State.setLine_booted (s : State) (l : Nat) (x : HomeLine) : (s.setLine l x).booted = s.booted := rfl
@[simp] theorem State.setLine_bootFail (s : State) (l : Nat) (x : HomeLine) : (s.setLine l x).bootFail = s.bootFail := rfl
@[simp] theorem State.setLine_fwm (s : State) (l : Nat) (x : HomeLine) : (s.setLine l x).fwm = s.fwm := rfl
@[simp] theorem State.setLine_reports (s : State) (l : Nat) (x : HomeLine) : (s.setLine l x).reports = s.reports := rfl
@[simp] theorem State.setLine_errlog (s : State) (l : Nat) (x : HomeLine) : (s.setLine l x).errlog = s.errlog := rfl
@[simp] theorem State.setLine_counters (s : State) (l : Nat) (x : HomeLine) : (s.setLine l x).counters = s.counters := rfl
@[simp] theorem State.setLine_lasting (s : State) (l : Nat) (x : HomeLine) : (s.setLine l x).lasting = s.lasting := rfl
@[simp] theorem State.setLine_retired (s : State) (l : Nat) (x : HomeLine) : (s.setLine l x).retired = s.retired := rfl
@[simp] theorem State.setLine_derated (s : State) (l : Nat) (x : HomeLine) : (s.setLine l x).derated = s.derated := rfl
@[simp] theorem State.setLine_degraded (s : State) (l : Nat) (x : HomeLine) : (s.setLine l x).degraded = s.degraded := rfl
@[simp] theorem State.setLine_links (s : State) (l : Nat) (x : HomeLine) : (s.setLine l x).links = s.links := rfl
@[simp] theorem State.setLine_deadDies (s : State) (l : Nat) (x : HomeLine) : (s.setLine l x).deadDies = s.deadDies := rfl
@[simp] theorem State.setLine_incarn (s : State) (l : Nat) (x : HomeLine) : (s.setLine l x).incarn = s.incarn := rfl
@[simp] theorem State.setLine_accepted (s : State) (l : Nat) (x : HomeLine) : (s.setLine l x).accepted = s.accepted := rfl
@[simp] theorem State.setLine_gated (s : State) (l : Nat) (x : HomeLine) : (s.setLine l x).gated = s.gated := rfl
@[simp] theorem State.setLine_thermal (s : State) (l : Nat) (x : HomeLine) : (s.setLine l x).thermal = s.thermal := rfl
@[simp] theorem State.setLine_halted (s : State) (l : Nat) (x : HomeLine) : (s.setLine l x).halted = s.halted := rfl
@[simp] theorem State.setLine_snapctl (s : State) (l : Nat) (x : HomeLine) : (s.setLine l x).snapctl = s.snapctl := rfl
@[simp] theorem State.setLine_snapat (s : State) (l : Nat) (x : HomeLine) : (s.setLine l x).snapat = s.snapat := rfl
@[simp] theorem State.setLine_snapDue (s : State) (l : Nat) (x : HomeLine) : (s.setLine l x).snapDue = s.snapDue := rfl
@[simp] theorem State.setLine_snap (s : State) (l : Nat) (x : HomeLine) : (s.setLine l x).snap = s.snap := rfl
@[simp] theorem State.setLine_basic (s : State) (l : Nat) (x : HomeLine) : (s.setLine l x).basic = s.basic := rfl
@[simp] theorem State.setLine_cur (s : State) (l : Nat) (x : HomeLine) : (s.setLine l x).cur = s.cur := rfl
@[simp] theorem State.setLine_event (s : State) (l : Nat) (x : HomeLine) : (s.setLine l x).event = s.event := rfl
@[simp] theorem State.setLine_inTurn (s : State) (l : Nat) (x : HomeLine) : (s.setLine l x).inTurn = s.inTurn := rfl
@[simp] theorem State.setLine_here (s : State) (l : Nat) (x : HomeLine) : (s.setLine l x).here = s.here := rfl
@[simp] theorem State.setLine_spares (s : State) (l : Nat) (x : HomeLine) : (s.setLine l x).spares = s.spares := rfl
@[simp] theorem State.setLine_seen (s : State) (l : Nat) (x : HomeLine) : (s.setLine l x).seen = s.seen := rfl
@[simp] theorem State.setLine_lateExpert (s : State) (l : Nat) (x : HomeLine) : (s.setLine l x).lateExpert = s.lateExpert := rfl
@[simp] theorem State.setLine_owners (s : State) (l : Nat) (x : HomeLine) : (s.setLine l x).owners = s.owners := rfl
@[simp] theorem State.setLine_core (s : State) (l : Nat) (x : HomeLine) : (s.setLine l x).core = s.core := rfl
@[simp] theorem State.setLine_fresh (s : State) (l : Nat) (x : HomeLine) : (s.setLine l x).fresh = s.fresh := rfl
@[simp] theorem State.setLine_seq (s : State) (l : Nat) (x : HomeLine) : (s.setLine l x).seq = s.seq := rfl
@[simp] theorem State.setLine_nextTid (s : State) (l : Nat) (x : HomeLine) : (s.setLine l x).nextTid = s.nextTid := rfl
@[simp] theorem State.setLine_nextOp (s : State) (l : Nat) (x : HomeLine) : (s.setLine l x).nextOp = s.nextOp := rfl
@[simp] theorem State.setLine_nextRid (s : State) (l : Nat) (x : HomeLine) : (s.setLine l x).nextRid = s.nextRid := rfl
@[simp] theorem State.setLine_nextLaunch (s : State) (l : Nat) (x : HomeLine) : (s.setLine l x).nextLaunch = s.nextLaunch := rfl

@[simp] theorem State.setGuest_clk (s : State) (g : BitVec 8) (x : Guest) : (s.setGuest g x).clk = s.clk := rfl
@[simp] theorem State.setGuest_wall (s : State) (g : BitVec 8) (x : Guest) : (s.setGuest g x).wall = s.wall := rfl
@[simp] theorem State.setGuest_wallFrac (s : State) (g : BitVec 8) (x : Guest) : (s.setGuest g x).wallFrac = s.wallFrac := rfl
@[simp] theorem State.setGuest_slew (s : State) (g : BitVec 8) (x : Guest) : (s.setGuest g x).slew = s.slew := rfl
@[simp] theorem State.setGuest_synced (s : State) (g : BitVec 8) (x : Guest) : (s.setGuest g x).synced = s.synced := rfl
@[simp] theorem State.setGuest_hold (s : State) (g : BitVec 8) (x : Guest) : (s.setGuest g x).hold = s.hold := rfl
@[simp] theorem State.setGuest_offset (s : State) (g : BitVec 8) (x : Guest) : (s.setGuest g x).offset = s.offset := rfl
@[simp] theorem State.setGuest_goodSyncs (s : State) (g : BitVec 8) (x : Guest) : (s.setGuest g x).goodSyncs = s.goodSyncs := rfl
@[simp] theorem State.setGuest_lastSync (s : State) (g : BitVec 8) (x : Guest) : (s.setGuest g x).lastSync = s.lastSync := rfl
@[simp] theorem State.setGuest_threads (s : State) (g : BitVec 8) (x : Guest) : (s.setGuest g x).threads = s.threads := rfl
@[simp] theorem State.setGuest_banks (s : State) (g : BitVec 8) (x : Guest) : (s.setGuest g x).banks = s.banks := rfl
@[simp] theorem State.setGuest_l1 (s : State) (g : BitVec 8) (x : Guest) : (s.setGuest g x).l1 = s.l1 := rfl
@[simp] theorem State.setGuest_utlb (s : State) (g : BitVec 8) (x : Guest) : (s.setGuest g x).utlb = s.utlb := rfl
@[simp] theorem State.setGuest_rdvUpdates (s : State) (g : BitVec 8) (x : Guest) : (s.setGuest g x).rdvUpdates = s.rdvUpdates := rfl
@[simp] theorem State.setGuest_lateWrites (s : State) (g : BitVec 8) (x : Guest) : (s.setGuest g x).lateWrites = s.lateWrites := rfl
@[simp] theorem State.setGuest_kWrites (s : State) (g : BitVec 8) (x : Guest) : (s.setGuest g x).kWrites = s.kWrites := rfl
@[simp] theorem State.setGuest_issuedNow (s : State) (g : BitVec 8) (x : Guest) : (s.setGuest g x).issuedNow = s.issuedNow := rfl
@[simp] theorem State.setGuest_fetches (s : State) (g : BitVec 8) (x : Guest) : (s.setGuest g x).fetches = s.fetches := rfl
@[simp] theorem State.setGuest_tiles (s : State) (g : BitVec 8) (x : Guest) : (s.setGuest g x).tiles = s.tiles := rfl
@[simp] theorem State.setGuest_stash (s : State) (g : BitVec 8) (x : Guest) : (s.setGuest g x).stash = s.stash := rfl
@[simp] theorem State.setGuest_l2 (s : State) (g : BitVec 8) (x : Guest) : (s.setGuest g x).l2 = s.l2 := rfl
@[simp] theorem State.setGuest_locks (s : State) (g : BitVec 8) (x : Guest) : (s.setGuest g x).locks = s.locks := rfl
@[simp] theorem State.setGuest_mem (s : State) (g : BitVec 8) (x : Guest) : (s.setGuest g x).mem = s.mem := rfl
@[simp] theorem State.setGuest_lines (s : State) (g : BitVec 8) (x : Guest) : (s.setGuest g x).lines = s.lines := rfl
@[simp] theorem State.setGuest_arms (s : State) (g : BitVec 8) (x : Guest) : (s.setGuest g x).arms = s.arms := rfl
@[simp] theorem State.setGuest_frames (s : State) (g : BitVec 8) (x : Guest) : (s.setGuest g x).frames = s.frames := rfl
@[simp] theorem State.setGuest_anchors (s : State) (g : BitVec 8) (x : Guest) : (s.setGuest g x).anchors = s.anchors := rfl
@[simp] theorem State.setGuest_tables (s : State) (g : BitVec 8) (x : Guest) : (s.setGuest g x).tables = s.tables := rfl
@[simp] theorem State.setGuest_migrating (s : State) (g : BitVec 8) (x : Guest) : (s.setGuest g x).migrating = s.migrating := rfl
@[simp] theorem State.setGuest_regions (s : State) (g : BitVec 8) (x : Guest) : (s.setGuest g x).regions = s.regions := rfl
@[simp] theorem State.setGuest_lease (s : State) (g : BitVec 8) (x : Guest) : (s.setGuest g x).lease = s.lease := rfl
@[simp] theorem State.setGuest_tagged (s : State) (g : BitVec 8) (x : Guest) : (s.setGuest g x).tagged = s.tagged := rfl
@[simp] theorem State.setGuest_agenda (s : State) (g : BitVec 8) (x : Guest) : (s.setGuest g x).agenda = s.agenda := rfl
@[simp] theorem State.setGuest_peerOut (s : State) (g : BitVec 8) (x : Guest) : (s.setGuest g x).peerOut = s.peerOut := rfl
@[simp] theorem State.setGuest_peerAnswers (s : State) (g : BitVec 8) (x : Guest) : (s.setGuest g x).peerAnswers = s.peerAnswers := rfl
@[simp] theorem State.setGuest_podOut (s : State) (g : BitVec 8) (x : Guest) : (s.setGuest g x).podOut = s.podOut := rfl
@[simp] theorem State.setGuest_heldPeer (s : State) (g : BitVec 8) (x : Guest) : (s.setGuest g x).heldPeer = s.heldPeer := rfl
@[simp] theorem State.setGuest_launches (s : State) (g : BitVec 8) (x : Guest) : (s.setGuest g x).launches = s.launches := rfl
@[simp] theorem State.setGuest_convoys (s : State) (g : BitVec 8) (x : Guest) : (s.setGuest g x).convoys = s.convoys := rfl
@[simp] theorem State.setGuest_armed (s : State) (g : BitVec 8) (x : Guest) : (s.setGuest g x).armed = s.armed := rfl
@[simp] theorem State.setGuest_controls (s : State) (g : BitVec 8) (x : Guest) : (s.setGuest g x).controls = s.controls := rfl
@[simp] theorem State.setGuest_queues (s : State) (g : BitVec 8) (x : Guest) : (s.setGuest g x).queues = s.queues := rfl
@[simp] theorem State.setGuest_saved (s : State) (g : BitVec 8) (x : Guest) : (s.setGuest g x).saved = s.saved := rfl
@[simp] theorem State.setGuest_doneOwed (s : State) (g : BitVec 8) (x : Guest) : (s.setGuest g x).doneOwed = s.doneOwed := rfl
@[simp] theorem State.setGuest_images (s : State) (g : BitVec 8) (x : Guest) : (s.setGuest g x).images = s.images := rfl
@[simp] theorem State.setGuest_pexp (s : State) (g : BitVec 8) (x : Guest) : (s.setGuest g x).pexp = s.pexp := rfl
@[simp] theorem State.setGuest_res (s : State) (g : BitVec 8) (x : Guest) : (s.setGuest g x).res = s.res := rfl
@[simp] theorem State.setGuest_reservations (s : State) (g : BitVec 8) (x : Guest) : (s.setGuest g x).reservations = s.reservations := rfl
@[simp] theorem State.setGuest_epoch (s : State) (g : BitVec 8) (x : Guest) : (s.setGuest g x).epoch = s.epoch := rfl
@[simp] theorem State.setGuest_instantK (s : State) (g : BitVec 8) (x : Guest) : (s.setGuest g x).instantK = s.instantK := rfl
@[simp] theorem State.setGuest_nextInst (s : State) (g : BitVec 8) (x : Guest) : (s.setGuest g x).nextInst = s.nextInst := rfl
@[simp] theorem State.setGuest_turn (s : State) (g : BitVec 8) (x : Guest) : (s.setGuest g x).turn = s.turn := rfl
@[simp] theorem State.setGuest_paused (s : State) (g : BitVec 8) (x : Guest) : (s.setGuest g x).paused = s.paused := rfl
@[simp] theorem State.setGuest_stopAt (s : State) (g : BitVec 8) (x : Guest) : (s.setGuest g x).stopAt = s.stopAt := rfl
@[simp] theorem State.setGuest_preOn (s : State) (g : BitVec 8) (x : Guest) : (s.setGuest g x).preOn = s.preOn := rfl
@[simp] theorem State.setGuest_chglate (s : State) (g : BitVec 8) (x : Guest) : (s.setGuest g x).chglate = s.chglate := rfl
@[simp] theorem State.setGuest_postponed (s : State) (g : BitVec 8) (x : Guest) : (s.setGuest g x).postponed = s.postponed := rfl
@[simp] theorem State.setGuest_dev (s : State) (g : BitVec 8) (x : Guest) : (s.setGuest g x).dev = s.dev := rfl
@[simp] theorem State.setGuest_podHold (s : State) (g : BitVec 8) (x : Guest) : (s.setGuest g x).podHold = s.podHold := rfl
@[simp] theorem State.setGuest_unreachable (s : State) (g : BitVec 8) (x : Guest) : (s.setGuest g x).unreachable = s.unreachable := rfl
@[simp] theorem State.setGuest_booted (s : State) (g : BitVec 8) (x : Guest) : (s.setGuest g x).booted = s.booted := rfl
@[simp] theorem State.setGuest_bootFail (s : State) (g : BitVec 8) (x : Guest) : (s.setGuest g x).bootFail = s.bootFail := rfl
@[simp] theorem State.setGuest_fwm (s : State) (g : BitVec 8) (x : Guest) : (s.setGuest g x).fwm = s.fwm := rfl
@[simp] theorem State.setGuest_reports (s : State) (g : BitVec 8) (x : Guest) : (s.setGuest g x).reports = s.reports := rfl
@[simp] theorem State.setGuest_errlog (s : State) (g : BitVec 8) (x : Guest) : (s.setGuest g x).errlog = s.errlog := rfl
@[simp] theorem State.setGuest_counters (s : State) (g : BitVec 8) (x : Guest) : (s.setGuest g x).counters = s.counters := rfl
@[simp] theorem State.setGuest_lasting (s : State) (g : BitVec 8) (x : Guest) : (s.setGuest g x).lasting = s.lasting := rfl
@[simp] theorem State.setGuest_retired (s : State) (g : BitVec 8) (x : Guest) : (s.setGuest g x).retired = s.retired := rfl
@[simp] theorem State.setGuest_derated (s : State) (g : BitVec 8) (x : Guest) : (s.setGuest g x).derated = s.derated := rfl
@[simp] theorem State.setGuest_degraded (s : State) (g : BitVec 8) (x : Guest) : (s.setGuest g x).degraded = s.degraded := rfl
@[simp] theorem State.setGuest_links (s : State) (g : BitVec 8) (x : Guest) : (s.setGuest g x).links = s.links := rfl
@[simp] theorem State.setGuest_deadDies (s : State) (g : BitVec 8) (x : Guest) : (s.setGuest g x).deadDies = s.deadDies := rfl
@[simp] theorem State.setGuest_incarn (s : State) (g : BitVec 8) (x : Guest) : (s.setGuest g x).incarn = s.incarn := rfl
@[simp] theorem State.setGuest_accepted (s : State) (g : BitVec 8) (x : Guest) : (s.setGuest g x).accepted = s.accepted := rfl
@[simp] theorem State.setGuest_gated (s : State) (g : BitVec 8) (x : Guest) : (s.setGuest g x).gated = s.gated := rfl
@[simp] theorem State.setGuest_thermal (s : State) (g : BitVec 8) (x : Guest) : (s.setGuest g x).thermal = s.thermal := rfl
@[simp] theorem State.setGuest_halted (s : State) (g : BitVec 8) (x : Guest) : (s.setGuest g x).halted = s.halted := rfl
@[simp] theorem State.setGuest_snapctl (s : State) (g : BitVec 8) (x : Guest) : (s.setGuest g x).snapctl = s.snapctl := rfl
@[simp] theorem State.setGuest_snapat (s : State) (g : BitVec 8) (x : Guest) : (s.setGuest g x).snapat = s.snapat := rfl
@[simp] theorem State.setGuest_snapDue (s : State) (g : BitVec 8) (x : Guest) : (s.setGuest g x).snapDue = s.snapDue := rfl
@[simp] theorem State.setGuest_snap (s : State) (g : BitVec 8) (x : Guest) : (s.setGuest g x).snap = s.snap := rfl
@[simp] theorem State.setGuest_basic (s : State) (g : BitVec 8) (x : Guest) : (s.setGuest g x).basic = s.basic := rfl
@[simp] theorem State.setGuest_cur (s : State) (g : BitVec 8) (x : Guest) : (s.setGuest g x).cur = s.cur := rfl
@[simp] theorem State.setGuest_event (s : State) (g : BitVec 8) (x : Guest) : (s.setGuest g x).event = s.event := rfl
@[simp] theorem State.setGuest_inTurn (s : State) (g : BitVec 8) (x : Guest) : (s.setGuest g x).inTurn = s.inTurn := rfl
@[simp] theorem State.setGuest_here (s : State) (g : BitVec 8) (x : Guest) : (s.setGuest g x).here = s.here := rfl
@[simp] theorem State.setGuest_spares (s : State) (g : BitVec 8) (x : Guest) : (s.setGuest g x).spares = s.spares := rfl
@[simp] theorem State.setGuest_seen (s : State) (g : BitVec 8) (x : Guest) : (s.setGuest g x).seen = s.seen := rfl
@[simp] theorem State.setGuest_lateExpert (s : State) (g : BitVec 8) (x : Guest) : (s.setGuest g x).lateExpert = s.lateExpert := rfl
@[simp] theorem State.setGuest_owners (s : State) (g : BitVec 8) (x : Guest) : (s.setGuest g x).owners = s.owners := rfl
@[simp] theorem State.setGuest_core (s : State) (g : BitVec 8) (x : Guest) : (s.setGuest g x).core = s.core := rfl
@[simp] theorem State.setGuest_fresh (s : State) (g : BitVec 8) (x : Guest) : (s.setGuest g x).fresh = s.fresh := rfl
@[simp] theorem State.setGuest_seq (s : State) (g : BitVec 8) (x : Guest) : (s.setGuest g x).seq = s.seq := rfl
@[simp] theorem State.setGuest_nextTid (s : State) (g : BitVec 8) (x : Guest) : (s.setGuest g x).nextTid = s.nextTid := rfl
@[simp] theorem State.setGuest_nextOp (s : State) (g : BitVec 8) (x : Guest) : (s.setGuest g x).nextOp = s.nextOp := rfl
@[simp] theorem State.setGuest_nextRid (s : State) (g : BitVec 8) (x : Guest) : (s.setGuest g x).nextRid = s.nextRid := rfl
@[simp] theorem State.setGuest_nextLaunch (s : State) (g : BitVec 8) (x : Guest) : (s.setGuest g x).nextLaunch = s.nextLaunch := rfl

@[simp] theorem State.writeMem_clk (s : State) (a : Nat) (bs : List Byte) : (s.writeMem a bs).clk = s.clk := rfl
@[simp] theorem State.writeMem_wall (s : State) (a : Nat) (bs : List Byte) : (s.writeMem a bs).wall = s.wall := rfl
@[simp] theorem State.writeMem_wallFrac (s : State) (a : Nat) (bs : List Byte) : (s.writeMem a bs).wallFrac = s.wallFrac := rfl
@[simp] theorem State.writeMem_slew (s : State) (a : Nat) (bs : List Byte) : (s.writeMem a bs).slew = s.slew := rfl
@[simp] theorem State.writeMem_synced (s : State) (a : Nat) (bs : List Byte) : (s.writeMem a bs).synced = s.synced := rfl
@[simp] theorem State.writeMem_hold (s : State) (a : Nat) (bs : List Byte) : (s.writeMem a bs).hold = s.hold := rfl
@[simp] theorem State.writeMem_offset (s : State) (a : Nat) (bs : List Byte) : (s.writeMem a bs).offset = s.offset := rfl
@[simp] theorem State.writeMem_goodSyncs (s : State) (a : Nat) (bs : List Byte) : (s.writeMem a bs).goodSyncs = s.goodSyncs := rfl
@[simp] theorem State.writeMem_lastSync (s : State) (a : Nat) (bs : List Byte) : (s.writeMem a bs).lastSync = s.lastSync := rfl
@[simp] theorem State.writeMem_threads (s : State) (a : Nat) (bs : List Byte) : (s.writeMem a bs).threads = s.threads := rfl
@[simp] theorem State.writeMem_banks (s : State) (a : Nat) (bs : List Byte) : (s.writeMem a bs).banks = s.banks := rfl
@[simp] theorem State.writeMem_l1 (s : State) (a : Nat) (bs : List Byte) : (s.writeMem a bs).l1 = s.l1 := rfl
@[simp] theorem State.writeMem_utlb (s : State) (a : Nat) (bs : List Byte) : (s.writeMem a bs).utlb = s.utlb := rfl
@[simp] theorem State.writeMem_rdvUpdates (s : State) (a : Nat) (bs : List Byte) : (s.writeMem a bs).rdvUpdates = s.rdvUpdates := rfl
@[simp] theorem State.writeMem_lateWrites (s : State) (a : Nat) (bs : List Byte) : (s.writeMem a bs).lateWrites = s.lateWrites := rfl
@[simp] theorem State.writeMem_kWrites (s : State) (a : Nat) (bs : List Byte) : (s.writeMem a bs).kWrites = s.kWrites := rfl
@[simp] theorem State.writeMem_issuedNow (s : State) (a : Nat) (bs : List Byte) : (s.writeMem a bs).issuedNow = s.issuedNow := rfl
@[simp] theorem State.writeMem_fetches (s : State) (a : Nat) (bs : List Byte) : (s.writeMem a bs).fetches = s.fetches := rfl
@[simp] theorem State.writeMem_tiles (s : State) (a : Nat) (bs : List Byte) : (s.writeMem a bs).tiles = s.tiles := rfl
@[simp] theorem State.writeMem_stash (s : State) (a : Nat) (bs : List Byte) : (s.writeMem a bs).stash = s.stash := rfl
@[simp] theorem State.writeMem_l2 (s : State) (a : Nat) (bs : List Byte) : (s.writeMem a bs).l2 = s.l2 := rfl
@[simp] theorem State.writeMem_locks (s : State) (a : Nat) (bs : List Byte) : (s.writeMem a bs).locks = s.locks := rfl
@[simp] theorem State.writeMem_lines (s : State) (a : Nat) (bs : List Byte) : (s.writeMem a bs).lines = s.lines := rfl
@[simp] theorem State.writeMem_arms (s : State) (a : Nat) (bs : List Byte) : (s.writeMem a bs).arms = s.arms := rfl
@[simp] theorem State.writeMem_frames (s : State) (a : Nat) (bs : List Byte) : (s.writeMem a bs).frames = s.frames := rfl
@[simp] theorem State.writeMem_anchors (s : State) (a : Nat) (bs : List Byte) : (s.writeMem a bs).anchors = s.anchors := rfl
@[simp] theorem State.writeMem_tables (s : State) (a : Nat) (bs : List Byte) : (s.writeMem a bs).tables = s.tables := rfl
@[simp] theorem State.writeMem_migrating (s : State) (a : Nat) (bs : List Byte) : (s.writeMem a bs).migrating = s.migrating := rfl
@[simp] theorem State.writeMem_regions (s : State) (a : Nat) (bs : List Byte) : (s.writeMem a bs).regions = s.regions := rfl
@[simp] theorem State.writeMem_lease (s : State) (a : Nat) (bs : List Byte) : (s.writeMem a bs).lease = s.lease := rfl
@[simp] theorem State.writeMem_tagged (s : State) (a : Nat) (bs : List Byte) : (s.writeMem a bs).tagged = s.tagged := rfl
@[simp] theorem State.writeMem_agenda (s : State) (a : Nat) (bs : List Byte) : (s.writeMem a bs).agenda = s.agenda := rfl
@[simp] theorem State.writeMem_peerOut (s : State) (a : Nat) (bs : List Byte) : (s.writeMem a bs).peerOut = s.peerOut := rfl
@[simp] theorem State.writeMem_peerAnswers (s : State) (a : Nat) (bs : List Byte) : (s.writeMem a bs).peerAnswers = s.peerAnswers := rfl
@[simp] theorem State.writeMem_podOut (s : State) (a : Nat) (bs : List Byte) : (s.writeMem a bs).podOut = s.podOut := rfl
@[simp] theorem State.writeMem_heldPeer (s : State) (a : Nat) (bs : List Byte) : (s.writeMem a bs).heldPeer = s.heldPeer := rfl
@[simp] theorem State.writeMem_guests (s : State) (a : Nat) (bs : List Byte) : (s.writeMem a bs).guests = s.guests := rfl
@[simp] theorem State.writeMem_launches (s : State) (a : Nat) (bs : List Byte) : (s.writeMem a bs).launches = s.launches := rfl
@[simp] theorem State.writeMem_convoys (s : State) (a : Nat) (bs : List Byte) : (s.writeMem a bs).convoys = s.convoys := rfl
@[simp] theorem State.writeMem_armed (s : State) (a : Nat) (bs : List Byte) : (s.writeMem a bs).armed = s.armed := rfl
@[simp] theorem State.writeMem_controls (s : State) (a : Nat) (bs : List Byte) : (s.writeMem a bs).controls = s.controls := rfl
@[simp] theorem State.writeMem_queues (s : State) (a : Nat) (bs : List Byte) : (s.writeMem a bs).queues = s.queues := rfl
@[simp] theorem State.writeMem_saved (s : State) (a : Nat) (bs : List Byte) : (s.writeMem a bs).saved = s.saved := rfl
@[simp] theorem State.writeMem_doneOwed (s : State) (a : Nat) (bs : List Byte) : (s.writeMem a bs).doneOwed = s.doneOwed := rfl
@[simp] theorem State.writeMem_images (s : State) (a : Nat) (bs : List Byte) : (s.writeMem a bs).images = s.images := rfl
@[simp] theorem State.writeMem_pexp (s : State) (a : Nat) (bs : List Byte) : (s.writeMem a bs).pexp = s.pexp := rfl
@[simp] theorem State.writeMem_res (s : State) (a : Nat) (bs : List Byte) : (s.writeMem a bs).res = s.res := rfl
@[simp] theorem State.writeMem_reservations (s : State) (a : Nat) (bs : List Byte) : (s.writeMem a bs).reservations = s.reservations := rfl
@[simp] theorem State.writeMem_epoch (s : State) (a : Nat) (bs : List Byte) : (s.writeMem a bs).epoch = s.epoch := rfl
@[simp] theorem State.writeMem_instantK (s : State) (a : Nat) (bs : List Byte) : (s.writeMem a bs).instantK = s.instantK := rfl
@[simp] theorem State.writeMem_nextInst (s : State) (a : Nat) (bs : List Byte) : (s.writeMem a bs).nextInst = s.nextInst := rfl
@[simp] theorem State.writeMem_turn (s : State) (a : Nat) (bs : List Byte) : (s.writeMem a bs).turn = s.turn := rfl
@[simp] theorem State.writeMem_paused (s : State) (a : Nat) (bs : List Byte) : (s.writeMem a bs).paused = s.paused := rfl
@[simp] theorem State.writeMem_stopAt (s : State) (a : Nat) (bs : List Byte) : (s.writeMem a bs).stopAt = s.stopAt := rfl
@[simp] theorem State.writeMem_preOn (s : State) (a : Nat) (bs : List Byte) : (s.writeMem a bs).preOn = s.preOn := rfl
@[simp] theorem State.writeMem_chglate (s : State) (a : Nat) (bs : List Byte) : (s.writeMem a bs).chglate = s.chglate := rfl
@[simp] theorem State.writeMem_postponed (s : State) (a : Nat) (bs : List Byte) : (s.writeMem a bs).postponed = s.postponed := rfl
@[simp] theorem State.writeMem_dev (s : State) (a : Nat) (bs : List Byte) : (s.writeMem a bs).dev = s.dev := rfl
@[simp] theorem State.writeMem_podHold (s : State) (a : Nat) (bs : List Byte) : (s.writeMem a bs).podHold = s.podHold := rfl
@[simp] theorem State.writeMem_unreachable (s : State) (a : Nat) (bs : List Byte) : (s.writeMem a bs).unreachable = s.unreachable := rfl
@[simp] theorem State.writeMem_booted (s : State) (a : Nat) (bs : List Byte) : (s.writeMem a bs).booted = s.booted := rfl
@[simp] theorem State.writeMem_bootFail (s : State) (a : Nat) (bs : List Byte) : (s.writeMem a bs).bootFail = s.bootFail := rfl
@[simp] theorem State.writeMem_fwm (s : State) (a : Nat) (bs : List Byte) : (s.writeMem a bs).fwm = s.fwm := rfl
@[simp] theorem State.writeMem_reports (s : State) (a : Nat) (bs : List Byte) : (s.writeMem a bs).reports = s.reports := rfl
@[simp] theorem State.writeMem_errlog (s : State) (a : Nat) (bs : List Byte) : (s.writeMem a bs).errlog = s.errlog := rfl
@[simp] theorem State.writeMem_counters (s : State) (a : Nat) (bs : List Byte) : (s.writeMem a bs).counters = s.counters := rfl
@[simp] theorem State.writeMem_lasting (s : State) (a : Nat) (bs : List Byte) : (s.writeMem a bs).lasting = s.lasting := rfl
@[simp] theorem State.writeMem_retired (s : State) (a : Nat) (bs : List Byte) : (s.writeMem a bs).retired = s.retired := rfl
@[simp] theorem State.writeMem_derated (s : State) (a : Nat) (bs : List Byte) : (s.writeMem a bs).derated = s.derated := rfl
@[simp] theorem State.writeMem_degraded (s : State) (a : Nat) (bs : List Byte) : (s.writeMem a bs).degraded = s.degraded := rfl
@[simp] theorem State.writeMem_links (s : State) (a : Nat) (bs : List Byte) : (s.writeMem a bs).links = s.links := rfl
@[simp] theorem State.writeMem_deadDies (s : State) (a : Nat) (bs : List Byte) : (s.writeMem a bs).deadDies = s.deadDies := rfl
@[simp] theorem State.writeMem_incarn (s : State) (a : Nat) (bs : List Byte) : (s.writeMem a bs).incarn = s.incarn := rfl
@[simp] theorem State.writeMem_accepted (s : State) (a : Nat) (bs : List Byte) : (s.writeMem a bs).accepted = s.accepted := rfl
@[simp] theorem State.writeMem_gated (s : State) (a : Nat) (bs : List Byte) : (s.writeMem a bs).gated = s.gated := rfl
@[simp] theorem State.writeMem_thermal (s : State) (a : Nat) (bs : List Byte) : (s.writeMem a bs).thermal = s.thermal := rfl
@[simp] theorem State.writeMem_halted (s : State) (a : Nat) (bs : List Byte) : (s.writeMem a bs).halted = s.halted := rfl
@[simp] theorem State.writeMem_snapctl (s : State) (a : Nat) (bs : List Byte) : (s.writeMem a bs).snapctl = s.snapctl := rfl
@[simp] theorem State.writeMem_snapat (s : State) (a : Nat) (bs : List Byte) : (s.writeMem a bs).snapat = s.snapat := rfl
@[simp] theorem State.writeMem_snapDue (s : State) (a : Nat) (bs : List Byte) : (s.writeMem a bs).snapDue = s.snapDue := rfl
@[simp] theorem State.writeMem_snap (s : State) (a : Nat) (bs : List Byte) : (s.writeMem a bs).snap = s.snap := rfl
@[simp] theorem State.writeMem_basic (s : State) (a : Nat) (bs : List Byte) : (s.writeMem a bs).basic = s.basic := rfl
@[simp] theorem State.writeMem_cur (s : State) (a : Nat) (bs : List Byte) : (s.writeMem a bs).cur = s.cur := rfl
@[simp] theorem State.writeMem_event (s : State) (a : Nat) (bs : List Byte) : (s.writeMem a bs).event = s.event := rfl
@[simp] theorem State.writeMem_inTurn (s : State) (a : Nat) (bs : List Byte) : (s.writeMem a bs).inTurn = s.inTurn := rfl
@[simp] theorem State.writeMem_here (s : State) (a : Nat) (bs : List Byte) : (s.writeMem a bs).here = s.here := rfl
@[simp] theorem State.writeMem_spares (s : State) (a : Nat) (bs : List Byte) : (s.writeMem a bs).spares = s.spares := rfl
@[simp] theorem State.writeMem_seen (s : State) (a : Nat) (bs : List Byte) : (s.writeMem a bs).seen = s.seen := rfl
@[simp] theorem State.writeMem_lateExpert (s : State) (a : Nat) (bs : List Byte) : (s.writeMem a bs).lateExpert = s.lateExpert := rfl
@[simp] theorem State.writeMem_owners (s : State) (a : Nat) (bs : List Byte) : (s.writeMem a bs).owners = s.owners := rfl
@[simp] theorem State.writeMem_core (s : State) (a : Nat) (bs : List Byte) : (s.writeMem a bs).core = s.core := rfl
@[simp] theorem State.writeMem_fresh (s : State) (a : Nat) (bs : List Byte) : (s.writeMem a bs).fresh = s.fresh := rfl
@[simp] theorem State.writeMem_seq (s : State) (a : Nat) (bs : List Byte) : (s.writeMem a bs).seq = s.seq := rfl
@[simp] theorem State.writeMem_nextTid (s : State) (a : Nat) (bs : List Byte) : (s.writeMem a bs).nextTid = s.nextTid := rfl
@[simp] theorem State.writeMem_nextOp (s : State) (a : Nat) (bs : List Byte) : (s.writeMem a bs).nextOp = s.nextOp := rfl
@[simp] theorem State.writeMem_nextRid (s : State) (a : Nat) (bs : List Byte) : (s.writeMem a bs).nextRid = s.nextRid := rfl
@[simp] theorem State.writeMem_nextLaunch (s : State) (a : Nat) (bs : List Byte) : (s.writeMem a bs).nextLaunch = s.nextLaunch := rfl

@[simp] theorem State.kset_clk (s : State) (c : Nat) (g : BitVec 8) (k : BitVec 5) (v : Word) : (s.kset c g k v).clk = s.clk := rfl
@[simp] theorem State.kset_wall (s : State) (c : Nat) (g : BitVec 8) (k : BitVec 5) (v : Word) : (s.kset c g k v).wall = s.wall := rfl
@[simp] theorem State.kset_wallFrac (s : State) (c : Nat) (g : BitVec 8) (k : BitVec 5) (v : Word) : (s.kset c g k v).wallFrac = s.wallFrac := rfl
@[simp] theorem State.kset_slew (s : State) (c : Nat) (g : BitVec 8) (k : BitVec 5) (v : Word) : (s.kset c g k v).slew = s.slew := rfl
@[simp] theorem State.kset_synced (s : State) (c : Nat) (g : BitVec 8) (k : BitVec 5) (v : Word) : (s.kset c g k v).synced = s.synced := rfl
@[simp] theorem State.kset_hold (s : State) (c : Nat) (g : BitVec 8) (k : BitVec 5) (v : Word) : (s.kset c g k v).hold = s.hold := rfl
@[simp] theorem State.kset_offset (s : State) (c : Nat) (g : BitVec 8) (k : BitVec 5) (v : Word) : (s.kset c g k v).offset = s.offset := rfl
@[simp] theorem State.kset_goodSyncs (s : State) (c : Nat) (g : BitVec 8) (k : BitVec 5) (v : Word) : (s.kset c g k v).goodSyncs = s.goodSyncs := rfl
@[simp] theorem State.kset_lastSync (s : State) (c : Nat) (g : BitVec 8) (k : BitVec 5) (v : Word) : (s.kset c g k v).lastSync = s.lastSync := rfl
@[simp] theorem State.kset_threads (s : State) (c : Nat) (g : BitVec 8) (k : BitVec 5) (v : Word) : (s.kset c g k v).threads = s.threads := rfl
@[simp] theorem State.kset_l1 (s : State) (c : Nat) (g : BitVec 8) (k : BitVec 5) (v : Word) : (s.kset c g k v).l1 = s.l1 := rfl
@[simp] theorem State.kset_utlb (s : State) (c : Nat) (g : BitVec 8) (k : BitVec 5) (v : Word) : (s.kset c g k v).utlb = s.utlb := rfl
@[simp] theorem State.kset_rdvUpdates (s : State) (c : Nat) (g : BitVec 8) (k : BitVec 5) (v : Word) : (s.kset c g k v).rdvUpdates = s.rdvUpdates := rfl
@[simp] theorem State.kset_lateWrites (s : State) (c : Nat) (g : BitVec 8) (k : BitVec 5) (v : Word) : (s.kset c g k v).lateWrites = s.lateWrites := rfl
@[simp] theorem State.kset_kWrites (s : State) (c : Nat) (g : BitVec 8) (k : BitVec 5) (v : Word) : (s.kset c g k v).kWrites = s.kWrites := rfl
@[simp] theorem State.kset_issuedNow (s : State) (c : Nat) (g : BitVec 8) (k : BitVec 5) (v : Word) : (s.kset c g k v).issuedNow = s.issuedNow := rfl
@[simp] theorem State.kset_fetches (s : State) (c : Nat) (g : BitVec 8) (k : BitVec 5) (v : Word) : (s.kset c g k v).fetches = s.fetches := rfl
@[simp] theorem State.kset_tiles (s : State) (c : Nat) (g : BitVec 8) (k : BitVec 5) (v : Word) : (s.kset c g k v).tiles = s.tiles := rfl
@[simp] theorem State.kset_stash (s : State) (c : Nat) (g : BitVec 8) (k : BitVec 5) (v : Word) : (s.kset c g k v).stash = s.stash := rfl
@[simp] theorem State.kset_l2 (s : State) (c : Nat) (g : BitVec 8) (k : BitVec 5) (v : Word) : (s.kset c g k v).l2 = s.l2 := rfl
@[simp] theorem State.kset_locks (s : State) (c : Nat) (g : BitVec 8) (k : BitVec 5) (v : Word) : (s.kset c g k v).locks = s.locks := rfl
@[simp] theorem State.kset_mem (s : State) (c : Nat) (g : BitVec 8) (k : BitVec 5) (v : Word) : (s.kset c g k v).mem = s.mem := rfl
@[simp] theorem State.kset_lines (s : State) (c : Nat) (g : BitVec 8) (k : BitVec 5) (v : Word) : (s.kset c g k v).lines = s.lines := rfl
@[simp] theorem State.kset_arms (s : State) (c : Nat) (g : BitVec 8) (k : BitVec 5) (v : Word) : (s.kset c g k v).arms = s.arms := rfl
@[simp] theorem State.kset_frames (s : State) (c : Nat) (g : BitVec 8) (k : BitVec 5) (v : Word) : (s.kset c g k v).frames = s.frames := rfl
@[simp] theorem State.kset_anchors (s : State) (c : Nat) (g : BitVec 8) (k : BitVec 5) (v : Word) : (s.kset c g k v).anchors = s.anchors := rfl
@[simp] theorem State.kset_tables (s : State) (c : Nat) (g : BitVec 8) (k : BitVec 5) (v : Word) : (s.kset c g k v).tables = s.tables := rfl
@[simp] theorem State.kset_migrating (s : State) (c : Nat) (g : BitVec 8) (k : BitVec 5) (v : Word) : (s.kset c g k v).migrating = s.migrating := rfl
@[simp] theorem State.kset_regions (s : State) (c : Nat) (g : BitVec 8) (k : BitVec 5) (v : Word) : (s.kset c g k v).regions = s.regions := rfl
@[simp] theorem State.kset_lease (s : State) (c : Nat) (g : BitVec 8) (k : BitVec 5) (v : Word) : (s.kset c g k v).lease = s.lease := rfl
@[simp] theorem State.kset_tagged (s : State) (c : Nat) (g : BitVec 8) (k : BitVec 5) (v : Word) : (s.kset c g k v).tagged = s.tagged := rfl
@[simp] theorem State.kset_agenda (s : State) (c : Nat) (g : BitVec 8) (k : BitVec 5) (v : Word) : (s.kset c g k v).agenda = s.agenda := rfl
@[simp] theorem State.kset_peerOut (s : State) (c : Nat) (g : BitVec 8) (k : BitVec 5) (v : Word) : (s.kset c g k v).peerOut = s.peerOut := rfl
@[simp] theorem State.kset_peerAnswers (s : State) (c : Nat) (g : BitVec 8) (k : BitVec 5) (v : Word) : (s.kset c g k v).peerAnswers = s.peerAnswers := rfl
@[simp] theorem State.kset_podOut (s : State) (c : Nat) (g : BitVec 8) (k : BitVec 5) (v : Word) : (s.kset c g k v).podOut = s.podOut := rfl
@[simp] theorem State.kset_heldPeer (s : State) (c : Nat) (g : BitVec 8) (k : BitVec 5) (v : Word) : (s.kset c g k v).heldPeer = s.heldPeer := rfl
@[simp] theorem State.kset_guests (s : State) (c : Nat) (g : BitVec 8) (k : BitVec 5) (v : Word) : (s.kset c g k v).guests = s.guests := rfl
@[simp] theorem State.kset_launches (s : State) (c : Nat) (g : BitVec 8) (k : BitVec 5) (v : Word) : (s.kset c g k v).launches = s.launches := rfl
@[simp] theorem State.kset_convoys (s : State) (c : Nat) (g : BitVec 8) (k : BitVec 5) (v : Word) : (s.kset c g k v).convoys = s.convoys := rfl
@[simp] theorem State.kset_armed (s : State) (c : Nat) (g : BitVec 8) (k : BitVec 5) (v : Word) : (s.kset c g k v).armed = s.armed := rfl
@[simp] theorem State.kset_controls (s : State) (c : Nat) (g : BitVec 8) (k : BitVec 5) (v : Word) : (s.kset c g k v).controls = s.controls := rfl
@[simp] theorem State.kset_queues (s : State) (c : Nat) (g : BitVec 8) (k : BitVec 5) (v : Word) : (s.kset c g k v).queues = s.queues := rfl
@[simp] theorem State.kset_saved (s : State) (c : Nat) (g : BitVec 8) (k : BitVec 5) (v : Word) : (s.kset c g k v).saved = s.saved := rfl
@[simp] theorem State.kset_doneOwed (s : State) (c : Nat) (g : BitVec 8) (k : BitVec 5) (v : Word) : (s.kset c g k v).doneOwed = s.doneOwed := rfl
@[simp] theorem State.kset_images (s : State) (c : Nat) (g : BitVec 8) (k : BitVec 5) (v : Word) : (s.kset c g k v).images = s.images := rfl
@[simp] theorem State.kset_pexp (s : State) (c : Nat) (g : BitVec 8) (k : BitVec 5) (v : Word) : (s.kset c g k v).pexp = s.pexp := rfl
@[simp] theorem State.kset_res (s : State) (c : Nat) (g : BitVec 8) (k : BitVec 5) (v : Word) : (s.kset c g k v).res = s.res := rfl
@[simp] theorem State.kset_reservations (s : State) (c : Nat) (g : BitVec 8) (k : BitVec 5) (v : Word) : (s.kset c g k v).reservations = s.reservations := rfl
@[simp] theorem State.kset_epoch (s : State) (c : Nat) (g : BitVec 8) (k : BitVec 5) (v : Word) : (s.kset c g k v).epoch = s.epoch := rfl
@[simp] theorem State.kset_instantK (s : State) (c : Nat) (g : BitVec 8) (k : BitVec 5) (v : Word) : (s.kset c g k v).instantK = s.instantK := rfl
@[simp] theorem State.kset_nextInst (s : State) (c : Nat) (g : BitVec 8) (k : BitVec 5) (v : Word) : (s.kset c g k v).nextInst = s.nextInst := rfl
@[simp] theorem State.kset_turn (s : State) (c : Nat) (g : BitVec 8) (k : BitVec 5) (v : Word) : (s.kset c g k v).turn = s.turn := rfl
@[simp] theorem State.kset_paused (s : State) (c : Nat) (g : BitVec 8) (k : BitVec 5) (v : Word) : (s.kset c g k v).paused = s.paused := rfl
@[simp] theorem State.kset_stopAt (s : State) (c : Nat) (g : BitVec 8) (k : BitVec 5) (v : Word) : (s.kset c g k v).stopAt = s.stopAt := rfl
@[simp] theorem State.kset_preOn (s : State) (c : Nat) (g : BitVec 8) (k : BitVec 5) (v : Word) : (s.kset c g k v).preOn = s.preOn := rfl
@[simp] theorem State.kset_chglate (s : State) (c : Nat) (g : BitVec 8) (k : BitVec 5) (v : Word) : (s.kset c g k v).chglate = s.chglate := rfl
@[simp] theorem State.kset_postponed (s : State) (c : Nat) (g : BitVec 8) (k : BitVec 5) (v : Word) : (s.kset c g k v).postponed = s.postponed := rfl
@[simp] theorem State.kset_dev (s : State) (c : Nat) (g : BitVec 8) (k : BitVec 5) (v : Word) : (s.kset c g k v).dev = s.dev := rfl
@[simp] theorem State.kset_podHold (s : State) (c : Nat) (g : BitVec 8) (k : BitVec 5) (v : Word) : (s.kset c g k v).podHold = s.podHold := rfl
@[simp] theorem State.kset_unreachable (s : State) (c : Nat) (g : BitVec 8) (k : BitVec 5) (v : Word) : (s.kset c g k v).unreachable = s.unreachable := rfl
@[simp] theorem State.kset_booted (s : State) (c : Nat) (g : BitVec 8) (k : BitVec 5) (v : Word) : (s.kset c g k v).booted = s.booted := rfl
@[simp] theorem State.kset_bootFail (s : State) (c : Nat) (g : BitVec 8) (k : BitVec 5) (v : Word) : (s.kset c g k v).bootFail = s.bootFail := rfl
@[simp] theorem State.kset_fwm (s : State) (c : Nat) (g : BitVec 8) (k : BitVec 5) (v : Word) : (s.kset c g k v).fwm = s.fwm := rfl
@[simp] theorem State.kset_reports (s : State) (c : Nat) (g : BitVec 8) (k : BitVec 5) (v : Word) : (s.kset c g k v).reports = s.reports := rfl
@[simp] theorem State.kset_errlog (s : State) (c : Nat) (g : BitVec 8) (k : BitVec 5) (v : Word) : (s.kset c g k v).errlog = s.errlog := rfl
@[simp] theorem State.kset_counters (s : State) (c : Nat) (g : BitVec 8) (k : BitVec 5) (v : Word) : (s.kset c g k v).counters = s.counters := rfl
@[simp] theorem State.kset_lasting (s : State) (c : Nat) (g : BitVec 8) (k : BitVec 5) (v : Word) : (s.kset c g k v).lasting = s.lasting := rfl
@[simp] theorem State.kset_retired (s : State) (c : Nat) (g : BitVec 8) (k : BitVec 5) (v : Word) : (s.kset c g k v).retired = s.retired := rfl
@[simp] theorem State.kset_derated (s : State) (c : Nat) (g : BitVec 8) (k : BitVec 5) (v : Word) : (s.kset c g k v).derated = s.derated := rfl
@[simp] theorem State.kset_degraded (s : State) (c : Nat) (g : BitVec 8) (k : BitVec 5) (v : Word) : (s.kset c g k v).degraded = s.degraded := rfl
@[simp] theorem State.kset_links (s : State) (c : Nat) (g : BitVec 8) (k : BitVec 5) (v : Word) : (s.kset c g k v).links = s.links := rfl
@[simp] theorem State.kset_deadDies (s : State) (c : Nat) (g : BitVec 8) (k : BitVec 5) (v : Word) : (s.kset c g k v).deadDies = s.deadDies := rfl
@[simp] theorem State.kset_incarn (s : State) (c : Nat) (g : BitVec 8) (k : BitVec 5) (v : Word) : (s.kset c g k v).incarn = s.incarn := rfl
@[simp] theorem State.kset_accepted (s : State) (c : Nat) (g : BitVec 8) (k : BitVec 5) (v : Word) : (s.kset c g k v).accepted = s.accepted := rfl
@[simp] theorem State.kset_gated (s : State) (c : Nat) (g : BitVec 8) (k : BitVec 5) (v : Word) : (s.kset c g k v).gated = s.gated := rfl
@[simp] theorem State.kset_thermal (s : State) (c : Nat) (g : BitVec 8) (k : BitVec 5) (v : Word) : (s.kset c g k v).thermal = s.thermal := rfl
@[simp] theorem State.kset_halted (s : State) (c : Nat) (g : BitVec 8) (k : BitVec 5) (v : Word) : (s.kset c g k v).halted = s.halted := rfl
@[simp] theorem State.kset_snapctl (s : State) (c : Nat) (g : BitVec 8) (k : BitVec 5) (v : Word) : (s.kset c g k v).snapctl = s.snapctl := rfl
@[simp] theorem State.kset_snapat (s : State) (c : Nat) (g : BitVec 8) (k : BitVec 5) (v : Word) : (s.kset c g k v).snapat = s.snapat := rfl
@[simp] theorem State.kset_snapDue (s : State) (c : Nat) (g : BitVec 8) (k : BitVec 5) (v : Word) : (s.kset c g k v).snapDue = s.snapDue := rfl
@[simp] theorem State.kset_snap (s : State) (c : Nat) (g : BitVec 8) (k : BitVec 5) (v : Word) : (s.kset c g k v).snap = s.snap := rfl
@[simp] theorem State.kset_basic (s : State) (c : Nat) (g : BitVec 8) (k : BitVec 5) (v : Word) : (s.kset c g k v).basic = s.basic := rfl
@[simp] theorem State.kset_cur (s : State) (c : Nat) (g : BitVec 8) (k : BitVec 5) (v : Word) : (s.kset c g k v).cur = s.cur := rfl
@[simp] theorem State.kset_event (s : State) (c : Nat) (g : BitVec 8) (k : BitVec 5) (v : Word) : (s.kset c g k v).event = s.event := rfl
@[simp] theorem State.kset_inTurn (s : State) (c : Nat) (g : BitVec 8) (k : BitVec 5) (v : Word) : (s.kset c g k v).inTurn = s.inTurn := rfl
@[simp] theorem State.kset_here (s : State) (c : Nat) (g : BitVec 8) (k : BitVec 5) (v : Word) : (s.kset c g k v).here = s.here := rfl
@[simp] theorem State.kset_spares (s : State) (c : Nat) (g : BitVec 8) (k : BitVec 5) (v : Word) : (s.kset c g k v).spares = s.spares := rfl
@[simp] theorem State.kset_seen (s : State) (c : Nat) (g : BitVec 8) (k : BitVec 5) (v : Word) : (s.kset c g k v).seen = s.seen := rfl
@[simp] theorem State.kset_lateExpert (s : State) (c : Nat) (g : BitVec 8) (k : BitVec 5) (v : Word) : (s.kset c g k v).lateExpert = s.lateExpert := rfl
@[simp] theorem State.kset_owners (s : State) (c : Nat) (g : BitVec 8) (k : BitVec 5) (v : Word) : (s.kset c g k v).owners = s.owners := rfl
@[simp] theorem State.kset_core (s : State) (c : Nat) (g : BitVec 8) (k : BitVec 5) (v : Word) : (s.kset c g k v).core = s.core := rfl
@[simp] theorem State.kset_fresh (s : State) (c : Nat) (g : BitVec 8) (k : BitVec 5) (v : Word) : (s.kset c g k v).fresh = s.fresh := rfl
@[simp] theorem State.kset_seq (s : State) (c : Nat) (g : BitVec 8) (k : BitVec 5) (v : Word) : (s.kset c g k v).seq = s.seq := rfl
@[simp] theorem State.kset_nextTid (s : State) (c : Nat) (g : BitVec 8) (k : BitVec 5) (v : Word) : (s.kset c g k v).nextTid = s.nextTid := rfl
@[simp] theorem State.kset_nextOp (s : State) (c : Nat) (g : BitVec 8) (k : BitVec 5) (v : Word) : (s.kset c g k v).nextOp = s.nextOp := rfl
@[simp] theorem State.kset_nextRid (s : State) (c : Nat) (g : BitVec 8) (k : BitVec 5) (v : Word) : (s.kset c g k v).nextRid = s.nextRid := rfl
@[simp] theorem State.kset_nextLaunch (s : State) (c : Nat) (g : BitVec 8) (k : BitVec 5) (v : Word) : (s.kset c g k v).nextLaunch = s.nextLaunch := rfl

@[simp] theorem State.setStashLine_clk (s : State) (n i : Nat) (l : StashLine) : (s.setStashLine n i l).clk = s.clk := rfl
@[simp] theorem State.setStashLine_wall (s : State) (n i : Nat) (l : StashLine) : (s.setStashLine n i l).wall = s.wall := rfl
@[simp] theorem State.setStashLine_wallFrac (s : State) (n i : Nat) (l : StashLine) : (s.setStashLine n i l).wallFrac = s.wallFrac := rfl
@[simp] theorem State.setStashLine_slew (s : State) (n i : Nat) (l : StashLine) : (s.setStashLine n i l).slew = s.slew := rfl
@[simp] theorem State.setStashLine_synced (s : State) (n i : Nat) (l : StashLine) : (s.setStashLine n i l).synced = s.synced := rfl
@[simp] theorem State.setStashLine_hold (s : State) (n i : Nat) (l : StashLine) : (s.setStashLine n i l).hold = s.hold := rfl
@[simp] theorem State.setStashLine_offset (s : State) (n i : Nat) (l : StashLine) : (s.setStashLine n i l).offset = s.offset := rfl
@[simp] theorem State.setStashLine_goodSyncs (s : State) (n i : Nat) (l : StashLine) : (s.setStashLine n i l).goodSyncs = s.goodSyncs := rfl
@[simp] theorem State.setStashLine_lastSync (s : State) (n i : Nat) (l : StashLine) : (s.setStashLine n i l).lastSync = s.lastSync := rfl
@[simp] theorem State.setStashLine_threads (s : State) (n i : Nat) (l : StashLine) : (s.setStashLine n i l).threads = s.threads := rfl
@[simp] theorem State.setStashLine_banks (s : State) (n i : Nat) (l : StashLine) : (s.setStashLine n i l).banks = s.banks := rfl
@[simp] theorem State.setStashLine_l1 (s : State) (n i : Nat) (l : StashLine) : (s.setStashLine n i l).l1 = s.l1 := rfl
@[simp] theorem State.setStashLine_utlb (s : State) (n i : Nat) (l : StashLine) : (s.setStashLine n i l).utlb = s.utlb := rfl
@[simp] theorem State.setStashLine_rdvUpdates (s : State) (n i : Nat) (l : StashLine) : (s.setStashLine n i l).rdvUpdates = s.rdvUpdates := rfl
@[simp] theorem State.setStashLine_lateWrites (s : State) (n i : Nat) (l : StashLine) : (s.setStashLine n i l).lateWrites = s.lateWrites := rfl
@[simp] theorem State.setStashLine_kWrites (s : State) (n i : Nat) (l : StashLine) : (s.setStashLine n i l).kWrites = s.kWrites := rfl
@[simp] theorem State.setStashLine_issuedNow (s : State) (n i : Nat) (l : StashLine) : (s.setStashLine n i l).issuedNow = s.issuedNow := rfl
@[simp] theorem State.setStashLine_fetches (s : State) (n i : Nat) (l : StashLine) : (s.setStashLine n i l).fetches = s.fetches := rfl
@[simp] theorem State.setStashLine_tiles (s : State) (n i : Nat) (l : StashLine) : (s.setStashLine n i l).tiles = s.tiles := rfl
@[simp] theorem State.setStashLine_l2 (s : State) (n i : Nat) (l : StashLine) : (s.setStashLine n i l).l2 = s.l2 := rfl
@[simp] theorem State.setStashLine_locks (s : State) (n i : Nat) (l : StashLine) : (s.setStashLine n i l).locks = s.locks := rfl
@[simp] theorem State.setStashLine_mem (s : State) (n i : Nat) (l : StashLine) : (s.setStashLine n i l).mem = s.mem := rfl
@[simp] theorem State.setStashLine_lines (s : State) (n i : Nat) (l : StashLine) : (s.setStashLine n i l).lines = s.lines := rfl
@[simp] theorem State.setStashLine_arms (s : State) (n i : Nat) (l : StashLine) : (s.setStashLine n i l).arms = s.arms := rfl
@[simp] theorem State.setStashLine_frames (s : State) (n i : Nat) (l : StashLine) : (s.setStashLine n i l).frames = s.frames := rfl
@[simp] theorem State.setStashLine_anchors (s : State) (n i : Nat) (l : StashLine) : (s.setStashLine n i l).anchors = s.anchors := rfl
@[simp] theorem State.setStashLine_tables (s : State) (n i : Nat) (l : StashLine) : (s.setStashLine n i l).tables = s.tables := rfl
@[simp] theorem State.setStashLine_migrating (s : State) (n i : Nat) (l : StashLine) : (s.setStashLine n i l).migrating = s.migrating := rfl
@[simp] theorem State.setStashLine_regions (s : State) (n i : Nat) (l : StashLine) : (s.setStashLine n i l).regions = s.regions := rfl
@[simp] theorem State.setStashLine_lease (s : State) (n i : Nat) (l : StashLine) : (s.setStashLine n i l).lease = s.lease := rfl
@[simp] theorem State.setStashLine_tagged (s : State) (n i : Nat) (l : StashLine) : (s.setStashLine n i l).tagged = s.tagged := rfl
@[simp] theorem State.setStashLine_agenda (s : State) (n i : Nat) (l : StashLine) : (s.setStashLine n i l).agenda = s.agenda := rfl
@[simp] theorem State.setStashLine_peerOut (s : State) (n i : Nat) (l : StashLine) : (s.setStashLine n i l).peerOut = s.peerOut := rfl
@[simp] theorem State.setStashLine_peerAnswers (s : State) (n i : Nat) (l : StashLine) : (s.setStashLine n i l).peerAnswers = s.peerAnswers := rfl
@[simp] theorem State.setStashLine_podOut (s : State) (n i : Nat) (l : StashLine) : (s.setStashLine n i l).podOut = s.podOut := rfl
@[simp] theorem State.setStashLine_heldPeer (s : State) (n i : Nat) (l : StashLine) : (s.setStashLine n i l).heldPeer = s.heldPeer := rfl
@[simp] theorem State.setStashLine_guests (s : State) (n i : Nat) (l : StashLine) : (s.setStashLine n i l).guests = s.guests := rfl
@[simp] theorem State.setStashLine_launches (s : State) (n i : Nat) (l : StashLine) : (s.setStashLine n i l).launches = s.launches := rfl
@[simp] theorem State.setStashLine_convoys (s : State) (n i : Nat) (l : StashLine) : (s.setStashLine n i l).convoys = s.convoys := rfl
@[simp] theorem State.setStashLine_armed (s : State) (n i : Nat) (l : StashLine) : (s.setStashLine n i l).armed = s.armed := rfl
@[simp] theorem State.setStashLine_controls (s : State) (n i : Nat) (l : StashLine) : (s.setStashLine n i l).controls = s.controls := rfl
@[simp] theorem State.setStashLine_queues (s : State) (n i : Nat) (l : StashLine) : (s.setStashLine n i l).queues = s.queues := rfl
@[simp] theorem State.setStashLine_saved (s : State) (n i : Nat) (l : StashLine) : (s.setStashLine n i l).saved = s.saved := rfl
@[simp] theorem State.setStashLine_doneOwed (s : State) (n i : Nat) (l : StashLine) : (s.setStashLine n i l).doneOwed = s.doneOwed := rfl
@[simp] theorem State.setStashLine_images (s : State) (n i : Nat) (l : StashLine) : (s.setStashLine n i l).images = s.images := rfl
@[simp] theorem State.setStashLine_pexp (s : State) (n i : Nat) (l : StashLine) : (s.setStashLine n i l).pexp = s.pexp := rfl
@[simp] theorem State.setStashLine_res (s : State) (n i : Nat) (l : StashLine) : (s.setStashLine n i l).res = s.res := rfl
@[simp] theorem State.setStashLine_reservations (s : State) (n i : Nat) (l : StashLine) : (s.setStashLine n i l).reservations = s.reservations := rfl
@[simp] theorem State.setStashLine_epoch (s : State) (n i : Nat) (l : StashLine) : (s.setStashLine n i l).epoch = s.epoch := rfl
@[simp] theorem State.setStashLine_instantK (s : State) (n i : Nat) (l : StashLine) : (s.setStashLine n i l).instantK = s.instantK := rfl
@[simp] theorem State.setStashLine_nextInst (s : State) (n i : Nat) (l : StashLine) : (s.setStashLine n i l).nextInst = s.nextInst := rfl
@[simp] theorem State.setStashLine_turn (s : State) (n i : Nat) (l : StashLine) : (s.setStashLine n i l).turn = s.turn := rfl
@[simp] theorem State.setStashLine_paused (s : State) (n i : Nat) (l : StashLine) : (s.setStashLine n i l).paused = s.paused := rfl
@[simp] theorem State.setStashLine_stopAt (s : State) (n i : Nat) (l : StashLine) : (s.setStashLine n i l).stopAt = s.stopAt := rfl
@[simp] theorem State.setStashLine_preOn (s : State) (n i : Nat) (l : StashLine) : (s.setStashLine n i l).preOn = s.preOn := rfl
@[simp] theorem State.setStashLine_chglate (s : State) (n i : Nat) (l : StashLine) : (s.setStashLine n i l).chglate = s.chglate := rfl
@[simp] theorem State.setStashLine_postponed (s : State) (n i : Nat) (l : StashLine) : (s.setStashLine n i l).postponed = s.postponed := rfl
@[simp] theorem State.setStashLine_dev (s : State) (n i : Nat) (l : StashLine) : (s.setStashLine n i l).dev = s.dev := rfl
@[simp] theorem State.setStashLine_podHold (s : State) (n i : Nat) (l : StashLine) : (s.setStashLine n i l).podHold = s.podHold := rfl
@[simp] theorem State.setStashLine_unreachable (s : State) (n i : Nat) (l : StashLine) : (s.setStashLine n i l).unreachable = s.unreachable := rfl
@[simp] theorem State.setStashLine_booted (s : State) (n i : Nat) (l : StashLine) : (s.setStashLine n i l).booted = s.booted := rfl
@[simp] theorem State.setStashLine_bootFail (s : State) (n i : Nat) (l : StashLine) : (s.setStashLine n i l).bootFail = s.bootFail := rfl
@[simp] theorem State.setStashLine_fwm (s : State) (n i : Nat) (l : StashLine) : (s.setStashLine n i l).fwm = s.fwm := rfl
@[simp] theorem State.setStashLine_reports (s : State) (n i : Nat) (l : StashLine) : (s.setStashLine n i l).reports = s.reports := rfl
@[simp] theorem State.setStashLine_errlog (s : State) (n i : Nat) (l : StashLine) : (s.setStashLine n i l).errlog = s.errlog := rfl
@[simp] theorem State.setStashLine_counters (s : State) (n i : Nat) (l : StashLine) : (s.setStashLine n i l).counters = s.counters := rfl
@[simp] theorem State.setStashLine_lasting (s : State) (n i : Nat) (l : StashLine) : (s.setStashLine n i l).lasting = s.lasting := rfl
@[simp] theorem State.setStashLine_retired (s : State) (n i : Nat) (l : StashLine) : (s.setStashLine n i l).retired = s.retired := rfl
@[simp] theorem State.setStashLine_derated (s : State) (n i : Nat) (l : StashLine) : (s.setStashLine n i l).derated = s.derated := rfl
@[simp] theorem State.setStashLine_degraded (s : State) (n i : Nat) (l : StashLine) : (s.setStashLine n i l).degraded = s.degraded := rfl
@[simp] theorem State.setStashLine_links (s : State) (n i : Nat) (l : StashLine) : (s.setStashLine n i l).links = s.links := rfl
@[simp] theorem State.setStashLine_deadDies (s : State) (n i : Nat) (l : StashLine) : (s.setStashLine n i l).deadDies = s.deadDies := rfl
@[simp] theorem State.setStashLine_incarn (s : State) (n i : Nat) (l : StashLine) : (s.setStashLine n i l).incarn = s.incarn := rfl
@[simp] theorem State.setStashLine_accepted (s : State) (n i : Nat) (l : StashLine) : (s.setStashLine n i l).accepted = s.accepted := rfl
@[simp] theorem State.setStashLine_gated (s : State) (n i : Nat) (l : StashLine) : (s.setStashLine n i l).gated = s.gated := rfl
@[simp] theorem State.setStashLine_thermal (s : State) (n i : Nat) (l : StashLine) : (s.setStashLine n i l).thermal = s.thermal := rfl
@[simp] theorem State.setStashLine_halted (s : State) (n i : Nat) (l : StashLine) : (s.setStashLine n i l).halted = s.halted := rfl
@[simp] theorem State.setStashLine_snapctl (s : State) (n i : Nat) (l : StashLine) : (s.setStashLine n i l).snapctl = s.snapctl := rfl
@[simp] theorem State.setStashLine_snapat (s : State) (n i : Nat) (l : StashLine) : (s.setStashLine n i l).snapat = s.snapat := rfl
@[simp] theorem State.setStashLine_snapDue (s : State) (n i : Nat) (l : StashLine) : (s.setStashLine n i l).snapDue = s.snapDue := rfl
@[simp] theorem State.setStashLine_snap (s : State) (n i : Nat) (l : StashLine) : (s.setStashLine n i l).snap = s.snap := rfl
@[simp] theorem State.setStashLine_basic (s : State) (n i : Nat) (l : StashLine) : (s.setStashLine n i l).basic = s.basic := rfl
@[simp] theorem State.setStashLine_cur (s : State) (n i : Nat) (l : StashLine) : (s.setStashLine n i l).cur = s.cur := rfl
@[simp] theorem State.setStashLine_event (s : State) (n i : Nat) (l : StashLine) : (s.setStashLine n i l).event = s.event := rfl
@[simp] theorem State.setStashLine_inTurn (s : State) (n i : Nat) (l : StashLine) : (s.setStashLine n i l).inTurn = s.inTurn := rfl
@[simp] theorem State.setStashLine_here (s : State) (n i : Nat) (l : StashLine) : (s.setStashLine n i l).here = s.here := rfl
@[simp] theorem State.setStashLine_spares (s : State) (n i : Nat) (l : StashLine) : (s.setStashLine n i l).spares = s.spares := rfl
@[simp] theorem State.setStashLine_seen (s : State) (n i : Nat) (l : StashLine) : (s.setStashLine n i l).seen = s.seen := rfl
@[simp] theorem State.setStashLine_lateExpert (s : State) (n i : Nat) (l : StashLine) : (s.setStashLine n i l).lateExpert = s.lateExpert := rfl
@[simp] theorem State.setStashLine_owners (s : State) (n i : Nat) (l : StashLine) : (s.setStashLine n i l).owners = s.owners := rfl
@[simp] theorem State.setStashLine_core (s : State) (n i : Nat) (l : StashLine) : (s.setStashLine n i l).core = s.core := rfl
@[simp] theorem State.setStashLine_fresh (s : State) (n i : Nat) (l : StashLine) : (s.setStashLine n i l).fresh = s.fresh := rfl
@[simp] theorem State.setStashLine_seq (s : State) (n i : Nat) (l : StashLine) : (s.setStashLine n i l).seq = s.seq := rfl
@[simp] theorem State.setStashLine_nextTid (s : State) (n i : Nat) (l : StashLine) : (s.setStashLine n i l).nextTid = s.nextTid := rfl
@[simp] theorem State.setStashLine_nextOp (s : State) (n i : Nat) (l : StashLine) : (s.setStashLine n i l).nextOp = s.nextOp := rfl
@[simp] theorem State.setStashLine_nextRid (s : State) (n i : Nat) (l : StashLine) : (s.setStashLine n i l).nextRid = s.nextRid := rfl
@[simp] theorem State.setStashLine_nextLaunch (s : State) (n i : Nat) (l : StashLine) : (s.setStashLine n i l).nextLaunch = s.nextLaunch := rfl

@[simp] theorem State.dropStashLine_clk (s : State) (n i : Nat) : (s.dropStashLine n i).clk = s.clk := rfl
@[simp] theorem State.dropStashLine_wall (s : State) (n i : Nat) : (s.dropStashLine n i).wall = s.wall := rfl
@[simp] theorem State.dropStashLine_wallFrac (s : State) (n i : Nat) : (s.dropStashLine n i).wallFrac = s.wallFrac := rfl
@[simp] theorem State.dropStashLine_slew (s : State) (n i : Nat) : (s.dropStashLine n i).slew = s.slew := rfl
@[simp] theorem State.dropStashLine_synced (s : State) (n i : Nat) : (s.dropStashLine n i).synced = s.synced := rfl
@[simp] theorem State.dropStashLine_hold (s : State) (n i : Nat) : (s.dropStashLine n i).hold = s.hold := rfl
@[simp] theorem State.dropStashLine_offset (s : State) (n i : Nat) : (s.dropStashLine n i).offset = s.offset := rfl
@[simp] theorem State.dropStashLine_goodSyncs (s : State) (n i : Nat) : (s.dropStashLine n i).goodSyncs = s.goodSyncs := rfl
@[simp] theorem State.dropStashLine_lastSync (s : State) (n i : Nat) : (s.dropStashLine n i).lastSync = s.lastSync := rfl
@[simp] theorem State.dropStashLine_threads (s : State) (n i : Nat) : (s.dropStashLine n i).threads = s.threads := rfl
@[simp] theorem State.dropStashLine_banks (s : State) (n i : Nat) : (s.dropStashLine n i).banks = s.banks := rfl
@[simp] theorem State.dropStashLine_l1 (s : State) (n i : Nat) : (s.dropStashLine n i).l1 = s.l1 := rfl
@[simp] theorem State.dropStashLine_utlb (s : State) (n i : Nat) : (s.dropStashLine n i).utlb = s.utlb := rfl
@[simp] theorem State.dropStashLine_rdvUpdates (s : State) (n i : Nat) : (s.dropStashLine n i).rdvUpdates = s.rdvUpdates := rfl
@[simp] theorem State.dropStashLine_lateWrites (s : State) (n i : Nat) : (s.dropStashLine n i).lateWrites = s.lateWrites := rfl
@[simp] theorem State.dropStashLine_kWrites (s : State) (n i : Nat) : (s.dropStashLine n i).kWrites = s.kWrites := rfl
@[simp] theorem State.dropStashLine_issuedNow (s : State) (n i : Nat) : (s.dropStashLine n i).issuedNow = s.issuedNow := rfl
@[simp] theorem State.dropStashLine_fetches (s : State) (n i : Nat) : (s.dropStashLine n i).fetches = s.fetches := rfl
@[simp] theorem State.dropStashLine_tiles (s : State) (n i : Nat) : (s.dropStashLine n i).tiles = s.tiles := rfl
@[simp] theorem State.dropStashLine_l2 (s : State) (n i : Nat) : (s.dropStashLine n i).l2 = s.l2 := rfl
@[simp] theorem State.dropStashLine_locks (s : State) (n i : Nat) : (s.dropStashLine n i).locks = s.locks := rfl
@[simp] theorem State.dropStashLine_mem (s : State) (n i : Nat) : (s.dropStashLine n i).mem = s.mem := rfl
@[simp] theorem State.dropStashLine_lines (s : State) (n i : Nat) : (s.dropStashLine n i).lines = s.lines := rfl
@[simp] theorem State.dropStashLine_arms (s : State) (n i : Nat) : (s.dropStashLine n i).arms = s.arms := rfl
@[simp] theorem State.dropStashLine_frames (s : State) (n i : Nat) : (s.dropStashLine n i).frames = s.frames := rfl
@[simp] theorem State.dropStashLine_anchors (s : State) (n i : Nat) : (s.dropStashLine n i).anchors = s.anchors := rfl
@[simp] theorem State.dropStashLine_tables (s : State) (n i : Nat) : (s.dropStashLine n i).tables = s.tables := rfl
@[simp] theorem State.dropStashLine_migrating (s : State) (n i : Nat) : (s.dropStashLine n i).migrating = s.migrating := rfl
@[simp] theorem State.dropStashLine_regions (s : State) (n i : Nat) : (s.dropStashLine n i).regions = s.regions := rfl
@[simp] theorem State.dropStashLine_lease (s : State) (n i : Nat) : (s.dropStashLine n i).lease = s.lease := rfl
@[simp] theorem State.dropStashLine_tagged (s : State) (n i : Nat) : (s.dropStashLine n i).tagged = s.tagged := rfl
@[simp] theorem State.dropStashLine_agenda (s : State) (n i : Nat) : (s.dropStashLine n i).agenda = s.agenda := rfl
@[simp] theorem State.dropStashLine_peerOut (s : State) (n i : Nat) : (s.dropStashLine n i).peerOut = s.peerOut := rfl
@[simp] theorem State.dropStashLine_peerAnswers (s : State) (n i : Nat) : (s.dropStashLine n i).peerAnswers = s.peerAnswers := rfl
@[simp] theorem State.dropStashLine_podOut (s : State) (n i : Nat) : (s.dropStashLine n i).podOut = s.podOut := rfl
@[simp] theorem State.dropStashLine_heldPeer (s : State) (n i : Nat) : (s.dropStashLine n i).heldPeer = s.heldPeer := rfl
@[simp] theorem State.dropStashLine_guests (s : State) (n i : Nat) : (s.dropStashLine n i).guests = s.guests := rfl
@[simp] theorem State.dropStashLine_launches (s : State) (n i : Nat) : (s.dropStashLine n i).launches = s.launches := rfl
@[simp] theorem State.dropStashLine_convoys (s : State) (n i : Nat) : (s.dropStashLine n i).convoys = s.convoys := rfl
@[simp] theorem State.dropStashLine_armed (s : State) (n i : Nat) : (s.dropStashLine n i).armed = s.armed := rfl
@[simp] theorem State.dropStashLine_controls (s : State) (n i : Nat) : (s.dropStashLine n i).controls = s.controls := rfl
@[simp] theorem State.dropStashLine_queues (s : State) (n i : Nat) : (s.dropStashLine n i).queues = s.queues := rfl
@[simp] theorem State.dropStashLine_saved (s : State) (n i : Nat) : (s.dropStashLine n i).saved = s.saved := rfl
@[simp] theorem State.dropStashLine_doneOwed (s : State) (n i : Nat) : (s.dropStashLine n i).doneOwed = s.doneOwed := rfl
@[simp] theorem State.dropStashLine_images (s : State) (n i : Nat) : (s.dropStashLine n i).images = s.images := rfl
@[simp] theorem State.dropStashLine_pexp (s : State) (n i : Nat) : (s.dropStashLine n i).pexp = s.pexp := rfl
@[simp] theorem State.dropStashLine_res (s : State) (n i : Nat) : (s.dropStashLine n i).res = s.res := rfl
@[simp] theorem State.dropStashLine_reservations (s : State) (n i : Nat) : (s.dropStashLine n i).reservations = s.reservations := rfl
@[simp] theorem State.dropStashLine_epoch (s : State) (n i : Nat) : (s.dropStashLine n i).epoch = s.epoch := rfl
@[simp] theorem State.dropStashLine_instantK (s : State) (n i : Nat) : (s.dropStashLine n i).instantK = s.instantK := rfl
@[simp] theorem State.dropStashLine_nextInst (s : State) (n i : Nat) : (s.dropStashLine n i).nextInst = s.nextInst := rfl
@[simp] theorem State.dropStashLine_turn (s : State) (n i : Nat) : (s.dropStashLine n i).turn = s.turn := rfl
@[simp] theorem State.dropStashLine_paused (s : State) (n i : Nat) : (s.dropStashLine n i).paused = s.paused := rfl
@[simp] theorem State.dropStashLine_stopAt (s : State) (n i : Nat) : (s.dropStashLine n i).stopAt = s.stopAt := rfl
@[simp] theorem State.dropStashLine_preOn (s : State) (n i : Nat) : (s.dropStashLine n i).preOn = s.preOn := rfl
@[simp] theorem State.dropStashLine_chglate (s : State) (n i : Nat) : (s.dropStashLine n i).chglate = s.chglate := rfl
@[simp] theorem State.dropStashLine_postponed (s : State) (n i : Nat) : (s.dropStashLine n i).postponed = s.postponed := rfl
@[simp] theorem State.dropStashLine_dev (s : State) (n i : Nat) : (s.dropStashLine n i).dev = s.dev := rfl
@[simp] theorem State.dropStashLine_podHold (s : State) (n i : Nat) : (s.dropStashLine n i).podHold = s.podHold := rfl
@[simp] theorem State.dropStashLine_unreachable (s : State) (n i : Nat) : (s.dropStashLine n i).unreachable = s.unreachable := rfl
@[simp] theorem State.dropStashLine_booted (s : State) (n i : Nat) : (s.dropStashLine n i).booted = s.booted := rfl
@[simp] theorem State.dropStashLine_bootFail (s : State) (n i : Nat) : (s.dropStashLine n i).bootFail = s.bootFail := rfl
@[simp] theorem State.dropStashLine_fwm (s : State) (n i : Nat) : (s.dropStashLine n i).fwm = s.fwm := rfl
@[simp] theorem State.dropStashLine_reports (s : State) (n i : Nat) : (s.dropStashLine n i).reports = s.reports := rfl
@[simp] theorem State.dropStashLine_errlog (s : State) (n i : Nat) : (s.dropStashLine n i).errlog = s.errlog := rfl
@[simp] theorem State.dropStashLine_counters (s : State) (n i : Nat) : (s.dropStashLine n i).counters = s.counters := rfl
@[simp] theorem State.dropStashLine_lasting (s : State) (n i : Nat) : (s.dropStashLine n i).lasting = s.lasting := rfl
@[simp] theorem State.dropStashLine_retired (s : State) (n i : Nat) : (s.dropStashLine n i).retired = s.retired := rfl
@[simp] theorem State.dropStashLine_derated (s : State) (n i : Nat) : (s.dropStashLine n i).derated = s.derated := rfl
@[simp] theorem State.dropStashLine_degraded (s : State) (n i : Nat) : (s.dropStashLine n i).degraded = s.degraded := rfl
@[simp] theorem State.dropStashLine_links (s : State) (n i : Nat) : (s.dropStashLine n i).links = s.links := rfl
@[simp] theorem State.dropStashLine_deadDies (s : State) (n i : Nat) : (s.dropStashLine n i).deadDies = s.deadDies := rfl
@[simp] theorem State.dropStashLine_incarn (s : State) (n i : Nat) : (s.dropStashLine n i).incarn = s.incarn := rfl
@[simp] theorem State.dropStashLine_accepted (s : State) (n i : Nat) : (s.dropStashLine n i).accepted = s.accepted := rfl
@[simp] theorem State.dropStashLine_gated (s : State) (n i : Nat) : (s.dropStashLine n i).gated = s.gated := rfl
@[simp] theorem State.dropStashLine_thermal (s : State) (n i : Nat) : (s.dropStashLine n i).thermal = s.thermal := rfl
@[simp] theorem State.dropStashLine_halted (s : State) (n i : Nat) : (s.dropStashLine n i).halted = s.halted := rfl
@[simp] theorem State.dropStashLine_snapctl (s : State) (n i : Nat) : (s.dropStashLine n i).snapctl = s.snapctl := rfl
@[simp] theorem State.dropStashLine_snapat (s : State) (n i : Nat) : (s.dropStashLine n i).snapat = s.snapat := rfl
@[simp] theorem State.dropStashLine_snapDue (s : State) (n i : Nat) : (s.dropStashLine n i).snapDue = s.snapDue := rfl
@[simp] theorem State.dropStashLine_snap (s : State) (n i : Nat) : (s.dropStashLine n i).snap = s.snap := rfl
@[simp] theorem State.dropStashLine_basic (s : State) (n i : Nat) : (s.dropStashLine n i).basic = s.basic := rfl
@[simp] theorem State.dropStashLine_cur (s : State) (n i : Nat) : (s.dropStashLine n i).cur = s.cur := rfl
@[simp] theorem State.dropStashLine_event (s : State) (n i : Nat) : (s.dropStashLine n i).event = s.event := rfl
@[simp] theorem State.dropStashLine_inTurn (s : State) (n i : Nat) : (s.dropStashLine n i).inTurn = s.inTurn := rfl
@[simp] theorem State.dropStashLine_here (s : State) (n i : Nat) : (s.dropStashLine n i).here = s.here := rfl
@[simp] theorem State.dropStashLine_spares (s : State) (n i : Nat) : (s.dropStashLine n i).spares = s.spares := rfl
@[simp] theorem State.dropStashLine_seen (s : State) (n i : Nat) : (s.dropStashLine n i).seen = s.seen := rfl
@[simp] theorem State.dropStashLine_lateExpert (s : State) (n i : Nat) : (s.dropStashLine n i).lateExpert = s.lateExpert := rfl
@[simp] theorem State.dropStashLine_owners (s : State) (n i : Nat) : (s.dropStashLine n i).owners = s.owners := rfl
@[simp] theorem State.dropStashLine_core (s : State) (n i : Nat) : (s.dropStashLine n i).core = s.core := rfl
@[simp] theorem State.dropStashLine_fresh (s : State) (n i : Nat) : (s.dropStashLine n i).fresh = s.fresh := rfl
@[simp] theorem State.dropStashLine_seq (s : State) (n i : Nat) : (s.dropStashLine n i).seq = s.seq := rfl
@[simp] theorem State.dropStashLine_nextTid (s : State) (n i : Nat) : (s.dropStashLine n i).nextTid = s.nextTid := rfl
@[simp] theorem State.dropStashLine_nextOp (s : State) (n i : Nat) : (s.dropStashLine n i).nextOp = s.nextOp := rfl
@[simp] theorem State.dropStashLine_nextRid (s : State) (n i : Nat) : (s.dropStashLine n i).nextRid = s.nextRid := rfl
@[simp] theorem State.dropStashLine_nextLaunch (s : State) (n i : Nat) : (s.dropStashLine n i).nextLaunch = s.nextLaunch := rfl

@[simp] theorem State.log_clk (s : State) (c w : Nat) (a d : Word) : (s.log c w a d).clk = s.clk := rfl
@[simp] theorem State.log_wall (s : State) (c w : Nat) (a d : Word) : (s.log c w a d).wall = s.wall := rfl
@[simp] theorem State.log_wallFrac (s : State) (c w : Nat) (a d : Word) : (s.log c w a d).wallFrac = s.wallFrac := rfl
@[simp] theorem State.log_slew (s : State) (c w : Nat) (a d : Word) : (s.log c w a d).slew = s.slew := rfl
@[simp] theorem State.log_synced (s : State) (c w : Nat) (a d : Word) : (s.log c w a d).synced = s.synced := rfl
@[simp] theorem State.log_hold (s : State) (c w : Nat) (a d : Word) : (s.log c w a d).hold = s.hold := rfl
@[simp] theorem State.log_offset (s : State) (c w : Nat) (a d : Word) : (s.log c w a d).offset = s.offset := rfl
@[simp] theorem State.log_goodSyncs (s : State) (c w : Nat) (a d : Word) : (s.log c w a d).goodSyncs = s.goodSyncs := rfl
@[simp] theorem State.log_lastSync (s : State) (c w : Nat) (a d : Word) : (s.log c w a d).lastSync = s.lastSync := rfl
@[simp] theorem State.log_threads (s : State) (c w : Nat) (a d : Word) : (s.log c w a d).threads = s.threads := rfl
@[simp] theorem State.log_banks (s : State) (c w : Nat) (a d : Word) : (s.log c w a d).banks = s.banks := rfl
@[simp] theorem State.log_l1 (s : State) (c w : Nat) (a d : Word) : (s.log c w a d).l1 = s.l1 := rfl
@[simp] theorem State.log_utlb (s : State) (c w : Nat) (a d : Word) : (s.log c w a d).utlb = s.utlb := rfl
@[simp] theorem State.log_rdvUpdates (s : State) (c w : Nat) (a d : Word) : (s.log c w a d).rdvUpdates = s.rdvUpdates := rfl
@[simp] theorem State.log_lateWrites (s : State) (c w : Nat) (a d : Word) : (s.log c w a d).lateWrites = s.lateWrites := rfl
@[simp] theorem State.log_kWrites (s : State) (c w : Nat) (a d : Word) : (s.log c w a d).kWrites = s.kWrites := rfl
@[simp] theorem State.log_issuedNow (s : State) (c w : Nat) (a d : Word) : (s.log c w a d).issuedNow = s.issuedNow := rfl
@[simp] theorem State.log_fetches (s : State) (c w : Nat) (a d : Word) : (s.log c w a d).fetches = s.fetches := rfl
@[simp] theorem State.log_tiles (s : State) (c w : Nat) (a d : Word) : (s.log c w a d).tiles = s.tiles := rfl
@[simp] theorem State.log_stash (s : State) (c w : Nat) (a d : Word) : (s.log c w a d).stash = s.stash := rfl
@[simp] theorem State.log_l2 (s : State) (c w : Nat) (a d : Word) : (s.log c w a d).l2 = s.l2 := rfl
@[simp] theorem State.log_locks (s : State) (c w : Nat) (a d : Word) : (s.log c w a d).locks = s.locks := rfl
@[simp] theorem State.log_mem (s : State) (c w : Nat) (a d : Word) : (s.log c w a d).mem = s.mem := rfl
@[simp] theorem State.log_lines (s : State) (c w : Nat) (a d : Word) : (s.log c w a d).lines = s.lines := rfl
@[simp] theorem State.log_arms (s : State) (c w : Nat) (a d : Word) : (s.log c w a d).arms = s.arms := rfl
@[simp] theorem State.log_frames (s : State) (c w : Nat) (a d : Word) : (s.log c w a d).frames = s.frames := rfl
@[simp] theorem State.log_anchors (s : State) (c w : Nat) (a d : Word) : (s.log c w a d).anchors = s.anchors := rfl
@[simp] theorem State.log_tables (s : State) (c w : Nat) (a d : Word) : (s.log c w a d).tables = s.tables := rfl
@[simp] theorem State.log_migrating (s : State) (c w : Nat) (a d : Word) : (s.log c w a d).migrating = s.migrating := rfl
@[simp] theorem State.log_regions (s : State) (c w : Nat) (a d : Word) : (s.log c w a d).regions = s.regions := rfl
@[simp] theorem State.log_lease (s : State) (c w : Nat) (a d : Word) : (s.log c w a d).lease = s.lease := rfl
@[simp] theorem State.log_tagged (s : State) (c w : Nat) (a d : Word) : (s.log c w a d).tagged = s.tagged := rfl
@[simp] theorem State.log_agenda (s : State) (c w : Nat) (a d : Word) : (s.log c w a d).agenda = s.agenda := rfl
@[simp] theorem State.log_peerOut (s : State) (c w : Nat) (a d : Word) : (s.log c w a d).peerOut = s.peerOut := rfl
@[simp] theorem State.log_peerAnswers (s : State) (c w : Nat) (a d : Word) : (s.log c w a d).peerAnswers = s.peerAnswers := rfl
@[simp] theorem State.log_podOut (s : State) (c w : Nat) (a d : Word) : (s.log c w a d).podOut = s.podOut := rfl
@[simp] theorem State.log_heldPeer (s : State) (c w : Nat) (a d : Word) : (s.log c w a d).heldPeer = s.heldPeer := rfl
@[simp] theorem State.log_guests (s : State) (c w : Nat) (a d : Word) : (s.log c w a d).guests = s.guests := rfl
@[simp] theorem State.log_launches (s : State) (c w : Nat) (a d : Word) : (s.log c w a d).launches = s.launches := rfl
@[simp] theorem State.log_convoys (s : State) (c w : Nat) (a d : Word) : (s.log c w a d).convoys = s.convoys := rfl
@[simp] theorem State.log_armed (s : State) (c w : Nat) (a d : Word) : (s.log c w a d).armed = s.armed := rfl
@[simp] theorem State.log_controls (s : State) (c w : Nat) (a d : Word) : (s.log c w a d).controls = s.controls := rfl
@[simp] theorem State.log_queues (s : State) (c w : Nat) (a d : Word) : (s.log c w a d).queues = s.queues := rfl
@[simp] theorem State.log_saved (s : State) (c w : Nat) (a d : Word) : (s.log c w a d).saved = s.saved := rfl
@[simp] theorem State.log_doneOwed (s : State) (c w : Nat) (a d : Word) : (s.log c w a d).doneOwed = s.doneOwed := rfl
@[simp] theorem State.log_images (s : State) (c w : Nat) (a d : Word) : (s.log c w a d).images = s.images := rfl
@[simp] theorem State.log_pexp (s : State) (c w : Nat) (a d : Word) : (s.log c w a d).pexp = s.pexp := rfl
@[simp] theorem State.log_res (s : State) (c w : Nat) (a d : Word) : (s.log c w a d).res = s.res := rfl
@[simp] theorem State.log_reservations (s : State) (c w : Nat) (a d : Word) : (s.log c w a d).reservations = s.reservations := rfl
@[simp] theorem State.log_epoch (s : State) (c w : Nat) (a d : Word) : (s.log c w a d).epoch = s.epoch := rfl
@[simp] theorem State.log_instantK (s : State) (c w : Nat) (a d : Word) : (s.log c w a d).instantK = s.instantK := rfl
@[simp] theorem State.log_nextInst (s : State) (c w : Nat) (a d : Word) : (s.log c w a d).nextInst = s.nextInst := rfl
@[simp] theorem State.log_turn (s : State) (c w : Nat) (a d : Word) : (s.log c w a d).turn = s.turn := rfl
@[simp] theorem State.log_paused (s : State) (c w : Nat) (a d : Word) : (s.log c w a d).paused = s.paused := rfl
@[simp] theorem State.log_stopAt (s : State) (c w : Nat) (a d : Word) : (s.log c w a d).stopAt = s.stopAt := rfl
@[simp] theorem State.log_preOn (s : State) (c w : Nat) (a d : Word) : (s.log c w a d).preOn = s.preOn := rfl
@[simp] theorem State.log_chglate (s : State) (c w : Nat) (a d : Word) : (s.log c w a d).chglate = s.chglate := rfl
@[simp] theorem State.log_postponed (s : State) (c w : Nat) (a d : Word) : (s.log c w a d).postponed = s.postponed := rfl
@[simp] theorem State.log_dev (s : State) (c w : Nat) (a d : Word) : (s.log c w a d).dev = s.dev := rfl
@[simp] theorem State.log_podHold (s : State) (c w : Nat) (a d : Word) : (s.log c w a d).podHold = s.podHold := rfl
@[simp] theorem State.log_unreachable (s : State) (c w : Nat) (a d : Word) : (s.log c w a d).unreachable = s.unreachable := rfl
@[simp] theorem State.log_booted (s : State) (c w : Nat) (a d : Word) : (s.log c w a d).booted = s.booted := rfl
@[simp] theorem State.log_bootFail (s : State) (c w : Nat) (a d : Word) : (s.log c w a d).bootFail = s.bootFail := rfl
@[simp] theorem State.log_fwm (s : State) (c w : Nat) (a d : Word) : (s.log c w a d).fwm = s.fwm := rfl
@[simp] theorem State.log_reports (s : State) (c w : Nat) (a d : Word) : (s.log c w a d).reports = s.reports := rfl
@[simp] theorem State.log_counters (s : State) (c w : Nat) (a d : Word) : (s.log c w a d).counters = s.counters := rfl
@[simp] theorem State.log_lasting (s : State) (c w : Nat) (a d : Word) : (s.log c w a d).lasting = s.lasting := rfl
@[simp] theorem State.log_retired (s : State) (c w : Nat) (a d : Word) : (s.log c w a d).retired = s.retired := rfl
@[simp] theorem State.log_derated (s : State) (c w : Nat) (a d : Word) : (s.log c w a d).derated = s.derated := rfl
@[simp] theorem State.log_degraded (s : State) (c w : Nat) (a d : Word) : (s.log c w a d).degraded = s.degraded := rfl
@[simp] theorem State.log_links (s : State) (c w : Nat) (a d : Word) : (s.log c w a d).links = s.links := rfl
@[simp] theorem State.log_deadDies (s : State) (c w : Nat) (a d : Word) : (s.log c w a d).deadDies = s.deadDies := rfl
@[simp] theorem State.log_incarn (s : State) (c w : Nat) (a d : Word) : (s.log c w a d).incarn = s.incarn := rfl
@[simp] theorem State.log_accepted (s : State) (c w : Nat) (a d : Word) : (s.log c w a d).accepted = s.accepted := rfl
@[simp] theorem State.log_gated (s : State) (c w : Nat) (a d : Word) : (s.log c w a d).gated = s.gated := rfl
@[simp] theorem State.log_thermal (s : State) (c w : Nat) (a d : Word) : (s.log c w a d).thermal = s.thermal := rfl
@[simp] theorem State.log_halted (s : State) (c w : Nat) (a d : Word) : (s.log c w a d).halted = s.halted := rfl
@[simp] theorem State.log_snapctl (s : State) (c w : Nat) (a d : Word) : (s.log c w a d).snapctl = s.snapctl := rfl
@[simp] theorem State.log_snapat (s : State) (c w : Nat) (a d : Word) : (s.log c w a d).snapat = s.snapat := rfl
@[simp] theorem State.log_snapDue (s : State) (c w : Nat) (a d : Word) : (s.log c w a d).snapDue = s.snapDue := rfl
@[simp] theorem State.log_snap (s : State) (c w : Nat) (a d : Word) : (s.log c w a d).snap = s.snap := rfl
@[simp] theorem State.log_basic (s : State) (c w : Nat) (a d : Word) : (s.log c w a d).basic = s.basic := rfl
@[simp] theorem State.log_cur (s : State) (c w : Nat) (a d : Word) : (s.log c w a d).cur = s.cur := rfl
@[simp] theorem State.log_event (s : State) (c w : Nat) (a d : Word) : (s.log c w a d).event = s.event := rfl
@[simp] theorem State.log_inTurn (s : State) (c w : Nat) (a d : Word) : (s.log c w a d).inTurn = s.inTurn := rfl
@[simp] theorem State.log_here (s : State) (c w : Nat) (a d : Word) : (s.log c w a d).here = s.here := rfl
@[simp] theorem State.log_spares (s : State) (c w : Nat) (a d : Word) : (s.log c w a d).spares = s.spares := rfl
@[simp] theorem State.log_seen (s : State) (c w : Nat) (a d : Word) : (s.log c w a d).seen = s.seen := rfl
@[simp] theorem State.log_lateExpert (s : State) (c w : Nat) (a d : Word) : (s.log c w a d).lateExpert = s.lateExpert := rfl
@[simp] theorem State.log_owners (s : State) (c w : Nat) (a d : Word) : (s.log c w a d).owners = s.owners := rfl
@[simp] theorem State.log_core (s : State) (c w : Nat) (a d : Word) : (s.log c w a d).core = s.core := rfl
@[simp] theorem State.log_fresh (s : State) (c w : Nat) (a d : Word) : (s.log c w a d).fresh = s.fresh := rfl
@[simp] theorem State.log_seq (s : State) (c w : Nat) (a d : Word) : (s.log c w a d).seq = s.seq := rfl
@[simp] theorem State.log_nextTid (s : State) (c w : Nat) (a d : Word) : (s.log c w a d).nextTid = s.nextTid := rfl
@[simp] theorem State.log_nextOp (s : State) (c w : Nat) (a d : Word) : (s.log c w a d).nextOp = s.nextOp := rfl
@[simp] theorem State.log_nextRid (s : State) (c w : Nat) (a d : Word) : (s.log c w a d).nextRid = s.nextRid := rfl
@[simp] theorem State.log_nextLaunch (s : State) (c w : Nat) (a d : Word) : (s.log c w a d).nextLaunch = s.nextLaunch := rfl

@[simp] theorem State.setThread_threads (s : State) (t : Nat) (th : Thread) :
    (s.setThread t th).threads = KMap.set s.threads t th := rfl
@[simp] theorem State.setTile_tiles (s : State) (n : Nat) (x : Tile) : (s.setTile n x).tiles = KMap.set s.tiles n x := rfl
@[simp] theorem State.setLine_lines (s : State) (l : Nat) (x : HomeLine) : (s.setLine l x).lines = KMap.set s.lines l x := rfl
@[simp] theorem State.setGuest_guests (s : State) (g : BitVec 8) (x : Guest) :
    (s.setGuest g x).guests = KMap.set s.guests g.toNat x := rfl
@[simp] theorem State.writeMem_mem (s : State) (a : Nat) (bs : List Byte) : (s.writeMem a bs).mem = Memory.writeN s.mem a bs := rfl

/-! ## Threads -/

@[simp] theorem State.thread?_setThread_self (s : State) (t : Nat) (th : Thread) : (s.setThread t th).thread? t = some th := by
  simp [State.thread?]

theorem State.thread?_setThread (s : State) (t t' : Nat) (th : Thread) :
    (s.setThread t th).thread? t' = if t' = t then some th else s.thread? t' := by
  simp [State.thread?, KMap.get?_set]

@[simp] theorem State.thread?_writeMem (s : State) (a : Nat) (bs : List Byte) (t : Nat) :
    (s.writeMem a bs).thread? t = s.thread? t := rfl
@[simp] theorem State.thread?_kset (s : State) (c : Nat) (g : BitVec 8) (k : BitVec 5) (v : Word) (t : Nat) :
    (s.kset c g k v).thread? t = s.thread? t := rfl
@[simp] theorem State.thread?_setTile (s : State) (n : Nat) (x : Tile) (t : Nat) : (s.setTile n x).thread? t = s.thread? t := rfl
@[simp] theorem State.thread?_setGuest (s : State) (g : BitVec 8) (x : Guest) (t : Nat) :
    (s.setGuest g x).thread? t = s.thread? t := rfl
@[simp] theorem State.kread_setThread (s : State) (t : Nat) (th : Thread) (c : Nat) (g : BitVec 8) (k : BitVec 5) :
    (s.setThread t th).kread c g k = s.kread c g k := rfl

/-! ## Tiles, guests and lines -/

@[simp] theorem State.tile_setTile_self (s : State) (n : Nat) (x : Tile) : (s.setTile n x).tile n = x := by
  simp [State.tile]
theorem State.tile_setTile (s : State) (n m : Nat) (x : Tile) : (s.setTile n x).tile m = if m = n then x else s.tile m := by
  simp [State.tile, KMap.getD_set]
@[simp] theorem State.tile_setThread (s : State) (t : Nat) (th : Thread) (n : Nat) : (s.setThread t th).tile n = s.tile n := rfl
@[simp] theorem State.line_setLine_self (s : State) (l : Nat) (x : HomeLine) : (s.setLine l x).line l = x := by
  simp [State.line]
theorem State.line_setLine (s : State) (l m : Nat) (x : HomeLine) : (s.setLine l x).line m = if m = l then x else s.line m := by
  simp [State.line, KMap.getD_set]
@[simp] theorem State.guest_setGuest_self (s : State) (g : BitVec 8) (x : Guest) : (s.setGuest g x).guest g = x := by
  simp [State.guest]
@[simp] theorem State.guest_setThread (s : State) (t : Nat) (th : Thread) (g : BitVec 8) :
    (s.setThread t th).guest g = s.guest g := rfl

/-! ## Shared registers -/

theorem bankKey_inj {c c' : Nat} {g g' : BitVec 8} (h : bankKey c g = bankKey c' g') : c = c' ∧ g = g' := by
  unfold bankKey at h
  have := g.isLt; have := g'.isLt
  refine ⟨by omega, BitVec.eq_of_toNat_eq (by omega)⟩

@[simp] theorem State.kread_kset_self (s : State) (c : Nat) (g : BitVec 8) (k : BitVec 5) (v : Word) :
    (s.kset c g k v).kread c g k = v := by
  simp [State.kread, State.bank, State.kset]

theorem State.kread_kset_ne (s : State) (c c' : Nat) (g g' : BitVec 8) (k k' : BitVec 5) (v : Word)
    (h : ¬ (c' = c ∧ g' = g ∧ k' = k)) : (s.kset c g k v).kread c' g' k' = s.kread c' g' k' := by
  by_cases hb : bankKey c' g' = bankKey c g
  · obtain ⟨rfl, rfl⟩ := bankKey_inj hb
    have hk : k.toNat ≠ k'.toNat := fun e => h ⟨rfl, rfl, (BitVec.eq_of_toNat_eq e).symm⟩
    simp [State.kread, State.bank, State.kset, Vector.getElem_set_ne _ _ hk]
  · simp [State.kread, State.bank, State.kset, KMap.getD_set, hb]

/-! ## Memory -/

/-- A write keeps memory's canonical form. -/
theorem State.wf_writeMem (s : State) (a : Nat) (bs : List Byte) (h : Memory.wf s.mem = true) :
    Memory.wf (s.writeMem a bs).mem = true := Memory.wf_writeN a bs h

/-- Memory has its canonical form at reset. -/
theorem State.wf_reset : Memory.wf State.reset.mem = true := rfl

end Sys2Proof.Machine
end

