-- ==== Sys2Proof/Laws/Ops.lean ====
section
/-!
SUPPORT. What the shared operations do: reading and writing registers, carrying out an instruction or an event, completing an
instruction, taking a trap.
-/

namespace Sys2Proof.Machine

open Sys2Proof

/-! ## Registers -/

@[simp] theorem State.readReg_zero (s : State) (th : Thread) : s.readReg th (.x 0) = 0 := rfl

/-- Reading a register depends on the thread's registers, its place and its guest, on the shared banks, and on the bank of its
issue where it completes without issuing. -/
theorem State.readReg_congr {s u : State} {th th' : Thread} (hx : th'.x = th.x) (hh : th'.home = th.home)
    (hg : th'.guest = th.guest) (hr : th'.replay = th.replay) (hi : th'.issueBank = th.issueBank) (hb : u.banks = s.banks)
    (r : Reg) : u.readReg th' r = s.readReg th r := by
  cases r <;> simp [State.readReg, State.kread, State.bank, hx, hh, hg, hr, hi, hb]

@[simp] theorem State.readReg_setThread (s : State) (t : Nat) (th th' : Thread) (r : Reg) :
    (s.setThread t th).readReg th' r = s.readReg th' r := by cases r <;> rfl

/-- An instruction that issues writes its register at once (R48). -/
theorem State.writeReg_issuing (s : State) {th : Thread} (h : th.replay = false) (d : Reg) (v : Word) :
    s.writeReg th d v = match d with
      | .x n => (s, if n = 0 then th else { th with x := th.x.set n.toNat v })
      | .k n => ({ s.kset (coreOf th.home) th.guest n v with
                   kWrites := s.kWrites ++ [(coreOf th.home, th.guest, n, slotIn th.home)] }, th) := by
  unfold State.writeReg
  exact (if_neg (by rw [h]; decide)).trans (by cases d <;> rfl)

/-- An instruction that completes without issuing writes a shared register at the end of the cycle (R48). -/
theorem State.writeReg_replay (s : State) {th : Thread} (h : th.replay = true) (d : Reg) (v : Word) :
    s.writeReg th d v = s.writeRegLate th d v := by simp [State.writeReg, h]

/-- What a write of a register does to the machine. -/
theorem State.writeReg_device (s : State) (th : Thread) (d : Reg) (v : Word) :
    { (s.writeReg th d v).1 with banks := s.banks, kWrites := s.kWrites, lateWrites := s.lateWrites } = s := by
  unfold State.writeReg State.writeRegLate
  split <;> cases d <;> rfl

@[simp] theorem State.writeReg_threads (s : State) (th : Thread) (d : Reg) (v : Word) :
    (s.writeReg th d v).1.threads = s.threads := by
  unfold State.writeReg State.writeRegLate
  split <;> cases d <;> rfl
@[simp] theorem State.writeReg_thread? (s : State) (th : Thread) (d : Reg) (v : Word) (t : Nat) :
    (s.writeReg th d v).1.thread? t = s.thread? t := by simp [State.thread?]

@[simp] theorem State.writeReg_replayFlag (s : State) (th : Thread) (d : Reg) (v : Word) :
    (s.writeReg th d v).2.replay = th.replay := by
  unfold State.writeReg State.writeRegLate
  split <;> cases d <;> simp only <;> split <;> rfl

/-- What it does to the thread: nothing but to its private registers. -/
theorem State.writeReg_rest (s : State) (th : Thread) (d : Reg) (v : Word) :
    { (s.writeReg th d v).2 with x := th.x } = th := by
  unfold State.writeReg State.writeRegLate
  split <;> cases d <;> simp only <;> split <;> rfl

/-- A register that an issuing instruction wrote reads as the value written; x0 reads 0. -/
theorem State.readReg_writeReg_self (s : State) {th : Thread} (hr : th.replay = false) (d : Reg) (v : Word) :
    (s.writeReg th d v).1.readReg (s.writeReg th d v).2 d = if d = .x 0 then 0 else v := by
  rw [State.writeReg_issuing s hr]
  cases d with
  | x n =>
    by_cases h : n = 0
    · subst h; rfl
    · have hd : Reg.x n ≠ Reg.x 0 := fun e => h (by injection e)
      rw [if_neg hd]
      simp only [State.readReg, if_neg h, Vector.getElem_set_self]
  | k n =>
    simp only [State.readReg, hr]
    show (s.kset (coreOf th.home) th.guest n v).kread (coreOf th.home) th.guest n = _
    simp

/-- Every other register reads as before. -/
theorem State.readReg_writeReg_ne (s : State) (th : Thread) {d r : Reg} (v : Word) (h : r ≠ d) :
    (s.writeReg th d v).1.readReg (s.writeReg th d v).2 r = s.readReg th r := by
  unfold State.writeReg State.writeRegLate
  split
  · cases d with
    | x n => simp only; split
             · rfl
             · cases r with
               | x m =>
                 have : n.toNat ≠ m.toNat := fun e => h (by rw [BitVec.eq_of_toNat_eq e])
                 simp [State.readReg, Vector.getElem_set_ne _ _ this]
               | k m => rfl
    | k n => cases r <;> rfl
  · rename_i hr
    have hr : th.replay = false := by simpa using hr
    cases d with
    | x n => simp only; split
             · rfl
             · cases r with
               | x m =>
                 have : n.toNat ≠ m.toNat := fun e => h (by rw [BitVec.eq_of_toNat_eq e])
                 simp [State.readReg, Vector.getElem_set_ne _ _ this]
               | k m => rfl
    | k n =>
      cases r with
      | x m => rfl
      | k m =>
        simp only [State.readReg, hr]
        exact State.kread_kset_ne s _ _ _ _ _ _ v (fun e => h (by rw [e.2.2]))

theorem State.kread_writeReg (s : State) (th : Thread) (d : Reg) (v : Word) (c : Nat) (g : BitVec 8) (k : BitVec 5) :
    (d = .k k ∧ c = coreOf th.home ∧ g = th.guest) ∨ (s.writeReg th d v).1.kread c g k = s.kread c g k := by
  unfold State.writeReg State.writeRegLate
  split
  · exact .inr (by cases d <;> rfl)
  cases d with
  | x n => exact .inr rfl
  | k n =>
    by_cases h : c = coreOf th.home ∧ g = th.guest ∧ k = n
    · obtain ⟨rfl, rfl, rfl⟩ := h; exact .inl ⟨rfl, rfl, rfl⟩
    · exact .inr (State.kread_kset_ne s _ _ _ _ _ _ v h)

/-! ## Carrying out an instruction or an event -/

/-- The thread that carries out an instruction, with the instruction's length and shared registers noted. -/
def Thread.noted (th : Thread) (len : Nat) (regs : List Reg) : Thread :=
  { th with ilen := len, usedShared := th.usedShared || regs.any (fun r => match r with | .k _ => true | .x _ => false) }

/-- An instruction of a running thread in its slot is carried out. -/
theorem onThread_next {s : State} {th : Thread} (len : Nat) (regs : List Reg) (f : Nat → Thread → State)
    (h : s.thread? s.cur = some th) (hh : th.halted = false) (hp : th.place.isSome = true) :
    onThread s len regs f = .next (f s.cur (th.noted len regs)) := by
  have hp' : th.place.isNone = false := by cases hq : th.place <;> simp_all
  have hc : ¬ (th.halted || (th.place.isNone && !th.replay)) = true := by simp [hh, hp']
  unfold onThread
  rw [h]
  simp only [if_neg hc]
  rfl

/-- An instruction is carried out, or there is no thread for it. -/
theorem onThread_cases (s : State) (len : Nat) (regs : List Reg) (f : Nat → Thread → State) :
    (∃ th, s.thread? s.cur = some th ∧ onThread s len regs f = .next (f s.cur (th.noted len regs))) ∨
      onThread s len regs f = .fault .noThread := by
  unfold onThread
  split
  · rename_i th h
    split
    · exact .inr rfl
    · exact .inl ⟨th, h, rfl⟩
  · exact .inr rfl

theorem onEvent_next {s s' : State} {e : Event} (f : State → Event → Option State)
    (he : s.event = some e) (h : f { s with event := none } e = some s') : onEvent s f = .next s' := by
  simp [onEvent, he, h]

/-! ## Completing -/

@[simp] theorem State.retire_thread? (s : State) (t : Nat) (th : Thread) : (s.retire t th).thread? t = some th.advance := by
  simp [State.retire]

theorem State.result_eq (s : State) (t : Nat) (th : Thread) (d : Reg) (v : Word) :
    s.result t th d v = (s.writeReg th d v).1.setThread t (s.writeReg th d v).2.advance := rfl

end Sys2Proof.Machine
end

