-- ==== Sys2Proof/Laws/Claims.lean ====
section
/-!
SUPPORT. How the predicates of the statements follow from the way a meaning ends: it writes a register, sets its thread, or traps.
-/

namespace Sys2Proof.Claims

open Sys2Proof Sys2Proof.Machine

/-- What fetching an instruction notes in the thread changes no register. -/
theorem readReg_noted (s : State) (th : Thread) (len regs r) : s.readReg (th.noted len regs) r = s.readReg th r :=
  State.readReg_congr rfl rfl rfl rfl rfl rfl r

/-- An instruction that ends by writing one register computes that register. -/
theorem computes_result {s : State} {t : Nat} {th : Thread} (h : Issuing s t th) (i : Instr) (regs : List Reg) (d : Reg) (v : Word)
    (f : Nat → Thread → State)
    (he : exec i s = onThread s i.len regs f) (hf : f t (th.noted i.len regs) = s.result t (th.noted i.len regs) d v) : Computes s t th i d v := by
  obtain ⟨rfl, h1, h2, h3, h4⟩ := h
  have hr : (th.noted i.len regs).replay = false := h4
  have hw := State.writeReg_rest s (th.noted i.len regs) d v
  have hwr : (s.writeReg (th.noted i.len regs) d v).2.replay = false := by
    rw [State.writeReg_replayFlag, hr]
  refine ⟨(s.writeReg (th.noted i.len regs) d v).1.setThread s.cur (s.writeReg (th.noted i.len regs) d v).2.advance, (s.writeReg (th.noted i.len regs) d v).2.advance, ?_, State.thread?_setThread_self _ _ _, ?_, ?_, ?_, ?_, ?_, ?_, ?_⟩
  · rw [he, onThread_next _ _ _ h1 h2 h3, hf, State.result_eq]
  · rw [State.readReg_setThread, ← State.readReg_writeReg_self s hr d v]
    apply State.readReg_congr <;> first | rfl | exact hwr.symm
  · intro r hr
    rw [State.readReg_setThread, ← readReg_noted s th i.len regs r, ← State.readReg_writeReg_ne s (th.noted i.len regs) v hr]
    apply State.readReg_congr <;> first | rfl | exact hwr.symm
  · have hw := State.writeReg_rest s (th.noted i.len regs) d v
    set w := (s.writeReg (th.noted i.len regs) d v).2
    obtain ⟨x, hx⟩ : ∃ x, w = { th.noted i.len regs with x := x } := ⟨w.x, by rw [← hw]⟩
    rw [hx]
    refine ⟨?_, rfl, rfl⟩
    simp [Thread.advance, Thread.rejoin, Thread.noted, Thread.nextWord, Thread.active]
  · have hw := State.writeReg_rest s (th.noted i.len regs) d v
    set w := (s.writeReg (th.noted i.len regs) d v).2
    obtain ⟨x, hx⟩ : ∃ x, w = { th.noted i.len regs with x := x } := ⟨w.x, by rw [← hw]⟩
    rw [hx]; rfl
  · intro c g k
    exact State.kread_writeReg s (th.noted i.len regs) d v c g k
  · intro t' ht
    rw [State.thread?_setThread, if_neg ht, State.writeReg_thread?]
  · rw [State.writeReg_issuing s hr]
    cases d <;> rfl

/-- A word with no 16-bit form is four bytes long. -/
theorem len_of_long (i : Instr) (h : i.short = none) : i.len = 4 := by simp [Instr.len, h]

/-- The two-operand operations. -/
theorem computes_alu2 {s : State} {t : Nat} {th : Thread} (h : Issuing s t th) (i : Instr) (d a b : Reg) (f : Word → Word → Word) {n : Nat}
   (he : exec i s = alu2 n d a b f s) (hl : i.len = n) {v : Word} (hv : f (s.readReg th a) (s.readReg th b) = v) : Computes s t th i d v := by
  subst hl
  refine computes_result h i [d,a,b] d v _ he ?_
  simp only [readReg_noted, hv]

/-- The one-operand operations. -/
theorem computes_alu1 {s : State} {t : Nat} {th : Thread} (h : Issuing s t th) (i : Instr) (d a : Reg) (f : Word → Word) {n : Nat}
   (he : exec i s = alu1 n d a f s) (hl : i.len = n) {v : Word} (hv : f (s.readReg th a) = v) : Computes s t th i d v := by
  subst hl
  refine computes_result h i [d,a] d v _ he ?_
  simp only [readReg_noted, hv]

/-- The three-operand operations. -/
theorem computes_alu3 {s : State} {t : Nat} {th : Thread} (h : Issuing s t th) (i : Instr) (d a b : Reg) (f : Word → Word → Word → Word) {n : Nat}
   (he : exec i s = alu3 n d a b f s) (hl : i.len = n) {v : Word} (hv : f (s.readReg th a) (s.readReg th b) (s.readReg th d) = v) : Computes s t th i d v := by
  subst hl
  refine computes_result h i [d,a,b] d v _ he ?_
  simp only [readReg_noted, hv]

/-- Setting thread t leaves the other threads. -/
theorem sameOthers_setThread (s : State) (t th) : SameOthers s (s.setThread t th) t := by
  intro t' h; simp [State.thread?_setThread, h]
/-- Setting a thread leaves the device. -/
theorem sameDevice_setThread (s : State) (t th) : SameDevice s (s.setThread t th) := rfl
/-- Setting a thread leaves the shared registers. -/
theorem sameShared_setThread (s : State) (t th) : SameShared s (s.setThread t th) := fun _ _ _ => rfl

/-- An instruction that ends by setting its thread changes nothing else. -/
theorem becomes_set {s : State} {t : Nat} (i : Instr) (x : Thread) (hf : exec i s = .next (s.setThread t x)) (P : Thread → Prop) (hP : P x) : Becomes s t i P :=
  ⟨_, x, hf, by simp, hP, sameShared_setThread _ _ _, sameOthers_setThread _ _ _, sameDevice_setThread _ _ _⟩

/-- A trap at the instruction in hand, of a thread that has a handler. -/
theorem traps_here {s : State} {t : Nat} {th : Thread} (hh : HasHandler th) (i : Instr) (len : Nat) (regs : List Reg)
    (c d : Nat) (a : Option Word) (hx : exec i s = .next (s.trapHere t (th.noted len regs) c d a)) (hc : c < 256) (hd : d < 65536)
     : Traps s t th i c d a := by
  have ha : (th.noted len regs).active = false := hh.2
  have hv : (th.noted len regs).tvec ≠ 0 := hh.1
  have key : s.trapHere t (th.noted len regs) c d a = (s.snapTrap c).setThread t (Thread.enter { th.noted len regs with lastIssue := some s.clk } c d a (th.noted len regs).pc) := by
    unfold State.trapHere State.takeTrap
    rw [if_neg (by show ¬ th.active = true; rw [hh.2]; simp), if_neg (by exact hv)]
  rw [key] at hx
  refine ⟨_, Thread.enter { th.noted len regs with lastIssue := some s.clk } c d a (th.noted len regs).pc, hx, by simp, ?_, ?_, ?_⟩
  · refine ⟨rfl, ?_, rfl, rfl, rfl, rfl⟩
    show trapcOf c d = _
    simp only [trapcOf, Nat.mod_eq_of_lt (show d < 2 ^ 16 from hd), Nat.mod_eq_of_lt (show c < 2 ^ 8 from hc)]
  · intro t' ht; simp only [State.thread?_setThread, if_neg ht]
    unfold State.snapTrap; split <;> rfl
  · unfold State.snapTrap SameButSnap; split <;> rfl

/-- Completing an instruction of `len` bytes goes on to the word after it. -/
theorem goesOn_advance (th x : Thread) (len : Nat) (h1 : x.pc = th.pc) (h2 : x.loops = th.loops) (h3 : x.trapc = th.trapc) (h4 : x.ilen = len) (h5 : x.issued = th.issued) : GoesOn th x.advance len := by
  refine ⟨?_, ?_, rfl⟩
  · have : x.active = th.active := by simp [Thread.active, h3]
    by_cases ha : th.active = true
    · simp only [Thread.advance, this, ha, if_true, Thread.nextWord, h1, h2, h4]
    · simp only [Thread.advance, this, if_neg ha, Thread.nextWord, h1, h2, h4]
  · show x.issued + 1 = _; rw [h5]

end Sys2Proof.Claims
end

