-- ==== Sys2Proof/Laws/Thread.lean ====
section
/-!
SUPPORT. What the updates of a thread leave alone, field by field, and what completing an instruction sets.
-/

namespace Sys2Proof.Machine

open Sys2Proof

@[simp] theorem Thread.rejoin_place (th : Thread) : (th.rejoin).place = th.place := rfl
@[simp] theorem Thread.rejoin_home (th : Thread) : (th.rejoin).home = th.home := rfl
@[simp] theorem Thread.rejoin_halted (th : Thread) : (th.rejoin).halted = th.halted := rfl
@[simp] theorem Thread.rejoin_guest (th : Thread) : (th.rejoin).guest = th.guest := rfl
@[simp] theorem Thread.rejoin_gen (th : Thread) : (th.rejoin).gen = th.gen := rfl
@[simp] theorem Thread.rejoin_launch (th : Thread) : (th.rejoin).launch = th.launch := rfl
@[simp] theorem Thread.rejoin_unit (th : Thread) : (th.rejoin).unit = th.unit := rfl
@[simp] theorem Thread.rejoin_parent (th : Thread) : (th.rejoin).parent = th.parent := rfl
@[simp] theorem Thread.rejoin_x (th : Thread) : (th.rejoin).x = th.x := rfl
@[simp] theorem Thread.rejoin_e (th : Thread) : (th.rejoin).e = th.e := rfl
@[simp] theorem Thread.rejoin_q (th : Thread) : (th.rejoin).q = th.q := rfl
@[simp] theorem Thread.rejoin_pc (th : Thread) : (th.rejoin).pc = th.pc := rfl
@[simp] theorem Thread.rejoin_lts (th : Thread) : (th.rejoin).lts = th.lts := rfl
@[simp] theorem Thread.rejoin_ltsSeen (th : Thread) : (th.rejoin).ltsSeen = th.ltsSeen := rfl
@[simp] theorem Thread.rejoin_acked (th : Thread) : (th.rejoin).acked = th.acked := rfl
@[simp] theorem Thread.rejoin_frames (th : Thread) : (th.rejoin).frames = th.frames := rfl
@[simp] theorem Thread.rejoin_transit (th : Thread) : (th.rejoin).transit = th.transit := rfl
@[simp] theorem Thread.rejoin_depth (th : Thread) : (th.rejoin).depth = th.depth := rfl
@[simp] theorem Thread.rejoin_wsp (th : Thread) : (th.rejoin).wsp = th.wsp := rfl
@[simp] theorem Thread.rejoin_loops (th : Thread) : (th.rejoin).loops = th.loops := rfl
@[simp] theorem Thread.rejoin_pin (th : Thread) : (th.rejoin).pin = th.pin := rfl
@[simp] theorem Thread.rejoin_yielded (th : Thread) : (th.rejoin).yielded = th.yielded := rfl
@[simp] theorem Thread.rejoin_usedShared (th : Thread) : (th.rejoin).usedShared = th.usedShared := rfl
@[simp] theorem Thread.rejoin_usedLocal (th : Thread) : (th.rejoin).usedLocal = th.usedLocal := rfl
@[simp] theorem Thread.rejoin_stashm (th : Thread) : (th.rejoin).stashm = th.stashm := rfl
@[simp] theorem Thread.rejoin_trapz (th : Thread) : (th.rejoin).trapz = th.trapz := rfl
@[simp] theorem Thread.rejoin_priv (th : Thread) : (th.rejoin).priv = th.priv := rfl
@[simp] theorem Thread.rejoin_epc (th : Thread) : (th.rejoin).epc = th.epc := rfl
@[simp] theorem Thread.rejoin_trapc (th : Thread) : (th.rejoin).trapc = th.trapc := rfl
@[simp] theorem Thread.rejoin_taddr (th : Thread) : (th.rejoin).taddr = th.taddr := rfl
@[simp] theorem Thread.rejoin_tvec (th : Thread) : (th.rejoin).tvec = th.tvec := rfl
@[simp] theorem Thread.rejoin_monst (th : Thread) : (th.rejoin).monst = th.monst := rfl
@[simp] theorem Thread.rejoin_feaddr (th : Thread) : (th.rejoin).feaddr = th.feaddr := rfl
@[simp] theorem Thread.rejoin_fedata (th : Thread) : (th.rejoin).fedata = th.fedata := rfl
@[simp] theorem Thread.rejoin_efaddr (th : Thread) : (th.rejoin).efaddr = th.efaddr := rfl
@[simp] theorem Thread.rejoin_efinfo (th : Thread) : (th.rejoin).efinfo = th.efinfo := rfl
@[simp] theorem Thread.rejoin_xsel (th : Thread) : (th.rejoin).xsel = th.xsel := rfl
@[simp] theorem Thread.rejoin_issued (th : Thread) : (th.rejoin).issued = th.issued := rfl
@[simp] theorem Thread.rejoin_waited (th : Thread) : (th.rejoin).waited = th.waited := rfl
@[simp] theorem Thread.rejoin_lastTag (th : Thread) : (th.rejoin).lastTag = th.lastTag := rfl
@[simp] theorem Thread.rejoin_mons (th : Thread) : (th.rejoin).mons = th.mons := rfl
@[simp] theorem Thread.rejoin_bindings (th : Thread) : (th.rejoin).bindings = th.bindings := rfl
@[simp] theorem Thread.rejoin_brecs (th : Thread) : (th.rejoin).brecs = th.brecs := rfl
@[simp] theorem Thread.rejoin_dist (th : Thread) : (th.rejoin).dist = th.dist := rfl
@[simp] theorem Thread.rejoin_began (th : Thread) : (th.rejoin).began = th.began := rfl
@[simp] theorem Thread.rejoin_lastIssue (th : Thread) : (th.rejoin).lastIssue = th.lastIssue := rfl
@[simp] theorem Thread.rejoin_pendClear (th : Thread) : (th.rejoin).pendClear = th.pendClear := rfl
@[simp] theorem Thread.rejoin_engEvents (th : Thread) : (th.rejoin).engEvents = th.engEvents := rfl
@[simp] theorem Thread.rejoin_postEvents (th : Thread) : (th.rejoin).postEvents = th.postEvents := rfl
@[simp] theorem Thread.rejoin_straggler (th : Thread) : (th.rejoin).straggler = th.straggler := rfl
@[simp] theorem Thread.rejoin_cancel (th : Thread) : (th.rejoin).cancel = th.cancel := rfl
@[simp] theorem Thread.rejoin_asked (th : Thread) : (th.rejoin).asked = th.asked := rfl
@[simp] theorem Thread.rejoin_issueClock (th : Thread) : (th.rejoin).issueClock = th.issueClock := rfl
@[simp] theorem Thread.rejoin_issueBank (th : Thread) : (th.rejoin).issueBank = th.issueBank := rfl
@[simp] theorem Thread.rejoin_stopped (th : Thread) : (th.rejoin).stopped = th.stopped := rfl
@[simp] theorem Thread.rejoin_ilen (th : Thread) : (th.rejoin).ilen = th.ilen := rfl

@[simp] theorem Thread.advance_place (th : Thread) : (th.advance).place = th.place := rfl
@[simp] theorem Thread.advance_home (th : Thread) : (th.advance).home = th.home := rfl
@[simp] theorem Thread.advance_halted (th : Thread) : (th.advance).halted = th.halted := rfl
@[simp] theorem Thread.advance_guest (th : Thread) : (th.advance).guest = th.guest := rfl
@[simp] theorem Thread.advance_gen (th : Thread) : (th.advance).gen = th.gen := rfl
@[simp] theorem Thread.advance_launch (th : Thread) : (th.advance).launch = th.launch := rfl
@[simp] theorem Thread.advance_unit (th : Thread) : (th.advance).unit = th.unit := rfl
@[simp] theorem Thread.advance_parent (th : Thread) : (th.advance).parent = th.parent := rfl
@[simp] theorem Thread.advance_x (th : Thread) : (th.advance).x = th.x := rfl
@[simp] theorem Thread.advance_e (th : Thread) : (th.advance).e = th.e := rfl
@[simp] theorem Thread.advance_q (th : Thread) : (th.advance).q = th.q := rfl
@[simp] theorem Thread.advance_lts (th : Thread) : (th.advance).lts = th.lts := rfl
@[simp] theorem Thread.advance_ltsSeen (th : Thread) : (th.advance).ltsSeen = th.ltsSeen := rfl
@[simp] theorem Thread.advance_acked (th : Thread) : (th.advance).acked = th.acked := rfl
@[simp] theorem Thread.advance_frames (th : Thread) : (th.advance).frames = th.frames := rfl
@[simp] theorem Thread.advance_transit (th : Thread) : (th.advance).transit = th.transit := rfl
@[simp] theorem Thread.advance_depth (th : Thread) : (th.advance).depth = th.depth := rfl
@[simp] theorem Thread.advance_wsp (th : Thread) : (th.advance).wsp = th.wsp := rfl
@[simp] theorem Thread.advance_pin (th : Thread) : (th.advance).pin = th.pin := rfl
@[simp] theorem Thread.advance_yielded (th : Thread) : (th.advance).yielded = th.yielded := rfl
@[simp] theorem Thread.advance_usedShared (th : Thread) : (th.advance).usedShared = th.usedShared := rfl
@[simp] theorem Thread.advance_usedLocal (th : Thread) : (th.advance).usedLocal = th.usedLocal := rfl
@[simp] theorem Thread.advance_stashm (th : Thread) : (th.advance).stashm = th.stashm := rfl
@[simp] theorem Thread.advance_trapz (th : Thread) : (th.advance).trapz = th.trapz := rfl
@[simp] theorem Thread.advance_priv (th : Thread) : (th.advance).priv = th.priv := rfl
@[simp] theorem Thread.advance_epc (th : Thread) : (th.advance).epc = th.epc := rfl
@[simp] theorem Thread.advance_trapc (th : Thread) : (th.advance).trapc = th.trapc := rfl
@[simp] theorem Thread.advance_taddr (th : Thread) : (th.advance).taddr = th.taddr := rfl
@[simp] theorem Thread.advance_tvec (th : Thread) : (th.advance).tvec = th.tvec := rfl
@[simp] theorem Thread.advance_monst (th : Thread) : (th.advance).monst = th.monst := rfl
@[simp] theorem Thread.advance_feaddr (th : Thread) : (th.advance).feaddr = th.feaddr := rfl
@[simp] theorem Thread.advance_fedata (th : Thread) : (th.advance).fedata = th.fedata := rfl
@[simp] theorem Thread.advance_efaddr (th : Thread) : (th.advance).efaddr = th.efaddr := rfl
@[simp] theorem Thread.advance_efinfo (th : Thread) : (th.advance).efinfo = th.efinfo := rfl
@[simp] theorem Thread.advance_xsel (th : Thread) : (th.advance).xsel = th.xsel := rfl
@[simp] theorem Thread.advance_waited (th : Thread) : (th.advance).waited = th.waited := rfl
@[simp] theorem Thread.advance_lastTag (th : Thread) : (th.advance).lastTag = th.lastTag := rfl
@[simp] theorem Thread.advance_mons (th : Thread) : (th.advance).mons = th.mons := rfl
@[simp] theorem Thread.advance_bindings (th : Thread) : (th.advance).bindings = th.bindings := rfl
@[simp] theorem Thread.advance_brecs (th : Thread) : (th.advance).brecs = th.brecs := rfl
@[simp] theorem Thread.advance_dist (th : Thread) : (th.advance).dist = th.dist := rfl
@[simp] theorem Thread.advance_began (th : Thread) : (th.advance).began = th.began := rfl
@[simp] theorem Thread.advance_lastIssue (th : Thread) : (th.advance).lastIssue = th.lastIssue := rfl
@[simp] theorem Thread.advance_pendClear (th : Thread) : (th.advance).pendClear = th.pendClear := rfl
@[simp] theorem Thread.advance_engEvents (th : Thread) : (th.advance).engEvents = th.engEvents := rfl
@[simp] theorem Thread.advance_postEvents (th : Thread) : (th.advance).postEvents = th.postEvents := rfl
@[simp] theorem Thread.advance_straggler (th : Thread) : (th.advance).straggler = th.straggler := rfl
@[simp] theorem Thread.advance_cancel (th : Thread) : (th.advance).cancel = th.cancel := rfl
@[simp] theorem Thread.advance_asked (th : Thread) : (th.advance).asked = th.asked := rfl
@[simp] theorem Thread.advance_issueClock (th : Thread) : (th.advance).issueClock = th.issueClock := rfl
@[simp] theorem Thread.advance_issueBank (th : Thread) : (th.advance).issueBank = th.issueBank := rfl
@[simp] theorem Thread.advance_stopped (th : Thread) : (th.advance).stopped = th.stopped := rfl
@[simp] theorem Thread.advance_ilen (th : Thread) : (th.advance).ilen = th.ilen := rfl

@[simp] theorem Thread.jumpTo_place (th : Thread) (w : Word) (b : Bool) : (th.jumpTo w b).place = th.place := rfl
@[simp] theorem Thread.jumpTo_home (th : Thread) (w : Word) (b : Bool) : (th.jumpTo w b).home = th.home := rfl
@[simp] theorem Thread.jumpTo_halted (th : Thread) (w : Word) (b : Bool) : (th.jumpTo w b).halted = th.halted := rfl
@[simp] theorem Thread.jumpTo_guest (th : Thread) (w : Word) (b : Bool) : (th.jumpTo w b).guest = th.guest := rfl
@[simp] theorem Thread.jumpTo_gen (th : Thread) (w : Word) (b : Bool) : (th.jumpTo w b).gen = th.gen := rfl
@[simp] theorem Thread.jumpTo_launch (th : Thread) (w : Word) (b : Bool) : (th.jumpTo w b).launch = th.launch := rfl
@[simp] theorem Thread.jumpTo_unit (th : Thread) (w : Word) (b : Bool) : (th.jumpTo w b).unit = th.unit := rfl
@[simp] theorem Thread.jumpTo_parent (th : Thread) (w : Word) (b : Bool) : (th.jumpTo w b).parent = th.parent := rfl
@[simp] theorem Thread.jumpTo_x (th : Thread) (w : Word) (b : Bool) : (th.jumpTo w b).x = th.x := rfl
@[simp] theorem Thread.jumpTo_e (th : Thread) (w : Word) (b : Bool) : (th.jumpTo w b).e = th.e := rfl
@[simp] theorem Thread.jumpTo_q (th : Thread) (w : Word) (b : Bool) : (th.jumpTo w b).q = th.q := rfl
@[simp] theorem Thread.jumpTo_lts (th : Thread) (w : Word) (b : Bool) : (th.jumpTo w b).lts = th.lts := rfl
@[simp] theorem Thread.jumpTo_ltsSeen (th : Thread) (w : Word) (b : Bool) : (th.jumpTo w b).ltsSeen = th.ltsSeen := rfl
@[simp] theorem Thread.jumpTo_acked (th : Thread) (w : Word) (b : Bool) : (th.jumpTo w b).acked = th.acked := rfl
@[simp] theorem Thread.jumpTo_frames (th : Thread) (w : Word) (b : Bool) : (th.jumpTo w b).frames = th.frames := rfl
@[simp] theorem Thread.jumpTo_transit (th : Thread) (w : Word) (b : Bool) : (th.jumpTo w b).transit = th.transit := rfl
@[simp] theorem Thread.jumpTo_depth (th : Thread) (w : Word) (b : Bool) : (th.jumpTo w b).depth = th.depth := rfl
@[simp] theorem Thread.jumpTo_wsp (th : Thread) (w : Word) (b : Bool) : (th.jumpTo w b).wsp = th.wsp := rfl
@[simp] theorem Thread.jumpTo_pin (th : Thread) (w : Word) (b : Bool) : (th.jumpTo w b).pin = th.pin := rfl
@[simp] theorem Thread.jumpTo_yielded (th : Thread) (w : Word) (b : Bool) : (th.jumpTo w b).yielded = th.yielded := rfl
@[simp] theorem Thread.jumpTo_usedShared (th : Thread) (w : Word) (b : Bool) : (th.jumpTo w b).usedShared = th.usedShared := rfl
@[simp] theorem Thread.jumpTo_usedLocal (th : Thread) (w : Word) (b : Bool) : (th.jumpTo w b).usedLocal = th.usedLocal := rfl
@[simp] theorem Thread.jumpTo_stashm (th : Thread) (w : Word) (b : Bool) : (th.jumpTo w b).stashm = th.stashm := rfl
@[simp] theorem Thread.jumpTo_trapz (th : Thread) (w : Word) (b : Bool) : (th.jumpTo w b).trapz = th.trapz := rfl
@[simp] theorem Thread.jumpTo_priv (th : Thread) (w : Word) (b : Bool) : (th.jumpTo w b).priv = th.priv := rfl
@[simp] theorem Thread.jumpTo_epc (th : Thread) (w : Word) (b : Bool) : (th.jumpTo w b).epc = th.epc := rfl
@[simp] theorem Thread.jumpTo_trapc (th : Thread) (w : Word) (b : Bool) : (th.jumpTo w b).trapc = th.trapc := rfl
@[simp] theorem Thread.jumpTo_taddr (th : Thread) (w : Word) (b : Bool) : (th.jumpTo w b).taddr = th.taddr := rfl
@[simp] theorem Thread.jumpTo_tvec (th : Thread) (w : Word) (b : Bool) : (th.jumpTo w b).tvec = th.tvec := rfl
@[simp] theorem Thread.jumpTo_monst (th : Thread) (w : Word) (b : Bool) : (th.jumpTo w b).monst = th.monst := rfl
@[simp] theorem Thread.jumpTo_feaddr (th : Thread) (w : Word) (b : Bool) : (th.jumpTo w b).feaddr = th.feaddr := rfl
@[simp] theorem Thread.jumpTo_fedata (th : Thread) (w : Word) (b : Bool) : (th.jumpTo w b).fedata = th.fedata := rfl
@[simp] theorem Thread.jumpTo_efaddr (th : Thread) (w : Word) (b : Bool) : (th.jumpTo w b).efaddr = th.efaddr := rfl
@[simp] theorem Thread.jumpTo_efinfo (th : Thread) (w : Word) (b : Bool) : (th.jumpTo w b).efinfo = th.efinfo := rfl
@[simp] theorem Thread.jumpTo_xsel (th : Thread) (w : Word) (b : Bool) : (th.jumpTo w b).xsel = th.xsel := rfl
@[simp] theorem Thread.jumpTo_waited (th : Thread) (w : Word) (b : Bool) : (th.jumpTo w b).waited = th.waited := rfl
@[simp] theorem Thread.jumpTo_lastTag (th : Thread) (w : Word) (b : Bool) : (th.jumpTo w b).lastTag = th.lastTag := rfl
@[simp] theorem Thread.jumpTo_mons (th : Thread) (w : Word) (b : Bool) : (th.jumpTo w b).mons = th.mons := rfl
@[simp] theorem Thread.jumpTo_bindings (th : Thread) (w : Word) (b : Bool) : (th.jumpTo w b).bindings = th.bindings := rfl
@[simp] theorem Thread.jumpTo_brecs (th : Thread) (w : Word) (b : Bool) : (th.jumpTo w b).brecs = th.brecs := rfl
@[simp] theorem Thread.jumpTo_dist (th : Thread) (w : Word) (b : Bool) : (th.jumpTo w b).dist = th.dist := rfl
@[simp] theorem Thread.jumpTo_began (th : Thread) (w : Word) (b : Bool) : (th.jumpTo w b).began = th.began := rfl
@[simp] theorem Thread.jumpTo_lastIssue (th : Thread) (w : Word) (b : Bool) : (th.jumpTo w b).lastIssue = th.lastIssue := rfl
@[simp] theorem Thread.jumpTo_pendClear (th : Thread) (w : Word) (b : Bool) : (th.jumpTo w b).pendClear = th.pendClear := rfl
@[simp] theorem Thread.jumpTo_engEvents (th : Thread) (w : Word) (b : Bool) : (th.jumpTo w b).engEvents = th.engEvents := rfl
@[simp] theorem Thread.jumpTo_postEvents (th : Thread) (w : Word) (b : Bool) : (th.jumpTo w b).postEvents = th.postEvents := rfl
@[simp] theorem Thread.jumpTo_straggler (th : Thread) (w : Word) (b : Bool) : (th.jumpTo w b).straggler = th.straggler := rfl
@[simp] theorem Thread.jumpTo_cancel (th : Thread) (w : Word) (b : Bool) : (th.jumpTo w b).cancel = th.cancel := rfl
@[simp] theorem Thread.jumpTo_asked (th : Thread) (w : Word) (b : Bool) : (th.jumpTo w b).asked = th.asked := rfl
@[simp] theorem Thread.jumpTo_issueClock (th : Thread) (w : Word) (b : Bool) : (th.jumpTo w b).issueClock = th.issueClock := rfl
@[simp] theorem Thread.jumpTo_issueBank (th : Thread) (w : Word) (b : Bool) : (th.jumpTo w b).issueBank = th.issueBank := rfl
@[simp] theorem Thread.jumpTo_stopped (th : Thread) (w : Word) (b : Bool) : (th.jumpTo w b).stopped = th.stopped := rfl
@[simp] theorem Thread.jumpTo_ilen (th : Thread) (w : Word) (b : Bool) : (th.jumpTo w b).ilen = th.ilen := rfl

@[simp] theorem Thread.noted_place (th : Thread) (n : Nat) (rs : List Reg) : (th.noted n rs).place = th.place := rfl
@[simp] theorem Thread.noted_home (th : Thread) (n : Nat) (rs : List Reg) : (th.noted n rs).home = th.home := rfl
@[simp] theorem Thread.noted_halted (th : Thread) (n : Nat) (rs : List Reg) : (th.noted n rs).halted = th.halted := rfl
@[simp] theorem Thread.noted_guest (th : Thread) (n : Nat) (rs : List Reg) : (th.noted n rs).guest = th.guest := rfl
@[simp] theorem Thread.noted_gen (th : Thread) (n : Nat) (rs : List Reg) : (th.noted n rs).gen = th.gen := rfl
@[simp] theorem Thread.noted_launch (th : Thread) (n : Nat) (rs : List Reg) : (th.noted n rs).launch = th.launch := rfl
@[simp] theorem Thread.noted_unit (th : Thread) (n : Nat) (rs : List Reg) : (th.noted n rs).unit = th.unit := rfl
@[simp] theorem Thread.noted_parent (th : Thread) (n : Nat) (rs : List Reg) : (th.noted n rs).parent = th.parent := rfl
@[simp] theorem Thread.noted_x (th : Thread) (n : Nat) (rs : List Reg) : (th.noted n rs).x = th.x := rfl
@[simp] theorem Thread.noted_e (th : Thread) (n : Nat) (rs : List Reg) : (th.noted n rs).e = th.e := rfl
@[simp] theorem Thread.noted_q (th : Thread) (n : Nat) (rs : List Reg) : (th.noted n rs).q = th.q := rfl
@[simp] theorem Thread.noted_pc (th : Thread) (n : Nat) (rs : List Reg) : (th.noted n rs).pc = th.pc := rfl
@[simp] theorem Thread.noted_lts (th : Thread) (n : Nat) (rs : List Reg) : (th.noted n rs).lts = th.lts := rfl
@[simp] theorem Thread.noted_ltsSeen (th : Thread) (n : Nat) (rs : List Reg) : (th.noted n rs).ltsSeen = th.ltsSeen := rfl
@[simp] theorem Thread.noted_acked (th : Thread) (n : Nat) (rs : List Reg) : (th.noted n rs).acked = th.acked := rfl
@[simp] theorem Thread.noted_frames (th : Thread) (n : Nat) (rs : List Reg) : (th.noted n rs).frames = th.frames := rfl
@[simp] theorem Thread.noted_transit (th : Thread) (n : Nat) (rs : List Reg) : (th.noted n rs).transit = th.transit := rfl
@[simp] theorem Thread.noted_depth (th : Thread) (n : Nat) (rs : List Reg) : (th.noted n rs).depth = th.depth := rfl
@[simp] theorem Thread.noted_wsp (th : Thread) (n : Nat) (rs : List Reg) : (th.noted n rs).wsp = th.wsp := rfl
@[simp] theorem Thread.noted_loops (th : Thread) (n : Nat) (rs : List Reg) : (th.noted n rs).loops = th.loops := rfl
@[simp] theorem Thread.noted_pin (th : Thread) (n : Nat) (rs : List Reg) : (th.noted n rs).pin = th.pin := rfl
@[simp] theorem Thread.noted_yielded (th : Thread) (n : Nat) (rs : List Reg) : (th.noted n rs).yielded = th.yielded := rfl
@[simp] theorem Thread.noted_usedLocal (th : Thread) (n : Nat) (rs : List Reg) : (th.noted n rs).usedLocal = th.usedLocal := rfl
@[simp] theorem Thread.noted_stashm (th : Thread) (n : Nat) (rs : List Reg) : (th.noted n rs).stashm = th.stashm := rfl
@[simp] theorem Thread.noted_trapz (th : Thread) (n : Nat) (rs : List Reg) : (th.noted n rs).trapz = th.trapz := rfl
@[simp] theorem Thread.noted_priv (th : Thread) (n : Nat) (rs : List Reg) : (th.noted n rs).priv = th.priv := rfl
@[simp] theorem Thread.noted_epc (th : Thread) (n : Nat) (rs : List Reg) : (th.noted n rs).epc = th.epc := rfl
@[simp] theorem Thread.noted_trapc (th : Thread) (n : Nat) (rs : List Reg) : (th.noted n rs).trapc = th.trapc := rfl
@[simp] theorem Thread.noted_taddr (th : Thread) (n : Nat) (rs : List Reg) : (th.noted n rs).taddr = th.taddr := rfl
@[simp] theorem Thread.noted_tvec (th : Thread) (n : Nat) (rs : List Reg) : (th.noted n rs).tvec = th.tvec := rfl
@[simp] theorem Thread.noted_monst (th : Thread) (n : Nat) (rs : List Reg) : (th.noted n rs).monst = th.monst := rfl
@[simp] theorem Thread.noted_feaddr (th : Thread) (n : Nat) (rs : List Reg) : (th.noted n rs).feaddr = th.feaddr := rfl
@[simp] theorem Thread.noted_fedata (th : Thread) (n : Nat) (rs : List Reg) : (th.noted n rs).fedata = th.fedata := rfl
@[simp] theorem Thread.noted_efaddr (th : Thread) (n : Nat) (rs : List Reg) : (th.noted n rs).efaddr = th.efaddr := rfl
@[simp] theorem Thread.noted_efinfo (th : Thread) (n : Nat) (rs : List Reg) : (th.noted n rs).efinfo = th.efinfo := rfl
@[simp] theorem Thread.noted_xsel (th : Thread) (n : Nat) (rs : List Reg) : (th.noted n rs).xsel = th.xsel := rfl
@[simp] theorem Thread.noted_issued (th : Thread) (n : Nat) (rs : List Reg) : (th.noted n rs).issued = th.issued := rfl
@[simp] theorem Thread.noted_waited (th : Thread) (n : Nat) (rs : List Reg) : (th.noted n rs).waited = th.waited := rfl
@[simp] theorem Thread.noted_lastTag (th : Thread) (n : Nat) (rs : List Reg) : (th.noted n rs).lastTag = th.lastTag := rfl
@[simp] theorem Thread.noted_mons (th : Thread) (n : Nat) (rs : List Reg) : (th.noted n rs).mons = th.mons := rfl
@[simp] theorem Thread.noted_bindings (th : Thread) (n : Nat) (rs : List Reg) : (th.noted n rs).bindings = th.bindings := rfl
@[simp] theorem Thread.noted_brecs (th : Thread) (n : Nat) (rs : List Reg) : (th.noted n rs).brecs = th.brecs := rfl
@[simp] theorem Thread.noted_dist (th : Thread) (n : Nat) (rs : List Reg) : (th.noted n rs).dist = th.dist := rfl
@[simp] theorem Thread.noted_began (th : Thread) (n : Nat) (rs : List Reg) : (th.noted n rs).began = th.began := rfl
@[simp] theorem Thread.noted_lastIssue (th : Thread) (n : Nat) (rs : List Reg) : (th.noted n rs).lastIssue = th.lastIssue := rfl
@[simp] theorem Thread.noted_wait (th : Thread) (n : Nat) (rs : List Reg) : (th.noted n rs).wait = th.wait := rfl
@[simp] theorem Thread.noted_waitWid (th : Thread) (n : Nat) (rs : List Reg) : (th.noted n rs).waitWid = th.waitWid := rfl
@[simp] theorem Thread.noted_pendClear (th : Thread) (n : Nat) (rs : List Reg) : (th.noted n rs).pendClear = th.pendClear := rfl
@[simp] theorem Thread.noted_engEvents (th : Thread) (n : Nat) (rs : List Reg) : (th.noted n rs).engEvents = th.engEvents := rfl
@[simp] theorem Thread.noted_postEvents (th : Thread) (n : Nat) (rs : List Reg) : (th.noted n rs).postEvents = th.postEvents := rfl
@[simp] theorem Thread.noted_straggler (th : Thread) (n : Nat) (rs : List Reg) : (th.noted n rs).straggler = th.straggler := rfl
@[simp] theorem Thread.noted_cancel (th : Thread) (n : Nat) (rs : List Reg) : (th.noted n rs).cancel = th.cancel := rfl
@[simp] theorem Thread.noted_asked (th : Thread) (n : Nat) (rs : List Reg) : (th.noted n rs).asked = th.asked := rfl
@[simp] theorem Thread.noted_issueClock (th : Thread) (n : Nat) (rs : List Reg) : (th.noted n rs).issueClock = th.issueClock := rfl
@[simp] theorem Thread.noted_issueBank (th : Thread) (n : Nat) (rs : List Reg) : (th.noted n rs).issueBank = th.issueBank := rfl
@[simp] theorem Thread.noted_forceHome (th : Thread) (n : Nat) (rs : List Reg) : (th.noted n rs).forceHome = th.forceHome := rfl
@[simp] theorem Thread.noted_stopped (th : Thread) (n : Nat) (rs : List Reg) : (th.noted n rs).stopped = th.stopped := rfl
@[simp] theorem Thread.noted_replay (th : Thread) (n : Nat) (rs : List Reg) : (th.noted n rs).replay = th.replay := rfl
@[simp] theorem Thread.noted_queued (th : Thread) (n : Nat) (rs : List Reg) : (th.noted n rs).queued = th.queued := rfl

@[simp] theorem Thread.raise_place (th : Thread) (w : Word) : (th.raise w).place = th.place := rfl
@[simp] theorem Thread.raise_home (th : Thread) (w : Word) : (th.raise w).home = th.home := rfl
@[simp] theorem Thread.raise_halted (th : Thread) (w : Word) : (th.raise w).halted = th.halted := rfl
@[simp] theorem Thread.raise_guest (th : Thread) (w : Word) : (th.raise w).guest = th.guest := rfl
@[simp] theorem Thread.raise_gen (th : Thread) (w : Word) : (th.raise w).gen = th.gen := rfl
@[simp] theorem Thread.raise_launch (th : Thread) (w : Word) : (th.raise w).launch = th.launch := rfl
@[simp] theorem Thread.raise_unit (th : Thread) (w : Word) : (th.raise w).unit = th.unit := rfl
@[simp] theorem Thread.raise_parent (th : Thread) (w : Word) : (th.raise w).parent = th.parent := rfl
@[simp] theorem Thread.raise_x (th : Thread) (w : Word) : (th.raise w).x = th.x := rfl
@[simp] theorem Thread.raise_e (th : Thread) (w : Word) : (th.raise w).e = th.e := rfl
@[simp] theorem Thread.raise_q (th : Thread) (w : Word) : (th.raise w).q = th.q := rfl
@[simp] theorem Thread.raise_pc (th : Thread) (w : Word) : (th.raise w).pc = th.pc := rfl
@[simp] theorem Thread.raise_acked (th : Thread) (w : Word) : (th.raise w).acked = th.acked := rfl
@[simp] theorem Thread.raise_frames (th : Thread) (w : Word) : (th.raise w).frames = th.frames := rfl
@[simp] theorem Thread.raise_transit (th : Thread) (w : Word) : (th.raise w).transit = th.transit := rfl
@[simp] theorem Thread.raise_depth (th : Thread) (w : Word) : (th.raise w).depth = th.depth := rfl
@[simp] theorem Thread.raise_wsp (th : Thread) (w : Word) : (th.raise w).wsp = th.wsp := rfl
@[simp] theorem Thread.raise_loops (th : Thread) (w : Word) : (th.raise w).loops = th.loops := rfl
@[simp] theorem Thread.raise_pin (th : Thread) (w : Word) : (th.raise w).pin = th.pin := rfl
@[simp] theorem Thread.raise_yielded (th : Thread) (w : Word) : (th.raise w).yielded = th.yielded := rfl
@[simp] theorem Thread.raise_usedShared (th : Thread) (w : Word) : (th.raise w).usedShared = th.usedShared := rfl
@[simp] theorem Thread.raise_usedLocal (th : Thread) (w : Word) : (th.raise w).usedLocal = th.usedLocal := rfl
@[simp] theorem Thread.raise_stashm (th : Thread) (w : Word) : (th.raise w).stashm = th.stashm := rfl
@[simp] theorem Thread.raise_trapz (th : Thread) (w : Word) : (th.raise w).trapz = th.trapz := rfl
@[simp] theorem Thread.raise_priv (th : Thread) (w : Word) : (th.raise w).priv = th.priv := rfl
@[simp] theorem Thread.raise_epc (th : Thread) (w : Word) : (th.raise w).epc = th.epc := rfl
@[simp] theorem Thread.raise_trapc (th : Thread) (w : Word) : (th.raise w).trapc = th.trapc := rfl
@[simp] theorem Thread.raise_taddr (th : Thread) (w : Word) : (th.raise w).taddr = th.taddr := rfl
@[simp] theorem Thread.raise_tvec (th : Thread) (w : Word) : (th.raise w).tvec = th.tvec := rfl
@[simp] theorem Thread.raise_monst (th : Thread) (w : Word) : (th.raise w).monst = th.monst := rfl
@[simp] theorem Thread.raise_feaddr (th : Thread) (w : Word) : (th.raise w).feaddr = th.feaddr := rfl
@[simp] theorem Thread.raise_fedata (th : Thread) (w : Word) : (th.raise w).fedata = th.fedata := rfl
@[simp] theorem Thread.raise_efaddr (th : Thread) (w : Word) : (th.raise w).efaddr = th.efaddr := rfl
@[simp] theorem Thread.raise_efinfo (th : Thread) (w : Word) : (th.raise w).efinfo = th.efinfo := rfl
@[simp] theorem Thread.raise_xsel (th : Thread) (w : Word) : (th.raise w).xsel = th.xsel := rfl
@[simp] theorem Thread.raise_issued (th : Thread) (w : Word) : (th.raise w).issued = th.issued := rfl
@[simp] theorem Thread.raise_waited (th : Thread) (w : Word) : (th.raise w).waited = th.waited := rfl
@[simp] theorem Thread.raise_lastTag (th : Thread) (w : Word) : (th.raise w).lastTag = th.lastTag := rfl
@[simp] theorem Thread.raise_mons (th : Thread) (w : Word) : (th.raise w).mons = th.mons := rfl
@[simp] theorem Thread.raise_bindings (th : Thread) (w : Word) : (th.raise w).bindings = th.bindings := rfl
@[simp] theorem Thread.raise_brecs (th : Thread) (w : Word) : (th.raise w).brecs = th.brecs := rfl
@[simp] theorem Thread.raise_dist (th : Thread) (w : Word) : (th.raise w).dist = th.dist := rfl
@[simp] theorem Thread.raise_began (th : Thread) (w : Word) : (th.raise w).began = th.began := rfl
@[simp] theorem Thread.raise_lastIssue (th : Thread) (w : Word) : (th.raise w).lastIssue = th.lastIssue := rfl
@[simp] theorem Thread.raise_wait (th : Thread) (w : Word) : (th.raise w).wait = th.wait := rfl
@[simp] theorem Thread.raise_waitWid (th : Thread) (w : Word) : (th.raise w).waitWid = th.waitWid := rfl
@[simp] theorem Thread.raise_pendClear (th : Thread) (w : Word) : (th.raise w).pendClear = th.pendClear := rfl
@[simp] theorem Thread.raise_engEvents (th : Thread) (w : Word) : (th.raise w).engEvents = th.engEvents := rfl
@[simp] theorem Thread.raise_postEvents (th : Thread) (w : Word) : (th.raise w).postEvents = th.postEvents := rfl
@[simp] theorem Thread.raise_straggler (th : Thread) (w : Word) : (th.raise w).straggler = th.straggler := rfl
@[simp] theorem Thread.raise_cancel (th : Thread) (w : Word) : (th.raise w).cancel = th.cancel := rfl
@[simp] theorem Thread.raise_asked (th : Thread) (w : Word) : (th.raise w).asked = th.asked := rfl
@[simp] theorem Thread.raise_issueClock (th : Thread) (w : Word) : (th.raise w).issueClock = th.issueClock := rfl
@[simp] theorem Thread.raise_issueBank (th : Thread) (w : Word) : (th.raise w).issueBank = th.issueBank := rfl
@[simp] theorem Thread.raise_forceHome (th : Thread) (w : Word) : (th.raise w).forceHome = th.forceHome := rfl
@[simp] theorem Thread.raise_stopped (th : Thread) (w : Word) : (th.raise w).stopped = th.stopped := rfl
@[simp] theorem Thread.raise_ilen (th : Thread) (w : Word) : (th.raise w).ilen = th.ilen := rfl
@[simp] theorem Thread.raise_replay (th : Thread) (w : Word) : (th.raise w).replay = th.replay := rfl
@[simp] theorem Thread.raise_queued (th : Thread) (w : Word) : (th.raise w).queued = th.queued := rfl

@[simp] theorem Thread.withFrame_place (th : Thread) (f : Vector Word 16) : (th.withFrame f).place = th.place := by simp only [Thread.withFrame]
@[simp] theorem Thread.withFrame_home (th : Thread) (f : Vector Word 16) : (th.withFrame f).home = th.home := by simp only [Thread.withFrame]
@[simp] theorem Thread.withFrame_halted (th : Thread) (f : Vector Word 16) : (th.withFrame f).halted = th.halted := by simp only [Thread.withFrame]
@[simp] theorem Thread.withFrame_guest (th : Thread) (f : Vector Word 16) : (th.withFrame f).guest = th.guest := by simp only [Thread.withFrame]
@[simp] theorem Thread.withFrame_gen (th : Thread) (f : Vector Word 16) : (th.withFrame f).gen = th.gen := by simp only [Thread.withFrame]
@[simp] theorem Thread.withFrame_launch (th : Thread) (f : Vector Word 16) : (th.withFrame f).launch = th.launch := by simp only [Thread.withFrame]
@[simp] theorem Thread.withFrame_unit (th : Thread) (f : Vector Word 16) : (th.withFrame f).unit = th.unit := by simp only [Thread.withFrame]
@[simp] theorem Thread.withFrame_parent (th : Thread) (f : Vector Word 16) : (th.withFrame f).parent = th.parent := by simp only [Thread.withFrame]
@[simp] theorem Thread.withFrame_e (th : Thread) (f : Vector Word 16) : (th.withFrame f).e = th.e := by simp only [Thread.withFrame]
@[simp] theorem Thread.withFrame_q (th : Thread) (f : Vector Word 16) : (th.withFrame f).q = th.q := by simp only [Thread.withFrame]
@[simp] theorem Thread.withFrame_pc (th : Thread) (f : Vector Word 16) : (th.withFrame f).pc = th.pc := by simp only [Thread.withFrame]
@[simp] theorem Thread.withFrame_lts (th : Thread) (f : Vector Word 16) : (th.withFrame f).lts = th.lts := by simp only [Thread.withFrame]
@[simp] theorem Thread.withFrame_ltsSeen (th : Thread) (f : Vector Word 16) : (th.withFrame f).ltsSeen = th.ltsSeen := by simp only [Thread.withFrame]
@[simp] theorem Thread.withFrame_acked (th : Thread) (f : Vector Word 16) : (th.withFrame f).acked = th.acked := by simp only [Thread.withFrame]
@[simp] theorem Thread.withFrame_frames (th : Thread) (f : Vector Word 16) : (th.withFrame f).frames = th.frames := by simp only [Thread.withFrame]
@[simp] theorem Thread.withFrame_transit (th : Thread) (f : Vector Word 16) : (th.withFrame f).transit = th.transit := by simp only [Thread.withFrame]
@[simp] theorem Thread.withFrame_depth (th : Thread) (f : Vector Word 16) : (th.withFrame f).depth = th.depth := by simp only [Thread.withFrame]
@[simp] theorem Thread.withFrame_wsp (th : Thread) (f : Vector Word 16) : (th.withFrame f).wsp = th.wsp := by simp only [Thread.withFrame]
@[simp] theorem Thread.withFrame_loops (th : Thread) (f : Vector Word 16) : (th.withFrame f).loops = th.loops := by simp only [Thread.withFrame]
@[simp] theorem Thread.withFrame_pin (th : Thread) (f : Vector Word 16) : (th.withFrame f).pin = th.pin := by simp only [Thread.withFrame]
@[simp] theorem Thread.withFrame_yielded (th : Thread) (f : Vector Word 16) : (th.withFrame f).yielded = th.yielded := by simp only [Thread.withFrame]
@[simp] theorem Thread.withFrame_usedShared (th : Thread) (f : Vector Word 16) : (th.withFrame f).usedShared = th.usedShared := by simp only [Thread.withFrame]
@[simp] theorem Thread.withFrame_usedLocal (th : Thread) (f : Vector Word 16) : (th.withFrame f).usedLocal = th.usedLocal := by simp only [Thread.withFrame]
@[simp] theorem Thread.withFrame_stashm (th : Thread) (f : Vector Word 16) : (th.withFrame f).stashm = th.stashm := by simp only [Thread.withFrame]
@[simp] theorem Thread.withFrame_trapz (th : Thread) (f : Vector Word 16) : (th.withFrame f).trapz = th.trapz := by simp only [Thread.withFrame]
@[simp] theorem Thread.withFrame_priv (th : Thread) (f : Vector Word 16) : (th.withFrame f).priv = th.priv := by simp only [Thread.withFrame]
@[simp] theorem Thread.withFrame_epc (th : Thread) (f : Vector Word 16) : (th.withFrame f).epc = th.epc := by simp only [Thread.withFrame]
@[simp] theorem Thread.withFrame_trapc (th : Thread) (f : Vector Word 16) : (th.withFrame f).trapc = th.trapc := by simp only [Thread.withFrame]
@[simp] theorem Thread.withFrame_taddr (th : Thread) (f : Vector Word 16) : (th.withFrame f).taddr = th.taddr := by simp only [Thread.withFrame]
@[simp] theorem Thread.withFrame_tvec (th : Thread) (f : Vector Word 16) : (th.withFrame f).tvec = th.tvec := by simp only [Thread.withFrame]
@[simp] theorem Thread.withFrame_monst (th : Thread) (f : Vector Word 16) : (th.withFrame f).monst = th.monst := by simp only [Thread.withFrame]
@[simp] theorem Thread.withFrame_feaddr (th : Thread) (f : Vector Word 16) : (th.withFrame f).feaddr = th.feaddr := by simp only [Thread.withFrame]
@[simp] theorem Thread.withFrame_fedata (th : Thread) (f : Vector Word 16) : (th.withFrame f).fedata = th.fedata := by simp only [Thread.withFrame]
@[simp] theorem Thread.withFrame_efaddr (th : Thread) (f : Vector Word 16) : (th.withFrame f).efaddr = th.efaddr := by simp only [Thread.withFrame]
@[simp] theorem Thread.withFrame_efinfo (th : Thread) (f : Vector Word 16) : (th.withFrame f).efinfo = th.efinfo := by simp only [Thread.withFrame]
@[simp] theorem Thread.withFrame_xsel (th : Thread) (f : Vector Word 16) : (th.withFrame f).xsel = th.xsel := by simp only [Thread.withFrame]
@[simp] theorem Thread.withFrame_issued (th : Thread) (f : Vector Word 16) : (th.withFrame f).issued = th.issued := by simp only [Thread.withFrame]
@[simp] theorem Thread.withFrame_waited (th : Thread) (f : Vector Word 16) : (th.withFrame f).waited = th.waited := by simp only [Thread.withFrame]
@[simp] theorem Thread.withFrame_lastTag (th : Thread) (f : Vector Word 16) : (th.withFrame f).lastTag = th.lastTag := by simp only [Thread.withFrame]
@[simp] theorem Thread.withFrame_mons (th : Thread) (f : Vector Word 16) : (th.withFrame f).mons = th.mons := by simp only [Thread.withFrame]
@[simp] theorem Thread.withFrame_bindings (th : Thread) (f : Vector Word 16) : (th.withFrame f).bindings = th.bindings := by simp only [Thread.withFrame]
@[simp] theorem Thread.withFrame_brecs (th : Thread) (f : Vector Word 16) : (th.withFrame f).brecs = th.brecs := by simp only [Thread.withFrame]
@[simp] theorem Thread.withFrame_dist (th : Thread) (f : Vector Word 16) : (th.withFrame f).dist = th.dist := by simp only [Thread.withFrame]
@[simp] theorem Thread.withFrame_began (th : Thread) (f : Vector Word 16) : (th.withFrame f).began = th.began := by simp only [Thread.withFrame]
@[simp] theorem Thread.withFrame_lastIssue (th : Thread) (f : Vector Word 16) : (th.withFrame f).lastIssue = th.lastIssue := by simp only [Thread.withFrame]
@[simp] theorem Thread.withFrame_wait (th : Thread) (f : Vector Word 16) : (th.withFrame f).wait = th.wait := by simp only [Thread.withFrame]
@[simp] theorem Thread.withFrame_waitWid (th : Thread) (f : Vector Word 16) : (th.withFrame f).waitWid = th.waitWid := by simp only [Thread.withFrame]
@[simp] theorem Thread.withFrame_pendClear (th : Thread) (f : Vector Word 16) : (th.withFrame f).pendClear = th.pendClear := by simp only [Thread.withFrame]
@[simp] theorem Thread.withFrame_engEvents (th : Thread) (f : Vector Word 16) : (th.withFrame f).engEvents = th.engEvents := by simp only [Thread.withFrame]
@[simp] theorem Thread.withFrame_postEvents (th : Thread) (f : Vector Word 16) : (th.withFrame f).postEvents = th.postEvents := by simp only [Thread.withFrame]
@[simp] theorem Thread.withFrame_straggler (th : Thread) (f : Vector Word 16) : (th.withFrame f).straggler = th.straggler := by simp only [Thread.withFrame]
@[simp] theorem Thread.withFrame_cancel (th : Thread) (f : Vector Word 16) : (th.withFrame f).cancel = th.cancel := by simp only [Thread.withFrame]
@[simp] theorem Thread.withFrame_asked (th : Thread) (f : Vector Word 16) : (th.withFrame f).asked = th.asked := by simp only [Thread.withFrame]
@[simp] theorem Thread.withFrame_issueClock (th : Thread) (f : Vector Word 16) : (th.withFrame f).issueClock = th.issueClock := by simp only [Thread.withFrame]
@[simp] theorem Thread.withFrame_issueBank (th : Thread) (f : Vector Word 16) : (th.withFrame f).issueBank = th.issueBank := by simp only [Thread.withFrame]
@[simp] theorem Thread.withFrame_forceHome (th : Thread) (f : Vector Word 16) : (th.withFrame f).forceHome = th.forceHome := by simp only [Thread.withFrame]
@[simp] theorem Thread.withFrame_stopped (th : Thread) (f : Vector Word 16) : (th.withFrame f).stopped = th.stopped := by simp only [Thread.withFrame]
@[simp] theorem Thread.withFrame_ilen (th : Thread) (f : Vector Word 16) : (th.withFrame f).ilen = th.ilen := by simp only [Thread.withFrame]
@[simp] theorem Thread.withFrame_replay (th : Thread) (f : Vector Word 16) : (th.withFrame f).replay = th.replay := by simp only [Thread.withFrame]
@[simp] theorem Thread.withFrame_queued (th : Thread) (f : Vector Word 16) : (th.withFrame f).queued = th.queued := by simp only [Thread.withFrame]

@[simp] theorem Thread.enter_place (th : Thread) (c d : Nat) (a : Option Word) (p : Word) : (th.enter c d a p).place = th.place := rfl
@[simp] theorem Thread.enter_home (th : Thread) (c d : Nat) (a : Option Word) (p : Word) : (th.enter c d a p).home = th.home := rfl
@[simp] theorem Thread.enter_halted (th : Thread) (c d : Nat) (a : Option Word) (p : Word) : (th.enter c d a p).halted = th.halted := rfl
@[simp] theorem Thread.enter_guest (th : Thread) (c d : Nat) (a : Option Word) (p : Word) : (th.enter c d a p).guest = th.guest := rfl
@[simp] theorem Thread.enter_gen (th : Thread) (c d : Nat) (a : Option Word) (p : Word) : (th.enter c d a p).gen = th.gen := rfl
@[simp] theorem Thread.enter_launch (th : Thread) (c d : Nat) (a : Option Word) (p : Word) : (th.enter c d a p).launch = th.launch := rfl
@[simp] theorem Thread.enter_unit (th : Thread) (c d : Nat) (a : Option Word) (p : Word) : (th.enter c d a p).unit = th.unit := rfl
@[simp] theorem Thread.enter_parent (th : Thread) (c d : Nat) (a : Option Word) (p : Word) : (th.enter c d a p).parent = th.parent := rfl
@[simp] theorem Thread.enter_x (th : Thread) (c d : Nat) (a : Option Word) (p : Word) : (th.enter c d a p).x = th.x := rfl
@[simp] theorem Thread.enter_e (th : Thread) (c d : Nat) (a : Option Word) (p : Word) : (th.enter c d a p).e = th.e := rfl
@[simp] theorem Thread.enter_q (th : Thread) (c d : Nat) (a : Option Word) (p : Word) : (th.enter c d a p).q = th.q := rfl
@[simp] theorem Thread.enter_lts (th : Thread) (c d : Nat) (a : Option Word) (p : Word) : (th.enter c d a p).lts = th.lts := rfl
@[simp] theorem Thread.enter_ltsSeen (th : Thread) (c d : Nat) (a : Option Word) (p : Word) : (th.enter c d a p).ltsSeen = th.ltsSeen := rfl
@[simp] theorem Thread.enter_acked (th : Thread) (c d : Nat) (a : Option Word) (p : Word) : (th.enter c d a p).acked = th.acked := rfl
@[simp] theorem Thread.enter_frames (th : Thread) (c d : Nat) (a : Option Word) (p : Word) : (th.enter c d a p).frames = th.frames := rfl
@[simp] theorem Thread.enter_transit (th : Thread) (c d : Nat) (a : Option Word) (p : Word) : (th.enter c d a p).transit = th.transit := rfl
@[simp] theorem Thread.enter_depth (th : Thread) (c d : Nat) (a : Option Word) (p : Word) : (th.enter c d a p).depth = th.depth := rfl
@[simp] theorem Thread.enter_wsp (th : Thread) (c d : Nat) (a : Option Word) (p : Word) : (th.enter c d a p).wsp = th.wsp := rfl
@[simp] theorem Thread.enter_loops (th : Thread) (c d : Nat) (a : Option Word) (p : Word) : (th.enter c d a p).loops = th.loops := rfl
@[simp] theorem Thread.enter_pin (th : Thread) (c d : Nat) (a : Option Word) (p : Word) : (th.enter c d a p).pin = th.pin := rfl
@[simp] theorem Thread.enter_yielded (th : Thread) (c d : Nat) (a : Option Word) (p : Word) : (th.enter c d a p).yielded = th.yielded := rfl
@[simp] theorem Thread.enter_usedShared (th : Thread) (c d : Nat) (a : Option Word) (p : Word) : (th.enter c d a p).usedShared = th.usedShared := rfl
@[simp] theorem Thread.enter_usedLocal (th : Thread) (c d : Nat) (a : Option Word) (p : Word) : (th.enter c d a p).usedLocal = th.usedLocal := rfl
@[simp] theorem Thread.enter_stashm (th : Thread) (c d : Nat) (a : Option Word) (p : Word) : (th.enter c d a p).stashm = th.stashm := rfl
@[simp] theorem Thread.enter_trapz (th : Thread) (c d : Nat) (a : Option Word) (p : Word) : (th.enter c d a p).trapz = th.trapz := rfl
@[simp] theorem Thread.enter_priv (th : Thread) (c d : Nat) (a : Option Word) (p : Word) : (th.enter c d a p).priv = th.priv := rfl
@[simp] theorem Thread.enter_tvec (th : Thread) (c d : Nat) (a : Option Word) (p : Word) : (th.enter c d a p).tvec = th.tvec := rfl
@[simp] theorem Thread.enter_monst (th : Thread) (c d : Nat) (a : Option Word) (p : Word) : (th.enter c d a p).monst = th.monst := rfl
@[simp] theorem Thread.enter_feaddr (th : Thread) (c d : Nat) (a : Option Word) (p : Word) : (th.enter c d a p).feaddr = th.feaddr := rfl
@[simp] theorem Thread.enter_fedata (th : Thread) (c d : Nat) (a : Option Word) (p : Word) : (th.enter c d a p).fedata = th.fedata := rfl
@[simp] theorem Thread.enter_efaddr (th : Thread) (c d : Nat) (a : Option Word) (p : Word) : (th.enter c d a p).efaddr = th.efaddr := rfl
@[simp] theorem Thread.enter_efinfo (th : Thread) (c d : Nat) (a : Option Word) (p : Word) : (th.enter c d a p).efinfo = th.efinfo := rfl
@[simp] theorem Thread.enter_xsel (th : Thread) (c d : Nat) (a : Option Word) (p : Word) : (th.enter c d a p).xsel = th.xsel := rfl
@[simp] theorem Thread.enter_issued (th : Thread) (c d : Nat) (a : Option Word) (p : Word) : (th.enter c d a p).issued = th.issued := rfl
@[simp] theorem Thread.enter_waited (th : Thread) (c d : Nat) (a : Option Word) (p : Word) : (th.enter c d a p).waited = th.waited := rfl
@[simp] theorem Thread.enter_lastTag (th : Thread) (c d : Nat) (a : Option Word) (p : Word) : (th.enter c d a p).lastTag = th.lastTag := rfl
@[simp] theorem Thread.enter_mons (th : Thread) (c d : Nat) (a : Option Word) (p : Word) : (th.enter c d a p).mons = th.mons := rfl
@[simp] theorem Thread.enter_bindings (th : Thread) (c d : Nat) (a : Option Word) (p : Word) : (th.enter c d a p).bindings = th.bindings := rfl
@[simp] theorem Thread.enter_brecs (th : Thread) (c d : Nat) (a : Option Word) (p : Word) : (th.enter c d a p).brecs = th.brecs := rfl
@[simp] theorem Thread.enter_began (th : Thread) (c d : Nat) (a : Option Word) (p : Word) : (th.enter c d a p).began = th.began := rfl
@[simp] theorem Thread.enter_lastIssue (th : Thread) (c d : Nat) (a : Option Word) (p : Word) : (th.enter c d a p).lastIssue = th.lastIssue := rfl
@[simp] theorem Thread.enter_pendClear (th : Thread) (c d : Nat) (a : Option Word) (p : Word) : (th.enter c d a p).pendClear = th.pendClear := rfl
@[simp] theorem Thread.enter_engEvents (th : Thread) (c d : Nat) (a : Option Word) (p : Word) : (th.enter c d a p).engEvents = th.engEvents := rfl
@[simp] theorem Thread.enter_postEvents (th : Thread) (c d : Nat) (a : Option Word) (p : Word) : (th.enter c d a p).postEvents = th.postEvents := rfl
@[simp] theorem Thread.enter_straggler (th : Thread) (c d : Nat) (a : Option Word) (p : Word) : (th.enter c d a p).straggler = th.straggler := rfl
@[simp] theorem Thread.enter_cancel (th : Thread) (c d : Nat) (a : Option Word) (p : Word) : (th.enter c d a p).cancel = th.cancel := rfl
@[simp] theorem Thread.enter_asked (th : Thread) (c d : Nat) (a : Option Word) (p : Word) : (th.enter c d a p).asked = th.asked := rfl
@[simp] theorem Thread.enter_issueClock (th : Thread) (c d : Nat) (a : Option Word) (p : Word) : (th.enter c d a p).issueClock = th.issueClock := rfl
@[simp] theorem Thread.enter_issueBank (th : Thread) (c d : Nat) (a : Option Word) (p : Word) : (th.enter c d a p).issueBank = th.issueBank := rfl
@[simp] theorem Thread.enter_stopped (th : Thread) (c d : Nat) (a : Option Word) (p : Word) : (th.enter c d a p).stopped = th.stopped := rfl
@[simp] theorem Thread.enter_ilen (th : Thread) (c d : Nat) (a : Option Word) (p : Word) : (th.enter c d a p).ilen = th.ilen := rfl

@[simp] theorem Thread.leaveHandler_place (th : Thread) : (th.leaveHandler).place = th.place := rfl
@[simp] theorem Thread.leaveHandler_home (th : Thread) : (th.leaveHandler).home = th.home := rfl
@[simp] theorem Thread.leaveHandler_halted (th : Thread) : (th.leaveHandler).halted = th.halted := rfl
@[simp] theorem Thread.leaveHandler_guest (th : Thread) : (th.leaveHandler).guest = th.guest := rfl
@[simp] theorem Thread.leaveHandler_gen (th : Thread) : (th.leaveHandler).gen = th.gen := rfl
@[simp] theorem Thread.leaveHandler_launch (th : Thread) : (th.leaveHandler).launch = th.launch := rfl
@[simp] theorem Thread.leaveHandler_unit (th : Thread) : (th.leaveHandler).unit = th.unit := rfl
@[simp] theorem Thread.leaveHandler_parent (th : Thread) : (th.leaveHandler).parent = th.parent := rfl
@[simp] theorem Thread.leaveHandler_x (th : Thread) : (th.leaveHandler).x = th.x := rfl
@[simp] theorem Thread.leaveHandler_e (th : Thread) : (th.leaveHandler).e = th.e := rfl
@[simp] theorem Thread.leaveHandler_q (th : Thread) : (th.leaveHandler).q = th.q := rfl
@[simp] theorem Thread.leaveHandler_lts (th : Thread) : (th.leaveHandler).lts = th.lts := rfl
@[simp] theorem Thread.leaveHandler_ltsSeen (th : Thread) : (th.leaveHandler).ltsSeen = th.ltsSeen := rfl
@[simp] theorem Thread.leaveHandler_acked (th : Thread) : (th.leaveHandler).acked = th.acked := rfl
@[simp] theorem Thread.leaveHandler_frames (th : Thread) : (th.leaveHandler).frames = th.frames := rfl
@[simp] theorem Thread.leaveHandler_transit (th : Thread) : (th.leaveHandler).transit = th.transit := rfl
@[simp] theorem Thread.leaveHandler_depth (th : Thread) : (th.leaveHandler).depth = th.depth := rfl
@[simp] theorem Thread.leaveHandler_wsp (th : Thread) : (th.leaveHandler).wsp = th.wsp := rfl
@[simp] theorem Thread.leaveHandler_loops (th : Thread) : (th.leaveHandler).loops = th.loops := rfl
@[simp] theorem Thread.leaveHandler_pin (th : Thread) : (th.leaveHandler).pin = th.pin := rfl
@[simp] theorem Thread.leaveHandler_yielded (th : Thread) : (th.leaveHandler).yielded = th.yielded := rfl
@[simp] theorem Thread.leaveHandler_usedShared (th : Thread) : (th.leaveHandler).usedShared = th.usedShared := rfl
@[simp] theorem Thread.leaveHandler_usedLocal (th : Thread) : (th.leaveHandler).usedLocal = th.usedLocal := rfl
@[simp] theorem Thread.leaveHandler_stashm (th : Thread) : (th.leaveHandler).stashm = th.stashm := rfl
@[simp] theorem Thread.leaveHandler_trapz (th : Thread) : (th.leaveHandler).trapz = th.trapz := rfl
@[simp] theorem Thread.leaveHandler_priv (th : Thread) : (th.leaveHandler).priv = th.priv := rfl
@[simp] theorem Thread.leaveHandler_epc (th : Thread) : (th.leaveHandler).epc = th.epc := rfl
@[simp] theorem Thread.leaveHandler_taddr (th : Thread) : (th.leaveHandler).taddr = th.taddr := rfl
@[simp] theorem Thread.leaveHandler_tvec (th : Thread) : (th.leaveHandler).tvec = th.tvec := rfl
@[simp] theorem Thread.leaveHandler_monst (th : Thread) : (th.leaveHandler).monst = th.monst := rfl
@[simp] theorem Thread.leaveHandler_feaddr (th : Thread) : (th.leaveHandler).feaddr = th.feaddr := rfl
@[simp] theorem Thread.leaveHandler_fedata (th : Thread) : (th.leaveHandler).fedata = th.fedata := rfl
@[simp] theorem Thread.leaveHandler_efaddr (th : Thread) : (th.leaveHandler).efaddr = th.efaddr := rfl
@[simp] theorem Thread.leaveHandler_efinfo (th : Thread) : (th.leaveHandler).efinfo = th.efinfo := rfl
@[simp] theorem Thread.leaveHandler_xsel (th : Thread) : (th.leaveHandler).xsel = th.xsel := rfl
@[simp] theorem Thread.leaveHandler_waited (th : Thread) : (th.leaveHandler).waited = th.waited := rfl
@[simp] theorem Thread.leaveHandler_lastTag (th : Thread) : (th.leaveHandler).lastTag = th.lastTag := rfl
@[simp] theorem Thread.leaveHandler_mons (th : Thread) : (th.leaveHandler).mons = th.mons := rfl
@[simp] theorem Thread.leaveHandler_bindings (th : Thread) : (th.leaveHandler).bindings = th.bindings := rfl
@[simp] theorem Thread.leaveHandler_brecs (th : Thread) : (th.leaveHandler).brecs = th.brecs := rfl
@[simp] theorem Thread.leaveHandler_dist (th : Thread) : (th.leaveHandler).dist = th.dist := rfl
@[simp] theorem Thread.leaveHandler_began (th : Thread) : (th.leaveHandler).began = th.began := rfl
@[simp] theorem Thread.leaveHandler_lastIssue (th : Thread) : (th.leaveHandler).lastIssue = th.lastIssue := rfl
@[simp] theorem Thread.leaveHandler_pendClear (th : Thread) : (th.leaveHandler).pendClear = th.pendClear := rfl
@[simp] theorem Thread.leaveHandler_engEvents (th : Thread) : (th.leaveHandler).engEvents = th.engEvents := rfl
@[simp] theorem Thread.leaveHandler_postEvents (th : Thread) : (th.leaveHandler).postEvents = th.postEvents := rfl
@[simp] theorem Thread.leaveHandler_straggler (th : Thread) : (th.leaveHandler).straggler = th.straggler := rfl
@[simp] theorem Thread.leaveHandler_cancel (th : Thread) : (th.leaveHandler).cancel = th.cancel := rfl
@[simp] theorem Thread.leaveHandler_asked (th : Thread) : (th.leaveHandler).asked = th.asked := rfl
@[simp] theorem Thread.leaveHandler_issueClock (th : Thread) : (th.leaveHandler).issueClock = th.issueClock := rfl
@[simp] theorem Thread.leaveHandler_issueBank (th : Thread) : (th.leaveHandler).issueBank = th.issueBank := rfl
@[simp] theorem Thread.leaveHandler_stopped (th : Thread) : (th.leaveHandler).stopped = th.stopped := rfl
@[simp] theorem Thread.leaveHandler_ilen (th : Thread) : (th.leaveHandler).ilen = th.ilen := rfl

@[simp] theorem Thread.clearGuard_place (th : Thread) (q : BitVec 3) : (th.clearGuard q).place = th.place := rfl
@[simp] theorem Thread.clearGuard_home (th : Thread) (q : BitVec 3) : (th.clearGuard q).home = th.home := rfl
@[simp] theorem Thread.clearGuard_halted (th : Thread) (q : BitVec 3) : (th.clearGuard q).halted = th.halted := rfl
@[simp] theorem Thread.clearGuard_guest (th : Thread) (q : BitVec 3) : (th.clearGuard q).guest = th.guest := rfl
@[simp] theorem Thread.clearGuard_gen (th : Thread) (q : BitVec 3) : (th.clearGuard q).gen = th.gen := rfl
@[simp] theorem Thread.clearGuard_launch (th : Thread) (q : BitVec 3) : (th.clearGuard q).launch = th.launch := rfl
@[simp] theorem Thread.clearGuard_unit (th : Thread) (q : BitVec 3) : (th.clearGuard q).unit = th.unit := rfl
@[simp] theorem Thread.clearGuard_parent (th : Thread) (q : BitVec 3) : (th.clearGuard q).parent = th.parent := rfl
@[simp] theorem Thread.clearGuard_x (th : Thread) (q : BitVec 3) : (th.clearGuard q).x = th.x := rfl
@[simp] theorem Thread.clearGuard_e (th : Thread) (q : BitVec 3) : (th.clearGuard q).e = th.e := rfl
@[simp] theorem Thread.clearGuard_pc (th : Thread) (q : BitVec 3) : (th.clearGuard q).pc = th.pc := rfl
@[simp] theorem Thread.clearGuard_lts (th : Thread) (q : BitVec 3) : (th.clearGuard q).lts = th.lts := rfl
@[simp] theorem Thread.clearGuard_ltsSeen (th : Thread) (q : BitVec 3) : (th.clearGuard q).ltsSeen = th.ltsSeen := rfl
@[simp] theorem Thread.clearGuard_acked (th : Thread) (q : BitVec 3) : (th.clearGuard q).acked = th.acked := rfl
@[simp] theorem Thread.clearGuard_frames (th : Thread) (q : BitVec 3) : (th.clearGuard q).frames = th.frames := rfl
@[simp] theorem Thread.clearGuard_transit (th : Thread) (q : BitVec 3) : (th.clearGuard q).transit = th.transit := rfl
@[simp] theorem Thread.clearGuard_depth (th : Thread) (q : BitVec 3) : (th.clearGuard q).depth = th.depth := rfl
@[simp] theorem Thread.clearGuard_wsp (th : Thread) (q : BitVec 3) : (th.clearGuard q).wsp = th.wsp := rfl
@[simp] theorem Thread.clearGuard_loops (th : Thread) (q : BitVec 3) : (th.clearGuard q).loops = th.loops := rfl
@[simp] theorem Thread.clearGuard_pin (th : Thread) (q : BitVec 3) : (th.clearGuard q).pin = th.pin := rfl
@[simp] theorem Thread.clearGuard_yielded (th : Thread) (q : BitVec 3) : (th.clearGuard q).yielded = th.yielded := rfl
@[simp] theorem Thread.clearGuard_usedShared (th : Thread) (q : BitVec 3) : (th.clearGuard q).usedShared = th.usedShared := rfl
@[simp] theorem Thread.clearGuard_usedLocal (th : Thread) (q : BitVec 3) : (th.clearGuard q).usedLocal = th.usedLocal := rfl
@[simp] theorem Thread.clearGuard_stashm (th : Thread) (q : BitVec 3) : (th.clearGuard q).stashm = th.stashm := rfl
@[simp] theorem Thread.clearGuard_trapz (th : Thread) (q : BitVec 3) : (th.clearGuard q).trapz = th.trapz := rfl
@[simp] theorem Thread.clearGuard_priv (th : Thread) (q : BitVec 3) : (th.clearGuard q).priv = th.priv := rfl
@[simp] theorem Thread.clearGuard_epc (th : Thread) (q : BitVec 3) : (th.clearGuard q).epc = th.epc := rfl
@[simp] theorem Thread.clearGuard_trapc (th : Thread) (q : BitVec 3) : (th.clearGuard q).trapc = th.trapc := rfl
@[simp] theorem Thread.clearGuard_taddr (th : Thread) (q : BitVec 3) : (th.clearGuard q).taddr = th.taddr := rfl
@[simp] theorem Thread.clearGuard_tvec (th : Thread) (q : BitVec 3) : (th.clearGuard q).tvec = th.tvec := rfl
@[simp] theorem Thread.clearGuard_monst (th : Thread) (q : BitVec 3) : (th.clearGuard q).monst = th.monst := rfl
@[simp] theorem Thread.clearGuard_feaddr (th : Thread) (q : BitVec 3) : (th.clearGuard q).feaddr = th.feaddr := rfl
@[simp] theorem Thread.clearGuard_fedata (th : Thread) (q : BitVec 3) : (th.clearGuard q).fedata = th.fedata := rfl
@[simp] theorem Thread.clearGuard_efaddr (th : Thread) (q : BitVec 3) : (th.clearGuard q).efaddr = th.efaddr := rfl
@[simp] theorem Thread.clearGuard_efinfo (th : Thread) (q : BitVec 3) : (th.clearGuard q).efinfo = th.efinfo := rfl
@[simp] theorem Thread.clearGuard_xsel (th : Thread) (q : BitVec 3) : (th.clearGuard q).xsel = th.xsel := rfl
@[simp] theorem Thread.clearGuard_issued (th : Thread) (q : BitVec 3) : (th.clearGuard q).issued = th.issued := rfl
@[simp] theorem Thread.clearGuard_waited (th : Thread) (q : BitVec 3) : (th.clearGuard q).waited = th.waited := rfl
@[simp] theorem Thread.clearGuard_lastTag (th : Thread) (q : BitVec 3) : (th.clearGuard q).lastTag = th.lastTag := rfl
@[simp] theorem Thread.clearGuard_mons (th : Thread) (q : BitVec 3) : (th.clearGuard q).mons = th.mons := rfl
@[simp] theorem Thread.clearGuard_bindings (th : Thread) (q : BitVec 3) : (th.clearGuard q).bindings = th.bindings := rfl
@[simp] theorem Thread.clearGuard_brecs (th : Thread) (q : BitVec 3) : (th.clearGuard q).brecs = th.brecs := rfl
@[simp] theorem Thread.clearGuard_dist (th : Thread) (q : BitVec 3) : (th.clearGuard q).dist = th.dist := rfl
@[simp] theorem Thread.clearGuard_began (th : Thread) (q : BitVec 3) : (th.clearGuard q).began = th.began := rfl
@[simp] theorem Thread.clearGuard_lastIssue (th : Thread) (q : BitVec 3) : (th.clearGuard q).lastIssue = th.lastIssue := rfl
@[simp] theorem Thread.clearGuard_wait (th : Thread) (q : BitVec 3) : (th.clearGuard q).wait = th.wait := rfl
@[simp] theorem Thread.clearGuard_waitWid (th : Thread) (q : BitVec 3) : (th.clearGuard q).waitWid = th.waitWid := rfl
@[simp] theorem Thread.clearGuard_pendClear (th : Thread) (q : BitVec 3) : (th.clearGuard q).pendClear = th.pendClear := rfl
@[simp] theorem Thread.clearGuard_engEvents (th : Thread) (q : BitVec 3) : (th.clearGuard q).engEvents = th.engEvents := rfl
@[simp] theorem Thread.clearGuard_postEvents (th : Thread) (q : BitVec 3) : (th.clearGuard q).postEvents = th.postEvents := rfl
@[simp] theorem Thread.clearGuard_straggler (th : Thread) (q : BitVec 3) : (th.clearGuard q).straggler = th.straggler := rfl
@[simp] theorem Thread.clearGuard_cancel (th : Thread) (q : BitVec 3) : (th.clearGuard q).cancel = th.cancel := rfl
@[simp] theorem Thread.clearGuard_asked (th : Thread) (q : BitVec 3) : (th.clearGuard q).asked = th.asked := rfl
@[simp] theorem Thread.clearGuard_issueClock (th : Thread) (q : BitVec 3) : (th.clearGuard q).issueClock = th.issueClock := rfl
@[simp] theorem Thread.clearGuard_issueBank (th : Thread) (q : BitVec 3) : (th.clearGuard q).issueBank = th.issueBank := rfl
@[simp] theorem Thread.clearGuard_forceHome (th : Thread) (q : BitVec 3) : (th.clearGuard q).forceHome = th.forceHome := rfl
@[simp] theorem Thread.clearGuard_stopped (th : Thread) (q : BitVec 3) : (th.clearGuard q).stopped = th.stopped := rfl
@[simp] theorem Thread.clearGuard_ilen (th : Thread) (q : BitVec 3) : (th.clearGuard q).ilen = th.ilen := rfl
@[simp] theorem Thread.clearGuard_replay (th : Thread) (q : BitVec 3) : (th.clearGuard q).replay = th.replay := rfl
@[simp] theorem Thread.clearGuard_queued (th : Thread) (q : BitVec 3) : (th.clearGuard q).queued = th.queued := rfl

@[simp] theorem Thread.advance_replay (th : Thread) : th.advance.replay = false := rfl
@[simp] theorem Thread.advance_wait (th : Thread) : th.advance.wait = .none := rfl
@[simp] theorem Thread.advance_issued (th : Thread) : th.advance.issued = th.issued + 1 := rfl
@[simp] theorem Thread.jumpTo_pc (th : Thread) (w : Word) (b : Bool) : (th.jumpTo w b).pc = w := rfl
@[simp] theorem Thread.jumpTo_wait (th : Thread) (w : Word) (b : Bool) : (th.jumpTo w b).wait = .none := rfl
@[simp] theorem Thread.jumpTo_issued (th : Thread) (w : Word) (b : Bool) : (th.jumpTo w b).issued = th.issued + 1 := rfl
@[simp] theorem Thread.noted_ilen (th : Thread) (n : Nat) (rs : List Reg) : (th.noted n rs).ilen = n := rfl
@[simp] theorem Thread.noted_active (th : Thread) (n : Nat) (rs : List Reg) : (th.noted n rs).active = th.active := rfl

/-- Where a completed instruction leaves the thread. -/
theorem Thread.advance_goes (th : Thread) :
    (th.advance.pc, th.advance.loops) = (if th.active then (th.nextWord, th.loops) else loopEnd th.pc th.nextWord th.loops) := by
  by_cases h : th.active = true <;> simp [Thread.advance, h]

end Sys2Proof.Machine
end

