-- ==== Sys2Proof/Machine/Assembly.lean ====
section
/-!
DEFINITION. What the assembler, the linker and the loader make of a program's lines (R354 to R366): the values of expressions, the
instruction that a written form stands for and its length, the layout of the sections, and relocations. Lines are taken as read:
their spelling (R11 to R13, R358) is text and no part of this. No step of the machine uses this file (log entry 50).
-/

namespace Sys2Proof.Assembly

open Sys2Proof

/-! ## Names (R354) -/

abbrev Name := List Char

def numbered (c : Char) (n : Nat) : List Name := (List.range n).map (fun k => c :: (Nat.toDigits 10 k))

/-- Register names, system register names (R307), and the suffix words of scopes and roundings (R53). -/
def reserved : List Name :=
  numbered 'x' 32 ++ numbered 'k' 32 ++ numbered 'e' 16 ++ numbered 'q' 8 ++
  (["self", "loads", "party", "clk", "wall", "chg", "gen", "lts", "rfs", "stag", "stashm", "tctl", "epc", "trapc", "taddr", "tvec", "monst",
    "feaddr", "fedata", "efaddr", "efinfo", "issued", "waited", "fused", "couriers", "fwdnotes", "xsel", "xdata"].map String.toList) ++
  (["slot", "core", "tile", "party", "dev", "convoy", "rne", "rtz", "rdn", "rup", "rna"].map String.toList)

/-- A name that a label or an .equ may define. -/
def nameOk (n : Name) : Bool :=
  n.length ≤ 63 && (match n with | c :: _ => c.isAlpha || c == '_' | [] => false) && n.all (fun c => c.isAlphanum || c == '_') &&
    !reserved.contains (n.map Char.toLower)

/-! ## Expressions (R355, R356) -/

/-- Where a relocatable value is counted from: a section, the delivered range of a region (R362, R365), or a symbol of another object. -/
inductive Base where
  | text | data | const
  | delivered (region : Name)
  | extern (symbol : Name)
  deriving DecidableEq, Repr

inductive Val where
  | abs (v : Word)
  | rel (b : Base) (v : Word)
  deriving DecidableEq, Repr

inductive BinOp where
  | mul | div | rem | add | sub | shl | sar | and | xor | or
  deriving DecidableEq, Repr

inductive Expr where
  | num (v : Word)
  | name (n : Name)
  | here
  | neg (e : Expr)
  | not (e : Expr)
  | bin (o : BinOp) (a b : Expr)
  deriving DecidableEq, Repr

/-- Arithmetic is 64-bit two's complement; a divisor of 0 and a shift count outside 0 to 63 are errors. -/
def BinOp.apply (o : BinOp) (a b : Word) : Option Word :=
  match o with
  | .mul => some (a * b)
  | .div => if b = 0 then none else some (BitVec.ofInt 64 (a.toInt.tdiv b.toInt))
  | .rem => if b = 0 then none else some (BitVec.ofInt 64 (a.toInt.tmod b.toInt))
  | .add => some (a + b)
  | .sub => some (a - b)
  | .shl => if b.toNat < 64 then some (a <<< b.toNat) else none
  | .sar => if b.toNat < 64 then some (a.sshiftRight b.toNat) else none
  | .and => some (a &&& b)
  | .xor => some (a ^^^ b)
  | .or => some (a ||| b)

/-- A relocatable value is a label and an absolute amount more or less; the difference of two labels of one section is absolute;
anything else is invalid. -/
def BinOp.onVals (o : BinOp) (x y : Val) : Option Val :=
  match o, x, y with
  | o, .abs a, .abs b => (o.apply a b).map .abs
  | .add, .rel s a, .abs b => some (.rel s (a + b))
  | .add, .abs a, .rel s b => some (.rel s (a + b))
  | .sub, .rel s a, .abs b => some (.rel s (a - b))
  | .sub, .rel s a, .rel t b => if s = t then some (.abs (a - b)) else none
  | _, _, _ => none

abbrev Env := List (Name × Val)

def Env.find (env : Env) (n : Name) : Option Val := (env.find? (fun p => p.1 == n)).map (·.2)

def onAbs (f : Word → Word) : Val → Option Val
  | .abs v => some (.abs (f v))
  | .rel _ _ => none

/-- The value of an expression; `ext`: a name that the file does not define is a symbol of another object (R366). -/
def Expr.eval (env : Env) (here : Val) (ext : Bool) : Expr → Option Val
  | .num v => some (.abs v)
  | .name n => (env.find n).orElse (fun _ => if ext then some (.rel (.extern n) 0) else none)
  | .here => some here
  | .neg e => (e.eval env here ext).bind (onAbs (fun v => -v))
  | .not e => (e.eval env here ext).bind (onAbs (fun v => ~~~v))
  | .bin o a b => (a.eval env here ext).bind (fun x => (b.eval env here ext).bind (fun y => o.onVals x y))

/-- The value of an operand that has to be absolute, as a number. -/
def Expr.number (env : Env) (here : Val) (e : Expr) : Option Int :=
  (e.eval env here false).bind (fun v => match v with
    | .abs v => some v.toInt
    | .rel _ _ => none)

/-! ## Fields (R357): a value outside the range of its field is an error -/

def signed (n : Nat) (v : Int) : Option (BitVec n) := if -(2 ^ (n - 1)) ≤ v ∧ v < 2 ^ (n - 1) then some (BitVec.ofInt n v) else none
def unsigned (n : Nat) (v : Int) : Option (BitVec n) := if 0 ≤ v ∧ v < 2 ^ n then some (BitVec.ofInt n v) else none

/-- An instruction with a number in its immediate, shift count, displacement or code, none where it has no such operand or the number is
outside its field; a branch's or an ADR's target is no number. TRAP's code is unsigned (DEDUCED, log entry 50). -/
def fieldSet (i : Instr) (n : Int) : Option Instr :=
  match i with
  | .addi d a _ => (signed 10 n).map (.addi d a) | .andi d a _ => (signed 10 n).map (.andi d a)
  | .ori d a _ => (signed 10 n).map (.ori d a) | .xori d a _ => (signed 10 n).map (.xori d a)
  | .addiW d a _ => (signed 10 n).map (.addiW d a) | .slti d a _ => (signed 10 n).map (.slti d a)
  | .sltiu d a _ => (signed 10 n).map (.sltiu d a)
  | .slli d a _ => (unsigned 6 n).map (.slli d a) | .srli d a _ => (unsigned 6 n).map (.srli d a)
  | .srai d a _ => (unsigned 6 n).map (.srai d a) | .rori d a _ => (unsigned 6 n).map (.rori d a)
  | .lui d _ => (signed 19 n).map (.lui d)
  | .jr a _ => (signed 10 n).map (.jr a) | .callr a _ => (signed 10 n).map (.callr a)
  | .rdvInitImm a _ => (unsigned 10 n).map (.rdvInitImm a)
  | .ldB d a _ => (signed 10 n).map (.ldB d a) | .ldBz d a _ => (signed 10 n).map (.ldBz d a)
  | .ldH d a _ => (signed 10 n).map (.ldH d a) | .ldHz d a _ => (signed 10 n).map (.ldHz d a)
  | .ldW d a _ => (signed 10 n).map (.ldW d a) | .ldWz d a _ => (signed 10 n).map (.ldWz d a)
  | .ldD d a _ => (signed 10 n).map (.ldD d a)
  | .stB d a _ => (signed 10 n).map (.stB d a) | .stH d a _ => (signed 10 n).map (.stH d a)
  | .stW d a _ => (signed 10 n).map (.stW d a) | .stD d a _ => (signed 10 n).map (.stD d a)
  | .ldcW d a _ => (signed 10 n).map (.ldcW d a) | .ldcWz d a _ => (signed 10 n).map (.ldcWz d a)
  | .ldcD d a _ => (signed 10 n).map (.ldcD d a)
  | .ldf d a _ => (signed 10 n).map (.ldf d a) | .stf d a _ => (signed 10 n).map (.stf d a)
  | .feclr a _ => (signed 10 n).map (.feclr a) | .feset a _ => (signed 10 n).map (.feset a)
  | .xld e a _ => (signed 10 n).map (.xld e a) | .xst e a _ => (signed 10 n).map (.xst e a)
  | .trap _ => (unsigned 10 n).map .trap
  | _ => none

/-- The same, within the range that the instruction gives its number (R46, R52, R70). -/
def withNumber (i : Instr) (n : Int) : Option Instr := (fieldSet i n).filter (fun i => i.wf)

/-- An instruction with a target, which has its own form below. -/
def hasTarget : Instr → Bool
  | .beq .. | .bne .. | .blt .. | .bge .. | .bltu .. | .bgeu .. | .bq .. | .bnq .. | .j _ | .call _ | .adr .. | .loop .. => true
  | _ => false

/-! ## Instructions as they are written (R359 to R361)

A command's guard is an operand of its constructor of `Instr`, and no other instruction has one (R359). -/

inductive Cond where
  | eq | ne | lt | ge | ltu | geu
  deriving DecidableEq, Repr

/-- A written instruction: one with neither number nor target, one with a number in the place of its field, the additional forms of R360, and
those with a target. -/
inductive Written where
  | word (i : Instr)
  | num (i : Instr) (e : Expr)
  | mov (d a : Reg) | nop | sgt (d a b : Reg) | sgtu (d a b : Reg) | sge (d a b : Reg) | sgeu (d a b : Reg)
  | roli (d a : Reg) (e : Expr) | ret | waitack
  | branch (c : Cond) (a b : Reg) (e : Expr)
  | branchZero (ne : Bool) (a : Reg) (e : Expr)
  | branchGuard (ne : Bool) (q : BitVec 3) (e : Expr)
  | j (e : Expr) | call (e : Expr) | adr (d : Reg) (e : Expr)
  | loop (a : Reg) (e : Expr)
  deriving DecidableEq, Repr

def Written.target : Written → Option Expr
  | .branch _ _ _ e | .branchZero _ _ e | .branchGuard _ _ e | .j e | .call e | .adr _ e | .loop _ e => some e
  | _ => none

def condInstr (c : Cond) (a b : Reg) (o : BitVec 10) : Instr :=
  match c with
  | .eq => .beq a b o | .ne => .bne a b o | .lt => .blt a b o | .ge => .bge a b o | .ltu => .bltu a b o | .geu => .bgeu a b o

/-- The expression of its number. -/
def Written.number : Written → Option Expr
  | .num _ e | .roli _ _ e => some e
  | _ => none

/-- The 32-bit instruction of a written one; `n` is the distance to its target in halfwords, or its number; 0 where it has neither. -/
def Written.long (w : Written) (n : Int) : Option Instr :=
  match w with
  | .word i =>
    if i.wf && !hasTarget i && (withNumber i 1).isNone && (match encode i with | some (.word _) => true | _ => false) then some i else none
  | .num i _ => withNumber i n
  | .mov d a => some (.add d a (.x 0))
  | .nop => some (.addi (.x 0) (.x 0) 0)
  | .sgt d a b => some (.slt d b a)
  | .sgtu d a b => some (.sltu d b a)
  | .sge d a b => some (.sle d b a)
  | .sgeu d a b => some (.sleu d b a)
  | .roli d a _ => (unsigned 6 n).map (fun k => .rori d a (0 - k))
  | .ret => some (.jr (.x 1) 0)
  | .waitack => some (.waitack (.x 0))
  | .branch c a b _ => (signed 10 n).map (condInstr c a b)
  | .branchZero ne a _ => (signed 10 n).map (if ne then .bne a (.x 0) else .beq a (.x 0))
  | .branchGuard ne q _ => (signed 10 n).map (if ne then .bnq q else .bq q)
  | .j _ => (signed 24 n).map .j
  | .call _ => (signed 24 n).map .call
  | .adr d _ => (signed 19 n).map (.adr d)
  | .loop a _ => if 1 ≤ n then (unsigned 10 n).map (.loop a) else none

/-- A register that a 16-bit word can name (R50). -/
def low (r : Reg) : Option (BitVec 4) :=
  match r with
  | .x n => if n.toNat < 16 then some (n.setWidth 4) else none
  | .k _ => none

/-- The 16-bit form with two registers of an instruction whose destination is its first source. -/
def pair (f : BitVec 4 → BitVec 4 → Instr) (d a b : Reg) : Option Instr :=
  if d = a then (low d).bind (fun d => (low b).map (f d)) else none

/-- A displacement from x2 in eights, unsigned (R51). -/
def eights (f : BitVec 4 → BitVec 7 → Instr) (d a : Reg) (off : Int) : Option Instr :=
  if a = .x 2 ∧ off % 8 = 0 then (low d).bind (fun d => (unsigned 7 (off / 8)).map (f d)) else none

def shiftBy (f : BitVec 4 → BitVec 5 → Instr) (d a : Reg) (n : Int) : Option Instr :=
  if d = a ∧ 1 ≤ n ∧ n ≤ 32 then (low d).map (fun d => f d (BitVec.ofInt 5 n)) else none

/-- The 16-bit form of the mnemonic that is written or that it assembles as, its operands in their fields (R51, R360). -/
def Written.half (w : Written) (n : Int) : Option Instr :=
  match w with
  | .word (.add d a b) => pair .add16 d a b
  | .word (.sub d a b) => pair .sub16 d a b
  | .word (.and d a b) => pair .and16 d a b
  | .word (.or d a b) => pair .or16 d a b
  | .word (.xor d a b) => pair .xor16 d a b
  | .word (.slt d a b) => pair .slt16 d a b
  | .word (.sltu d a b) => pair .sltu16 d a b
  | .sgt d a b => pair .slt16 d b a
  | .sgtu d a b => pair .sltu16 d b a
  | .num (.addi d a _) _ => if d = a then (low d).bind (fun d => (signed 7 n).map (.addi16 d)) else none
  | .num (.slli d a _) _ => shiftBy .slli16 d a n
  | .num (.srli d a _) _ => shiftBy .srli16 d a n
  | .num (.srai d a _) _ => shiftBy .srai16 d a n
  | .num (.ldD d a _) _ => eights .ldD16 d a n
  | .num (.stD d a _) _ => eights .stD16 d a n
  | .word .yield => some .yield16
  | .word .prept => some .prept16
  | .mov d a => (low d).bind (fun d => (low a).map (.mov16 d))
  | .nop => some .nop16
  | .ret => some .ret16
  | .branchZero ne a _ => (low a).bind (fun a => (signed 7 n).map (if ne then .bnez16 a else .beqz16 a))
  | .j _ => (signed 11 n).map .j16
  | _ => none

/-- The 16-bit form of a written instruction where one exists and the operands fit (R361). -/
def Written.short (w : Written) (n : Int) : Option Instr := (w.half n).filter (fun i => i.wf)

/-! ## Lines, sections and layout (R362 to R365) -/

inductive Sect where
  | text | data | const | stash
  deriving DecidableEq, Repr

inductive Item where
  | sect (s : Sect)
  | label (n : Name)
  | equ (n : Name) (e : Expr)
  | instr (w : Written)
  | align (n : Nat)
  | word (es : List Expr)
  | dword (es : List Expr)
  | fill (n v : Int)
  | launch (n : Name)
  | region (n : Name) (sf df : Fmt) (scales : Name) (block : Nat)
  | guest (g : Int)
  deriving DecidableEq, Repr

/-- The location of a section's byte: a .stash label takes the value of its offset in the stash. -/
def Sect.at (s : Sect) (off : Nat) : Val :=
  match s with
  | .text => .rel .text (BitVec.ofNat 64 off)
  | .data => .rel .data (BitVec.ofNat 64 off)
  | .const => .rel .const (BitVec.ofNat 64 off)
  | .stash => .abs (BitVec.ofNat 64 (2 ^ 63 + off))

/-- The location counters of the four sections, and the section in hand. -/
structure Counters where
  sect  : Sect
  text  : Nat
  data  : Nat
  const : Nat
  stash : Nat
  deriving DecidableEq, Repr

def Counters.start : Counters := { sect := .text, text := 0, data := 0, const := 0, stash := 0 }

def Counters.off (c : Counters) : Nat :=
  match c.sect with | .text => c.text | .data => c.data | .const => c.const | .stash => c.stash
def Counters.skip (c : Counters) (n : Nat) : Counters :=
  match c.sect with
  | .text => { c with text := c.text + n }
  | .data => { c with data := c.data + n }
  | .const => { c with const := c.const + n }
  | .stash => { c with stash := c.stash + n }

/-- The bytes from an offset to the next multiple of n. -/
def padding (off n : Nat) : Nat := (n - off % n) % n

/-- Whether a line may stand in a section, and its operands are legal (R362 to R365). -/
def Item.allowed (c : Counters) : Item → Bool
  | .sect _ => true
  | .label n => nameOk n
  | .equ n _ => nameOk n
  | .instr _ => c.sect == .text
  | .align n => 1 ≤ n && n ≤ 2 ^ 30 && (List.range 31).any (fun k => n == 2 ^ k)
  | .word es => (c.sect == .data || c.sect == .const) && c.off % 4 == 0 && !es.isEmpty
  | .dword es => (c.sect == .data || c.sect == .const) && c.off % 8 == 0 && !es.isEmpty
  | .fill n v => 0 ≤ n && n ≤ 2 ^ 32 && 0 ≤ v && v ≤ 255 && (c.sect == .data || c.sect == .const || (c.sect == .stash && v == 0))
  | .launch n => c.sect == .data && nameOk n
  | .region n _ _ _ _ => c.sect == .data && nameOk n
  | .guest g => 0 ≤ g && g ≤ 255

/-- How many bytes a line takes, an alignment of its own before it; `short`: it takes its 16-bit form. -/
def Item.size (c : Counters) (short : Bool) : Item → Nat
  | .instr _ => if short then 2 else 4
  | .align n => padding c.off n
  | .word es => 4 * es.length
  | .dword es => 8 * es.length
  | .fill n _ => n.toNat
  | .launch _ => padding c.off 64
  | .region .. => padding c.off 128
  | _ => 0

def Item.next (c : Counters) (short : Bool) (i : Item) : Counters :=
  match i with
  | .sect s => { c with sect := s }
  | _ => c.skip (i.size c short)

/-- Each line with the counters before it. -/
def place (c : Counters) : List (Item × Bool) → List (Counters × Item × Bool)
  | [] => []
  | (i, b) :: rest => (c, i, b) :: place (i.next c b) rest

abbrev Placed := List (Counters × Item × Bool)

/-- The values of labels (R356, R364, R365). -/
def labels (p : Placed) : Env := p.filterMap (fun (c, i, b) => match i with
  | .label n => some (n, c.sect.at c.off)
  | .launch n => some (n, c.sect.at (i.next c b).off)
  | .region n _ _ _ _ => some (n, .rel (.delivered n) 0)
  | _ => none)

/-- One pass over the .equ lines: those that resolve by what is known. Each is evaluated as at its own line, to an absolute value. -/
def equPass (p : Placed) (env : Env) : Env := p.foldl (fun env (c, i, _) => match i with
  | .equ n e => if (env.find n).isSome then env else match e.eval env (c.sect.at c.off) false with
    | some (.abs v) => env ++ [(n, .abs v)]
    | _ => env
  | _ => env) env

/-- Every name's value: a pass for each line is enough for any order of the .equ lines. -/
def names (p : Placed) : Env := (List.range p.length).foldl (fun env _ => equPass p env) (labels p)

/-- The distance in halfwords from an instruction to a target of its own section. -/
def distance (c : Counters) (v : Val) : Option Int :=
  match v with
  | .rel .text a => let d := (a - BitVec.ofNat 64 c.off).toInt; if d % 2 = 0 then some (d / 2) else none
  | _ => none

/-- Whether the 16-bit form of a written instruction fits at its place. -/
def fitsShort (env : Env) (c : Counters) (w : Written) : Bool :=
  match w.target, w.number with
  | some e, _ => ((e.eval env (c.sect.at c.off) false).bind (distance c)).any (fun d => (w.short d).isSome)
  | none, some e => (e.number env (c.sect.at c.off)).any (fun n => (w.short n).isSome)
  | none, none => (w.short 0).isSome

/-- A written instruction that has a 16-bit form for some number or target. -/
def Written.mayBeShort (w : Written) : Bool := (w.short 0).isSome || (w.short 1).isSome

/-- One round of the choice of R361: a short form that misses its target becomes long. -/
def lengthen (l : List (Item × Bool)) : List (Item × Bool) :=
  let p := place .start l
  let env := names p
  p.map (fun (c, i, b) => match i with
    | .instr w => (i, b && fitsShort env c w)
    | _ => (i, b))

/-- The choice of lengths: with the option every instruction that has a 16-bit form starts short, and a round for each line is enough. -/
def choose (c16 : Bool) (items : List Item) : List (Item × Bool) :=
  let first := items.map (fun i => match i with
    | .instr w => (i, c16 && w.mayBeShort)
    | _ => (i, false))
  (List.range (items.length + 1)).foldl (fun l _ => lengthen l) first

/-! ## Objects and relocations (R366) -/

/-- The types of relocation. -/
inductive RelocType where
  | abs64 | pcb10 | pcj24 | pca19 | pcc7 | pcc11
  deriving DecidableEq, Repr

/-- The type of a written instruction whose target the linker fixes; a LOOP's end is never left to it. -/
def Written.reloc (w : Written) (short : Bool) : Option RelocType :=
  match w with
  | .branch .. => some .pcb10
  | .branchZero .. => some (if short then .pcc7 else .pcb10)
  | .branchGuard .. => some .pcb10
  | .j _ => some (if short then .pcc11 else .pcj24)
  | .call _ => some .pcj24
  | .adr .. => some .pca19
  | _ => none

/-- What a line puts at its place: bytes, or a value that the linker computes: 8 bytes of data (ABS64), or a field of a written instruction. -/
inductive Piece where
  | bytes (bs : List Byte)
  | abs64 (target : Val)
  | pcRel (w : Written) (short : Bool) (target : Val)
  deriving DecidableEq, Repr

def Piece.reloc : Piece → Option RelocType
  | .bytes _ => none
  | .abs64 _ => some .abs64
  | .pcRel w short _ => w.reloc short

structure Part where
  sect  : Sect
  off   : Nat
  piece : Piece
  deriving DecidableEq, Repr

/-- A value of n bytes. -/
def dataBytes (n : Nat) (v : Word) : List Byte := (List.range n).map (fun j => v.extractLsb' (8 * j) 8)

/-- The bytes of a written instruction with a distance or a number. -/
def Written.bytes (w : Written) (short : Bool) (n : Int) : Option (List Byte) :=
  ((if short then w.short n else w.long n).bind encode).map Encoded.bytes

/-- The pieces of a line, or none where it is an error. -/
def pieces (env : Env) (c : Counters) (i : Item) (short : Bool) : Option (List Piece) :=
  if !i.allowed c then none
  else
    let here := c.sect.at c.off
    match i with
    | .instr w => match w.target, w.number with
      | some e, _ => match e.eval env here true with
        | none => none
        | some v => match v with
          | .rel .text _ => ((distance c v).bind (w.bytes short)).map (fun bs => [.bytes bs])
          | .rel _ _ => (w.reloc short).map (fun _ => [.pcRel w short v])
          | .abs _ => none
      | none, some e => ((e.number env here).bind (w.bytes short)).map (fun bs => [.bytes bs])
      | none, none => (w.bytes short 0).map (fun bs => [.bytes bs])
    | .align n => some [.bytes (if c.sect == .text then (List.range (padding c.off n)).map (fun j => if j % 2 = 0 then 0 else 0x70)
        else List.replicate (padding c.off n) 0)]
    | .word es => (es.mapM (fun e => match e.eval env here false with
        | some (.abs v) => if -(2 ^ 31) ≤ v.toInt ∧ v.toInt < 2 ^ 32 then some (Piece.bytes (dataBytes 4 v)) else none
        | _ => none))
    | .dword es => (es.mapM (fun e => match e.eval env here true with
        | some (.abs v) => some (Piece.bytes (dataBytes 8 v))
        | some v => some (.abs64 v)
        | none => none))
    | .fill n v => some [.bytes (List.replicate n.toNat (BitVec.ofInt 8 v))]
    | .launch _ => some [.bytes (List.replicate (padding c.off 64) 0)]
    | .region .. => some [.bytes (List.replicate (padding c.off 128) 0)]
    | .equ n _ => if (env.find n).isSome then some [] else none
    | _ => some []

def Piece.len : Piece → Nat
  | .bytes bs => bs.length
  | .abs64 _ => 8
  | .pcRel _ short _ => if short then 2 else 4

/-- The pieces of a line, one after another. -/
def spread (s : Sect) (off : Nat) : List Piece → List Part
  | [] => []
  | x :: rest => { sect := s, off := off, piece := x } :: spread s (off + x.len) rest

/-- No name is defined twice in a file, and the guest and the launch block at most once. -/
def once (items : List Item) : Bool :=
  let ns := items.filterMap (fun i => match i with
    | .label n | .equ n _ | .launch n | .region n _ _ _ _ => some n
    | _ => none)
  decide ns.Nodup && (items.filter (fun i => i matches .guest _)).length ≤ 1 && (items.filter (fun i => i matches .launch _)).length ≤ 1

/-! ### Launch blocks and regions (R364, R365) -/

/-- The lines up to the next alignment, section directive, region or end of file. -/
def inBlock (p : Placed) : Placed := p.takeWhile (fun (_, i, _) => !(i matches .align _ | .sect _ | .region ..))

/-- The bytes from a line of .data to there. -/
def blockBytes (c : Counters) (p : Placed) : Nat :=
  match (inBlock p).getLast? with
  | some (c', i, b) => (i.next c' b).off - c.off
  | none => 0

/-- The launch block (R364): 8 to 4,096 bytes, a multiple of 8. -/
def launchOk (n : Nat) : Bool := 8 ≤ n && n ≤ 4096 && n % 8 == 0

/-- A region as its directive gives it: its stored image and its scale words in .data, and the length of its delivered range. -/
structure RegionDir where
  name   : Name
  stored : Fmt
  deliv  : Fmt
  block  : Nat
  image  : Nat
  length : Nat
  scales : Nat
  deriving DecidableEq, Repr

/-- The delivered range's length in bytes, its elements, and the bytes of the scale words. -/
def RegionDir.delivered (r : RegionDir) : Nat := r.length * Machine.fmtBits r.deliv / Machine.fmtBits r.stored
def RegionDir.elems (r : RegionDir) : Nat := r.delivered * 8 / Machine.fmtBits r.deliv
def RegionDir.scaleBytes (r : RegionDir) : Nat := 2 * ((r.elems + r.block - 1) / r.block)

/-- The regions of a file; one whose scales are no label of its .data has none. -/
def regionDirs (env : Env) : Placed → List (Option RegionDir)
  | [] => []
  | (c, i, b) :: rest =>
    (match i with
      | .region n sf df scales block =>
        let c := i.next c b
        [match env.find scales with
          | some (.rel .data a) => some { name := n, stored := sf, deliv := df, block := block, image := c.off, length := blockBytes c rest, scales := a.toNat }
          | _ => none]
      | _ => []) ++ regionDirs env rest

/-- A region's directive (R365): a pair of R213, a block of R229, a delivered length that is a multiple of 128, and scales at a multiple of 128,
wholly in .data and outside every stored image. -/
def RegionDir.ok (r : RegionDir) (dataLen : Nat) (all : List RegionDir) : Bool :=
  Machine.regionPair r.stored r.deliv && r.block % 32 == 0 && 32 ≤ r.block && r.block ≤ 65504 &&
    (r.length * Machine.fmtBits r.deliv) % Machine.fmtBits r.stored == 0 && r.delivered % 128 == 0 &&
    r.scales % 128 == 0 && r.scales + r.scaleBytes ≤ dataLen && !all.any (fun q => Machine.overlaps q.image q.length r.scales r.scaleBytes)

/-- The launch block has its length, and no label stands in a stored image, which is never addressed. -/
def blocksOk : Placed → Bool
  | [] => true
  | (c, i, b) :: rest =>
    (match i with
      | .launch _ => launchOk (blockBytes (i.next c b) rest)
      | .region .. => (inBlock rest).all (fun (_, i, _) => !(i matches .label _ | .launch _))
      | _ => true) && blocksOk rest

/-- The limits of the sections (R362): .const of at most 1 MiB after rounding, .stash of at most its size, main at the start of .text. -/
def windowBytes (const : Nat) : Nat := (const + 127) / 128 * 128
def sectionsOk (env : Env) (c : Counters) : Bool :=
  windowBytes c.const ≤ 2 ^ 20 && c.stash ≤ 131072 && (match env.find "main".toList with
    | some v => v == Sect.text.at 0
    | none => true)

/-- An object: what its lines put at their places, the values of its labels, the sizes of its sections, its guest, its launch block's place in
.data, and its regions. -/
structure Object where
  parts   : List Part
  symbols : Env
  text    : Nat
  data    : Nat
  const   : Nat
  guest   : Option (BitVec 8)
  launch  : Option Nat
  regions : List RegionDir
  deriving DecidableEq, Repr

/-- The object of a file's lines, or none where bxas reports an error. -/
def assemble (c16 : Bool) (items : List Item) : Option Object :=
  let p := place .start (choose c16 items)
  let env := names p
  let fin := match p.getLast? with
    | some (c, i, b) => i.next c b
    | none => .start
  match (regionDirs env p).mapM id with
  | none => none
  | some rs =>
    if !once items || !sectionsOk env fin || !blocksOk p || !rs.all (fun r => r.ok fin.data rs) then none
    else (p.mapM (fun (c, i, b) => (pieces env c i b).map (spread c.sect c.off))).map (fun (parts : List (List Part)) =>
      { parts := parts.flatten, symbols := labels p, text := fin.text, data := fin.data, const := fin.const
        guest := items.findSome? (fun (i : Item) => match i with | .guest g => some (BitVec.ofInt 8 g) | _ => none)
        launch := p.findSome? (fun ((c, i, b) : Counters × Item × Bool) => match i with | .launch _ => some (i.next c b).off | _ => none)
        regions := rs })

/-! ## The linker and the loader (R362 to R366) -/

/-- Where the loader places an object's sections and its delivered ranges. -/
structure Bases where
  text      : Word
  data      : Word
  const     : Word
  delivered : List (Name × Word)
  deriving DecidableEq, Repr

/-- A base of an object's own. -/
def Bases.of (b : Bases) : Base → Option Word
  | .text => some b.text
  | .data => some b.data
  | .const => some b.const
  | .delivered n => (b.delivered.find? (fun p => p.1 == n)).map (·.2)
  | .extern _ => none

/-- The objects that are linked, with their places. -/
abbrev Linked := List (Object × Bases)

/-- The value of a symbol: a label of one of the objects. -/
def Linked.symbol (os : Linked) (n : Name) : Option Word :=
  os.findSome? (fun (o, b) => (o.symbols.find n).bind (fun v => match v with
    | .abs v => some v
    | .rel s v => (b.of s).map (· + v)))

/-- S + A. -/
def Linked.value (os : Linked) (b : Bases) : Val → Option Word
  | .abs v => some v
  | .rel (.extern n) v => (os.symbol n).map (· + v)
  | .rel s v => (b.of s).map (· + v)

def Bases.sect (b : Bases) : Sect → Word
  | .text => b.text
  | .data => b.data
  | .const => b.const
  | .stash => BitVec.ofNat 64 (2 ^ 63)

/-- The bytes of a part at its address: ABS64 is S + A, the others (S + A − P) / 2 in their field; a result that is odd or out of reach is
rejected. -/
def Part.link (os : Linked) (b : Bases) (x : Part) : Option (Word × List Byte) :=
  let p := b.sect x.sect + BitVec.ofNat 64 x.off
  (match x.piece with
  | .bytes bs => some bs
  | .abs64 v => (os.value b v).map (dataBytes 8)
  | .pcRel w short v => (os.value b v).bind (fun a =>
      let d := (a - p).toInt
      if d % 2 = 0 then w.bytes short (d / 2) else none)).map (fun bs => (p, bs))

/-- What is loaded of an object: of .stash nothing (R362). -/
def Object.loaded (o : Object) : List Part := o.parts.filter (fun x => x.sect != .stash)

/-- The image of some objects: bytes by address. -/
def link (os : Linked) : Option (List (Word × List Byte)) :=
  (List.mapM (fun (ob : Object × Bases) => (ob.1.loaded.mapM (Part.link os ob.2))) os).map List.flatten

/-- The permissions of a section's pages (R362): R, W and X. A constant window is read only (R111). -/
structure Rights where
  r : Bool
  w : Bool
  x : Bool
  deriving DecidableEq, Repr

def Sect.rights : Sect → Rights
  | .text => { r := true, w := false, x := true }
  | .data => { r := true, w := true, x := false }
  | .const => { r := true, w := false, x := false }
  | .stash => { r := false, w := false, x := false }

/-- What the loader maps for an object: each section's place, its length, and its permissions. -/
def Object.maps (o : Object) (b : Bases) : List (Word × Nat × Rights) :=
  [(b.text, o.text, Sect.text.rights), (b.data, o.data, Sect.data.rights), (b.const, windowBytes o.const, Sect.const.rights)].filter (fun m => m.2.1 != 0)

/-- The fields of the queue record that an object gives (R31, R362, R364): the code pointer, PARAM, which reaches x3, and the constant window,
whose base goes to x6, with its length in lines. -/
structure LaunchFields where
  code     : Word
  param    : Word
  const    : Word
  constlen : Nat
  deriving DecidableEq, Repr

def Object.fields (o : Object) (b : Bases) : LaunchFields :=
  { code := b.text
    param := match o.launch with
      | some off => b.data + BitVec.ofNat 64 off
      | none => 0
    const := if o.const = 0 then 0 else b.const, constlen := windowBytes o.const / 128 }

/-- Where a region's three ranges lie in physical memory: all in one stack (R365). -/
structure RegionPlace where
  stored    : Nat
  scales    : Nat
  delivered : Nat
  deriving DecidableEq, Repr

def RegionDir.oneStack (r : RegionDir) (p : RegionPlace) : Bool :=
  let die := p.delivered / 2 ^ 36
  die == (p.delivered + r.delivered - 1) / 2 ^ 36 && die == p.stored / 2 ^ 36 && die == (p.stored + r.length - 1) / 2 ^ 36 &&
    die == p.scales / 2 ^ 36 && die == (p.scales + r.scaleBytes - 1) / 2 ^ 36

/-- What the loader has firmware write to the registers of region k of that stack's die (R228): EN last. -/
def RegionDir.registers (r : RegionDir) (p : RegionPlace) (g : BitVec 8) (k : BitVec 6) : List (ExpertReg × Word) :=
  [(.frdbase k, BitVec.ofNat 64 p.delivered), (.frdlim k, BitVec.ofNat 64 (p.delivered + r.delivered)), (.frsbase k, BitVec.ofNat 64 p.stored),
   (.frscale k, BitVec.ofNat 64 p.scales),
   (.frctl k, BitVec.ofNat 64 (Machine.Region.ctl { dbase := 0, dlim := 0, sbase := 0, scale := 0, en := true, err := false, guest := g
                                                    block := r.block, dfmt := r.deliv.code, sfmt := r.stored.code }))]

/-- What the loader hands over for a guest: the image, what to map, the record's fields of the object that begins, and the region registers. -/
structure Loaded where
  image   : List (Word × List Byte)
  maps    : List (Word × Nat × Rights)
  fields  : LaunchFields
  regions : List (Nat × ExpertReg × Word)
  deriving DecidableEq, Repr

/-- The regions of the objects with their places and the numbers that firmware gives them on their dies; none where one has no place or its ranges
lie in two stacks. -/
def regionWrites (g : BitVec 8) (os : Linked) (places : Name → Option (BitVec 6 × RegionPlace)) : Option (List (Nat × ExpertReg × Word)) :=
  ((os.flatMap (fun (o, _) => o.regions)).mapM (fun r => (places r.name).bind (fun (k, p) =>
    if r.oneStack p then some ((r.registers p g k).map (fun w => (p.delivered / 2 ^ 36, w))) else none))).map List.flatten

/-- The loader refuses objects recorded for another guest (R363). The first object is the one that begins. -/
def load (g : BitVec 8) (os : Linked) (places : Name → Option (BitVec 6 × RegionPlace)) : Option Loaded :=
  if os.any (fun (o, _) => o.guest.any (· != g)) then none
  else match os, link os, regionWrites g os places with
    | (o, b) :: _, some image, some regions => some { image := image, maps := os.flatMap (fun (o, b) => o.maps b), fields := o.fields b, regions := regions }
    | _, _, _ => none

end Sys2Proof.Assembly
end

