-- ==== Sys2Proof/Tests/Slice0.lean ====
section
/-!
SUPPORT. Tests on small states: the checks of WellFormed, words written out from the spec's encodings, one step of some instructions
with results from the spec's own examples, and for every statement of the obligations a state and operands that meet its hypotheses.
-/

namespace Sys2Proof.Tests

open Sys2Proof Sys2Proof.Machine Sys2Proof.Claims

/-! ## Well-formedness -/

/-- Each check lets a term pass and refuses an ill-formed one (R51, R52, R53, R56). -/
theorem test_wf_add : (Instr.add (.x 0) (.x 0) (.x 0)).wf = false ∧ (Instr.add (.x 1) (.x 0) (.x 0)).wf = true := by decide
theorem test_wf_mov : (Instr.mov16 0 0).wf = false ∧ (Instr.mov16 0 1).wf = true := by decide
theorem test_wf_loop : (Instr.loop (.x 8) 0).wf = false ∧ (Instr.loop (.x 8) 1023).wf = true := by decide
theorem test_wf_waiters : (Instr.rdvInitImm 0 0).wf = false ∧ (Instr.rdvInitImm 0 17).wf = false ∧ (Instr.rdvInitImm 0 16).wf = true := by decide
theorem test_wf_lanes : (Instr.padd .l6 (.x 8) (.x 9) (.x 10)).wf = false ∧ (Instr.pcmpgt false .l6 (.x 8) (.x 9) (.x 10)).wf = false ∧
    (Instr.padd .b (.x 8) (.x 9) (.x 10)).wf = true := by decide
theorem test_wf_lanes_unsigned : (Instr.pmin true .l6 (.x 8) (.x 9) (.x 10)).wf = false ∧ (Instr.pmin false .l6 (.x 8) (.x 9) (.x 10)).wf = true := by
  decide
theorem test_wf_cvt : (Instr.cvt .l8 .l8 .rne (.x 8) (.x 9)).wf = false ∧ (Instr.cvt .l8 .f32 .rne (.x 8) (.x 9)).wf = true := by decide
theorem test_wf_mma : (Instr.mma none .s32 false false).wf = false ∧ (Instr.mma none .s16 false false).wf = true := by decide

/-! ## Decoding

A 32-bit word is written a, b, x (or imm10), length, major, d, fn; a 16-bit word length, op, rd, rs, sub (or an immediate). -/

/-- Words of major 0x00 (R52). -/
theorem test_words_arithmetic : ∀ p ∈ [
    (0b100011_001010_0000_1_00000_001001_0000, Instr.add (.x 9) (.k 3) (.x 10)),
    (0b100011_001010_0000_1_00000_001001_0001, .sub (.x 9) (.k 3) (.x 10)),
    (0b100011_001010_0000_1_00000_001001_0010, .and (.x 9) (.k 3) (.x 10)),
    (0b100011_001010_0000_1_00000_001001_0011, .or (.x 9) (.k 3) (.x 10)),
    (0b100011_001010_0000_1_00000_001001_0100, .xor (.x 9) (.k 3) (.x 10)),
    (0b100011_001010_0000_1_00000_001001_0101, .andn (.x 9) (.k 3) (.x 10)),
    (0b100011_001010_0000_1_00000_001001_0110, .orn (.x 9) (.k 3) (.x 10)),
    (0b100011_001010_0000_1_00000_001001_0111, .xnor (.x 9) (.k 3) (.x 10)),
    (0b100011_001010_0000_1_00000_001001_1000, .addW (.x 9) (.k 3) (.x 10)),
    (0b100011_001010_0000_1_00000_001001_1001, .subW (.x 9) (.k 3) (.x 10)),
    (0b100011_001010_0000_1_00000_001001_1010, .adds (.x 9) (.k 3) (.x 10)),
    (0b100011_001010_0000_1_00000_001001_1011, .subs (.x 9) (.k 3) (.x 10)),
    (0b100011_001010_0000_1_00000_001001_1100, .min (.x 9) (.k 3) (.x 10)),
    (0b100011_001010_0000_1_00000_001001_1101, .max (.x 9) (.k 3) (.x 10)),
    (0b100011_001010_0000_1_00000_001001_1110, .minu (.x 9) (.k 3) (.x 10)),
    (0b100011_001010_0000_1_00000_001001_1111, .maxu (.x 9) (.k 3) (.x 10))],
    decodeTableWord 32 p.1 = some p.2 := by decide

/-- Words of major 0x01, imm10 −512 (R52). -/
theorem test_words_immediates : ∀ p ∈ [
    (0b100011_1000000000_1_00001_001001_0000, Instr.addi (.x 9) (.k 3) 0x200),
    (0b100011_1000000000_1_00001_001001_0001, .andi (.x 9) (.k 3) 0x200),
    (0b100011_1000000000_1_00001_001001_0010, .ori (.x 9) (.k 3) 0x200),
    (0b100011_1000000000_1_00001_001001_0011, .xori (.x 9) (.k 3) 0x200),
    (0b100011_1000000000_1_00001_001001_0100, .addiW (.x 9) (.k 3) 0x200),
    (0b100011_1000000000_1_00001_001001_0101, .slti (.x 9) (.k 3) 0x200),
    (0b100011_1000000000_1_00001_001001_0110, .sltiu (.x 9) (.k 3) 0x200)],
    decodeTableWord 32 p.1 = some p.2 := by decide

/-- Words of major 0x02 (R52). -/
theorem test_words_shifts : ∀ p ∈ [
    (0b100011_001010_0000_1_00010_001001_0000, Instr.sll (.x 9) (.k 3) (.x 10)),
    (0b100011_001010_0000_1_00010_001001_0001, .srl (.x 9) (.k 3) (.x 10)),
    (0b100011_001010_0000_1_00010_001001_0010, .sra (.x 9) (.k 3) (.x 10)),
    (0b100011_001010_0000_1_00010_001001_0011, .rol (.x 9) (.k 3) (.x 10)),
    (0b100011_001010_0000_1_00010_001001_0100, .ror (.x 9) (.k 3) (.x 10)),
    (0b100011_001010_0000_1_00010_001001_0101, .sllW (.x 9) (.k 3) (.x 10)),
    (0b100011_001010_0000_1_00010_001001_0110, .srlW (.x 9) (.k 3) (.x 10)),
    (0b100011_001010_0000_1_00010_001001_0111, .sraW (.x 9) (.k 3) (.x 10)),
    (0b100011_0000111111_1_00010_001001_1000, .slli (.x 9) (.k 3) 63),
    (0b100011_0000111111_1_00010_001001_1001, .srli (.x 9) (.k 3) 63),
    (0b100011_0000111111_1_00010_001001_1010, .srai (.x 9) (.k 3) 63),
    (0b100011_0000111111_1_00010_001001_1011, .rori (.x 9) (.k 3) 63),
    (0b100011_001010_0000_1_00010_001001_1100, .bext (.x 9) (.k 3) (.x 10)),
    (0b100011_001010_0000_1_00010_001001_1101, .bexts (.x 9) (.k 3) (.x 10)),
    (0b100011_001010_0000_1_00010_001001_1110, .bins (.x 9) (.k 3) (.x 10)),
    (0b100011_000000_0000_1_00010_001001_1111, .clz (.x 9) (.k 3)),
    (0b100011_000000_0001_1_00010_001001_1111, .ctz (.x 9) (.k 3)),
    (0b100011_000000_0010_1_00010_001001_1111, .popc (.x 9) (.k 3)),
    (0b100011_000000_0011_1_00010_001001_1111, .rev8 (.x 9) (.k 3))],
    decodeTableWord 32 p.1 = some p.2 := by decide

/-- Words of major 0x03 (R52). -/
theorem test_words_comparisons : ∀ p ∈ [
    (0b100011_001010_0000_1_00011_001001_0000, Instr.slt (.x 9) (.k 3) (.x 10)),
    (0b100011_001010_0000_1_00011_001001_0001, .sltu (.x 9) (.k 3) (.x 10)),
    (0b100011_001010_0000_1_00011_001001_0010, .seq (.x 9) (.k 3) (.x 10)),
    (0b100011_001010_0000_1_00011_001001_0011, .sne (.x 9) (.k 3) (.x 10)),
    (0b100011_001010_0000_1_00011_001001_0100, .sle (.x 9) (.k 3) (.x 10)),
    (0b100011_001010_0000_1_00011_001001_0101, .sleu (.x 9) (.k 3) (.x 10)),
    (0b100011_001010_0111_1_00011_001001_0110, .sel (.x 9) (.k 3) (.x 10) 7)],
    decodeTableWord 32 p.1 = some p.2 := by decide

/-- Words of major 0x04 (R52). -/
theorem test_words_products : ∀ p ∈ [
    (0b100011_001010_0000_1_00100_001001_0000, Instr.mul (.x 9) (.k 3) (.x 10)),
    (0b100011_001010_0000_1_00100_001001_0001, .mulh (.x 9) (.k 3) (.x 10)),
    (0b100011_001010_0000_1_00100_001001_0010, .mulhu (.x 9) (.k 3) (.x 10)),
    (0b100011_001010_0000_1_00100_001001_0011, .mulhsu (.x 9) (.k 3) (.x 10)),
    (0b100011_001010_0000_1_00100_001001_0100, .mulW (.x 9) (.k 3) (.x 10)),
    (0b100011_001010_0000_1_00100_001001_0101, .div (.x 9) (.k 3) (.x 10)),
    (0b100011_001010_0000_1_00100_001001_0110, .divu (.x 9) (.k 3) (.x 10)),
    (0b100011_001010_0000_1_00100_001001_0111, .rem (.x 9) (.k 3) (.x 10)),
    (0b100011_001010_0000_1_00100_001001_1000, .remu (.x 9) (.k 3) (.x 10)),
    (0b100011_001010_0000_1_00100_001001_1001, .divW (.x 9) (.k 3) (.x 10)),
    (0b100011_001010_0000_1_00100_001001_1010, .remW (.x 9) (.k 3) (.x 10))],
    decodeTableWord 32 p.1 = some p.2 := by decide

/-- Words of major 0x05 (R54). -/
theorem test_words_upper : ∀ p ∈ [
    (0b1001010101010101_1_00101_001001_0_101, Instr.lui (.x 9) 0x4aaad),
    (0b1001010101010101_1_00101_001001_1_101, .adr (.x 9) 0x4aaad)],
    decodeTableWord 32 p.1 = some p.2 := by decide

/-- Words of major 0x06, offset −8 (R45, R52). -/
theorem test_words_branches : ∀ p ∈ [
    (0b001010_1111111000_1_00110_100011_0000, Instr.beq (.k 3) (.x 10) 0x3f8),
    (0b001010_1111111000_1_00110_100011_0001, .bne (.k 3) (.x 10) 0x3f8),
    (0b001010_1111111000_1_00110_100011_0010, .blt (.k 3) (.x 10) 0x3f8),
    (0b001010_1111111000_1_00110_100011_0011, .bge (.k 3) (.x 10) 0x3f8),
    (0b001010_1111111000_1_00110_100011_0100, .bltu (.k 3) (.x 10) 0x3f8),
    (0b001010_1111111000_1_00110_100011_0101, .bgeu (.k 3) (.x 10) 0x3f8),
    (0b000000_1111111000_1_00110_000_101_0110, .bq 5 0x3f8),
    (0b000000_1111111000_1_00110_000_101_0111, .bnq 5 0x3f8)],
    decodeTableWord 32 p.1 = some p.2 := by decide

/-- Words of major 0x07 (R55). -/
theorem test_words_jumps : ∀ p ∈ [
    (0b1010101111001101_1_00111_00_11100101, Instr.j 0xabcde5),
    (0b1010101111001101_1_00111_01_11100101, .call 0xabcde5),
    (0b100011_1111111100_1_00111_10_0000_0000, .jr (.k 3) 0x3fc),
    (0b100011_1111111100_1_00111_10_0001_0000, .callr (.k 3) 0x3fc)],
    decodeTableWord 32 p.1 = some p.2 := by decide

/-- Words of major 0x08 (R52). -/
theorem test_words_loops : ∀ p ∈ [
    (0b100011_1111111111_1_01000_000000_0000, Instr.loop (.k 3) 1023),
    (0b000000_000000_0000_1_01000_000000_0001, .rfpush),
    (0b000000_000000_0000_1_01000_000000_0010, .rfpop)],
    decodeTableWord 32 p.1 = some p.2 := by decide

/-- Words of major 0x09 (R52). -/
theorem test_words_threads : ∀ p ∈ [
    (0b100011_001010_0000_1_01001_000000_0000, Instr.spawn (.k 3) (.x 10)),
    (0b100011_000000_0000_1_01001_001001_0001, .reap (.x 9) (.k 3)),
    (0b100011_000000_0000_1_01001_000101_0010, .rdv 3 5),
    (0b100011_001010_0000_1_01001_000000_0011, .rdvInitReg 3 (.x 10)),
    (0b100011_0000010000_1_01001_000000_0100, .rdvInitImm 3 16),
    (0b000000_000000_0000_1_01001_000000_0101, .yield),
    (0b000000_000000_0000_1_01001_000000_0110, .prept),
    (0b000000_000000_0000_1_01001_000000_0111, .pin),
    (0b000000_000000_0000_1_01001_000000_1000, .unpin),
    (0b000000_000000_0000_1_01001_001001_1001, .rself .all (.x 9)),
    (0b000000_000000_0001_1_01001_001001_1001, .rself .slot (.x 9)),
    (0b000000_000000_0010_1_01001_001001_1001, .rself .core (.x 9)),
    (0b000000_000000_0011_1_01001_001001_1001, .rself .tile (.x 9)),
    (0b000000_000000_0100_1_01001_001001_1001, .rself .lodge (.x 9))],
    decodeTableWord 32 p.1 = some p.2 := by decide

/-- Words of majors 0x0A to 0x0C, imm10 −16 (R52). -/
theorem test_words_loads : ∀ p ∈ [
    (0b100011_1111110000_1_01010_001001_0000, Instr.ldB (.x 9) (.k 3) 0x3f0),
    (0b100011_1111110000_1_01010_001001_0001, .ldBz (.x 9) (.k 3) 0x3f0),
    (0b100011_1111110000_1_01010_001001_0010, .ldH (.x 9) (.k 3) 0x3f0),
    (0b100011_1111110000_1_01010_001001_0011, .ldHz (.x 9) (.k 3) 0x3f0),
    (0b100011_1111110000_1_01010_001001_0100, .ldW (.x 9) (.k 3) 0x3f0),
    (0b100011_1111110000_1_01010_001001_0101, .ldWz (.x 9) (.k 3) 0x3f0),
    (0b100011_1111110000_1_01010_001001_0110, .ldD (.x 9) (.k 3) 0x3f0),
    (0b100011_1111110000_1_01011_001001_0000, .stB (.x 9) (.k 3) 0x3f0),
    (0b100011_1111110000_1_01011_001001_0001, .stH (.x 9) (.k 3) 0x3f0),
    (0b100011_1111110000_1_01011_001001_0010, .stW (.x 9) (.k 3) 0x3f0),
    (0b100011_1111110000_1_01011_001001_0011, .stD (.x 9) (.k 3) 0x3f0),
    (0b100011_001010_0000_1_01100_001001_0000, .ldxB (.x 9) (.k 3) (.x 10)),
    (0b100011_001010_0000_1_01100_001001_0001, .ldxBz (.x 9) (.k 3) (.x 10)),
    (0b100011_001010_0000_1_01100_001001_0010, .ldxH (.x 9) (.k 3) (.x 10)),
    (0b100011_001010_0000_1_01100_001001_0011, .ldxHz (.x 9) (.k 3) (.x 10)),
    (0b100011_001010_0000_1_01100_001001_0100, .ldxW (.x 9) (.k 3) (.x 10)),
    (0b100011_001010_0000_1_01100_001001_0101, .ldxWz (.x 9) (.k 3) (.x 10)),
    (0b100011_001010_0000_1_01100_001001_0110, .ldxD (.x 9) (.k 3) (.x 10)),
    (0b100011_001010_0000_1_01100_001001_1000, .stxB (.x 9) (.k 3) (.x 10)),
    (0b100011_001010_0000_1_01100_001001_1001, .stxH (.x 9) (.k 3) (.x 10)),
    (0b100011_001010_0000_1_01100_001001_1010, .stxW (.x 9) (.k 3) (.x 10)),
    (0b100011_001010_0000_1_01100_001001_1011, .stxD (.x 9) (.k 3) (.x 10)),
    (0b100011_1111110000_1_01100_001001_1100, .ldcW (.x 9) (.k 3) 0x3f0),
    (0b100011_1111110000_1_01100_001001_1101, .ldcWz (.x 9) (.k 3) 0x3f0),
    (0b100011_1111110000_1_01100_001001_1110, .ldcD (.x 9) (.k 3) 0x3f0)],
    decodeTableWord 32 p.1 = some p.2 := by decide

/-- Words of majors 0x0D to 0x0F (R52). -/
theorem test_words_stash_and_atomics : ∀ p ∈ [
    (0b100011_001010_0000_1_01101_001001_0000, Instr.smap (.x 9) (.k 3) (.x 10)),
    (0b100011_000000_0000_1_01101_000000_0001, .sunmap (.k 3)),
    (0b100011_001010_0000_1_01101_001001_0010, .slock (.x 9) (.k 3) (.x 10)),
    (0b100011_001010_0000_1_01101_000000_0011, .sunlock (.k 3) (.x 10)),
    (0b100011_001010_0000_1_01101_000000_0100, .swb (.k 3) (.x 10)),
    (0b100011_001010_0000_1_01110_001001_0000, .amoAdd .w (.x 9) (.k 3) (.x 10)),
    (0b100011_001010_0001_1_01110_001001_0001, .amoAnd .d (.x 9) (.k 3) (.x 10)),
    (0b100011_001010_0000_1_01110_001001_0010, .amoOr .w (.x 9) (.k 3) (.x 10)),
    (0b100011_001010_0001_1_01110_001001_0011, .amoXor .d (.x 9) (.k 3) (.x 10)),
    (0b100011_001010_0000_1_01110_001001_0100, .amoMin .w (.x 9) (.k 3) (.x 10)),
    (0b100011_001010_0001_1_01110_001001_0101, .amoMax .d (.x 9) (.k 3) (.x 10)),
    (0b100011_001010_0000_1_01110_001001_0110, .amoMinu .w (.x 9) (.k 3) (.x 10)),
    (0b100011_001010_0001_1_01110_001001_0111, .amoMaxu .d (.x 9) (.k 3) (.x 10)),
    (0b100011_001010_0000_1_01110_001001_1000, .amoSwap .w (.x 9) (.k 3) (.x 10)),
    (0b100011_001010_0001_1_01110_001001_1001, .amoCas .d (.x 9) (.k 3) (.x 10)),
    (0b100011_001010_0000_1_01110_001001_1010, .amoFadd (.x 9) (.k 3) (.x 10)),
    (0b100011_001010_0000_1_01111_001001_0000, .gredAdd .w (.x 9) (.k 3) (.x 10)),
    (0b100011_001010_0001_1_01111_001001_0001, .gredMin .d (.x 9) (.k 3) (.x 10)),
    (0b100011_001010_0000_1_01111_001001_0010, .gredMax .w (.x 9) (.k 3) (.x 10)),
    (0b100011_001010_0001_1_01111_001001_0011, .gredMinu .d (.x 9) (.k 3) (.x 10)),
    (0b100011_001010_0000_1_01111_001001_0100, .gredMaxu .w (.x 9) (.k 3) (.x 10)),
    (0b100011_001010_0000_1_01111_001001_0101, .gredFadd (.x 9) (.k 3) (.x 10))],
    decodeTableWord 32 p.1 = some p.2 := by decide

/-- Words of majors 0x10 to 0x12 (R52, R53). -/
theorem test_words_ordering : ∀ p ∈ [
    (0b000000_000000_0000_1_10000_000000_0000, Instr.fence .slot),
    (0b000000_000000_0101_1_10000_000000_0000, .fence .convoy),
    (0b100011_000000_0001_1_10000_000000_0001, .acq .core (.k 3)),
    (0b100011_000000_0010_1_10000_000000_0001, .acq .tile (.k 3)),
    (0b100011_000000_0011_1_10000_000000_0010, .rel .party (.k 3)),
    (0b100011_000000_0100_1_10000_000000_0010, .rel .dev (.k 3)),
    (0b100011_001010_0000_1_10000_001001_0011, .bind (.k 3) (.x 10) (.x 9)),
    (0b100011_001010_0000_1_10000_000000_0100, .unbind (.k 3) (.x 10)),
    (0b100011_000000_0000_1_10000_000000_0101, .waitack (.k 3)),
    (0b100011_0000001000_1_10001_001001_0000, .ldf (.x 9) (.k 3) 8),
    (0b100011_0000001000_1_10001_001001_0001, .stf (.x 9) (.k 3) 8),
    (0b100011_000000_0110_1_10001_001001_0010, .ldfn (.x 9) (.k 3) 6),
    (0b100011_001010_0110_1_10001_000000_0011, .stfn (.k 3) (.x 10) 6),
    (0b100011_0000001000_1_10001_000000_0100, .feclr (.k 3) 8),
    (0b100011_0000001000_1_10001_000000_0101, .feset (.k 3) 8),
    (0b100011_000000_0010_1_10010_000000_0000, .mon (.k 3) 2),
    (0b000000_000000_0101_1_10010_000000_0001, .monclr true 1),
    (0b100011_000000_0000_1_10010_000000_0010, .mwait (.k 3)),
    (0b100011_000000_0000_1_10010_000000_0011, .sleep (.k 3))],
    decodeTableWord 32 p.1 = some p.2 := by decide

/-- Words of majors 0x13 to 0x15 (R49, R52). -/
theorem test_words_barriers_and_guards : ∀ p ∈ [
    (0b100011_001010_0000_1_10011_000000_0000, Instr.binit (.k 3) (.x 10)),
    (0b100011_001010_0000_1_10011_000000_0001, .bexpect (.k 3) (.x 10)),
    (0b100011_001010_0000_1_10011_000000_0010, .barrive (.k 3) (.x 10)),
    (0b100011_000000_0001_1_10011_000000_0011, .bwait true (.k 3)),
    (0b100011_000000_0000_1_10011_001001_0100, .btest (.x 9) (.k 3)),
    (0b100011_000000_0000_1_10100_001100_0000, .xset 12 (.k 3)),
    (0b000000_000000_1100_1_10100_001001_0001, .xmov (.x 9) 12),
    (0b100011_0000001000_1_10100_001100_0010, .xld 12 (.k 3) 8),
    (0b100011_0000001000_1_10100_001100_0011, .xst 12 (.k 3) 8),
    (0b100011_000000_0000_1_10101_000110_0000, .qset 6 (.k 3)),
    (0b000000_000000_0000_1_10101_000110_0001, .qclr 6),
    (0b000000_000000_0110_1_10101_001001_0010, .qtest (.x 9) 6)],
    decodeTableWord 32 p.1 = some p.2 := by decide

/-- Words of majors 0x16 to 0x19; x[3] is H16, x[2:0] the rounding code (R52, R53). -/
theorem test_words_floats : ∀ p ∈ [
    (0b100011_001010_0001_1_10110_001001_0000, Instr.fadd .f32 .rtz (.x 9) (.k 3) (.x 10)),
    (0b100011_001010_1010_1_10110_001001_0001, .fsub .h16 .rdn (.x 9) (.k 3) (.x 10)),
    (0b100011_001010_0011_1_10110_001001_0010, .fmul .f32 .rup (.x 9) (.k 3) (.x 10)),
    (0b100011_001010_1100_1_10110_001001_0011, .fdiv .h16 .rna (.x 9) (.k 3) (.x 10)),
    (0b100011_000000_1000_1_10110_001001_0100, .fsqrt .h16 .rne (.x 9) (.k 3)),
    (0b100011_001010_1000_1_10110_001001_0101, .fmin .h16 (.x 9) (.k 3) (.x 10)),
    (0b100011_001010_1000_1_10110_001001_0110, .fmax .h16 (.x 9) (.k 3) (.x 10)),
    (0b100011_001010_1000_1_10110_001001_0111, .feq .h16 (.x 9) (.k 3) (.x 10)),
    (0b100011_001010_1000_1_10110_001001_1000, .flt .h16 (.x 9) (.k 3) (.x 10)),
    (0b100011_001010_1000_1_10110_001001_1001, .fle .h16 (.x 9) (.k 3) (.x 10)),
    (0b100011_000000_0000_1_10110_001001_1010, .fclass .f32 (.x 9) (.k 3)),
    (0b100011_001010_0001_1_10111_001001_0000, .fmadd .f32 .rtz (.x 9) (.k 3) (.x 10)),
    (0b100011_001010_0001_1_10111_001001_0001, .fmsub .f32 .rtz (.x 9) (.k 3) (.x 10)),
    (0b100011_001010_0001_1_10111_001001_0010, .fnmadd .f32 .rtz (.x 9) (.k 3) (.x 10)),
    (0b100011_001010_0001_1_10111_001001_0011, .fnmsub .f32 .rtz (.x 9) (.k 3) (.x 10)),
    (0b100011_001010_0001_1_11000_001001_0000, .padd .h (.x 9) (.k 3) (.x 10)),
    (0b100011_001010_0001_1_11000_001001_0001, .psub .h (.x 9) (.k 3) (.x 10)),
    (0b100011_001010_0110_1_11000_001001_0010, .padds true .w (.x 9) (.k 3) (.x 10)),
    (0b100011_001010_0110_1_11000_001001_0011, .psubs true .w (.x 9) (.k 3) (.x 10)),
    (0b100011_001010_0110_1_11000_001001_0100, .pmin true .w (.x 9) (.k 3) (.x 10)),
    (0b100011_001010_0110_1_11000_001001_0101, .pmax true .w (.x 9) (.k 3) (.x 10)),
    (0b100011_001010_0011_1_11000_001001_0110, .pmul .l6 (.x 9) (.k 3) (.x 10)),
    (0b100011_001010_0011_1_11000_001001_0111, .pcmpeq .l6 (.x 9) (.k 3) (.x 10)),
    (0b100011_001010_0100_1_11000_001001_1000, .pcmpgt true .b (.x 9) (.k 3) (.x 10)),
    (0b100011_001101_0100_1_11001_001001_0010, .cvt .l8 .s64 .rna (.x 9) (.k 3))],
    decodeTableWord 32 p.1 = some p.2 := by decide

/-- Words of majors 0x1A and 0x1B, guards none and q5 (R49, R52). -/
theorem test_words_engines : ∀ p ∈ [
    (0b100011_001010_0001_1_11010_001101_0000, Instr.mstagea (some 5) true (.k 3) (.x 10)),
    (0b100011_001010_0000_1_11010_000000_0001, .mstageb none false (.k 3) (.x 10)),
    (0b000000_000001_1011_1_11010_001101_0010, .mma (some 5) .s16 true false),
    (0b000000_000010_0000_1_11010_000000_0010, .mma none .l4 false true),
    (0b100011_000000_0001_1_11010_001101_0011, .mflush (some 5) true (.k 3)),
    (0b100011_001010_0000_1_11010_000000_0100, .mflushSum none false (.k 3) (.x 10)),
    (0b000000_000000_0001_1_11010_001101_0101, .mclr (some 5) true),
    (0b100011_001010_0000_1_11010_001101_0110, .accdecl (some 5) (.k 3) (.x 10)),
    (0b000000_000000_0000_1_11011_001101_0000, .cpy (some 5)),
    (0b100011_000000_0000_1_11011_000000_0001, .cpyFill none (.k 3)),
    (0b000000_000000_0000_1_11011_100011_0010, .cpfree (.k 3))],
    decodeTableWord 32 p.1 = some p.2 := by decide

/-- Words of majors 0x1C and 0x1D; TVEC is register 0x013 (R52, R315). -/
theorem test_words_system : ∀ p ∈ [
    (0b000000_0000010011_1_11100_001001_0000, Instr.mfs (.x 9) .tvec),
    (0b100011_0000010011_1_11100_000000_0001, .mts .tvec (.k 3)),
    (0b000000_1111111111_1_11100_000000_0010, .trap 1023),
    (0b000000_000000_0000_1_11100_000000_0011, .eret),
    (0b000000_000000_0000_1_11100_000000_0100, .halt),
    (0b000000_000000_0000_1_11100_000000_0111, .tlbinvall),
    (0b100011_000000_0000_1_11100_000000_0101, .genbump (.k 3)),
    (0b100011_001010_0000_1_11100_000000_0110, .tlbinv (.k 3) (.x 10)),
    (0b100011_000000_0000_1_11100_000000_1000, .cwb (.k 3)),
    (0b100011_000000_0000_1_11100_000000_1001, .cinv (.k 3)),
    (0b000000_000000_0000_1_11101_001001_0000, .cvstat (.x 9)),
    (0b100011_000000_0000_1_11101_000000_0001, .waitwall (.k 3)),
    (0b100011_000000_0000_1_11101_000000_0010, .cvarm (.k 3)),
    (0b100011_000000_0000_1_11101_000000_0011, .cvdisarm (.k 3))],
    decodeTableWord 32 p.1 = some p.2 := by decide

/-- Words of 16-bit words (R50, R51). -/
theorem test_words_short : ∀ p ∈ [
    (0b0_0000_1001_1010_000, Instr.mov16 9 10),
    (0b0_0001_1001_1010_000, .add16 9 10),
    (0b0_0011_1001_1010_000, .sub16 9 10),
    (0b0_0100_1001_1010_000, .and16 9 10),
    (0b0_0101_1001_1010_000, .or16 9 10),
    (0b0_0110_1001_1010_000, .xor16 9 10),
    (0b0_0010_1001_1000000, .addi16 9 0x40),
    (0b0_0111_1001_00_11111, .slli16 9 31),
    (0b0_0111_1001_01_11111, .srli16 9 31),
    (0b0_0111_1001_10_11111, .srai16 9 31),
    (0b0_1000_1001_1111111, .ldD16 9 127),
    (0b0_1001_1001_1111111, .stD16 9 127),
    (0b0_1010_1001_1000000, .beqz16 9 0x40),
    (0b0_1011_1001_1000000, .bnez16 9 0x40),
    (0b0_1100_10101010101, .j16 0x555),
    (0b0_1101_1001_1010_000, .slt16 9 10),
    (0b0_1101_1001_1010_001, .sltu16 9 10),
    (0b0_1110_0000_0000_000, .nop16),
    (0b0_1110_0000_0000_001, .yield16),
    (0b0_1110_0000_0000_010, .prept16),
    (0b0_1110_0000_0000_011, .ret16)],
    decodeTableWord 16 p.1 = some p.2 := by decide

/-- The words that the spec writes out beside their assembly (R45, R51, R55, R81, R136, R242, R245, R254, R259). -/
theorem test_words_of_the_spec : ∀ p ∈ [
    (0x00288480, Instr.addi (.x 8) (.x 0) 40), (0x03F898B0, .beq (.x 11) (.x 0) 0x3F8), (0x2804A000, .loop (.x 10) 4),
    (0x24A0A400, .spawn (.x 9) (.x 10)), (0x24A1B880, .amoAdd .d (.x 8) (.x 9) (.x 10)), (0x3000D020, .xset 2 (.x 12)),
    (0x000ED081, .xmov (.x 8) 14), (0x0C00D002, .xld 0 (.x 3) 0), (0x0000EC00, .cpy none), (0x0000EC90, .cpy (some 1)),
    (0x2400EC01, .cpyFill none (.x 9)), (0x0000EC82, .cpfree (.x 8)), (0x34E0CC00, .binit (.x 13) (.x 14)),
    (0x3400CC02, .barrive (.x 13) (.x 0)), (0x3401CC03, .bwait true (.x 13)), (0x3400CC84, .btest (.x 8) (.x 13)),
    (0x24A4E082, .padds true .b (.x 8) (.x 9) (.x 10)), (0x24A3E086, .pmul .l6 (.x 8) (.x 9) (.x 10)), (0x2813F001, .mts .tvec (.x 10))],
    decodeTableWord 32 p.1 = some p.2 := by decide

/-- The halfwords that the spec writes out (R51, R95). -/
theorem test_halfwords_of_the_spec : ∀ p ∈ [(0x147F, Instr.addi16 8 0x7F), (0x7003, .ret16), (0x7000, .nop16)],
    decodeTableWord 16 p.1 = some p.2 := by decide

/-- The worked word of spec/04 reads b = 40 as k8, as R14's numbers have it (log entry 30). -/
theorem test_word_of_k8 : decodeTableWord 32 0x22808090 = some (.add (.x 9) (.x 8) (.k 8)) := by decide

/-- What R52, R53 and R56 call illegal does not decode: `add x0, x0, x0`, an unused field, an unassigned function, majors 0x1E and
0x1F, scope code 6, rounding code 5, equal CVT codes, MMA of S32, a guard number without G, `amo.fadd.d`. -/
theorem test_illegal_words : ∀ w ∈ [
    0b000000_000000_0000_1_00000_000000_0000, 0b000001_000010_0001_1_00000_000011_0000, 0b000001_0000000000_1_00001_000011_0111,
    0b000000_000000_0000_1_11110_000000_0000, 0b000000_000000_0000_1_11111_000000_0000, 0b000000_000000_0110_1_10000_000000_0000,
    0b001001_001010_0101_1_10110_001000_0000, 0b001001_000010_0000_1_11001_001000_0010, 0b000000_000000_1100_1_11010_000000_0010,
    0b000000_000000_0000_1_11011_000001_0000, 0b001001_001010_0001_1_01110_001000_1010], decodeTableWord 32 w = none := by decide

/-- The same for R51: `mov x0, x0`, a sub value, SLLI's code 3, a NOP with a register, sub 4 of op 14, and op 15. -/
theorem test_illegal_halfwords : ∀ h ∈ [
    0b0_0000_0000_0000_000, 0b0_0000_1001_1010_001, 0b0_0111_1001_11_00001, 0b0_1110_0001_0000_000, 0b0_1110_0000_0000_100,
    0b0_1111_0000_0000_000], decodeTableWord 16 h = none := by decide

/-! ## Written forms and objects -/

/-- The values of R355. -/
theorem test_asm_expressions :
    (Assembly.Expr.bin .or (.bin .shl (.num 1) (.num 11)) (.bin .sub (.num 0x10) (.num 8))).eval [] (.abs 0) false = some (.abs 0x808) ∧
    (Assembly.Expr.bin .div (.neg (.num 7)) (.num 2)).eval [] (.abs 0) false = some (.abs (-3)) := by decide

/-- R360's nop, and R95's short addi; a shift count of 32 takes the field 0; R70's `addi` by 576 is an error; SGT takes the short SLT. -/
theorem test_asm_forms :
    ((Assembly.Written.nop.long 0).bind encode = some (.word 0x8400)) ∧ ((Assembly.Written.nop.short 0).bind encode = some (.half 0x7000)) ∧
    (((Assembly.Written.num (.addi (.x 8) (.x 8) 0) (.num (-1))).short (-1)).bind encode = some (.half 0x147F)) ∧
    ((Assembly.Written.num (.slli (.x 8) (.x 8) 0) (.num 32)).short 32 = some (.slli16 8 0)) ∧ (Assembly.Written.mov (.x 0) (.x 0)).short 0 = none ∧
    (Assembly.Written.num (.addi (.x 8) (.x 8) 0) (.num 576)).long 576 = none ∧
    (Assembly.Written.sgt (.x 8) (.x 9) (.x 8)).short 0 = some (.slt16 8 9) := by decide

/-- The object of R366, linked where its table has it and where the ADR does not reach. -/
def object : List Assembly.Item :=
  [.label "main".toList, .instr (.adr (.x 10) (.name "tab".toList)), .instr (.num (.ldD (.x 8) (.x 10) 0) (.num 8)), .instr (.word .halt), .sect .const,
   .label "tab".toList, .dword [.name "main".toList, .bin .add (.name "tab".toList) (.num 8)]]
def linked (const : Word) : Option (List (Word × List Byte)) :=
  (Assembly.assemble false object).bind (fun o => Assembly.link [(o, { text := 0x100000, data := 0, const := const, delivered := [] })])
theorem test_asm_link :
    (linked 0x110000).map (fun l => l.filter (fun p => p.1 != 0x100004 && p.1 != 0x100008)) =
      some [(0x100000, [0xA8, 0x94, 0x00, 0x10]), (0x110000, [0, 0, 0x10, 0, 0, 0, 0, 0]), (0x110008, [8, 0, 0x11, 0, 0, 0, 0, 0])] ∧
    linked 0x200000 = none := by decide

/-- A branch that its short form misses becomes long, and no other. -/
theorem test_asm_lengths :
    let near : Assembly.Item := .instr (.branchZero false (.x 8) (.name ['a']))
    let far : Assembly.Item := .instr (.branchZero false (.x 8) (.name ['b']))
    Assembly.choose true [.label ['a'], .instr .nop, near, far, .align 256, .label ['b']] =
      [(.label ['a'], false), (.instr .nop, true), (near, true), (far, false), (.align 256, false), (.label ['b'], false)] := by decide

/-! ## A small machine

Thread 0 of guest 1 stands in slot 7 of core 0, with a handler at 0x4000. Line 3 of its stash (offsets 384 to 511) is resident, and the
page at 0x10000 is translated. Thread 3 stands in slot 8. -/

def thread : Thread :=
  { Thread.start 7 1 4 9 0 none (Vector.replicate 32 0) 0x1000 77 3 false 0x4000 with
    q := #v[.tt, .ff, .unresolved, .ff, .ff, .ff, .ff, .ff] }

/-- The thread with some registers set. -/
def having (th : Thread) (l : List (Nat × Word)) : Thread := { th with x := l.foldl (fun v p => v.set! p.1 p.2) th.x }

/-- The thread with x9 and x10 set. -/
def holding (a b : Word) : Thread := having thread [(9, a), (10, b)]

def line : StashLine := { line := 1000, guest := 1, gen := 4, dirty := false, stamp := 90, reg := 60, fe := 0xA5, poison := false }
def page : TlbEntry := { slot := 7, guest := 1, gen := 4, va := 0x10000, bits := 16, pa := 0x40000, r := true, w := true, x := true }
def tile : Tile := { Tile.init with banks := [(0, 1), (1, 1)] }

def guest : Guest := { Guest.none with first := 0, len := 4, gen := 4, backing := 0x100000 }

def machine (th : Thread) : State :=
  { State.reset with
    clk := 5000, threads := [(0, th), (3, { thread with place := some 8, home := 8 })], cur := 0, nextTid := 5
    guests := [(1, guest)], seen := { State.reset.seen with guests := [(1, guest)] }
    utlb := [(0, [page])], tiles := [(0, tile)], stash := [(3, line)] }

/-- A launch of guest 1 that runs its one unit. -/
def loadUnit : Launch :=
  { rcd := { loadRecord with guest := 1, quota := 16 }, queue := none, index := 0, placed := 1, cmds := 0, cancelled := false, faulted := false
    status := .running, firmware := false, started := 3, startedAt := 100, cause := none }

theorem issuing (th : Thread) (h : th.halted = false) (p : th.place.isSome = true) (r : th.replay = false := by rfl) :
    Issuing (machine th) 0 th := ⟨rfl, rfl, h, p, r⟩

/-- The machine with another tile 0. -/
def withTile (s : State) (x : Tile) : State := { s with tiles := [(0, x)] }

/-- The machine with virtual page v of guest 1 in frame f. -/
def mapped (s : State) (v f : Nat) : State :=
  { s with
    frames := [(f, { Frame.init with vpn := v, guest := 1, gen := 4, v := true, r := true, w := true, x := true })]
    anchors := [(walkHash 1 v % 8 * 2 ^ 17 + walkHash 1 v / 8, f)] }

/-- What thread 0 becomes by an instruction, and what a register then holds. -/
def after (i : Instr) (th : Thread) : Option Thread :=
  match exec i (machine th) with
  | .next u => u.thread? 0
  | _ => none
def result (i : Instr) (th : Thread) (d : Fin 32) : Option Word := (after i th).map (fun x => x.x[d])

/-! ## One step, with results that the spec writes out or that follow from its tables by hand -/

theorem test_adds_saturates : result (.adds (.x 8) (.x 9) (.x 10)) (holding 0x7FFFFFFFFFFFFFF0 0x20) 8 = some 0x7FFFFFFFFFFFFFFF := by decide
theorem test_addW_wraps : result (.addW (.x 8) (.x 9) (.x 10)) (holding 0x7FFFFFFF 1) 8 = some 0xFFFFFFFF80000000 := by decide
theorem test_sub_same_register : result (.sub (.x 9) (.x 9) (.x 10)) (holding 3 5) 9 = some (-2) := by decide
theorem test_write_to_x0 : result (.add (.x 0) (.x 9) (.x 10)) (holding 3 5) 0 = some 0 := by decide
theorem test_andi_sign_extends : result (.andi (.x 8) (.x 9) 0x3F0) (holding 0xFFFFFFFFFFFFFFFF 0) 8 = some 0xFFFFFFFFFFFFFFF0 := by decide
theorem test_sltiu_of_minus_one : result (.sltiu (.x 8) (.x 9) 0x3FF) (holding 0xFFFFFFFFFFFFFFFE 0) 8 = some 1 := by decide
theorem test_sraW_count_is_five_bits : result (.sraW (.x 8) (.x 9) (.x 10)) (holding 0x80000000 33) 8 = some 0xFFFFFFFFC0000000 := by decide
theorem test_ror_by_zero : result (.ror (.x 8) (.x 9) (.x 10)) (holding 0x123 64) 8 = some 0x123 := by decide
theorem test_bext : result (.bext (.x 8) (.x 9) (.x 10)) (holding 0xC300 0x208) 8 = some 0xC3 := by decide
theorem test_bexts : result (.bexts (.x 8) (.x 9) (.x 10)) (holding 0xC300 0x208) 8 = some 0xFFFFFFFFFFFFFFC3 := by decide
theorem test_bins_at_the_top : result (.bins (.x 8) (.x 9) (.x 10)) (having (holding 0xFF (60 + 8 * 64)) [(8, 0x123)]) 8 = some 0xF000000000000123 := by
  decide
theorem test_clz_of_zero : result (.clz (.x 8) (.x 9)) (holding 0 0) 8 = some 64 := by decide
theorem test_rev8 : result (.rev8 (.x 8) (.x 9)) (holding 0x0102030405060708 0) 8 = some 0x0807060504030201 := by decide
theorem test_sel_false : result (.sel (.x 8) (.x 9) (.x 10) 1) (holding 3 5) 8 = some 5 := by decide
theorem test_mulhsu : result (.mulhsu (.x 8) (.x 9) (.x 10)) (holding (-1) (-1)) 8 = some (-1) := by decide
theorem test_div_truncates : result (.div (.x 8) (.x 9) (.x 10)) (holding (-7) 2) 8 = some (-3) := by decide
theorem test_rem_sign : result (.rem (.x 8) (.x 9) (.x 10)) (holding (-7) 2) 8 = some (-1) := by decide
theorem test_div_overflow : result (.div (.x 8) (.x 9) (.x 10)) (holding 0x8000000000000000 (-1)) 8 = some 0x8000000000000000 := by decide
theorem test_remW_by_zero : result (.remW (.x 8) (.x 9) (.x 10)) (holding 0x180000001 0x100000000) 8 = some 0xFFFFFFFF80000001 := by decide
theorem test_lui : result (.lui (.x 8) 977) (holding 0 0) 8 = some 1000448 := by decide
theorem test_adr_back : result (.adr (.x 8) 0x7FFFF) (holding 0 0) 8 = some 0xFFE := by decide
theorem test_slli16_by_32 : result (.slli16 8 0) (having thread [(8, 1)]) 8 = some 0x100000000 := by decide
theorem test_callr_reads_x1_first : (after (.callr (.x 1) 0) (having thread [(1, 0x2000)])).map (fun x => (x.pc, x.x[1])) = some (0x2000, 0x1004) := by
  decide
theorem test_beq_back : (after (.beq (.x 11) (.x 0) 0x3F8) thread).map (·.pc) = some 0xFF0 := by decide
theorem test_loop_end_goes_back : loopEnd 0x1010 0x1014 [⟨0x1004, 0x1010, 2⟩] = (0x1004, [⟨0x1004, 0x1010, 1⟩]) := by decide
theorem test_trap : (after (.trap 7) thread).map (fun x => (x.trapc, x.epc, x.pc)) = some (0x8000000000070010, 0x1000, 0x4000) := by decide
theorem test_eret : (after .eret { thread with trapc := 0x8000000000070010, epc := 0x1004 }).map (fun x => (x.trapc, x.pc)) = some (0x70010, 0x1004) := by
  decide
theorem test_rfpush_clears_the_frame : (after .rfpush (having thread [(15, 1), (16, 2)])).map (fun x => (x.x[15], x.x[16], x.depth)) = some (1, 0, 1) := by
  decide
theorem test_rfpop_at_the_base : (after .rfpop thread).map (·.trapc) = some 0x8000000000000002 := by decide
theorem test_spawn_outside_slot_0 : (after (.spawn (.x 9) (.x 10)) thread).map (·.trapc) = some 0x8000000000000001 := by decide
theorem test_load_misaligned : (after (.ldW (.x 8) (.x 9) 0) (holding 0x10002 0)).map (fun x => (x.trapc, x.taddr)) = some (0x8000000000000003, 0x10002) := by
  decide
theorem test_store_and_load_local : (match exec (.stW (.x 10) (.x 9) 4) (machine (holding (localVa 0) 0x80000001)) with
    | .next u => (match exec (.ldW (.x 8) (.x 9) 4) u with | .next v => (v.thread? 0).map (fun x => x.x[8]) | _ => none)
    | _ => none) = some 0xFFFFFFFF80000001 := by decide
theorem test_amo_own_stash : (match exec (.amoMaxu .w (.x 8) (.x 9) (.x 10)) (machine (holding (ownVa 384) 0xFFFFFFFF)) with
    | .next u => Memory.read u.mem (stashKey 0 387)
    | _ => 0) = 0xFF := by decide
theorem test_padds : result (.padds false .b (.x 8) (.x 9) (.x 10)) (holding 0xFF7F 0x0101) 8 = some 0x7F := by decide
theorem test_padds_unsigned : result (.padds true .b (.x 8) (.x 9) (.x 10)) (holding 0xFF7F 0x0101) 8 = some 0xFF80 := by decide
theorem test_pcmpgt : result (.pcmpgt false .b (.x 8) (.x 9) (.x 10)) (holding 0xFF7F 0x0101) 8 = some 0xFF := by decide
theorem test_pmul_l6 : result (.pmul .l6 (.x 8) (.x 9) (.x 10)) (holding 0x05 0x1E) 8 = some 0x03 := by decide
theorem test_cvt_l8_to_f32 : result (.cvt .f32 .l8 .rne (.x 8) (.x 9)) (holding 0x0D 0) 8 = some 0x40456700 := by decide
theorem test_fadd_doubles : result (.fadd .f32 .rne (.x 8) (.x 9) (.x 9)) (holding 0x40456700 0) 8 = some 0x40C56700 := by decide
theorem test_fdiv_by_zero : result (.fdiv .f32 .rne (.x 8) (.x 9) (.x 10)) (holding 0x3F800000 0x80000000) 8 = some 0xFF800000 := by decide
theorem test_fmin_of_a_nan : result (.fmin .h16 (.x 8) (.x 9) (.x 10)) (holding 0x7E00 0x3C00) 8 = some 0x3C00 := by decide
theorem test_qtest_unresolved : result (.qtest (.x 8) 2) thread 8 = some 2 := by decide
theorem test_xmov : result (.xmov (.x 8) 14) { thread with e := thread.e.set 14 5 } 8 = some 5 := by decide
theorem test_rself_slot : result (.rself .slot (.x 8)) thread 8 = some 7 := by decide
theorem test_mfs_party : result (.mfs (.x 8) .party) thread 8 = some (26 * 2 ^ 24 + 4) := by decide
theorem test_mts_reserved_bits : (after (.mts .tctl (.x 9)) (holding 5 0)).map (·.trapz) = some false := by decide
theorem test_mfs_firmware_register : (after (.mfs (.x 8) .xsel) thread).map (·.trapc) = some 0x8000000000000001 := by decide
theorem test_rdv_init : (match exec (.rdvInitImm 5 16) (machine thread) with | .next u => u.kread 0 1 5 | _ => 0) = 0x1000000000 := by decide
theorem test_bexpect_then_barrive : (match exec (.bexpect (.x 9) (.x 10)) (machine (holding (ownVa 384) 64)) with
    | .next u => (match exec (.barrive (.x 9) (.x 10)) u with | .next v => (v.barObj 0 384).map (fun o => (o.phase, o.expected)) | _ => none)
    | _ => none) = some (true, 0) := by decide
theorem test_cpfree : result (.cpfree (.x 8)) thread 8 = some 0x1020 := by decide

/-! ## What meets the hypotheses of the statements

One theorem for each statement, with a part for each of its clauses. -/

/-- BitResults, MoveResults, PackedResults, ConversionResults, FloatResults: any issuing thread. -/
theorem witness_BitResults : Issuing (machine (holding (-1) 0xFFF)) 0 (holding (-1) 0xFFF) := issuing _ rfl rfl
theorem witness_MoveResults : Issuing (machine thread) 0 thread := issuing _ rfl rfl
theorem witness_FloatResults : Issuing (machine (holding 0x7F800001 0xFF800000)) 0 (holding 0x7F800001 0xFF800000) := issuing _ rfl rfl
theorem witness_ConversionResults : Issuing (machine (holding 0x40400000 0)) 0 (holding 0x40400000 0) ∧
    decodeNum .f32 0x7FC00000 = .nan ∧ decodeNum .f32 0x40400000 ≠ .nan := ⟨issuing _ rfl rfl, by decide⟩
theorem witness_PackedResults : Issuing (machine (holding 0x30 0x10)) 0 (holding 0x30 0x10) ∧ Lanes.w ≠ .l6 := ⟨issuing _ rfl rfl, by decide⟩

theorem witness_ArithmeticResults : Issuing (machine (holding (-1) 1)) 0 (holding (-1) 1) ∧
    (holding (-1) 1).q[0] = .tt ∧ (holding (-1) 1).q[1] = .ff := ⟨issuing _ rfl rfl, rfl, rfl⟩

theorem witness_MultiplyDivideResults :
    (∀ th ∈ [holding 1 (-1), holding 1 0, holding 1 0x100000000, { holding 1 0 with trapz := true }], Issuing (machine th) 0 th ∧ HasHandler th) ∧
    (holding 1 (-1)).x[10] ≠ 0 ∧ (signed32 (holding 1 (-1)).x[10]).toInt ≠ 0 ∧ (holding 1 0).x[10] = 0 ∧
    (holding 1 0x100000000).x[10].toNat % 2 ^ 32 = 0 ∧ (holding 1 0).trapz = false ∧ { holding 1 0 with trapz := true }.trapz = true := by
  refine ⟨?_, by decide⟩
  intro th h
  simp only [List.mem_cons, List.not_mem_nil, or_false] at h
  rcases h with rfl | rfl | rfl | rfl <;> exact ⟨issuing _ rfl rfl, by unfold HasHandler; decide⟩

theorem witness_BranchOutcomes : Issuing (machine thread) 0 thread ∧ HasHandler thread ∧
    thread.q[0] ≠ .unresolved ∧ thread.q[1] = .ff ∧ thread.q[2] = .unresolved := ⟨issuing _ rfl rfl, by unfold HasHandler; decide, by decide⟩

/-- Targets with bit 0 clear and set, for the register and for x1. -/
theorem witness_JumpOutcomes :
    let even := having thread [(1, 0x2000), (9, 0x3000)]
    let odd := having thread [(1, 0x2001), (9, 0x3001)]
    Issuing (machine even) 0 even ∧ Issuing (machine odd) 0 odd ∧ HasHandler odd ∧
    even.x[9].getLsbD 0 = false ∧ even.x[1].getLsbD 0 = false ∧ odd.x[9].getLsbD 0 = true ∧ odd.x[1].getLsbD 0 = true :=
  ⟨issuing _ rfl rfl, issuing _ rfl rfl, by unfold HasHandler; decide, by decide⟩

/-- One armed level and a count, a count of 0 whose end instruction can be read, and two armed levels. -/
theorem witness_LoopOutcomes :
    let l : LoopLevel := ⟨0x900, 0x910, 1⟩
    let one := { holding 1 0 with loops := [l] }
    let two := { holding 1 0 with loops := [l, l] }
    let none_ := { holding 0 0 with pc := 0x10000 }
    let inside := { holding 1 0 with trapc := BitVec.ofNat 64 (2 ^ 63) }
    Issuing (machine one) 0 one ∧ Issuing (machine two) 0 two ∧ HasHandler two ∧ Issuing (machine none_) 0 none_ ∧
    one.active = false ∧ one.loops.length ≤ 1 ∧ one.x[9] ≠ 0 ∧ 2 ≤ two.loops.length ∧
    none_.active = false ∧ none_.x[9] = 0 ∧ none_.loops.length ≤ 1 ∧ (∃ h, (machine none_).fetchHalf 7 1 0x10002 false = .half h) ∧
    Issuing (machine inside) 0 inside ∧ inside.active = true ∧ KMap.sorted (machine inside).threads = true ∧ (l.stop = 0x910 ∧ l.count = 1) :=
  ⟨issuing _ rfl rfl, issuing _ rfl rfl, by unfold HasHandler; decide, issuing _ rfl rfl, by decide, by decide, by decide, by decide,
    by decide, by decide, by decide, ⟨0, by decide⟩, issuing _ rfl rfl, by decide, by decide, by decide⟩

/-- Frames set aside: two, three with the transit buffer free and taken, and three with local store full; and for RFPOP a resident
caller, one in the transit buffer, one in local store, and none. -/
theorem witness_FrameOutcomes :
    let f : Vector Word 16 := Vector.replicate 16 7
    let r : Transit := { regs := f, base := localKey 7 0, done := 3 }
    let two := { thread with frames := [f, f], depth := 2 }
    let three := { thread with frames := [f, f, f], depth := 3 }
    let busy := { three with transit := some r, wsp := 128, depth := 4 }
    let full := { three with wsp := 512 - 127 }
    let away := { thread with transit := some r, wsp := 128, depth := 1 }
    let deep := { thread with wsp := 128, depth := 1 }
    (∀ th ∈ [two, three, busy, full, away, deep, thread], Issuing (machine th) 0 th) ∧ HasHandler full ∧ HasHandler thread ∧
    two.frames.length < 3 ∧ (three.frames = [f, f] ++ [f] ∧ 2 ≤ [f, f].length ∧ three.wsp + 128 ≤ three.spillBound ∧ three.transit = none) ∧
    (3 ≤ busy.frames.length ∧ busy.wsp + 128 ≤ busy.spillBound ∧ busy.transit ≠ none) ∧
    (3 ≤ full.frames.length ∧ full.spillBound < full.wsp + 128) ∧
    (two.depth ≠ 0 ∧ two.frames = f :: [f]) ∧ (away.depth ≠ 0 ∧ away.frames = [] ∧ away.transit = some r) ∧
    (deep.depth ≠ 0 ∧ deep.frames = [] ∧ deep.transit = none) ∧ thread.depth = 0 := by
  refine ⟨?_, by unfold HasHandler; decide, by unfold HasHandler; decide, by decide, by decide, by decide, by decide, by decide, by decide,
    by decide, by decide⟩
  intro th h
  simp only [List.mem_cons, List.not_mem_nil, or_false] at h
  rcases h with rfl | rfl | rfl | rfl | rfl | rfl | rfl <;> exact issuing _ rfl rfl

/-- A context zero with a quota of 1, as it spawns at slot 15 or at a taken slot, at an odd address, and reaps. -/
def zero (a b : Word) : Thread := { holding a b with place := some 0, home := 0 }
theorem witness_SpawnOutcomes :
    let s := fun (th : Thread) => { machine th with launches := [(9, { loadUnit with rcd := { loadRecord with guest := 1, quota := 1 } })] }
    (∀ th ∈ [zero 15 0x2000, zero 15 0x2001, zero 8 0x2000, zero 0 0x2000, zero 16 0x2000, thread], Issuing (s th) 0 th ∧ HasHandler th) ∧
    (s (zero 15 0x2000)).thread? (s (zero 15 0x2000)).nextTid = none ∧ slotIn (zero 15 0x2000).home = 0 ∧
    ((s (zero 15 0x2000)).quotaOf (zero 15 0x2000) ≤ 15 ∧ (s (zero 15 0x2000)).holdsSlot 15 1 = false ∧ (zero 15 0x2000).x[10].getLsbD 0 = false) ∧
    slotIn thread.home ≠ 0 ∧ (0 < (s (zero 0 0x2000)).quotaOf (zero 0 0x2000) ∧ 15 < (zero 16 0x2000).x[9].toNat) ∧
    (s (zero 8 0x2000)).holdsSlot 8 1 = true ∧ (zero 15 0x2001).x[10].getLsbD 0 = true ∧
    (let dead := { thread with place := some 8, home := 8, halted := true }
     let u := { s (zero 8 0) with threads := [(0, zero 8 0), (3, dead)] }
     u.threads.find? (fun (p : Nat × Thread) => p.2.home == 8 && p.2.guest == 1) = some (3, dead) ∧ dead.halted = true ∧ u.outstanding 3 = []) ∧
    (let live := { thread with place := some 8, home := 8 }
     (s (zero 8 0)).threads.find? (fun (p : Nat × Thread) => p.2.home == 8 && p.2.guest == 1) = some (3, live) ∧ live.halted = false) ∧
    (s (zero 15 0)).threads.find? (fun (p : Nat × Thread) => p.2.home == 15 && p.2.guest == 1) = none := by
  refine ⟨?_, by decide, by decide, by decide, by decide, by decide, by decide, by decide, by decide, by decide, by decide⟩
  intro th h
  simp only [List.mem_cons, List.not_mem_nil, or_false] at h
  rcases h with rfl | rfl | rfl | rfl | rfl | rfl <;> exact ⟨⟨rfl, rfl, rfl, rfl, rfl⟩, by unfold HasHandler; decide⟩

/-- A rendezvous object in k5: malformed, its phase pending or full, the slot arrived already, and an arrival that closes it. -/
theorem witness_RendezvousOutcomes :
    let s := fun (v : Word) => (machine thread).kset 0 1 5 v
    let count := fun (x : Nat) => ((List.range 16).filter (fun j => x.testBit j)).length
    (∀ v ∈ [(0 : Word), 0x3FFFFFFFFF, 0x100010000, 0x100000080, 0x200000080, 0x100000000], Issuing (s v) 0 thread ∧ (s v).readReg thread (.k 5) = v) ∧
    HasHandler thread ∧ slotIn thread.home = 7 ∧ (0 : Nat) / 2 ^ 32 % 2 ^ 5 = 0 ∧ 16 < 0x3FFFFFFFFF / 2 ^ 32 % 2 ^ 5 ∧
    (0x100010000 / 2 ^ 32 % 2 ^ 5 = 1 ∧ 0x100010000 / 2 ^ 16 % 2 ^ 16 ≠ 0) ∧ count (0x100000080 % 2 ^ 16) = 0x100000080 / 2 ^ 32 % 2 ^ 5 ∧
    (0x200000080 / 2 ^ 16 % 2 ^ 16 = 0 ∧ count (0x200000080 % 2 ^ 16) ≠ 2 ∧ (0x200000080 % 2 ^ 16).testBit 7 = true) ∧
    (count (0x100000000 % 2 ^ 16) ≠ 1 ∧ (0x100000000 % 2 ^ 16).testBit 7 = false ∧ count (0 + 2 ^ 7) = 1) ∧
    (1 ≤ (holding 16 0).x[9].toNat ∧ (holding 16 0).x[9].toNat ≤ 16) ∧ (holding 17 0).x[9].toNat > 16 := by
  refine ⟨?_, by unfold HasHandler; decide, by decide⟩
  intro v h
  simp only [List.mem_cons, List.not_mem_nil, or_false] at h
  rcases h with rfl | rfl | rfl | rfl | rfl | rfl <;> exact ⟨⟨rfl, rfl, rfl, rfl, rfl⟩, by decide⟩

theorem witness_ThreadNotes : Issuing (machine thread) 0 thread ∧
    (thread.cancel = none ∧ (machine thread).stopsHere thread = false ∧ (machine thread).passes thread = false) ∧
    (let th := { thread with cancel := some 0 }
     Issuing (machine th) 0 th ∧ th.cancel = some 0 ∧ HasHandler th) :=
  ⟨issuing _ rfl rfl, by decide, issuing _ rfl rfl, rfl, by unfold HasHandler; decide⟩

/-! ### Loads and stores -/

/-- The last doubleword of local store, by the first load form and the first store form, and by XLD. -/
theorem witness_LocalLoads : let th := holding (localVa 504) 0
    Issuing (machine th) 0 th ∧ Clear (machine th) 0 th (.loc (localKey 7 504)) (localVa 504) 8 ∧
    (∃ f ∈ loadForms (machine th) th (.x 8) (.x 9) (.x 10) 7 3 0, LocalAt f.va f.n 511 ∧ Clear (machine th) 0 th (.loc (localKey 7 511)) f.va f.n) ∧
    LocalAt (addrOf (machine th) th (.x 9) 0) 8 504 :=
  ⟨issuing _ rfl rfl, by unfold Clear; decide, ⟨_, .head _, by unfold LocalAt Clear; decide⟩, by unfold LocalAt; decide⟩

theorem witness_LocalStores : let th := holding (localVa 504) 0
    Issuing (machine th) 0 th ∧
    (∃ f ∈ storeForms (machine th) th (.x 8) (.x 9) (.x 10) 7 3 4 0, LocalAt f.va f.n 511 ∧ Clear (machine th) 0 th (.loc (localKey 7 511)) f.va f.n) :=
  ⟨issuing _ rfl rfl, ⟨_, .head _, by unfold LocalAt Clear; decide⟩⟩

/-- The last byte and the last doubleword of the resident line. -/
theorem witness_StashLoads : let th := holding (ownVa 504) 0
    Issuing (machine th) 0 th ∧
    (∃ f ∈ loadForms (machine th) th (.x 8) (.x 9) (.x 10) 7 3 0, OwnAt (machine th) th f.va f.n 511 line ∧ Clear (machine th) 0 th (.own 511) f.va f.n) ∧
    (OwnAt (machine th) th (addrOf (machine th) th (.x 9) 0) 8 504 line ∧
      Clear (machine th) 0 th (.own 504) (addrOf (machine th) th (.x 9) 0) 8) :=
  ⟨issuing _ rfl rfl, ⟨_, .head _, by unfold OwnAt OwnLine Clear; decide⟩, by unfold OwnAt OwnLine Clear; decide⟩

theorem witness_StashStores : let th := holding (ownVa 504) 0
    Issuing (machine th) 0 th ∧
    (∃ f ∈ storeForms (machine th) th (.x 8) (.x 9) (.x 10) 7 3 4 0, OwnAt (machine th) th f.va f.n 511 line ∧ Clear (machine th) 0 th (.own 511) f.va f.n) :=
  ⟨issuing _ rfl rfl, ⟨_, .head _, by unfold OwnAt OwnLine Clear; decide⟩⟩

/-- An odd halfword, the ends of the reserved spaces, the first byte past local store, a bank that STASHM shuts out; the same for
atomics, gathers and LDC. -/
theorem witness_AccessChecks :
    (∀ th ∈ [holding 0x10001 0, holding (ownVa 384) 0], Issuing (machine th) 0 th ∧ HasHandler th) ∧
    (∃ f ∈ loadForms (machine (holding 0x10001 0)) (holding 0x10001 0) (.x 8) (.x 9) (.x 10) 0 3 0, f.va.toNat % f.n ≠ 0) ∧
    (1 ≤ (0x0100000000000000 : Word).toNat / 2 ^ 56 ∧ (0x3F00000000000000 : Word).toNat / 2 ^ 56 < 0x40 ∧
      0x83 ≤ (0x8300000000000000 : Word).toNat / 2 ^ 56 ∧ (0xBF00000000000000 : Word).toNat / 2 ^ 56 < 0xC0) ∧
    (∃ f ∈ loadForms (machine (holding (localVa 512) 0)) (holding (localVa 512) 0) (.x 8) (.x 9) (.x 10) 0 3 0, f.va = localVa 512 ∧ 512 % f.n = 0) ∧
    (let th := { holding (ownVa 384) 0 with stashm := 2 }
     ∃ f ∈ loadForms (machine th) th (.x 8) (.x 9) (.x 10) 0 3 0,
       f.va = ownVa 384 ∧ 384 % f.n = 0 ∧ 384 + f.n ≤ 2 ^ 17 ∧ th.stashm.getLsbD (384 / 4096) = false) ∧
    (0x10001 : Nat) % 4 ≠ 0 ∧ (holding (localVa 504) 0).x[9] = localVa 504 ∧ 504 + 8 ≤ 512 := by
  refine ⟨?_, ⟨_, .tail _ (.tail _ (.head _)), by decide⟩, by decide, ⟨_, .head _, by decide⟩, ⟨_, .head _, by decide⟩, by decide⟩
  intro th h
  simp only [List.mem_cons, List.not_mem_nil, or_false] at h
  rcases h with rfl | rfl <;> exact ⟨issuing _ rfl rfl, by unfold HasHandler; decide⟩

/-- Thread 0 as it rejoins with the send-queue entry that it has waited for. -/
def queued (a b : Word) : Thread := { holding a b with queued := true, replay := true }
theorem rejoining (a b : Word) : Rejoining (machine (queued a b)) 0 (queued a b) := ⟨rfl, rfl, rfl, rfl⟩

/-- The last bytes of the translated page, for a load, a store and an atomic, at a first issue and after the wait for the send queue; no copy is
cached. -/
theorem witness_RequestsToHomes : ∀ th ∈ [holding 0x1FFF8 0, queued 0x1FFF8 0],
    (Issuing (machine th) 0 th ∨ Rejoining (machine th) 0 th) ∧ NoCopy (machine th) th (0x4FFF8 / 128) ∧
    (∃ f ∈ loadForms (machine th) th (.x 8) (.x 9) (.x 10) 7 3 0, GlobalAt (machine th) th f.va f.n 0x4FFFF false ∧
      Clear (machine th) 0 th (.global f.va 0x4FFFF) f.va f.n) ∧
    (∃ f ∈ storeForms (machine th) th (.x 8) (.x 9) (.x 10) 7 3 4 0, GlobalAt (machine th) th f.va f.n 0x4FFFF true ∧
      Unaliased (machine th) 0 th (.global f.va 0x4FFFF) f.va f.n) ∧
    (∃ f ∈ amoForms .d (.x 8) (.x 9) (.x 10), GlobalAt (machine th) th ((machine th).readReg th (.x 9)) f.2.2 0x4FFF8 true ∧
      Unaliased (machine th) 0 th (.global ((machine th).readReg th (.x 9)) 0x4FFF8) ((machine th).readReg th (.x 9)) f.2.2) := by
  intro th h
  simp only [List.mem_cons, List.not_mem_nil, or_false] at h
  rcases h with rfl | rfl <;> refine ⟨by first | exact .inl (issuing _ rfl rfl) | exact .inr (rejoining _ _), by unfold NoCopy; decide,
    ⟨_, .head _, ⟨by decide, by decide, page, by decide⟩, by unfold Clear; decide⟩,
    ⟨_, .head _, ⟨by decide, by decide, page, by decide⟩, by unfold Unaliased; decide⟩,
    ⟨_, .head _, ⟨by decide, by decide, page, by decide⟩, by unfold Unaliased; decide⟩⟩

/-- The last doubleword of the last tile of the party, the last one of device 63's stash, and one of its global space. -/
def lastTile : Word := BitVec.ofNat 64 (0x81 * 2 ^ 56 + 3 * 2 ^ 23 + 63 * 2 ^ 17 + 131064)
def peerStash : Word := BitVec.ofNat 64 (0xFF * 2 ^ 56 + 2 ^ 29 - 8)
def peerGlobal : Word := BitVec.ofNat 64 (0x7F * 2 ^ 56 + 8)
def withPeer (th : Thread) : State := { machine th with guests := [(1, { guest with peers := [(63, 1)] })] }

theorem witness_RequestsToTiles :
    (∀ th ∈ [holding lastTile 0, queued lastTile 0], (Issuing (machine th) 0 th ∨ Rejoining (machine th) 0 th) ∧
      (∃ r ∈ loadRequests (machine th) th (.x 8) (.x 9) (.x 10) 0 3 4 0, PartyAt (machine th) th r.va r.n 255 131064 ∧
        Clear (machine th) 0 th (.party 255 131064) r.va r.n) ∧
      (∃ r ∈ writeRequests (machine th) th (.x 8) (.x 9) (.x 10) 7 3 4 0 .d 2, PartyAt (machine th) th r.va r.n 255 131071 ∧
        Unaliased (machine th) 0 th (.party 255 131071) r.va r.n)) ∧
    (∀ p ∈ [(peerStash, Target.peerStash 63), (peerGlobal, .peer 63)], let th := holding p.1 0
      Issuing (withPeer th) 0 th ∧ HasHandler th ∧
      (∃ r ∈ loadRequests (withPeer th) th (.x 8) (.x 9) (.x 10) 0 3 4 0, (PeerStashAt (withPeer th) th r.va r.n 63 ∨ PeerAt (withPeer th) th r.va r.n 63) ∧
        Clear (withPeer th) 0 th p.2 r.va r.n ∧ r.peer.isSome = true) ∧
      (∃ r ∈ writeRequests (withPeer th) th (.x 8) (.x 9) (.x 10) 0 3 4 0 .d 2, (PeerStashAt (withPeer th) th r.va r.n 63 ∨ PeerAt (withPeer th) th r.va r.n 63) ∧
        Unaliased (withPeer th) 0 th p.2 r.va r.n)) ∧
    (let th := holding peerGlobal 0
     PeerAt (withPeer th) th (addrOf (withPeer th) th (.x 9) 0) 8 63 ∧ ∃ r ∈ writeRequests (withPeer th) th (.x 8) (.x 9) (.x 10) 0 3 4 0 .d 2, r.peer = none) ∧
    (let th := holding (lastTile - 24) 0
     Issuing (machine th) 0 th ∧ HasHandler th ∧ PartyAt (machine th) th (lastTile - 24) 32 255 131040) := by
  refine ⟨?_, ?_, ⟨by unfold PeerAt; decide, ⟨_, .tail _ (.tail _ (.tail _ (.tail _ (.tail _ (.tail _ (.tail _ (.tail _ (.tail _ (.tail _ (.tail _
    (.tail _ (.tail _ (.tail _ (.tail _ (.tail _ (.tail _ (.tail _ (.tail _ (.tail _ (.tail _ (.tail _ (.tail _ (.head _))))))))))))))))))))))), rfl⟩⟩,
    issuing _ rfl rfl, by unfold HasHandler; decide, ⟨0x81, 3, 63, by decide⟩⟩
  · intro th h
    simp only [List.mem_cons, List.not_mem_nil, or_false] at h
    rcases h with rfl | rfl <;> refine ⟨by first | exact .inl (issuing _ rfl rfl) | exact .inr (rejoining _ _),
      ⟨_, .head _, ⟨0x81, 3, 63, by decide⟩, by unfold Clear; decide⟩, ⟨_, .head _, ⟨0x81, 3, 63, by decide⟩, by unfold Unaliased; decide⟩⟩
  · intro p h
    simp only [List.mem_cons, List.not_mem_nil, or_false] at h
    rcases h with rfl | rfl <;> refine ⟨⟨rfl, rfl, rfl, rfl, rfl⟩, by unfold HasHandler; decide, ⟨_, .head _, ?_, by unfold Clear; decide, rfl⟩,
      ⟨_, .head _, ?_, by unfold Unaliased; decide⟩⟩ <;> unfold PeerStashAt PeerAt <;> decide

/-- A launch of guest 1 with a constant window of 256 bytes at 0x10000, its last word, with no copy cached and with one, at a first issue and
after a wait. -/
def windowed (th : Thread) : State :=
  { machine th with launches := [(9, { loadUnit with rcd := { loadRecord with guest := 1, const := 0x10000, constlen := 256 } })] }
theorem witness_ConstantReads :
    ∀ th ∈ [holding 0x100FC 0, queued 0x100FC 0],
    let c : Copy := { line := 0x40080 / 128, guest := 1, gen := 4, data := [], wts := 0, rts := 100 }
    let began := (((windowed th).launch? th.launch).map (fun x => x.startedAt)).getD 0
    let one := withTile (windowed th) { tile with const := [c] }
    let serving := fun (s : State) => (s.tile 0).const.filter (fun c => c.line == 0x400FC / 128 && c.guest == th.guest && c.gen == (s.guest th.guest).gen && began ≤ c.rts.toNat)
    (Issuing (windowed th) 0 th ∧ Issuing one 0 th ∨ Rejoining (windowed th) 0 th ∧ Rejoining one 0 th) ∧ GlobalAt (windowed th) th 0x100FC 4 0x400FC false ∧
    GlobalAt one th 0x100FC 4 0x400FC false ∧ (windowed th).constWindow th = (0x10000, 256) ∧ 0x100FC + 4 ≤ 0x10000 + 256 ∧
    serving (windowed th) = [] ∧ serving one = [c] := by
  intro th h
  simp only [List.mem_cons, List.not_mem_nil, or_false] at h
  rcases h with rfl | rfl <;> exact ⟨by first | exact .inl ⟨⟨rfl, rfl, rfl, rfl, rfl⟩, rfl, rfl, rfl, rfl, rfl⟩ | exact .inr ⟨⟨rfl, rfl, rfl, rfl⟩, rfl, rfl, rfl, rfl⟩,
    ⟨by decide, by decide, page, by decide⟩, ⟨by decide, by decide, page, by decide⟩, by decide, by decide, by decide, by decide⟩

/-- The last word of the resident line; CAS that finds its value and one that does not. -/
theorem witness_StashAtomics : let th := having (holding (ownVa 504) 0) [(8, 5)]
    Issuing (machine th) 0 th ∧ OwnAt (machine th) th (ownVa 504) 8 504 line ∧ Clear (machine th) 0 th (.own 504) (ownVa 504) 8 ∧
    (machine th).regionAt (line.line * 128) = none ∧ (∃ f ∈ amoForms .d (.x 8) (.x 9) (.x 10), f.2.2 = 8) ∧
    amoValue .cas 8 (0 : BitVec 64) (0 : BitVec 64) (5 : BitVec 64) = some (5 : BitVec 64) ∧
    amoValue .cas 8 (0 : BitVec 64) (1 : BitVec 64) (5 : BitVec 64) = none :=
  ⟨issuing _ rfl rfl, by unfold OwnAt OwnLine; decide, by unfold Clear; decide, by decide, ⟨_, .head _, rfl⟩, by decide, by decide⟩

/-- A list of one element that ends local store's last word, and a header of 0. -/
theorem witness_GatherResults :
    let th := holding (localVa 508) (localVa 0)
    let s := (machine th).writeMem (localKey 7 0) [1, 0, 0, 0, 0, 0, 0, 0, 0, 0, 0, 0]
    Issuing s 0 th ∧ s.outstanding 0 = [] ∧ (∃ f ∈ gredForms .w (.x 8) (.x 9) (.x 10), f.2.1 = 4) ∧ th.x[9] = localVa 508 ∧ th.x[10] = localVa 0 ∧
    numberAt s (localKey 7 0) 8 = 1 ∧ 508 + numberAt s (localKey 7 8) 4 * 4 + 4 ≤ 512 ∧
    numberAt (machine th) (localKey 7 0) 8 = 0 ∧ Issuing (machine th) 0 th ∧ HasHandler th :=
  ⟨⟨rfl, rfl, rfl, rfl, rfl⟩, by decide, ⟨_, .head _, rfl⟩, by decide, by decide, by decide, by decide, by decide, issuing _ rfl rfl,
    by unfold HasHandler; decide⟩

/-- A block with a parked request, a backing block that another entry names, and neither; SWB up to the end of its bank. -/
theorem witness_StashMapping :
    let th := holding (ownVa 2048) 0x10800
    let p : Parked := { off := 2048, req := { who := .thread 3, src := 0, rid := 1, va := 0, tile := 0, off := 2048, what := .ldf, clock := 0, guest := 1, op := 0, refusals := 0, own := true } }
    let parked := withTile (machine th) { tile with park := [p] }
    let twice := withTile (machine th) { tile with map := [(0, { va := 0x10800, pa := 0x40800 })] }
    (∀ s ∈ [machine th, parked, twice], Issuing s 0 th) ∧ HasHandler th ∧ th.x[9] = ownVa 2048 ∧
    (KMap.get? ((machine th).tile 0).banks (2048 / 4096) = some th.guest ∧ th.stashm.getLsbD (2048 / 4096) = true) ∧
    GlobalAt (machine th) th 0x10800 2048 0x40800 true ∧ (∀ j, j < 16 → ((machine th).line (0x40800 / 128 + j)).sum = none) ∧
    (∃ q ∈ (parked.tile 0).park, q.off / 2048 = 1) ∧ ¬ (∃ q ∈ ((machine th).tile 0).park, q.off / 2048 = 1) ∧
    (∃ q ∈ (twice.tile 0).map, q.1 ≠ 1 ∧ q.2.va = 0x10800 ∧ twice.bankGuest 0 (q.1 * 2048) = th.guest) ∧
    ¬ (∃ q ∈ ((machine th).tile 0).map, q.1 ≠ 1 ∧ q.2.va = 0x10800 ∧ (machine th).bankGuest 0 (q.1 * 2048) = th.guest) ∧
    (2048 % 4096 + 2048 ≤ 4096) := by
  refine ⟨?_, by unfold HasHandler; decide, by decide, by decide, ⟨by decide, by decide, page, by decide⟩, fun _ _ => rfl, by decide, by decide,
    ⟨_, .head _, by decide⟩, by decide, by decide⟩
  intro s h
  simp only [List.mem_cons, List.not_mem_nil, or_false] at h
  rcases h with rfl | rfl | rfl <;> exact ⟨rfl, rfl, rfl, rfl, rfl⟩

/-- Two lines whose page the tile TLB holds and one whose page it does not; a range that ends where the space does and one past it;
sixteen lines of one set, one line over a LOCKQ of 0, and no line at all. -/
theorem witness_ResidencyLocks :
    let th := holding 0x1FF80 1
    let s := mapped (machine th) 1 4
    let one := withTile s { tile with tlb := [{ page with slot := 0 }] }
    let last := holding 0x00FFFFFFFFFFFFFF 1
    let past := holding 0x00FFFFFFFFFFFFFF 2
    let full := (List.range 16).map (fun j => j * 2 ^ 10 + j * 2 ^ 20)
    (Issuing one 0 th ∧ th.x[9].toNat + th.x[10].toNat ≤ 2 ^ 56 ∧ 1 ≤ (linesOfPages (one.lockPages 0 1 (0x1FF80 / 128) 1)).length ∧
      ∀ p ∈ one.lockPages 0 1 (0x1FF80 / 128) 1, (one.tlbFind (one.tile 0).tlb 0 1 p.1.va).isSome = true) ∧
    (Issuing s 0 th ∧ (∀ p ∈ s.lockPages 0 1 (0x1FF80 / 128) 1, (s.lockPage 0 1 p.1.va).isFrozen = false) ∧
      ∃ p ∈ s.lockPages 0 1 (0x1FF80 / 128) 1, (s.tlbFind (s.tile 0).tlb 0 1 p.1.va).isSome = false) ∧
    (Issuing (machine last) 0 last ∧ last.x[9].toNat < 2 ^ 56 ∧ last.x[9].toNat + last.x[10].toNat ≤ 2 ^ 56) ∧
    (Issuing (machine past) 0 past ∧ HasHandler past ∧ 2 ^ 56 < past.x[9].toNat + past.x[10].toNat) ∧
    (0 ∈ full ∧ State.reset.setWays 0 0 ≤ ((full.filter (fun m => l2Set m == l2Set 0)).eraseDups).length) ∧
    (¬ State.reset.setWays 0 0 ≤ (([0].filter (fun m => l2Set m == l2Set 0)).eraseDups).length ∧
      ((State.reset.tile (State.reset.sliceTile 0 0)).guest 1).gqos.lockq < 1) := by
  refine ⟨⟨⟨rfl, rfl, rfl, rfl, rfl⟩, by decide, by decide, by decide⟩, ⟨⟨rfl, rfl, rfl, rfl, rfl⟩, by decide, by decide⟩,
    ⟨issuing _ rfl rfl, by decide, by decide⟩, ⟨issuing _ rfl rfl, by unfold HasHandler; decide, by decide⟩, by decide, by decide, by decide⟩

/-- A store outstanding, with the tag that x9 names, in the global space. -/
def store (tag : BitVec 32) (va : Word) : Tagged :=
  { op := 9, tid := 0, launch := 9, tag := tag, va := va, pa := none, key := none, len := 8, left := 1, data := 0, wb := false, engine := none }
theorem witness_FenceAndWaitack :
    let th := holding 7 0
    let s := { machine th with tagged := [store 7 0x10000] }
    Issuing (machine th) 0 th ∧ Issuing s 0 th ∧ (machine th).outstanding 0 = [] ∧
    (∃ x ∈ s.outstanding 0, Scope.tile ≠ .slot ∧ s.isPeer x.va = false) ∧ (∃ x ∈ s.outstanding 0, x.tag = 7) ∧
    (∀ x ∈ ({ machine th with tagged := [store 8 0x10000] } : State).outstanding 0, (7 : BitVec 32) ≠ 0 ∧ x.tag ≠ 7) :=
  ⟨issuing _ rfl rfl, ⟨rfl, rfl, rfl, rfl, rfl⟩, by decide, by decide, by decide, by decide⟩

/-- A misaligned object; lengths 0 and past 2^36, a range that wraps, one that leaves the global space, one that crosses tiles; a full
list; and a binding of the longest length. -/
theorem witness_Bindings :
    let th := having (holding 0x100 0x2000) [(11, 2 ^ 36)]
    let b : Binding := { obj := 0x300, base := 0x2000, len := 8 }
    let full := { th with bindings := List.replicate 8 b }
    Issuing (machine th) 0 th ∧ HasHandler th ∧ Issuing (machine full) 0 full ∧ HasHandler full ∧ (0x101 : Word).toNat % 8 ≠ 0 ∧
    th.x[9].toNat % 8 = 0 ∧ 2 ^ 36 < 2 ^ 36 + 1 ∧ 2 ^ 64 < (0xFFFFFFFFFFFFFFF0 : Word).toNat + 17 ∧
    ((0x00FFFFFFFFFFFFF8 : Word).toNat / 2 ^ 56 = 0 ∧ ((0x00FFFFFFFFFFFFF8 : Word).toNat + 9 - 1) / 2 ^ 56 ≠ 0) ∧
    ((ownVa 131064).toNat / 2 ^ 56 = 0x80 ∧ (ownVa 131064).toNat / 2 ^ 17 ≠ ((ownVa 131064).toNat + 9 - 1) / 2 ^ 17) ∧
    (8 ≤ full.bindings.length ∧ ∀ x ∈ full.bindings, ¬ (x.obj = 0x100 ∧ x.base = 0x2000)) ∧
    (th.x[11] ≠ 0 ∧ th.x[11].toNat ≤ 2 ^ 36 ∧ th.x[10].toNat / 2 ^ 56 = (th.x[10].toNat + th.x[11].toNat - 1) / 2 ^ 56 ∧ th.bindings.length < 8) :=
  ⟨issuing _ rfl rfl, by unfold HasHandler; decide, issuing _ rfl rfl, by unfold HasHandler; decide, by decide, by decide, by decide, by decide,
    by decide, by decide, by decide, by decide⟩

/-- Objects: misaligned, in local store, in the own stash, in the global space. -/
theorem witness_ReleaseAcquire :
    let own := holding (ownVa 504) 0
    let far := holding 0x1FFF8 0
    let party := holding lastTile 0
    (∀ th ∈ [own, far, party, holding 0x101 0, holding (localVa 504) 0], Issuing (machine th) 0 th ∧ HasHandler th ∧ (machine th).outstanding 0 = []) ∧
    (0x101 : Word).toNat % 8 ≠ 0 ∧ LocalAt (localVa 504) 8 504 ∧
    (OwnAt (machine own) own (ownVa 504) 8 504 line ∧ (machine own).regionAt (line.line * 128) = none) ∧
    PartyAt (machine party) party lastTile 8 255 131064 ∧ Rejoining (machine (queued 0x1FFF8 0)) 0 (queued 0x1FFF8 0) ∧
    GlobalAt (machine far) far 0x1FFF8 8 0x4FFF8 true ∧ GlobalAt (machine far) far 0x1FFF8 8 0x4FFF8 false := by
  refine ⟨?_, by decide, by unfold LocalAt; decide, by unfold OwnAt OwnLine; decide, ⟨0x81, 3, 63, by decide⟩, rejoining _ _,
    ⟨by decide, by decide, page, by decide⟩, ⟨by decide, by decide, page, by decide⟩⟩
  intro th h
  simp only [List.mem_cons, List.not_mem_nil, or_false] at h
  rcases h with rfl | rfl | rfl | rfl | rfl <;> exact ⟨issuing _ rfl rfl, by unfold HasHandler; decide, by decide⟩

/-- A full word (the line's bit 15 of 0xA5A5) and an empty one (bit 14), with room in the park table. -/
theorem witness_FullEmptyOutcomes :
    let l := { line with fe := 0xA5A5 }
    let s := fun (th : Thread) => { machine th with stash := [(3, l)] }
    let full := holding (ownVa 504) 0
    let empty := holding (ownVa 496) 0
    Issuing (s full) 0 full ∧ Issuing (s empty) 0 empty ∧ (s full).regionAt (l.line * 128) = none ∧
    (OwnAt (s full) full (addrOf (s full) full (.x 9) 0) 8 504 l ∧ Clear (s full) 0 full (.own 504) (addrOf (s full) full (.x 9) 0) 8) ∧
    (OwnAt (s empty) empty (addrOf (s empty) empty (.x 9) 0) 8 496 l ∧ Clear (s empty) 0 empty (.own 496) (addrOf (s empty) empty (.x 9) 0) 8) ∧
    l.fe.getLsbD (504 % 128 / 8) = true ∧ ¬ l.fe.getLsbD (496 % 128 / 8) = true ∧ ((s full).tile 0).park.length < 64 :=
  ⟨⟨rfl, rfl, rfl, rfl, rfl⟩, ⟨rfl, rfl, rfl, rfl, rfl⟩, by decide, by unfold OwnAt OwnLine Clear; decide, by unfold OwnAt OwnLine Clear; decide, by decide,
    by decide, by decide⟩

/-- A global line, a stash line; a held signal, an arm without one, none armed; timeouts of 0 and not. -/
theorem witness_MonitorOutcomes :
    let far := holding 0x1FFFF 0
    let own := holding (ownVa 131071) 0
    let signalled := { holding 0 0 with mons := thread.mons.set 3 { arm := 4, signal := some 9 } }
    let armed := { holding 1 0 with mons := thread.mons.set 3 { arm := 4, signal := none } }
    (∀ th ∈ [far, own, signalled, armed, holding 0 0, holding 1 0], Issuing (machine th) 0 th ∧ HasHandler th) ∧
    (Rejoining (machine (queued 0x1FFFF 0)) 0 (queued 0x1FFFF 0) ∧ GlobalAt (machine far) far 0x1FFFF 1 0x4FFFF false) ∧ (ownVa 131071 = ownVa 131071 ∧ 131071 + 1 ≤ 2 ^ 17) ∧
    (∃ h : 3 < 4, signalled.mons[3].arm ≠ 0 ∧ signalled.mons[3].signal.isSome = true) ∧
    (∀ j, ¬ ∃ h : j < 4, armed.mons[j].arm ≠ 0 ∧ armed.mons[j].signal.isSome = true) ∧ (∃ h : 3 < 4, armed.mons[3].arm ≠ 0) ∧
    (¬ ∃ j, ∃ h : j < 4, (holding 0 0).mons[j].arm ≠ 0) ∧ (holding 0 0).x[9].toNat = 0 ∧ (holding 1 0).x[9].toNat ≠ 0 := by
  refine ⟨?_, ⟨rejoining _ _, by decide, by decide, page, by decide⟩, by decide, ⟨by decide, by decide⟩, ?_, ⟨by decide, by decide⟩, ?_, by decide, by decide⟩
  · intro th h
    simp only [List.mem_cons, List.not_mem_nil, or_false] at h
    rcases h with rfl | rfl | rfl | rfl | rfl | rfl <;> exact ⟨issuing _ rfl rfl, by unfold HasHandler; decide⟩
  · have key : ∀ j (h : j < 4), ¬ ({ holding 1 0 with mons := thread.mons.set 3 { arm := 4, signal := none } } : Thread).mons[j].signal.isSome = true := by
      decide
    rintro j ⟨h, -, h2⟩
    exact key j h h2
  · have key : ∀ j (h : j < 4), (holding 0 0).mons[j].arm = 0 := by decide
    rintro ⟨j, h, h2⟩
    exact h2 (key j h)

/-- A held command of the thread on q2, with x9 zero and not. -/
def command (k : CmdKind) (held : Option (BitVec 3)) : Cmd :=
  { id := 5, tid := 0, guest := 1, launch := 9, self := 0, stashm := 3, clock := 77, fn := 2, held := held, kind := k, after := [], pos := 0, reqs := []
    faulted := none, rows := [], got := [] }
theorem witness_GuardInstructions :
    let s := fun (th : Thread) => withTile (machine th) { tile with mqueue := [command (.mclr false) (some 2)] }
    Issuing (s (holding 0 0)) 0 (holding 0 0) ∧ Issuing (s (holding 1 0)) 0 (holding 1 0) ∧ (holding 0 0).x[9] = 0 ∧ (holding 1 0).x[9] ≠ 0 ∧
    (∃ c ∈ ((s (holding 1 0)).tile 0).mqueue, c.tid = 0 ∧ c.held = some 2) :=
  ⟨⟨rfl, rfl, rfl, rfl, rfl⟩, ⟨rfl, rfl, rfl, rfl, rfl⟩, by decide, by decide, by decide⟩

/-- An object of zeros, one whose phase the arrival completes, one that refuses, one that has this thread's arrival, and the bounds of
the counts. -/
theorem witness_BarrierSetting :
    let o : BarObj := { due := 0, observed := 0, arrivals := 0, arrived := 0, phase := false, waiters := 0, expected := 0 }
    let s := fun (th : Thread) (o : BarObj) => (machine th).writeMem (stashKey 0 384) (bytesOf o.toNat 32)
    let th := holding (ownVa 384) (2 ^ 48 - 1)
    let again := { th with brecs := [{ addr := ownVa 384, p := false, arr := true, ref := false }] }
    (∀ o' ∈ [o, { o with waiters := 1, observed := 1 }, { o with waiters := 1 }, { o with expected := 1 }, { o with waiters := 16, observed := 16, arrivals := 15 }],
      Issuing (s th o') 0 th ∧ OwnLine (s th o') th (ownVa 384) 32 384 line ∧ (s th o').barObj 0 384 = some o' ∧ (s th o').barWaiters 0 384 = []) ∧
    HasHandler th ∧ (Issuing (s again { o with waiters := 2, observed := 2 }) 0 again ∧ ∃ r, again.brec (ownVa 384) = some r ∧ r.p = o.phase ∧ r.arr = true) ∧
    (16 : Nat) ≤ 16 ∧ 16 < th.x[10].toNat ∧ o.expected + th.x[10].toNat < 2 ^ 48 ∧ 2 ^ 48 ≤ 1 + th.x[10].toNat ∧ o.waiters = 0 ∧
    ¬ met { o with waiters := 16, observed := 16, arrivals := 15 } ∧ met { o with waiters := 1, observed := 1, arrivals := 1 } := by
  refine ⟨?_, by unfold HasHandler; decide, ⟨⟨rfl, rfl, rfl, rfl, rfl⟩, _, rfl, rfl, rfl⟩, by decide, by decide, by decide, by decide, rfl,
    by unfold met; decide, by unfold met; decide⟩
  intro o' h
  simp only [List.mem_cons, List.not_mem_nil, or_false] at h
  rcases h with rfl | rfl | rfl | rfl | rfl <;> exact ⟨⟨rfl, rfl, rfl, rfl, rfl⟩, by unfold OwnLine; decide, by decide, by decide⟩

/-- No record, a record of the other phase, one of this phase before and after its deadline. -/
theorem witness_BarrierWaiting :
    let o : BarObj := { due := 4998, observed := 0, arrivals := 0, arrived := 0, phase := true, waiters := 1, expected := 0 }
    let s := fun (th : Thread) (o : BarObj) => (machine th).writeMem (stashKey 0 384) (bytesOf o.toNat 32)
    let rec_ := fun (p : Bool) => { holding (ownVa 384) 0 with brecs := [{ addr := ownVa 384, p := p, arr := true, ref := false }] }
    (∀ th ∈ [holding (ownVa 384) 0, rec_ true, rec_ false], Issuing (s th o) 0 th ∧ HasHandler th ∧ OwnLine (s th o) th (ownVa 384) 32 384 line ∧
      (s th o).barObj 0 384 = some o) ∧
    (holding (ownVa 384) 0).brec (ownVa 384) = none ∧ (∃ r, (rec_ false).brec (ownVa 384) = some r ∧ r.p ≠ o.phase) ∧
    (∃ r, (rec_ true).brec (ownVa 384) = some r ∧ r.p = o.phase) ∧ (o.due ≠ 0 ∧ o.due + 1 < (machine thread).clk) ∧
    ¬ ({ o with due := 4999 }.due ≠ 0 ∧ { o with due := 4999 }.due + 1 < (machine thread).clk) := by
  refine ⟨?_, rfl, ⟨_, rfl, by decide⟩, ⟨_, rfl, by decide⟩, by decide, by decide⟩
  intro th h
  simp only [List.mem_cons, List.not_mem_nil, or_false] at h
  rcases h with rfl | rfl | rfl <;> exact ⟨⟨rfl, rfl, rfl, rfl, rfl⟩, by unfold HasHandler; decide, by unfold OwnLine; decide, by decide⟩

/-! ### Floating point -/

theorem witness_FloatValues :
    (ratOf (.fin false 1 0) + ratOf (.fin true 1 0) = 0 ∧ (1 : Nat) ≠ 0) ∧ (∃ n i, numDiv (.fin false 1 0) (.fin false 3 0) = some (.fin false n i) ∧ n % 2 = 1) ∧
    (∃ n i, numDiv (.fin false 1 0) (.fin false 1 0) = some (.fin false n i) ∧ n % 2 = 0) ∧
    (∃ n i, numSqrt (.fin false 2 0) = some (.fin false n i) ∧ n % 2 = 1) ∧ (∃ n i, numSqrt (.fin false 1 0) = some (.fin false n i) ∧ n % 2 = 0) := by
  refine ⟨⟨by norm_num [ratOf], by decide⟩, ?_, ?_, ?_, ?_⟩
  · refine ⟨_, _, rfl, by decide⟩
  · refine ⟨_, _, rfl, by decide⟩
  · exact ⟨3109888511975, -41, by decide +kernel, by decide⟩
  · exact ⟨2199023255552, -41, by decide +kernel, by decide⟩

theorem witness_DirectedRounding : let x := Machine.Num.fin false 1 0
    finite (decodeNum .f32 (encodeNum .f32 .rdn x)) ∧ finite (decodeNum .f32 (encodeNum .f32 .rup x)) ∧ finite (decodeNum .f32 0x3F800000) ∧
    ratOf (decodeNum .f32 0x3F800000) ≤ ratOf x := by
  have h : decodeNum .f32 0x3F800000 = .fin false (2 ^ 23) (-23) := by decide
  have e : ∀ r ∈ [Rm.rdn, .rup], decodeNum .f32 (encodeNum .f32 r (.fin false 1 0)) = .fin false (2 ^ 23) (-23) := by decide
  refine ⟨by rw [e _ (by decide)]; trivial, by rw [e _ (by decide)]; trivial, by rw [h]; trivial, ?_⟩
  rw [h]; norm_num [ratOf]

/-- +0 against the least subnormal, equal values, a NaN on either side and on both. -/
theorem witness_FloatComparisons : Issuing (machine (holding 0 1)) 0 (holding 0 1) ∧
    lessNum (numOf .f32 0) (numOf .f32 1) ∧ ¬ lessNum (numOf .f32 0) (numOf .f32 0) ∧ sameNum (numOf .f32 0) (numOf .f32 0) ∧
    ¬ sameNum (numOf .f32 0) (numOf .f32 1) ∧ ¬ (lessNum (numOf .f32 1) (numOf .f32 0) ∨ sameNum (numOf .f32 1) (numOf .f32 0)) ∧
    numOf .f32 0x7F800001 = .nan ∧ numOf .f32 0 ≠ .nan := by
  have a : numOf .f32 0 = .fin false 0 (-149) := by decide
  have b : numOf .f32 1 = .fin false 1 (-149) := by decide
  refine ⟨issuing _ rfl rfl, ?_, ?_, ?_, ?_, ?_, by decide, by decide⟩ <;> simp only [a, b, lessNum, sameNum, ratOf] <;> norm_num

/-! ### Engines, system registers and traps -/

/-- Misaligned, in the own stash, a count of 0 and of 65; a declaration that passes, under each guard. -/
theorem witness_DeclarationOutcomes :
    let th := holding 0x1FC00 64
    (∀ th ∈ [holding 0x10200 1, holding (ownVa 1024) 1, holding 0x10000 0, holding 0x10000 65, holding 0x1FC00 64], Issuing (machine th) 0 th ∧ HasHandler th) ∧
    (holding 0x10200 1).x[9].toNat % 1024 ≠ 0 ∧ (holding (ownVa 1024) 1).x[9] = ownVa 1024 ∧ (holding 0x10000 0).x[10].toNat = 0 ∧ 64 < (holding 0x10000 65).x[10].toNat ∧
    GlobalAt (machine th) th 0x1FC00 1024 0x4FC00 true ∧ (∀ j, j < 8 → (machine th).regionAt (0x4FC00 + 128 * j) = none) ∧ th.x[10].toNat = 64 ∧
    guardOf th (some 1) = .ff ∧ guardOf th (some 2) = .unresolved ∧ guardOf th none = .tt ∧ Rejoining (machine (queued 0x1FC00 64)) 0 (queued 0x1FC00 64) := by
  refine ⟨?_, by decide, by decide, by decide, by decide, ⟨by decide, by decide, page, by decide⟩, fun j _ => rfl, by decide, by decide, by decide,
    by decide, rejoining _ _⟩
  intro th h
  simp only [List.mem_cons, List.not_mem_nil, or_false] at h
  rcases h with rfl | rfl | rfl | rfl | rfl <;> exact ⟨issuing _ rfl rfl, by unfold HasHandler; decide⟩

/-- A copy of one element, and e0 to e15 as CPY reads it. -/
def copying : Thread := { holding 7 0 with e := ((((thread.e.set 0 0x10000).set 1 (ownVa 384)).set 2 (BitVec.ofNat 64 (2 ^ 40 + 8))).set 14 0x31).set 15 (ownVa 416) }

theorem witness_CommandOutcomes :
    let full := fun (th : Thread) => withTile (machine th) { tile with mqueue := List.replicate 16 (command (.mclr false) none), cqueue := List.replicate 32 (command (.mclr false) none) }
    (∀ th ∈ [thread, holding (ownVa 131040) (ownVa 131040), holding 0x100FFFFFFFFFA0 0x0, holding 0x1FC00 63, copying], Issuing (machine th) 0 th) ∧
    Issuing (full thread) 0 thread ∧ guardOf thread (some 1) = .ff ∧ guardOf thread (some 2) ≠ .ff ∧ 16 ≤ ((full thread).tile 0).mqueue.length ∧
    32 ≤ ((full thread).tile 0).cqueue.length ∧ ((machine thread).tile 0).mqueue.length < 16 ∧
    (131040 % 32 = 0 ∧ 131040 < 2 ^ 17) ∧ Within (min 0 (15 * -96)) (max 0 (15 * -96)) = Within (-1440) 0 ∧
    Within (min (0x10000 : Int) (0x10000 + 15 * 96)) (max (0x10000 : Int) (0x10000 + 15 * 96) + 96) ∧ Within (0x1FC00 : Nat) ((0x1FC00 : Nat) + 1024) ∧
    (machine (holding 0x1FC00 63)).inWindow (holding 0x1FC00 63) 0x1FC00 1024 = false ∧ (holding 0x1FC00 63).x[10].toNat < 64 ∧
    ((copying.copyDesc none).2 = false ∧ (copying.copyDesc none).1.bytes ≤ 2 ^ 32 ∧ (copying.copyDesc none).1.misaligned = none ∧
      (machine copying).copyFault copying (copying.copyDesc none).1 = none) ∧
    ((copying.copyDesc (some 7)).2 = false ∧ (copying.copyDesc (some 7)).1.misaligned = none ∧
      (machine copying).copyFault copying (copying.copyDesc (some 7)).1 = none) ∧
    HasHandler thread ∧ (0x10010 : Nat) % 32 ≠ 0 ∧ (0x10400 : Nat) % 1024 = 0 ∧ (64 : Nat) ≤ 64 ∧ (localVa 384).toNat % 128 = 0 ∧
    thread.e[14].toNat % 16 = 0 ∧ 12 < (13 : Nat) := by
  refine ⟨?_, ⟨rfl, rfl, rfl, rfl, rfl⟩, by decide, by decide, by decide, by decide, by decide, by decide, by norm_num, by unfold Within; decide,
    by unfold Within; decide, by decide, by decide, by decide, by decide, by unfold HasHandler; decide, by decide, by decide, by decide, by decide,
    by decide, by decide⟩
  intro th h
  simp only [List.mem_cons, List.not_mem_nil, or_false] at h
  rcases h with rfl | rfl | rfl | rfl | rfl <;> exact issuing _ rfl rfl

theorem witness_RegisterReads :
    let firm := { thread with priv := true }
    Issuing (machine firm) 0 firm ∧ firm.priv = true ∧ HasHandler firm ∧ Issuing (machine thread) 0 thread ∧ thread.priv = false ∧ HasHandler thread :=
  ⟨issuing _ rfl rfl, rfl, by unfold HasHandler; decide, issuing _ rfl rfl, rfl, by unfold HasHandler; decide⟩

/-- The values at the bounds of the reserved fields of TCTL, TRAPC, STASHM and XSEL. -/
theorem witness_RegisterWrites :
    let firm := fun (v : Word) => { holding v 0 with priv := true }
    (∀ v ∈ [(3 : Word), 4, 0xFFFFFFFF, 0x100000000, 0x80000000, 0x90000000, 0x10000], Issuing (machine (firm v)) 0 (firm v) ∧ HasHandler (firm v) ∧ (firm v).priv = true) ∧
    (3 : Word).toNat < 4 ∧ ¬ (4 : Word).toNat < 4 ∧ (0xFFFFFFFF : Word).toNat < 2 ^ 32 ∧ ¬ (0x100000000 : Word).toNat < 2 ^ 32 ∧
    ((0x80000000 : Word).toNat / 2 ^ 16 % 2 ^ 12 = 0 ∧ (0x80000000 : Word).toNat / 2 ^ 28 ≤ 8) ∧ 8 < (0x90000000 : Word).toNat / 2 ^ 28 % 16 ∧
    (0x10000 : Word).toNat / 2 ^ 16 % 2 ^ 12 ≠ 0 ∧ thread.priv = false ∧
    thread.xsel.toNat / 2 ^ 28 % 16 = 0 ∧ (0x80000000 : Word).toNat / 2 ^ 28 % 16 ≠ 0 := by
  refine ⟨?_, by decide⟩
  intro v h
  simp only [List.mem_cons, List.not_mem_nil, or_false] at h
  rcases h with rfl | rfl | rfl | rfl | rfl | rfl | rfl <;> exact ⟨issuing _ rfl rfl, by unfold HasHandler; decide, rfl⟩

/-- A thread with a handler, one without, one in its handler. -/
theorem witness_TrapOutcomes :
    let none_ := { thread with tvec := 0 }
    let inside := { thread with trapc := BitVec.ofNat 64 (2 ^ 63) }
    let s := fun (th : Thread) => { machine th with launches := (windowed th).launches }
    Issuing (s thread) 0 thread ∧ HasHandler thread ∧ Issuing (s none_) 0 none_ ∧ none_.tvec = 0 ∧ Issuing (s inside) 0 inside ∧ inside.active = true ∧
    KMap.sorted (s none_).threads = true ∧ KMap.sorted (s inside).threads = true ∧ ((s inside).launch? 9).isSome = true :=
  ⟨⟨rfl, rfl, rfl, rfl, rfl⟩, by unfold HasHandler; decide, ⟨rfl, rfl, rfl, rfl, rfl⟩, rfl, ⟨rfl, rfl, rfl, rfl, rfl⟩, by decide, by decide, by decide, by decide⟩

theorem witness_ReturnAndHalt :
    let inside := { thread with trapc := BitVec.ofNat 64 (2 ^ 63) }
    let ended := { inside with cancel := some 0 }
    Issuing (machine inside) 0 inside ∧ inside.active = true ∧ inside.cancel = none ∧ Issuing (machine thread) 0 thread ∧ HasHandler thread ∧
    Issuing (windowed ended) 0 ended ∧ ended.active = true ∧ ended.cancel = some 0 ∧ KMap.sorted (windowed ended).threads = true ∧
    ((windowed ended).launch? ended.launch).isSome = true :=
  ⟨issuing _ rfl rfl, by decide, rfl, issuing _ rfl rfl, by unfold HasHandler; decide, ⟨rfl, rfl, rfl, rfl, rfl⟩, by decide, rfl, by decide, by decide⟩

/-- Guests without threads, whose next generation nothing holds and something holds; a guest with threads; numbers and addresses at the
ends of their ranges. -/
theorem witness_FirmwareOutcomes :
    let firm := fun (a b : Word) => { holding a b with priv := true }
    let busy := fun (s : State) (g : BitVec 8) => (∃ p ∈ s.threads, p.2.guest = g) ∨
      ∃ p ∈ s.launches, p.2.rcd.guest = g ∧ (p.2.status = .running ∨ p.2.status = .waiting)
    let used := { machine (firm 255 1) with owners := [(4, (255, 1))] }
    (∀ p ∈ [((255 : Word), (1 : Word)), (1, 256), (256, 255), (0x100000000000000, 1), (0x7FFFFFFFFF, 1), (0x8000000000, 1)],
      Issuing (machine (firm p.1 p.2)) 0 (firm p.1 p.2) ∧ HasHandler (firm p.1 p.2) ∧ (firm p.1 p.2).priv = true) ∧
    Issuing (machine thread) 0 thread ∧ HasHandler thread ∧ thread.priv = false ∧ Issuing used 0 (firm 255 1) ∧
    ((255 : Word).toNat < 256 ∧ ¬ busy (machine (firm 255 1)) 255 ∧ (machine (firm 255 1)).genHeld 255 (((machine (firm 255 1)).guest 255).gen + 1) = false) ∧
    (¬ busy used 255 ∧ used.genHeld 255 ((used.guest 255).gen + 1) = true) ∧ 256 ≤ (256 : Word).toNat ∧ busy (machine (firm 1 256)) 1 ∧
    ((255 : Word).toNat < 256 ∧ topByte 0x100000000000000 ≠ 0 ∧ topByte 0x7FFFFFFFFF = 0 ∧ ((machine thread).guest 1).len ≠ 0) ∧
    (0x7FFFFFFFFF : Word).toNat < 2 ^ 39 ∧ 2 ^ 39 ≤ (0x8000000000 : Word).toNat := by
  refine ⟨?_, issuing _ rfl rfl, by unfold HasHandler; decide, rfl, ⟨rfl, rfl, rfl, rfl, rfl⟩, by decide, by decide, by decide, by decide, by decide, by decide⟩
  intro p h
  simp only [List.mem_cons, List.not_mem_nil, or_false] at h
  rcases h with rfl | rfl | rfl | rfl | rfl | rfl <;> exact ⟨issuing _ rfl rfl, by unfold HasHandler; decide, rfl⟩

/-- A timed launch record of the guest at 0x10000, and a record of zeros; WALL at and before the time that x9 holds. -/
def timedRecord : Line := (List.range 64).map (fun j => match j with
  | 2 => 1 | 8 => 8 | 24 => 128 | 26 => 1 | 32 => 1 | 36 => 16 | 37 => 1 | 38 => 1 | 40 => 100 | 48 => 5 | 52 => 2 | 53 => 3 | 56 => 9 | _ => 0)
theorem witness_ConvoyInstructions :
    let th := holding 0x10000 0
    let zeros := mapped (machine th) 1 4
    let s := zeros.writeMem 0x40000 timedRecord
    let b := s.cohRead 0x40000 64
    Issuing s 0 th ∧ Issuing zeros 0 th ∧ HasHandler th ∧ GlobalAt s th 0x10000 64 0x40000 false ∧ Clear s 0 th (.global 0x10000 0x40000) 0x10000 64 ∧
    s.deadDies = [] ∧ s.errorAt (0x40000 / 128) th.guest = none ∧
    (s.recordFault b th.guest = none ∧ (Record.ofBytes b).kind = 0 ∧ (Record.ofBytes b).timed = true ∧ (Record.ofBytes b).guest = th.guest ∧ s.armLimit th.guest = false) ∧
    (Record.ofBytes (zeros.cohRead 0x40000 64)).timed = false ∧ (0 : Word).toNat ≤ zeros.wall.toNat ∧ zeros.wall.toNat < (1 : Word).toNat :=
  ⟨⟨rfl, rfl, rfl, rfl, rfl⟩, ⟨rfl, rfl, rfl, rfl, rfl⟩, by unfold HasHandler; decide, ⟨by decide, by decide, page, by decide⟩, by unfold Clear; decide, rfl,
    by decide, by decide, by decide, by decide, by decide⟩

/-! ### Events of threads -/

def waiting (w : Wait) : Thread := { thread with wait := w }
def emptied (done : Nat) (w : Wait) : Thread := { waiting w with transit := some { regs := Vector.replicate 16 3, base := 64, done := done } }
def gathering : Gather :=
  { i := .nop16, op := .add, w := .d, d := .k 5, a := 0, b := 0, phase := .elements, n := 0, addrs := [], width := 8, pas := [], got := [], atOnce := false, base := 0, force := [] }
def barrierObject : BarObj := { due := 4999, observed := 0, arrivals := 0, arrived := 0, phase := false, waiters := 2, expected := 0 }

theorem witness_WaitEvents :
    (∀ w, (machine (waiting w)).thread? 0 = some (waiting w)) ∧
    ((machine (emptied 14 .none)).thread? 0 = some (emptied 14 .none) ∧ 14 < 15) ∧
    ((machine (emptied 15 .none)).thread? 0 = some (emptied 15 .none) ∧ (emptied 15 .none).wait ≠ .transit) ∧
    ((machine (emptied 15 .transit)).thread? 0 = some (emptied 15 .transit) ∧ (emptied 15 .transit).wait = .transit) ∧
    (∃ v, gathering.next = .result v) ∧ 5000 ≤ (machine thread).clk ∧ 0 ≤ (machine thread).wall ∧ thread.stopped = false ∧
    (let s := withTile (machine (waiting (.tlb .nop16 0x10040))) { tile with tlb := [{ page with slot := 0 }] }
     s.thread? 0 = some (waiting (.tlb .nop16 0x10040)) ∧ s.tlbFind (s.tile 0).tlb 0 1 0x10040 = some { page with slot := 0 }) ∧
    (machine thread).tlbFind ((machine thread).tile 0).tlb 0 1 0x10040 = none ∧ (machine thread).walk 1 0x10040 = .none ∧
    (let s := withTile (machine (waiting (.fetchTlb 0x10040))) { tile with tlb := [{ page with slot := 0 }] }
     s.tilePage 0 1 0x10040 = .page { page with slot := 0 }) ∧
    (let late := { waiting (.fetchTlb 0x10040) with dist := 65537 }
     (machine thread).tilePage 0 1 0x10040 = .none ∧ thread.dist ≤ (machine thread).distOf thread ∧ (machine late).distOf late < late.dist ∧ HasHandler late) := by
  refine ⟨fun _ => rfl, ⟨rfl, by decide⟩, ⟨rfl, by decide⟩, ⟨rfl, rfl⟩, ⟨_, rfl⟩, by decide, by decide, rfl, ⟨rfl, by decide⟩, by decide, by decide,
    by decide, by unfold HasHandler; decide⟩

def barred (w : Wait) : State := (machine (waiting w)).writeMem (stashKey 0 384) (bytesOf barrierObject.toNat 32)
def armed (w : Wait) : Thread := { waiting w with mons := #v[{ arm := 7, signal := none }, { arm := 0, signal := none }, { arm := 0, signal := none }, { arm := 0, signal := none }] }
def parked : StashReq :=
  { who := .thread 0, src := 0, rid := 44, va := 0, tile := 0, off := 384, what := .ldf, clock := 0, guest := 1, op := 0, refusals := 0, own := true }
/-- A tile's core 0 holds seven threads of the guest and its other cores none, beyond the courier's threshold for 4096 cycles. -/
def crowded : State :=
  { machine thread with
    threads := (List.range 7).map (fun k => (k, { thread with place := some (k + 1), home := k + 1 }))
    launches := [(9, loadUnit)], tiles := [(0, { tile with high := [(0, 5000)] })] }

theorem witness_ThreadEvents :
    (Issuing (machine thread) 0 thread ∧ HasHandler thread) ∧
    (let w := Wait.barrier 0x8000000000000180 true
     (barred w).thread? 0 = some (waiting w) ∧ (barred w).resident 0 (0x8000000000000180 % 2 ^ 17) ≠ none ∧ ((barred w).tile 0).fillWait = [] ∧
     ∃ o, (barred w).barObj 0 (0x8000000000000180 % 2 ^ 17) = some o ∧ o.due ≠ 0 ∧ o.due < (barred w).clk) ∧
    ((machine (armed .none)).armStands 0 0 7 = true ∧ (machine (armed .none)).frozen (12800 / 128) = false ∧
      (machine (armed .none)).deadDies.contains (homeDie 12800) = false ∧
      (0 : Word) < (((machine thread).modLine 100 (fun l => { l with wts := 1 })).line (12800 / 128)).wts) ∧
    ((armed .none).mons[0].arm = 7 ∧ (7 : Nat) ≠ 0 ∧ (armed .none).halted = false ∧ (∀ d, (armed .none).wait ≠ .monitor d) ∧ (armed .none).mons[0].arm ≠ 8) ∧
    (armed (.monitor none)).mons[0].arm = 7 ∧ KMap.sorted (machine thread).threads = true ∧
    (coreOf (waiting (.rdv 5 3 12 10)).home = 0 ∧ (waiting (.rdv 5 3 12 10)).guest = 1) ∧
    (∀ p ∈ (machine thread).tiles, p.2.fillWait = [] ∧ ∀ c ∈ p.2.mrun ++ p.2.crun, c.tid ≠ 0) ∧
    ((machine thread).tables = [] ∧ (machine thread).deadDies = [] ∧ (machine thread).holding 77 = false ∧ ((machine thread).line 77).holder = none) ∧
    (∀ p ∈ crowded.threads, p.2.ready = false) ∧
    ((crowded.tile 0).courierDue crowded.clk 0 = true ∧ ∃ t slot th, crowded.courierFrom (0 * 16) = some (t, slot) ∧ crowded.thread? t = some th) ∧
    (let th := { waiting (.fullEmpty 44 none 0x123) with cancel := some 1 }
     let s := withTile (machine th) { tile with park := [{ Parked.mk 0 parked with req := parked }] }
     s.thread? 0 = some th ∧ HasHandler th ∧ ∃ p ∈ s.tiles, ∃ x ∈ p.2.park, reqOf x.req 0 44 = true) := by
  refine ⟨⟨issuing _ rfl rfl, by unfold HasHandler; decide⟩, ⟨rfl, by decide, rfl, ((barred .none).barObj 0 384).getD barrierObject, by decide, by decide, by decide⟩, by decide,
    ⟨rfl, by decide, rfl, fun _ => nofun, by decide⟩, rfl, by decide, ⟨by decide, rfl⟩, by decide, ⟨rfl, rfl, by decide, rfl⟩, by decide, ⟨by decide, ?_⟩, ?_⟩
  · exact ⟨((crowded.courierFrom 0).getD (0, 0)).1, ((crowded.courierFrom 0).getD (0, 0)).2,
      (crowded.thread? ((crowded.courierFrom 0).getD (0, 0)).1).getD thread, by decide, by decide⟩
  · exact ⟨rfl, by unfold HasHandler; decide, (0, _), List.mem_singleton.2 rfl, _, List.mem_singleton.2 rfl, by decide⟩

/-! ### Events of memory -/

/-- An access of thread 0 at the end of a line. -/
def access (pa n : Nat) : Access := { who := .thread 0, rid := 44, va := BitVec.ofNat 64 pa, pa := pa, n := n, clock := 5, guest := 1, core := 0 }
def ofHolder (pa : Nat) : State := (machine thread).modLine (pa / 128) (fun l => { l with holder := some (17, 5) })
def written (line : Nat) : WriteBack :=
  { tile := 17, idx := 3, line := line, data := List.replicate 128 7, fe := 0x55, stamp := 9, reg := 5, drop := true, op := 9, bad := none }

theorem calm (pa : Nat) : Calm (machine thread) pa := by unfold Calm NoTable; exact ⟨rfl, rfl, rfl, rfl, rfl, rfl, fun _ _ => ⟨rfl, rfl⟩⟩
theorem noTable (l : Nat) : NoTable (machine thread) l := fun _ _ => ⟨rfl, rfl⟩
theorem alive (pa : Nat) : Alive (machine thread) pa 1 := ⟨rfl, rfl⟩

/-- Accesses that end with their line: a load of 128 bytes, of 8 and of 4; a line that a stash holds, and one that none does. -/
theorem witness_HomeEvents :
    (∀ p ∈ [(0x40000, 128), (0x40078, 8), (0x4007C, 4)], (access p.1 p.2).who = .thread 0 ∧ (access p.1 p.2).pa % 128 + (access p.1 p.2).n ≤ 128 ∧
      Alive (machine thread) (access p.1 p.2).pa (access p.1 p.2).guest ∧ Calm (machine thread) (access p.1 p.2).pa ∧
      (access p.1 p.2).gaps = [] ∧ (machine thread).readsList (access p.1 p.2).who (access p.1 p.2).rid = false) ∧
    NoTable (ofHolder 0x40078) 2048 ∧
    (Alive (ofHolder 0x40078) 0x40078 1 ∧ (ofHolder 0x40078).holding (0x40078 / 128) = false ∧ ((ofHolder 0x40078).line (0x40078 / 128)).sum = none ∧
      ((ofHolder 0x40078).line (0x40078 / 128)).holder = some (17, 5)) ∧
    (List.replicate 8 7).length = (access 0x40078 8).n ∧
    (let bs : Line := List.replicate 8 7
     bs ≠ [] ∧ 0x7FFFFFFFF8 % 128 + bs.length ≤ 128 ∧ 0x7FFFFFFFF8 < 2 ^ 39 ∧ Calm (machine thread) 0x7FFFFFFFF8) ∧
    ((written 2048).data.length = 128 ∧ (written 2048).bad = none ∧ (ofHolder 0x40078).regionAt (2048 * 128) = none ∧
      ((ofHolder 0x40078).line 2048).held = [] ∧ ((ofHolder 0x40078).line 2048).holder = some ((written 2048).tile, (written 2048).reg) ∧
      ((ofHolder 0x40078).line 2049).held = [] ∧ ((ofHolder 0x40078).line 2049).holder ≠ some ((written 2048).tile, (written 2048).reg)) ∧
    (∃ e, (mapped (machine thread) 1 4).walk 1 (0x1FFF8 % 2 ^ 56) = .page e ∧ Alive (mapped (machine thread) 1 4) 0x40000 1) := by
  refine ⟨?_, fun _ _ => ⟨rfl, rfl⟩, ⟨⟨rfl, by decide⟩, by decide, by decide, by decide⟩, by decide, ⟨by decide, by decide, by decide, calm _⟩,
    ⟨by decide, by decide, by decide, by decide, by decide, by decide, by decide⟩, ?_⟩
  · intro p h
    simp only [List.mem_cons, List.not_mem_nil, or_false] at h
    rcases h with rfl | rfl | rfl <;> exact ⟨rfl, by decide, alive _, calm _, rfl, by decide⟩
  · exact ⟨match (mapped (machine thread) 1 4).walk 1 (0x1FFF8 % 2 ^ 56) with | .page e => e | _ => page, by decide, rfl, by decide⟩

def loadTo (d : Reg) : LoadInto := { dst := .reg d, n := 8, signed := false, va := 0x1FFF8 }
def reply (kind : LoadKind) (err : Option Refused) : LoadReply :=
  { who := .thread 0, rid := 44, line := 0x40000 / 128, data := List.replicate 128 7, wts := 900, rts := 2100, kind := kind, err := err }
def answer (op : Nat) : AtomicReply := { who := .thread 0, rid := 44, op := op, old := 7, done := true, wts := 900, err := none }
def posting (w : Wait) (tag : BitVec 32) : State := { machine (waiting w) with tagged := [store tag 0x10000] }

theorem lastAck (w : Wait) (tag : BitVec 32) : LastAck (posting w tag) 9 0 := by
  intro x h
  have e : (posting w tag).tagged.find? (fun (x : Tagged) => x.op == 9) = some (store tag 0x10000) := rfl
  rw [e] at h
  cases h
  exact ⟨rfl, rfl, rfl⟩

theorem noAck (s : State) (t : Nat) (h : s.tagged = []) : LastAck s 0 t := by intro x e; rw [h] at e; cases e

/-- A stash whose lines 3 and 4 are resident, and line 5 is not. -/
def backed : Tile := { tile with map := [(0, { va := 0x10000, pa := 0x50000 })], filling := [5] }
def stashed : State := withTile (machine thread) backed
/-- A full-empty instruction that has met a full park table. -/
def refusedAt (k : Nat) : StashReq := { parked with refusals := k, va := 0x123, own := false }
/-- The stash of another tile. -/
def remote (w : StashOp) (op rid : Nat) : StashReq := { parked with rid := rid, off := 384 + 120, what := w, op := op, own := false }

theorem witness_MessageEvents :
    (∀ w, (machine (waiting w)).thread? 0 = some (waiting w) ∧ (waiting w).halted = false) ∧ HasHandler thread ∧
    ((reply .core none).who = .thread 0 ∧ (reply .core none).rid ≠ 0 ∧ (reply .core none).kind = .core ∧ (reply .core none).err = none) ∧
    (∃ e, (reply .core (some e)).err = some e) ∧
    (9 ≠ 0 ∧ LastAck (posting .none 3) 9 0 ∧ (∃ x ∈ (posting .none 3).tagged, x.op = 9) ∧ (waiting .none).wait = .none) ∧
    (LastAck (posting (.ackTag 3) 3) 9 0 ∧ (∃ x ∈ (posting (.ackTag 3) 3).tagged, x.op = 9 ∧ x.tag = 3) ∧
      (∀ y ∈ (posting (.ackTag 3) 3).tagged, y.tid = 0 → y.tag = 3 → y.engine = none → y.op = 9)) ∧
    ((answer 0).rid ≠ 0 ∧ LastAck (machine thread) (answer 0).op 0 ∧ LastAck (posting (.atomic 44 (.k 5) 4 true 2) 3) (answer 9).op 0) ∧
    (stashed.stashLine? 0 5 = none ∧ (∃ pa, stashed.backingPa 0 (5 * 128) (stashed.bankGuest 0 (5 * 128)) = some pa) ∧ (stashed.tile 0).fillWait = [] ∧
      (∀ p ∈ (stashed.tile 0).park, p.off / 128 ≠ 5) ∧
      ∀ p ∈ stashed.threads, ∀ va i, p.2.wait ≠ .fill 0 5 va i) ∧
    (stashed.stashIndex 0 1000 = some 3 ∧ stashed.stashLine? 0 3 = some line ∧ KMap.sorted stashed.stash = true ∧
      (∃ d st, stashed.holderData 0 1000 line.reg = some (d, st, false)) ∧ line.poison = false) ∧
    ((remote (.load 8) 0 44).off % 128 + 8 ≤ 128 ∧ stashed.resident 0 (remote (.load 8) 0 44).off = some line ∧
      stashed.bankOk 0 (remote (.load 8) 0 44).off 1 = true ∧ (stashed.tile 0).park = [] ∧ (remote (.load 8) 0 44).op = 0 ∧
      (remote (.store 8 7) 9 0).op ≠ 0 ∧ (remote (.store 8 7) 9 0).rid = 0) ∧
    ((refusedAt 0).rid ≠ 0 ∧ thread.hasPending = false ∧ (∀ o ∈ (machine thread).peerOut, o.rid ≠ (refusedAt 0).rid) ∧ (refusedAt (((machine thread).tile 0).feretry - 2)).refusals + 1 < ((machine thread).tile 0).feretry ∧
      ((machine thread).tile 0).feretry ≤ (refusedAt (((machine thread).tile 0).feretry - 1)).refusals + 1 ∧
      (refusedAt 0).own = false ∧ ∀ v, (machine thread).spaceOf (refusedAt 0).va ≠ .peerStash v) ∧
    (let s := { machine thread with migrating := [(20, 1)] }
     s.Canonical ∧ s.tables = [] ∧ (∀ p ∈ s.tiles, p.2.commands = []) ∧ KMap.sorted s.frames = true ∧ (20, 2) ∉ s.migrating ∧ (20, 1) ∈ s.migrating ∧ s.heldLines 20 1 = [] ∧ (20 + 1 ≤ 21 ∨ 21 + 1 ≤ 20) ∧ (21 + 1 ≤ 20 ∨ 20 + 1 ≤ 21)) := by
  refine ⟨fun _ => ⟨rfl, rfl⟩, by unfold HasHandler; decide, by decide, ⟨{ cause := 4, detail := 6, addr := 0 }, rfl⟩,
    ⟨by decide, lastAck _ _, ⟨_, List.mem_singleton.2 rfl, rfl⟩, rfl⟩, ⟨lastAck _ _, ⟨_, List.mem_singleton.2 rfl, rfl, rfl⟩, by decide⟩,
    ⟨by decide, noAck _ _ rfl, lastAck _ _⟩, ⟨by decide, ⟨(stashed.backingPa 0 (5 * 128) (stashed.bankGuest 0 (5 * 128))).getD 0, by decide⟩, rfl, by decide, ?_⟩,
    ⟨by decide, by decide, by decide, ?_, rfl⟩, by decide, ⟨by decide, by decide, by decide, by decide, by decide, rfl, ?_⟩, ⟨⟨by decide, by unfold State.Orderly; decide⟩, rfl, by decide, by decide, by decide, by decide, by decide, by decide, by decide⟩⟩
  · intro p h va i
    have e : stashed.threads = [(0, thread), (3, { thread with place := some 8, home := 8 })] := rfl
    rw [e] at h
    simp only [List.mem_cons, List.not_mem_nil, or_false] at h
    rcases h with rfl | rfl <;> nofun
  · exact ⟨((stashed.holderData 0 1000 line.reg).getD default).1, ((stashed.holderData 0 1000 line.reg).getD default).2.1, by decide⟩
  · have e : (machine thread).spaceOf (refusedAt 0).va = .global := by decide
    intro v
    rw [e]
    nofun

theorem witness_WaitAnswers :
    (∀ w, (machine (waiting w)).thread? 0 = some (waiting w) ∧ (waiting w).halted = false) ∧
    (LastAck (posting (.fence .dev) 3) 9 0 ∧ (∃ x ∈ (posting (.fence .dev) 3).tagged, x.op = 9) ∧
      ∀ y ∈ (posting (.fence .dev) 3).tagged, y.tid = 0 → y.engine = none → y.op = 9) ∧
    ((reply .ldc none).who = .thread 0 ∧ (reply .ldc none).rid = 44 ∧ (reply .ldc none).kind = .ldc ∧ (reply .acq none).kind = .acq ∧
      (reply .acq none).err = none) ∧
    ((answer 0).who = .thread 0 ∧ (answer 0).rid ≠ 0 ∧ (answer 0).op = 0 ∧ (answer 0).err = none) ∧
    (let child := { thread with parent := some 3 }
     let p := { thread with place := some 8, home := 8, wait := .reap (.k 5) 7 }
     let s := { machine child with threads := [(0, child), (3, p)] }
     Issuing s 0 child ∧ KMap.sorted s.threads = true ∧ child.parent = some 3 ∧ (3 : Nat) ≠ 0 ∧ s.thread? 3 = some p ∧ p.wait = .reap (.k 5) (slotIn child.home) ∧
       s.outstanding 0 = []) :=
  ⟨fun _ => ⟨rfl, rfl⟩, ⟨lastAck _ _, ⟨_, List.mem_singleton.2 rfl, rfl⟩, by decide⟩, by decide, by decide,
    ⟨⟨rfl, rfl, rfl, rfl, rfl⟩, by decide, rfl, by decide, rfl, by decide, by decide⟩⟩

/-! ### Events of engines, launches, the round, convoys and the device -/

def running (k : CmdKind) : Cmd := command k none
/-- Tile 0 with its matrix unit owned by guest 1 and both latches A0 and B0 full. -/
def withMatrix (f : Tile → Tile) : State :=
  withTile (machine thread) (f { tile with mx := { MatrixState.init with a0 := ⟨.full, [], none⟩, b0 := ⟨.full, [], none⟩ }, mxOwner := some 1 })
def oneCopy : CopyDesc := { src := 0x10000, dst := 0x10100, dims := [(4, 8)], destSide := false, esize := 8, bar := none, pattern := none }
def summing (parts next : Nat) : State :=
  (machine thread).modLine 2048 (fun l => { l with sum := some { parts := parts, next := next, acc := List.replicate 32 0, early := [], top := 200, parked := [] } })

theorem witness_SumModeEvents :
    (∀ pa, (machine thread).deadDies.contains (homeDie pa) = false) ∧ (access 0x40000 128).who = .thread 0 ∧
    (∀ j, j < 8 → ((machine thread).line (2048 + j)).holder = none ∧ (machine thread).holding (2048 + j) = false ∧ ((machine thread).line (2048 + j)).sum = none) ∧
    (let a := { access 0x40000 128 with who := .engine 0 5 }
     (∀ p ∈ [(64, 62), (64, 63)], (summing p.1 p.2).deadDies.contains (homeDie a.pa) = false ∧ (summing p.1 p.2).holding (a.pa / 128) = false ∧
       ∃ m, ((summing p.1 p.2).line (a.pa / 128)).sum = some m ∧ m.early = [] ∧ m.next = p.2 ∧ m.parts = p.1 ∧ m.parked = []) ∧
     a.who = .engine 0 5 ∧ 62 + 1 < 64 ∧ 63 + 1 = 64 ∧ 63 < 64 ∧ (summing 64 63).regionAt (a.pa / 128 * 128) = none ∧ NoTable (summing 64 63) (a.pa / 128) ∧ 61 < 62 ∧ 64 ≤ 64) := by
  refine ⟨fun _ => rfl, rfl, fun j _ => ⟨rfl, rfl, rfl⟩, ⟨?_, rfl, by decide, by decide, by decide, by decide, fun _ _ => ⟨rfl, rfl⟩, by decide, by decide⟩⟩
  intro p h
  simp only [List.mem_cons, List.not_mem_nil, or_false] at h
  rcases h with rfl | rfl <;> exact ⟨rfl, by decide, _, rfl, rfl, rfl, rfl, rfl⟩

theorem witness_EngineEvents :
    (let c := running (.mma .bf16 false false)
     let s := withMatrix (fun x => { x with mqueue := [c] })
     (s.tile 0).mqueue = [c] ∧ c.kind = .mma .bf16 false false ∧ s.dispatches 0 c = true ∧ s.thread? c.tid = some thread ∧ thread.halted = false ∧
       thread.wait = .none) ∧
    (∀ k ∈ [CmdKind.stageA false 0 0, .stageB true 0 0, .mma .bf16 true false, .mclr true, .mflush true 0x10000, .mflushSum true 0x10000 63],
      Running (withMatrix (fun x => { x with mrun := [running k] })) 0 (running k) k ∧
      ((withMatrix (fun x => { x with mrun := [running k] })).tile 0).mqueue = [] ∧ (running k).reqs = []) ∧
    (((withMatrix id).tile 0).mxOwner = some 1 ∧ (1 : BitVec 8) ≠ 2 ∧ KMap.sorted ((withMatrix id).tile 0).mxSaved = true) ∧
    (let c := running (.copy oneCopy)
     let s := withMatrix (fun x => { x with cqueue := [c] })
     (s.tile 0).cqueue = [c] ∧ (s.tile 0).crun = [] ∧ c.kind = .copy oneCopy ∧ oneCopy.bar = none ∧ oneCopy.count ≠ 0 ∧ c.held = none ∧ s.blocked 0 c = false ∧
       ((withMatrix (fun x => { x with crun := [c] })).tile 0).crun = [c]) := by
  refine ⟨⟨rfl, rfl, by decide, rfl, rfl, rfl⟩, ?_, ⟨rfl, by decide, by decide⟩, ⟨rfl, rfl, rfl, rfl, by decide, rfl, by decide, rfl⟩⟩
  intro k h
  simp only [List.mem_cons, List.not_mem_nil, or_false] at h
  rcases h with rfl | rfl | rfl | rfl | rfl | rfl <;> exact ⟨⟨rfl, rfl, rfl⟩, rfl, rfl⟩

def launching (placed : Nat) : Launch := { loadUnit with rcd := { loadUnit.rcd with code := 0x2000, done := 0x10040, units := 5 }, placed := placed }
/-- A queue of four records of zeros, and one of a whole launch record. -/
def ringOf (b : List Byte) : Queue :=
  { guest := 1, ringExp := 2, ring := (List.range 4).map (fun j => (j, b)), tail := 0, head := 0xFFFFFFFE, qIndex := 0, qField := 0, qNoop := false
    qStop := false, qStatus := 0 }
def launchRecord : List Byte := (List.range 64).map (fun j => match j with | 2 => 1 | 24 => 64 | 26 => 1 | 32 => 5 | 36 => 4 | 37 => 1 | 40 => 100 | _ => 0)
def hosted (b : List Byte) : State := mapped { machine thread with booted := true, queues := [(3, ringOf b)] } 1 4

theorem witness_LaunchEvents :
    (let s := withTile { machine thread with launches := [(9, launching 4)] } { tile with current := some 1 }
     s.launch? 9 = some (launching 4) ∧ (launching 4).status = .running ∧ (launching 4).cancelled = false ∧ (launching 4).placed < (launching 4).rcd.units ∧
       ∃ slot, s.placeFor 9 (launching 4) = some slot ∧ s.mayEnter slot 1 = true ∧ (s.tile (tileOf slot)).current = some 1) ∧
    (let s := mapped { machine thread with threads := [], launches := [(9, launching 5)] } 1 4
     s.launch? 9 = some (launching 5) ∧ s.launchDone 9 = true ∧ (launching 5).cancelled = false ∧ (launching 5).faulted = false ∧
       (∃ e, s.walk 1 (0x10040 % 2 ^ 56) = .page e) ∧ ∀ p ∈ s.launches, p.2.status ≠ .waiting) ∧
    (let s := { machine thread with threads := [(0, thread)], launches := [(9, launching 5)] }
     s.threads = [(0, thread)] ∧ s.launches = [(9, launching 5)] ∧ (launching 5).status = .running ∧ thread.launch = 9 ∧ thread.halted = false ∧ thread.wait = .none) ∧
    (let zeros := List.replicate 64 (0 : Byte)
     KMap.get? (hosted zeros).queues 3 = some (ringOf zeros) ∧ (hosted zeros).booted = true ∧ (ringOf zeros).qStop = false ∧ (ringOf zeros).head ≠ (ringOf zeros).tail ∧
       ∃ f, (hosted zeros).recordFault ((ringOf zeros).record ((ringOf zeros).head.toNat % 2 ^ (ringOf zeros).ringExp)) 1 = some f) ∧
    (let x := ringOf launchRecord
     (hosted launchRecord).recordFault (x.record (x.head.toNat % 2 ^ x.ringExp)) 1 = none ∧ (Record.ofBytes launchRecord).kind = 0 ∧
       (Record.ofBytes launchRecord).timed = false) ∧
    ((2 : Word).toNat < 2 ^ 32 ∧ ((2 : Word).setWidth 32 - (0xFFFFFFFE : BitVec 32)).toNat ≤ 2 ^ 2 ∧ 2 ^ 2 < ((3 : Word).setWidth 32 - (0xFFFFFFFE : BitVec 32)).toNat ∧
      2 ^ 32 ≤ (0x100000000 : Word).toNat ∧ (0x200 : Word).toNat / 2 ^ 9 % 2 ^ 15 ≠ 0 ∧ (0x800000 : Word).toNat / 2 ^ 9 % 2 ^ 15 ≠ 0) ∧
    (let x := { ringOf launchRecord with qStop := true }
     KMap.get? ({ machine thread with queues := [(3, x)] } : State).queues 3 = some x ∧ x.qStop = true) := by
  refine ⟨⟨rfl, rfl, rfl, by decide, ?_⟩, ⟨rfl, by decide, rfl, rfl, ?_, by decide⟩, ⟨rfl, rfl, rfl, rfl, rfl, rfl⟩, ⟨rfl, rfl, rfl, by decide, ?_⟩, by decide, by decide,
    ⟨rfl, rfl⟩⟩
  · exact ⟨((withTile { machine thread with launches := [(9, launching 4)] } { tile with current := some 1 }).placeFor 9 (launching 4)).getD 0, by decide⟩
  · exact ⟨match (mapped (machine thread) 1 4).walk 1 (0x10040 % 2 ^ 56) with | .page e => e | _ => page, by decide⟩
  · exact ⟨((hosted (List.replicate 64 0)).recordFault (List.replicate 64 0) 1).getD .badField, by decide⟩

def noted (w : Work) : Pending :=
  { due := 6000, cls := 0, lodge := 0, prio := 0, seq := 0, chan := (0, 0), cur := 3, turn := 0, note := 0, unpaid := none, incarn := none, held := false, work := w }

theorem witness_RoundEvents :
    ((machine thread).paused = false ∧ (machine thread).drained = true) ∧
    (let s := { machine thread with turn := 1, agenda := [noted (.event (.loadReply (reply .core none)))] }
     s.paused = false ∧ s.drained = false) ∧
    KMap.sorted (machine thread).stash = true ∧ KMap.sorted (machine thread).tiles = true ∧ ({ machine thread with paused := true } : State).paused = true ∧
    (∀ p ∈ (machine thread).tiles, p.1 ≠ 0 → p.2.phase = .unpacked) ∧ (∀ p ∈ (machine thread).tiles, p.2.crun = []) ∧
    (∃ p, p ∈ ({ machine thread with agenda := [noted (.event .resume)] } : State).agenda) ∧ (∀ p ∈ (machine thread).agenda, p.unpaid = none) ∧
    (∃ n, ((machine thread).tile 0).smallestPass ((machine thread).runnableGuests 0) = some n) ∧
    (({ machine thread with stash := [] } : State).stash = [] ∧ ({ machine thread with stash := [] } : State).owners = [] ∧
      ∀ p ∈ (machine thread).threads, ∀ g, p.2.wait ≠ .genbump g) ∧
    (0, { tile with guests := [(1, TileGuest.init)] }) ∈ (withTile (machine thread) { tile with guests := [(1, TileGuest.init)] }).tiles := by
  refine ⟨by decide, by decide, by decide, by decide, rfl, by decide, by decide, ⟨_, List.mem_singleton.2 rfl⟩, by decide, ?_, ⟨rfl, rfl, ?_⟩,
    List.mem_singleton.2 rfl⟩
  · exact ⟨(((machine thread).tile 0).smallestPass ((machine thread).runnableGuests 0)).getD 0, by decide⟩
  · intro p h g
    have e : (machine thread).threads = [(0, thread), (3, { thread with place := some 8, home := 8 })] := rfl
    rw [e] at h
    simp only [List.mem_cons, List.not_mem_nil, or_false] at h
    rcases h with rfl | rfl <;> nofun

def timed : Record := { loadRecord with guest := 1, convoy := 77, timed := true, leader := 3, ndev := 2, when := 800, skew := 40, dist := 100 }
def convoy : Convoy := { Convoy.start timed with leader := 3 }
/-- The pod's clock is kept, and the launch of thread 0 belongs to the convoy. -/
def inPod (v : Convoy) (th : Thread) : State :=
  { machine th with
    clk := 5000000, wall := 900, synced := true, hold := false, dev := 1, convoys := [v], threads := [(0, th)]
    launches := [(9, { loadUnit with rcd := timed })], armed := [{ rcd := timed, queue := none, index := 0, number := 12, fired := false }] }

theorem witness_ConvoyEvents :
    (convoy.guest = 1 ∧ convoy.id = 77 ∧ (inPod convoy thread).convoys = [convoy]) ∧
    (let s := { inPod convoy thread with offset := -40 }
     s.synced = true ∧ timed.guest = 1 ∧ timed.convoy = 77 ∧ timed.when ≤ s.wall ∧ s.hold = false ∧ s.offset.natAbs ≤ timed.skew ∧ timed.leader ≠ s.dev ∧
       ({ s with hold := true } : State).hold = true ∧ timed.when ∉ convoy.dropped) ∧
    (let x : Control := { rcd := { timed with kind := 1, when := 900 }, queue := 3, index := 0 }
     let s := { inPod convoy thread with controls := [x] }
     x.rcd.guest = 1 ∧ x.rcd.convoy = 77 ∧ x.rcd.when ≤ s.wall ∧ s.mustAgree 1 = false ∧ s.convoyLive 1 77 = true ∧ convoy.action = none ∧ x.rcd.kind = 1 ∧ convoy.tp = none) ∧
    (let v := { convoy with tp := some 600, stopped := true }
     let x : Control := { rcd := { timed with kind := 2, when := 900 }, queue := 3, index := 0 }
     let s := { inPod v thread with controls := [x], threads := [] }
     x.rcd.kind = 2 ∧ x.rcd.when ≤ s.wall ∧ s.convoyLive 1 77 = true ∧ v.action = none ∧ v.tp ≠ none ∧
       (∀ p ∈ s.threads, s.convoyOf p.2 ≠ some 77 ∨ p.2.guest ≠ 1) ∧ s.walk 1 (x.rcd.done.toNat % 2 ^ 56) = .none) ∧
    (let v := { convoy with tp := some 600 }
     let th := { thread with stopped := true }
     (inPod v th).threads = [(0, th)] ∧ (inPod v th).convoyOf th = some 77 ∧ th.guest = 1 ∧ (inPod v th).stopDone 1 77 = true ∧ v.done = none) ∧
    (let v := { convoy with tp := some 600, tpCycle := 5000000 - 4300 }
     (inPod v thread).convoyOf thread = some 77 ∧ thread.halted = false ∧ thread.stopped = false ∧ (inPod v thread).launch? 9 = some { loadUnit with rcd := timed } ∧
       v.inForce (inPod v thread).wall = true ∧ v.stopped = false ∧ timed.policy = false ∧ 0 ∉ v.strays ∧ v.tpCycle + timed.dist + 4200 ≤ (inPod v thread).clk) ∧
    (({ convoy with stopped := true } : Convoy).stopped = true ∧ convoy.leader ≠ (inPod convoy thread).dev ∧
      ({ convoy with action := some (.stop, 800) } : Convoy).action = some (.stop, 800)) ∧
    (let v := { convoy with action := some (.launch, 800), readyAt := 5000000 - 2100000 }
     v.action = some (.launch, 800) ∧ (∀ p ∈ (inPod v thread).launches, p.2.status ≠ .waiting) ∧ convoy.action = none ∧ convoy.acted ≠ some 800 ∧ v.readyAt + 105000 ≤ (inPod v thread).clk ∧ v.readyAt + 2100000 ≤ (inPod v thread).clk) := by
  refine ⟨⟨rfl, rfl, rfl⟩, by decide, ⟨rfl, rfl, by decide, by decide, by decide, rfl, rfl, rfl⟩, ⟨rfl, by decide, by decide, rfl, by decide, by decide, by decide⟩,
    ⟨rfl, by decide, rfl, by decide, rfl⟩, ⟨by decide, rfl, rfl, rfl, by decide, rfl, rfl, by decide⟩, by decide, by decide⟩

def asked (va : Word) : PeerReq := { dev := 5, rid := 66, va := va, what := .load 8, clock := 7, guest := 1, convoy := 0, stamp := 3, again := false }
def sent (at_ : Nat) : PeerOut :=
  { rid := 66, tid := 0, va := 0x123, dev := 5, what := .load 8, clock := 7, stamp := some 3, op := 0, sentAt := at_, held := false, turn := 0
    refusals := 0, launch := 9, redirected := false, again := false, named := 1, parked := false, eng := none }

theorem witness_PodEvents :
    (201 : Int).natAbs > 200 ∧ (machine thread).dev ≠ 5 ∧
    (let s := mapped (machine thread) 1 4
     (asked 0x1FFF8).convoy = 0 ∧ (asked 0x1FFF8).what = .load 8 ∧ (asked 0x1FFF8).va.toNat < 2 ^ 56 ∧ (∀ x ∈ s.saved, x.guest ≠ 1) ∧
       ∃ e, s.walk 1 (asked 0x1FFF8).va.toNat = .page e ∧ e.r = true ∧ Calm s (e.pa + 0x1FFF8 % 2 ^ e.bits) ∧ Alive s (e.pa + 0x1FFF8 % 2 ^ e.bits) 1) ∧
    ({ machine thread with heldPeer := [{ req := asked 0x30048, since := 8 }] } : State).heldPeer = [{ req := asked 0x30048, since := 8 }] ∧
    (let th := waiting (.load 66 { dst := .reg (.x 4), n := 8, signed := false, va := 0x123 })
     let s := fun (k : Nat) => { machine th with clk := 5000000, peerOut := [sent k] }
     (s 2900000).peerOut = [sent 2900000] ∧ (sent 2900000).op = 0 ∧ (sent 2900000).rid ≠ 0 ∧ (sent 2900000).eng = none ∧ (s 2900000).thread? 0 = some th ∧ HasHandler th ∧
       (sent 2900000).sentAt + 2100000 ≤ (s 2900000).clk ∧ (s 2900001).clk < (sent 2900001).sentAt + 2100000) ∧
    (let s := { machine thread with threads := [(0, thread)] }
     s.threads = [(0, thread)] ∧ thread.guest = 1 ∧ thread.halted = false ∧ thread.stopped = false ∧ s.saved = []) ∧
    (let v : SavedGuest := { guest := 1, threads := [], quarantine := [], complete := true }
     ({ machine thread with saved := [v] } : State).saved = [v] ∧ v.complete = true ∧ v.quarantine = [] ∧ v.threads = []) ∧
    (let v : SavedGuest := { guest := 1, threads := [], quarantine := [asked 0x30048], complete := true, serving := true }
     v.complete = true ∧ v.quarantine = [asked 0x30048] ∧ v.serving = true ∧ ({ machine thread with saved := [v] } : State).unserved (asked 0x30048) = false) := by
  refine ⟨by decide, by decide, ⟨rfl, rfl, by decide, by decide, ?_⟩, rfl, ⟨rfl, rfl, by decide, rfl, rfl, by unfold HasHandler; decide, by decide, by decide⟩, ⟨rfl, rfl, rfl, rfl, rfl⟩,
    ⟨rfl, rfl, rfl, rfl⟩, rfl, rfl, rfl, by decide⟩
  exact ⟨match (mapped (machine thread) 1 4).walk 1 0x1FFF8 with | .page e => e | _ => page, by decide, by decide,
    ⟨rfl, rfl, rfl, rfl, rfl, rfl, fun _ _ => ⟨rfl, rfl⟩⟩, rfl, by decide⟩

/-- Values of the firmware's registers at the bounds of their reserved fields, and a signed image. -/
theorem witness_DeviceEvents :
    (let s := { machine thread with frames := [(4, { Frame.init with vpn := 1, guest := 1, gen := 4, v := true })] }
     (s.ownerOf (2048 * 128)).2 = (s.guest (s.ownerOf (2048 * 128)).1).gen) ∧
    (let l := { line with dirty := true }
     ({ machine thread with stash := [(3, l)] } : State).stashLine? 0 3 = some l ∧ l.dirty = true ∧ 3 < 1024) ∧
    9 ≤ countOf (.llc 5) ({ machine thread with counters := [(.llc 5, 8)] } : State).counters + 1 ∧
    .llc 6 ∈ ({ machine thread with lasting := [.llc 6] } : State).lasting ∧
    (let s := { machine thread with threads := [], images := [(0, { mx := .init, stamps := [], park := [], lines := [], stash := [] })] }
     s.tileBusy 0 = false ∧ ∃ m, KMap.get? s.images 0 = some m) ∧
    (machine thread).booted = false ∧ (machine thread).bootFail = false ∧ ({ machine thread with bootFail := true } : State).bootFail = true ∧ 19 < 20 ∧ ({ machine thread with booted := true } : State).booted = true ∧ (List.replicate 64 (3 : Byte)).length = 64 ∧
    ((machine thread).convoys = [] ∧ (machine thread).launches = []) ∧ (({ machine thread with res := true } : State).res = true ∧ (machine thread).res = false) ∧
    ((0x100 : Word).toNat / 2 ^ 8 % 2 ^ 24 ≠ 0 ∧ (0x0100000000000000 : Word).toNat / 2 ^ 56 % 2 ^ 6 ≠ 0 ∧
      ((0x40FFFFFF000000FF : Word).toNat / 2 ^ 56 % 2 ^ 6 = 0 ∧ (0x40FFFFFF000000FF : Word).toNat / 2 ^ 8 % 2 ^ 24 = 0 ∧ (0x40FFFFFF000000FF : Word).getLsbD 63 = false)) ∧
    ((0x1000 : Word).toNat / 2 ^ 12 % 2 ^ 50 ≠ 0 ∧ 2 < (0x300 : Word).toNat / 2 ^ 8 % 2 ^ 4 ∧ (0x2FF : Word).toNat / 2 ^ 12 % 2 ^ 50 = 0 ∧
      (0x2FF : Word).toNat / 2 ^ 8 % 2 ^ 4 ≤ 2) ∧
    ({ machine thread with snapctl := 0x8000000000000000 } : State).snapctl.getLsbD 63 = true ∧ (machine thread).synced = false ∧
    16 < ({ machine thread with derated := List.range 17 } : State).derated.length ∧
    ({ machine thread with booted := true } : State).partyOk 9 63 64 = true := by
  refine ⟨by decide, by decide, by decide, by decide, ⟨by decide, _, rfl⟩, by decide⟩

/-! ### Decoding and the step -/

theorem witness_DecodeEncode : (Instr.add (.x 31) (.k 31) (.x 0)).wf = true ∧ (∃ e, encode (.add (.x 31) (.k 31) (.x 0)) = some e) ∧
    ∃ i, decodeBytes [0x80, 0x82, 0x40, 0xA1, 0x55] = some (i, [0x55]) :=
  ⟨by decide, ⟨_, rfl⟩, ⟨.add (.k 8) (.k 8) (.x 20), by decide⟩⟩

/-- A program of one word is loaded, and its thread's distance counter stands at d. -/
def loaded (w d : Nat) : State := (State.reset.withFetchWord 32 w).modThread 0 (fun th => { th with dist := d })
def firstThread (w d : Nat) : Thread := ((loaded w d).thread? 0).getD thread
/-- The next issue of that program, whose word is e. -/
def Begins (w d : Nat) (e : Encoded) : Prop :=
  (loaded w d).nextEntry = none ∧ (loaded w d).nextIssue = some (0, 0) ∧ (loaded w d).thread? 0 = some (firstThread w d) ∧ (loaded w d).faultedCommand 0 = none ∧
    (firstThread w d).nextEvent = none ∧ (loaded w d).fetchWord (firstThread w d).home (firstThread w d).guest (firstThread w d).pc = .word e
def due (w : Work) : State := { machine { thread with replay := true } with agenda := [{ noted w with due := 4000, cur := 0 }] }

/-- A word that decodes and one that does not, within the distance and beyond it; an event that is due, and a word whose thread waits for
it and one whose thread does not; and nothing to do at all. -/
theorem witness_StepRunsDecoded :
    let add : Encoded := .word 0xA1408280
    let none_ : Encoded := .word 0x8000
    (Begins 0xA1408280 0 add ∧ add.decode = some (.add (.k 8) (.k 8) (.x 20)) ∧ (firstThread 0xA1408280 0).dist ≤ (loaded 0xA1408280 0).distOf (firstThread 0xA1408280 0)) ∧
    (Begins 0xA1408280 65537 add ∧ (loaded 0xA1408280 65537).distOf (firstThread 0xA1408280 65537) < (firstThread 0xA1408280 65537).dist ∧
      isPrept (.add (.k 8) (.k 8) (.x 20)) = false) ∧
    (Begins 0x8000 0 none_ ∧ none_.decode = none ∧ (firstThread 0x8000 0).dist ≤ (loaded 0x8000 0).distOf (firstThread 0x8000 0)) ∧
    (Begins 0x8000 65537 none_ ∧ (loaded 0x8000 65537).distOf (firstThread 0x8000 65537) < (firstThread 0x8000 65537).dist) ∧
    (let th := { thread with pc := 0x20000 }
     let s := { machine th with threads := [(0, th)] }
     s.nextEntry = none ∧ s.nextIssue = some (0, 0) ∧ s.faultedCommand 0 = none ∧ th.nextEvent = none ∧
       s.fetchWord th.home th.guest th.pc = .fail (.miss 420) 0x20000) ∧
    (let th := { thread with pc := ownVa 384 }
     let s := { machine th with threads := [(0, th)] }
     s.nextEntry = none ∧ s.nextIssue = some (0, 0) ∧ s.faultedCommand 0 = none ∧ th.nextEvent = none ∧
       s.fetchWord th.home th.guest th.pc = .fail (.trap 4 2) (ownVa 384) ∧ th.dist ≤ s.distOf th) ∧
    (State.reset.nextEntry = none ∧ State.reset.nextIssue = none) ∧
    (let p := { noted (.event .predrain) with due := 4000, cur := 0 }
     (due (.event .predrain)).nextEntry = some p ∧ (due (.event .predrain)).meeting p = .go) ∧
    (let w := Work.event (.homeLoad (access 0x40078 8) .core)
     let p := { noted w with due := 4000, cur := 0 }
     (due w).nextEntry = some p ∧ (due w).meeting p = .go) ∧
    (let p := { noted (.word .nop16) with due := 4000, cur := 0 }
     (due (.word .nop16)).nextEntry = some p ∧ (due (.word .nop16)).meeting p = .go ∧ Instr.nop16.isWord = true ∧ ((due (.word .nop16)).takeEntry p).stillWaits 0 = true) ∧
    (let p := { noted (.word .nop16) with due := 4000, cur := 7 }
     let s := { due (.word .nop16) with agenda := [p] }
     s.nextEntry = some p ∧ s.meeting p = .go ∧ (s.takeEntry p).stillWaits 7 = false) := by
  unfold Begins
  exact ⟨by decide, by decide, by decide, by decide, by decide, by decide, by decide, by decide, by decide, by decide, by decide⟩

theorem witness_StepAnswers : State.reset.Orderly := by unfold State.Orderly; decide
theorem witness_StepKeepsCanonical : State.reset.Canonical ∧ ∃ u, step State.reset = .next u := ⟨⟨by decide, by unfold State.Orderly; decide⟩, _, rfl⟩
theorem witness_StepKeepsHalfwords : State.reset.Halfwords ∧ ∃ u, step State.reset = .next u := by
  refine ⟨⟨?_, ?_, ?_, ?_⟩, _, rfl⟩ <;> exact fun _ h => nomatch h

end Sys2Proof.Tests
end

section
/-!
PROOFS. MTS of every system register (R288, R306, R309, R311 to R314).
-/

namespace Sys2Proof.Proofs

open Sys2Proof Sys2Proof.Machine Sys2Proof.Claims

/-! ## The instruction in hand -/

/-- An issuing thread's instruction is carried out on it, with the word's length and registers noted. -/
theorem onThread_issuing {s : State} {t : Nat} {th : Thread} (h : Issuing s t th) (len : Nat) (regs : List Reg)
    (f : Nat → Thread → State) : onThread s len regs f = .next (f t (th.noted len regs)) := by
  obtain ⟨rfl, hth, hrun, hplace, -⟩ := h
  exact onThread_next len regs f hth hrun hplace

/-- Completing an instruction changes of the thread only what `SameRest` leaves out. -/
theorem sameRest_advance {th x : Thread} (h : SameRest th x) : SameRest th x.advance := h

/-- What is noted of an instruction is among what `SameRest` leaves out. -/
theorem sameRest_noted (th : Thread) (len : Nat) (regs : List Reg) : SameRest th (th.noted len regs) := rfl

/-- As `goesOn_advance`, for an instruction that may write TRAPC but leaves ACTIVE alone. -/
theorem goesOn_advance_of_active {th x : Thread} {len : Nat} (hpc : x.pc = th.pc) (hloops : x.loops = th.loops)
    (hactive : x.active = th.active) (hlen : x.ilen = len) (hissued : x.issued = th.issued) : GoesOn th x.advance len := by
  refine ⟨?_, congrArg (· + 1) hissued, rfl⟩
  simp only [Thread.advance, hactive, Thread.nextWord, hpc, hloops, hlen]

/-! ## Leaving the rotation -/

@[simp] theorem leaving_x (s : State) (th : Thread) : (s.leaving th).x = th.x := by
  unfold State.leaving; split <;> rfl
@[simp] theorem leaving_pc (s : State) (th : Thread) : (s.leaving th).pc = th.pc := by
  unfold State.leaving; split <;> rfl

/-- What has no channel waits for nothing that is due before it. -/
@[simp] theorem lastDue_noChan (agenda : List Pending) : lastDue agenda noChan = 0 := by
  induction agenda with
  | nil => rfl
  | cons p agenda ih => exact ih

/-- A step without a channel stands on the agenda for exactly the cycle it was put there for. -/
theorem mem_agenda_post (s : State) (p : Place) (due cur : Nat) (w : Work) :
    ∃ q ∈ (s.post p noChan due cur w).agenda, q.work = w ∧ q.due = due :=
  ⟨_, List.mem_append_right _ (List.mem_singleton_self _), rfl, by simp⟩

/-! ## Tiles -/

@[simp] theorem tile_modTile_self (s : State) (k : Nat) (f : Tile → Tile) : (s.modTile k f).tile k = f (s.tile k) :=
  State.tile_setTile_self s k _

@[simp] theorem tile_retire (s : State) (t : Nat) (th : Thread) (k : Nat) : (s.retire t th).tile k = s.tile k := rfl

@[simp] theorem guest_modGuest_self (x : Tile) (g : BitVec 8) (f : TileGuest → TileGuest) : (x.modGuest g f).guest g = f (x.guest g) := by
  simp [Tile.guest, Tile.modGuest]

/-! ## What MTS writes (R309)

One equation for each register that a thread keeps. -/

/-- A word with bit 0 cleared, as the statement writes it. -/
theorem and_not_one_eq_sub (v : Word) : v &&& ~~~1 = v - (v &&& 1) := by
  have hsplit : (v &&& ~~~1) + (v &&& 1) = v := by
    rw [BitVec.add_eq_or_of_and_eq_zero]
    · ext i hi
      simp only [BitVec.getElem_or, BitVec.getElem_and, BitVec.getElem_not]
      cases v[i] <;> cases (1 : Word)[i] <;> rfl
    · ext i hi
      simp only [BitVec.getElem_zero, BitVec.getElem_and, BitVec.getElem_not]
      cases v[i] <;> cases (1 : Word)[i] <;> rfl
  rw [eq_sub_iff_add_eq, hsplit]

theorem sysWrite_stashm (th : Thread) (v : Word) :
    th.sysWrite .stashm v = { th with stashm := if v.toNat < 2 ^ 32 then th.stashm &&& v.setWidth 32 else th.stashm } := by
  have hv : v.toNat / 2 ^ 32 ≠ 0 ↔ ¬ v.toNat < 2 ^ 32 := by simp [Nat.div_eq_zero_iff]
  simp only [Thread.sysWrite, hv, BitVec.ofNat_toNat]
  split <;> simp_all

theorem sysWrite_tctl (th : Thread) (v : Word) :
    th.sysWrite .tctl v = { th with trapz := if v.toNat < 4 then v.getLsbD 0 else th.trapz } := by
  have hv : v.toNat / 4 ≠ 0 ↔ ¬ v.toNat < 4 := by simp [Nat.div_eq_zero_iff]
  simp only [Thread.sysWrite, hv]
  split <;> simp_all

theorem sysWrite_epc (th : Thread) (v : Word) : th.sysWrite .epc v = { th with epc := v - (v &&& 1) } := by
  rw [← and_not_one_eq_sub]; rfl

theorem sysWrite_tvec (th : Thread) (v : Word) : th.sysWrite .tvec v = { th with tvec := v - (v &&& 1) } := by
  rw [← and_not_one_eq_sub]; rfl

theorem sysWrite_trapc (th : Thread) (v : Word) :
    th.sysWrite .trapc v = { th with trapc := (if v.toNat / 2 ^ 32 % 2 ^ 31 = 0 ∧ v.toNat / 2 ^ 8 % 2 ^ 8 = 0 then
      BitVec.ofNat 64 ((if th.active then 2 ^ 63 else 0) + v.toNat % 2 ^ 32) else th.trapc) } := by
  simp only [Thread.sysWrite, bits, ne_eq, ← not_and_or]
  split <;> simp_all

theorem sysWrite_waited (th : Thread) (v : Word) : th.sysWrite .waited v = { th with waited := v } := rfl

/-- Its own issue adds the 1 (R313). -/
theorem sysWrite_issued (th : Thread) (v : Word) : th.sysWrite .issued v = { th with issued := v - 1 } := rfl

theorem sysWrite_xsel (th : Thread) (v : Word) : th.sysWrite .xsel v = { th with xsel := v } := rfl

/-- Of the thread, MTS changes at most the registers that it may write. -/
theorem sysWrite_frame (th : Thread) (r : SysReg) (v : Word) :
    { th.sysWrite r v with
      stashm := th.stashm, trapz := th.trapz, epc := th.epc, trapc := th.trapc, tvec := th.tvec, waited := th.waited
      issued := th.issued, xsel := th.xsel } = th := by
  cases r with
  | stashm => rw [sysWrite_stashm]
  | tctl => rw [sysWrite_tctl]
  | trapc => rw [sysWrite_trapc]
  | _ => rfl

@[simp] theorem sysWrite_x (th : Thread) (r : SysReg) (v : Word) : (th.sysWrite r v).x = th.x := by
  conv_rhs => rw [← sysWrite_frame th r v]
@[simp] theorem sysWrite_pc (th : Thread) (r : SysReg) (v : Word) : (th.sysWrite r v).pc = th.pc := by
  conv_rhs => rw [← sysWrite_frame th r v]
@[simp] theorem sysWrite_loops (th : Thread) (r : SysReg) (v : Word) : (th.sysWrite r v).loops = th.loops := by
  conv_rhs => rw [← sysWrite_frame th r v]
@[simp] theorem sysWrite_ilen (th : Thread) (r : SysReg) (v : Word) : (th.sysWrite r v).ilen = th.ilen := by
  conv_rhs => rw [← sysWrite_frame th r v]

/-- Only MTS of ISSUED writes ISSUED. -/
theorem sysWrite_issued_of_ne (th : Thread) {r : SysReg} (v : Word) (hr : r ≠ .issued) : (th.sysWrite r v).issued = th.issued := by
  cases r with
  | stashm => rw [sysWrite_stashm]
  | tctl => rw [sysWrite_tctl]
  | trapc => rw [sysWrite_trapc]
  | issued => exact absurd rfl hr
  | _ => rfl

/-- Only MTS of TRAPC writes TRAPC. -/
theorem sysWrite_trapc_of_ne (th : Thread) {r : SysReg} (v : Word) (hr : r ≠ .trapc) : (th.sysWrite r v).trapc = th.trapc := by
  cases r with
  | stashm => rw [sysWrite_stashm]
  | tctl => rw [sysWrite_tctl]
  | trapc => exact absurd rfl hr
  | _ => rfl

/-- The top bit of a word is the summand that stands above the others. -/
theorem getLsbD_top_ofNat (b : Bool) {n : Nat} (hn : n < 2 ^ 63) :
    (BitVec.ofNat 64 ((if b then 2 ^ 63 else 0) + n)).getLsbD 63 = b := by
  rw [BitVec.getLsbD_ofNat]
  cases b
  · simp [Nat.testBit_lt_two_pow hn]
  · rw [if_pos rfl, Nat.testBit_two_pow_add_eq, Nat.testBit_lt_two_pow hn]; rfl

/-- MTS leaves ACTIVE alone, that of TRAPC too (R288). -/
@[simp] theorem sysWrite_active (th : Thread) (r : SysReg) (v : Word) : (th.sysWrite r v).active = th.active := by
  unfold Thread.active
  by_cases hr : r = .trapc
  · rw [hr, sysWrite_trapc]
    dsimp only
    split
    · exact getLsbD_top_ofNat th.active (by omega)
    · rfl
  · rw [sysWrite_trapc_of_ne th v hr]

/-- The counters that a tile keeps for each guest (R313). -/
def tileCounters : List (SysReg × (TileGuest → Word)) :=
  [(.fused, TileGuest.fused), (.couriers, TileGuest.couriers), (.fwdnotes, TileGuest.fwdnotes)]

/-- MTS of a tile's counter writes it for the guest, and nothing of the thread. -/
theorem tileCounters_written {r : SysReg} {f : TileGuest → Word} (hr : (r, f) ∈ tileCounters) (y : TileGuest) (th : Thread) (v : Word) :
    sysCounter r = true ∧ f (y.sysWrite r v) = v ∧ th.sysWrite r v = th := by
  simp only [tileCounters, List.mem_cons, Prod.mk.injEq, List.not_mem_nil, or_false] at hr
  obtain ⟨rfl, rfl⟩ | ⟨rfl, rfl⟩ | ⟨rfl, rfl⟩ := hr <;> exact ⟨rfl, rfl, rfl⟩

/-! ## The outcomes of MTS

An illegal-instruction trap, XDATA's own outcomes, a refused selector, or a register written. -/

section
variable {s : State} {t : Nat} {th : Thread} {a : Reg} {r : SysReg}

/-- The register asks for privilege, which the thread does not have. -/
def deniedTo (th : Thread) (r : SysReg) : Bool := (sysHigh r || sysCounter r) && !th.priv

/-- A value with a reserved bit set, or that names no block (R314). -/
abbrev selectsNothing (v : Word) : Prop := v.toNat / 2 ^ 32 ≠ 0 ∨ bits v.toNat 16 12 ≠ 0 ∨ 8 < bits v.toNat 28 4

/-- The state after a register of the thread, or a counter of its tile and guest, has been written. -/
def written (s : State) (th : Thread) (r : SysReg) (v : Word) : State :=
  s.modTile (tileOf th.home) (fun x => if sysCounter r then x.modGuest th.guest (fun y => y.sysWrite r v) else x)

/-- MTS on an issuing thread: its checks in their order, and the write (R306, R309, R314). -/
theorem exec_mts (h : Issuing s t th) : exec (.mts r a) s = .next (
    if deniedTo th r then s.illegalInstr t (th.noted 4 [a])
    else if sysReadOnly r then s.illegalInstr t (th.noted 4 [a])
    else if r = .xdata then s.writeXdata t (th.noted 4 [a]) (s.readReg th a)
    else if r = .xsel ∧ selectsNothing (s.readReg th a) then s.illegalState t (th.noted 4 [a])
    else (written s th r (s.readReg th a)).retire t ((th.noted 4 [a]).sysWrite r (s.readReg th a))) := by
  show execMts r a s = _
  rw [execMts, onThread_issuing h]
  simp only [readReg_noted]
  rfl

/-- A denied or a read-only register takes an illegal-instruction trap. -/
theorem mts_traps_illegal (h : Issuing s t th) (hh : HasHandler th) (hr : deniedTo th r = true ∨ sysReadOnly r = true) :
    Traps s t th (.mts r a) 1 0 none := by
  refine traps_here hh _ 4 [a] 1 0 none ?_ (by decide) (by decide)
  rw [exec_mts h]
  by_cases hd : deniedTo th r = true
  · rw [if_pos hd]; rfl
  · rw [if_neg hd, if_pos (hr.resolve_left hd)]; rfl

/-- XDATA's write is its own, for a privileged thread. -/
theorem exec_mts_xdata (h : Issuing s t th) (hp : th.priv = true) :
    exec (.mts .xdata a) s = .next (s.writeXdata t (th.noted 4 [a]) (s.readReg th a)) := by
  rw [exec_mts h, if_neg (by simp [deniedTo, hp]), if_neg (by decide), if_pos rfl]

/-- A selector that names nothing traps. -/
theorem mts_xsel_traps (h : Issuing s t th) (hh : HasHandler th) (hp : th.priv = true) (hv : selectsNothing (s.readReg th a)) :
    Traps s t th (.mts .xsel a) 2 0 none := by
  refine traps_here hh _ 4 [a] 2 0 none ?_ (by decide) (by decide)
  rw [exec_mts h, if_neg (by simp [deniedTo, hp]), if_neg (by decide), if_neg (by decide), if_pos ⟨rfl, hv⟩]; rfl

/-- MTS may write r for the thread, with the value in a: the register is neither denied nor read-only nor XDATA, and a selector
selects something. -/
structure Writable (s : State) (th : Thread) (a : Reg) (r : SysReg) : Prop where
  allowed : deniedTo th r = false
  writable : sysReadOnly r = false
  plain : r ≠ .xdata
  selects : r = .xsel → ¬ selectsNothing (s.readReg th a)

theorem exec_mts_written (h : Issuing s t th) (hw : Writable s th a r) :
    exec (.mts r a) s = .next ((written s th r (s.readReg th a)).retire t ((th.noted 4 [a]).sysWrite r (s.readReg th a))) := by
  rw [exec_mts h, if_neg (by simp [hw.allowed]), if_neg (by simp [hw.writable]), if_neg hw.plain, if_neg (fun hx => hw.selects hx.1 hx.2)]

/-- The statement's clause for a register of the thread: the instruction completes with p of the thread after it, and shared registers, other
threads and memory are as before. -/
def Completes (s : State) (t : Nat) (th : Thread) (a : Reg) (r : SysReg) (p : Thread → Prop) : Prop :=
  ∃ u th', exec (.mts r a) s = .next u ∧ u.thread? t = some th' ∧ p th' ∧ th'.x = th.x ∧ GoesOn th th' 4 ∧ SameShared s u ∧
    SameOthers s u t ∧ u.mem = s.mem

/-- MTS of any register but ISSUED completes with what `Thread.sysWrite` makes of the thread. -/
theorem mts_completes (h : Issuing s t th) (hw : Writable s th a r) (hr : r ≠ .issued) {p : Thread → Prop}
    (hp : p ((th.noted 4 [a]).sysWrite r (s.readReg th a)).advance) : Completes s t th a r p :=
  ⟨_, _, exec_mts_written h hw, State.retire_thread? _ _ _, hp, sysWrite_x ..,
    goesOn_advance_of_active (sysWrite_pc ..) (sysWrite_loops ..) (sysWrite_active ..) (sysWrite_ilen ..) (sysWrite_issued_of_ne _ _ hr),
    sameShared_setThread _ _ _, sameOthers_setThread _ _ _, rfl⟩

/-- A register that needs no privilege, and is neither read-only nor of the expert set, takes any value. -/
theorem writable_plain (hr : r ∈ [SysReg.stashm, .tctl, .epc, .tvec, .trapc]) : Writable s th a r := by
  fin_cases hr <;> exact ⟨rfl, rfl, by decide, nofun⟩

/-- A counter takes any value of a privileged thread (R313). -/
theorem writable_counter (hp : th.priv = true) (hr : sysCounter r = true) : Writable s th a r := by
  refine ⟨by simp [deniedTo, hp], ?_, ?_, ?_⟩ <;> cases r <;> simp_all [sysCounter, sysReadOnly]

theorem mts_stashm (h : Issuing s t th) : Completes s t th a .stashm (fun th' =>
    th'.stashm = (if (s.readReg th a).toNat < 2 ^ 32 then th.stashm &&& (s.readReg th a).setWidth 32 else th.stashm) ∧
      SameRest th { th' with stashm := th.stashm }) := by
  refine mts_completes h (writable_plain (by decide)) (by decide) ?_
  rw [sysWrite_stashm]
  exact ⟨rfl, by simp only [SameRest, Thread.advance, Thread.rejoin, Thread.noted]⟩

theorem mts_tctl (h : Issuing s t th) : Completes s t th a .tctl (fun th' =>
    th'.trapz = (if (s.readReg th a).toNat < 4 then (s.readReg th a).getLsbD 0 else th.trapz) ∧ th'.priv = th.priv ∧
      SameRest th { th' with trapz := th.trapz }) := by
  refine mts_completes h (writable_plain (by decide)) (by decide) ?_
  rw [sysWrite_tctl]
  exact ⟨rfl, rfl, by simp only [SameRest, Thread.advance, Thread.rejoin, Thread.noted]⟩

theorem mts_epc (h : Issuing s t th) : Completes s t th a .epc (fun th' =>
    th'.epc = s.readReg th a - (s.readReg th a &&& 1) ∧ SameRest th { th' with epc := th.epc }) := by
  refine mts_completes h (writable_plain (by decide)) (by decide) ?_
  rw [sysWrite_epc]
  exact ⟨rfl, by simp only [SameRest, Thread.advance, Thread.rejoin, Thread.noted]⟩

theorem mts_tvec (h : Issuing s t th) : Completes s t th a .tvec (fun th' =>
    th'.tvec = s.readReg th a - (s.readReg th a &&& 1) ∧ SameRest th { th' with tvec := th.tvec }) := by
  refine mts_completes h (writable_plain (by decide)) (by decide) ?_
  rw [sysWrite_tvec]
  exact ⟨rfl, by simp only [SameRest, Thread.advance, Thread.rejoin, Thread.noted]⟩

theorem mts_trapc (h : Issuing s t th) : Completes s t th a .trapc (fun th' =>
    th'.trapc = (if (s.readReg th a).toNat / 2 ^ 32 % 2 ^ 31 = 0 ∧ (s.readReg th a).toNat / 2 ^ 8 % 2 ^ 8 = 0 then
      BitVec.ofNat 64 ((if th.active then 2 ^ 63 else 0) + (s.readReg th a).toNat % 2 ^ 32) else th.trapc) ∧
      SameRest th { th' with trapc := th.trapc }) := by
  refine mts_completes h (writable_plain (by decide)) (by decide) ?_
  rw [sysWrite_trapc]
  exact ⟨rfl, by simp only [SameRest, Thread.advance, Thread.rejoin, Thread.noted]⟩

theorem mts_waited (h : Issuing s t th) (hp : th.priv = true) : Completes s t th a .waited (fun th' =>
    th'.waited = s.readReg th a ∧ SameRest th { th' with waited := th.waited }) := by
  refine mts_completes h (writable_counter hp rfl) (by decide) ?_
  rw [sysWrite_waited]
  exact ⟨rfl, by simp only [SameRest, Thread.advance, Thread.rejoin, Thread.noted]⟩

theorem mts_xsel (h : Issuing s t th) (hp : th.priv = true) (hv : ¬ selectsNothing (s.readReg th a)) :
    Completes s t th a .xsel (fun th' => th'.xsel = s.readReg th a) := by
  refine mts_completes h ⟨by simp [deniedTo, hp], rfl, by decide, fun _ => hv⟩ (by decide) ?_
  rw [sysWrite_xsel]
  rfl

/-- MTS of ISSUED ends with the value written: its own issue is not added (R313). -/
theorem mts_issued (h : Issuing s t th) (hp : th.priv = true) :
    ∃ u th', exec (.mts .issued a) s = .next u ∧ u.thread? t = some th' ∧ th'.issued = s.readReg th a ∧ th'.x = th.x ∧
      SameRest th { th' with issued := th.issued } := by
  refine ⟨_, _, exec_mts_written h (writable_counter hp rfl), State.retire_thread? _ _ _, ?_⟩
  rw [sysWrite_issued]
  exact ⟨sub_add_cancel (s.readReg th a) 1, rfl, by simp only [SameRest, Thread.advance, Thread.rejoin, Thread.noted]⟩

/-- MTS of a tile's counter writes it for the thread's guest. -/
theorem mts_tileCounter (h : Issuing s t th) (hp : th.priv = true) {f : TileGuest → Word} (hr : (r, f) ∈ tileCounters) :
    ∃ u th', exec (.mts r a) s = .next u ∧ u.thread? t = some th' ∧ f ((u.tile (tileOf th.home)).guest th.guest) = s.readReg th a ∧
      th'.x = th.x ∧ GoesOn th th' 4 ∧ SameRest th th' := by
  have hcounter := (tileCounters_written hr .init th 0).1
  have hthread := (tileCounters_written hr .init (th.noted 4 [a]) (s.readReg th a)).2.2
  refine ⟨_, _, exec_mts_written h (writable_counter hp hcounter), State.retire_thread? _ _ _, ?_, ?_⟩
  · simp only [tile_retire, written, tile_modTile_self, if_pos hcounter, guest_modGuest_self]
    exact (tileCounters_written hr _ th _).2.1
  · rw [hthread]
    exact ⟨rfl, goesOn_advance th _ 4 rfl rfl rfl rfl rfl, sameRest_advance (sameRest_noted th 4 [a])⟩

/-! ## XDATA (R309, R314) -/

theorem writeXdata_none {x : Thread} {v : Word} (hx : x.expert = none) : s.writeXdata t x v = s.illegalState t x := by
  simp [State.writeXdata, hx]

theorem writeXdata_tile {x : Thread} {e : ExpertReg} {v : Word} (hx : x.expert = some e) (hb : x.xsel.toNat / 2 ^ 28 % 16 = 0) :
    s.writeXdata t x v = ({ s with lateExpert := s.lateExpert ++ [(coreOf x.home, 0, e, v)] }).retire t x := by
  unfold State.writeXdata
  rw [hx]
  exact if_pos hb

theorem writeXdata_die {x : Thread} {e : ExpertReg} {v : Word} (hx : x.expert = some e) (hb : x.xsel.toNat / 2 ^ 28 % 16 ≠ 0) :
    s.writeXdata t x v = (s.post (placeOfSlot x.home) noChan (s.clk + 100) t (.event (.xdataWrite t))).await t x
      (.xdata e (blockDie (x.xsel.toNat / 2 ^ 28 % 16)) v) := by
  unfold State.writeXdata
  rw [hx]
  exact if_neg hb

/-- A tile's register takes the value at the end of the cycle. -/
theorem mts_xdata_tile (h : Issuing s t th) (hp : th.priv = true) {e : ExpertReg} (hx : th.expert = some e)
    (hb : th.xsel.toNat / 2 ^ 28 % 16 = 0) :
    ∃ u th', exec (.mts .xdata a) s = .next u ∧ u.thread? t = some th' ∧ th'.x = th.x ∧ GoesOn th th' 4 ∧ SameRest th th' ∧
      u.lateExpert = s.lateExpert ++ [(coreOf th.home, 0, e, s.readReg th a)] ∧ SameShared s u ∧ SameOthers s u t ∧ u.mem = s.mem :=
  ⟨_, _, (exec_mts_xdata h hp).trans (congrArg _ (writeXdata_tile hx hb)), State.retire_thread? _ _ _, rfl,
    goesOn_advance th _ 4 rfl rfl rfl rfl rfl, sameRest_advance (sameRest_noted th 4 [a]), rfl, sameShared_setThread _ _ _, sameOthers_setThread _ _ _, rfl⟩

/-- For a memory-side die's register the thread waits, and the die takes the value 100 cycles later. -/
theorem mts_xdata_die (h : Issuing s t th) (hp : th.priv = true) {e : ExpertReg} (hx : th.expert = some e)
    (hb : th.xsel.toNat / 2 ^ 28 % 16 ≠ 0) :
    ∃ u th', exec (.mts .xdata a) s = .next u ∧ u.thread? t = some th' ∧
      th'.wait = .xdata e (blockDie (th.xsel.toNat / 2 ^ 28 % 16)) (s.readReg th a) ∧ th'.x = th.x ∧ th'.pc = th.pc ∧
      (∃ p ∈ u.agenda, p.work = .event (.xdataWrite t) ∧ p.due = s.clk + 100) ∧ SameOthers s u t ∧ u.mem = s.mem :=
  ⟨_, _, (exec_mts_xdata h hp).trans (congrArg _ (writeXdata_die hx hb)), State.thread?_setThread_self _ _ _, rfl,
    leaving_x _ _, leaving_pc _ _, mem_agenda_post _ _ _ _ _, sameOthers_setThread _ _ _, rfl⟩

/-- XDATA traps where XSEL names no register. -/
theorem mts_xdata_traps (h : Issuing s t th) (hh : HasHandler th) (hp : th.priv = true) (hx : th.expert = none) :
    Traps s t th (.mts .xdata a) 2 0 none :=
  traps_here hh _ 4 [a] 2 0 none ((exec_mts_xdata h hp).trans (congrArg _ (writeXdata_none hx))) (by decide) (by decide)

end

/-- Settles O40: each clause is one outcome of MTS. -/
theorem registerWrites : Obligations.RegisterWrites := by
  intro s t th a h v ordinary
  refine ⟨mts_stashm h, mts_tctl h, mts_epc h, mts_tvec h, mts_trapc h, fun hp => ⟨mts_waited h hp, mts_issued h hp,
    fun _ _ hr => mts_tileCounter h hp hr, ?_, ?_, ?_⟩, fun hh => ⟨?_, ?_⟩⟩
  · intro hlow hmid hblock
    refine mts_xsel h hp ?_
    show ¬ (v.toNat / 2 ^ 32 ≠ 0 ∨ v.toNat / 2 ^ 16 % 2 ^ 12 ≠ 0 ∨ 8 < v.toNat / 2 ^ 28 % 2 ^ 4)
    omega
  · intro hv hh
    refine mts_xsel_traps h hh hp ?_
    show v.toNat / 2 ^ 32 ≠ 0 ∨ v.toNat / 2 ^ 16 % 2 ^ 12 ≠ 0 ∨ 8 < v.toNat / 2 ^ 28 % 2 ^ 4
    omega
  · cases hx : th.expert with
    | some e => exact ⟨mts_xdata_tile h hp hx, mts_xdata_die h hp hx⟩
    | none => exact fun hh => mts_xdata_traps h hh hp hx
  · intro r hr
    exact mts_traps_illegal h hh (.inr ((by decide : ∀ r ∈ _, sysReadOnly r = true) r hr))
  · intro hp r hr
    have hfirm : (sysHigh r || sysCounter r) = true := (by decide : ∀ r ∈ _, (sysHigh r || sysCounter r) = true) r hr
    exact mts_traps_illegal h hh (.inl (by simp [deniedTo, hfirm, hp]))

end Sys2Proof.Proofs
end

section
/-!
PROOFS. The withdrawal of a parked request for a cancel (R190), with a detail beyond TRAPC's field.
-/

namespace Sys2Proof.Proofs

open Sys2Proof Sys2Proof.Machine Sys2Proof.Claims

/-! ## A cancel whose detail does not fit TRAPC (R34, R190, R288)

TRAPC's DETAIL has 16 bits, so a cancel's detail stands there modulo 2 ^ 16. The statement takes details of any size. -/

/-- The event carries out `State.withdrawn`. -/
theorem exec_withdrawal_event (s : State) (t : Nat) :
    exec (Event.withdrawal t).instr { s with event := some (.withdrawal t) } = .next (({ s with event := none } : State).withdrawn t) := rfl

/-- A full-empty load of thread 0, parked on the word at offset 384 of tile 0's stash. -/
def parkedLoad : StashReq :=
  { who := .thread 0, src := 0, rid := 44, va := 0, tile := 0, off := 384, what := .ldf, clock := 0, guest := 1, op := 0, refusals := 0, own := true }

/-- A thread with a handler that waits on that load, and keeps a cancel whose detail needs 17 bits. -/
def cancelledThread : Thread :=
  { Thread.start 0 1 0 0 0 none (Vector.replicate 32 0) 0x10000 0 0 false 0x20000 with
    wait := .fullEmpty 44 none 0, cancel := some (2 ^ 16) }

/-- The machine with that thread and nothing else in it. -/
def wideCancel : State :=
  { State.reset with threads := [(0, cancelledThread)], tiles := [(0, { Tile.init with park := [{ off := 384, req := parkedLoad }] })] }

theorem wideCancel_parked : ∃ p ∈ wideCancel.tiles, ∃ x ∈ p.2.park, reqOf x.req 0 44 = true :=
  ⟨_, List.mem_singleton_self _, _, List.mem_singleton_self _, by decide⟩

theorem cancelledThread_hasHandler : HasHandler cancelledThread := ⟨by decide, by decide⟩

/-- The withdrawal leaves the thread with CAUSE 0x0D and DETAIL 0. -/
theorem wideCancel_trapc {u : State} {th' : Thread}
    (hu : exec (Event.withdrawal 0).instr { wideCancel with event := some (.withdrawal 0) } = .next u)
    (hth : u.thread? 0 = some th') : th'.trapc = BitVec.ofNat 64 (2 ^ 63 + 0x0D) := by
  obtain rfl := Host.Outcome.next.inj ((exec_withdrawal_event wideCancel 0).symm.trans hu)
  have hout : (({ wideCancel with event := none } : State).withdrawn 0).thread? 0 =
    some ({ cancelledThread with cancel := none, lastIssue := some 0 } |>.enter 0x0D (2 ^ 16) none cancelledThread.pc) := rfl
  obtain rfl := Option.some.inj (hout.symm.trans hth)
  rfl

/-- Refutes O45: a cancel of detail 2 ^ 16 withdraws a parked full-empty load; the statement's TRAPC has bit 32 set for it, where the
model keeps the detail's low 16 bits (R288). -/
theorem not_threadEvents : ¬ Obligations.ThreadEvents := by
  unfold Obligations.ThreadEvents
  rintro ⟨-, -, hevents⟩
  obtain ⟨-, -, -, -, -, -, -, -, -, -, hwithdrawn⟩ := hevents wideCancel 0 cancelledThread rfl
  obtain ⟨u, hu, th', hth, ⟨-, htrapc, -⟩, -⟩ :=
    hwithdrawn 44 none 0 (2 ^ 16) rfl rfl cancelledThread_hasHandler wideCancel_parked
  have hboth := htrapc.symm.trans (wideCancel_trapc hu hth)
  exact absurd hboth (by decide)

end Sys2Proof.Proofs
end

section
/-!
PROOFS. The events of launches and of the host's queues (R28 to R34, R351 to R353).
-/

namespace Sys2Proof.Proofs

open Sys2Proof Sys2Proof.Machine Sys2Proof.Claims

/-! ## Events -/

/-- What a step without a channel leaves on the agenda is an event sent for its cycle. -/
theorem emits_post (s : State) (p : Place) (due cur delay : Nat) (e : Event) (h : s.clk + delay ≤ due) :
    Emits s (s.post p noChan due cur (.event e)) delay e := by
  obtain ⟨q, hq, hwork, hdue⟩ := mem_agenda_post s p due cur (.event e)
  exact ⟨q, hq, hwork, hdue ▸ h⟩

theorem emits_now (s : State) (e : Event) : Emits s (s.now e) 0 e := emits_post s _ _ _ 0 e (Nat.le_refl _)

/-! ## What the accounts of launches leave alone

`Accounted s u`: from s to u only the accounts of launches, the queues' reports, the agenda and the error log have changed. -/

def Accounted (s u : State) : Prop :=
  { u with launches := s.launches, agenda := s.agenda, seq := s.seq, doneOwed := s.doneOwed, errlog := s.errlog
           queues := s.queues, armed := s.armed } = s

theorem Accounted.refl (s : State) : Accounted s s := rfl

theorem Accounted.trans {s u v : State} (h : Accounted s u) (k : Accounted u v) : Accounted s v := by
  unfold Accounted at *
  rw [← k] at h
  exact h

theorem Accounted.threads {s u : State} (h : Accounted s u) : u.threads = s.threads := by
  have k := congrArg State.threads h
  exact k
theorem Accounted.mem {s u : State} (h : Accounted s u) : u.mem = s.mem := by
  have k := congrArg State.mem h
  exact k
theorem Accounted.clk {s u : State} (h : Accounted s u) : u.clk = s.clk := by
  have k := congrArg State.clk h
  exact k
theorem Accounted.guests {s u : State} (h : Accounted s u) : u.guests = s.guests := by
  have k := congrArg State.guests h
  exact k
theorem Accounted.frames {s u : State} (h : Accounted s u) : u.frames = s.frames := by
  have k := congrArg State.frames h
  exact k
theorem Accounted.anchors {s u : State} (h : Accounted s u) : u.anchors = s.anchors := by
  have k := congrArg State.anchors h
  exact k

/-- A list of steps that each change only accounts. -/
theorem accounted_foldl {α : Type} {f : State → α → State} (h : ∀ s a, Accounted s (f s a)) (l : List α) (s : State) :
    Accounted s (l.foldl f s) := by
  induction l generalizing s with
  | nil => rfl
  | cons a l ih => exact (h s a).trans (ih _)

theorem accounted_modLaunch (s : State) (l : Nat) (f : Launch → Launch) : Accounted s (s.modLaunch l f) := by
  unfold State.modLaunch; split <;> rfl

theorem accounted_withLaunches (s : State) (m : List (Nat × Launch)) : Accounted s { s with launches := m } := rfl

theorem accounted_now (s : State) (e : Event) : Accounted s (s.now e) := rfl

theorem accounted_signalDone (s : State) (g : BitVec 8) (done : Word) : Accounted s (s.signalDone g done) := by
  unfold State.signalDone; split <;> rfl

theorem accounted_report (s : State) (q index status field : Nat) (noop : Bool) : Accounted s (s.report q index status field noop) := by
  unfold State.report; split <;> rfl

theorem accounted_startLaunch (s : State) (l : Nat) : Accounted s (s.startLaunch l) := by
  unfold State.startLaunch
  split
  · dsimp only
    split <;> exact (show Accounted s { s with seq := s.seq + 1 } from rfl).trans ((accounted_modLaunch _ l _).trans (accounted_now _ _))
  · rfl

/-! ## The end of a launch -/

/-- The log entry of what ended a launch. -/
def logCause (s : State) (l : Nat) (x : Launch) : State :=
  match x.cause with
  | some (c, d) => s.log 0x70 l (BitVec.ofNat 64 c) (BitVec.ofNat 64 d)
  | none => s

/-- The queue of a launch that did not end DONE is told so. -/
def reportEnd (s : State) (st : LaunchStatus) (x : Launch) : State :=
  match st, x.queue with
  | .faulted, some q => s.report q x.index 8 0 false
  | .cancelled, some q => s.report q x.index 7 0 false
  | _, _ => s

theorem closeLaunch_eq {s : State} {l : Nat} {x : Launch} (hx : s.launch? l = some x) (st : LaunchStatus) :
    s.closeLaunch l st =
      reportEnd (logCause ((s.modLaunch l (fun y => { y with status := st })).signalDone x.rcd.guest x.rcd.done) l x) st x := by
  unfold State.closeLaunch
  rw [hx]
  rfl

theorem closeLaunch_none {s : State} {l : Nat} (hx : s.launch? l = none) (st : LaunchStatus) : s.closeLaunch l st = s := by
  unfold State.closeLaunch
  rw [hx]

theorem accounted_logCause (s : State) (l : Nat) (x : Launch) : Accounted s (logCause s l x) := by
  unfold logCause; split <;> rfl

theorem accounted_reportEnd (s : State) (st : LaunchStatus) (x : Launch) : Accounted s (reportEnd s st x) := by
  unfold reportEnd
  split
  · exact accounted_report ..
  · exact accounted_report ..
  · rfl

theorem accounted_closeLaunch (s : State) (l : Nat) (st : LaunchStatus) : Accounted s (s.closeLaunch l st) := by
  cases hx : s.launch? l with
  | none => rw [closeLaunch_none hx]; rfl
  | some x =>
    rw [closeLaunch_eq hx]
    exact (accounted_modLaunch ..).trans ((accounted_signalDone ..).trans ((accounted_logCause ..).trans (accounted_reportEnd ..)))

theorem accounted_releaseAfter (s : State) (l : Nat) (k : GraphKey) : Accounted s (s.releaseAfter l k) := by
  refine accounted_foldl (fun s p => ?_) _ s
  split
  · exact accounted_closeLaunch ..
  · split
    · exact accounted_startLaunch ..
    · rfl

theorem accounted_releaseDependents (s : State) (l : Nat) : Accounted s (s.releaseDependents l) := by
  unfold State.releaseDependents
  split
  · exact accounted_releaseAfter ..
  · rfl

theorem accounted_cancelArmed (s : State) (detail : Nat) (a : Armed) : Accounted s (s.cancelArmed detail a) := by
  unfold State.cancelArmed
  exact (accounted_withLaunches s _).trans ((accounted_closeLaunch _ _ _).trans (accounted_releaseAfter _ _ _))

theorem accounted_unarm (s : State) (which : Armed → Bool) : Accounted s (s.unarm which) := rfl

theorem accounted_endCancelled (s : State) (l : Nat) : Accounted s (s.endCancelled l) := by
  unfold State.endCancelled
  split
  · split
    · exact (accounted_closeLaunch ..).trans (accounted_releaseDependents ..)
    · unfold State.checkLaunch; split <;> rfl
  · rfl

/-! ## The table of launches -/

theorem modLaunch_eq {s : State} {l : Nat} {x : Launch} (hx : s.launch? l = some x) (f : Launch → Launch) :
    s.modLaunch l f = { s with launches := KMap.set s.launches l (f x) } := by
  simp [State.modLaunch, hx]

theorem launch?_modLaunch_self {s : State} {l : Nat} {x : Launch} (hx : s.launch? l = some x) (f : Launch → Launch) :
    (s.modLaunch l f).launch? l = some (f x) := by
  rw [modLaunch_eq hx]
  exact KMap.get?_set_self _ _ _

@[simp] theorem signalDone_launches (s : State) (g : BitVec 8) (done : Word) : (s.signalDone g done).launches = s.launches := by
  unfold State.signalDone; split <;> rfl

@[simp] theorem logCause_launches (s : State) (l : Nat) (x : Launch) : (logCause s l x).launches = s.launches := by
  unfold logCause; split <;> rfl

@[simp] theorem report_launches (s : State) (q index status field : Nat) (noop : Bool) :
    (s.report q index status field noop).launches = s.launches := by
  unfold State.report; split <;> rfl

@[simp] theorem reportEnd_launches (s : State) (st : LaunchStatus) (x : Launch) : (reportEnd s st x).launches = s.launches := by
  unfold reportEnd
  split
  · exact report_launches ..
  · exact report_launches ..
  · rfl

/-- The end of a launch sets its status in the table of launches, and nothing else of the table. -/
theorem closeLaunch_launches {s : State} {l : Nat} {x : Launch} (hx : s.launch? l = some x) (st : LaunchStatus) :
    (s.closeLaunch l st).launches = KMap.set s.launches l { x with status := st } := by
  rw [closeLaunch_eq hx, reportEnd_launches, logCause_launches, signalDone_launches, modLaunch_eq hx]

/-- So does the start of one, with the note of when it started. -/
theorem startLaunch_launches {s : State} {l : Nat} {x : Launch} (hx : s.launch? l = some x) :
    (s.startLaunch l).launches = KMap.set s.launches l { x with status := .running, started := s.seq, startedAt := s.clk } := by
  unfold State.startLaunch
  rw [hx]
  have hx' : ({ s with seq := s.seq + 1 } : State).launch? l = some x := hx
  dsimp only
  rw [modLaunch_eq hx']
  split <;> rfl

/-- A launch as it stands after the accounts have been brought up to date: the same record, with as many units placed, on the same queue. -/
structure SameLaunch (x y : Launch) : Prop where
  rcd : y.rcd = x.rcd
  placed : y.placed = x.placed
  queue : y.queue = x.queue
  cancelled : y.cancelled = x.cancelled

theorem SameLaunch.trans {x y z : Launch} (h : SameLaunch x y) (k : SameLaunch y z) : SameLaunch x z :=
  ⟨k.rcd.trans h.rcd, k.placed.trans h.placed, k.queue.trans h.queue, k.cancelled.trans h.cancelled⟩

/-- Launch l keeps its record and its place. -/
def KeepsLaunch (l : Nat) (s u : State) : Prop := ∀ x, s.launch? l = some x → ∃ y, u.launch? l = some y ∧ SameLaunch x y

theorem KeepsLaunch.of_launches {l : Nat} {s u : State} (h : u.launches = s.launches) : KeepsLaunch l s u :=
  fun x hx => ⟨x, (congrArg (KMap.get? · l) h).trans hx, rfl, rfl, rfl, rfl⟩

theorem KeepsLaunch.trans {l : Nat} {s u v : State} (h : KeepsLaunch l s u) (k : KeepsLaunch l u v) : KeepsLaunch l s v := by
  intro x hx
  obtain ⟨y, hy, hxy⟩ := h x hx
  obtain ⟨z, hz, hyz⟩ := k y hy
  exact ⟨z, hz, hxy.trans hyz⟩

/-- A launch of the table is replaced by one with the same record and place. -/
theorem keepsLaunch_of_set {l k : Nat} {s u : State} {x y : Launch} (hx : s.launch? k = some x) (hu : u.launches = KMap.set s.launches k y)
    (hxy : SameLaunch x y) : KeepsLaunch l s u := by
  intro z hz
  by_cases hl : l = k
  · subst hl
    obtain rfl := Option.some.inj (hx.symm.trans hz)
    exact ⟨y, by rw [State.launch?, hu]; exact KMap.get?_set_self _ _ _, hxy⟩
  · exact ⟨z, by rw [State.launch?, hu, KMap.get?_set_ne _ _ hl]; exact hz, rfl, rfl, rfl, rfl⟩

theorem keepsLaunch_closeLaunch (l : Nat) (s : State) (k : Nat) (st : LaunchStatus) : KeepsLaunch l s (s.closeLaunch k st) := by
  cases hx : s.launch? k with
  | none => rw [closeLaunch_none hx]; exact .of_launches rfl
  | some x => exact keepsLaunch_of_set hx (closeLaunch_launches hx st) ⟨rfl, rfl, rfl, rfl⟩

theorem keepsLaunch_startLaunch (l : Nat) (s : State) (k : Nat) : KeepsLaunch l s (s.startLaunch k) := by
  cases hx : s.launch? k with
  | none => unfold State.startLaunch; rw [hx]; exact .of_launches rfl
  | some x => exact keepsLaunch_of_set hx (startLaunch_launches hx) ⟨rfl, rfl, rfl, rfl⟩

theorem keepsLaunch_releaseAfter (l : Nat) (s : State) (k : Nat) (g : GraphKey) : KeepsLaunch l s (s.releaseAfter k g) := by
  unfold State.releaseAfter
  generalize s.launches.filter _ = ps
  induction ps generalizing s with
  | nil => exact .of_launches rfl
  | cons p ps ih =>
    refine KeepsLaunch.trans ?_ (ih _)
    dsimp only
    split
    · exact keepsLaunch_closeLaunch _ _ _ _
    · split
      · exact keepsLaunch_startLaunch _ _ _
      · exact .of_launches rfl

theorem keepsLaunch_releaseDependents (l : Nat) (s : State) (k : Nat) : KeepsLaunch l s (s.releaseDependents k) := by
  unfold State.releaseDependents
  split
  · exact keepsLaunch_releaseAfter _ _ _ _
  · exact .of_launches rfl

/-! ## The placement of a unit (R30, R31) -/

theorem clearBank_eq (s : State) (core : Nat) (g : BitVec 8) : ∃ b, s.clearBank core g = { s with banks := b } := by
  unfold State.clearBank; split <;> exact ⟨_, rfl⟩

theorem freshLocal_eq (s : State) (slot : Nat) : ∃ m, s.freshLocal slot = { s with mem := m } := by
  unfold State.freshLocal
  split
  · split <;> exact ⟨_, rfl⟩
  · exact ⟨_, rfl⟩

/-- A new thread, in the state of R31, of the next unit of a launch. -/
def unitThread (s : State) (l : Nat) (x : Launch) (slot : Nat) : Thread :=
  Thread.start slot x.rcd.guest (s.guest x.rcd.guest).gen l x.placed none (x.regs x.placed) x.rcd.code (s.guest x.rcd.guest).floor
    ((s.tile (tileOf slot)).bankMask x.rcd.guest) x.firmware 0

/-- Where the slot is free for the guest and its tile runs the guest, the unit's thread is in the slot. -/
theorem placeUnit_eq {s : State} {l : Nat} {x : Launch} {slot : Nat} (hx : s.launch? l = some x)
    (henter : s.mayEnter slot x.rcd.guest = true) (hruns : (s.tile (tileOf slot)).current = some x.rcd.guest) :
    ∃ banks mem owners, s.placeUnit l x slot = { s with
      banks := banks, mem := mem, owners := owners, threads := KMap.set s.threads s.nextTid (unitThread s l x slot)
      nextTid := s.nextTid + 1, launches := KMap.set s.launches l { x with placed := x.placed + 1 } } := by
  unfold State.placeUnit
  obtain ⟨b, hb⟩ := clearBank_eq s (coreOf slot) x.rcd.guest
  have hruns' : ¬ (({ s with banks := b } : State).tile (tileOf slot)).current.isNone = true := by
    rw [show ({ s with banks := b } : State).tile (tileOf slot) = s.tile (tileOf slot) from rfl, hruns]
    exact Bool.false_ne_true
  dsimp only
  rw [hb, if_neg hruns']
  have hplace : ({ s with banks := b } : State).entering (unitThread s l x slot) = unitThread s l x slot := by
    have henter' : ({ s with banks := b } : State).mayEnter (unitThread s l x slot).home (unitThread s l x slot).guest = true := henter
    rw [State.entering, if_pos henter']
    rfl
  obtain ⟨m, hm⟩ := freshLocal_eq { s with banks := b } slot
  refine ⟨b, m, KMap.set s.owners slot (x.rcd.guest, (s.guest x.rcd.guest).gen), ?_⟩
  show (({ s with banks := b } : State).addThread (({ s with banks := b } : State).entering (unitThread s l x slot))).modLaunch l _ = _
  rw [hplace, State.addThread, show (unitThread s l x slot).home = slot from rfl, hm]
  exact modLaunch_eq (by exact hx) _

/-! ## The completion of a launch (R33) -/

/-- A walk goes by the inverted table, its anchors and the guests. -/
theorem chain_congr {s u : State} (hf : u.frames = s.frames) (g gen : BitVec 8) (v size fuel f : Nat) :
    u.chain g gen v size fuel f = s.chain g gen v size fuel f := by
  induction fuel generalizing f with
  | zero => rfl
  | succ fuel ih => simp only [State.chain, hf, ih]

theorem walk_congr {s u : State} (hf : u.frames = s.frames) (ha : u.anchors = s.anchors) (hg : u.guests = s.guests) (g : BitVec 8) (va : Nat) :
    u.walk g va = s.walk g va := by
  have hprobe : ∀ size, u.probe g va size = s.probe g va size := by
    intro size
    simp only [State.probe, State.guest, hf, ha, hg, chain_congr hf]
  simp only [State.walk, hprobe]

/-- A counter whose page is mapped is signalled by an atomic for the next cycle. -/
theorem signalDone_page {s : State} {g : BitVec 8} {done : Word} {e : TlbEntry} (h : s.walk g (low56 done) = .page e) :
    s.signalDone g done = s.post placeOfFront noChan (s.clk + 1) s.cur (.event (frontAdd s g done (e.phys (low56 done)))) := by
  unfold State.signalDone
  rw [h]

theorem frontAdd_congr {s u : State} (hg : u.guests = s.guests) (g : BitVec 8) (done : Word) (pa : Nat) :
    frontAdd u g done pa = frontAdd s g done pa := by
  simp only [frontAdd, State.guest, hg]

theorem logCause_agenda (s : State) (l : Nat) (x : Launch) : (logCause s l x).agenda = s.agenda := by
  unfold logCause; split <;> rfl

/-- A launch that is done signals its counter. -/
theorem closeLaunch_done_agenda {s : State} {l : Nat} {x : Launch} {e : TlbEntry} (hx : s.launch? l = some x)
    (he : s.walk x.rcd.guest (low56 x.rcd.done) = .page e) :
    Emits s (s.closeLaunch l .done) 1 (frontAdd s x.rcd.guest x.rcd.done (e.phys (low56 x.rcd.done))) := by
  have he' : (s.modLaunch l (fun y => { y with status := .done })).walk x.rcd.guest (low56 x.rcd.done) = .page e :=
    (walk_congr (accounted_modLaunch s l _).frames (accounted_modLaunch s l _).anchors (accounted_modLaunch s l _).guests _ _).trans he
  have hclk := (accounted_modLaunch s l (fun y => { y with status := .done })).clk
  rw [closeLaunch_eq hx, signalDone_page he', frontAdd_congr (accounted_modLaunch s l _).guests, hclk]
  obtain ⟨q, hq, hwork, hdue⟩ := emits_post (s.modLaunch l (fun y => { y with status := .done })) placeOfFront (s.clk + 1)
    (s.modLaunch l (fun y => { y with status := .done })).cur 1 (frontAdd s x.rcd.guest x.rcd.done (e.phys (low56 x.rcd.done))) (by rw [hclk])
  refine ⟨q, ?_, hwork, hclk ▸ hdue⟩
  show q ∈ (logCause _ l x).agenda
  rw [logCause_agenda]
  exact hq

/-- Where no launch waits, none starts and none ends. -/
theorem releaseAfter_of_none_waiting {s : State} (h : ∀ p ∈ s.launches, p.2.status ≠ .waiting) (l : Nat) (k : GraphKey) :
    s.releaseAfter l k = s := by
  have hnone : s.launches.filter (fun p => p.2.status == .waiting && p.2.graphKey == k && decide (l < p.1)) = [] := by
    rw [List.filter_eq_nil_iff]
    intro p hp
    simp [h p hp]
  unfold State.releaseAfter
  rw [hnone]
  rfl

theorem releaseDependents_of_none_waiting {s : State} (h : ∀ p ∈ s.launches, p.2.status ≠ .waiting) (l : Nat) :
    s.releaseDependents l = s := by
  unfold State.releaseDependents
  split
  · exact releaseAfter_of_none_waiting h ..
  · rfl

/-- A launch that has met R33's conditions without a fault or a cancel is DONE, and its lines are unlocked. -/
theorem completeLaunch_eq {s : State} {l : Nat} {x : Launch} (hx : s.launch? l = some x) (hdone : s.launchDone l = true)
    (hc : x.cancelled = false) (hf : x.faulted = false) (hw : ∀ p ∈ s.launches, p.2.status ≠ .waiting) :
    s.completeLaunch l = { s.closeLaunch l .done with locks := (s.closeLaunch l .done).locks.filter (fun k => k.launch != l) } := by
  unfold State.completeLaunch
  rw [hx]
  simp only [hdone, hc, hf, if_true, Bool.false_eq_true, if_false]
  refine releaseDependents_of_none_waiting (fun p hp => ?_) l
  have hp' : p ∈ KMap.set s.launches l { x with status := .done } := (closeLaunch_launches hx .done) ▸ hp
  obtain rfl | hold := KMap.mem_set hp'
  · exact nofun
  · exact hw p hold

/-! ## The cancel of a launch (R34) -/

/-- An armed record that a cancel finds ends CANCELLED; a launch that is cancelled stays so. -/
theorem cancelArmed_cancelled {s : State} {l : Nat} {x : Launch} (hx : s.launch? l = some x) (hc : x.cancelled = true) (detail : Nat) (a : Armed) :
    ∃ y, (s.cancelArmed detail a).launch? l = some y ∧ y.cancelled = true := by
  unfold State.cancelArmed
  have hset : ∃ y, ({ s with launches := KMap.set s.launches a.number ((Launch.ofRecord a.rcd a.queue a.index).blame .cancelled causeCancel detail) } :
      State).launch? l = some y ∧ y.cancelled = true := by
    by_cases hl : l = a.number
    · subst hl
      exact ⟨_, KMap.get?_set_self _ _ _, rfl⟩
    · exact ⟨x, (KMap.get?_set_ne _ _ hl).trans hx, hc⟩
  obtain ⟨y, hy, hyc⟩ := hset
  obtain ⟨z, hz, hyz⟩ := KeepsLaunch.trans (keepsLaunch_closeLaunch l _ a.number .cancelled) (keepsLaunch_releaseAfter l _ a.number a.graphKey) y hy
  exact ⟨z, hz, hyz.cancelled.trans hyc⟩

theorem cancelArmed_foldl_cancelled {s : State} {l : Nat} {x : Launch} (hx : s.launch? l = some x) (hc : x.cancelled = true) (detail : Nat)
    (as : List Armed) : ∃ y, (as.foldl (fun s a => s.cancelArmed detail a) s).launch? l = some y ∧ y.cancelled = true := by
  induction as generalizing s x with
  | nil => exact ⟨x, hx, hc⟩
  | cons a as ih =>
    obtain ⟨y, hy, hyc⟩ := cancelArmed_cancelled hx hc detail a
    exact ih hy hyc

theorem keepsLaunch_endCancelled (l : Nat) (s : State) (k : Nat) : KeepsLaunch l s (s.endCancelled k) := by
  unfold State.endCancelled
  split
  · split
    · exact KeepsLaunch.trans (keepsLaunch_closeLaunch _ _ _ _) (keepsLaunch_releaseDependents _ _ _)
    · unfold State.checkLaunch; split <;> exact .of_launches rfl
  · exact .of_launches rfl

/-- The one thread there is, which does not wait, keeps a cancel of its launch. -/
theorem cancelThreads_single {s : State} {t : Nat} {th : Thread} (hs : s.threads = [(t, th)]) (hh : th.halted = false) (hw : th.wait = .none)
    (c : CancelScope) {ls : List Nat} (hl : ls.contains th.launch = true) :
    s.cancelThreads c ls [] = s.setThread t { th with cancel := some (cancelDetail c) } := by
  have hmine : [(t, th)].filter (fun p => ls.contains p.2.launch) = [(t, th)] := List.filter_eq_self.2 (by simpa using hl)
  have hget : s.thread? t = some th := by rw [State.thread?, hs]; simp [KMap.get?]
  unfold State.cancelThreads
  rw [hs, hmine]
  simp [hget, State.cancelThread, hh, hw, Wait.openEnded]

theorem setThread_single {s : State} {t : Nat} {th : Thread} (hs : s.threads = [(t, th)]) (y : Thread) : (s.setThread t y).threads = [(t, y)] := by
  simp [State.setThread, hs, KMap.set]

/-- A cancel of the one launch there is, which runs: the accounts are settled, and its thread keeps the cancel. -/
theorem cancelScope_launch_eq {s : State} {l : Nat} {x : Launch} (hl : s.launches = [(l, x)]) (hr : x.status = .running) :
    s.cancelScope (.launch l) = (((s.armed.filter (fun a => a.number == l)).foldl (fun s a => s.cancelArmed 0 a)
      ((s.modLaunch l (fun x => x.blame .cancelled causeCancel 0)).unarm
        (fun a => (s.armed.filter (fun a => a.number == l)).contains a))).cancelThreads (.launch l) [l] []).endCancelled l := by
  have hmine : (s.launches.filter (fun p => cancelCovers (.launch l) p.1 p.2.rcd && p.2.pending)).map (·.1) = [l] := by
    simp [hl, cancelCovers, Launch.pending, hr]
  unfold State.cancelScope
  rw [hmine]
  rfl

theorem cancelScope_launch {s : State} {l t : Nat} {x : Launch} {th : Thread} (hs : s.threads = [(t, th)]) (hl : s.launches = [(l, x)])
    (hr : x.status = .running) (hth : th.launch = l) (hh : th.halted = false) (hw : th.wait = .none) :
    (s.cancelScope (.launch l)).threads = [(t, { th with cancel := some 0 })] ∧
      (∃ y, (s.cancelScope (.launch l)).launch? l = some y ∧ y.cancelled = true) ∧ (s.cancelScope (.launch l)).mem = s.mem := by
  rw [cancelScope_launch_eq hl hr]
  have hx : s.launch? l = some x := by rw [State.launch?, hl]; simp [KMap.get?]
  generalize s.armed.filter _ = as
  have hacc : Accounted s (as.foldl (fun (s : State) a => s.cancelArmed 0 a) ((s.modLaunch l (fun x => x.blame .cancelled causeCancel 0)).unarm (fun a => as.contains a))) :=
    (accounted_modLaunch s l _).trans (Accounted.trans (accounted_unarm _ _) (accounted_foldl (fun s a => accounted_cancelArmed s 0 a) as _))
  have hcan := cancelArmed_foldl_cancelled (s := (s.modLaunch l (fun x => x.blame .cancelled causeCancel 0)).unarm (fun a => as.contains a))
    (launch?_modLaunch_self hx _) rfl 0 as
  generalize as.foldl (fun (s : State) a => s.cancelArmed 0 a) _ = u at hacc hcan ⊢
  obtain ⟨y, hy, hyc⟩ := hcan
  have hthreads := hacc.threads.trans hs
  rw [cancelThreads_single hthreads hh hw _ (by simp [hth])]
  have hend := accounted_endCancelled (u.setThread t { th with cancel := some 0 }) l
  obtain ⟨z, hz, hyz⟩ := keepsLaunch_endCancelled l (u.setThread t { th with cancel := some 0 }) l y hy
  exact ⟨hend.threads.trans (setThread_single hthreads _), ⟨z, hz, hyz.cancelled.trans hyc⟩, hend.mem.trans hacc.mem⟩

/-! ## Queues (R352, R353) -/

theorem report_queue {s : State} {q : Nat} {x : Queue} (hx : KMap.get? s.queues q = some x) (index status field : Nat) (noop : Bool) :
    KMap.get? (s.report q index status field noop).queues q = some { x with
      qIndex := BitVec.ofNat 32 index, qField := BitVec.ofNat 8 field, qNoop := noop, qStatus := BitVec.ofNat 8 status } := by
  unfold State.report
  rw [hx]
  exact KMap.get?_set_self _ _ _

/-- Queue q stands where it stood, and runs if it ran. -/
def KeepsQueue (q : Nat) (s u : State) : Prop :=
  ∀ x, KMap.get? s.queues q = some x → ∃ y, KMap.get? u.queues q = some y ∧ y.head = x.head ∧ y.qStop = x.qStop

theorem KeepsQueue.of_queues {q : Nat} {s u : State} (h : u.queues = s.queues) : KeepsQueue q s u :=
  fun x hx => ⟨x, by rw [h]; exact hx, rfl, rfl⟩

theorem keepsQueue_report (q : Nat) (s : State) (k index status field : Nat) (noop : Bool) :
    KeepsQueue q s (s.report k index status field noop) := by
  intro x hx
  by_cases hq : q = k
  · subst hq
    exact ⟨_, report_queue hx .., rfl, rfl⟩
  · refine ⟨x, ?_, rfl, rfl⟩
    unfold State.report
    split
    · exact (KMap.get?_set_ne _ _ hq).trans hx
    · exact hx

theorem modLaunch_queues (s : State) (l : Nat) (f : Launch → Launch) : (s.modLaunch l f).queues = s.queues := by
  unfold State.modLaunch; split <;> rfl

theorem signalDone_queues (s : State) (g : BitVec 8) (done : Word) : (s.signalDone g done).queues = s.queues := by
  unfold State.signalDone; split <;> rfl

theorem logCause_queues (s : State) (l : Nat) (x : Launch) : (logCause s l x).queues = s.queues := by
  unfold logCause; split <;> rfl

theorem startLaunch_queues (s : State) (l : Nat) : (s.startLaunch l).queues = s.queues := by
  unfold State.startLaunch
  split
  · dsimp only
    split <;> exact modLaunch_queues ..
  · rfl

theorem keepsQueue_closeLaunch (q : Nat) (s : State) (l : Nat) (st : LaunchStatus) : KeepsQueue q s (s.closeLaunch l st) := by
  cases hx : s.launch? l with
  | none => rw [closeLaunch_none hx]; exact .of_queues rfl
  | some x =>
    rw [closeLaunch_eq hx]
    intro y hy
    have hy' : KMap.get? (logCause ((s.modLaunch l (fun y => { y with status := st })).signalDone x.rcd.guest x.rcd.done) l x).queues q = some y := by
      rw [logCause_queues, signalDone_queues, modLaunch_queues]
      exact hy
    revert hy'
    generalize logCause _ l x = u
    intro hy'
    unfold reportEnd
    split
    · exact keepsQueue_report _ _ _ _ _ _ _ y hy'
    · exact keepsQueue_report _ _ _ _ _ _ _ y hy'
    · exact ⟨y, hy', rfl, rfl⟩

/-- An accepted launch has the record, no unit placed, and the queue that it came from. -/
theorem acceptLaunch_launch (s : State) (r : Record) (queue : Option Nat) (index l : Nat) :
    ∃ y, (s.acceptLaunch r queue index l).launch? l = some y ∧ SameLaunch (Launch.ofRecord r queue index) y := by
  have hx : ({ s with launches := KMap.set s.launches l (Launch.ofRecord r queue index) } : State).launch? l =
    some (Launch.ofRecord r queue index) := KMap.get?_set_self _ _ _
  unfold State.acceptLaunch
  dsimp only
  split
  · exact keepsLaunch_startLaunch l _ l _ hx
  · split
    · exact keepsLaunch_closeLaunch l _ l _ _ hx
    · exact ⟨_, hx, rfl, rfl, rfl, rfl⟩

theorem accounted_acceptLaunch (s : State) (r : Record) (queue : Option Nat) (index l : Nat) : Accounted s (s.acceptLaunch r queue index l) := by
  unfold State.acceptLaunch
  dsimp only
  split
  · exact (accounted_withLaunches s _).trans (accounted_startLaunch _ _)
  · split
    · exact (accounted_withLaunches s _).trans (accounted_closeLaunch _ _ _)
    · exact accounted_withLaunches s _

theorem keepsQueue_acceptLaunch (q : Nat) (s : State) (r : Record) (queue : Option Nat) (index l : Nat) :
    KeepsQueue q s (s.acceptLaunch r queue index l) := by
  unfold State.acceptLaunch
  dsimp only
  split
  · exact .of_queues (startLaunch_queues ..)
  · split
    · exact fun x hx => keepsQueue_closeLaunch _ _ _ _ x hx
    · exact .of_queues rfl

theorem offerRecord_queues (s : State) (q : Nat) : (s.offerRecord q).queues = s.queues := by
  unfold State.offerRecord
  split
  · split <;> rfl
  · rfl

theorem offerRecord_launches (s : State) (q : Nat) : (s.offerRecord q).launches = s.launches := by
  unfold State.offerRecord
  split
  · split <;> rfl
  · rfl

theorem accounted_offerRecord (s : State) (q : Nat) : Accounted s (s.offerRecord q) := by
  unfold State.offerRecord
  split
  · split <;> rfl
  · rfl

theorem queue_setQueue_self (s : State) (q : Nat) (x : Queue) : KMap.get? (s.setQueue q x).queues q = some x := KMap.get?_set_self _ _ _

/-- The checks of a record go by the page tables and the armed records. -/
theorem recordFault_withEvent (s : State) (e : Option Event) (b : Line) (owner : BitVec 8) :
    ({ s with event := e } : State).recordFault b owner = s.recordFault b owner := by
  have hmapped : ∀ g va n perm, ({ s with event := e } : State).mapped g va n perm = s.mapped g va n perm := by
    intro g va n perm
    unfold State.mapped
    simp only [walk_congr (s := s) (u := { s with event := e }) rfl rfl rfl]
  simp only [State.recordFault, State.capabilityFault, hmapped]
  rfl

section
variable {s : State} {q : Nat} {x : Queue}

/-- A record that fails a check stops its queue. -/
theorem readRecord_fault (hx : KMap.get? s.queues q = some x) (hb : s.booted = true) (hs : x.qStop = false) (hne : x.head ≠ x.tail)
    {f : QStatus} (hf : s.recordFault (x.record x.ringIndex) x.guest = some f) :
    s.readRecord q = (s.setQueue q { x with qStop := true }).report q x.ringIndex f.code f.field false := by
  unfold State.readRecord
  rw [hx]
  simp [hb, hs, hne, hf]

/-- A launch record that passes its checks becomes a launch under the next number. -/
theorem readRecord_launch (hx : KMap.get? s.queues q = some x) (hb : s.booted = true) (hs : x.qStop = false) (hne : x.head ≠ x.tail)
    (hf : s.recordFault (x.record x.ringIndex) x.guest = none) (hk : (Record.ofBytes (x.record x.ringIndex)).kind = 0)
    (ht : (Record.ofBytes (x.record x.ringIndex)).timed = false) :
    s.readRecord q = (({ s.setQueue q { x with head := x.head + 1 } with nextLaunch := s.nextLaunch + 1 } : State).acceptLaunch
      (Record.ofBytes (x.record x.ringIndex)) (some q) x.ringIndex s.nextLaunch).offerRecord q := by
  unfold State.readRecord
  rw [hx]
  simp [hb, hs, hne, hf, State.takeRecord, hk, ht, State.launchNumber, State.setQueue]

/-- TAIL takes a value that does not pass HEAD by more than the ring, and no other. -/
theorem writeTail_eq (hx : KMap.get? s.queues q = some x) (v : Word) :
    s.writeTail q v [] = if v.toNat / 2 ^ 32 ≠ 0 ∨ 2 ^ x.ringExp < (v.setWidth 32 - x.head : BitVec 32).toNat then s.setQueue q x
      else (s.setQueue q { x with tail := v.setWidth 32 }).offerRecord q := by
  unfold State.writeTail
  rw [hx]
  rfl

/-- STATUS 0 takes a stopped queue past its record. -/
theorem writeStatus_zero (hx : KMap.get? s.queues q = some x) (hs : x.qStop = true) :
    s.writeStatus q 0 = (s.setQueue q { x with qStatus := 0, qStop := false, head := x.head + 1 }).offerRecord q := by
  unfold State.writeStatus
  rw [hx]
  simp [hs, bits]

theorem writeStatus_reserved (hx : KMap.get? s.queues q = some x) {v : Word} (hv : v.toNat / 2 ^ 9 % 2 ^ 15 ≠ 0) : s.writeStatus q v = s := by
  unfold State.writeStatus
  rw [hx]
  exact if_pos hv

end

/-! ## The events -/

theorem exec_unitPlacement_event (s : State) (l : Nat) :
    exec (Event.unitPlacement l).instr { s with event := some (.unitPlacement l) } = .next (({ s with event := none } : State).placeNext l) := rfl
theorem exec_launchCompletion_event (s : State) (l : Nat) :
    exec (Event.launchCompletion l).instr { s with event := some (.launchCompletion l) } = .next (({ s with event := none } : State).completeLaunch l) := rfl
theorem exec_cancel_event (s : State) (l : Nat) :
    exec (Event.cancel (.launch l)).instr { s with event := some (.cancel (.launch l)) } =
      .next (({ s with event := none } : State).cancelScope (.launch l)) := rfl
theorem exec_queueRecord_event (s : State) (q : Nat) :
    exec (Event.queueRecord q).instr { s with event := some (.queueRecord q) } = .next (({ s with event := none } : State).readRecord q) := rfl
theorem exec_qtailWrite_event (s : State) (q : Nat) (v : Word) (rs : List (Nat × Line)) :
    exec (Event.qtailWrite q v rs).instr { s with event := some (.qtailWrite q v rs) } = .next (({ s with event := none } : State).writeTail q v rs) := rfl
theorem exec_qstatWrite_event (s : State) (q : Nat) (v : Word) :
    exec (Event.qstatWrite q v).instr { s with event := some (.qstatWrite q v) } = .next (({ s with event := none } : State).writeStatus q v) := rfl

section
variable {s : State} {l : Nat} {x : Launch}

theorem runs_unitPlacement (hx : s.launch? l = some x) {slot : Nat} (hr : x.status = .running) (hc : x.cancelled = false)
    (hu : x.placed < x.rcd.units) (hslot : s.placeFor l x = some slot) (henter : s.mayEnter slot x.rcd.guest = true)
    (hruns : (s.tile (tileOf slot)).current = some x.rcd.guest) :
    Runs s (.unitPlacement l) (fun u => u.thread? s.nextTid = some (unitThread s l x slot) ∧
      u.launch? l = some { x with placed := x.placed + 1 } ∧ Emits s u 0 (.unitPlacement l) ∧ SameOthers s u s.nextTid) := by
  obtain ⟨banks, mem, owners, hplace⟩ := placeUnit_eq (s := { s with event := none }) hx henter hruns
  have hnext : ({ s with event := none } : State).placeNext l = (({ s with event := none } : State).placeUnit l x slot).now (.unitPlacement l) := by
    unfold State.placeNext
    rw [show ({ s with event := none } : State).launch? l = some x from hx]
    dsimp only
    rw [if_pos ⟨hr, by simp [hc], hu⟩, show ({ s with event := none } : State).placeFor l x = some slot from hslot]
  refine ⟨_, exec_unitPlacement_event s l, ?_⟩
  rw [hnext, hplace]
  exact ⟨KMap.get?_set_self _ _ _, KMap.get?_set_self _ _ _, emits_now _ _, fun t ht => KMap.get?_set_ne _ _ ht⟩

theorem runs_launchCompletion (hx : s.launch? l = some x) {e : TlbEntry} (hdone : s.launchDone l = true) (hc : x.cancelled = false)
    (hf : x.faulted = false) (he : s.walk x.rcd.guest (low56 x.rcd.done) = .page e) (hw : ∀ p ∈ s.launches, p.2.status ≠ .waiting) :
    Runs s (.launchCompletion l) (fun u => u.launch? l = some { x with status := .done } ∧
      Emits s u 1 (frontAdd s x.rcd.guest x.rcd.done (e.phys (low56 x.rcd.done))) ∧ (∀ k ∈ u.locks, k.launch ≠ l) ∧
      u.threads = s.threads ∧ u.mem = s.mem) := by
  refine ⟨_, exec_launchCompletion_event s l, ?_⟩
  have hacc := accounted_closeLaunch { s with event := none } l .done
  rw [completeLaunch_eq (s := { s with event := none }) hx hdone hc hf hw]
  refine ⟨?_, ?_, fun k hk => ?_, hacc.threads, hacc.mem⟩
  · exact (congrArg (KMap.get? · l) (closeLaunch_launches (s := { s with event := none }) hx .done)).trans (KMap.get?_set_self _ _ _)
  · exact closeLaunch_done_agenda (s := { s with event := none }) hx ((walk_congr (s := s) (u := { s with event := none }) rfl rfl rfl _ _).trans he)
  · simpa using (List.mem_filter.1 hk).2

theorem runs_cancel_launch {t : Nat} {th : Thread} (hs : s.threads = [(t, th)]) (hl : s.launches = [(l, x)]) (hr : x.status = .running)
    (hth : th.launch = l) (hh : th.halted = false) (hw : th.wait = .none) :
    Runs s (.cancel (.launch l)) (fun u => u.threads = [(t, { th with cancel := some 0 })] ∧
      (∃ y, u.launch? l = some y ∧ y.cancelled = true) ∧ u.mem = s.mem) :=
  ⟨_, exec_cancel_event s l, cancelScope_launch (s := { s with event := none }) hs hl hr hth hh hw⟩

end

section
variable {s : State} {q : Nat} {x : Queue}

theorem runs_queueRecord_fault (hx : KMap.get? s.queues q = some x) (hb : s.booted = true) (hs : x.qStop = false) (hne : x.head ≠ x.tail)
    {f : QStatus} (hf : s.recordFault (x.record x.ringIndex) x.guest = some f) :
    Runs s (.queueRecord q) (fun u => ∃ y, KMap.get? u.queues q = some y ∧ y.head = x.head ∧ y.qStop = true ∧
      y.qStatus = BitVec.ofNat 8 f.code ∧ y.qField = BitVec.ofNat 8 f.field ∧ u.launches = s.launches ∧ u.mem = s.mem) := by
  refine ⟨_, exec_queueRecord_event s q, ?_⟩
  rw [readRecord_fault (s := { s with event := none }) hx hb hs hne ((recordFault_withEvent ..).trans hf)]
  exact ⟨_, report_queue (queue_setQueue_self _ _ _) .., rfl, rfl, rfl, rfl, report_launches .., (accounted_report ..).mem⟩

theorem runs_queueRecord_launch (hx : KMap.get? s.queues q = some x) (hb : s.booted = true) (hs : x.qStop = false) (hne : x.head ≠ x.tail)
    (hf : s.recordFault (x.record x.ringIndex) x.guest = none) (hk : (Record.ofBytes (x.record x.ringIndex)).kind = 0)
    (ht : (Record.ofBytes (x.record x.ringIndex)).timed = false) :
    Runs s (.queueRecord q) (fun u => (∃ y, KMap.get? u.queues q = some y ∧ y.head = x.head + 1 ∧ y.qStop = false) ∧
      (∃ y, u.launch? s.nextLaunch = some y ∧ y.rcd = Record.ofBytes (x.record x.ringIndex) ∧ y.placed = 0 ∧ y.queue = some q) ∧
      u.mem = s.mem ∧ u.threads = s.threads) := by
  refine ⟨_, exec_queueRecord_event s q, ?_⟩
  rw [readRecord_launch (s := { s with event := none }) hx hb hs hne ((recordFault_withEvent ..).trans hf) hk ht]
  generalize hv : ({ State.setQueue { s with event := none } q { x with head := x.head + 1 } with nextLaunch := s.nextLaunch + 1 } : State) = v
  have hqueue : KMap.get? v.queues q = some { x with head := x.head + 1 } := hv ▸ KMap.get?_set_self _ _ _
  have hacc := (accounted_acceptLaunch v (Record.ofBytes (x.record x.ringIndex)) (some q) x.ringIndex s.nextLaunch).trans (accounted_offerRecord _ q)
  obtain ⟨y, hy, hhead, hstop⟩ := keepsQueue_acceptLaunch q v (Record.ofBytes (x.record x.ringIndex)) (some q) x.ringIndex s.nextLaunch _ hqueue
  obtain ⟨z, hz, hsame⟩ := acceptLaunch_launch v (Record.ofBytes (x.record x.ringIndex)) (some q) x.ringIndex s.nextLaunch
  refine ⟨⟨y, ?_, hhead, hstop.trans hs⟩, ⟨z, ?_, hsame.rcd, hsame.placed, hsame.queue⟩, ?_, ?_⟩
  · exact (congrArg (KMap.get? · q) (offerRecord_queues _ _)).trans hy
  · exact (congrArg (KMap.get? · s.nextLaunch) (offerRecord_launches _ _)).trans hz
  · exact hacc.mem.trans (hv ▸ rfl)
  · exact hacc.threads.trans (hv ▸ rfl)

/-- A tail in reach is taken. -/
theorem runs_qtailWrite (hx : KMap.get? s.queues q = some x) {v : Word} (hv : v.toNat < 2 ^ 32)
    (hring : (v.setWidth 32 - x.head : BitVec 32).toNat ≤ 2 ^ x.ringExp) :
    Runs s (.qtailWrite q v []) (fun u => ∃ y, KMap.get? u.queues q = some y ∧ y.tail = v.setWidth 32 ∧ y.head = x.head ∧ u.mem = s.mem) := by
  refine ⟨_, exec_qtailWrite_event s q v [], ?_⟩
  rw [writeTail_eq (s := { s with event := none }) hx,
    if_neg (by rw [Nat.div_eq_of_lt hv]; exact not_or.2 ⟨not_not.2 rfl, Nat.not_lt.2 hring⟩)]
  refine ⟨_, (congrArg (KMap.get? · q) (offerRecord_queues _ _)).trans (queue_setQueue_self _ _ _), rfl, rfl, (accounted_offerRecord _ _).mem⟩

/-- Another is not. -/
theorem runs_qtailWrite_ignored (hx : KMap.get? s.queues q = some x) {v : Word}
    (hv : 2 ^ 32 ≤ v.toNat ∨ 2 ^ x.ringExp < (v.setWidth 32 - x.head : BitVec 32).toNat) :
    Runs s (.qtailWrite q v []) (fun u => ∃ y, KMap.get? u.queues q = some y ∧ y.tail = x.tail ∧ y.head = x.head ∧ u.mem = s.mem) := by
  refine ⟨_, exec_qtailWrite_event s q v [], ?_⟩
  rw [writeTail_eq (s := { s with event := none }) hx, if_pos (hv.imp_left (fun h => by omega))]
  exact ⟨x, queue_setQueue_self _ _ _, rfl, rfl, rfl⟩

theorem runs_qstatWrite_zero (hx : KMap.get? s.queues q = some x) (hs : x.qStop = true) :
    Runs s (.qstatWrite q 0) (fun u => ∃ y, KMap.get? u.queues q = some y ∧ y.qStop = false ∧ y.head = x.head + 1 ∧ y.qStatus = 0 ∧
      u.mem = s.mem) := by
  refine ⟨_, exec_qstatWrite_event s q 0, ?_⟩
  rw [writeStatus_zero (s := { s with event := none }) hx hs]
  exact ⟨_, (congrArg (KMap.get? · q) (offerRecord_queues _ _)).trans (queue_setQueue_self _ _ _), rfl, rfl, rfl, (accounted_offerRecord _ _).mem⟩

theorem runs_qstatWrite_reserved (hx : KMap.get? s.queues q = some x) {v : Word} (hv : v.toNat / 2 ^ 9 % 2 ^ 15 ≠ 0) :
    Runs s (.qstatWrite q v) (fun u => { u with event := s.event } = s) :=
  ⟨_, exec_qstatWrite_event s q v, by rw [writeStatus_reserved (s := { s with event := none }) hx hv]⟩

end

/-- The starting registers of a unit (R31). -/
theorem unitThread_regs (s : State) (l : Nat) (x : Launch) (slot : Nat) :
    (unitThread s l x slot).x[3] = x.rcd.param ∧ (unitThread s l x slot).x[4] = BitVec.ofNat 64 x.placed ∧
      (unitThread s l x slot).x[5] = BitVec.ofNat 64 x.rcd.units ∧ (unitThread s l x slot).x[6] = x.rcd.const ∧
      (unitThread s l x slot).x[2] = BitVec.ofNat 64 (0x82 * 2 ^ 56 + 512) := by
  simp [unitThread, Thread.start, Launch.regs, topOfAllotment, Config.localBytes]

theorem unitThread_guards (s : State) (l : Nat) (x : Launch) (slot : Nat) (j : Nat) (h : j < 8) : (unitThread s l x slot).q[j] = .ff := by
  simp [unitThread, Thread.start]

/-- Settles O49: each clause is one outcome of an event, by what it does to the tables of threads, launches and queues. -/
theorem launchEvents : Obligations.LaunchEvents := by
  refine ⟨fun s l x hx => ⟨?_, ?_, ?_⟩, fun s q x hx => ⟨fun hb hs hne => ⟨fun f hf => ?_, fun hf hk ht => ?_⟩, fun v => ⟨?_, ?_⟩, ?_, ?_⟩⟩
  · intro slot hr hc hu hslot henter hruns
    obtain ⟨u, hexec, hth, hlaunch, hemits, hothers⟩ := runs_unitPlacement hx hr hc hu hslot henter hruns
    obtain ⟨h3, h4, h5, h6, h2⟩ := unitThread_regs s l x slot
    exact ⟨u, hexec, _, _, hth, rfl, rfl, rfl, rfl, rfl, rfl, h3, h4, h5, h6, h2, rfl, rfl, unitThread_guards s l x slot, hlaunch, rfl,
      hemits, hothers⟩
  · intro e hdone hc hf he hw
    obtain ⟨u, hexec, hlaunch, hemits, hlocks, hthreads, hmem⟩ := runs_launchCompletion hx hdone hc hf he hw
    exact ⟨u, hexec, ⟨_, hlaunch, rfl⟩, ⟨_, hemits, rfl, rfl, rfl, rfl⟩, hlocks, hthreads, hmem⟩
  · intro t th hs hl hr hth hh hw
    exact runs_cancel_launch hs hl hr hth hh hw
  · exact runs_queueRecord_fault hx hb hs hne hf
  · exact runs_queueRecord_launch hx hb hs hne hf hk ht
  · exact runs_qtailWrite hx
  · exact runs_qtailWrite_ignored hx
  · exact runs_qstatWrite_zero hx
  · exact fun v hv => runs_qstatWrite_reserved hx hv

end Sys2Proof.Proofs
end

section
/-!
PROOFS. How an instruction that sends a message leaves: the send queue's gate (R26), the tag (R126, R127), the message (R284, R340), and what it
leaves unchanged.
-/

namespace Sys2Proof.Proofs

open Sys2Proof Sys2Proof.Machine Sys2Proof.Claims

/-! ## The thread that sends -/

/-- The instruction in hand is carried out for thread t: at its issue, or where it rejoins. -/
def Carried (s : State) (t : Nat) (th : Thread) : Prop := Issuing s t th ∨ Rejoining s t th

theorem onThread_carried {s : State} {t : Nat} {th : Thread} (h : Carried s t th) (len : Nat) (regs : List Reg)
    (f : Nat → Thread → State) : onThread s len regs f = .next (f t (th.noted len regs)) := by
  obtain h | ⟨rfl, hth, hrun, hreplay⟩ := h
  · exact onThread_issuing h len regs f
  · have hrefused : ¬ (th.halted || (th.place.isNone && !th.replay)) = true := by simp [hrun, hreplay]
    unfold onThread
    rw [hth]
    exact if_neg hrefused

/-- A thread with an instruction in hand: its length is noted, whether it names a shared register, and the thread's latest tag. -/
def sending (th : Thread) (len : Nat) (shared : Bool) (tag : BitVec 32) : Thread :=
  { th with ilen := len, usedShared := shared, lastTag := tag }

/-- Completing such an instruction goes on to the next word. -/
theorem goesOn_sending (th : Thread) (len : Nat) (shared : Bool) (tag : BitVec 32) :
    GoesOn th (sending th len shared tag).advance len :=
  goesOn_advance th _ len rfl rfl rfl rfl rfl

/-- It changes nothing else of the thread than the tag. -/
theorem sameRest_sending (th : Thread) (len : Nat) (shared : Bool) (tag : BitVec 32) :
    SameRest th { (sending th len shared tag).advance with lastTag := th.lastTag } := rfl

/-- The thread as it leaves the rotation. -/
def awaiting (s : State) (th : Thread) (w : Wait) : Thread := { s.leaving th with wait := w, waitWid := th.waitWid + 1 }

theorem awaiting_wait (s : State) (th : Thread) (w : Wait) : (awaiting s th w).wait = w := rfl

/-- What leaving the rotation notes is the clock and the shared registers that the instruction saw. -/
theorem awaiting_frame (s : State) (th : Thread) (w : Wait) :
    { awaiting s th w with wait := th.wait, waitWid := th.waitWid, issueClock := th.issueClock, issueBank := th.issueBank } = th := by
  unfold awaiting State.leaving; split <;> rfl

theorem awaiting_x (s : State) (th : Thread) (w : Wait) : (awaiting s th w).x = th.x := by
  have k := congrArg Thread.x (awaiting_frame s th w)
  exact k
theorem awaiting_pc (s : State) (th : Thread) (w : Wait) : (awaiting s th w).pc = th.pc := by
  have k := congrArg Thread.pc (awaiting_frame s th w)
  exact k
theorem awaiting_issued (s : State) (th : Thread) (w : Wait) : (awaiting s th w).issued = th.issued := by
  have k := congrArg Thread.issued (awaiting_frame s th w)
  exact k
theorem awaiting_lastTag (s : State) (th : Thread) (w : Wait) : (awaiting s th w).lastTag = th.lastTag := by
  have k := congrArg Thread.lastTag (awaiting_frame s th w)
  exact k
theorem awaiting_lts (s : State) (th : Thread) (w : Wait) : (awaiting s th w).lts = th.lts := by
  have k := congrArg Thread.lts (awaiting_frame s th w)
  exact k

/-! ## The device before and after its message

`Prepared s v`: v is s but for translations, samples of L2, copies in L1 and the count of free values, which an access changes before its message
leaves. `Numbered s v`: v has also given out the message's numbers. `Left v w`: from v to w a message has left. -/

def Prepared (s v : State) : Prop := { v with utlb := s.utlb, tiles := s.tiles, l1 := s.l1, fresh := s.fresh } = s

def Numbered (s v : State) : Prop :=
  { v with utlb := s.utlb, tiles := s.tiles, l1 := s.l1, fresh := s.fresh, nextRid := s.nextRid, nextOp := s.nextOp, tagged := s.tagged } = s

def Left (v w : State) : Prop :=
  { w with agenda := v.agenda, seq := v.seq, fresh := v.fresh, tiles := v.tiles, l1 := v.l1, peerOut := v.peerOut, convoys := v.convoys
           nextRid := v.nextRid } = v

theorem Prepared.refl (s : State) : Prepared s s := rfl

theorem Prepared.fresh {s v : State} (h : Prepared s v) (n : Nat) : Prepared s { v with fresh := n } := h

theorem Prepared.tagged {s v : State} (h : Prepared s v) : v.tagged = s.tagged := by
  have k := congrArg State.tagged h
  exact k

theorem Prepared.numbered {s v : State} (h : Prepared s v) : Numbered s v := by
  have k := congrArg (fun (s : State) => s.nextRid) h
  have k' := congrArg (fun (s : State) => s.nextOp) h
  have k'' := h.tagged
  unfold Prepared at h
  unfold Numbered
  rw [← k, ← k', ← k'']
  exact h

theorem Numbered.rid {s v : State} (h : Numbered s v) (n : Nat) : Numbered s { v with nextRid := n } := h
theorem Numbered.op {s v : State} (h : Numbered s v) (n : Nat) (l : List Tagged) : Numbered s { v with nextOp := n, tagged := l } := h

theorem Numbered.threads {s v : State} (h : Numbered s v) : v.threads = s.threads := by
  have k := congrArg State.threads h
  exact k
theorem Numbered.mem {s v : State} (h : Numbered s v) : v.mem = s.mem := by
  have k := congrArg State.mem h
  exact k
theorem Numbered.banks {s v : State} (h : Numbered s v) : v.banks = s.banks := by
  have k := congrArg State.banks h
  exact k
theorem Numbered.agenda {s v : State} (h : Numbered s v) : v.agenda = s.agenda := by
  have k := congrArg State.agenda h
  exact k
theorem Numbered.clk {s v : State} (h : Numbered s v) : v.clk = s.clk := by
  have k := congrArg State.clk h
  exact k
theorem Numbered.peerOut {s v : State} (h : Numbered s v) : v.peerOut = s.peerOut := by
  have k := congrArg State.peerOut h
  exact k
theorem Numbered.wall {s v : State} (h : Numbered s v) : v.wall = s.wall := by
  have k := congrArg State.wall h
  exact k
theorem Numbered.tileDelay {s v : State} (h : Numbered s v) (x y : Nat) : v.tileDelay x y = s.tileDelay x y := by
  have k := congrArg (fun (s : State) => s.tileDelay x y) h
  exact k
theorem Numbered.namedAt {s v : State} (h : Numbered s v) (g : BitVec 8) (dev : Nat) : v.namedAt g dev = s.namedAt g dev := by
  have k := congrArg (fun (s : State) => s.namedAt g dev) h
  exact k
theorem Numbered.holdsPeer {s v : State} (h : Numbered s v) (g : BitVec 8) (l : Nat) : v.holdsPeer g l = s.holdsPeer g l := by
  have k := congrArg (fun (s : State) => s.holdsPeer g l) h
  exact k

theorem Left.threads {v w : State} (h : Left v w) : w.threads = v.threads := by
  have k := congrArg State.threads h
  exact k
theorem Left.mem {v w : State} (h : Left v w) : w.mem = v.mem := by
  have k := congrArg State.mem h
  exact k
theorem Left.banks {v w : State} (h : Left v w) : w.banks = v.banks := by
  have k := congrArg State.banks h
  exact k
theorem Left.tagged {v w : State} (h : Left v w) : w.tagged = v.tagged := by
  have k := congrArg State.tagged h
  exact k

/-- Setting a thread after a message has left changes, beside that thread, neither memory nor shared registers nor threads. -/
theorem unchanged_setThread {s v w : State} (hv : Numbered s v) (hw : Left v w) (t : Nat) (th' : Thread) :
    (w.setThread t th').mem = s.mem ∧ SameShared s (w.setThread t th') ∧ SameOthers s (w.setThread t th') t := by
  refine ⟨hw.mem.trans hv.mem, fun c g k => ?_, fun t' ht => ?_⟩
  · show (w.bank c g)[k.toNat] = (s.bank c g)[k.toNat]
    simp only [State.bank, hw.banks.trans hv.banks]
  · rw [sameOthers_setThread w t th' t' ht]
    exact congrArg (KMap.get? · t') (hw.threads.trans hv.threads)

/-! ## A message leaves -/

/-- One event stands on the agenda for a message, no earlier than its nominal delay. -/
theorem send_sent (s : State) (p : Place) (chan : Nat × Nat) (delay : Nat) (e : Event) :
    Left s (s.send p chan delay e) ∧ Sent s (s.send p chan delay e) delay e := by
  unfold State.send
  dsimp only
  split
  · exact ⟨rfl, _, rfl, rfl, by simp only []; omega⟩
  · split
    · exact ⟨rfl, _, rfl, rfl, by simp only []; omega⟩
    · exact ⟨rfl, _, rfl, rfl, by simp only []; omega⟩

/-- A message that leaves a prepared state has left the state that it was prepared from. -/
theorem sent_of_numbered {s v u : State} {delay delay' : Nat} {e : Event} (hv : Numbered s v) (h : Sent v u delay e) (hdelay : delay = delay') :
    Sent s u delay' e := by
  obtain ⟨p, hagenda, hwork, hdue⟩ := h
  exact ⟨p, hv.agenda ▸ hagenda, hwork, hdelay ▸ hv.clk ▸ hdue⟩

theorem left_countSent (s : State) (g : BitVec 8) (l dev : Nat) : Left s (s.countSent g l dev) := by
  unfold State.countSent; split <;> rfl

theorem countSent_frame (s : State) (g : BitVec 8) (l dev : Nat) : { s.countSent g l dev with convoys := s.convoys } = s := by
  unfold State.countSent; split <;> rfl

theorem sendPeer_asks (s : State) (t : Nat) (th : Thread) (rid op dev : Nat) (va : Word) (what : PeerOp) :
    Left s (s.sendPeer t th rid op dev va what) ∧ AsksPeer s (s.sendPeer t th rid op dev va what) t th va dev rid op what := by
  unfold State.sendPeer State.leavePeer AsksPeer
  dsimp only
  cases s.holdsPeer th.guest th.launch
  · have hpeer := congrArg State.peerOut (countSent_frame s th.guest th.launch dev)
    have hwall := congrArg State.wall (countSent_frame s th.guest th.launch dev)
    refine ⟨left_countSent .., _, congrArg (· ++ _) hpeer, rfl, rfl, rfl, rfl, rfl, rfl, rfl, rfl, rfl, rfl, congrArg some hwall, rfl⟩
  · exact ⟨rfl, _, rfl, rfl, rfl, rfl, rfl, rfl, rfl, rfl, rfl, rfl, rfl, rfl, rfl⟩

/-- X sends a message of thread t, with its request number and its operation's, that `carries` describes. -/
def Carries (s : State) (t : Nat) (th : Thread) (X : State → Thread → Nat → Nat → State) (carries : State → Nat → Nat → Prop) : Prop :=
  ∀ v len shared tag rid op th', Numbered s v →
    Left v (X v (sending th len shared tag) rid op) ∧ carries ((X v (sending th len shared tag) rid op).setThread t th') rid op

/-- The same message with a request number given out before it, which it does not use. -/
def numbering (X : State → Thread → Nat → Nat → State) (s : State) (th : Thread) (rid op : Nat) : State :=
  X { s with nextRid := s.nextRid + 1 } th rid op

theorem Carries.numbering {s : State} {t : Nat} {th : Thread} {X : State → Thread → Nat → Nat → State} {carries : State → Nat → Nat → Prop}
    (h : Carries s t th X carries) : Carries s t th (numbering X) carries := by
  intro v len shared tag rid op th' hv
  obtain ⟨hleft, hcarries⟩ := h { v with nextRid := v.nextRid + 1 } len shared tag rid op th' (hv.rid _)
  have hback := congrArg (fun (s : State) => { s with nextRid := v.nextRid }) hleft
  exact ⟨hback, hcarries⟩

/-! ## The three ways to go on after it -/

/-- Sends X's message and waits for its answer. -/
def askAndWait (t : Nat) (X : State → Thread → Nat → Nat → State) (w : Nat → Wait) (s : State) (th : Thread) : State :=
  let (rid, s) := s.takeRid
  (X s th rid 0).await t th (w rid)

/-- Takes a tag, posts X's message and goes on. -/
def tagAndPost (t : Nat) (X : State → Thread → Nat → Nat → State) (va : Word) (n : Nat) (pa key : State → Thread → Option Nat) (data : Word)
    (s : State) (th : Thread) : State :=
  let (s, th, op) := s.takeTag t th va (pa s th) (key s th) n 1 data
  (X s th 0 op).retire t th

/-- Takes a tag, sends X's message and waits for its answer. -/
def tagAndWait (t : Nat) (X : State → Thread → Nat → Nat → State) (va : Word) (n : Nat) (pa key : State → Thread → Option Nat)
    (w : Thread → Nat → Wait) (s : State) (th : Thread) : State :=
  let (s', th', op) := s.takeTag t th va (pa s th) (key s th) n 1 0
  let (rid, s') := s'.takeRid
  (X s' th' rid op).await t th' (w th rid)

/-- The next tag is the one that the statements name. -/
theorem nextTag_eq (tag : BitVec 32) : nextTag tag = tagAfter tag := by
  unfold nextTag tagAfter
  have hzero : tag + 1 = 0 ↔ tag = BitVec.ofNat 32 (2 ^ 32 - 1) := by bv_omega
  simp only [hzero]

section
variable {s v : State} {t : Nat} {th : Thread} {X : State → Thread → Nat → Nat → State} {carries : State → Nat → Nat → Prop}

/-- What thread t finds after it has sent X's message and waits. -/
theorem askAndWait_spec (hv : Prepared s v) (hX : Carries s t th X carries) (w : Nat → Wait) (len : Nat) (regs : List Reg) :
    ∃ th' rid, let u := askAndWait t X w v (th.noted len regs)
      u.thread? t = some th' ∧ carries u rid 0 ∧ th'.wait = w rid ∧ th'.pc = th.pc ∧ th'.issued = th.issued ∧ th'.lastTag = th.lastTag ∧
      th'.lts = th.lts ∧ th'.x = th.x ∧ u.tagged = s.tagged ∧ u.mem = s.mem ∧ SameShared s u ∧ SameOthers s u t := by
  obtain ⟨hleft, hcarries⟩ := hX { v with nextRid := v.nextRid + 1 } len (th.noted len regs).usedShared th.lastTag v.nextRid 0
    (awaiting (X { v with nextRid := v.nextRid + 1 } (th.noted len regs) v.nextRid 0) (th.noted len regs) (w v.nextRid)) (hv.numbered.rid _)
  refine ⟨_, v.nextRid, State.thread?_setThread_self _ _ _, hcarries, awaiting_wait _ _ _, awaiting_pc _ _ _, awaiting_issued _ _ _,
    awaiting_lastTag _ _ _, awaiting_lts _ _ _, awaiting_x _ _ _, hleft.tagged.trans hv.tagged, unchanged_setThread (hv.numbered.rid _) hleft t _⟩

/-- The operation of n bytes at va that thread t issues next, unacknowledged. -/
def nextTagged (v : State) (t : Nat) (th : Thread) (va : Word) (pa key : Option Nat) (n : Nat) (data : Word) : Tagged :=
  { op := v.nextOp, tid := t, launch := th.launch, tag := nextTag th.lastTag, va := va, pa := pa, key := key, len := n, left := 1, data := data
    wb := false, engine := none }

/-- An operation has joined those outstanding, under the thread's next tag. -/
theorem tags_takeTag (hv : Prepared s v) {w : State} {va : Word} {pa key : Option Nat} {n : Nat} {data : Word} (hw : w.tagged = v.tagged ++ [nextTagged v t th va pa key n data]) {th' : Thread}
    (hth' : th'.lastTag = nextTag th.lastTag) : Tags s w t th th' va n v.nextOp :=
  ⟨hth'.trans (nextTag_eq _), _, hw.trans (congrArg (· ++ _) hv.tagged), rfl, rfl, hth'.symm, rfl, rfl, rfl, rfl, rfl⟩

/-- What thread t finds after it has posted X's message under a tag. -/
theorem tagAndPost_spec (hv : Prepared s v) (hX : Carries s t th X carries) (va : Word) (n : Nat) (pa key : State → Thread → Option Nat) (data : Word)
    (len : Nat) (regs : List Reg) :
    ∃ th' op, let u := tagAndPost t X va n pa key data v (th.noted len regs)
      u.thread? t = some th' ∧ carries u 0 op ∧ GoesOn th th' len ∧ SameRest th { th' with lastTag := th.lastTag } ∧ Tags s u t th th' va n op ∧
      th'.x = th.x ∧ u.mem = s.mem ∧ SameShared s u ∧ SameOthers s u t := by
  have hv' := hv.numbered.op (v.nextOp + 1) (v.tagged ++ [nextTagged v t th va (pa v (th.noted len regs)) (key v (th.noted len regs)) n data])
  obtain ⟨hleft, hcarries⟩ := hX _ len (th.noted len regs).usedShared (nextTag th.lastTag) 0 v.nextOp
    (sending th len (th.noted len regs).usedShared (nextTag th.lastTag)).advance hv'
  exact ⟨_, v.nextOp, State.retire_thread? _ _ _, hcarries, goesOn_sending .., sameRest_sending .., tags_takeTag hv hleft.tagged rfl, rfl,
    unchanged_setThread hv' hleft t _⟩

/-- What thread t finds after it has sent X's message under a tag and waits. -/
theorem tagAndWait_spec (hv : Prepared s v) (hX : Carries s t th X carries) (va : Word) (n : Nat) (pa key : State → Thread → Option Nat)
    (w : Thread → Nat → Wait) (len : Nat) (regs : List Reg) :
    ∃ th' rid op, let u := tagAndWait t X va n pa key w v (th.noted len regs)
      u.thread? t = some th' ∧ carries u rid op ∧ th'.wait = w (th.noted len regs) rid ∧ th'.pc = th.pc ∧ th'.issued = th.issued ∧ Tags s u t th th' va n op ∧
      th'.x = th.x ∧ u.mem = s.mem ∧ SameShared s u ∧ SameOthers s u t := by
  have hv' := (hv.numbered.op (v.nextOp + 1) (v.tagged ++ [nextTagged v t th va (pa v (th.noted len regs)) (key v (th.noted len regs)) n 0])).rid (v.nextRid + 1)
  obtain ⟨hleft, hcarries⟩ := hX _ len (th.noted len regs).usedShared (nextTag th.lastTag) v.nextRid v.nextOp
    (awaiting (X _ (sending th len (th.noted len regs).usedShared (nextTag th.lastTag)) v.nextRid v.nextOp)
      (sending th len (th.noted len regs).usedShared (nextTag th.lastTag)) (w (th.noted len regs) v.nextRid)) hv'
  exact ⟨_, v.nextRid, v.nextOp, State.thread?_setThread_self _ _ _, hcarries, awaiting_wait _ _ _, awaiting_pc _ _ _, awaiting_issued _ _ _,
    tags_takeTag hv hleft.tagged (awaiting_lastTag _ _ _), awaiting_x _ _ _, unchanged_setThread hv' hleft t _⟩

/-! ## The same, as the statements say it -/

theorem asks_of_askAndWait {r : Request} {w : Nat → Wait} (hw : r.wait = some w) (htag : r.tagged = false) {len : Nat} {regs : List Reg}
    (hexec : exec r.i s = .next (askAndWait t X w v (th.noted len regs))) (hv : Prepared s v) (hX : Carries s t th X carries) :
    Asks s t th r carries := by
  obtain ⟨th', rid, hth, hcarries, hwait, hpc, hissued, hlast, -, hx, htagged, hmem, hshared, hothers⟩ := askAndWait_spec hv hX w len regs
  refine ⟨_, th', rid, 0, hexec, hth, hcarries, ?_, ?_, hx, hmem, hshared, hothers⟩
  · rw [hw]; exact ⟨hwait, hpc, hissued⟩
  · rw [htag]; exact ⟨rfl, hlast, htagged⟩

theorem asks_of_tagAndPost {r : Request} (hw : r.wait = none) (htag : r.tagged = true) {pa key : State → Thread → Option Nat} {data : Word}
    {regs : List Reg} (hexec : exec r.i s = .next (tagAndPost t X r.va r.n pa key data v (th.noted r.i.len regs))) (hv : Prepared s v)
    (hX : Carries s t th X carries) : Asks s t th r carries := by
  obtain ⟨th', op, hth, hcarries, hgoes, hrest, htags, hx, hmem, hshared, hothers⟩ := tagAndPost_spec hv hX r.va r.n pa key data r.i.len regs
  refine ⟨_, th', 0, op, hexec, hth, hcarries, ?_, ?_, hx, hmem, hshared, hothers⟩
  · rw [hw]; exact ⟨rfl, hgoes, hrest⟩
  · rw [htag]; exact htags

theorem asks_of_tagAndWait {r : Request} {w : Thread → Nat → Wait} {len : Nat} {regs : List Reg} (hw : r.wait = some (w (th.noted len regs)))
    (htag : r.tagged = true) {pa key : State → Thread → Option Nat} (hexec : exec r.i s = .next (tagAndWait t X r.va r.n pa key w v (th.noted len regs))) (hv : Prepared s v)
    (hX : Carries s t th X carries) : Asks s t th r carries := by
  obtain ⟨th', rid, op, hth, hcarries, hwait, hpc, hissued, htags, hx, hmem, hshared, hothers⟩ := tagAndWait_spec hv hX r.va r.n pa key w len regs
  refine ⟨_, th', rid, op, hexec, hth, hcarries, ?_, ?_, hx, hmem, hshared, hothers⟩
  · rw [hw]; exact ⟨hwait, hpc, hissued⟩
  · rw [htag]; exact htags

end

/-! ## The gate (R26) -/

/-- With no entry of the send queue free, the thread waits for one. -/
theorem waits_of_gate {s v : State} {t : Nat} {th : Thread} {i : Instr} {len : Nat} {regs : List Reg} {f : State → Thread → State}
    (hexec : exec i s = .next (v.gate t (th.noted len regs) i f)) (hv : Prepared s v) (hq : th.queued = false)
    (hfull : Config.sendFull v.fresh = true) : Waits s t th i (fun w => w = .sendQueue i) := by
  have hgate : v.gate t (th.noted len regs) i f = (({ v with fresh := v.fresh + 1 + 1 } : State).post (placeOfSlot th.home) noChan
      (v.clk + 1 + Config.contention (v.fresh + 1)) t (.event (.sendQueueFree t))).await t (th.noted len regs) (.sendQueue i) := by
    unfold State.gate State.flip
    rw [show (th.noted len regs).queued = false from hq, hfull]
    rfl
  obtain ⟨hmem, hshared, hothers⟩ := unchanged_setThread (w := ({ v with fresh := v.fresh + 1 + 1 } : State).post (placeOfSlot th.home) noChan
    (v.clk + 1 + Config.contention (v.fresh + 1)) t (.event (.sendQueueFree t))) hv.numbered rfl t
    (awaiting (({ v with fresh := v.fresh + 1 + 1 } : State).post (placeOfSlot th.home) noChan
      (v.clk + 1 + Config.contention (v.fresh + 1)) t (.event (.sendQueueFree t))) (th.noted len regs) (.sendQueue i))
  exact ⟨_, _, hexec.trans (congrArg _ hgate), State.thread?_setThread_self _ _ _, awaiting_wait _ _ _, awaiting_pc _ _ _, awaiting_x _ _ _,
    awaiting_issued _ _ _, hshared, hothers, hmem⟩

/-- With one free, or held, the instruction goes on. -/
theorem gate_open {v : State} {t : Nat} {x : Thread} {i : Instr} {f : State → Thread → State}
    (h : ¬ (x.queued = false ∧ Config.sendFull v.fresh = true)) : ∃ n, v.gate t x i f = f { v with fresh := n } x := by
  unfold State.gate State.flip
  cases hq : x.queued with
  | true => exact ⟨v.fresh, rfl⟩
  | false =>
    have hfree : Config.sendFull v.fresh = false := by simpa [hq] using h
    exact ⟨v.fresh + 1, by rw [hfree]; rfl⟩

/-- An instruction that comes to the gate waits there, or does what it does behind it. -/
theorem gated_of_gate {s v : State} {t : Nat} {th : Thread} {i : Instr} {len : Nat} {regs : List Reg} {f : State → Thread → State} {p : Prop}
    (hexec : Carried s t th → exec i s = .next (v.gate t (th.noted len regs) i f)) (hv : Prepared s v) (hfresh : v.fresh = s.fresh)
    (h : ∀ u, Prepared s u → exec i s = .next (f u (th.noted len regs)) → p) : Gated s t th i p := by
  intro hcarried
  split
  next hwait => exact waits_of_gate (hexec hcarried) hv hwait.1 (hfresh ▸ hwait.2)
  next hgo =>
    obtain ⟨n, hopen⟩ := gate_open (i := i) (t := t) (x := th.noted len regs) (f := f) (v := v) (by rw [hfresh]; exact hgo)
    exact h _ (hv.fresh n) ((hexec hcarried).trans (congrArg _ hopen))

end Sys2Proof.Proofs
end

section
/-!
PROOFS. What the checks of an access answer for each kind of address (R99, R111, R117, R118, R122), and what leaves for it (R126, R136, R185).
-/

namespace Sys2Proof.Proofs

open Sys2Proof Sys2Proof.Machine Sys2Proof.Claims

/-! ## Global addresses -/

theorem topByte_global {va : Word} (h : va.toNat < 2 ^ 56) : topByte va = 0 := Nat.div_eq_of_lt h
theorem low56_global {va : Word} (h : va.toNat < 2 ^ 56) : low56 va = va.toNat := Nat.mod_eq_of_lt h

theorem spaceOf_global (s : State) {va : Word} (h : va.toNat < 2 ^ 56) : s.spaceOf va = .global := by
  unfold State.spaceOf
  exact if_pos (topByte_global h)

theorem spaceOk_global (s : State) (g : BitVec 8) {va : Word} (n : Nat) (h : va.toNat < 2 ^ 56) : s.spaceOk g va n = true := by
  simp only [State.spaceOk, spaceOf_global s h]

/-- A global address that the micro-TLB translates passes the checks, and the translation becomes the latest used. -/
theorem check_global {s : State} {th : Thread} {va : Word} {n pa : Nat} {write : Bool} (h : GlobalAt s th va n pa write) {kind : Space → Bool}
    (hk : kind .global = true) (len : Nat) (regs : List Reg) :
    ∃ utlb, s.check (th.noted len regs) va { n := n, align := n, kind := kind, write := write } = (.ok (.global va pa), { s with utlb := utlb }) := by
  obtain ⟨hva, halign, e, hfind, hread, rfl, hwrite⟩ := h
  have hfind' : s.tlbFind (KMap.getD s.utlb (coreOf (th.noted len regs).home) []) (slotIn (th.noted len regs).home) (th.noted len regs).guest va.toNat =
    some e := hfind
  refine ⟨KMap.set s.utlb (coreOf th.home) (s.tlbInstall e Config.microTlb (KMap.getD s.utlb (coreOf th.home) [])), ?_⟩
  unfold State.check
  simp only [halign, ne_eq, not_true_eq_false, if_false, spaceOk_global s _ _ hva, spaceOf_global s hva, hk, low56_global hva, State.translate, hfind',
    hread, BitVec.ofNat_toNat, BitVec.setWidth_eq, Bool.not_true, Bool.false_eq_true, Bool.true_and, TlbEntry.phys]
  cases write with
  | false => rfl
  | true =>
    obtain ⟨hw, hwindow⟩ := hwrite rfl
    have hwindow' : State.inWindow { s with utlb := KMap.set s.utlb (coreOf th.home) (s.tlbInstall e Config.microTlb (KMap.getD s.utlb (coreOf th.home) [])) }
      (th.noted len regs) va n = false := hwindow
    simp [hw]
    exact hwindow'

/-! ## Addresses of the party stash -/

/-- The fields of the number that a party-stash address is (R99). -/
theorem partyAddress_fields {top lodge k off : Nat} (htop : top < 256) (hlodge : lodge < 64) (hk : k < 64) (hoff : off < 2 ^ 17) :
    let N := top * 2 ^ 56 + lodge * 2 ^ 23 + k * 2 ^ 17 + off
    N < 2 ^ 64 ∧ N / 2 ^ 56 = top ∧ N % 2 ^ 56 < 2 ^ 29 ∧ N % 2 ^ 17 = off ∧ N / 2 ^ 17 % 2 ^ 6 = k ∧ N / 2 ^ 23 % 2 ^ 6 = lodge := by
  intro N
  refine ⟨?_, ?_, ?_, ?_, ?_, ?_⟩ <;> omega

/-- A party-stash address, by its own space or the peer form of the device's own index. -/
theorem partyAt_fields {s : State} {th : Thread} {va : Word} {n tile off : Nat} (h : PartyAt s th va n tile off) (hn : n ∣ 2 ^ 17) :
    s.spaceOf va = .party ∧ low56 va < 2 ^ 29 ∧ stashOff va = off ∧ off + n ≤ 2 ^ 17 ∧ lodgeField va < (s.guest th.guest).len ∧
      (s.guest th.guest).tile (lodgeField va) (tileField va) = tile ∧ va.toNat % n = 0 := by
  obtain ⟨top, lodge, k, htop, hva, hlen, hlodge, hk, hoff, halign, rfl⟩ := h
  have hpos : 0 < n := Nat.pos_of_dvd_of_pos hn (by decide)
  have htop' : top < 256 := by omega
  obtain ⟨hsize, hN, hlow, hoffN, hkN, hlodgeN⟩ := partyAddress_fields htop' hlodge hk (show off < 2 ^ 17 by omega)
  have hnat : va.toNat = top * 2 ^ 56 + lodge * 2 ^ 23 + k * 2 ^ 17 + off := by
    rw [hva, BitVec.toNat_ofNat, Nat.mod_eq_of_lt hsize]
  rw [← hnat] at hN hlow hoffN hkN hlodgeN
  refine ⟨?_, hlow, hoffN, hoff, ?_, ?_, ?_⟩
  · unfold State.spaceOf
    simp only [show topByte va = top from hN]
    obtain rfl | ⟨rfl, hdev⟩ := htop
    · rfl
    · rw [if_neg (by omega), if_neg (by omega), if_neg (by omega), if_neg (by omega), if_neg (by omega), if_pos (by omega),
        if_pos (Nat.add_sub_cancel_left ..)]
  · rw [show lodgeField va = lodge from hlodgeN]; exact hlen
  · rw [show lodgeField va = lodge from hlodgeN, show tileField va = k from hkN]
  · obtain ⟨m, hm⟩ := hn
    have hsum : top * 2 ^ 56 + lodge * 2 ^ 23 + k * 2 ^ 17 = n * (m * (top * 2 ^ 39 + lodge * 2 ^ 6 + k)) := by
      rw [← Nat.mul_assoc, ← hm]; omega
    rw [hnat, hsum, Nat.mul_add_mod, halign]

/-! ## Addresses of peers -/

theorem spaceOf_peer {s : State} {th : Thread} {va : Word} {n dev : Nat} (h : PeerAt s th va n dev) : s.spaceOf va = .peer dev := by
  obtain ⟨htop, hdev, hne, -, -⟩ := h
  unfold State.spaceOf
  simp only [show topByte va = 0x40 + dev from htop]
  rw [if_neg (by omega), if_pos (by omega), if_neg (by omega), Nat.add_sub_cancel_left]

theorem spaceOf_peerStash {s : State} {th : Thread} {va : Word} {n dev : Nat} (h : PeerStashAt s th va n dev) : s.spaceOf va = .peerStash dev := by
  obtain ⟨htop, hne, -, -, -, -⟩ := h
  unfold State.spaceOf
  simp only [show topByte va = 0xC0 + dev from htop]
  rw [if_neg (by omega), if_neg (by omega), if_neg (by omega), if_neg (by omega), if_neg (by omega), if_pos (by omega), if_neg (by omega),
    Nat.add_sub_cancel_left]

/-! ## The checks off the tile and the device -/

/-- An address names a target of another tile or another device, and is aligned for n bytes. -/
inductive Names (s : State) (th : Thread) (va : Word) (n : Nat) : Target → Prop
  | party {tile off : Nat} (h : PartyAt s th va n tile off) : Names s th va n (.party tile off)
  | peer {dev : Nat} (h : PeerAt s th va n dev) : Names s th va n (.peer dev)
  | peerStash {dev : Nat} (h : PeerStashAt s th va n dev) : Names s th va n (.peerStash dev)

/-- It is aligned, and lies in its space. -/
theorem Names.inBounds {s : State} {th : Thread} {va : Word} {n : Nat} {x : Target} (h : Names s th va n x) (hn : n ∣ 2 ^ 17) :
    va.toNat % n = 0 ∧ s.spaceOk th.guest va n = true := by
  have hpos : max 1 n = n := by
    have : 0 < n := Nat.pos_of_dvd_of_pos hn (by decide)
    omega
  cases h with
  | party h =>
    obtain ⟨hspace, hlow, hoff, hfit, hlodge, -, halign⟩ := partyAt_fields h hn
    refine ⟨halign, ?_⟩
    simp only [State.spaceOk, hspace, hpos, hoff, hlow, hlodge, hfit, decide_true, Bool.and_self]
  | peer h =>
    have hspace := spaceOf_peer h
    obtain ⟨-, -, -, halign, hpeer⟩ := h
    refine ⟨halign, ?_⟩
    simp only [State.spaceOk, hspace, hpeer]
  | peerStash h =>
    have hspace := spaceOf_peerStash h
    obtain ⟨-, -, halign, hlow, hfit, hpeer⟩ := h
    refine ⟨halign, ?_⟩
    simp only [State.spaceOk, hspace, hpos, stashOff, low56, hlow, hfit, hpeer, decide_true, Bool.and_self]

/-- The space of a target off the tile. -/
def spaceOfTarget : Target → Space
  | .global _ _ => .global
  | .own _ => .own
  | .party _ _ => .party
  | .loc _ => .loc
  | .peer d => .peer d
  | .peerStash d => .peerStash d

theorem Names.spaceOf {s : State} {th : Thread} {va : Word} {n : Nat} {x : Target} (h : Names s th va n x) (hn : n ∣ 2 ^ 17) :
    s.spaceOf va = spaceOfTarget x := by
  cases h with
  | party h => exact (partyAt_fields h hn).1
  | peer h => exact spaceOf_peer h
  | peerStash h => exact spaceOf_peerStash h

/-- The access passes its checks where its instruction may go there. -/
theorem Names.check {s : State} {th : Thread} {va : Word} {n : Nat} {x : Target} (h : Names s th va n x) (hn : n ∣ 2 ^ 17) {kind : Space → Bool}
    (hk : kind (spaceOfTarget x) = true) (write : Bool) (len : Nat) (regs : List Reg) :
    s.check (th.noted len regs) va { n := n, align := n, kind := kind, write := write } = (.ok x, s) := by
  obtain ⟨halign, hok⟩ := h.inBounds hn
  have hspace := h.spaceOf hn
  have hok' : s.spaceOk (th.noted len regs).guest va n = true := hok
  unfold State.check
  simp only [halign, ne_eq, not_true_eq_false, if_false, hok', hspace, hk, Bool.not_true, Bool.false_eq_true]
  cases h with
  | party h =>
    obtain ⟨-, -, hoff, -, -, htile, -⟩ := partyAt_fields h hn
    simp only [spaceOfTarget, hoff]
    rw [show (th.noted len regs).guest = th.guest from rfl, htile]
  | peer h => rfl
  | peerStash h => rfl

/-- It traps at step 3 where it may not. -/
theorem Names.check_kind {s : State} {th : Thread} {va : Word} {n : Nat} {x : Target} (h : Names s th va n x) (hn : n ∣ 2 ^ 17) {kind : Space → Bool}
    (hk : kind (spaceOfTarget x) = false) (write : Bool) (len : Nat) (regs : List Reg) :
    s.check (th.noted len regs) va { n := n, align := n, kind := kind, write := write } = (.trap causeProtection 3, s) := by
  obtain ⟨halign, hok⟩ := h.inBounds hn
  have hspace := h.spaceOf hn
  have hok' : s.spaceOk (th.noted len regs).guest va n = true := hok
  unfold State.check
  simp only [halign, ne_eq, not_true_eq_false, if_false, hok', hspace, hk, Bool.not_true, Bool.false_eq_true, Bool.not_false, if_true]

/-- A barrier instruction's checks find such an address out of place (R255). -/
theorem Names.earlyCheck {s : State} {th : Thread} {va : Word} {n : Nat} {x : Target} (h : Names s th va n x) (hn : n ∣ 2 ^ 17) {kind : Space → Bool}
    (hk : kind (spaceOfTarget x) = false) (len : Nat) (regs : List Reg) :
    s.earlyCheck (th.noted len regs) va n n kind = some (causeProtection, 3) := by
  obtain ⟨halign, hok⟩ := h.inBounds hn
  have hspace := h.spaceOf hn
  have hok' : s.spaceOk (th.noted len regs).guest va n = true := hok
  unfold State.earlyCheck
  simp only [halign, ne_eq, not_true_eq_false, if_false, hok', hspace, hk, Bool.not_true, Bool.false_eq_true, Bool.not_false, if_true]

end Sys2Proof.Proofs
end

section
/-!
PROOFS. Loads, stores, atomics and full-empty instructions whose address lies off the tile: what leaves for it (R126, R129, R136, R185, R340).
-/

namespace Sys2Proof.Proofs

open Sys2Proof Sys2Proof.Machine Sys2Proof.Claims

/-! ## The message to another tile, to a peer's stash and to its global space -/

/-- The message of an access: what it asks of a stash, and what of a peer's global space. -/
def awayMessage (t : Nat) (va : Word) (what : StashOp) (p : PeerOp) : Target → State → Thread → Nat → Nat → State
  | .party tile off => fun s th rid op => s.sendStash (stashReqOf t th rid op tile off va what false)
  | .peer dev => fun s th rid op => s.sendPeer t th rid op dev va p
  | .peerStash dev => fun s th rid op => s.sendPeer t th rid op dev va (.stash what)
  | _ => fun s _ _ _ => s

/-- How the statement describes it. -/
def carriesAway (s : State) (t : Nat) (th : Thread) (va : Word) (what : StashOp) (p : PeerOp) : Target → State → Nat → Nat → Prop
  | .party tile off => fun u rid op =>
    ∃ q, Sent s u (s.tileDelay (tileOf th.home) tile) (.remoteStashAccess q) ∧ RequestIs q t th va tile off what ∧ q.rid = rid ∧ q.op = op
  | .peer dev => fun u rid op => AsksPeer s u t th va dev rid op p
  | .peerStash dev => fun u rid op => AsksPeer s u t th va dev rid op (.stash what)
  | _ => fun _ _ _ => False

theorem carries_stash (s : State) (t : Nat) (th : Thread) (va : Word) (what : StashOp) (p : PeerOp) (tile off : Nat) :
    Carries s t th (awayMessage t va what p (.party tile off)) (carriesAway s t th va what p (.party tile off)) := by
  intro v len shared tag rid op th' hv
  obtain ⟨hleft, hsent⟩ := send_sent v (v.placeOf (.thread t) 0) (chanThread t (stashKey tile off / 128)) (v.tileDelay (tileOf th.home) tile)
    (.remoteStashAccess (stashReqOf t (sending th len shared tag) rid op tile off va what false))
  exact ⟨hleft, _, sent_of_numbered hv hsent (hv.tileDelay _ _), ⟨rfl, rfl, rfl, rfl, rfl, rfl, rfl, rfl, rfl, rfl⟩, rfl, rfl⟩

theorem carries_peer {s : State} {t : Nat} {th : Thread} {va : Word} {dev : Nat} {what : PeerOp} :
    Carries s t th (fun v y rid op => v.sendPeer t y rid op dev va what) (fun u rid op => AsksPeer s u t th va dev rid op what) := by
  intro v len shared tag rid op th' hv
  obtain ⟨hleft, o, hout, htid, hrid, hop, hva, hdev, hwhat, hclock, hnamed, hlaunch, hheld, hstamp, hredirected⟩ :=
    sendPeer_asks v t (sending th len shared tag) rid op dev va what
  have hheld' := hv.holdsPeer th.guest th.launch
  refine ⟨hleft, o, hv.peerOut ▸ hout, htid, hrid, hop, hva, hdev, hwhat, hclock, hnamed.trans (hv.namedAt _ _), hlaunch, hheld.trans hheld', ?_,
    hredirected⟩
  rw [hstamp]
  simp only [sending, hheld', hv.wall]

theorem carries_away {s : State} {t : Nat} {th : Thread} {va : Word} {n : Nat} {x : Target} (h : Names s th va n x) (what : StashOp) (p : PeerOp) :
    Carries s t th (awayMessage t va what p x) (carriesAway s t th va what p x) := by
  cases h with
  | party h => exact carries_stash _ _ _ _ _ _ _ _
  | peer h => exact carries_peer
  | peerStash h => exact carries_peer

/-! ## The accesses -/

section
variable {s : State} {t : Nat} {th : Thread} {va : Word} {n : Nat} {x : Target} {i : Instr}

theorem not_overlap {s : State} {t : Nat} {th : Thread} {x : Target} {va : Word} {n : Nat} (h : Clear s t th x va n) (len : Nat) (regs : List Reg) :
    ¬ s.ownOverlap t (th.noted len regs) x va n = true := by
  rw [show s.ownOverlap t (th.noted len regs) x va n = false from h]
  exact Bool.false_ne_true

theorem not_alias {s : State} {t : Nat} {th : Thread} {x : Target} {va : Word} {n : Nat} (h : Unaliased s t th x va n) (len : Nat) (regs : List Reg) :
    ¬ s.aliasOverlap t (th.noted len regs) x va n = true := by
  rw [show s.aliasOverlap t (th.noted len regs) x va n = false from h]
  exact Bool.false_ne_true

/-- Data may lie off the tile, and so may words of atomics; full-empty words in stashes alone (R123, R182). -/
theorem Names.kindData (h : Names s th va n x) : Machine.kindData (spaceOfTarget x) = true := by cases h <;> rfl
theorem Names.kindAmo (h : Names s th va n x) : Machine.kindAmo (spaceOfTarget x) = true := by cases h <;> rfl

theorem load_away {l : LoadInto} (h : Names s th l.va l.n x) (hn : l.n ∣ 2 ^ 17) (hclear : Clear s t th x l.va l.n) (len : Nat) (regs : List Reg) :
    s.load t (th.noted len regs) i l = s.gate t (th.noted len regs) i
      (askAndWait t (awayMessage t l.va (.load l.n) (.load l.n) x) (fun rid => .load rid l)) := by
  have hno := not_overlap hclear len regs
  unfold State.load State.access
  rw [h.check hn h.kindData]
  cases h <;> exact if_neg hno

theorem store_away (h : Names s th va n x) (hn : n ∣ 2 ^ 17) (hclear : Unaliased s t th x va n) (v : Word) (len : Nat) (regs : List Reg) :
    ∃ pa key, s.store t (th.noted len regs) i va n v = s.gate t (th.noted len regs) i
      (tagAndPost t (awayMessage t va (.store n v) (.store n v) x) va n pa key 0) := by
  have hno := not_alias hclear len regs
  unfold State.store State.access
  rw [h.check hn h.kindData]
  cases h with
  | @party tile off h => exact ⟨fun s y => s.homeOf (.party tile off) tile y.guest, fun _ _ => stashKeyOf (.party tile off) tile, if_neg hno⟩
  | peer h => exact ⟨fun _ _ => none, fun _ _ => none, if_neg hno⟩
  | peerStash h => exact ⟨fun _ _ => none, fun _ _ => none, if_neg hno⟩

/-- What an atomic does behind the gate (R136): posted where d is x0, waited for otherwise. -/
def amoContinue (t : Nat) (X : State → Thread → Nat → Nat → State) (va : Word) (n : Nat) (op : AmoOp) (d : Reg) (pa key : Option Nat)
    (s : State) (th : Thread) : State :=
  if d = .x 0 then tagAndPost t (numbering X) va n (fun _ _ => pa) (fun _ _ => key) 0 s th
  else tagAndWait t X va n (fun _ _ => pa) (fun _ _ => key) (fun y rid => .atomic rid d n (op = .fadd) y.lastTag) s th

theorem atomic_away (h : Names s th va n x) (hn : n ∣ 2 ^ 17) (hclear : Unaliased s t th x va n) (op : AmoOp) (b dv : Word) (d : Reg) (len : Nat)
    (regs : List Reg) :
    ∃ pa key, s.atomic t (th.noted len regs) i va n op b dv d = s.gate t (th.noted len regs) i
      (amoContinue t (awayMessage t va (.atomic n op b dv) (.atomic n op b dv) x) va n op d pa key) := by
  have hno := not_alias hclear len regs
  unfold State.atomic State.access amoContinue
  rw [h.check hn h.kindAmo]
  by_cases hd : d = .x 0
  · simp only [hd, if_true]
    cases h with
    | @party tile off h => exact ⟨s.homeOf (.party tile off) tile th.guest, stashKeyOf (.party tile off) (tileOf th.home), if_neg hno⟩
    | @peer dev h => exact ⟨none, stashKeyOf (.peer dev) (tileOf th.home), if_neg hno⟩
    | @peerStash dev h => exact ⟨none, stashKeyOf (.peerStash dev) (tileOf th.home), if_neg hno⟩
  · simp only [hd, if_false]
    cases h with
    | @party tile off h => exact ⟨s.homeOf (.party tile off) tile th.guest, stashKeyOf (.party tile off) (tileOf th.home), if_neg hno⟩
    | @peer dev h => exact ⟨none, stashKeyOf (.peer dev) (tileOf th.home), if_neg hno⟩
    | @peerStash dev h => exact ⟨none, stashKeyOf (.peerStash dev) (tileOf th.home), if_neg hno⟩

/-- A full-empty access passes its checks at a stash (R182). -/
theorem feAccess_away (h : Names s th va 8 x) (hk : kindStash (spaceOfTarget x) = true) (hclear : Unaliased s t th x va 8) (len : Nat)
    (regs : List Reg) (f : State → Thread → Target → State) : s.feAccess t (th.noted len regs) i va f = f s (th.noted len regs) x := by
  have hno := not_alias hclear len regs
  unfold State.feAccess State.access
  rw [h.check (by decide) hk]
  cases h <;> exact if_neg hno

/-- In a peer's global space it traps. -/
theorem feAccess_peer (h : Names s th va 8 x) (hk : kindStash (spaceOfTarget x) = false) (len : Nat) (regs : List Reg)
    (f : State → Thread → Target → State) :
    s.feAccess t (th.noted len regs) i va f = s.trapHere t (th.noted len regs) causeProtection 3 (some va) := by
  unfold State.feAccess State.access
  rw [h.check_kind (by decide) hk]

theorem feWaited_away (h : Names s th va 8 x) (hk : kindStash (spaceOfTarget x) = true) (what : StashOp) (p : PeerOp) (w : Nat → Wait) (len : Nat)
    (regs : List Reg) :
    s.feWaited t (th.noted len regs) i va x what w = s.gate t (th.noted len regs) i (askAndWait t (awayMessage t va what p x) w) := by
  cases h with
  | party h => rfl
  | peer h => exact absurd hk Bool.false_ne_true
  | peerStash h => rfl

theorem fePosted_away (h : Names s th va 8 x) (hk : kindStash (spaceOfTarget x) = true) (what : StashOp) (p : PeerOp) (data : Word) (len : Nat)
    (regs : List Reg) :
    ∃ pa key, s.fePosted t (th.noted len regs) i va x what data = s.gate t (th.noted len regs) i
      (tagAndPost t (awayMessage t va what p x) va 8 pa key data) := by
  cases h with
  | @party tile off h => exact ⟨fun s y => s.homeOf (.party tile off) tile y.guest, fun _ _ => stashKeyOf (.party tile off) tile, rfl⟩
  | peer h => exact absurd hk Bool.false_ne_true
  | peerStash h => exact ⟨fun _ _ => none, fun _ _ => none, rfl⟩

end

end Sys2Proof.Proofs
end

section
/-!
PROOFS. The forms of loads, stores, atomics and full-empty instructions, each by the operation that carries it out (R93 to R95, R124, R136, R182,
R245).
-/

namespace Sys2Proof.Proofs

open Sys2Proof Sys2Proof.Machine Sys2Proof.Claims

section
variable {s : State} {t : Nat} {th : Thread}

/-! ## Operands -/

theorem addrM_noted (s : State) (th : Thread) (len : Nat) (regs : List Reg) (a : Reg) (m : BitVec 10) :
    s.addrM (th.noted len regs) a m = addrOf s th a m := by
  rw [State.addrM, readReg_noted]
  rfl

theorem addrX_noted (s : State) (th : Thread) (len : Nat) (regs : List Reg) (a b : Reg) (n : Nat) :
    s.addrX (th.noted len regs) a b n = addrAt s th a b n := by
  simp only [State.addrX, addrAt, readReg_noted]

/-! ## Loads -/

/-- The word i is carried out as the load l, once it is carried out at all. -/
def IsLoad (s : State) (t : Nat) (th : Thread) (i : Instr) (l : LoadInto) : Prop :=
  l.n ∣ 2 ^ 17 ∧ ∃ len regs, Carried s t th → exec i s = .next (s.load t (th.noted len regs) i l)

theorem isLoad_ldM {i : Instr} {d a : Reg} {m : BitVec 10} {n : Nat} {signed : Bool} (he : exec i s = ldM i d a m n signed s) (hn : n ∣ 2 ^ 17) :
    IsLoad s t th i { dst := .reg d, n := n, signed := signed, va := addrOf s th a m } :=
  ⟨hn, 4, [d, a], fun h => by rw [he, ldM, onThread_carried h, addrM_noted]⟩

theorem isLoad_ldX {i : Instr} {d a b : Reg} {n : Nat} {signed : Bool} (he : exec i s = ldX i d a b n signed s) (hn : n ∣ 2 ^ 17) :
    IsLoad s t th i { dst := .reg d, n := n, signed := signed, va := addrAt s th a b n } :=
  ⟨hn, 4, [d, a, b], fun h => by rw [he, ldX, onThread_carried h, addrX_noted]⟩

theorem isLoad_ldD16 (d4 : BitVec 4) (m7 : BitVec 7) :
    IsLoad s t th (.ldD16 d4 m7) { dst := .reg (.x (d4.setWidth 5)), n := 8, signed := true, va := addrShort th m7 } :=
  ⟨show 8 ∣ 2 ^ 17 by decide, 2, [], fun h => by
    rw [show exec (.ldD16 d4 m7) s = execLdD16 d4 m7 s from rfl, execLdD16, onThread_carried h]
    rfl⟩

theorem isLoad_xld (e : BitVec 4) (a : Reg) (m : BitVec 10) :
    IsLoad s t th (.xld e a m) { dst := .ext e, n := 8, signed := true, va := addrOf s th a m } :=
  ⟨show 8 ∣ 2 ^ 17 by decide, 4, [a], fun h => by
    rw [show exec (.xld e a m) s = execXld e a m s from rfl, execXld, onThread_carried h, addrM_noted]⟩

theorem isLoad_of_mem (s : State) (t : Nat) (th : Thread) (d a b : Reg) (m : BitVec 10) (d4 : BitVec 4) (m7 : BitVec 7) :
    ∀ f ∈ loadForms s th d a b m d4 m7, IsLoad s t th f.i { dst := .reg f.d, n := f.n, signed := f.signed, va := f.va } := by
  simp only [loadForms, List.forall_mem_cons, List.not_mem_nil, false_implies, implies_true, and_true]
  exact ⟨isLoad_ldM rfl (by decide), isLoad_ldM rfl (by decide), isLoad_ldM rfl (by decide), isLoad_ldM rfl (by decide),
    isLoad_ldM rfl (by decide), isLoad_ldM rfl (by decide), isLoad_ldM rfl (by decide), isLoad_ldX rfl (by decide), isLoad_ldX rfl (by decide),
    isLoad_ldX rfl (by decide), isLoad_ldX rfl (by decide), isLoad_ldX rfl (by decide), isLoad_ldX rfl (by decide), isLoad_ldX rfl (by decide),
    isLoad_ldD16 d4 m7⟩

/-! ## Stores -/

/-- The word i is carried out as the store of n bytes of v at va. -/
def IsStore (s : State) (t : Nat) (th : Thread) (i : Instr) (va : Word) (n : Nat) (v : Word) : Prop :=
  n ∣ 2 ^ 17 ∧ ∃ regs, Carried s t th → exec i s = .next (s.store t (th.noted i.len regs) i va n v)

theorem isStore_stM {i : Instr} {d a : Reg} {m : BitVec 10} {n : Nat} (he : exec i s = Machine.stM i d a m n s) (hlen : i.len = 4) (hn : n ∣ 2 ^ 17) :
    IsStore s t th i (addrOf s th a m) n (s.readReg th d) :=
  ⟨hn, [d, a], fun h => by rw [he, hlen, Machine.stM, onThread_carried h, addrM_noted, readReg_noted]⟩

theorem isStore_stX {i : Instr} {d a b : Reg} {n : Nat} (he : exec i s = stX i d a b n s) (hlen : i.len = 4) (hn : n ∣ 2 ^ 17) :
    IsStore s t th i (addrAt s th a b n) n (s.readReg th d) :=
  ⟨hn, [d, a, b], fun h => by rw [he, hlen, stX, onThread_carried h, addrX_noted, readReg_noted]⟩

theorem isStore_stD16 (d4 : BitVec 4) (m7 : BitVec 7) :
    IsStore s t th (.stD16 d4 m7) (addrShort th m7) 8 (s.readReg th (.x (d4.setWidth 5))) :=
  ⟨by decide, [], fun h => by
    rw [show exec (.stD16 d4 m7) s = execStD16 d4 m7 s from rfl, execStD16, onThread_carried h]
    rfl⟩

theorem isStore_xst (e : BitVec 4) (a : Reg) (m : BitVec 10) : IsStore s t th (.xst e a m) (addrOf s th a m) 8 th.e[e.toNat] :=
  ⟨by decide, [a], fun h => by
    rw [show exec (.xst e a m) s = execXst e a m s from rfl, execXst, onThread_carried h, addrM_noted]
    rfl⟩

theorem isStore_of_mem (s : State) (t : Nat) (th : Thread) (d a b : Reg) (m : BitVec 10) (d4 e : BitVec 4) (m7 : BitVec 7) :
    ∀ f ∈ storeForms s th d a b m d4 e m7, IsStore s t th f.i f.va f.n f.v := by
  simp only [storeForms, List.forall_mem_cons, List.not_mem_nil, false_implies, implies_true, and_true]
  exact ⟨isStore_stM rfl rfl (by decide), isStore_stM rfl rfl (by decide), isStore_stM rfl rfl (by decide), isStore_stM rfl rfl (by decide),
    isStore_stX rfl rfl (by decide), isStore_stX rfl rfl (by decide), isStore_stX rfl rfl (by decide), isStore_stX rfl rfl (by decide),
    isStore_stD16 d4 m7, isStore_xst e a m⟩

/-! ## Atomics -/

/-- The word i is carried out as the atomic op on n bytes at the address in a, with the operand in b. -/
def IsAtomic (s : State) (t : Nat) (th : Thread) (d a b : Reg) (i : Instr) (op : AmoOp) (n : Nat) : Prop :=
  n ∣ 2 ^ 17 ∧ i.len = 4 ∧ ∃ regs, Carried s t th →
    exec i s = .next (s.atomic t (th.noted 4 regs) i (s.readReg th a) n op (s.readReg th b) (s.readReg th d) d)

theorem isAtomic_amo {i : Instr} {op : AmoOp} {wd : Width} {d a b : Reg} (he : exec i s = amo i op wd d a b s) (hlen : i.len = 4) :
    IsAtomic s t th d a b i op (widthBytes wd) :=
  ⟨by cases wd <;> decide, hlen, [d, a, b], fun h => by rw [he, amo, onThread_carried h, readReg_noted, readReg_noted, readReg_noted]⟩

theorem isAtomic_of_mem (s : State) (t : Nat) (th : Thread) (wd : Width) (d a b : Reg) :
    ∀ f ∈ amoForms wd d a b, IsAtomic s t th d a b f.1 f.2.1 f.2.2 := by
  simp only [amoForms, List.forall_mem_cons, List.not_mem_nil, false_implies, implies_true, and_true]
  exact ⟨isAtomic_amo rfl rfl, isAtomic_amo rfl rfl, isAtomic_amo rfl rfl, isAtomic_amo rfl rfl, isAtomic_amo rfl rfl, isAtomic_amo rfl rfl,
    isAtomic_amo rfl rfl, isAtomic_amo rfl rfl, isAtomic_amo rfl rfl, isAtomic_amo rfl rfl, isAtomic_amo (wd := .w) rfl rfl⟩

/-! ## Full-empty instructions -/

/-- The word of r is a full-empty instruction: where its word does not lie in the own stash, it is posted, or waits for its answer. -/
def IsFullEmpty (s : State) (t : Nat) (th : Thread) (r : Request) : Prop :=
  r.n = 8 ∧ ∃ regs f, (Carried s t th → exec r.i s = .next (s.feAccess t (th.noted r.i.len regs) r.i r.va f)) ∧
    ∀ x, (∀ off, x ≠ .own off) →
      (r.tagged = true ∧ r.wait = none ∧
        ∃ data, f s (th.noted r.i.len regs) x = s.fePosted t (th.noted r.i.len regs) r.i r.va x r.what data) ∨
      (r.tagged = false ∧ ∃ w, r.wait = some w ∧ f s (th.noted r.i.len regs) x = s.feWaited t (th.noted r.i.len regs) r.i r.va x r.what w)

theorem isFullEmpty_stf (d a : Reg) (m : BitVec 10) :
    IsFullEmpty s t th { i := .stf d a m, va := addrOf s th a m, n := 8, what := .stf (s.readReg th d), peer := none, wait := none, tagged := true } := by
  refine ⟨rfl, [d, a], ?_⟩
  apply Exists.intro
  refine ⟨fun h => ?_, fun x hx => .inl ⟨rfl, rfl, s.readReg th d, ?_⟩⟩
  · show execStf d a m s = _
    rw [execStf, onThread_carried h, addrM_noted, readReg_noted]
    rfl
  · cases x with
    | own off => exact absurd rfl (hx off)
    | _ => rfl

theorem isFullEmpty_setBit {i : Instr} {a : Reg} {m : BitVec 10} {what : StashOp} (he : exec i s = setBit i a m what s) (hlen : i.len = 4) :
    IsFullEmpty s t th { i := i, va := addrOf s th a m, n := 8, what := what, peer := none, wait := none, tagged := true } := by
  refine ⟨rfl, [a], ?_⟩
  apply Exists.intro
  refine ⟨fun h => ?_, fun x hx => .inl ⟨rfl, rfl, 0, ?_⟩⟩
  · show exec i s = _
    rw [he, setBit, onThread_carried h, addrM_noted, hlen]
  · cases x with
    | own off => exact absurd rfl (hx off)
    | _ => rfl

theorem isFullEmpty_ldf (d a : Reg) (m : BitVec 10) :
    IsFullEmpty s t th { i := .ldf d a m, va := addrOf s th a m, n := 8, what := .ldf, peer := none
                         wait := some (fun rid => .fullEmpty rid (some d) (addrOf s th a m)), tagged := false } := by
  refine ⟨rfl, [d, a], ?_⟩
  apply Exists.intro
  refine ⟨fun h => ?_, fun x hx => .inr ⟨rfl, _, rfl, ?_⟩⟩
  · show execLdf d a m s = _
    rw [execLdf, onThread_carried h, addrM_noted]
    rfl
  · cases x with
    | own off => exact absurd rfl (hx off)
    | _ => rfl

theorem isFullEmpty_ldfn (d a : Reg) (q : BitVec 3) :
    IsFullEmpty s t th { i := .ldfn d a q, va := s.readReg th a, n := 8, what := .ldfn, peer := none
                         wait := some (fun rid => .feStatus rid (some d) q), tagged := false } := by
  refine ⟨rfl, [d, a], ?_⟩
  apply Exists.intro
  refine ⟨fun h => ?_, fun x hx => .inr ⟨rfl, _, rfl, ?_⟩⟩
  · show execLdfn d a q s = _
    rw [execLdfn, onThread_carried h, readReg_noted]
    rfl
  · cases x with
    | own off => exact absurd rfl (hx off)
    | _ => rfl

theorem isFullEmpty_stfn (a b : Reg) (q : BitVec 3) :
    IsFullEmpty s t th { i := .stfn a b q, va := s.readReg th a, n := 8, what := .stfn (s.readReg th b), peer := none
                         wait := some (fun rid => .feStatus rid none q), tagged := false } := by
  refine ⟨rfl, [a, b], ?_⟩
  apply Exists.intro
  refine ⟨fun h => ?_, fun x hx => .inr ⟨rfl, _, rfl, ?_⟩⟩
  · show execStfn a b q s = _
    rw [execStfn, onThread_carried h, readReg_noted, readReg_noted]
    rfl
  · cases x with
    | own off => exact absurd rfl (hx off)
    | _ => rfl

end

end Sys2Proof.Proofs
end

section
/-!
PROOFS. Requests to other tiles' stashes, to peers' stashes and to their global space (R126, R129, R136, R182, R185, R340).
-/

namespace Sys2Proof.Proofs

open Sys2Proof Sys2Proof.Machine Sys2Proof.Claims

section
variable {s : State} {t : Nat} {th : Thread}

/-! ## Each kind of access, to whichever target its address names -/

/-- A request leaves for the target that its address names. -/
def Reaches (s : State) (t : Nat) (th : Thread) (r : Request) (clear : Target → Prop) : Prop :=
  ∀ p x, Names s th r.va r.n x → (∀ dev, x = .peer dev → r.peer = some p) → clear x →
    Gated s t th r.i (Asks s t th r (carriesAway s t th r.va r.what p x))

theorem asksAway_of_reaches {r : Request} {clear : Target → Prop} (h : Reaches s t th r clear) : AsksAway s t th r clear :=
  ⟨fun _ _ hp hclear => h (.load 0) _ (.party hp) nofun hclear, fun _ hp hclear => h (.load 0) _ (.peerStash hp) nofun hclear,
    fun _ p hpeer hp hclear => h p _ (.peer hp) (fun _ _ => hpeer) hclear⟩

/-- The operation that goes to a peer's global space is the access's own, and elsewhere none goes. -/
theorem carriesAway_congr {va : Word} {n : Nat} {x : Target} (h : Names s th va n x) {r : Request} {p p' : PeerOp} (hp : r.peer = some p')
    (hpeer : ∀ dev, x = .peer dev → r.peer = some p) (what : StashOp) : carriesAway s t th va what p x = carriesAway s t th va what p' x := by
  cases h with
  | party h => rfl
  | @peer dev h => rw [Option.some.inj ((hpeer dev rfl).symm.trans hp)]
  | peerStash h => rfl

theorem reaches_load {i : Instr} {l : LoadInto} (h : IsLoad s t th i l) :
    Reaches s t th { i := i, va := l.va, n := l.n, what := .load l.n, peer := some (.load l.n), wait := some (fun rid => .load rid l), tagged := false }
      (fun x => Clear s t th x l.va l.n) := by
  intro p x hx hpeer hclear
  obtain ⟨hn, len, regs, hexec⟩ := h
  rw [carriesAway_congr hx rfl hpeer]
  refine gated_of_gate (fun hc => (hexec hc).trans (congrArg _ (load_away hx hn hclear len regs))) (.refl s) rfl (fun u hu he => ?_)
  exact asks_of_askAndWait rfl rfl he hu (carries_away hx _ _)

theorem reaches_store {i : Instr} {va : Word} {n : Nat} {v : Word} (h : IsStore s t th i va n v) :
    Reaches s t th { i := i, va := va, n := n, what := .store n v, peer := some (.store n v), wait := none, tagged := true }
      (fun x => Unaliased s t th x va n) := by
  intro p x hx hpeer hclear
  obtain ⟨hn, regs, hexec⟩ := h
  obtain ⟨pa, key, hstore⟩ := store_away (i := i) hx hn hclear v i.len regs
  rw [carriesAway_congr hx rfl hpeer]
  refine gated_of_gate (fun hc => (hexec hc).trans (congrArg _ hstore)) (.refl s) rfl (fun u hu he => ?_)
  exact asks_of_tagAndPost rfl rfl he hu (carries_away hx _ _)

/-- Behind the gate an atomic asks as its request says. -/
theorem asks_of_amoContinue {v : State} {X : State → Thread → Nat → Nat → State} {carries : State → Nat → Nat → Prop} {r : Request} {op : AmoOp} {d : Reg}
    {pa key : Option Nat} {regs : List Reg} (hlen : r.i.len = 4)
    (hw : r.wait = if d = .x 0 then none else some (fun rid => .atomic rid d r.n (op = .fadd) th.lastTag)) (htag : r.tagged = true)
    (hexec : exec r.i s = .next (amoContinue t X r.va r.n op d pa key v (th.noted 4 regs))) (hv : Prepared s v) (hX : Carries s t th X carries) :
    Asks s t th r carries := by
  unfold amoContinue at hexec
  by_cases hd : d = .x 0
  · rw [if_pos hd] at hw hexec
    rw [← hlen] at hexec
    exact asks_of_tagAndPost hw htag hexec hv hX.numbering
  · rw [if_neg hd] at hw hexec
    exact asks_of_tagAndWait (w := fun y rid => .atomic rid d r.n (op = .fadd) y.lastTag) hw htag hexec hv hX

theorem reaches_atomic {i : Instr} {op : AmoOp} {n : Nat} {d a b : Reg} (h : IsAtomic s t th d a b i op n) :
    Reaches s t th { i := i, va := s.readReg th a, n := n, what := .atomic n op (s.readReg th b) (s.readReg th d)
                     peer := some (.atomic n op (s.readReg th b) (s.readReg th d))
                     wait := if d = .x 0 then none else some (fun rid => .atomic rid d n (op = .fadd) th.lastTag), tagged := true }
      (fun x => Unaliased s t th x (s.readReg th a) n) := by
  intro p x hx hpeer hclear
  obtain ⟨hn, hlen, regs, hexec⟩ := h
  obtain ⟨pa, key, hatomic⟩ := atomic_away (i := i) hx hn hclear op (s.readReg th b) (s.readReg th d) d 4 regs
  rw [carriesAway_congr hx rfl hpeer]
  refine gated_of_gate (fun hc => (hexec hc).trans (congrArg _ hatomic)) (.refl s) rfl (fun u hu he => ?_)
  exact asks_of_amoContinue hlen rfl rfl he hu (carries_away hx _ _)

/-- A stash holds the targets off the tile that are no peer's global space. -/
theorem Names.kindStash {va : Word} {n : Nat} {x : Target} (h : Names s th va n x) (hx : ∀ dev, x ≠ .peer dev) :
    Machine.kindStash (spaceOfTarget x) = true := by
  cases h with
  | party h => rfl
  | peer h => exact absurd rfl (hx _)
  | peerStash h => rfl

theorem Names.ne_own {va : Word} {n : Nat} {x : Target} (h : Names s th va n x) (off : Nat) : x ≠ .own off := by
  cases h <;> exact nofun

theorem reaches_fullEmpty {r : Request} (h : IsFullEmpty s t th r) (hpeer : r.peer = none) :
    Reaches s t th r (fun x => Unaliased s t th x r.va r.n) := by
  obtain ⟨hn, regs, f, hexec, hf⟩ := h
  intro p x hx hp hclear
  rw [hn] at hx hclear
  have hk := hx.kindStash (fun dev hdev => Option.some_ne_none p ((hp dev hdev).symm.trans hpeer))
  have haccess := feAccess_away (i := r.i) hx hk hclear r.i.len regs f
  obtain ⟨htag, hw, data, hpost⟩ | ⟨htag, w, hw, hwait⟩ := hf x hx.ne_own
  · obtain ⟨pa, key, hgate⟩ := fePosted_away (i := r.i) hx hk r.what p data r.i.len regs
    refine gated_of_gate (fun hc => (hexec hc).trans (congrArg _ (haccess.trans (hpost.trans hgate)))) (.refl s) rfl (fun u hu he => ?_)
    exact asks_of_tagAndPost hw htag (by rw [hn]; exact he) hu (carries_away hx _ _)
  · have hgate := feWaited_away (i := r.i) (t := t) hx hk r.what p w r.i.len regs
    refine gated_of_gate (fun hc => (hexec hc).trans (congrArg _ (haccess.trans (hwait.trans hgate)))) (.refl s) rfl (fun u hu he => ?_)
    exact asks_of_askAndWait hw htag he hu (carries_away hx _ _)

/-! ## Traps -/

/-- A full-empty word in a peer's global space (R182). -/
theorem traps_fullEmpty_peer {r : Request} (h : IsFullEmpty s t th r) (hissue : Issuing s t th) (hh : HasHandler th) {dev : Nat}
    (hp : PeerAt s th r.va 8 dev) : Traps s t th r.i 4 3 (some r.va) := by
  obtain ⟨-, regs, f, hexec, -⟩ := h
  exact traps_here hh _ r.i.len regs 4 3 (some r.va)
    ((hexec (.inl hissue)).trans (congrArg _ (feAccess_peer (.peer hp) rfl r.i.len regs f))) (by decide) (by decide)

/-- A barrier object off the tile (R255). -/
theorem traps_barrierOp {i : Instr} {regs : List Reg} {a : Reg} {f : State → Nat → Thread → Nat → Nat → Word → BarObj → State}
    (he : exec i s = barrierOp i regs a f s) (hissue : Issuing s t th) (hh : HasHandler th) {x : Target}
    (hx : Names s th (s.readReg th a) 32 x) : Traps s t th i 4 3 (some (s.readReg th a)) := by
  have hk : kindOwn (spaceOfTarget x) = false := by cases hx <;> rfl
  refine traps_here hh _ 4 (a :: regs) 4 3 _ (he.trans ?_) (by decide) (by decide)
  rw [barrierOp, onThread_issuing hissue]
  simp only [readReg_noted, hx.earlyCheck (by decide) hk]
  rfl

/-! ## The requests of the statement -/

theorem asksAway_loadRequests (s : State) (t : Nat) (th : Thread) (d a b : Reg) (m : BitVec 10) (d4 e : BitVec 4) (m7 : BitVec 7) :
    ∀ r ∈ loadRequests s th d a b m d4 e m7, AsksAway s t th r (fun x => Clear s t th x r.va r.n) := by
  simp only [loadRequests, List.forall_mem_cons, List.forall_mem_map]
  exact ⟨asksAway_of_reaches (reaches_load (isLoad_xld e a m)),
    fun f hf => asksAway_of_reaches (reaches_load (isLoad_of_mem s t th d a b m d4 m7 f hf))⟩

/-- The full-empty instructions among the requests are those that no peer's global space serves. -/
theorem isFullEmpty_of_mem (s : State) (t : Nat) (th : Thread) (d a b : Reg) (m : BitVec 10) (d4 e : BitVec 4) (m7 : BitVec 7) (wd : Width) (q : BitVec 3) :
    ∀ r ∈ writeRequests s th d a b m d4 e m7 wd q, r.peer = none → IsFullEmpty s t th r := by
  simp only [writeRequests, List.forall_mem_append, List.forall_mem_map, List.forall_mem_cons, List.not_mem_nil, false_implies, implies_true, and_true,
    reduceCtorEq, true_and]
  exact ⟨fun _ => isFullEmpty_stf d a m, fun _ => isFullEmpty_setBit rfl rfl, fun _ => isFullEmpty_setBit rfl rfl, fun _ => isFullEmpty_ldf d a m,
    fun _ => isFullEmpty_ldfn d a q, fun _ => isFullEmpty_stfn a b q⟩

theorem asksAway_writeRequests (s : State) (t : Nat) (th : Thread) (d a b : Reg) (m : BitVec 10) (d4 e : BitVec 4) (m7 : BitVec 7) (wd : Width)
    (q : BitVec 3) : ∀ r ∈ writeRequests s th d a b m d4 e m7 wd q, AsksAway s t th r (fun x => Unaliased s t th x r.va r.n) := by
  intro r hr
  refine asksAway_of_reaches ?_
  cases hpeer : r.peer with
  | none => exact reaches_fullEmpty (isFullEmpty_of_mem s t th d a b m d4 e m7 wd q r hr hpeer) hpeer
  | some p =>
    revert hpeer
    revert r
    simp only [writeRequests, List.forall_mem_append, List.forall_mem_map, List.forall_mem_cons, List.not_mem_nil, false_implies, implies_true,
      and_true, reduceCtorEq]
    exact ⟨fun f hf _ => reaches_store (isStore_of_mem s t th d a b m d4 e m7 f hf),
      fun f hf _ => reaches_atomic (isAtomic_of_mem s t th wd d a b f hf)⟩

theorem traps_barriers (s : State) (t : Nat) (th : Thread) (d a b : Reg) (hissue : Issuing s t th) (hh : HasHandler th) {x : Target}
    (hx : Names s th (s.readReg th a) 32 x) :
    ∀ i ∈ [Instr.binit a b, .bexpect a b, .barrive a b, .bwait true a, .bwait false a, .btest d a], Traps s t th i 4 3 (some (s.readReg th a)) := by
  simp only [List.forall_mem_cons, List.not_mem_nil, false_implies, implies_true, and_true]
  have hbwait : ∀ dl, Traps s t th (.bwait dl a) 4 3 (some (s.readReg th a)) := fun dl =>
    traps_barrierOp (show exec (.bwait dl a) s = execBwait dl a s from rfl) hissue hh hx
  exact ⟨traps_barrierOp (show exec (.binit a b) s = execBinit a b s from rfl) hissue hh hx,
    traps_barrierOp (show exec (.bexpect a b) s = execBexpect a b s from rfl) hissue hh hx,
    traps_barrierOp (show exec (.barrive a b) s = execBarrive a b s from rfl) hissue hh hx, hbwait true, hbwait false,
    traps_barrierOp (show exec (.btest d a) s = execBtest d a s from rfl) hissue hh hx⟩

end

/-- Settles O17: an access whose address names a target off the tile passes its checks, comes to the gate, and sends one message; a full-empty word
in a peer's global space and a barrier object off the tile fail the check of their space. -/
theorem requestsToTiles : Obligations.RequestsToTiles := by
  intro s t th d a b m d4 e m7 wd q
  refine ⟨asksAway_loadRequests s t th d a b m d4 e m7, asksAway_writeRequests s t th d a b m d4 e m7 wd q, fun hissue hh => ⟨fun r hr hpeer dev hp => ?_, ?_⟩⟩
  · exact traps_fullEmpty_peer (isFullEmpty_of_mem s t th d a b m d4 e m7 wd q r hr hpeer) hissue hh hp
  · rintro va (⟨tile, off, hp⟩ | ⟨dev, hp | hp⟩)
    · exact traps_barriers s t th d a b hissue hh (.party hp)
    · exact traps_barriers s t th d a b hissue hh (.peer hp)
    · exact traps_barriers s t th d a b hissue hh (.peerStash hp)

end Sys2Proof.Proofs
end

section
/-!
PROOFS. Requests to the home of a global line (R94, R115, R126, R138, R151, R152).
-/

namespace Sys2Proof.Proofs

open Sys2Proof Sys2Proof.Machine Sys2Proof.Claims

/-! ## Messages to a home -/

/-- A load asks with the thread's clock. -/
def homeLoadMessage (t : Nat) (va : Word) (pa n : Nat) (kind : LoadKind) (s : State) (th : Thread) (rid _op : Nat) : State :=
  s.send (placeOfSlot th.home) (chanThread t (lineOf pa)) Config.latHome (.homeLoad (accessOf t th rid va pa n) kind)

/-- A store goes with the clock of its issue, and the core's copy of the line with it (R115). -/
def homeStoreMessage (t : Nat) (va : Word) (pa n : Nat) (bs : Line) (s : State) (th : Thread) (_rid op : Nat) : State :=
  (s.l1Drop (coreOf th.home) (lineOf pa)).send (placeOfSlot th.home) (chanThread t (lineOf pa)) Config.latHome
    (.homeStore (writeOf t th 0 va pa n) op bs)

def homeAtomicMessage (t : Nat) (va : Word) (pa n : Nat) (f : AmoOp) (b d : Word) (s : State) (th : Thread) (rid op : Nat) : State :=
  s.send (placeOfSlot th.home) (chanThread t (lineOf pa)) Config.latHome (.homeAtomic (writeOf t th rid va pa n) op f b d)

section
variable {s : State} {t : Nat} {th : Thread} {va : Word} {pa n : Nat}

theorem carries_homeLoad {kind : LoadKind} :
    Carries s t th (homeLoadMessage t va pa n kind) (fun u rid _ => ∃ x, Sent s u 100 (.homeLoad x kind) ∧ AccessIs x t th va pa n th.lts ∧ x.rid = rid) := by
  intro v len shared tag rid op th' hv
  obtain ⟨hleft, hsent⟩ := send_sent v (placeOfSlot th.home) (chanThread t (lineOf pa)) Config.latHome
    (.homeLoad (accessOf t (sending th len shared tag) rid va pa n) kind)
  exact ⟨hleft, _, sent_of_numbered hv hsent rfl, ⟨rfl, rfl, rfl, rfl, rfl, rfl, rfl, rfl, rfl⟩, rfl⟩

/-- A message leaves the copies in L1 as they are. -/
theorem send_l1 (s : State) (p : Place) (chan : Nat × Nat) (delay : Nat) (e : Event) : (s.send p chan delay e).l1 = s.l1 := by
  unfold State.send
  dsimp only
  split
  · rfl
  · split <;> rfl

/-- No copy of the line is left in the core's L1. -/
theorem l1Drop_line (s : State) (core line : Nat) : ∀ c ∈ KMap.getD (s.l1Drop core line).l1 core [], c.line ≠ line := by
  intro c hc
  rw [State.l1Drop, KMap.getD_set_self] at hc
  simpa using (List.mem_filter.1 hc).2

theorem carries_homeStore {bs : Line} :
    Carries s t th (homeStoreMessage t va pa n bs) (fun u _ op => (∃ x, Sent s u 100 (.homeStore x op bs) ∧ AccessIs x t th va pa n th.clock) ∧
      ∀ c ∈ KMap.getD u.l1 (coreOf th.home) [], c.line ≠ pa / 128) := by
  intro v len shared tag rid op th' hv
  obtain ⟨hleft, hsent⟩ := send_sent (v.l1Drop (coreOf th.home) (lineOf pa)) (placeOfSlot th.home) (chanThread t (lineOf pa)) Config.latHome
    (.homeStore (writeOf t (sending th len shared tag) 0 va pa n) op bs)
  have hback := congrArg (fun (u : State) => { u with l1 := v.l1 }) hleft
  refine ⟨hback, ⟨_, sent_of_numbered hv hsent rfl, ⟨rfl, rfl, rfl, rfl, rfl, rfl, rfl, rfl, rfl⟩⟩, fun c hc => ?_⟩
  have hc' : c ∈ KMap.getD (v.l1Drop (coreOf th.home) (lineOf pa)).l1 (coreOf th.home) [] :=
    send_l1 (v.l1Drop (coreOf th.home) (lineOf pa)) _ _ _ _ ▸ hc
  exact l1Drop_line v (coreOf th.home) (lineOf pa) c hc'

theorem carries_homeAtomic {f : AmoOp} {b d : Word} :
    Carries s t th (homeAtomicMessage t va pa n f b d) (fun u rid op => ∃ x, Sent s u 100 (.homeAtomic x op f b d) ∧
      AccessIs x t th va pa n th.clock ∧ x.rid = rid) := by
  intro v len shared tag rid op th' hv
  obtain ⟨hleft, hsent⟩ := send_sent v (placeOfSlot th.home) (chanThread t (lineOf pa)) Config.latHome
    (.homeAtomic (writeOf t (sending th len shared tag) rid va pa n) op f b d)
  exact ⟨hleft, _, sent_of_numbered hv hsent rfl, ⟨rfl, rfl, rfl, rfl, rfl, rfl, rfl, rfl, rfl⟩, rfl⟩

/-! ## A load that no copy serves -/

theorem l1Find_none {u : State} {core line : Nat} (h : ∀ c ∈ KMap.getD u.l1 core [], c.line ≠ line) (g : BitVec 8) (c : Word) :
    u.l1Find core line g c = none := by
  refine List.find?_eq_none.2 (fun x hx => ?_)
  simp [State.copyServes, h x hx]

theorem l2Find_none {u : State} {line : Nat} (h : ∀ c ∈ u.l2, c.copy.line ≠ line) (die : Nat) (g : BitVec 8) (c : Word) :
    u.l2Find die line g c = none := by
  have hnone : u.l2.find? (fun x => x.die == die && u.copyServes x.copy line g c) = none := by
    refine List.find?_eq_none.2 (fun x hx => ?_)
    simp [State.copyServes, h x hx]
  unfold State.l2Find
  rw [hnone]
  rfl

/-- A sample of L2 changes only the counts of a tile. -/
theorem l2Sample_frame (u : State) (die line : Nat) (g : BitVec 8) : ∃ tiles, u.l2Sample die line g = { u with tiles := tiles } := by
  unfold State.l2Sample
  split
  · exact ⟨u.tiles, rfl⟩
  · exact ⟨_, rfl⟩

theorem loadGlobal_home {u : State} {y : Thread} {i : Instr} {l : LoadInto} (hl1 : ∀ c ∈ KMap.getD u.l1 (coreOf y.home) [], c.line ≠ lineOf pa)
    (hl2 : ∀ c ∈ u.l2, c.copy.line ≠ lineOf pa) :
    ∃ tiles, u.loadGlobal t y i va pa l = ({ u with tiles := tiles } : State).gate t y i
      (askAndWait t (homeLoadMessage t va pa l.n .core) (fun rid => .load rid l)) := by
  unfold State.loadGlobal
  dsimp only
  split
  · exact ⟨u.tiles, rfl⟩
  · rw [l1Find_none hl1]
    dsimp only
    obtain ⟨tiles, hsample⟩ : ∃ tiles, (if y.queued then u else u.l2Sample (u.dieOfTile (tileOf y.home)) (lineOf pa) y.guest) = { u with tiles := tiles } := by
      split
      · exact ⟨u.tiles, rfl⟩
      · exact l2Sample_frame ..
    rw [hsample, l2Find_none (u := { u with tiles := tiles }) hl2]
    exact ⟨tiles, rfl⟩

/-! ## The accesses -/

theorem load_global {i : Instr} {l : LoadInto} (hg : GlobalAt s th l.va l.n pa false) (hclear : Clear s t th (.global l.va pa) l.va l.n)
    (hcopy : NoCopy s th (pa / 128)) (len : Nat) (regs : List Reg) :
    ∃ v, Prepared s v ∧ v.fresh = s.fresh ∧ s.load t (th.noted len regs) i l = v.gate t (th.noted len regs) i
      (askAndWait t (homeLoadMessage t l.va pa l.n .core) (fun rid => .load rid l)) := by
  obtain ⟨utlb, hcheck⟩ := check_global (kind := kindData) hg rfl len regs
  obtain ⟨hl1, hl2⟩ := hcopy
  obtain ⟨tiles, hload⟩ := loadGlobal_home (u := { s with utlb := utlb }) (y := th.noted len regs) (t := t) (va := l.va) (i := i) (l := l) hl1 hl2
  have hno : ¬ State.ownOverlap { s with utlb := utlb } t (th.noted len regs) (.global l.va pa) l.va l.n = true := not_overlap hclear len regs
  refine ⟨{ s with utlb := utlb, tiles := tiles }, rfl, rfl, ?_⟩
  unfold State.load State.access
  rw [hcheck]
  exact (if_neg hno).trans hload

theorem store_global {i : Instr} (hg : GlobalAt s th va n pa true) (hclear : Unaliased s t th (.global va pa) va n) (v : Word) (len : Nat) (regs : List Reg) :
    ∃ utlb, s.store t (th.noted len regs) i va n v = ({ s with utlb := utlb } : State).gate t (th.noted len regs) i
      (tagAndPost t (homeStoreMessage t va pa n (bytesOf v.toNat n)) va n (fun _ _ => some pa) (fun _ _ => none) 0) := by
  obtain ⟨utlb, hcheck⟩ := check_global (kind := kindData) hg rfl len regs
  have hno : ¬ State.aliasOverlap { s with utlb := utlb } t (th.noted len regs) (.global va pa) va n = true := not_alias hclear len regs
  refine ⟨utlb, ?_⟩
  unfold State.store State.access
  rw [hcheck]
  exact if_neg hno

theorem atomic_global {i : Instr} (hg : GlobalAt s th va n pa true) (hclear : Unaliased s t th (.global va pa) va n) (op : AmoOp) (b dv : Word) (d : Reg)
    (len : Nat) (regs : List Reg) :
    ∃ utlb, s.atomic t (th.noted len regs) i va n op b dv d = ({ s with utlb := utlb } : State).gate t (th.noted len regs) i
      (amoContinue t (homeAtomicMessage t va pa n op b dv) va n op d (some pa) none) := by
  obtain ⟨utlb, hcheck⟩ := check_global (kind := kindAmo) hg rfl len regs
  have hno : ¬ State.aliasOverlap { s with utlb := utlb } t (th.noted len regs) (.global va pa) va n = true := not_alias hclear len regs
  refine ⟨utlb, ?_⟩
  unfold State.atomic State.access amoContinue
  rw [hcheck]
  by_cases hd : d = .x 0
  · simp only [hd, if_true]
    exact if_neg hno
  · simp only [hd, if_false]
    exact if_neg hno

/-! ## The bytes of a store -/

/-- The bytes of a word, one by one (R5). -/
theorem bytesOf_eq (v : Word) (n : Nat) : bytesOf v.toNat n = (List.range n).map (fun j => v.extractLsb' (8 * j) 8) := by
  have hshift : ∀ w : Nat, bytesOf w n = (List.range n).map (fun j => BitVec.ofNat 8 (w / 256 ^ j)) := by
    induction n with
    | zero => exact fun _ => rfl
    | succ n ih =>
      intro w
      rw [bytesOf, ih, List.range_succ_eq_map, List.map_cons, List.map_map]
      simp [Nat.div_div_eq_div_mul, Nat.pow_succ', Function.comp_def]
  rw [hshift]
  refine List.map_congr_left (fun j _ => ?_)
  apply BitVec.eq_of_toNat_eq
  rw [BitVec.extractLsb'_toNat, BitVec.toNat_ofNat, Nat.shiftRight_eq_div_pow, Nat.pow_mul]

/-! ## The requests of the statement -/

theorem gated_homeLoad {i : Instr} {l : LoadInto} (h : IsLoad s t th i l) (hg : GlobalAt s th l.va l.n pa false)
    (hclear : Clear s t th (.global l.va pa) l.va l.n) (hcopy : NoCopy s th (pa / 128)) :
    Gated s t th i (∃ u th' rid x, exec i s = .next u ∧ u.thread? t = some th' ∧
      th'.wait = .load rid l ∧ Sent s u 100 (.homeLoad x .core) ∧ AccessIs x t th l.va pa l.n th.lts ∧ x.rid = rid ∧
      th'.pc = th.pc ∧ th'.x = th.x ∧ u.mem = s.mem ∧ SameShared s u ∧ SameOthers s u t) := by
  obtain ⟨-, len, regs, hexec⟩ := h
  obtain ⟨v, hv, hfresh, hload⟩ := load_global (i := i) hg hclear hcopy len regs
  refine gated_of_gate (fun hc => (hexec hc).trans (congrArg _ hload)) hv hfresh (fun u hu he => ?_)
  obtain ⟨th', rid, hth, ⟨x, hsent, haccess, hrid⟩, hwait, hpc, -, -, -, hx, -, hmem, hshared, hothers⟩ :=
    askAndWait_spec hu (carries_homeLoad (kind := .core)) (fun rid => .load rid l) len regs
  exact ⟨_, th', rid, x, he, hth, hwait, hsent, haccess, hrid, hpc, hx, hmem, hshared, hothers⟩

theorem gated_homeStore {i : Instr} {v : Word} (h : IsStore s t th i va n v) (hg : GlobalAt s th va n pa true)
    (hclear : Unaliased s t th (.global va pa) va n) :
    Gated s t th i (∃ u th' op bs x, exec i s = .next u ∧ u.thread? t = some th' ∧ Sent s u 100 (.homeStore x op bs) ∧
      AccessIs x t th va pa n th.clock ∧ bs = (List.range n).map (fun j => v.extractLsb' (8 * j) 8) ∧ Tags s u t th th' va n op ∧
      (∀ c ∈ KMap.getD u.l1 (coreOf th.home) [], c.line ≠ pa / 128) ∧
      GoesOn th th' i.len ∧ SameRest th { th' with lastTag := th.lastTag } ∧ th'.x = th.x ∧
      u.mem = s.mem ∧ SameShared s u ∧ SameOthers s u t) := by
  obtain ⟨-, regs, hexec⟩ := h
  obtain ⟨utlb, hstore⟩ := store_global (i := i) hg hclear v i.len regs
  refine gated_of_gate (fun hc => (hexec hc).trans (congrArg _ hstore)) (v := { s with utlb := utlb }) rfl rfl (fun u hu he => ?_)
  obtain ⟨th', op, hth, ⟨⟨x, hsent, haccess⟩, hdrop⟩, hgoes, hrest, htags, hx, hmem, hshared, hothers⟩ :=
    tagAndPost_spec hu (carries_homeStore (bs := bytesOf v.toNat n)) va n (fun _ _ => some pa) (fun _ _ => none) 0 i.len regs
  exact ⟨_, th', op, _, x, he, hth, hsent, haccess, bytesOf_eq v n, htags, hdrop, hgoes, hrest, hx, hmem, hshared, hothers⟩

theorem gated_homeAtomic {i : Instr} {op : AmoOp} {d a b : Reg} (h : IsAtomic s t th d a b i op n) (hg : GlobalAt s th (s.readReg th a) n pa true)
    (hclear : Unaliased s t th (.global (s.readReg th a) pa) (s.readReg th a) n) :
    Gated s t th i (∃ u th' tag x, exec i s = .next u ∧ u.thread? t = some th' ∧
      Sent s u 100 (.homeAtomic x tag op (s.readReg th b) (s.readReg th d)) ∧ AccessIs x t th (s.readReg th a) pa n th.clock ∧
      Tags s u t th th' (s.readReg th a) n tag ∧ th'.x = th.x ∧
      (if d = .x 0 then GoesOn th th' 4 else th'.pc = th.pc ∧ th'.wait = .atomic x.rid d n (op = .fadd) th.lastTag) ∧
      u.mem = s.mem ∧ SameShared s u ∧ SameOthers s u t) := by
  obtain ⟨-, hlen, regs, hexec⟩ := h
  obtain ⟨utlb, hatomic⟩ := atomic_global (i := i) hg hclear op (s.readReg th b) (s.readReg th d) d 4 regs
  refine gated_of_gate (fun hc => (hexec hc).trans (congrArg _ hatomic)) (v := { s with utlb := utlb }) rfl rfl (fun u hu he => ?_)
  unfold amoContinue at he
  by_cases hd : d = .x 0
  · rw [if_pos hd] at he
    obtain ⟨th', tag, hth, ⟨x, hsent, haccess, -⟩, hgoes, -, htags, hx, hmem, hshared, hothers⟩ :=
      tagAndPost_spec hu (carries_homeAtomic (f := op) (b := s.readReg th b) (d := s.readReg th d)).numbering (s.readReg th a) n (fun _ _ => some pa)
        (fun _ _ => none) 0 4 regs
    exact ⟨_, th', tag, x, he, hth, hsent, haccess, htags, hx, by rw [if_pos hd]; exact hgoes, hmem, hshared, hothers⟩
  · rw [if_neg hd] at he
    obtain ⟨th', rid, tag, hth, ⟨x, hsent, haccess, hrid⟩, hwait, hpc, -, htags, hx, hmem, hshared, hothers⟩ :=
      tagAndWait_spec hu (carries_homeAtomic (f := op) (b := s.readReg th b) (d := s.readReg th d)) (s.readReg th a) n (fun _ _ => some pa)
        (fun _ _ => none) (fun y rid => .atomic rid d n (op = .fadd) y.lastTag) 4 regs
    exact ⟨_, th', tag, x, he, hth, hsent, haccess, htags, hx, by rw [if_neg hd, hrid]; exact ⟨hpc, hwait⟩, hmem, hshared, hothers⟩

end

/-- Settles O16: an access of a global line passes its checks, finds no copy that serves it, comes to the gate and sends one message to the home. -/
theorem requestsToHomes : Obligations.RequestsToHomes := by
  intro s t th d a b m d4 e m7 wd
  refine ⟨fun f hf pa hg hclear hcopy => ?_, fun pa hg hclear hcopy => ?_, fun f hf pa hg hclear => ?_, fun f hf pa hg hclear => ?_⟩
  · exact gated_homeLoad (isLoad_of_mem s t th d a b m d4 m7 f hf) hg hclear hcopy
  · exact gated_homeLoad (isLoad_xld e a m) hg hclear hcopy
  · exact gated_homeStore (isStore_of_mem s t th d a b m d4 e m7 f hf) hg hclear
  · exact gated_homeAtomic (isAtomic_of_mem s t th wd d a b f hf) hg hclear

end Sys2Proof.Proofs
end

section
/-!
PROOFS. Reads of the constant window (R111, R112, R125).
-/

namespace Sys2Proof.Proofs

open Sys2Proof Sys2Proof.Machine Sys2Proof.Claims

/-! ## The value of a load (R93) -/

theorem natOfBytes_lt (bs : List Byte) : natOfBytes bs < 2 ^ (8 * bs.length) := by
  induction bs with
  | nil => decide
  | cons b bs ih =>
    have hb := b.isLt
    rw [natOfBytes, List.length_cons, Nat.mul_add, Nat.pow_add]
    omega

/-- Sign extension as the statement writes it. -/
theorem sext_eq_signExtend (n w : Nat) (hn : 0 < n) : sext n w = (BitVec.ofNat n w).signExtend 64 := by
  have hpow : 2 ^ n = 2 * 2 ^ (n - 1) := by rw [← Nat.pow_succ']; congr 1; omega
  rw [BitVec.signExtend, sext, signedOf, BitVec.toInt_eq_toNat_cond, BitVec.toNat_ofNat]
  congr 1
  by_cases h : w % 2 ^ n < 2 ^ (n - 1)
  · rw [if_pos h, if_pos (by omega)]
  · rw [if_neg h, if_neg (by omega)]

theorem value_eq_widened {l : LoadInto} (hn : 0 < l.n) {bs : List Byte} (hbs : bs.length ≤ l.n) :
    l.value bs = widened l.n l.signed (natOfBytes bs) := by
  have hlt : natOfBytes bs < 2 ^ (8 * l.n) := (natOfBytes_lt bs).trans_le (Nat.pow_le_pow_right (by decide) (by omega))
  unfold LoadInto.value widened
  split
  · exact sext_eq_signExtend _ _ (by omega)
  · rw [zext, Nat.mod_eq_of_lt hlt]

section
variable {s v : State} {t : Nat} {th : Thread}

/-! ## A value lands -/

theorem readReg_prepared (hv : Prepared s v) (y : Thread) (r : Reg) : v.readReg y r = s.readReg y r := by
  cases r with
  | x n => rfl
  | k n => simp only [State.readReg, State.kread, State.bank, hv.numbered.banks]

theorem kread_prepared (hv : Prepared s v) (c : Nat) (g : BitVec 8) (k : BitVec 5) : v.kread c g k = s.kread c g k := by
  simp only [State.kread, State.bank, hv.numbered.banks]

theorem writeReg_mem (u : State) (y : Thread) (d : Reg) (val : Word) : (u.writeReg y d val).1.mem = u.mem := by
  have k := congrArg State.mem (State.writeReg_device u y d val)
  exact k

/-- Of the thread, a write of a register changes at most the registers x1 to x31. -/
theorem writeReg_thread (u : State) (y : Thread) (d : Reg) (val : Word) : ∃ x, (u.writeReg y d val).2 = { y with x := x } := by
  have k := congrArg (fun (z : Thread) => { z with x := (u.writeReg y d val).2.x }) (State.writeReg_rest u y d val)
  exact ⟨_, k⟩

theorem sameOthers_result (hv : Prepared s v) (y : Thread) (d : Reg) (val : Word) : SameOthers s (v.result t y d val) t := by
  intro t' ht
  rw [State.result_eq, State.thread?_setThread, if_neg ht, State.writeReg_thread?]
  exact congrArg (KMap.get? · t') hv.numbered.threads

/-- The registers of a thread after it has completed its instruction are those that the write left. -/
theorem readReg_advance (u : State) (y : Thread) (hy : y.replay = false) (r : Reg) : u.readReg y.advance r = u.readReg y r := by
  apply State.readReg_congr
  all_goals first | rfl | exact hy.symm

/-- An instruction that writes d at its issue. -/
theorem result_reads (hv : Prepared s v) (hr : th.replay = false) (len : Nat) (regs : List Reg) (d : Reg) (val : Word) :
    ∃ th', let u := v.result t (th.noted len regs) d val
      u.thread? t = some th' ∧ u.readReg th' d = (if d = .x 0 then 0 else val) ∧
      SameRegsBut s u th th' d ∧ GoesOn th th' len ∧ SameRest th th' ∧ SameSharedBut s u th d ∧ SameOthers s u t ∧ u.mem = s.mem := by
  have hy : (th.noted len regs).replay = false := hr
  have hw : (v.writeReg (th.noted len regs) d val).2.replay = false := by rw [State.writeReg_replayFlag, hy]
  obtain ⟨x, hx⟩ := writeReg_thread v (th.noted len regs) d val
  refine ⟨(v.writeReg (th.noted len regs) d val).2.advance, State.thread?_setThread_self _ _ _, ?_, fun r hne => ?_, ?_, ?_, fun c g k => ?_,
    sameOthers_result hv _ _ _, (writeReg_mem ..).trans hv.numbered.mem⟩
  · rw [State.result_eq, State.readReg_setThread, readReg_advance _ _ hw, State.readReg_writeReg_self v hy]
  · rw [State.result_eq, State.readReg_setThread, readReg_advance _ _ hw, State.readReg_writeReg_ne _ _ _ hne, readReg_prepared hv, readReg_noted]
  · rw [hx]
    exact goesOn_advance th _ len rfl rfl rfl rfl rfl
  · rw [hx]
    rfl
  · exact (State.kread_writeReg v (th.noted len regs) d val c g k).imp_right (·.trans (kread_prepared hv c g k))

/-- An instruction that completes without issuing writes d at the end of the cycle (R48). -/
theorem result_lands (hv : Prepared s v) (hr : th.replay = true) (len : Nat) (regs : List Reg) (d : Reg) (val : Word) :
    ∃ th', let u := v.result t (th.noted len regs) d val
      u.thread? t = some th' ∧ Lands s u th th' d val ∧ GoesOn th th' len ∧ th'.lts = th.lts ∧ SameShared s u ∧ SameOthers s u t ∧ u.mem = s.mem := by
  have hothers := sameOthers_result (t := t) hv (th.noted len regs) d val
  have hlate : v.lateWrites = s.lateWrites := by
    have k := congrArg State.lateWrites hv
    exact k
  rw [State.result_eq, State.writeReg_replay v (show (th.noted len regs).replay = true from hr)] at *
  refine ⟨_, State.thread?_setThread_self _ _ _, ?_, ?_, ?_, ?_, hothers, ?_⟩
  · cases d with
    | x n =>
      refine ⟨?_, hlate⟩
      unfold State.writeRegLate
      dsimp only
      split <;> rfl
    | k n => exact ⟨rfl, congrArg (· ++ _) hlate⟩
  · cases d with
    | x n =>
      unfold State.writeRegLate
      dsimp only
      split <;> exact goesOn_advance th _ len rfl rfl rfl rfl rfl
    | k n => exact goesOn_advance th _ len rfl rfl rfl rfl rfl
  · cases d with
    | x n =>
      unfold State.writeRegLate
      dsimp only
      split <;> rfl
    | k n => rfl
  · intro c g k
    cases d <;> exact kread_prepared hv c g k
  · cases d <;> exact hv.numbered.mem

/-! ## The copy that serves (R112) -/

/-- The copies of a line in the tile's constant cache that were read since the thread's launch started, of the guest's present generation. -/
def servingCopies (s : State) (th : Thread) (pa : Nat) : List Copy :=
  (s.tile (tileOf th.home)).const.filter (fun c => c.line == pa / 128 && c.guest == th.guest && c.gen == (s.guest th.guest).gen &&
    decide (((s.launch? th.launch).map (fun x => x.startedAt)).getD 0 ≤ c.rts.toNat))

/-- One of them is picked, or none: only the count of free values changes. -/
theorem pickConst_cases (cs : List Copy) (u : State) :
    ∃ n, pickConst cs u = (none, { u with fresh := n }) ∨ ∃ c ∈ cs, pickConst cs u = (some c, { u with fresh := n }) := by
  induction cs generalizing u with
  | nil => exact ⟨u.fresh, .inl rfl⟩
  | cons c cs ih =>
    unfold pickConst State.flip
    cases Config.ldcOld u.fresh
    · obtain ⟨n, hnone | ⟨x, hx, hsome⟩⟩ := ih { u with fresh := u.fresh + 1 }
      · exact ⟨n, .inl hnone⟩
      · exact ⟨n, .inr ⟨x, List.mem_cons_of_mem _ hx, hsome⟩⟩
    · exact ⟨u.fresh + 1, .inr ⟨c, List.mem_cons_self .., rfl⟩⟩

theorem pickConst_first {c : Copy} {cs : List Copy} {u : State} (h : Config.ldcOld u.fresh = true) :
    pickConst (c :: cs) u = (some c, { u with fresh := u.fresh + 1 }) := by
  unfold pickConst State.flip
  rw [h]

theorem pickConst_skip {c : Copy} {cs : List Copy} {u : State} (h : ¬ Config.ldcOld u.fresh = true) :
    pickConst (c :: cs) u = pickConst cs { u with fresh := u.fresh + 1 } := by
  conv_lhs => unfold pickConst State.flip
  rw [Bool.eq_false_iff.2 h]

/-- What LDC does with the copy that was picked. -/
def afterPick (t : Nat) (y : Thread) (i : Instr) (l : LoadInto) (pa : Nat) : Option Copy × State → State
  | (some c, u) => u.landLoad t y l (l.value ((c.data.drop (pa % 128)).take l.n)) false
  | (none, u) => u.gate t y i (askAndWait t (homeLoadMessage t l.va pa l.n .ldc) (fun rid => .load rid l))

/-- LDC inside the window passes its checks. -/
theorem loadConst_eq {i : Instr} {l : LoadInto} {pa : Nat} (hg : GlobalAt s th l.va l.n pa false) (hlow : (s.constWindow th).1 ≤ l.va.toNat)
    (hhigh : l.va.toNat + l.n ≤ (s.constWindow th).1 + (s.constWindow th).2) (len : Nat) (regs : List Reg) :
    ∃ utlb, s.loadConst t (th.noted len regs) i l =
      afterPick t (th.noted len regs) i l pa (pickConst (servingCopies s th pa) { s with utlb := utlb }) := by
  obtain ⟨utlb, hcheck⟩ := check_global (kind := kindGlobal) hg rfl len regs
  obtain ⟨hva, halign, -⟩ := hg
  have hwindow : s.constWindow (th.noted len regs) = s.constWindow th := rfl
  have hcopies : (s.tile (tileOf th.home)).const.filter (fun c => c.line == lineOf pa && c.guest == th.guest &&
      State.copyLives { s with utlb := utlb } c && decide (((s.launch? th.launch).map (·.startedAt)).getD 0 ≤ c.rts.toNat)) = servingCopies s th pa := by
    unfold servingCopies
    refine List.filter_congr (fun c _ => ?_)
    by_cases hguest : c.guest = th.guest
    · rw [← hguest]; rfl
    · have hbeq : (c.guest == th.guest) = false := beq_eq_false_iff_ne.2 hguest
      simp only [hbeq, Bool.and_false, Bool.false_and]
  refine ⟨utlb, ?_⟩
  unfold State.loadConst State.access
  dsimp only
  rw [if_neg (not_not.2 halign), if_neg (by simp [spaceOk_global s _ _ hva]), if_neg (not_not.2 (spaceOf_global s hva)),
    if_neg (by simp [low56_global hva, hwindow, hlow, hhigh]), hcheck, ← hcopies]
  unfold afterPick
  rfl

/-! ## The outcomes -/

/-- The word i is carried out as LDC into d of n bytes at va. -/
def IsConstLoad (s : State) (t : Nat) (th : Thread) (i : Instr) (d : Reg) (n : Nat) (signed : Bool) (va : Word) : Prop :=
  0 < n ∧ ∃ regs, Carried s t th → exec i s = .next (s.loadConst t (th.noted 4 regs) i { dst := .reg d, n := n, signed := signed, va := va })

theorem isConstLoad_ldC {i : Instr} {d a : Reg} {m : BitVec 10} {n : Nat} {signed : Bool} (he : exec i s = ldC i d a m n signed s) (hn : 0 < n) :
    IsConstLoad s t th i d n signed (addrOf s th a m) :=
  ⟨hn, [d, a], fun h => by rw [he, ldC, onThread_carried h, addrM_noted]⟩

variable {i : Instr} {d : Reg} {n pa : Nat} {signed : Bool} {va : Word}

/-- LDC has asked the home, and waits. -/
def AsksConst (s : State) (t : Nat) (th : Thread) (i : Instr) (d : Reg) (n : Nat) (signed : Bool) (va : Word) (pa : Nat) : Prop :=
  ∃ u th' x, exec i s = .next u ∧ u.thread? t = some th' ∧ th'.wait = .load x.rid { dst := .reg d, n := n, signed := signed, va := va } ∧
    Sent s u 100 (.homeLoad x .ldc) ∧ AccessIs x t th va pa n th.lts ∧ th'.pc = th.pc ∧ th'.x = th.x ∧
    th'.lts = th.lts ∧ u.mem = s.mem ∧ SameShared s u ∧ SameOthers s u t

/-- The request of an LDC. -/
def constRequest (t : Nat) (d : Reg) (n : Nat) (signed : Bool) (va : Word) (pa : Nat) : State → Thread → State :=
  askAndWait t (homeLoadMessage t va pa n .ldc) (fun rid => .load rid { dst := .reg d, n := n, signed := signed, va := va })

theorem asksConst_of_request {len : Nat} {regs : List Reg} (hv : Prepared s v)
    (hexec : exec i s = .next (constRequest t d n signed va pa v (th.noted len regs))) : AsksConst s t th i d n signed va pa := by
  obtain ⟨th', rid, hth, ⟨x, hsent, haccess, hrid⟩, hwait, hpc, -, -, hlts, hx, -, hmem, hshared, hothers⟩ :=
    askAndWait_spec hv (carries_homeLoad (kind := .ldc)) (fun rid => .load rid { dst := .reg d, n := n, signed := signed, va := va }) len regs
  exact ⟨_, th', x, hexec, hth, hrid ▸ hwait, hsent, haccess, hpc, hx, hlts, hmem, hshared, hothers⟩

/-- At a gate whose free value is not the first one of the step, LDC asks or waits. -/
theorem sends_of_gate {len : Nat} {regs : List Reg} (hv : Prepared s v)
    (hexec : exec i s = .next (v.gate t (th.noted len regs) i (constRequest t d n signed va pa))) :
    AsksConst s t th i d n signed va pa ∨ th.queued = false ∧ Waits s t th i (fun w => w = .sendQueue i) := by
  by_cases hwait : th.queued = false ∧ Config.sendFull v.fresh = true
  · exact .inr ⟨hwait.1, waits_of_gate hexec hv hwait.1 hwait.2⟩
  · obtain ⟨k, hopen⟩ := gate_open (i := i) (t := t) (x := th.noted len regs) (f := constRequest t d n signed va pa) hwait
    exact .inl (asksConst_of_request (hv.fresh k) (hexec.trans (congrArg _ hopen)))

/-- A copy that is picked gives its word to d. -/
theorem afterPick_some (c : Copy) (u : State) (hn : 0 < n) (y : Thread) :
    afterPick t y i { dst := .reg d, n := n, signed := signed, va := va } pa (some c, u) =
      u.result t y d (widened n signed (natOfBytes ((c.data.drop (pa % 128)).take n))) := by
  have hvalue := value_eq_widened (l := { dst := .reg d, n := n, signed := signed, va := va }) hn
    (bs := (c.data.drop (pa % 128)).take n) (List.length_take_le ..)
  rw [← hvalue]
  rfl

section
variable (h : IsConstLoad s t th i d n signed va) (hg : GlobalAt s th va n pa false) (hlow : (s.constWindow th).1 ≤ va.toNat)
  (hhigh : va.toNat + n ≤ (s.constWindow th).1 + (s.constWindow th).2)
include h hg hlow hhigh

/-- With no copy cached, LDC comes to the gate and asks. -/
theorem gated_const (hnone : servingCopies s th pa = []) : Gated s t th i (AsksConst s t th i d n signed va pa) := by
  obtain ⟨-, regs, hexec⟩ := h
  obtain ⟨utlb, hload⟩ := loadConst_eq (t := t) (i := i) (l := { dst := .reg d, n := n, signed := signed, va := va }) hg hlow hhigh 4 regs
  rw [hnone] at hload
  refine gated_of_gate (fun hc => (hexec hc).trans (congrArg _ hload)) (v := { s with utlb := utlb }) rfl rfl (fun u hu he => ?_)
  exact asksConst_of_request hu he

/-- With copies cached it takes the first one's word, or goes on to the others and the home, by the model's free value. P says what a word that
lands does. -/
theorem const_cached {P : Copy → Prop} (hc : Carried s t th) {c : Copy} {cs : List Copy} (hcopies : servingCopies s th pa = c :: cs)
    (hland : ∀ x u regs, Prepared s u → exec i s = .next (u.result t (th.noted 4 regs) d
      (widened n signed (natOfBytes ((x.data.drop (pa % 128)).take n)))) → P x) :
    if Config.ldcOld s.fresh = true then P c
    else (AsksConst s t th i d n signed va pa ∨ th.queued = false ∧ Waits s t th i (fun w => w = .sendQueue i)) ∨ ∃ x ∈ cs, P x := by
  obtain ⟨hn, regs, hexec⟩ := h
  obtain ⟨utlb, hload⟩ := loadConst_eq (t := t) (i := i) (l := { dst := .reg d, n := n, signed := signed, va := va }) hg hlow hhigh 4 regs
  have hstep := (hexec hc).trans (congrArg _ hload)
  rw [hcopies] at hstep
  split
  next hfirst =>
    rw [pickConst_first (u := { s with utlb := utlb }) hfirst, afterPick_some _ _ hn] at hstep
    exact hland c { s with utlb := utlb, fresh := s.fresh + 1 } regs rfl hstep
  next hskip =>
    rw [pickConst_skip (u := { s with utlb := utlb }) hskip] at hstep
    obtain ⟨k, hnone | ⟨x, hx, hsome⟩⟩ := pickConst_cases cs { s with utlb := utlb, fresh := s.fresh + 1 }
    · rw [hnone] at hstep
      exact .inl (sends_of_gate (v := { s with utlb := utlb, fresh := k }) rfl hstep)
    · rw [hsome, afterPick_some _ _ hn] at hstep
      exact .inr ⟨x, hx, hland x { s with utlb := utlb, fresh := k } regs rfl hstep⟩

end

end

/-- The forms of LDC (R125). -/
theorem isConstLoad_of_mem (s : State) (t : Nat) (th : Thread) (d a : Reg) (m : BitVec 10) :
    ∀ f ∈ [(Instr.ldcW d a m, 4, true), (.ldcWz d a m, 4, false), (.ldcD d a m, 8, true)],
      IsConstLoad s t th f.1 d f.2.1 f.2.2 (addrOf s th a m) := by
  simp only [List.forall_mem_cons, List.not_mem_nil, false_implies, implies_true, and_true]
  exact ⟨isConstLoad_ldC (show exec (.ldcW d a m) s = execLdcW d a m s from rfl) (by decide),
    isConstLoad_ldC (show exec (.ldcWz d a m) s = execLdcWz d a m s from rfl) (by decide),
    isConstLoad_ldC (show exec (.ldcD d a m) s = execLdcD d a m s from rfl) (by decide)⟩

/-- Settles O18: LDC inside the window passes its checks, and then goes by what is picked among the copies of its line: a word that lands, or the
gate and the home. -/
theorem constantReads : Obligations.ConstantReads := by
  intro s t th d a m i n signed hf va w pa hg hlow hhigh
  have h := isConstLoad_of_mem s t th d a m _ hf
  refine ⟨fun hnone => gated_const h hg hlow hhigh hnone, fun c cs hcopies => ⟨fun hissue => ?_, fun hrejoin => ?_⟩⟩
  · have ⟨_, _, _, _, hreplay⟩ := hissue
    refine const_cached h hg hlow hhigh (.inl hissue) hcopies (fun x u regs hu he => ?_)
    obtain ⟨th', hth, hreads⟩ := result_reads (t := t) hu hreplay 4 regs d (widened n signed (natOfBytes ((x.data.drop (pa % 128)).take n)))
    exact ⟨_, th', he, hth, hreads⟩
  · have ⟨_, _, _, hreplay⟩ := hrejoin
    refine const_cached h hg hlow hhigh (.inr hrejoin) hcopies (fun x u regs hu he => ?_)
    obtain ⟨th', hth, hlands⟩ := result_lands (t := t) hu hreplay 4 regs d (widened n signed (natOfBytes ((x.data.drop (pa % 128)).take n)))
    exact ⟨_, th', he, hth, hlands⟩

end Sys2Proof.Proofs
end

