-- ==== Sys2Proof/Proofs/LongWords.lean ====
section
/-!
PROOFS. The 32-bit words: operand codes, encodings decode, and what each major's decoder may answer (R44 to R55).
-/

namespace Sys2Proof.Proofs

open Sys2Proof

/-! ## Operands and codes

What an operand's field holds names the operand again, and the other way round. -/

@[simp] theorem ofField_field (r : Reg) : Reg.ofField r.field = r := by
  cases r with
  | x n => simp [Reg.ofField, Reg.field, n.isLt]
  | k n => simp [Reg.ofField, Reg.field]

@[simp] theorem field_lt (r : Reg) : r.field < 64 := by
  cases r with
  | x n => simp only [Reg.field]; omega
  | k n => simp only [Reg.field]; omega

theorem field_ofField {n : Nat} (h : n < 64) : (Reg.ofField n).field = n := by
  unfold Reg.ofField
  split <;> simp only [Reg.field, BitVec.toNat_ofNat] <;> omega

@[simp] theorem scope_ofCode_eq_some {n : Nat} {s : Scope} : Scope.ofCode n = some s ↔ s.code = n := by
  constructor
  · unfold Scope.ofCode; split <;> rintro ⟨⟩ <;> rfl
  · rintro rfl; cases s <;> rfl

@[simp] theorem rm_ofCode_eq_some {n : Nat} {r : Rm} : Rm.ofCode n = some r ↔ r.code = n := by
  constructor
  · unfold Rm.ofCode; split <;> rintro ⟨⟩ <;> rfl
  · rintro rfl; cases r <;> rfl

@[simp] theorem fmt_ofCode_eq_some {n : Nat} {f : Fmt} : Fmt.ofCode n = some f ↔ f.code = n := by
  constructor
  · unfold Fmt.ofCode; split <;> rintro ⟨⟩ <;> rfl
  · rintro rfl; cases f <;> rfl

@[simp] theorem selfField_ofCode_eq_some {n : Nat} {x : SelfField} : SelfField.ofCode n = some x ↔ x.code = n := by
  constructor
  · unfold SelfField.ofCode; split <;> rintro ⟨⟩ <;> rfl
  · rintro rfl; cases x <;> rfl

@[simp] theorem sysReg_ofCode_eq_some {n : Nat} {r : SysReg} : SysReg.ofCode n = some r ↔ r.code = n := by
  constructor
  · unfold SysReg.ofCode; split <;> rintro ⟨⟩ <;> rfl
  · rintro rfl; cases r <;> rfl

@[simp] theorem gd_ofField_eq_some {n : Nat} {g : Gd} : Gd.ofField n = some g ↔ g.field = n := by
  unfold Gd.ofField
  constructor
  · split
    · rintro ⟨⟩; simp_all [Gd.field]
    · split
      · rintro ⟨⟩; simp only [Gd.field, BitVec.toNat_ofNat]; omega
      · simp
  · rintro rfl
    cases g with
    | none => rfl
    | some q => simp [Gd.field]; omega

@[simp] theorem scope_code_lt (s : Scope) : s.code < 16 := by cases s <;> decide
@[simp] theorem rm_code_lt (r : Rm) : r.code < 8 := by cases r <;> decide
@[simp] theorem rm_code_lt_16 (r : Rm) : r.code < 16 := by cases r <;> decide
@[simp] theorem fmt_code_lt (f : Fmt) : f.code < 16 := by cases f <;> decide
@[simp] theorem fmt_code_lt_64 (f : Fmt) : f.code < 64 := by cases f <;> decide
@[simp] theorem selfField_code_lt (x : SelfField) : x.code < 16 := by cases x <;> decide
@[simp] theorem sysReg_code_lt (r : SysReg) : r.code / 16 < 64 := by cases r <;> decide
@[simp] theorem fp_bit_lt (p : Fp) : 8 * p.bit < 16 := by cases p <;> decide
@[simp] theorem lanes_code_lt (l : Lanes) : l.code < 4 := by cases l <;> decide
@[simp] theorem lanes_code_lt_16 (l : Lanes) : l.code < 16 := by cases l <;> decide
@[simp] theorem width_bit_le (w : Width) : w.bit ≤ 1 := by cases w <;> decide
@[simp] theorem width_bit_lt (w : Width) : w.bit < 16 := by cases w <;> decide
@[simp] theorem bit_le (b : Bool) : bit b ≤ 1 := by cases b <;> decide
@[simp] theorem bit_lt (b : Bool) : bit b < 16 := by cases b <;> decide
@[simp] theorem gd_field_lt (g : Gd) : Gd.field g < 64 := by
  cases g with
  | none => decide
  | some q => simp only [Gd.field]; omega

@[simp] theorem fp_ofBit_bit (p : Fp) : Fp.ofBit p.bit = p := by cases p <;> rfl
@[simp] theorem lanes_ofCode_code (l : Lanes) : Lanes.ofCode l.code = l := by cases l <;> rfl
@[simp] theorem width_ofBit_bit (w : Width) : Width.ofBit w.bit = w := by cases w <;> rfl
@[simp] theorem bit_beq_one (b : Bool) : (bit b == 1) = b := by cases b <;> rfl
theorem bit_beq_one_eq {n : Nat} (h : n ≤ 1) : bit (n == 1) = n := by interval_cases n <;> rfl
theorem fp_bit_ofBit {n : Nat} (h : n < 2) : (Fp.ofBit n).bit = n := by interval_cases n <;> rfl
theorem lanes_code_ofCode {n : Nat} (h : n < 4) : (Lanes.ofCode n).code = n := by interval_cases n <;> rfl
theorem width_bit_ofBit {n : Nat} (h : n < 2) : (Width.ofBit n).bit = n := by interval_cases n <;> rfl

@[simp] theorem rm_ofCode_code (r : Rm) : Rm.ofCode r.code = some r := rm_ofCode_eq_some.2 rfl
@[simp] theorem fmt_ofCode_code (f : Fmt) : Fmt.ofCode f.code = some f := fmt_ofCode_eq_some.2 rfl
@[simp] theorem gd_ofField_field (g : Gd) : Gd.ofField g.field = some g := gd_ofField_eq_some.2 rfl

theorem need_eq_some {c : Bool} {i j : Instr} : need c i = some j ↔ c = true ∧ i = j := by
  cases c <;> simp [need]

/-! ## Numbers in parts -/

@[simp] theorem toNat_lt_4 (v : BitVec 2) : v.toNat < 4 := v.isLt
@[simp] theorem toNat_lt_8 (v : BitVec 3) : v.toNat < 8 := v.isLt
@[simp] theorem toNat_lt_16 (v : BitVec 4) : v.toNat < 16 := v.isLt
@[simp] theorem toNat_shift_lt (v : BitVec 6) : v.toNat / 16 < 4 := by omega

/-- A flag above a two-bit code reads back, and so does the code. -/
@[simp] theorem flag_of_flag_code (u : Bool) {n : Nat} (h : n < 4) : ((4 * bit u + n) / 4 == 1) = u := by
  cases u
  · simp [bit]; omega
  · simp [bit]; omega
@[simp] theorem code_of_flag_code (u : Bool) {n : Nat} (h : n < 4) : (4 * bit u + n) % 4 = n := by
  cases u <;> simp [bit] <;> omega
@[simp] theorem flag_code_lt (u : Bool) {n m : Nat} (h : n < 4) (hm : 8 ≤ m) : 4 * bit u + n < m := by
  have := bit_le u
  omega
@[simp] theorem precision_code_lt (p : Fp) {n : Nat} (h : n < 8) : 8 * p.bit + n < 16 := by
  cases p <;> simp only [Fp.bit] <;> omega
@[simp] theorem ofNat_flag_code (u : Bool) (m : BitVec 2) : BitVec.ofNat 2 (4 * bit u + m.toNat) = m := by
  apply BitVec.eq_of_toNat_eq
  simp only [BitVec.toNat_ofNat]
  omega
@[simp] theorem precision_of_precision_code (p : Fp) {n : Nat} (h : n < 8) : Fp.ofBit ((8 * p.bit + n) / 8) = p := by
  cases p <;> simp [Fp.bit, Fp.ofBit] <;> omega
@[simp] theorem two_flags_lt (m l : Bool) {n : Nat} (h : 4 ≤ n) : bit m + 2 * bit l < n := by
  have := bit_le m
  have := bit_le l
  omega
@[simp] theorem low_of_flag (m : Bool) : (bit m % 2 == 1) = m := by cases m <;> rfl
@[simp] theorem high_of_two_flags (m l : Bool) : ((bit m + 2 * bit l) / 2 == 1) = l := by cases m <;> cases l <;> rfl

/-- The parts of R54's and R55's immediates put together again. -/
theorem imm19_parts (i : BitVec 19) : BitVec.ofNat 19 ((i.toNat / 8192 * 1024 + i.toNat / 128 % 64 * 16 + i.toNat / 8 % 16) * 8 + i.toNat % 8) = i := by
  apply BitVec.eq_of_toNat_eq; simp only [BitVec.toNat_ofNat]; omega
theorem off24_parts (o : BitVec 24) : BitVec.ofNat 24 ((o.toNat / 262144 * 1024 + o.toNat / 4096 % 64 * 16 + o.toNat / 256 % 16) * 256 +
    o.toNat / 16 % 16 * 16 + o.toNat % 16) = o := by
  apply BitVec.eq_of_toNat_eq; simp only [BitVec.toNat_ofNat]; omega

/-! ## The operands that R52, R53 and R56 shut out -/

theorem field_eq_zero {r : Reg} : r.field = 0 ↔ r = .x 0 := by
  cases r with
  | x n => simp [Reg.field, BitVec.toNat_eq]
  | k n => simp [Reg.field]

theorem okAdd_iff {d a b : Reg} : okAdd d a b = true ↔ (d.field ≠ 0 ∨ a.field ≠ 0) ∨ b.field ≠ 0 := by
  simp [okAdd, field_eq_zero, or_assoc]

theorem okArith_iff {l : Lanes} : l.okArith = true ↔ l.code < 3 := by cases l <;> decide

theorem okMinMax_iff {u : Bool} {l : Lanes} : Lanes.okMinMax u l = true ↔ 4 * bit u + l.code < 7 := by
  cases u <;> cases l <;> decide

theorem okMma_iff {f : Fmt} : f.okMma = true ↔ f.code < 12 := by cases f <;> decide

theorem okLoop_iff {i : BitVec 10} : okLoop i = true ↔ i.toNat ≠ 0 := by simp [okLoop, BitVec.toNat_eq]

theorem okWaiters_iff {i : BitVec 10} : okWaiters i = true ↔ 1 ≤ i.toNat ∧ i.toNat ≤ 16 := by simp [okWaiters]

theorem fmt_code_inj {f g : Fmt} : f.code = g.code ↔ f = g := by cases f <;> cases g <;> decide

theorem okCvt_iff {f g : Fmt} : okCvt f g = true ↔ f.code ≠ g.code := by simp [okCvt, fmt_code_inj]

/-! ## Encodings decode -/

/-- The fields of a well-formed instruction's encoding decode to it. -/
theorem decode_of_long {i : Instr} {f : Long} (hwf : i.wf = true) (h : i.long = some f) : f.decode = some i := by
  cases i <;> rcases h with ⟨⟩
  case add => simpa [Long.decode, decode00, need_eq_some] using okAdd_iff.1 hwf
  case loop =>
    have := okLoop_iff.1 hwf
    simp [Long.decode, decode08, need_eq_some, Long.imm10, Nat.div_add_mod']
    omega
  case rdvInitImm => simpa [Long.decode, decode09, need_eq_some, Long.imm10, Nat.div_add_mod'] using okWaiters_iff.1 hwf
  case padd => simpa [Long.decode, decode18, need_eq_some, Nat.mod_eq_of_lt] using okArith_iff.1 hwf
  case psub => simpa [Long.decode, decode18, need_eq_some, Nat.mod_eq_of_lt] using okArith_iff.1 hwf
  case padds => simpa [Long.decode, decode18, need_eq_some, Nat.mod_eq_of_lt] using (okArith_iff.1 hwf).ne
  case psubs => simpa [Long.decode, decode18, need_eq_some, Nat.mod_eq_of_lt] using (okArith_iff.1 hwf).ne
  case pcmpgt => simpa [Long.decode, decode18, need_eq_some, Nat.mod_eq_of_lt] using (okArith_iff.1 hwf).ne
  case pmin => simpa [Long.decode, decode18, need_eq_some, Nat.mod_eq_of_lt] using okMinMax_iff.1 hwf
  case pmax => simpa [Long.decode, decode18, need_eq_some, Nat.mod_eq_of_lt] using okMinMax_iff.1 hwf
  case mma => simpa [Long.decode, decode1A] using okMma_iff.1 hwf
  case cvt => simpa [Long.decode, decode19] using okCvt_iff.1 hwf
  all_goals simp [Long.decode, decode00, decode01, decode02, decode03, decode04, decode05, decode06, decode07, decode08, decode09, decode0A,
      decode0B, decode0C, decode0D, decode0E, decode0F, decode10, decode11, decode12, decode13, decode14, decode15, decode16,
      decode17, decode18, decode1A, decode1B, decode1C, decode1D, need_eq_some, Long.imm10, Long.imm19, Long.off24, Nat.div_add_mod', Nat.mod_eq_of_lt,imm19_parts,off24_parts]
/-! ## What the decoder of a major may answer -/

/-- Every field of a 32-bit word lies within its width (R44). -/
structure Fits (f : Long) : Prop where
  major : f.major < 32
  a : f.a < 64
  b : f.b < 64
  x : f.x < 16
  d : f.d < 64
  fn : f.fn < 16

/-- What a decoder may answer for the fields f: nothing, or a well-formed instruction whose encoding they are. -/
def Sound (f : Long) (o : Option Instr) : Prop := ∀ i, o = some i → i.wf = true ∧ i.long = some f

theorem sound_none (f : Long) : Sound f none := fun _ h => nomatch h
theorem sound_some {f g : Long} {i : Instr} (hlong : i.long = some g) (hwf : i.wf = true) (hfields : g = f) : Sound f (some i) := by
  rintro _ ⟨⟩
  exact ⟨hwf, hfields ▸ hlong⟩
theorem sound_need {f g : Long} {c : Bool} {i : Instr} (hlong : i.long = some g) (hwf : c = true → i.wf = true)
    (hfields : c = true → g = f) : Sound f (need c i) := by
  rintro j h
  obtain ⟨hc, rfl⟩ := need_eq_some.1 h
  exact ⟨hwf hc, hfields hc ▸ hlong⟩
theorem sound_ite {f : Long} {c : Prop} [Decidable c] {o : Option Instr} (h : c → Sound f o) : Sound f (if c then o else none) := by
  split
  · exact h ‹c›
  · exact sound_none f
theorem sound_map {α : Type} {f : Long} {o : Option α} {g : α → Instr} {k : α → Long} (hlong : ∀ v, (g v).long = some (k v))
    (hwf : ∀ v, (g v).wf = true) (hfields : ∀ v, o = some v → k v = f) : Sound f (o.map g) := by
  rintro j h
  obtain ⟨v, hv, rfl⟩ := Option.map_eq_some_iff.1 h
  exact ⟨hwf v, hfields v hv ▸ hlong v⟩

theorem long_eq_iff {m a b x d n : Nat} {f : Long} :
    ⟨m, a, b, x, d, n⟩ = f ↔ m = f.major ∧ a = f.a ∧ b = f.b ∧ x = f.x ∧ d = f.d ∧ n = f.fn := by
  cases f
  simp

theorem imm10_high {f : Long} (hb : f.b < 64) (hx : f.x < 16) : f.imm10.toNat / 16 = f.b := by
  simp only [Long.imm10, BitVec.toNat_ofNat]; omega
theorem imm10_low {f : Long} (hx : f.x < 16) : f.imm10.toNat % 16 = f.x := by
  simp only [Long.imm10, BitVec.toNat_ofNat]; omega

theorem imm6_high {b x : Nat} (hb : b < 4) (hx : x < 16) : (b * 16 + x) % 64 / 16 = b := by omega
theorem selector_high {b x : Nat} (hx : x < 16) : (b * 16 + x) / 16 = b := by omega

/-- A field made of a flag and a code, or of a precision and a code, put together again. -/
theorem flag_code_eq {n : Nat} (h : n < 8) : 4 * bit (n / 4 == 1) + n % 4 = n := by
  rw [bit_beq_one_eq (by omega)]; omega
theorem flag_lanes_eq {n : Nat} (h : n < 8) : 4 * bit (n / 4 == 1) + (Lanes.ofCode (n % 4)).code = n := by
  rw [lanes_code_ofCode (by omega), flag_code_eq h]
theorem precision_code_eq {n : Nat} (h : n < 16) : 8 * (Fp.ofBit (n / 8)).bit + n % 8 = n := by
  rw [fp_bit_ofBit (by omega)]; omega
theorem precision_eq {n : Nat} (h : n < 16) (h8 : n % 8 = 0) : 8 * (Fp.ofBit (n / 8)).bit = n := by
  rw [fp_bit_ofBit (by omega)]; omega
theorem two_flags_eq {n : Nat} (h : n < 4) : bit (n % 2 == 1) + 2 * bit (n / 2 == 1) = n := by
  rw [bit_beq_one_eq (by omega), bit_beq_one_eq (by omega)]; omega
theorem okArith_ofCode {n : Nat} (h : n < 3) : (Lanes.ofCode n).okArith = true := by
  rw [okArith_iff, lanes_code_ofCode (by omega)]; exact h

section
variable {f : Long} (hf : Fits f)
include hf

theorem decode00_sound (hm : f.major = 0x00) : Sound f (decode00 f) := by
  obtain ⟨-, ha, hb, hx, hd, hfn⟩ := hf
  unfold decode00
  split
  any_goals exact sound_none _
  case h_1 => exact sound_need rfl (fun hc => okAdd_iff.2 (by simp_all [field_ofField])) (by simp_all [long_eq_iff, field_ofField])
  all_goals exact sound_need rfl (fun _ => rfl) (by simp_all [long_eq_iff, field_ofField])

theorem decode01_sound (hm : f.major = 0x01) : Sound f (decode01 f) := by
  obtain ⟨-, ha, hb, hx, hd, hfn⟩ := hf
  unfold decode01
  split
  any_goals exact sound_none _
  all_goals exact sound_some rfl rfl (by simp_all [long_eq_iff, field_ofField, imm10_high, imm10_low])

theorem decode04_sound (hm : f.major = 0x04) : Sound f (decode04 f) := by
  obtain ⟨-, ha, hb, hx, hd, hfn⟩ := hf
  unfold decode04
  split
  any_goals exact sound_none _
  all_goals exact sound_need rfl (fun _ => rfl) (by simp_all [long_eq_iff, field_ofField])

theorem decode0A_sound (hm : f.major = 0x0a) : Sound f (decode0A f) := by
  obtain ⟨-, ha, hb, hx, hd, hfn⟩ := hf
  unfold decode0A
  split
  any_goals exact sound_none _
  all_goals exact sound_some rfl rfl (by simp_all [long_eq_iff, field_ofField, imm10_high, imm10_low])

theorem decode0B_sound (hm : f.major = 0x0b) : Sound f (decode0B f) := by
  obtain ⟨-, ha, hb, hx, hd, hfn⟩ := hf
  unfold decode0B
  split
  any_goals exact sound_none _
  all_goals exact sound_some rfl rfl (by simp_all [long_eq_iff, field_ofField, imm10_high, imm10_low])

theorem decode0D_sound (hm : f.major = 0x0d) : Sound f (decode0D f) := by
  obtain ⟨-, ha, hb, hx, hd, hfn⟩ := hf
  unfold decode0D
  split
  any_goals exact sound_none _
  all_goals exact sound_need rfl (fun _ => rfl) (by simp_all [long_eq_iff, field_ofField])

theorem decode1D_sound (hm : f.major = 0x1d) : Sound f (decode1D f) := by
  obtain ⟨-, ha, hb, hx, hd, hfn⟩ := hf
  unfold decode1D
  split
  any_goals exact sound_none _
  all_goals exact sound_need rfl (fun _ => rfl) (by simp_all [long_eq_iff, field_ofField])

theorem decode13_sound (hm : f.major = 0x13) : Sound f (decode13 f) := by
  obtain ⟨-, ha, hb, hx, hd, hfn⟩ := hf
  unfold decode13
  split
  any_goals exact sound_none _
  case h_4 => exact sound_need rfl (fun _ => rfl) (by simp_all [long_eq_iff, field_ofField, bit_beq_one_eq])
  all_goals exact sound_need rfl (fun _ => rfl) (by simp_all [long_eq_iff, field_ofField])

theorem decode02_sound (hm : f.major = 0x02) : Sound f (decode02 f) := by
  obtain ⟨-, ha, hb, hx, hd, hfn⟩ := hf
  unfold decode02
  split
  any_goals exact sound_none _
  case h_9 => exact sound_need rfl (fun _ => rfl) (by simp_all [long_eq_iff, field_ofField, imm6_high])
  case h_10 => exact sound_need rfl (fun _ => rfl) (by simp_all [long_eq_iff, field_ofField, imm6_high])
  case h_11 => exact sound_need rfl (fun _ => rfl) (by simp_all [long_eq_iff, field_ofField, imm6_high])
  case h_12 => exact sound_need rfl (fun _ => rfl) (by simp_all [long_eq_iff, field_ofField, imm6_high])
  case h_16 =>
    split
    · exact sound_none _
    · split
      any_goals exact sound_none _
      all_goals exact sound_some rfl rfl (by simp_all [long_eq_iff, field_ofField])
  all_goals exact sound_need rfl (fun _ => rfl) (by simp_all [long_eq_iff, field_ofField])

theorem decode03_sound (hm : f.major = 0x03) : Sound f (decode03 f) := by
  obtain ⟨-, ha, hb, hx, hd, hfn⟩ := hf
  unfold decode03
  split
  any_goals exact sound_none _
  all_goals exact sound_need rfl (fun _ => rfl) (by simp_all [long_eq_iff, field_ofField, Nat.mod_eq_of_lt])

theorem decode05_sound (hm : f.major = 5) : Sound f (decode05 f) := by
  obtain ⟨-, ha, hb, hx, hd, hfn⟩ := hf
  unfold decode05
  split
  all_goals exact sound_some rfl rfl (by
    simp only [long_eq_iff, field_ofField hd, Long.imm19, BitVec.toNat_ofNat, hm, true_and]
    and_intros
    all_goals omega)

theorem decode06_sound (hm : f.major = 0x06) : Sound f (decode06 f) := by
  obtain ⟨-, ha, hb, hx, hd, hfn⟩ := hf
  unfold decode06
  split
  any_goals exact sound_none _
  case h_7 => exact sound_need rfl (fun _ => rfl) (by simp_all [long_eq_iff, imm10_high, imm10_low, Nat.mod_eq_of_lt])
  case h_8 => exact sound_need rfl (fun _ => rfl) (by simp_all [long_eq_iff, imm10_high, imm10_low, Nat.mod_eq_of_lt])
  all_goals exact sound_some rfl rfl (by simp_all [long_eq_iff, field_ofField, imm10_high, imm10_low])

theorem decode07_sound (hm : f.major = 7) : Sound f (decode07 f) := by
  obtain ⟨-, ha, hb, hx, hd, hfn⟩ := hf
  unfold decode07
  split
  any_goals exact sound_none _
  case h_3 =>
    split
    · exact sound_none _
    · split
      any_goals exact sound_none _
      all_goals exact sound_some rfl rfl (by simp_all [long_eq_iff, field_ofField, imm10_high, imm10_low]; omega)
  all_goals exact sound_some rfl rfl (by
    simp only [long_eq_iff, Long.off24, BitVec.toNat_ofNat, hm, true_and]
    and_intros
    all_goals omega)

theorem decode08_sound (hm : f.major = 0x08) : Sound f (decode08 f) := by
  obtain ⟨-, ha, hb, hx, hd, hfn⟩ := hf
  unfold decode08
  split
  any_goals exact sound_none _
  case h_1 => exact sound_need rfl (fun hc => okLoop_iff.2 (by simp_all [Long.imm10]; omega)) (by simp_all [long_eq_iff, field_ofField, imm10_high, imm10_low])
  all_goals exact sound_need rfl (fun _ => rfl) (by simp_all [long_eq_iff])

theorem decode09_sound (hm : f.major = 0x09) : Sound f (decode09 f) := by
  obtain ⟨-, ha, hb, hx, hd, hfn⟩ := hf
  unfold decode09
  split
  any_goals exact sound_none _
  case h_5 => exact sound_need rfl (fun hc => okWaiters_iff.2 (by simp_all [Long.imm10]; omega)) (by simp_all [long_eq_iff, imm10_high, imm10_low]; omega)
  case h_10 => exact sound_ite fun hc => sound_map (fun _ => rfl) (fun _ => rfl) (by simp_all [long_eq_iff, field_ofField])
  case h_3 => exact sound_need rfl (fun _ => rfl) (by simp_all [long_eq_iff, Nat.mod_eq_of_lt]; omega)
  case h_4 => exact sound_need rfl (fun _ => rfl) (by simp_all [long_eq_iff, field_ofField]; omega)
  all_goals exact sound_need rfl (fun _ => rfl) (by simp_all [long_eq_iff, field_ofField])

theorem decode0C_sound (hm : f.major = 0x0c) : Sound f (decode0C f) := by
  obtain ⟨-, ha, hb, hx, hd, hfn⟩ := hf
  unfold decode0C
  split
  any_goals exact sound_none _
  case h_12 => exact sound_some rfl rfl (by simp_all [long_eq_iff, field_ofField, imm10_high, imm10_low])
  case h_13 => exact sound_some rfl rfl (by simp_all [long_eq_iff, field_ofField, imm10_high, imm10_low])
  case h_14 => exact sound_some rfl rfl (by simp_all [long_eq_iff, field_ofField, imm10_high, imm10_low])
  all_goals exact sound_need rfl (fun _ => rfl) (by simp_all [long_eq_iff, field_ofField])

theorem decode0E_sound (hm : f.major = 0x0e) : Sound f (decode0E f) := by
  obtain ⟨-, ha, hb, hx, hd, hfn⟩ := hf
  unfold decode0E
  split
  any_goals exact sound_none _
  case h_11 => exact sound_need rfl (fun _ => rfl) (by simp_all [long_eq_iff, field_ofField])
  all_goals exact sound_need rfl (fun _ => rfl) (by simp_all [long_eq_iff, field_ofField, width_bit_ofBit])

theorem decode0F_sound (hm : f.major = 0x0f) : Sound f (decode0F f) := by
  obtain ⟨-, ha, hb, hx, hd, hfn⟩ := hf
  unfold decode0F
  split
  any_goals exact sound_none _
  case h_6 => exact sound_need rfl (fun _ => rfl) (by simp_all [long_eq_iff, field_ofField])
  all_goals exact sound_need rfl (fun _ => rfl) (by simp_all [long_eq_iff, field_ofField, width_bit_ofBit])

theorem decode10_sound (hm : f.major = 0x10) : Sound f (decode10 f) := by
  obtain ⟨-, ha, hb, hx, hd, hfn⟩ := hf
  unfold decode10
  split
  any_goals exact sound_none _
  case h_1 => exact sound_ite fun hc => sound_map (fun _ => rfl) (fun _ => rfl) (by simp_all [long_eq_iff])
  case h_2 => exact sound_ite fun hc => sound_map (fun _ => rfl) (fun _ => rfl) (by simp_all [long_eq_iff, field_ofField])
  case h_3 => exact sound_ite fun hc => sound_map (fun _ => rfl) (fun _ => rfl) (by simp_all [long_eq_iff, field_ofField])
  all_goals exact sound_need rfl (fun _ => rfl) (by simp_all [long_eq_iff, field_ofField])

theorem decode11_sound (hm : f.major = 0x11) : Sound f (decode11 f) := by
  obtain ⟨-, ha, hb, hx, hd, hfn⟩ := hf
  unfold decode11
  split
  any_goals exact sound_none _
  case h_1 => exact sound_some rfl rfl (by simp_all [long_eq_iff, field_ofField, imm10_high, imm10_low])
  case h_2 => exact sound_some rfl rfl (by simp_all [long_eq_iff, field_ofField, imm10_high, imm10_low])
  case h_3 => exact sound_need rfl (fun _ => rfl) (by simp_all [long_eq_iff, field_ofField, Nat.mod_eq_of_lt])
  case h_4 => exact sound_need rfl (fun _ => rfl) (by simp_all [long_eq_iff, field_ofField, Nat.mod_eq_of_lt])
  all_goals exact sound_need rfl (fun _ => rfl) (by simp_all [long_eq_iff, field_ofField, imm10_high, imm10_low])

theorem decode12_sound (hm : f.major = 0x12) : Sound f (decode12 f) := by
  obtain ⟨-, ha, hb, hx, hd, hfn⟩ := hf
  unfold decode12
  split
  any_goals exact sound_none _
  case h_1 => exact sound_need rfl (fun _ => rfl) (by simp_all [long_eq_iff, field_ofField, Nat.mod_eq_of_lt])
  case h_2 => exact sound_need rfl (fun _ => rfl) (by simp_all [long_eq_iff, flag_code_eq])
  all_goals exact sound_need rfl (fun _ => rfl) (by simp_all [long_eq_iff, field_ofField])

theorem decode14_sound (hm : f.major = 0x14) : Sound f (decode14 f) := by
  obtain ⟨-, ha, hb, hx, hd, hfn⟩ := hf
  unfold decode14
  split
  any_goals exact sound_none _
  case h_1 => exact sound_need rfl (fun _ => rfl) (by simp_all [long_eq_iff, field_ofField, Nat.mod_eq_of_lt])
  case h_2 => exact sound_need rfl (fun _ => rfl) (by simp_all [long_eq_iff, field_ofField, Nat.mod_eq_of_lt])
  all_goals exact sound_need rfl (fun _ => rfl) (by simp_all [long_eq_iff, field_ofField, imm10_high, imm10_low, Nat.mod_eq_of_lt])

theorem decode15_sound (hm : f.major = 0x15) : Sound f (decode15 f) := by
  obtain ⟨-, ha, hb, hx, hd, hfn⟩ := hf
  unfold decode15
  split
  any_goals exact sound_none _
  all_goals exact sound_need rfl (fun _ => rfl) (by simp_all [long_eq_iff, field_ofField, Nat.mod_eq_of_lt])

theorem decode16_sound (hm : f.major = 0x16) : Sound f (decode16 f) := by
  obtain ⟨-, ha, hb, hx, hd, hfn⟩ := hf
  unfold decode16
  split
  any_goals exact sound_none _
  case h_1 => exact sound_map (fun _ => rfl) (fun _ => rfl) (by simp_all [long_eq_iff, field_ofField, precision_code_eq])
  case h_2 => exact sound_map (fun _ => rfl) (fun _ => rfl) (by simp_all [long_eq_iff, field_ofField, precision_code_eq])
  case h_3 => exact sound_map (fun _ => rfl) (fun _ => rfl) (by simp_all [long_eq_iff, field_ofField, precision_code_eq])
  case h_4 => exact sound_map (fun _ => rfl) (fun _ => rfl) (by simp_all [long_eq_iff, field_ofField, precision_code_eq])
  case h_5 => exact sound_ite fun hc => sound_map (fun _ => rfl) (fun _ => rfl) (by simp_all [long_eq_iff, field_ofField, precision_code_eq])
  all_goals exact sound_need rfl (fun _ => rfl) (by simp_all [long_eq_iff, field_ofField, precision_eq])

theorem decode17_sound (hm : f.major = 0x17) : Sound f (decode17 f) := by
  obtain ⟨-, ha, hb, hx, hd, hfn⟩ := hf
  unfold decode17
  split
  any_goals exact sound_none _
  all_goals exact sound_map (fun _ => rfl) (fun _ => rfl) (by simp_all [long_eq_iff, field_ofField, precision_code_eq])

theorem decode18_sound (hm : f.major = 0x18) : Sound f (decode18 f) := by
  obtain ⟨-, ha, hb, hx, hd, hfn⟩ := hf
  unfold decode18
  split
  any_goals exact sound_none _
  case h_1 => exact sound_need rfl (fun hc => okArith_ofCode (by simp_all)) (by simp_all [long_eq_iff, field_ofField, lanes_code_ofCode, Nat.lt_succ_of_lt])
  case h_2 => exact sound_need rfl (fun hc => okArith_ofCode (by simp_all)) (by simp_all [long_eq_iff, field_ofField, lanes_code_ofCode, Nat.lt_succ_of_lt])
  case h_3 => exact sound_need rfl (fun hc => okArith_ofCode (by simp_all; omega)) (by simp_all [long_eq_iff, field_ofField, flag_lanes_eq])
  case h_4 => exact sound_need rfl (fun hc => okArith_ofCode (by simp_all; omega)) (by simp_all [long_eq_iff, field_ofField, flag_lanes_eq])
  case h_9 => exact sound_need rfl (fun hc => okArith_ofCode (by simp_all; omega)) (by simp_all [long_eq_iff, field_ofField, flag_lanes_eq])
  case h_5 => exact sound_need rfl (fun hc => okMinMax_iff.2 (by simp_all [flag_lanes_eq, Nat.lt_succ_of_lt])) (by simp_all [long_eq_iff, field_ofField, flag_lanes_eq, Nat.lt_succ_of_lt])
  case h_6 => exact sound_need rfl (fun hc => okMinMax_iff.2 (by simp_all [flag_lanes_eq, Nat.lt_succ_of_lt])) (by simp_all [long_eq_iff, field_ofField, flag_lanes_eq, Nat.lt_succ_of_lt])
  all_goals exact sound_need rfl (fun _ => rfl) (by simp_all [long_eq_iff, field_ofField, lanes_code_ofCode])

theorem decode19_sound (hm : f.major = 0x19) : Sound f (decode19 f) := by
  obtain ⟨-, ha, hb, hx, hd, hfn⟩ := hf
  unfold decode19
  split
  · exact sound_none _
  · split
    next dst src r hdst hsrc hr => 
      simp only [fmt_ofCode_eq_some, rm_ofCode_eq_some] at hdst hsrc hr
      exact sound_some rfl (okCvt_iff.2 (by simp_all)) (by simp_all [long_eq_iff, field_ofField])
    · exact sound_none _

theorem decode1A_sound (hm : f.major = 0x1a) : Sound f (decode1A f) := by
  obtain ⟨-, ha, hb, hx, hd, hfn⟩ := hf
  unfold decode1A
  split
  any_goals exact sound_none _
  case h_1 => exact sound_ite fun hc => sound_map (fun _ => rfl) (fun _ => rfl) (by simp_all [long_eq_iff, field_ofField, bit_beq_one_eq])
  case h_2 => exact sound_ite fun hc => sound_map (fun _ => rfl) (fun _ => rfl) (by simp_all [long_eq_iff, field_ofField, bit_beq_one_eq])
  case h_4 => exact sound_ite fun hc => sound_map (fun _ => rfl) (fun _ => rfl) (by simp_all [long_eq_iff, field_ofField, bit_beq_one_eq])
  case h_5 => exact sound_ite fun hc => sound_map (fun _ => rfl) (fun _ => rfl) (by simp_all [long_eq_iff, field_ofField, bit_beq_one_eq])
  case h_6 => exact sound_ite fun hc => sound_map (fun _ => rfl) (fun _ => rfl) (by simp_all [long_eq_iff, bit_beq_one_eq])
  case h_7 => exact sound_ite fun hc => sound_map (fun _ => rfl) (fun _ => rfl) (by simp_all [long_eq_iff, field_ofField])
  case h_3 =>
    refine sound_ite fun hc => ?_
    split
    next g t hg ht =>
      simp only [fmt_ofCode_eq_some, gd_ofField_eq_some] at hg ht
      exact sound_some rfl (okMma_iff.2 (by simp_all)) (by simp_all [long_eq_iff, two_flags_eq])
    · exact sound_none _

theorem decode1B_sound (hm : f.major = 0x1b) : Sound f (decode1B f) := by
  obtain ⟨-, ha, hb, hx, hd, hfn⟩ := hf
  unfold decode1B
  split
  any_goals exact sound_none _
  case h_1 => exact sound_ite fun hc => sound_map (fun _ => rfl) (fun _ => rfl) (by simp_all [long_eq_iff])
  case h_2 => exact sound_ite fun hc => sound_map (fun _ => rfl) (fun _ => rfl) (by simp_all [long_eq_iff, field_ofField])
  all_goals exact sound_need rfl (fun _ => rfl) (by simp_all [long_eq_iff, field_ofField])

theorem decode1C_sound (hm : f.major = 0x1c) : Sound f (decode1C f) := by
  obtain ⟨-, ha, hb, hx, hd, hfn⟩ := hf
  unfold decode1C
  split
  any_goals exact sound_none _
  case h_1 => exact sound_ite fun hc => sound_map (fun _ => rfl) (fun _ => rfl) (by simp_all [long_eq_iff, field_ofField, selector_high])
  case h_2 => exact sound_ite fun hc => sound_map (fun _ => rfl) (fun _ => rfl) (by simp_all [long_eq_iff, field_ofField, selector_high])
  all_goals exact sound_need rfl (fun _ => rfl) (by simp_all [long_eq_iff, field_ofField, imm10_high, imm10_low])

end

/-- The decoder of a 32-bit word answers nothing but the instruction whose encoding the fields are. -/
theorem long_decode_sound {f : Long} (hf : Fits f) : Sound f f.decode := by
  unfold Long.decode
  split
  case h_1 hm => exact decode00_sound hf hm
  case h_2 hm => exact decode01_sound hf hm
  case h_3 hm => exact decode02_sound hf hm
  case h_4 hm => exact decode03_sound hf hm
  case h_5 hm => exact decode04_sound hf hm
  case h_6 hm => exact decode05_sound hf hm
  case h_7 hm => exact decode06_sound hf hm
  case h_8 hm => exact decode07_sound hf hm
  case h_9 hm => exact decode08_sound hf hm
  case h_10 hm => exact decode09_sound hf hm
  case h_11 hm => exact decode0A_sound hf hm
  case h_12 hm => exact decode0B_sound hf hm
  case h_13 hm => exact decode0C_sound hf hm
  case h_14 hm => exact decode0D_sound hf hm
  case h_15 hm => exact decode0E_sound hf hm
  case h_16 hm => exact decode0F_sound hf hm
  case h_17 hm => exact decode10_sound hf hm
  case h_18 hm => exact decode11_sound hf hm
  case h_19 hm => exact decode12_sound hf hm
  case h_20 hm => exact decode13_sound hf hm
  case h_21 hm => exact decode14_sound hf hm
  case h_22 hm => exact decode15_sound hf hm
  case h_23 hm => exact decode16_sound hf hm
  case h_24 hm => exact decode17_sound hf hm
  case h_25 hm => exact decode18_sound hf hm
  case h_26 hm => exact decode19_sound hf hm
  case h_27 hm => exact decode1A_sound hf hm
  case h_28 hm => exact decode1B_sound hf hm
  case h_29 hm => exact decode1C_sound hf hm
  case h_30 hm => exact decode1D_sound hf hm
  case h_31 => exact sound_none f

/-- The fields of an encoding lie within their widths. -/
theorem fits_long {i : Instr} {f : Long} (h : i.long = some f) : Fits f := by
  cases i <;> rcases h with ⟨⟩
  all_goals constructor <;> simp <;> omega

end Sys2Proof.Proofs
end

