-- ==== Sys2Proof/Proofs/Encoding.lean ====
section
/-!
PROOFS. The 16-bit words, words as bytes, and decoder and encoder as inverses (R42, R50, R51, R56).
-/

namespace Sys2Proof.Proofs

open Sys2Proof

/-! ## The 16-bit words -/

/-- Every field of a 16-bit word lies within its width (R50). -/
structure ShortFits (f : Short) : Prop where
  op : f.op < 16
  rd : f.rd < 16
  rs : f.rs < 16
  sub : f.sub < 8

theorem imm11_parts (o : BitVec 11) : BitVec.ofNat 11 (o.toNat / 128 * 128 + o.toNat / 8 % 16 * 8 + o.toNat % 8) = o := by
  apply BitVec.eq_of_toNat_eq
  simp only [BitVec.toNat_ofNat]
  omega

/-- A shift's kind stands in rs[3:2], above the two high bits of its count. -/
theorem count_high_div (n : BitVec 5) : n.toNat / 8 / 4 = 0 := by omega
theorem count_high_mod (n : BitVec 5) : n.toNat / 8 % 4 = n.toNat / 8 := by omega
theorem count_high_div_of_sra (n : BitVec 5) : (8 + n.toNat / 8) / 4 = 2 := by omega
theorem count_high_mod_of_sra (n : BitVec 5) : (8 + n.toNat / 8) % 4 = n.toNat / 8 := by omega

theorem okMov16_iff {d s : BitVec 4} : okMov16 d s = true ↔ d.toNat ≠ 0 ∨ s.toNat ≠ 0 := by
  simp [okMov16, BitVec.toNat_eq]

/-- The fields of a well-formed instruction's 16-bit encoding decode to it. -/
theorem decode_of_short {i : Instr} {f : Short} (hwf : i.wf = true) (h : i.short = some f) : f.decode = some i := by
  cases i <;> rcases h with ⟨⟩
  case mov16 => simpa [Short.decode, need_eq_some] using okMov16_iff.1 hwf
  all_goals simp [Short.decode, need_eq_some, Short.imm7, Short.imm11, imm11_parts, Nat.div_add_mod', count_high_div, count_high_mod,
    count_high_div_of_sra, count_high_mod_of_sra]

theorem fits_short {i : Instr} {f : Short} (h : i.short = some f) : ShortFits f := by
  cases i <;> rcases h with ⟨⟩
  all_goals constructor <;> simp <;> omega

/-- What the decoder of 16-bit words may answer for the fields f: nothing, or a well-formed instruction whose encoding they are. -/
def ShortSound (f : Short) (o : Option Instr) : Prop := ∀ i, o = some i → i.wf = true ∧ i.long = none ∧ i.short = some f

theorem shortSound_none (f : Short) : ShortSound f none := fun _ h => nomatch h
theorem shortSound_some {f g : Short} {i : Instr} (hshort : i.short = some g) (hlong : i.long = none) (hwf : i.wf = true) (hfields : g = f) :
    ShortSound f (some i) := by
  rintro _ ⟨⟩
  exact ⟨hwf, hlong, hfields ▸ hshort⟩
theorem shortSound_need {f g : Short} {c : Bool} {i : Instr} (hshort : i.short = some g) (hlong : i.long = none)
    (hwf : c = true → i.wf = true) (hfields : c = true → g = f) : ShortSound f (need c i) := by
  rintro j h
  obtain ⟨hc, rfl⟩ := need_eq_some.1 h
  exact ⟨hwf hc, hlong, hfields hc ▸ hshort⟩

theorem short_eq_iff {o d r k : Nat} {f : Short} : ⟨o, d, r, k⟩ = f ↔ o = f.op ∧ d = f.rd ∧ r = f.rs ∧ k = f.sub := by
  cases f
  simp

/-- The decoder of a 16-bit word answers nothing but the instruction whose encoding the fields are. -/
theorem short_decode_sound {f : Short} (hf : ShortFits f) : ShortSound f f.decode := by
  obtain ⟨-, hrd, hrs, hsub⟩ := hf
  unfold Short.decode
  split
  any_goals exact shortSound_none f
  case h_1 => exact shortSound_need rfl rfl (fun hc => okMov16_iff.2 (by simp_all [Nat.mod_eq_of_lt])) (by simp_all [short_eq_iff, Nat.mod_eq_of_lt])
  case h_8 =>
    split
    any_goals exact shortSound_none f
    all_goals exact shortSound_some rfl rfl rfl (by simp_all [short_eq_iff, Nat.mod_eq_of_lt]; omega)
  case h_13 => exact shortSound_some rfl rfl rfl (by simp_all [short_eq_iff, Short.imm11]; omega)
  case h_14 =>
    split
    any_goals exact shortSound_none f
    all_goals exact shortSound_some rfl rfl rfl (by simp_all [short_eq_iff, Nat.mod_eq_of_lt])
  case h_15 =>
    split
    · exact shortSound_none f
    · split
      any_goals exact shortSound_none f
      all_goals exact shortSound_some rfl rfl rfl (by simp_all [short_eq_iff])
  case h_3 => exact shortSound_some rfl rfl rfl (by simp_all [short_eq_iff, Short.imm7, Nat.mod_eq_of_lt]; omega)
  case h_9 => exact shortSound_some rfl rfl rfl (by simp_all [short_eq_iff, Short.imm7, Nat.mod_eq_of_lt]; omega)
  case h_10 => exact shortSound_some rfl rfl rfl (by simp_all [short_eq_iff, Short.imm7, Nat.mod_eq_of_lt]; omega)
  case h_11 => exact shortSound_some rfl rfl rfl (by simp_all [short_eq_iff, Short.imm7, Nat.mod_eq_of_lt]; omega)
  case h_12 => exact shortSound_some rfl rfl rfl (by simp_all [short_eq_iff, Short.imm7, Nat.mod_eq_of_lt]; omega)
  all_goals exact shortSound_need rfl rfl (fun _ => rfl) (by simp_all [short_eq_iff, Nat.mod_eq_of_lt])

/-! ## Fields and words -/

theorem fits_split (w : Nat) : Fits (Long.split w) := by
  constructor <;> exact Nat.mod_lt _ (by decide)

theorem shortFits_split (h : Nat) : ShortFits (Short.split h) := by
  constructor <;> exact Nat.mod_lt _ (by decide)

theorem split_pack {f : Long} (hf : Fits f) : Long.split f.pack = f := by
  obtain ⟨hmajor, ha, hb, hx, hd, hfn⟩ := hf
  refine long_eq_iff.2 ?_
  simp only [Long.pack]
  and_intros <;> omega

/-- The word of a 32-bit encoding has its length bit, and no more than 32 bits. -/
theorem pack_lt {f : Long} (hf : Fits f) : f.pack < 2 ^ 32 ∧ f.pack / 2 ^ 15 % 2 = 1 := by
  obtain ⟨hmajor, ha, hb, hx, hd, hfn⟩ := hf
  simp only [Long.pack]
  omega

theorem pack_split {w : Nat} (hw : w < 2 ^ 32) (hlen : w / 2 ^ 15 % 2 = 1) : (Long.split w).pack = w := by
  simp only [Long.pack, Long.split]
  omega

theorem short_split_pack {f : Short} (hf : ShortFits f) : Short.split f.pack = f := by
  obtain ⟨hop, hrd, hrs, hsub⟩ := hf
  refine short_eq_iff.2 ?_
  simp only [Short.pack]
  and_intros <;> omega

theorem short_pack_lt {f : Short} (hf : ShortFits f) : f.pack < 2 ^ 15 := by
  obtain ⟨hop, hrd, hrs, hsub⟩ := hf
  simp only [Short.pack]
  omega

theorem short_pack_split {h : Nat} (hh : h < 2 ^ 15) : (Short.split h).pack = h := by
  simp only [Short.pack, Short.split]
  omega

/-! ## Words and bytes -/

/-- The length bit of the word fits its form (R42): a halfword without it, or a 32-bit word with it. -/
def Lengthy : Encoded → Prop
  | .half h => h < 2 ^ 15
  | .word w => w < 2 ^ 32 ∧ w / 2 ^ 15 % 2 = 1

/-- A halfword put together again from its bytes. -/
theorem halfword_of_bytes {h : Nat} (hh : h < 2 ^ 16) : h / 2 ^ 8 % 2 ^ 8 * 2 ^ 8 + h % 2 ^ 8 = h := by omega

/-- A word is read back from its bytes. -/
theorem takeWord_bytes {e : Encoded} (he : Lengthy e) (rest : List Byte) : takeWord (e.bytes ++ rest) = some (e, rest) := by
  cases e with
  | half h =>
    simp only [Lengthy] at he
    have hhalf := halfword_of_bytes (h := h) (by omega)
    simp only [Encoded.bytes, List.cons_append, List.nil_append, takeWord, BitVec.toNat_ofNat, hhalf]
    rw [if_pos (by omega)]
  | word w =>
    obtain ⟨hw, hlen⟩ := he
    have hlow : w / 2 ^ 8 % 2 ^ 8 * 2 ^ 8 + w % 2 ^ 8 = w % 2 ^ 16 := by omega
    have hhigh : w / 2 ^ 24 % 2 ^ 8 * 2 ^ 8 + w / 2 ^ 16 % 2 ^ 8 = w / 2 ^ 16 := by
      rw [show 2 ^ 24 = 2 ^ 16 * 2 ^ 8 from rfl, ← Nat.div_div_eq_div_mul]
      exact halfword_of_bytes (Nat.div_lt_of_lt_mul hw)
    have hbit : ¬ w % 2 ^ 16 / 2 ^ 15 % 2 = 0 := by omega
    have hword : w / 2 ^ 16 * 2 ^ 16 + w % 2 ^ 16 = w := Nat.div_add_mod' w _
    simp only [Encoded.bytes, List.cons_append, List.nil_append, takeWord, BitVec.toNat_ofNat, hlow, hhigh, hbit, if_false,
      wordOfHalves, hword]

/-- The bytes that a word is read from are its own, and its length bit fits its form. -/
theorem bytes_of_takeWord {bs rest : List Byte} {e : Encoded} (h : takeWord bs = some (e, rest)) : Lengthy e ∧ bs = e.bytes ++ rest := by
  have byte (b : Byte) (n : Nat) (hn : n % 2 ^ 8 = b.toNat) : BitVec.ofNat 8 n = b := BitVec.eq_of_toNat_eq (by simpa using hn)
  unfold takeWord at h
  split at h
  next b0 b1 rest0 =>
    dsimp only at h
    split at h
    next hbit =>
      obtain ⟨rfl, rfl⟩ : _ ∧ _ := by simpa using h
      refine ⟨by simp only [Lengthy]; omega, ?_⟩
      simp only [Encoded.bytes, List.cons_append, List.nil_append]
      rw [byte b0 _ (by omega), byte b1 _ (by omega)]
    next hbit =>
      split at h
      next b2 b3 rest1 =>
        rw [wordOfHalves, if_neg hbit] at h
        obtain ⟨rfl, rfl⟩ : _ ∧ _ := by simpa using h
        refine ⟨by simp only [Lengthy]; omega, ?_⟩
        simp only [Encoded.bytes, List.cons_append, List.nil_append]
        rw [byte b0 _ (by omega), byte b1 _ (by omega), byte b2 _ (by omega), byte b3 _ (by omega)]
      next => cases h
  next => cases h

/-! ## The decoder and the encoder -/

/-- The word of a well-formed instruction fits its form, and decodes to the instruction. -/
theorem decode_of_encode {i : Instr} {e : Encoded} (hwf : i.wf = true) (he : encode i = some e) : Lengthy e ∧ e.decode = some i := by
  unfold encode at he
  split at he
  next f hlong =>
    obtain rfl := Option.some.inj he
    have hf := fits_long hlong
    exact ⟨pack_lt hf, (congrArg Long.decode (split_pack hf)).trans (decode_of_long hwf hlong)⟩
  next =>
    obtain ⟨f, hshort, rfl⟩ := Option.map_eq_some_iff.1 he
    have hf := fits_short hshort
    exact ⟨short_pack_lt hf, (congrArg Short.decode (short_split_pack hf)).trans (decode_of_short hwf hshort)⟩

/-- A word that decodes is the word of the instruction that it decodes to, which is well formed. -/
theorem encode_of_decode {i : Instr} {e : Encoded} (he : Lengthy e) (h : e.decode = some i) : i.wf = true ∧ encode i = some e := by
  cases e with
  | half w =>
    obtain ⟨hwf, hlong, hshort⟩ := short_decode_sound (shortFits_split w) i h
    refine ⟨hwf, ?_⟩
    simp only [encode, hlong, hshort, Option.map_some, short_pack_split he]
  | word w =>
    obtain ⟨hwf, hlong⟩ := long_decode_sound (fits_split w) i h
    refine ⟨hwf, ?_⟩
    simp only [encode, hlong, pack_split he.1 he.2]

/-- Settles O54: words and their bytes, and each form's encoder and decoder, are inverse to each other. -/
theorem decodeEncode : Obligations.DecodeEncode := by
  refine ⟨fun i e rest hwf he => ?_, fun bs i rest h => ?_⟩
  · obtain ⟨hlen, hdecode⟩ := decode_of_encode hwf he
    simp only [decodeBytes, takeWord_bytes hlen, hdecode, Option.map_some]
  · unfold decodeBytes at h
    split at h
    next e rest' hword =>
      obtain ⟨j, hdecode, hj⟩ := Option.map_eq_some_iff.1 h
      obtain ⟨rfl, rfl⟩ := Prod.mk.inj hj
      obtain ⟨hlen, rfl⟩ := bytes_of_takeWord hword
      obtain ⟨hwf, he⟩ := encode_of_decode hlen hdecode
      exact ⟨hwf, e, he, rfl⟩
    next => cases h

/-! ## Sample words -/

theorem bytesOfNat_word {w : Nat} : bytesOfNat 4 w = (Encoded.word w).bytes := by
  simp only [bytesOfNat, Encoded.bytes, Nat.div_div_eq_div_mul]
  rfl

theorem decodeTableWord_word {w : Nat} (hw : w < 2 ^ 32) (hlen : w / 2 ^ 15 % 2 = 1) :
    decodeTableWord 32 w = (Long.split w).decode := by
  have htake := takeWord_bytes (e := .word w) ⟨hw, hlen⟩ []
  rw [List.append_nil] at htake
  simp only [decodeTableWord, Nat.mod_eq_of_lt hw, bytesOfNat_word, decodeBytes, htake, Option.map_map]
  exact Option.map_id'

theorem decodeTableWord_half {h : Nat} (hh : h < 2 ^ 15) : decodeTableWord 16 h = (Short.split h).decode := by
  have htake := takeWord_bytes (e := .half h) hh [BitVec.ofNat 8 (h / 2 ^ 16), BitVec.ofNat 8 (h / 2 ^ 24)]
  have hbytes : bytesOfNat 4 h = (Encoded.half h).bytes ++ [BitVec.ofNat 8 (h / 2 ^ 16), BitVec.ofNat 8 (h / 2 ^ 24)] := by
    rw [bytesOfNat_word]; rfl
  simp only [decodeTableWord, Nat.mod_eq_of_lt (show h < 2 ^ 16 by omega), hbytes, decodeBytes, htake, Option.map_map]
  exact Option.map_id'

/-- Settles O55: each sample word decodes by evaluation, and a major or op that is never assigned has no form to match. -/
theorem sampleWords : Obligations.SampleWords := by
  refine ⟨by decide, by decide, by decide, by decide, by decide, by decide, by decide, by decide, by decide, fun w hlen hmajor => ?_, fun h hop => ?_⟩
  · rw [decodeTableWord_word w.isLt hlen]
    have hm : (Long.split w.toNat).major ∈ [0x1E, 0x1F] := hmajor
    obtain hm | hm : (Long.split w.toNat).major = 0x1E ∨ (Long.split w.toNat).major = 0x1F := by simpa using hm
    · simp [Long.decode, hm]
    · simp [Long.decode, hm]
  · rw [decodeTableWord_half (by omega)]
    have hop : (Short.split h.toNat).op = 15 := by simp only [Short.split]; omega
    simp [Short.decode, hop]


end Sys2Proof.Proofs
end

