-- ==== Sys2Proof/Proofs/Jumps.lean ====
section
/-!
PROOFS. Calls, computed jumps, and moves (R54, R55, R72, R92, R244, R245).
-/

namespace Sys2Proof.Proofs

open Sys2Proof Sys2Proof.Machine Sys2Proof.Claims

/-! ## Jumps -/

theorem signExtend_shiftLeft {n : Nat} (o : BitVec n) (k : Nat) : (o.signExtend 64) <<< k = BitVec.ofInt 64 (o.toInt * 2 ^ k) := by
  rw [BitVec.shiftLeft_eq_mul_twoPow, BitVec.ofInt_mul, BitVec.signExtend]
  congr 1
  apply BitVec.eq_of_toNat_eq
  rw [BitVec.toNat_twoPow, show (2 : Int) ^ k = ((2 ^ k : Nat) : Int) by simp, BitVec.ofInt_natCast, BitVec.toNat_ofNat]

theorem branchTarget_eq_reach {n : Nat} (th : Thread) (o : BitVec n) : branchTarget th.pc o = reach th o := by
  rw [branchTarget, signExtend_shiftLeft]; rfl

theorem jumps_of_jumpTo {s : State} {t : Nat} {th : Thread} {i : Instr} {target : Word} {x : Vector Word 32} (len : Nat) (regs : List Reg)
    (he : exec i s = .next (s.setThread t { (th.noted len regs).jumpTo target false with x := x })) : Jumps s t th i target x th.loops :=
  ⟨_, _, he, State.thread?_setThread_self _ _ _, ⟨rfl, rfl, rfl⟩, rfl, by rfl, rfl, sameShared_setThread _ _ _, sameOthers_setThread _ _ _,
    sameDevice_setThread _ _ _⟩

theorem jumpReg_jumps {s : State} {t : Nat} {th : Thread} {i : Instr} {len : Nat} {a : Reg} {m : BitVec 10} {link : Bool} {target : Word}
    (h : Issuing s t th) (he : exec i s = jumpReg len a m link s) (htarget : s.readReg th a + immS m = target) (heven : target.getLsbD 0 = false) :
    Jumps s t th i target (if link then linked th len else th.x) th.loops := by
  apply jumps_of_jumpTo len [a]
  rw [he, jumpReg, onThread_issuing h]
  simp only [readReg_noted, htarget, heven]
  rfl

theorem jumpReg_traps {s : State} {t : Nat} {th : Thread} {i : Instr} {len : Nat} {a : Reg} {m : BitVec 10} {link : Bool} {target : Word}
    (h : Issuing s t th) (he : exec i s = jumpReg len a m link s) (htarget : s.readReg th a + immS m = target) (hodd : target.getLsbD 0 = true)
    (hh : HasHandler th) : Traps s t th i 3 0 (some target) := by
  refine traps_here hh i len [a] 3 0 (some target) ?_ (by decide) (by decide)
  rw [he, jumpReg, onThread_issuing h]
  simp only [readReg_noted, htarget, hodd, if_true]
  rfl

/-- Settles O5: CALL writes `jumpTo` of its reach; JR, CALLR and RET are one computed jump, which goes to an even target and traps at an odd
one. -/
theorem jumpOutcomes : Obligations.JumpOutcomes := by
  intro s t th a i o h
  refine ⟨?_, fun heven => ⟨?_, ?_⟩, fun hodd hh => ⟨?_, ?_⟩, fun heven => ?_, fun hodd hh => ?_⟩
  · rw [← branchTarget_eq_reach]
    exact jumps_of_jumpTo 4 [] ((show exec (.call o) s = execCall o s from rfl).trans (onThread_issuing h _ _ _))
  · exact jumpReg_jumps h (link := false) rfl rfl heven
  · exact jumpReg_jumps h (link := true) rfl rfl heven
  · exact jumpReg_traps h (link := false) rfl rfl hodd hh
  · exact jumpReg_traps h (link := true) rfl rfl hodd hh
  · exact jumpReg_jumps h (link := false) rfl (BitVec.add_zero _) heven
  · exact jumpReg_traps h (link := false) rfl (BitVec.add_zero _) hodd hh

/-- An instruction that writes a value of its own thread to d computes it. -/
theorem computes_own {s : State} {t : Nat} {th : Thread} {i : Instr} {d : Reg} {v : Word} (h : Issuing s t th) (f : Thread → Word)
    (he : exec i s = onThread s i.len [d] (fun t th => s.result t th d (f th))) (hf : f (th.noted i.len [d]) = v) :
    Computes s t th i d v :=
  computes_result h i [d] d v _ he (congrArg (s.result t _ d) hf)

theorem computes_rself {s : State} {t : Nat} {th : Thread} (h : Issuing s t th) (x : SelfField) (d : Reg) {v : Nat}
    (hv : selfField x (s.selfOf th) = v) : Computes s t th (.rself x d) d (BitVec.ofNat 64 v) :=
  computes_own h (fun th => BitVec.ofNat 64 (selfField x (s.selfOf th))) rfl (congrArg (BitVec.ofNat 64) hv)

/-- Settles O31: LUI, ADR, RSELF and XMOV write a value of their own thread, and XSET sets its extension register. -/
theorem moveResults : Obligations.MoveResults := by
  refine ⟨fun s t th d i h => ⟨?_, ?_, ?_, ?_, ?_, ?_, ?_⟩, fun s t th d a e h => ⟨?_, ?_⟩⟩
  · exact computes_own h (fun _ => (i.signExtend 64) <<< 10) rfl (signExtend_shiftLeft i 10)
  · exact computes_own h (fun th => branchTarget th.pc i) rfl (branchTarget_eq_reach th i)
  · exact computes_rself h .all d rfl
  · exact computes_rself h .slot d (by simp [selfField, bits])
  · exact computes_rself h .core d (by simp [selfField, bits])
  · exact computes_rself h .tile d (by simp [selfField, bits])
  · exact computes_rself h .lodge d (by simp [selfField, bits])
  · have hexec := (show exec (.xset e a) s = execXset e a s from rfl).trans (onThread_issuing h _ _ _)
    refine becomes_set _ _ hexec _ ⟨?_, rfl, goesOn_advance _ _ _ rfl rfl rfl rfl rfl, rfl⟩
    simp only [readReg_noted]
    rfl
  · exact computes_own h (fun th => th.e[e.toNat]) rfl rfl

end Sys2Proof.Proofs
end

