-- ==== Sys2Proof/Proofs/WideCode.lean ====
section
/-!
PROOFS. A fetch that meets a poisoned line (R57, R297, R298), whose structure code is beyond TRAPC's field.
-/

namespace Sys2Proof.Proofs

open Sys2Proof Sys2Proof.Machine Sys2Proof.Claims

/-- The page that the thread fetches from, whose first line is poisoned for guest 0 under a structure code that needs 17 bits. -/
def fetchedPage : TlbEntry :=
  { slot := 0, guest := 0, gen := 0, va := 0x10000, bits := 16, pa := 0x40000, r := true, w := true, x := true }
def wideCodeLine : HomeLine := { HomeLine.init with poison := some 0, poisonCode := 2 ^ 16 }

/-- A thread with a handler about to fetch from that line. -/
def fetchingThread : Thread := Thread.start 0 0 0 0 0 none (Vector.replicate 32 0) 0x10000 0 0 false 0x20000

def poisonedFetch : State :=
  { State.reset with threads := [(0, fetchingThread)], utlb := [(0, [fetchedPage])], lines := [(lineOf 0x40000, wideCodeLine)] }

/-- It issues next, with nothing before its fetch, and the fetch meets the poison. -/
theorem poisonedFetch_issues : poisonedFetch.nextEntry = none ∧ poisonedFetch.nextIssue = some (0, 0) ∧
    poisonedFetch.thread? 0 = some fetchingThread ∧ poisonedFetch.faultedCommand 0 = none ∧ fetchingThread.nextEvent = none := by decide

theorem poisonedFetch_fails :
    poisonedFetch.fetchWord fetchingThread.home fetchingThread.guest fetchingThread.pc = .fail (.trap 0x0F (2 ^ 16)) 0x10000 := by decide

theorem fetchingThread_hasHandler : HasHandler fetchingThread := ⟨by decide, by decide⟩

/-- The step leaves the thread in its handler with CAUSE 0x0F and DETAIL 0. -/
theorem poisonedFetch_steps : ∃ u, step poisonedFetch = .next u ∧ (u.thread? 0).map Thread.trapc = some (BitVec.ofNat 64 (2 ^ 63 + 0x0F)) :=
  ⟨_, rfl, by decide⟩

/-- Refutes O56: a line's structure code of 2 ^ 16 is the detail of the fetch's trap; the statement's TRAPC has bit 32 set for it, where the
model keeps the detail's low 16 bits (R288). -/
theorem not_stepRunsDecoded : ¬ Obligations.StepRunsDecoded := by
  rintro ⟨hissue, -⟩
  obtain ⟨hentry, hnext, hth, hfault, hevent⟩ := poisonedFetch_issues
  obtain ⟨-, -, htrap⟩ := (hissue poisonedFetch hentry).1 0 0 fetchingThread hnext hth hfault (.inr hevent)
  obtain ⟨u, th', hu, hth', ⟨-, htrapc, -⟩, -⟩ := htrap _ _ _ poisonedFetch_fails (by decide) fetchingThread_hasHandler
  obtain ⟨v, hv, hkept⟩ := poisonedFetch_steps
  obtain rfl := Host.Outcome.next.inj (hv.symm.trans hu)
  rw [hth', Option.map_some, htrapc] at hkept
  exact absurd hkept (by decide)

end Sys2Proof.Proofs
end

