-- ==== Sys2Proof/Proofs/Invariant.lean ====
section
/-!
PROOFS. The invariant that a step keeps: threads under distinct numbers, memory in its canonical form, code at halfwords.
-/

namespace Sys2Proof.Proofs

open Sys2Proof Sys2Proof.Machine Sys2Proof.Claims

-- A default argument's tactic is read only when all declarations before are checked: proofs elaborated side by side would each
-- hold a waiting thread.
set_option Elab.async false

/-! ## The invariant -/

/-- Which of its three parts an invariant asks for: threads listed under distinct numbers in rising order, memory in its canonical form,
and program counters and code at halfwords. One walk through the model serves them all; each obligation asks for its own. -/
structure Asked where
  numbered  : Prop
  canonical : Prop
  halfwords : Prop

variable {K : Asked}

/-- A thread, a record, a launch, an armed record and an event with what the invariant asks of them. -/
def GoodThread (K : Asked) (th : Thread) : Prop := K.halfwords → th.Halfwords
def GoodRecord (K : Asked) (r : Record) : Prop := K.halfwords → r.Halfword
def GoodLaunch (K : Asked) (x : Launch) : Prop := GoodRecord K x.rcd
def GoodArmed (K : Asked) (a : Armed) : Prop := GoodRecord K a.rcd
def GoodEvent (K : Asked) (e : Event) : Prop := K.halfwords → Event.Halfwords e

/-- The work of a step of the agenda: an event brings in halfwords only. -/
def Work.Halfwords : Work → Prop
  | .event e => Event.Halfwords e
  | .word _ => True
def GoodWork (K : Asked) (w : Work) : Prop := K.halfwords → Work.Halfwords w

/-- A state that has the parts asked for. -/
def Good (K : Asked) (s : State) : Prop :=
  (K.numbered → KMap.sorted s.threads = true) ∧ (K.canonical → Memory.wf s.mem = true) ∧ (K.halfwords → s.Halfwords)

variable {s u : State}

/-! ## What of the state it reads -/

theorem good_iff : Good K s ↔ (K.numbered → KMap.sorted s.threads = true) ∧ (K.canonical → Memory.wf s.mem = true) ∧
    (∀ p ∈ s.threads, GoodThread K p.2) ∧ (∀ p ∈ s.launches, GoodLaunch K p.2) ∧ (∀ a ∈ s.armed, GoodArmed K a) ∧
    (∀ p ∈ s.agenda, GoodWork K p.work) := by
  constructor
  · rintro ⟨hnum, hmem, hhalf⟩
    refine ⟨hnum, hmem, fun p hp h => (hhalf h).1 p hp, fun p hp h => (hhalf h).2.1 p hp, fun a ha h => (hhalf h).2.2.1 a ha,
      fun p hp h => ?_⟩
    match hw : p.work with
    | .event e => exact (hhalf h).2.2.2 p hp e hw
    | .word i => trivial
  · rintro ⟨hnum, hmem, hth, hla, harm, hag⟩
    refine ⟨hnum, hmem, fun h => ⟨fun p hp => hth p hp h, fun p hp => hla p hp h, fun a ha => harm a ha h, fun p hp e he => ?_⟩⟩
    have hw := hag p hp h
    rwa [he] at hw

namespace Good

theorem numbered (hs : Good K s) : K.numbered → KMap.sorted s.threads = true := (good_iff.mp hs).1
theorem mem (hs : Good K s) : K.canonical → Memory.wf s.mem = true := (good_iff.mp hs).2.1
theorem threads (hs : Good K s) {p : Nat × Thread} (hp : p ∈ s.threads) : GoodThread K p.2 := (good_iff.mp hs).2.2.1 p hp
theorem launches (hs : Good K s) {p : Nat × Launch} (hp : p ∈ s.launches) : GoodLaunch K p.2 := (good_iff.mp hs).2.2.2.1 p hp
theorem armed (hs : Good K s) {a : Armed} (ha : a ∈ s.armed) : GoodArmed K a := (good_iff.mp hs).2.2.2.2.1 a ha
theorem agenda (hs : Good K s) {p : Pending} (hp : p ∈ s.agenda) : GoodWork K p.work := (good_iff.mp hs).2.2.2.2.2 p hp

/-- A state that differs elsewhere only. -/
theorem kept (hs : Good K s) (hth : u.threads = s.threads := by with_reducible rfl) (hmem : u.mem = s.mem := by with_reducible rfl)
    (hla : u.launches = s.launches := by with_reducible rfl) (harm : u.armed = s.armed := by with_reducible rfl)
    (hag : u.agenda = s.agenda := by with_reducible rfl) : Good K u := by
  rw [good_iff, hth, hmem, hla, harm, hag]
  exact good_iff.mp hs

theorem with_threads (hs : Good K s) {l : List (Nat × Thread)} (hnum : K.numbered → KMap.sorted l = true)
    (hth : ∀ p ∈ l, GoodThread K p.2) : Good K { s with threads := l } :=
  good_iff.mpr ⟨hnum, hs.mem, hth, fun _ => hs.launches, fun _ => hs.armed, fun _ => hs.agenda⟩

theorem with_mem (hs : Good K s) {m : List Host.Cell} (hm : K.canonical → Memory.wf m = true) : Good K { s with mem := m } :=
  good_iff.mpr ⟨hs.numbered, hm, fun _ => hs.threads, fun _ => hs.launches, fun _ => hs.armed, fun _ => hs.agenda⟩

theorem with_launches (hs : Good K s) {l : List (Nat × Launch)} (hl : ∀ p ∈ l, GoodLaunch K p.2) : Good K { s with launches := l } :=
  good_iff.mpr ⟨hs.numbered, hs.mem, fun _ => hs.threads, hl, fun _ => hs.armed, fun _ => hs.agenda⟩

theorem with_armed (hs : Good K s) {l : List Armed} (hl : ∀ a ∈ l, GoodArmed K a) : Good K { s with armed := l } :=
  good_iff.mpr ⟨hs.numbered, hs.mem, fun _ => hs.threads, fun _ => hs.launches, hl, fun _ => hs.agenda⟩

theorem with_agenda (hs : Good K s) {l : List Pending} (hl : ∀ p ∈ l, GoodWork K p.work) : Good K { s with agenda := l } :=
  good_iff.mpr ⟨hs.numbered, hs.mem, fun _ => hs.threads, fun _ => hs.launches, fun _ => hs.armed, hl⟩

end Good

/-! ## Lookups -/

/-- New values under the same keys. -/
theorem KMap.sorted_map {α : Type} {m : List (Nat × α)} {f : Nat × α → Nat × α} (hf : ∀ p, (f p).1 = p.1) (h : KMap.sorted m = true) :
    KMap.sorted (m.map f) = true := by
  induction m with
  | nil => rfl
  | cons q m ih =>
    have ⟨hq, hm⟩ := (KMap.sorted_cons _ _ _).mp h
    refine (KMap.sorted_cons _ _ _).mpr ⟨fun p hp => ?_, ih hm⟩
    obtain ⟨r, hr, rfl⟩ := List.mem_map.mp hp
    rw [hf, hf]
    exact hq r hr

/-- What a map holds under a key, it lists. -/
theorem KMap.mem_of_get? {α : Type} {m : List (Nat × α)} {n : Nat} {v : α} (h : KMap.get? m n = some v) : ∃ p ∈ m, p.2 = v := by
  induction m with
  | nil => simp [KMap.get?] at h
  | cons q m ih =>
    simp only [KMap.get?] at h
    split at h
    · exact ⟨q, List.mem_cons_self .., Option.some.inj h⟩
    · obtain ⟨p, hp, hv⟩ := ih h
      exact ⟨p, List.mem_cons_of_mem _ hp, hv⟩

namespace Good

theorem thread (hs : Good K s) {t : Nat} {th : Thread} (h : s.thread? t = some th) : GoodThread K th := by
  obtain ⟨p, hp, rfl⟩ := KMap.mem_of_get? h
  exact hs.threads hp

theorem launch (hs : Good K s) {l : Nat} {x : Launch} (h : s.launch? l = some x) : GoodLaunch K x := by
  obtain ⟨p, hp, rfl⟩ := KMap.mem_of_get? h
  exact hs.launches hp

/-! ## Its shapes -/

theorem ite {c : Prop} {_ : Decidable c} {a b : State} (ha : Good K a) (hb : Good K b) : Good K (if c then a else b) := by
  split
  · exact ha
  · exact hb

theorem ite_fst {α : Type} {c : Prop} {_ : Decidable c} {p q : State × α} (hp : Good K p.1) (hq : Good K q.1) :
    Good K (if c then p else q).1 := by
  split
  · exact hp
  · exact hq

theorem ite_snd {α : Type} {c : Prop} {_ : Decidable c} {p q : α × State} (hp : Good K p.2) (hq : Good K q.2) :
    Good K (if c then p else q).2 := by
  split
  · exact hp
  · exact hq

theorem getD {o : Option State} (hs : Good K s) (ho : ∀ u, o = some u → Good K u) : Good K (o.getD s) := by
  cases o with
  | none => exact hs
  | some u => exact ho u rfl

theorem foldl {α : Type} {l : List α} {f : State → α → State} (hs : Good K s) (hf : ∀ s a, Good K s → Good K (f s a)) :
    Good K (l.foldl f s) := by
  induction l generalizing s with
  | nil => exact hs
  | cons a l ih => exact ih (hf s a hs)

/-- A fold whose steps know of the members of its list. -/
theorem foldl_mem {α : Type} {l : List α} {f : State → α → State} (hs : Good K s) (hf : ∀ s a, a ∈ l → Good K s → Good K (f s a)) :
    Good K (l.foldl f s) := by
  induction l generalizing s with
  | nil => exact hs
  | cons a l ih =>
    exact ih (hf s a (List.mem_cons_self ..) hs) (fun s b hb => hf s b (List.mem_cons_of_mem _ hb))

end Good

end Sys2Proof.Proofs
end

