-- ==== Sys2Proof/Proofs/Keeping.lean ====
section
/-!
PROOFS. What changes a part of the state that the invariant speaks of, and what instructions and events may answer.
-/

namespace Sys2Proof.Proofs

open Sys2Proof Sys2Proof.Machine Sys2Proof.Claims

-- A default argument's tactic is read only when all declarations before are checked: proofs elaborated side by side would each
-- hold a waiting thread.
set_option Elab.async false

variable {K : Asked} {s : State}

/-! ## Threads -/

theorem even_add {a b : Word} (ha : a.getLsbD 0 = false) (hb : b.getLsbD 0 = false) : (a + b).getLsbD 0 = false := by
  rw [BitVec.getLsbD_add (by decide), ha, hb, BitVec.carry_zero]
  rfl

theorem even_ofNat {n : Nat} (h : n % 2 = 0) : (BitVec.ofNat 64 n).getLsbD 0 = false := by
  simp only [BitVec.getLsbD_ofNat, Nat.testBit_zero, h]
  rfl

theorem even_shiftLeft (a : Word) : (a <<< 1).getLsbD 0 = false := by
  simp

theorem even_branchTarget {n : Nat} {pc : Word} {o : BitVec n} (h : pc.getLsbD 0 = false) : (branchTarget pc o).getLsbD 0 = false :=
  even_add h (even_shiftLeft _)

namespace GoodThread
variable {th : Thread}

theorem pc (h : GoodThread K th) : K.halfwords → th.pc.getLsbD 0 = false := fun hk => (h hk).1
theorem epc (h : GoodThread K th) : K.halfwords → th.epc.getLsbD 0 = false := fun hk => (h hk).2.1
theorem tvec (h : GoodThread K th) : K.halfwords → th.tvec.getLsbD 0 = false := fun hk => (h hk).2.2.1
theorem loops (h : GoodThread K th) : K.halfwords → ∀ l ∈ th.loops, l.start.getLsbD 0 = false := fun hk => (h hk).2.2.2.2

theorem nextWord (h : GoodThread K th) : K.halfwords → th.nextWord.getLsbD 0 = false := fun hk => by
  obtain ⟨hpc, -, -, hlen, -⟩ := h hk
  exact even_add hpc (even_ofNat hlen)

/-- A thread that differs elsewhere only. -/
theorem kept {u : Thread} (h : GoodThread K th) (hpc : u.pc = th.pc := by with_reducible rfl) (hepc : u.epc = th.epc := by with_reducible rfl)
    (htvec : u.tvec = th.tvec := by with_reducible rfl) (hlen : u.ilen = th.ilen := by with_reducible rfl)
    (hloops : u.loops = th.loops := by with_reducible rfl) : GoodThread K u := fun hk => by
  rw [Thread.Halfwords, hpc, hepc, htvec, hlen, hloops]
  exact h hk

/-- Another program counter and other levels. -/
theorem with_pc {loops : List LoopLevel} {pc : Word} (h : GoodThread K th) (hpc : K.halfwords → pc.getLsbD 0 = false)
    (hloops : K.halfwords → ∀ l ∈ loops, l.start.getLsbD 0 = false) : GoodThread K { th with pc := pc, loops := loops } := fun hk => by
  obtain ⟨-, hepc, htvec, hlen, -⟩ := h hk
  exact ⟨hpc hk, hepc, htvec, hlen, hloops hk⟩

theorem with_epc {epc : Word} (h : GoodThread K th) (he : K.halfwords → epc.getLsbD 0 = false) : GoodThread K { th with epc := epc } :=
  fun hk => by
    obtain ⟨hpc, -, htvec, hlen, hloops⟩ := h hk
    exact ⟨hpc, he hk, htvec, hlen, hloops⟩

theorem with_tvec {tvec : Word} (h : GoodThread K th) (ht : K.halfwords → tvec.getLsbD 0 = false) : GoodThread K { th with tvec := tvec } :=
  fun hk => by
    obtain ⟨hpc, hepc, -, hlen, hloops⟩ := h hk
    exact ⟨hpc, hepc, ht hk, hlen, hloops⟩

theorem rejoin (h : GoodThread K th) : GoodThread K th.rejoin := h
theorem raise (h : GoodThread K th) {w : Word} : GoodThread K (th.raise w) := h
theorem raiseAck (h : GoodThread K th) {w : Word} : GoodThread K (th.raiseAck w) := h
theorem seesAcks (h : GoodThread K th) : GoodThread K th.seesAcks := h

/-- The thread without the event that it takes. -/
theorem nextEvent {u : Thread} {e : TrapEvent} (h : GoodThread K th) (hu : th.nextEvent = some (e, u)) : GoodThread K u := by
  unfold Thread.nextEvent at hu
  split at hu
  · obtain ⟨-, rfl⟩ := Prod.mk.inj (Option.some.inj hu)
    exact h.kept
  · split at hu
    · obtain ⟨-, rfl⟩ := Prod.mk.inj (Option.some.inj hu)
      exact h.kept
    · split at hu
      · obtain ⟨-, rfl⟩ := Prod.mk.inj (Option.some.inj hu)
        exact h.kept
      · cases hu

theorem leaving (h : GoodThread K th) : GoodThread K (s.leaving th) := by
  unfold State.leaving
  split
  · exact h
  · exact h

end GoodThread

/-- A launch of the same record. -/
theorem GoodLaunch.kept {x y : Launch} (h : GoodLaunch K x) (hr : y.rcd = x.rcd := by with_reducible rfl) : GoodLaunch K y := by
  rw [GoodLaunch, hr]
  exact h

/-- The loop end check goes on at the next word or at the start of a level, and keeps the starts of the levels. -/
theorem loopEnd_even {pc next : Word} {loops : List LoopLevel} (hnext : next.getLsbD 0 = false)
    (hloops : ∀ l ∈ loops, l.start.getLsbD 0 = false) :
    (loopEnd pc next loops).1.getLsbD 0 = false ∧ ∀ l ∈ (loopEnd pc next loops).2, l.start.getLsbD 0 = false := by
  match loops with
  | [] => exact ⟨hnext, by simp [loopEnd]⟩
  | [l] =>
    simp only [loopEnd]
    split
    · split
      · exact ⟨hloops l (by simp), by simpa using hloops⟩
      · exact ⟨hnext, by simp⟩
    · exact ⟨hnext, hloops⟩
  | l :: o :: rest =>
    have hl := hloops l (by simp)
    have ho := hloops o (by simp)
    have hrest : ∀ m ∈ rest, m.start.getLsbD 0 = false := fun m hm => hloops m (by simp [hm])
    simp only [loopEnd]
    split
    · split
      · exact ⟨hl, by simpa using ⟨hl, ho, hrest⟩⟩
      · split
        · split
          · exact ⟨ho, by simpa using ⟨ho, hrest⟩⟩
          · exact ⟨hnext, hrest⟩
        · exact ⟨hnext, by simpa using ⟨ho, hrest⟩⟩
    · exact ⟨hnext, hloops⟩

namespace GoodThread
variable {th : Thread}

theorem advance (h : GoodThread K th) : GoodThread K th.advance := by
  refine GoodThread.with_pc (th := { th.rejoin with issued := th.issued + 1 }) h (fun hk => ?_) (fun hk => ?_)
  · split
    · exact h.nextWord hk
    · exact (loopEnd_even (h.nextWord hk) (h.loops hk)).1
  · split
    · exact h.loops hk
    · exact (loopEnd_even (h.nextWord hk) (h.loops hk)).2

theorem jumpTo (h : GoodThread K th) {target : Word} {disarms : Bool} (ht : K.halfwords → target.getLsbD 0 = false) :
    GoodThread K (th.jumpTo target disarms) := by
  refine GoodThread.with_pc (th := { th.rejoin with issued := th.issued + 1 }) h ht (fun hk l hl => ?_)
  split at hl
  · exact h.loops hk l (List.dropWhile_sublist _ |>.mem hl)
  · exact h.loops hk l hl

theorem enter (h : GoodThread K th) {cause detail : Nat} {addr : Option Word} {epc : Word} (he : K.halfwords → epc.getLsbD 0 = false) :
    GoodThread K (th.enter cause detail addr epc) := fun hk => by
  obtain ⟨-, -, htvec, hlen, hloops⟩ := h hk
  exact ⟨htvec, he hk, htvec, hlen, hloops⟩

theorem leaveHandler (h : GoodThread K th) : GoodThread K th.leaveHandler :=
  GoodThread.with_pc (th := { th.rejoin with trapc := th.trapc &&& (BitVec.ofNat 64 (2 ^ 63 - 1)), issued := th.issued + 1 }) h h.epc h.loops

/-- A thread starts with no trap behind it and no loop. -/
theorem start {slot l unit : Nat} {g gen : BitVec 8} {parent : Option Nat} {x : Vector Word 32} {pc lts : Word} {m : BitVec 32} {priv : Bool}
    {tvec : Word} (hpc : K.halfwords → pc.getLsbD 0 = false) (htvec : K.halfwords → tvec.getLsbD 0 = false) :
    GoodThread K (Thread.start slot g gen l unit parent x pc lts m priv tvec) :=
  fun hk => ⟨hpc hk, show (0 : Word).getLsbD 0 = false from rfl, htvec hk, show 4 % 2 = 0 from rfl, by simp [Thread.start]⟩

end GoodThread

theorem GoodThread.ite {c : Prop} {_ : Decidable c} {a b : Thread} (ha : GoodThread K a) (hb : GoodThread K b) :
    GoodThread K (if c then a else b) := by
  split
  · exact ha
  · exact hb

theorem GoodEvent.ite {c : Prop} {_ : Decidable c} {a b : Event} (ha : GoodEvent K a) (hb : GoodEvent K b) :
    GoodEvent K (if c then a else b) := by
  split
  · exact ha
  · exact hb

/-- A held request comes back as a message. -/
theorem GoodEvent.homeMsg {m : HomeMsg} : GoodEvent K m.event := by
  cases m <;> exact fun _ => trivial

/-! ## What changes a part that is asked for -/

namespace Good

theorem setThread (hs : Good K s) {t : Nat} {th : Thread} (hth : GoodThread K th) : Good K (s.setThread t th) := by
  refine hs.with_threads (fun h => KMap.sorted_set _ _ (hs.numbered h)) (fun p hp => ?_)
  rcases KMap.mem_set hp with rfl | hp
  · exact hth
  · exact hs.threads hp

theorem modThread (hs : Good K s) {t : Nat} {f : Thread → Thread}
    (hf : ∀ th, GoodThread K th → GoodThread K (f th) := by exact fun _ h => h) : Good K (s.modThread t f) := by
  unfold State.modThread
  split
  next th h => exact hs.setThread (hf th (hs.thread h))
  next => exact hs

theorem eraseThread (hs : Good K s) {t : Nat} : Good K { s with threads := KMap.erase s.threads t } :=
  hs.with_threads (fun h => KMap.sorted_erase _ (hs.numbered h)) (fun _ hp => hs.threads (KMap.mem_erase hp))

theorem setLaunch (hs : Good K s) {l : Nat} {x : Launch} (hx : GoodLaunch K x) : Good K { s with launches := KMap.set s.launches l x } := by
  refine hs.with_launches (fun p hp => ?_)
  rcases KMap.mem_set hp with rfl | hp
  · exact hx
  · exact hs.launches hp

theorem modLaunch (hs : Good K s) {l : Nat} {f : Launch → Launch} (hf : ∀ x, GoodLaunch K x → GoodLaunch K (f x) := by exact fun _ h => h) :
    Good K (s.modLaunch l f) := by
  unfold State.modLaunch
  split
  next x h => exact hs.setLaunch (hf x (hs.launch h))
  next => exact hs

theorem writeMem (hs : Good K s) {a : Nat} {bs : List Byte} : Good K (s.writeMem a bs) :=
  hs.with_mem (fun h => Memory.wf_writeN _ _ (hs.mem h))

theorem addArmed (hs : Good K s) {a : Armed} (ha : GoodArmed K a) : Good K { s with armed := s.armed ++ [a] } := by
  refine hs.with_armed (fun b hb => ?_)
  rcases List.mem_append.mp hb with hb | hb
  · exact hs.armed hb
  · obtain rfl := List.mem_singleton.mp hb
    exact ha

theorem sublistArmed (hs : Good K s) {l : List Armed} (hl : l.Sublist s.armed) : Good K { s with armed := l } :=
  hs.with_armed fun _ ha => hs.armed (hl.mem ha)

/-- What is posted is as good as its work. -/
theorem postOwing (hs : Good K s) {unpaid : Option (Nat × Nat × BitVec 8 × Nat)} {die : Option Nat} {turn : Nat} {p : Place}
    {chan : Nat × Nat} {due cur : Nat} {w : Work} (hw : GoodWork K w := by exact fun _ => trivial) :
    Good K (s.postOwing unpaid die turn p chan due cur w) := by
  unfold State.postOwing
  refine (hs.with_agenda (l := s.agenda ++ [_]) (fun q hq => ?_)).kept
  rcases List.mem_append.mp hq with hq | hq
  · exact hs.agenda hq
  · obtain rfl := List.mem_singleton.mp hq
    exact hw

/-- The agenda without some of its steps. -/
theorem filterAgenda (hs : Good K s) {keep : Pending → Bool} : Good K { s with agenda := s.agenda.filter keep } :=
  hs.with_agenda (fun _ hp => hs.agenda (List.mem_of_mem_filter hp))

/-- The agenda with its steps marked otherwise. -/
theorem mapAgenda (hs : Good K s) {f : Pending → Pending} (hf : ∀ p, GoodWork K p.work → GoodWork K (f p).work) :
    Good K { s with agenda := s.agenda.map f } := by
  refine hs.with_agenda (fun q hq => ?_)
  obtain ⟨p, hp, rfl⟩ := List.mem_map.mp hq
  exact hf p (hs.agenda hp)

end Good
/-! ## What an instruction comes to -/

/-- The thread that `State.cur` names can carry out an instruction. -/
def Running (s : State) : Prop := ∃ th, s.thread? s.cur = some th ∧ th.halted = false ∧ (th.place.isSome ∨ th.replay = true)

/-- An instruction word answers a good state, or a fault where no thread can carry it out. -/
def Answers (K : Asked) (s : State) : Result → Prop
  | .next u => Good K u
  | .fault _ => ¬ Running s
  | .refused _ => False

/-- An event answers a good state. -/
def Goes (K : Asked) (r : Result) : Prop := ∃ u, r = .next u ∧ Good K u

namespace Good

theorem onThread {len : Nat} {regs : List Reg} {f : Nat → Thread → State} (hs : Good K s)
    (hf : ∀ t th, GoodThread K th → Good K (f t th)) (hlen : len % 2 = 0 := by rfl) : Answers K s (onThread s len regs f) := by
  unfold Machine.onThread
  split
  next th h =>
    split
    next hidle =>
      rintro ⟨th', h', hhalt, hplace⟩
      obtain rfl := Option.some.inj (h.symm.trans h')
      rcases hplace with hplace | hplace
      · simp [hhalt, Option.isSome_iff_ne_none.mp hplace] at hidle
      · simp [hhalt, hplace] at hidle
    next =>
      refine hf _ _ fun hk => ?_
      obtain ⟨hpc, hepc, htvec, -, hloops⟩ := hs.thread h hk
      exact ⟨hpc, hepc, htvec, hlen, hloops⟩
  next h =>
    rintro ⟨th, h', -⟩
    rw [h] at h'
    cases h'

theorem onEvent {e : Event} {f : State → Event → Option State} (hs : Good K s) (hf : ∀ s, Good K s → ∃ u, f s e = some u ∧ Good K u) :
    Goes K (onEvent { s with event := some e } f) := by
  obtain ⟨u, hu, hgood⟩ := hf { s with event := none } hs.kept
  refine ⟨u, ?_, hgood⟩
  simp only [Machine.onEvent]
  rw [hu]

/-- The state of a pair. -/
theorem of_pair {α : Type} {p : α × State} {a : α} {u : State} (h : Good K p.2) (hp : p = (a, u)) : Good K u := by
  rw [hp] at h
  exact h

theorem of_triple {α β : Type} {p : α × β × State} {a : α} {b : β} {u : State} (h : Good K p.2.2) (hp : p = (a, b, u)) : Good K u := by
  rw [hp] at h
  exact h

end Good

end Sys2Proof.Proofs
end

