-- ==== Sys2Proof/Proofs/KeptByThreads.lean ====
section
/-!
PROOFS. What threads, launches and traps do keeps the invariant.
-/

namespace Sys2Proof.Proofs

open Sys2Proof Sys2Proof.Machine Sys2Proof.Claims

-- A default argument's tactic is read only when all declarations before are checked: proofs elaborated side by side would each
-- hold a waiting thread.
set_option Elab.async false

variable {K : Asked} {s : State}

/-! ## Parts of the state -/

theorem Good.setTile {t x} (hs : Good K s) : Good K (s.setTile t x) := by
  unfold State.setTile
  exact hs.kept

theorem Good.modTile {t f} (hs : Good K s) : Good K (s.modTile t f) := hs.setTile

theorem Good.setLine {l x} (hs : Good K s) : Good K (s.setLine l x) := by
  unfold State.setLine
  exact hs.kept

theorem Good.modLine {l f} (hs : Good K s) : Good K (s.modLine l f) := hs.setLine

theorem Good.setGuest {g x} (hs : Good K s) : Good K (s.setGuest g x) := by
  unfold State.setGuest
  exact hs.kept

theorem Good.modGuest {g f} (hs : Good K s) : Good K (s.modGuest g f) := hs.setGuest

theorem Good.setStashLine {tile i l} (hs : Good K s) : Good K (s.setStashLine tile i l) := by
  unfold State.setStashLine
  exact hs.kept

theorem Good.dropStashLine {tile i} (hs : Good K s) : Good K (s.dropStashLine tile i) := by
  unfold State.dropStashLine
  exact hs.kept

theorem Good.kset {core g k v} (hs : Good K s) : Good K (s.kset core g k v) := by
  unfold State.kset
  exact hs.kept

/-! ## What is posted -/

theorem Good.postAs {turn p chan due cur} {w : Work} (hs : Good K s) (hw : GoodWork K w := by exact fun _ => trivial) :
    Good K (s.postAs turn p chan due cur w) := hs.postOwing hw

theorem Good.post {p chan due cur} {w : Work} (hs : Good K s) (hw : GoodWork K w := by exact fun _ => trivial) :
    Good K (s.post p chan due cur w) := hs.postAs hw

theorem Good.send {p chan delay} {e : Event} (hs : Good K s) (he : GoodEvent K e := by exact fun _ => trivial) :
    Good K (s.send p chan delay e) := by
  unfold State.send
  dsimp only
  split
  · exact hs.kept.postOwing he
  · exact Good.ite (hs.kept.postOwing he) (hs.kept.postOwing he)

theorem Good.now {e : Event} (hs : Good K s) (he : GoodEvent K e := by exact fun _ => trivial) : Good K (s.now e) := hs.post he

theorem Good.flip {f} (hs : Good K s) : Good K (s.flip f).2 := by
  unfold State.flip
  exact hs.kept

/-! ## A thread that retires, waits and goes on -/

theorem Good.retire {t} {th : Thread} (hs : Good K s) (hth : GoodThread K th) : Good K (s.retire t th) :=
  hs.setThread hth.advance

theorem Good.await {t} {th : Thread} {w} (hs : Good K s) (hth : GoodThread K th) : Good K (s.await t th w) := by
  unfold State.await
  dsimp only
  exact hs.setThread hth.leaving.kept

theorem Good.resumeAt {p t i f} (hs : Good K s) (hf : ∀ a0, GoodThread K a0 → GoodThread K (f a0) := by exact fun _ h => h) :
    Good K (s.resumeAt p t i f) := by
  unfold State.resumeAt
  split
  next th hth' => exact (hs.setThread (hf _ ((hs.thread hth').kept))).post
  · exact hs

theorem Good.resumeWith {t i f} (hs : Good K s) (hf : ∀ a0, GoodThread K a0 → GoodThread K (f a0) := by exact fun _ h => h) :
    Good K (s.resumeWith t i f) := hs.resumeAt hf

theorem Good.raiseFloor {g w} (hs : Good K s) : Good K (s.raiseFloor g w) := hs.modGuest

theorem Good.takeTag {t} {th : Thread} {va pa key len left data} (hs : Good K s) :
    Good K (s.takeTag t th va pa key len left data).1 := by
  unfold State.takeTag
  dsimp only
  exact hs.kept

theorem GoodThread.tagged {th u : Thread} (hth : GoodThread K th) (hu : u = { th with lastTag := nextTag th.lastTag } := by rfl) :
    GoodThread K u := by
  rw [hu]
  exact hth.kept

/-! ## Launches and their units -/

theorem Good.log {code who addr data} (hs : Good K s) : Good K (s.log code who addr data) := by
  unfold State.log
  exact hs.kept

theorem Good.checkLaunch {l} (hs : Good K s) : Good K (s.checkLaunch l) := Good.ite hs.now hs

theorem Good.offerUnits {ls} (hs : Good K s) : Good K (s.offerUnits ls) := by
  unfold State.offerUnits
  split
  · exact hs
  · exact hs.now

theorem Good.enterSlots {tile} (hs : Good K s) : Good K (s.enterSlots tile) := by
  refine hs.foldl_mem fun u p hp hu => Good.ite (hu.setThread ?_) hu
  exact hs.threads (List.mem_of_mem_filter hp)

theorem Good.letIn {tile copy entries} (hs : Good K s) : Good K (s.letIn tile copy entries) := by
  unfold State.letIn
  dsimp only
  refine hs.foldl fun _ _ hs => ?_
  exact hs.post

theorem Good.dropQueued {tile copy keep} (hs : Good K s) : Good K (s.dropQueued tile copy keep) := by
  unfold State.dropQueued
  dsimp only
  exact Good.ite hs hs.modTile.letIn

theorem Good.slotsFreed {tile} (hs : Good K s) : Good K (s.slotsFreed tile) := hs.enterSlots.offerUnits

theorem Good.freeSlot {t th} (hs : Good K s) : Good K (s.freeSlot t th) :=
  hs.eraseThread.dropQueued.dropQueued.checkLaunch.slotsFreed

theorem Good.endUnit {c} (hs : Good K s) : Good K (s.endUnit c) := by
  unfold State.endUnit
  dsimp only
  split
  · split
    · refine hs.foldl fun _ _ hs => ?_
      exact hs.freeSlot
    · exact hs
  · exact hs

/-! ## Registers -/

theorem Good.writeRegLate {th : Thread} {r v} (hs : Good K s) : Good K (s.writeRegLate th r v).1 := by
  unfold State.writeRegLate
  split
  · exact hs
  · exact hs.kept

theorem GoodThread.writeRegLate {th : Thread} {r v} (hth : GoodThread K th) : GoodThread K (s.writeRegLate th r v).2 := by
  unfold State.writeRegLate
  split
  · split
    · exact hth
    · exact hth.kept
  · exact hth

theorem Good.writeReg {th : Thread} {r v} (hs : Good K s) : Good K (s.writeReg th r v).1 := by
  unfold State.writeReg
  dsimp only
  split
  · exact hs.writeRegLate
  · split
    · exact hs
    · exact hs.kset.kept

theorem GoodThread.writeReg {th : Thread} {r v} (hth : GoodThread K th) : GoodThread K (s.writeReg th r v).2 := by
  unfold State.writeReg
  split
  · exact hth.writeRegLate
  · split
    · split
      · exact hth
      · exact hth.kept
    · exact hth

/-! ## Threads that end -/

theorem Good.reaped {t} {th : Thread} {r d} {dead : Thread} {late} (hs : Good K s) (hth : GoodThread K th) :
    Good K (s.reaped t th r d dead late) := by
  unfold State.reaped
  dsimp only
  refine Good.freeSlot ?_
  refine Good.retire ?_ ?_
  · split
    · exact hs.writeRegLate
    · exact hs.writeReg
  · refine GoodThread.raise ?_
    split
    · exact hth.writeRegLate
    · exact hth.writeReg

theorem Good.settle {t} (hs : Good K s) : Good K (s.settle t) := by
  unfold State.settle
  split
  · exact hs
  · refine Good.ite hs ?_
    split
    · split
      next p hp' =>
        split
        · exact Good.ite (hs.reaped (hs.thread hp')) hs.endUnit
        · exact hs.endUnit
      · exact hs
    · exact Good.ite hs.endUnit (Good.ite hs.freeSlot hs)

theorem Good.haltThread {t} {th : Thread} (hs : Good K s) (hth : GoodThread K th) : Good K (s.haltThread t th) := by
  refine (hs.setThread ?_).raiseFloor.kept.settle.checkLaunch
  exact hth.with_pc (hth.pc) (fun _ _ h => nomatch h)

theorem GoodLaunch.blame {l : Launch} {e cause detail} (hl : GoodLaunch K l) : GoodLaunch K (l.blame e cause detail) := by
  unfold Launch.blame
  dsimp only
  split <;> exact hl.kept.kept

theorem Good.endThread {t} {th : Thread} {e cause detail} (hs : Good K s) (hth : GoodThread K th) :
    Good K (s.endThread t th e cause detail) := (hs.modLaunch (fun _ hl => hl.blame)).haltThread hth

/-! ## Traps -/

theorem Good.snapTrap {cause} (hs : Good K s) : Good K (s.snapTrap cause) := Good.ite hs.kept hs

theorem Good.takeTrap {t} {th : Thread} {cause detail addr epc} (hs : Good K s) (hth : GoodThread K th)
    (hepc : K.halfwords → epc.getLsbD 0 = false) : Good K (s.takeTrap t th cause detail addr epc) := by
  unfold State.takeTrap
  dsimp only
  split
  · exact hs.snapTrap.log.endThread hth.kept
  · exact Good.ite (hs.snapTrap.endThread hth.kept) (hs.snapTrap.setThread (hth.kept.enter hepc))

theorem Good.trapHere {t} {th : Thread} {cause detail addr} (hs : Good K s) (hth : GoodThread K th) :
    Good K (s.trapHere t th cause detail addr) := hs.takeTrap hth hth.pc

theorem Good.illegalInstr {t} {th : Thread} (hs : Good K s) (hth : GoodThread K th) : Good K (s.illegalInstr t th) :=
  hs.trapHere hth

theorem Good.illegalState {t} {th : Thread} (hs : Good K s) (hth : GoodThread K th) : Good K (s.illegalState t th) :=
  hs.trapHere hth

theorem Good.misaligned {t} {th : Thread} {a} (hs : Good K s) (hth : GoodThread K th) : Good K (s.misaligned t th a) :=
  hs.trapHere hth

theorem Good.protection {t} {th : Thread} {step a} (hs : Good K s) (hth : GoodThread K th) :
    Good K (s.protection t th step a) := hs.trapHere hth

theorem Good.takeEvent {t} {th : Thread} {e} (hs : Good K s) (hth : GoodThread K th) : Good K (s.takeEvent t th e) := by
  have hgood : GoodThread K (match e.ef with | some (a, i) => { th with efaddr := a, efinfo := i } | none => th) := by
    split <;> exact hth
  unfold State.takeEvent
  dsimp only
  split
  · exact hs.takeTrap hgood hgood.pc
  · exact hs.takeTrap hgood hgood.pc

theorem Good.takePending {t} {th : Thread} (hs : Good K s) (hth : GoodThread K th) : Good K (s.takePending t th) := by
  unfold State.takePending
  split
  · exact Good.ite (hs.endThread hth) (hs.takeTrap hth hth.pc)
  · split
    · exact hs
    · split
      next e th' h => exact hs.takeEvent (GoodThread.nextEvent hth h)
      · exact hs

theorem GoodThread.unissued {th : Thread} (hth : GoodThread K th) : GoodThread K th.unissued := by
  unfold Thread.unissued
  split
  · exact hth.kept
  · exact hth

end Sys2Proof.Proofs
end

