-- ==== Sys2Proof/Proofs/KeptByAccess.lean ====
section
/-!
PROOFS. Guards, results, translations and writes at a home keep the invariant.
-/

namespace Sys2Proof.Proofs

open Sys2Proof Sys2Proof.Machine Sys2Proof.Claims

-- A default argument's tactic is read only when all declarations before are checked: proofs elaborated side by side would each
-- hold a waiting thread.
set_option Elab.async false

variable {K : Asked} {s : State}

/-! ## Guards and values -/

theorem Good.resolve {t} {th : Thread} {q b} (hs : Good K s) : Good K (s.resolve t th q b).1 := by
  unfold State.resolve
  dsimp only
  exact Good.ite hs.modTile hs.dropQueued.dropQueued

theorem GoodThread.resolve {t} {th : Thread} {q b} (hth : GoodThread K th) : GoodThread K (s.resolve t th q b).2 := by
  unfold State.resolve
  dsimp only
  exact hth.kept

theorem GoodThread.clearGuard {th : Thread} {q} (hth : GoodThread K th) : GoodThread K (th.clearGuard q) := by
  unfold Thread.clearGuard
  exact hth.kept

theorem Good.result {t} {th : Thread} {d v} (hs : Good K s) (hth : GoodThread K th) : Good K (s.result t th d v) := by
  unfold State.result
  dsimp only
  exact hs.writeReg.retire hth.writeReg

theorem Good.alu2 {len d a b f} (hs : Good K s) (hlen : len % 2 = 0 := by rfl) : Answers K s (alu2 len d a b f s) :=
  hs.onThread (fun _ _ hth => hs.result hth) hlen

theorem Good.alu1 {len d a f} (hs : Good K s) (hlen : len % 2 = 0 := by rfl) : Answers K s (alu1 len d a f s) :=
  hs.onThread (fun _ _ hth => hs.result hth) hlen

theorem Good.alu3 {len d a b f} (hs : Good K s) (hlen : len % 2 = 0 := by rfl) : Answers K s (alu3 len d a b f s) :=
  hs.onThread (fun _ _ hth => hs.result hth) hlen

/-! ## Translation -/

theorem Good.warmTlb {k e} (hs : Good K s) : Good K (s.warmTlb k e) := by
  unfold State.warmTlb
  dsimp only
  exact hs.modTile.kept

theorem Good.translate {k g va replay} (hs : Good K s) : Good K (s.translate k g va replay).2 := by
  unfold State.translate
  dsimp only
  split
  · exact hs.kept
  · split
    · split
      · exact hs.warmTlb
      · exact hs
    · exact hs

theorem Good.check {th : Thread} {va a} (hs : Good K s) : Good K (s.check th va a).2 := by
  unfold State.check
  split
  · exact hs
  · split
    · exact hs
    · split
      · exact hs
      · split
        · split
          next c s hc' => exact (Good.of_pair hs.translate hc')
          next e s he' =>
            split
            · exact (Good.of_pair hs.translate he')
            · split <;> exact (Good.of_pair hs.translate he')
        · split <;> exact hs
        all_goals exact hs

theorem Good.awaitTlb {t} {th : Thread} {i va cycles} (hs : Good K s) (hth : GoodThread K th) :
    Good K (s.awaitTlb t th i va cycles) := hs.post.await hth

theorem GoodThread.touching {th : Thread} {x} (hth : GoodThread K th) : GoodThread K (th.touching x) := by
  unfold Thread.touching
  split
  · exact hth.kept
  · exact hth

theorem Good.access {t} {th : Thread} {i va a f} (hs : Good K s) (hth : GoodThread K th)
    (hf : ∀ a0 a1 a2, Good K a0 → GoodThread K a1 → Good K (f a0 a1 a2)) :
    Good K (s.access t th i va a f) := by
  unfold State.access
  split
  next x s hx' => exact hf _ _ _ (Good.of_pair hs.check hx') hth.touching
  next c d s hc' => exact (Good.of_pair hs.check hc').trapHere hth
  next s hs' => exact (Good.of_pair hs.check hs').await hth
  next c s hc' => exact (Good.of_pair hs.check hc').awaitTlb hth

/-! ## The table regions and the home -/

theorem Good.regionStore {r e code} (hs : Good K s) : Good K (s.regionStore r e code) := by
  unfold State.regionStore
  dsimp only
  exact hs.writeMem

theorem Good.redecode {r es line} (hs : Good K s) : Good K (s.redecode r es line) := by
  unfold State.redecode
  dsimp only
  split
  · exact hs
  · exact hs.modLine

theorem Good.regionWrite {r off bs} (hs : Good K s) : Good K (s.regionWrite r off bs) := by
  unfold State.regionWrite
  dsimp only
  refine Good.foldl ?_ fun s j hs => ?_
  · refine hs.foldl fun _ _ hs => ?_
    exact hs.regionStore
  · exact hs.redecode

theorem Good.cacheLine {line} (hs : Good K s) : Good K (s.cacheLine line) := Good.ite hs.modLine hs

theorem Good.putFrame {f e} (hs : Good K s) : Good K (s.putFrame f e) := by
  unfold State.putFrame
  dsimp only
  split
  · exact hs.kept.writeMem
  · exact hs.kept

theorem Good.putAnchor {h head} (hs : Good K s) : Good K (s.putAnchor h head) := by
  unfold State.putAnchor
  dsimp only
  split
  · exact hs.kept.writeMem
  · exact hs.kept

theorem Good.rereadTables {pa n} (hs : Good K s) : Good K (s.rereadTables pa n) := by
  unfold State.rereadTables
  dsimp only
  refine Good.ite hs ?_
  refine Good.foldl ?_ fun s h hs => ?_
  · refine hs.foldl fun s f hs => ?_
    split
    · exact hs.kept.writeMem
    · exact hs
  · split
    · exact hs.kept
    · exact hs

theorem Good.homeWrite {pa bs} (hs : Good K s) : Good K (s.homeWrite pa bs) := by
  unfold State.homeWrite
  dsimp only
  split
  · exact hs.cacheLine.regionWrite
  · split
    · exact hs.writeMem.rereadTables.modLine
    · exact hs.writeMem.rereadTables

end Sys2Proof.Proofs
end

