-- ==== Sys2Proof/Proofs/KeptByRequests.lean ====
section
/-!
PROOFS. Requests at homes, stashes and peers and what comes back keep the invariant (R123 to R190).
-/

namespace Sys2Proof.Proofs

open Sys2Proof Sys2Proof.Machine Sys2Proof.Claims

-- A default argument's tactic is read only when all declarations before are checked: proofs elaborated side by side would each
-- hold a waiting thread.
set_option Elab.async false

variable {K : Asked} {s : State}

/-! ## Answers -/

theorem Good.answerPeer {dev rid stamp v done wts err} (hs : Good K s) : Good K (s.answerPeer dev rid stamp v done wts err) := by
  unfold State.answerPeer
  exact hs.kept

theorem Good.replyLoad {who core delay r} (hs : Good K s) : Good K (s.replyLoad who core delay r) := by
  unfold State.replyLoad
  split
  · exact hs.answerPeer
  · exact hs.send

theorem Good.replyAtomic {who core delay r} (hs : Good K s) : Good K (s.replyAtomic who core delay r) := by
  unfold State.replyAtomic
  split
  · exact hs.answerPeer
  · exact hs.send

theorem Good.replyStore {who core delay op wts} (hs : Good K s) : Good K (s.replyStore who core delay op wts) := by
  unfold State.replyStore
  split
  · exact hs.answerPeer
  · exact hs.send

theorem Good.refuseStore {who core delay op r} (hs : Good K s) : Good K (s.refuseStore who core delay op r) := by
  unfold State.refuseStore
  split
  · exact hs.answerPeer
  · exact hs.send

theorem Good.signalPeer {dev arm wts} (hs : Good K s) : Good K (s.signalPeer dev arm wts) := by
  unfold State.signalPeer
  exact hs.kept

theorem Good.tellParked {who} (hs : Good K s) : Good K (s.tellParked who) := by
  unfold State.tellParked
  split
  · exact hs.kept
  · exact hs

theorem Good.signal {line delay wts} (hs : Good K s) : Good K (s.signal line delay wts) := by
  unfold State.signal
  refine hs.foldl fun s a hs => ?_
  split
  · exact hs.send
  · exact hs.signalPeer

/-! ## The home -/

theorem Good.applyRuns {line runs c} (hs : Good K s) : Good K (s.applyRuns line runs c).2 := by
  unfold State.applyRuns
  dsimp only
  refine Good.signal ?_
  refine Good.modLine ?_
  refine hs.foldl fun _ _ hs => ?_
  exact hs.homeWrite

theorem Good.applyStore {pa bs c} (hs : Good K s) : Good K (s.applyStore pa bs c).2 := hs.applyRuns

theorem Good.holdMsg {line m} (hs : Good K s) : Good K (s.holdMsg line m) := hs.modLine

theorem Good.release {line} (hs : Good K s) : Good K (s.release line) := by
  unfold State.release
  dsimp only
  refine hs.modLine.foldl fun _ _ hs => ?_
  exact hs.postAs GoodEvent.homeMsg

theorem Good.recallLine {line} (hs : Good K s) : Good K (s.recallLine line) := by
  unfold State.recallLine
  split
  · exact Good.ite hs hs.modLine.send
  · exact hs

theorem Good.spoilLine {line bad} (hs : Good K s) : Good K (s.spoilLine line bad) := by
  unfold State.spoilLine
  split
  · exact Good.ite hs.modLine.log hs
  · exact hs.modLine

theorem Good.endRegistration {line stamp fe data bad} (hs : Good K s) : Good K (s.endRegistration line stamp fe data bad) := by
  unfold State.endRegistration
  dsimp only
  refine Good.modLine ?_
  split
  · exact hs.homeWrite.modLine.spoilLine.signal
  · exact hs

theorem Good.asOf {turn} {f : State → State} (hs : Good K s) (hf : ∀ s, Good K s → Good K (f s)) : Good K (s.asOf turn f) := by
  unfold State.asOf
  refine (hf _ ?_).kept
  exact hs.kept

theorem Good.sendFill {tile idx line delay data fe stamp err} (hs : Good K s) : Good K (s.sendFill tile idx line delay data fe stamp err) :=
  hs.send

theorem Good.failLoad {a k r} (hs : Good K s) : Good K (s.failLoad a k r) := by
  unfold State.failLoad
  split
  · exact hs.sendFill
  · exact hs.replyLoad

theorem Good.register {a tile idx} (hs : Good K s) : Good K (s.register a tile idx) := by
  unfold State.register
  dsimp only
  exact hs.cacheLine.setLine.sendFill

theorem Good.grant {a k} (hs : Good K s) : Good K (s.grant a k) := by
  unfold State.grant
  dsimp only
  exact hs.cacheLine.setLine.replyLoad

theorem Good.homeLoad {a k} (hs : Good K s) : Good K (s.homeLoad a k) := by
  unfold State.homeLoad
  dsimp only
  split
  · exact hs.failLoad
  · refine Good.ite hs.holdMsg ?_
    split
    · exact hs.failLoad
    · split
      · exact Good.ite hs.grant hs.setLine.tellParked
      · split
        · exact Good.ite hs.register hs.holdMsg.recallLine
        · exact hs.send
        · exact hs.register
        · exact hs.grant

theorem Good.homeStore {a op data} (hs : Good K s) : Good K (s.homeStore a op data) := by
  unfold State.homeStore
  dsimp only
  split
  · exact hs.refuseStore
  · refine Good.ite hs.holdMsg ?_
    split
    · exact hs.refuseStore
    · exact Good.ite hs.holdMsg.recallLine hs.applyRuns.replyStore

theorem Good.failAtomic {a op delay r} (hs : Good K s) : Good K (s.failAtomic a op delay r) := Good.ite hs.refuseStore hs.replyAtomic

theorem Good.homeAtomic {a op o b d} (hs : Good K s) : Good K (s.homeAtomic a op o b d) := by
  unfold State.homeAtomic
  dsimp only
  split
  · exact hs.failAtomic
  · refine Good.ite hs.holdMsg ?_
    split
    · exact hs.failAtomic
    · refine Good.ite hs.holdMsg.recallLine ?_
      split
      · exact hs.applyStore.replyAtomic
      · exact hs.setLine.replyAtomic

theorem Good.publish {a} (hs : Good K s) : Good K (s.publish a) := by
  unfold State.publish
  dsimp only
  split
  · exact hs.failAtomic
  · refine Good.ite hs.holdMsg ?_
    split
    · exact hs.failAtomic
    · exact Good.ite hs.holdMsg.recallLine hs.applyStore.replyAtomic

/-! ## The stash -/

theorem Good.startFill {tile idx g} {u : State} (hs : Good K s) (h : s.startFill tile idx g = some u) : Good K u := by
  unfold State.startFill at h
  split at h
  · exact Option.some.inj h ▸ hs
  · split at h
    · cases h
    · exact Option.some.inj h ▸ hs.modTile.send

theorem Good.modStashLine {tile off f} (hs : Good K s) : Good K (s.modStashLine tile off f) := by
  unfold State.modStashLine
  split
  · exact hs.setStashLine
  · exact hs

theorem Good.stashSignal {tile off} (hs : Good K s) : Good K (s.stashSignal tile off) := by
  unfold State.stashSignal
  split
  · exact hs.signal
  · exact hs

theorem Good.stashWrite {tile off bs} (hs : Good K s) : Good K (s.stashWrite tile off bs) := hs.writeMem.modStashLine.stashSignal

theorem Good.setFull {tile off b} (hs : Good K s) : Good K (s.setFull tile off b) := hs.modStashLine

theorem Good.raiseStamp {tile off c} (hs : Good K s) : Good K (s.raiseStamp tile off c) := hs.modStashLine

theorem Good.fill8 {tile off v c} (hs : Good K s) : Good K (s.fill8 tile off v c) := hs.raiseStamp.setFull.stashWrite

theorem Good.empty8 {tile off} (hs : Good K s) : Good K (s.empty8 tile off) := hs.setFull.stashSignal

theorem Good.applyStash {tile off what c va} (hs : Good K s) : Good K (s.applyStash tile off what c va).2 := by
  unfold State.applyStash
  dsimp only
  refine Good.ite_snd ?_ ?_
  · exact hs
  · split
    · exact hs
    · exact hs.stashWrite
    · exact hs.stashWrite
    · exact hs.stashWrite.modStashLine
    · split
      · exact hs.stashWrite
      · exact hs
    · split
      · exact hs.empty8
      · exact hs
    · split
      · exact hs
      · exact hs.fill8
    · split
      · exact hs.empty8
      · exact hs
    · split
      · exact hs
      · exact hs.fill8
    · split
      · exact hs
      · exact hs.raiseStamp.setFull.stashSignal
    · split
      · exact hs.empty8
      · exact hs
    · exact hs.stashWrite
    · exact hs

theorem Good.answerStash {r old ok} (hs : Good K s) : Good K (s.answerStash r old ok) := by
  unfold State.answerStash
  dsimp only
  refine Good.ite hs.replyStore ?_
  split
  · exact hs.replyLoad
  · exact hs.replyAtomic

theorem Good.refuseStash {r e} (hs : Good K s) : Good K (s.refuseStash r e) := by
  unfold State.refuseStash
  dsimp only
  refine Good.ite hs.refuseStore ?_
  split
  · exact hs.replyLoad
  · exact hs.replyAtomic

theorem Good.completeOwn {r old} (hs : Good K s) : Good K (s.completeOwn r old) := by
  unfold State.completeOwn
  dsimp only
  split
  · refine hs.post ?_
    split <;> exact (fun _ => trivial)
  · split
    next th hth' =>
      split
      · split
        · split
          · exact hs.writeRegLate.retire (((hs.thread hth').raise).writeRegLate)
          · exact hs.retire ((hs.thread hth').raise)
        · exact hs
      · exact hs
    · exact hs
  · exact hs

theorem Good.drainWord {tile off fuel} (hs : Good K s) : Good K (s.drainWord tile off fuel) := by
  induction fuel generalizing s with
  | zero => exact hs
  | succ fuel ih =>
    unfold State.drainWord
    split
    · exact hs
    · dsimp only
      split
      next old ok u h =>
        have hu := Good.of_pair (hs.modTile.applyStash) h
        exact ih (Good.ite hu.completeOwn hu.answerStash)
      next u _ h => exact Good.of_pair (hs.modTile.applyStash) h

theorem Good.drain {tile off} (hs : Good K s) : Good K (s.drain tile off) := hs.drainWord

theorem Good.drainLine {tile idx} (hs : Good K s) : Good K (s.drainLine tile idx) := by
  unfold State.drainLine
  refine hs.foldl fun _ _ hs => ?_
  exact hs.drain

theorem Good.parkRequest {r} (hs : Good K s) : Good K (s.parkRequest r) := by
  unfold State.parkRequest
  dsimp only
  exact Good.ite (Good.ite hs.post hs.send) hs.modTile

theorem Good.answerReq {r old ok} (hs : Good K s) : Good K (s.answerReq r old ok) := Good.ite hs.completeOwn hs.answerStash

theorem Good.refuseReq {r e} (hs : Good K s) : Good K (s.refuseReq r e) := by
  unfold State.refuseReq
  split
  · split
    next th hth' => exact hs.trapHere (hs.thread hth')
    · exact hs
  · refine hs.post ?_
    split <;> exact (fun _ => trivial)
  · exact hs.refuseStash

theorem Good.remoteStash {r : StashReq} (hs : Good K s) : Good K (s.remoteStash r) := by
  unfold State.remoteStash
  dsimp only
  split
  · exact hs.refuseReq
  · split
    · exact hs.modTile.getD fun _ h => hs.modTile.startFill h
    · split
      · exact hs.refuseReq
      · split
        next h => exact (Good.of_pair hs.applyStash h).answerReq.drain
        next h => exact (Good.of_pair hs.applyStash h).refuseReq
        next h => exact (Good.of_pair hs.applyStash h).parkRequest

theorem Good.sendStashIn {delay r} (hs : Good K s) : Good K (s.sendStashIn delay r) := hs.send

theorem Good.sendStash {r} (hs : Good K s) : Good K (s.sendStash r) := hs.sendStashIn

theorem Good.awaitFill {t} {th : Thread} {i off va} (hs : Good K s) (hth : GoodThread K th) :
    Good K (s.awaitFill t th i off va) := by
  unfold State.awaitFill
  split
  next s hs' => exact (hs.startFill hs').await hth
  · exact hs.await hth

theorem Good.ownAccess {t} {th : Thread} {i off va what f park} (hs : Good K s) (hth : GoodThread K th)
    (hf : ∀ a0 a1 a2 a3, Good K a0 → GoodThread K a1 → Good K (f a0 a1 a2 a3))
    (hpark : ∀ a0 a1, Good K a0 → GoodThread K a1 → Good K (park a0 a1)) :
    Good K (s.ownAccess t th i off va what f park) := by
  unfold State.ownAccess
  dsimp only
  split
  · exact hs.awaitFill hth
  · refine Good.ite (hs.trapHere hth) ?_
    split
    next old ok s hold' => exact (hf _ _ _ _ (Good.of_pair hs.applyStash hold') hth.raise).drain
    next r s hr' => exact (Good.of_pair hs.applyStash hr').trapHere hth
    next s hs' => exact hpark _ _ (Good.of_pair hs.applyStash hs') hth

theorem Good.postWriteBack {tile idx l data drop op} (hs : Good K s) : Good K (s.postWriteBack tile idx l data drop op) := by
  unfold State.postWriteBack
  dsimp only
  refine hs.modTile.send ?_
  split <;> exact (fun _ => trivial)

theorem Good.writeBackRange {tile lo hi op} (hs : Good K s) : Good K (s.writeBackRange tile lo hi op) := by
  unfold State.writeBackRange
  refine hs.foldl fun _ _ hs => ?_
  exact hs.postWriteBack.setStashLine

theorem Good.dropRange {tile lo hi op} (hs : Good K s) : Good K (s.dropRange tile lo hi op) := by
  unfold State.dropRange
  refine hs.foldl fun _ _ hs => ?_
  exact hs.postWriteBack.dropStashLine

theorem Good.deadWriteBack {tile line op va} (hs : Good K s) : Good K (s.deadWriteBack tile line op va) := by
  unfold State.deadWriteBack
  dsimp only
  exact Good.ite hs.send hs.send.send

theorem Good.homeWriteBack {w} (hs : Good K s) : Good K (s.homeWriteBack w) := by
  unfold State.homeWriteBack
  dsimp only
  refine Good.ite hs.deadWriteBack ?_
  refine Good.send ?_
  split
  · split
    · exact hs.homeWrite.modLine.spoilLine.signal.modLine.release
    · exact hs.homeWrite.modLine.spoilLine.signal
  · exact hs

theorem Good.homeDrop {tile idx line reg op} (hs : Good K s) : Good K (s.homeDrop tile idx line reg op) := by
  unfold State.homeDrop
  dsimp only
  exact Good.ite hs.deadWriteBack ((Good.ite hs.modLine.release hs).send)

/-! ## Requests -/

theorem Good.gate {t} {th : Thread} {i f} (hs : Good K s) (hth : GoodThread K th)
    (hf : ∀ a0 a1, Good K a0 → GoodThread K a1 → Good K (f a0 a1)) :
    Good K (s.gate t th i f) := by
  unfold State.gate
  refine Good.ite (hf _ _ hs hth) ?_
  split
  next s hs' => exact (((Good.of_pair hs.flip hs').kept).post).await hth
  next s hs' => exact hf _ _ (Good.of_pair hs.flip hs') hth

theorem Good.takeRid (hs : Good K s) : Good K s.takeRid.2 := by
  unfold State.takeRid
  exact hs.kept

theorem Good.modConvoy {g c f} (hs : Good K s) : Good K (s.modConvoy g c f) := by
  unfold State.modConvoy
  exact hs.kept

theorem Good.countSent {g l dev} (hs : Good K s) : Good K (s.countSent g l dev) := by
  unfold State.countSent
  split
  · exact hs.modConvoy
  · exact hs

theorem Good.leavePeer {g o} (hs : Good K s) : Good K (s.leavePeer g o) := by
  unfold State.leavePeer
  dsimp only
  exact (Good.ite hs hs.countSent).kept

theorem Good.sendPeer {t} {th : Thread} {rid op dev va what} (hs : Good K s) : Good K (s.sendPeer t th rid op dev va what) :=
  hs.leavePeer

theorem Good.l1Fill {core x} (hs : Good K s) : Good K (s.l1Fill core x) := by
  unfold State.l1Fill
  dsimp only
  exact Good.ite hs.kept hs.kept

theorem Good.l2Fill {die x} (hs : Good K s) : Good K (s.l2Fill die x) := by
  unfold State.l2Fill
  dsimp only
  split
  · exact hs
  · exact hs.kept

theorem Good.l2Sample {die line g} (hs : Good K s) : Good K (s.l2Sample die line g) := Good.ite hs hs.modTile

theorem Good.l2Find {die line g c} {x : Copy} {u : State} (hs : Good K s) (h : s.l2Find die line g c = some (x, u)) : Good K u := by
  obtain ⟨y, -, hy⟩ := Option.map_eq_some_iff.mp h
  obtain ⟨-, rfl⟩ := Prod.mk.inj hy
  exact hs.kept

theorem Good.l1Drop {core line} (hs : Good K s) : Good K (s.l1Drop core line) := by
  unfold State.l1Drop
  exact hs.kept

theorem Good.landLoad {t} {th : Thread} {l v late} (hs : Good K s) (hth : GoodThread K th) :
    Good K (s.landLoad t th l v late) := by
  unfold State.landLoad
  dsimp only
  split
  · refine Good.retire ?_ ?_
    · split
      · exact hs.writeRegLate
      · exact hs.writeReg
    · split
      · exact hth.writeRegLate
      · exact hth.writeReg
  · exact hs.retire hth.kept

theorem Good.loadGlobal {t} {th : Thread} {i va pa l} (hs : Good K s) (hth : GoodThread K th) :
    Good K (s.loadGlobal t th i va pa l) := by
  unfold State.loadGlobal
  dsimp only
  split
  · refine hs.gate hth (fun _ _ hs hth => ?_)
    exact hs.takeRid.send.await hth
  · split
    · exact hs.landLoad hth.raise
    · split
      next x s hx' => exact ((((Good.ite hs hs.l2Sample).l2Find hx').takeRid).send).await hth
      · refine (Good.ite hs hs.l2Sample).gate hth (fun _ _ hs hth => ?_)
        exact hs.takeRid.send.await hth

theorem Good.load {t} {th : Thread} {i l} (hs : Good K s) (hth : GoodThread K th) : Good K (s.load t th i l) := by
  unfold State.load
  dsimp only
  refine hs.access hth (fun s th x hs hth => ?_)
  refine Good.ite (hs.await hth) ?_
  split
  · exact hs.landLoad hth
  · exact hs.ownAccess hth (fun _ _ _ _ hs hth => hs.landLoad hth) (fun _ _ hs hth => hs.setThread hth)
  · exact hs.loadGlobal hth
  · refine hs.gate hth (fun _ _ hs hth => ?_)
    exact hs.takeRid.sendStash.await hth
  · refine hs.gate hth (fun _ _ hs hth => ?_)
    exact hs.takeRid.sendPeer.await hth
  · refine hs.gate hth (fun _ _ hs hth => ?_)
    exact hs.takeRid.sendPeer.await hth

theorem Good.tagNow {t} {th : Thread} {va n} (hs : Good K s) : Good K (s.tagNow t th va n).1 := by
  unfold State.tagNow
  dsimp only
  exact hs.takeTag

theorem GoodThread.tagNow {t} {th : Thread} {va n} (hth : GoodThread K th) : GoodThread K (s.tagNow t th va n).2 := by
  unfold State.tagNow
  exact hth.tagged

theorem Good.store {t} {th : Thread} {i va n v} (hs : Good K s) (hth : GoodThread K th) : Good K (s.store t th i va n v) := by
  unfold State.store
  dsimp only
  refine hs.access hth (fun s th x hs hth => ?_)
  refine Good.ite (hs.await hth) ?_
  split
  · exact hs.tagNow.writeMem.retire hth.tagNow
  · refine hs.ownAccess hth (fun _ _ _ _ hs hth => ?_) (fun _ _ hs hth => hs.setThread hth)
    exact hs.tagNow.retire hth.tagNow
  · refine hs.gate hth (fun _ _ hs hth => ?_)
    exact hs.takeTag.l1Drop.send.retire hth.tagged
  · refine hs.gate hth (fun _ _ hs hth => ?_)
    exact hs.takeTag.sendStash.retire hth.tagged
  · refine hs.gate hth (fun _ _ hs hth => ?_)
    exact hs.takeTag.sendPeer.retire hth.tagged
  · refine hs.gate hth (fun _ _ hs hth => ?_)
    exact hs.takeTag.sendPeer.retire hth.tagged

theorem Good.atomic {t} {th : Thread} {i va n op b dv d} (hs : Good K s) (hth : GoodThread K th) :
    Good K (s.atomic t th i va n op b dv d) := by
  unfold State.atomic
  dsimp only
  refine hs.access hth (fun s th x hs hth => ?_)
  refine Good.ite (hs.await hth) ?_
  split
  · refine hs.ownAccess hth (fun _ _ _ _ hs hth => ?_) (fun _ _ hs hth => hs.setThread hth)
    exact hs.tagNow.result hth.tagNow
  · refine hs.gate hth (fun _ _ hs hth => ?_)
    exact Good.ite (hs.takeTag.takeRid.send.retire hth.tagged) (hs.takeTag.takeRid.send.await hth.tagged)
  · refine hs.gate hth (fun s th hs hth => ?_)
    split
    · exact hs.takeTag.takeRid.sendStash.retire hth.tagged
    · exact hs.takeTag.takeRid.sendStash.await hth.tagged
  · refine hs.gate hth (fun _ _ hs hth => ?_)
    exact Good.ite (hs.takeTag.takeRid.sendPeer.retire hth.tagged) (hs.takeTag.takeRid.sendPeer.await hth.tagged)
  · refine hs.gate hth (fun _ _ hs hth => ?_)
    exact Good.ite (hs.takeTag.takeRid.sendPeer.retire hth.tagged) (hs.takeTag.takeRid.sendPeer.await hth.tagged)
  · exact hs.protection hth

/-! ## Waits that are broken off -/

theorem Good.unparkSum {t mine} (hs : Good K s) : Good K (s.unparkSum t mine) := by
  unfold State.unparkSum
  dsimp only
  exact hs.kept

theorem Good.withdrawArrival {th : Thread} {k} (hs : Good K s) : Good K (s.withdrawArrival th k) := by
  unfold State.withdrawArrival
  exact hs.kept

theorem Good.breakWait {t} {th : Thread} {u : State} (hs : Good K s) (h : s.breakWait t th = some u) : Good K u := by
  unfold State.breakWait at h
  split at h
  · split at h
    · cases h
    · exact Option.some.inj h ▸ hs.withdrawArrival
  iterate 6
    · exact Option.some.inj h ▸ hs.unparkSum
  · exact Option.some.inj h ▸ hs

theorem Good.withdraw {t} {th : Thread} {rid va} (hs : Good K s) (hth : GoodThread K th) : Good K (s.withdraw t th rid va) := by
  unfold State.withdraw
  dsimp only
  refine Good.ite (hs.filterAgenda.kept.takePending hth) ?_
  refine Good.ite hs ?_
  split
  · exact (hs.setThread hth.kept).send
  · exact (hs.setThread hth.kept).sendPeer
  · exact (hs.setThread hth.kept).post

theorem Good.wakeForEvent {t} (hs : Good K s) : Good K (s.wakeForEvent t) := by
  unfold State.wakeForEvent
  split
  next th h =>
    split
    · split
      · exact hs.withdraw (hs.thread h)
      · split
        next e th' u he hu => exact (hs.breakWait hu).takeEvent ((hs.thread h).unissued.nextEvent he)
        · exact hs
    · exact hs
  · exact hs

theorem Good.loseAccess {t launch e addr data} (hs : Good K s) : Good K (s.loseAccess t launch e addr data) := by
  unfold State.loseAccess
  split
  next th hth' =>
    split
    · exact hs.log.modLaunch (fun _ hl => hl.blame)
    · exact (hs.setThread ((hs.thread hth').kept)).wakeForEvent
  · exact hs.log.modLaunch (fun _ hl => hl.blame)

end Sys2Proof.Proofs
end

