-- ==== Sys2Proof/Proofs/KeptByCompute.lean ====
section
/-!
PROOFS. Atomics, gathers, banks, barriers, integer instructions and branches keep the invariant (R60 to R75, R137).
-/

namespace Sys2Proof.Proofs

open Sys2Proof Sys2Proof.Machine Sys2Proof.Claims

-- A default argument's tactic is read only when all declarations before are checked: proofs elaborated side by side would each
-- hold a waiting thread.
set_option Elab.async false

variable {K : Asked} {s : State}

/-! ## Atomics and gather reductions -/

theorem Good.amo {i op w d a b} (hs : Good K s) : Answers K s (amo i op w d a b s) :=
  hs.onThread (fun _ _ hth => hs.atomic hth)

theorem Good.execAmoAdd {w d a b} (hs : Good K s) : Answers K s (execAmoAdd w d a b s) := hs.amo

theorem Good.execAmoAnd {w d a b} (hs : Good K s) : Answers K s (execAmoAnd w d a b s) := hs.amo

theorem Good.execAmoOr {w d a b} (hs : Good K s) : Answers K s (execAmoOr w d a b s) := hs.amo

theorem Good.execAmoXor {w d a b} (hs : Good K s) : Answers K s (execAmoXor w d a b s) := hs.amo

theorem Good.execAmoMin {w d a b} (hs : Good K s) : Answers K s (execAmoMin w d a b s) := hs.amo

theorem Good.execAmoMax {w d a b} (hs : Good K s) : Answers K s (execAmoMax w d a b s) := hs.amo

theorem Good.execAmoMinu {w d a b} (hs : Good K s) : Answers K s (execAmoMinu w d a b s) := hs.amo

theorem Good.execAmoMaxu {w d a b} (hs : Good K s) : Answers K s (execAmoMaxu w d a b s) := hs.amo

theorem Good.execAmoSwap {w d a b} (hs : Good K s) : Answers K s (execAmoSwap w d a b s) := hs.amo

theorem Good.execAmoCas {w d a b} (hs : Good K s) : Answers K s (execAmoCas w d a b s) := hs.amo

theorem Good.execAmoFadd {d a b} (hs : Good K s) : Answers K s (execAmoFadd d a b s) := hs.amo

theorem Good.gatherCheck {th : Thread} {align pos vas g} (hs : Good K s) : Good K (s.gatherCheck th align pos vas g).2.2 := by
  induction vas generalizing s pos g with
  | nil => exact hs
  | cons va vas ih =>
    have hlook : ∀ {c u}, (match KMap.get? g.pas pos with
        | some pa => (Check.ok (.global (BitVec.ofNat 64 (low56 va)) pa), s)
        | none => s.check th va { n := g.width, align := align, kind := kindData, write := false }) = (c, u) → Good K u := by
      intro c u h
      split at h
      · exact (Prod.mk.inj h).2 ▸ hs
      · exact Good.of_pair hs.check h
    unfold State.gatherCheck
    dsimp only
    split
    next x u h =>
      have hrest := fun g => ih (pos := pos + 1) (g := g) (hlook h)
      split
      next h => exact (congrArg (fun p => Good K p.2.2) h).mp (hrest _)
      next => exact hrest _
    next c u _ h => exact hlook h

theorem Good.gatherSend {t} {th : Thread} {list force x rid va n} (hs : Good K s) : Good K (s.gatherSend t th list force x rid va n) := by
  unfold State.gatherSend
  dsimp only
  split
  · split
    next c u h =>
      split at h
      · cases h
      · exact (hs.l2Sample.l2Find h).send
    · exact (Good.ite hs hs.l2Sample).send
  · exact hs.sendStashIn
  · exact hs.sendPeer
  · exact hs.sendPeer
  · exact hs

theorem Good.gatherIssue {t} {th : Thread} {pos l g} (hs : Good K s) : Good K (s.gatherIssue t th pos l g).1 := by
  induction l generalizing s th pos g with
  | nil => exact hs
  | cons a l ih =>
    obtain ⟨va, x⟩ := a
    unfold State.gatherIssue
    split
    · exact ih hs
    · exact ih hs.gatherSend

theorem GoodThread.gatherIssue {t} {th : Thread} {pos l g} (hth : GoodThread K th) : GoodThread K (s.gatherIssue t th pos l g).2.1 := by
  induction l generalizing s th pos g with
  | nil => exact hth
  | cons a l ih =>
    obtain ⟨va, x⟩ := a
    unfold State.gatherIssue
    split
    · exact ih hth.raise
    · exact ih hth

theorem Good.gathered {t} {th : Thread} {g} (hs : Good K s) (hth : GoodThread K th) : Good K (s.gathered t th g) :=
  hs.post.await hth

theorem GoodThread.gathers {th : Thread} {g} (hth : GoodThread K th) : GoodThread K (th.gathers g) := by
  unfold Thread.gathers
  exact hth.kept

theorem GoodThread.touched {th : Thread} {xs : List Target} (hth : GoodThread K th) : GoodThread K (xs.foldl Thread.touching th) := by
  induction xs generalizing th with
  | nil => exact hth
  | cons x xs ih => exact ih hth.touching

theorem Good.gatherRun {t fuel} {th : Thread} {g} (hs : Good K s) (hth : GoodThread K th) : Good K (s.gatherRun t fuel th g) := by
  induction fuel generalizing s th g with
  | zero => exact hs.await hth
  | succ fuel ih =>
    have hcheck : ∀ align pos, Good K (s.gatherCheck th align pos g.addrs g).2.2 := fun _ _ => hs.gatherCheck
    unfold State.gatherRun
    split
    next h => exact (Good.of_triple (hcheck _ _) h).trapHere hth
    next h => exact (Good.of_triple (hcheck _ _) h).awaitTlb hth.gathers
    next h => exact (Good.of_triple (hcheck _ _) h).await hth.gathers
    next xs g' u h =>
      have hu := Good.of_triple (hcheck _ _) h
      have hth' := hth.touched (xs := xs)
      dsimp only
      split
      · exact hu.await hth'.gathers
      · split
        · exact hu.trapHere hth'
        · split
          · exact hu.awaitFill hth'.gathers
          · have hgo : ∀ (u : State) (th : Thread) (g : Gather) l, Good K u → GoodThread K th → Good K (
                let (s, th, g) := ({ u with nextRid := u.nextRid + g.addrs.length } : State).gatherIssue t th 0 l { g with base := u.nextRid }
                if g.got.length < g.addrs.length then s.await t th (.gather g)
                else match g.next with
                  | .phase g => s.gatherRun t fuel th g
                  | .illegal => s.illegalState t th
                  | .result v => if g.atOnce && !th.replay then s.result t th g.d v else s.gathered t th g) := by
              intro u th g l hu hth
              have hv : Good K ({ u with nextRid := u.nextRid + g.addrs.length } : State) := hu.kept
              dsimp only
              split
              · exact hv.gatherIssue.await hth.gatherIssue
              · split
                · exact ih hv.gatherIssue hth.gatherIssue
                · exact hv.gatherIssue.illegalState hth.gatherIssue
                · exact Good.ite (hv.gatherIssue.result hth.gatherIssue) (hv.gatherIssue.gathered hth.gatherIssue)
            split
            · exact hu.gate hth'.gathers fun _ _ hs hth => hgo _ _ _ _ hs hth
            · exact hgo _ _ _ _ hu hth'

theorem Good.gred {i op w d a b} (hs : Good K s) : Answers K s (gred i op w d a b s) := by
  unfold Machine.gred
  dsimp only
  exact hs.onThread (fun _ _ hth => Good.ite (hs.misaligned hth) (Good.ite (hs.misaligned hth) (hs.gatherRun hth)))

theorem Good.execGredAdd {w d a b} (hs : Good K s) : Answers K s (execGredAdd w d a b s) := hs.gred

theorem Good.execGredMin {w d a b} (hs : Good K s) : Answers K s (execGredMin w d a b s) := hs.gred

theorem Good.execGredMax {w d a b} (hs : Good K s) : Answers K s (execGredMax w d a b s) := hs.gred

theorem Good.execGredMinu {w d a b} (hs : Good K s) : Answers K s (execGredMinu w d a b s) := hs.gred

theorem Good.execGredMaxu {w d a b} (hs : Good K s) : Answers K s (execGredMaxu w d a b s) := hs.gred

theorem Good.execGredFadd {d a b} (hs : Good K s) : Answers K s (execGredFadd d a b s) := hs.gred

theorem Good.gatherArrive {t} {th : Thread} {g rid v wts} (hs : Good K s) (hth : GoodThread K th) :
    Good K (s.gatherArrive t th g rid v wts) := by
  unfold State.gatherArrive
  dsimp only
  refine Good.ite (hs.await hth.raise) ?_
  split
  · exact hs.gatherRun hth.raise.kept
  · exact hs.illegalState hth.raise
  · exact hs.gathered hth.raise

theorem Good.execGatherReductionComplete {t} (hs : Good K s) :
    Goes K (execGatherReductionComplete { s with event := some (.gatherReductionComplete t) }) := by
  refine hs.onEvent fun s hs => ⟨_, rfl, ?_⟩
  dsimp only
  split
  next th h =>
    split
    · split
      · exact hs.writeRegLate.retire (hs.thread h).writeRegLate
      · exact hs
    · exact hs
  · exact hs

/-! ## Banks -/

theorem Good.tagWriteBacks {t} {th : Thread} {va len left} (hs : Good K s) : Good K (s.tagWriteBacks t th va len left).1 := by
  unfold State.tagWriteBacks
  dsimp only
  exact hs.takeTag.kept

theorem Good.remap {t} {th : Thread} {va block e} (hs : Good K s) : Good K (s.remap t th va block e).1 := by
  unfold State.remap
  dsimp only
  exact hs.tagWriteBacks.dropRange.modTile

theorem GoodThread.remap {t} {th : Thread} {va block e} (hth : GoodThread K th) : GoodThread K (s.remap t th va block e).2 := by
  unfold State.remap
  dsimp only
  exact hth.tagged

theorem Good.execSmap {d a b} (hs : Good K s) : Answers K s (execSmap d a b s) := by
  unfold Machine.execSmap
  dsimp only
  refine hs.onThread (fun t th hth => ?_)
  refine Good.ite (hs.misaligned hth) ?_
  refine Good.ite (hs.misaligned hth) ?_
  refine Good.ite (hs.protection hth) ?_
  refine Good.ite (hs.protection hth) ?_
  refine Good.ite (hs.protection hth) ?_
  refine hs.access hth (fun s th x hs hth => ?_)
  split
  · refine Good.ite (hs.protection hth) ?_
    refine Good.ite (hs.protection hth) ?_
    refine Good.ite (hs.protection hth) ?_
    split
    · exact hs.protection hth
    · exact Good.ite (hs.result hth) (Good.ite (hs.result hth) (hs.remap.result hth.remap))
  · exact hs.protection hth

theorem Good.execSunmap {a} (hs : Good K s) : Answers K s (execSunmap a s) := by
  unfold Machine.execSunmap
  dsimp only
  refine hs.onThread (fun t th hth => ?_)
  split
  · exact hs.trapHere hth
  · exact Good.ite (hs.protection hth) (Good.ite (hs.illegalState hth) (hs.remap.retire hth.remap))

theorem Good.execSwb {a b} (hs : Good K s) : Answers K s (execSwb a b s) := by
  unfold Machine.execSwb
  dsimp only
  refine hs.onThread (fun t th hth => ?_)
  split
  · exact hs.trapHere hth
  · exact Good.ite (hs.protection hth) (hs.tagWriteBacks.writeBackRange.retire hth.tagged)

theorem Good.lockIn {k} (hs : Good K s) : Good K (s.lockIn k) := by
  unfold State.lockIn
  dsimp only
  exact hs.kept

theorem Good.execSlock {d a b} (hs : Good K s) : Answers K s (execSlock d a b s) := by
  unfold Machine.execSlock
  dsimp only
  refine hs.onThread (fun t th hth => ?_)
  split
  · exact hs.protection hth
  · refine Good.ite (hs.await hth) ?_
    refine Good.ite (hs.post.await hth) ?_
    refine Good.result ?_ hth
    split
    · refine hs.foldl fun _ _ hs => ?_
      exact hs.lockIn
    · exact hs

theorem Good.execSunlock {a b} (hs : Good K s) : Answers K s (execSunlock a b s) := by
  unfold Machine.execSunlock
  dsimp only
  refine hs.onThread (fun t th hth => ?_)
  split
  · exact hs.protection hth
  · exact hs.kept.retire hth

/-! ## Barriers -/

theorem Good.setBarObj {tile off o} (hs : Good K s) : Good K (s.setBarObj tile off o) := hs.stashWrite

theorem Good.setStamps {tile off x} (hs : Good K s) : Good K (s.setStamps tile off x) := hs.modTile

theorem Good.raiseBar {tile off c} (hs : Good K s) : Good K (s.raiseBar tile off c) := by
  unfold State.raiseBar
  dsimp only
  exact hs.setStamps

theorem GoodThread.setBrec {th : Thread} {r} (hth : GoodThread K th) : GoodThread K (th.setBrec r) := by
  unfold Thread.setBrec
  exact hth.kept

theorem GoodThread.touchBrec {th : Thread} {a p} (hth : GoodThread K th) : GoodThread K (th.touchBrec a p) := by
  unfold Thread.touchBrec
  split <;> exact hth.setBrec

theorem Good.finishWait {t} {th : Thread} {tile off a r} (hs : Good K s) (hth : GoodThread K th) :
    Good K (s.finishWait t th tile off a r) := by
  unfold State.finishWait
  dsimp only
  split
  · exact (Good.ite hs.setBarObj hs).retire hth.raise.setBrec
  · exact hs.await hth

theorem Good.testBar {tile off} (hs : Good K s) : Good K (s.testBar tile off) := by
  unfold State.testBar
  dsimp only
  split
  · split
    · refine hs.setBarObj.setStamps.foldl fun s p hs => ?_
      split
      next th hth' =>
        split
        · split
          · exact hs.finishWait (hs.thread hth')
          · exact hs
        · exact hs
      · exact hs
    · exact hs
  · exact hs

theorem Good.credit {tile off bytes c} (hs : Good K s) : Good K (s.credit tile off bytes c) := by
  unfold State.credit
  split
  · exact hs.setBarObj.raiseBar.testBar
  · exact hs

theorem Good.barrierOp {i regs a f} (hs : Good K s)
    (hf : ∀ a0 a1 a2 a3 a4 a5 a6, Good K a0 → GoodThread K a2 → Good K (f a0 a1 a2 a3 a4 a5 a6)) :
    Answers K s (barrierOp i regs a f s) := by
  unfold Machine.barrierOp
  dsimp only
  refine hs.onThread (fun t th hth => ?_)
  split
  · exact hs.trapHere hth
  · refine Good.ite (hs.protection hth) ?_
    split
    · exact hs.awaitFill hth
    · refine Good.ite (hs.trapHere hth) ?_
      split
      · exact hs.illegalState hth
      · exact hf _ _ _ _ _ _ _ hs hth

theorem Good.execBinit {a b} (hs : Good K s) : Answers K s (execBinit a b s) := by
  unfold Machine.execBinit
  dsimp only
  refine hs.barrierOp (fun s t th tile off va o hs hth => ?_)
  split
  · exact hs.illegalState hth
  · exact Good.ite (hs.illegalState hth) (hs.setBarObj.setStamps.retire hth.setBrec)

theorem Good.execBexpect {a b} (hs : Good K s) : Answers K s (execBexpect a b s) := by
  unfold Machine.execBexpect
  dsimp only
  refine hs.barrierOp (fun _ _ _ _ _ _ _ hs hth => ?_)
  exact Good.ite (hs.illegalState hth) (((hs.retire hth.touchBrec).setBarObj).testBar)

theorem Good.execBarrive {a b} (hs : Good K s) : Answers K s (execBarrive a b s) := by
  unfold Machine.execBarrive
  refine hs.barrierOp (fun s t th tile off va o hs hth => ?_)
  split
  · refine Good.ite (hs.illegalState hth) ?_
    split
    · exact hs.illegalState hth
    · exact Good.ite (hs.retire hth.setBrec) ((((hs.retire hth.setBrec).setBarObj).raiseBar).testBar)
  · exact (hs.retire hth.touchBrec).credit

theorem Good.execBwait {dl a} (hs : Good K s) : Answers K s (execBwait dl a s) := by
  unfold Machine.execBwait
  refine hs.barrierOp (fun s t th tile off va o hs hth => ?_)
  split
  · exact hs.illegalState hth
  · exact Good.ite (hs.finishWait hth) (Good.ite (hs.trapHere hth) (hs.await hth))

theorem Good.execBtest {d a} (hs : Good K s) : Answers K s (execBtest d a s) := by
  unfold Machine.execBtest
  dsimp only
  refine hs.barrierOp (fun s t th tile off va o hs hth => ?_)
  split
  · exact hs.result hth
  · refine hs.result ?_
    split
    · exact hth.raise
    · exact hth

theorem Good.execDeadlineLate {t} (hs : Good K s) : Goes K (execDeadlineLate { s with event := some (.deadlineLate t) }) := by
  refine hs.onEvent fun s hs => ⟨_, rfl, ?_⟩
  dsimp only
  split
  next th h =>
    split
    · exact Good.ite (hs.trapHere (hs.thread h)) hs
    · exact hs
  · exact hs

/-! ## Integer instructions -/

theorem Good.divide {d a b zero f} (hs : Good K s) : Answers K s (divide d a b zero f s) :=
  hs.onThread (fun _ _ hth => Good.ite (hs.trapHere hth) (hs.result hth))

theorem Good.execAdd {d a b} (hs : Good K s) : Answers K s (execAdd d a b s) := hs.alu2

theorem Good.execSub {d a b} (hs : Good K s) : Answers K s (execSub d a b s) := hs.alu2

theorem Good.execAnd {d a b} (hs : Good K s) : Answers K s (execAnd d a b s) := hs.alu2

theorem Good.execOr {d a b} (hs : Good K s) : Answers K s (execOr d a b s) := hs.alu2

theorem Good.execXor {d a b} (hs : Good K s) : Answers K s (execXor d a b s) := hs.alu2

theorem Good.execAndn {d a b} (hs : Good K s) : Answers K s (execAndn d a b s) := hs.alu2

theorem Good.execOrn {d a b} (hs : Good K s) : Answers K s (execOrn d a b s) := hs.alu2

theorem Good.execXnor {d a b} (hs : Good K s) : Answers K s (execXnor d a b s) := hs.alu2

theorem Good.execAddW {d a b} (hs : Good K s) : Answers K s (execAddW d a b s) := hs.alu2

theorem Good.execSubW {d a b} (hs : Good K s) : Answers K s (execSubW d a b s) := hs.alu2

theorem Good.execAdds {d a b} (hs : Good K s) : Answers K s (execAdds d a b s) := hs.alu2

theorem Good.execSubs {d a b} (hs : Good K s) : Answers K s (execSubs d a b s) := hs.alu2

theorem Good.execMin {d a b} (hs : Good K s) : Answers K s (execMin d a b s) := hs.alu2

theorem Good.execMax {d a b} (hs : Good K s) : Answers K s (execMax d a b s) := hs.alu2

theorem Good.execMinu {d a b} (hs : Good K s) : Answers K s (execMinu d a b s) := hs.alu2

theorem Good.execMaxu {d a b} (hs : Good K s) : Answers K s (execMaxu d a b s) := hs.alu2

theorem Good.execAddi {d a i} (hs : Good K s) : Answers K s (execAddi d a i s) := hs.alu1

theorem Good.execAndi {d a i} (hs : Good K s) : Answers K s (execAndi d a i s) := hs.alu1

theorem Good.execOri {d a i} (hs : Good K s) : Answers K s (execOri d a i s) := hs.alu1

theorem Good.execXori {d a i} (hs : Good K s) : Answers K s (execXori d a i s) := hs.alu1

theorem Good.execAddiW {d a i} (hs : Good K s) : Answers K s (execAddiW d a i s) := hs.alu1

theorem Good.execSlti {d a i} (hs : Good K s) : Answers K s (execSlti d a i s) := hs.alu1

theorem Good.execSltiu {d a i} (hs : Good K s) : Answers K s (execSltiu d a i s) := hs.alu1

theorem Good.execSll {d a b} (hs : Good K s) : Answers K s (execSll d a b s) := hs.alu2

theorem Good.execSrl {d a b} (hs : Good K s) : Answers K s (execSrl d a b s) := hs.alu2

theorem Good.execSra {d a b} (hs : Good K s) : Answers K s (execSra d a b s) := hs.alu2

theorem Good.execRol {d a b} (hs : Good K s) : Answers K s (execRol d a b s) := hs.alu2

theorem Good.execRor {d a b} (hs : Good K s) : Answers K s (execRor d a b s) := hs.alu2

theorem Good.execSllW {d a b} (hs : Good K s) : Answers K s (execSllW d a b s) := hs.alu2

theorem Good.execSrlW {d a b} (hs : Good K s) : Answers K s (execSrlW d a b s) := hs.alu2

theorem Good.execSraW {d a b} (hs : Good K s) : Answers K s (execSraW d a b s) := hs.alu2

theorem Good.execSlli {d a n} (hs : Good K s) : Answers K s (execSlli d a n s) := hs.alu1

theorem Good.execSrli {d a n} (hs : Good K s) : Answers K s (execSrli d a n s) := hs.alu1

theorem Good.execSrai {d a n} (hs : Good K s) : Answers K s (execSrai d a n s) := hs.alu1

theorem Good.execRori {d a n} (hs : Good K s) : Answers K s (execRori d a n s) := hs.alu1

theorem Good.execBext {d a b} (hs : Good K s) : Answers K s (execBext d a b s) := hs.alu2

theorem Good.execBexts {d a b} (hs : Good K s) : Answers K s (execBexts d a b s) := hs.alu2

theorem Good.execBins {d a b} (hs : Good K s) : Answers K s (execBins d a b s) := hs.alu3

theorem Good.execClz {d a} (hs : Good K s) : Answers K s (execClz d a s) := hs.alu1

theorem Good.execCtz {d a} (hs : Good K s) : Answers K s (execCtz d a s) := hs.alu1

theorem Good.execPopc {d a} (hs : Good K s) : Answers K s (execPopc d a s) := hs.alu1

theorem Good.execRev8 {d a} (hs : Good K s) : Answers K s (execRev8 d a s) := hs.alu1

theorem Good.execSlt {d a b} (hs : Good K s) : Answers K s (execSlt d a b s) := hs.alu2

theorem Good.execSltu {d a b} (hs : Good K s) : Answers K s (execSltu d a b s) := hs.alu2

theorem Good.execSeq {d a b} (hs : Good K s) : Answers K s (execSeq d a b s) := hs.alu2

theorem Good.execSne {d a b} (hs : Good K s) : Answers K s (execSne d a b s) := hs.alu2

theorem Good.execSle {d a b} (hs : Good K s) : Answers K s (execSle d a b s) := hs.alu2

theorem Good.execSleu {d a b} (hs : Good K s) : Answers K s (execSleu d a b s) := hs.alu2

theorem Good.execSel {d a b q} (hs : Good K s) : Answers K s (execSel d a b q s) := by
  unfold Machine.execSel
  refine hs.onThread (fun t th hth => ?_)
  split
  · exact hs.result hth
  · exact hs.illegalState hth

theorem Good.execMul {d a b} (hs : Good K s) : Answers K s (execMul d a b s) := hs.alu2

theorem Good.execMulh {d a b} (hs : Good K s) : Answers K s (execMulh d a b s) := hs.alu2

theorem Good.execMulhu {d a b} (hs : Good K s) : Answers K s (execMulhu d a b s) := hs.alu2

theorem Good.execMulhsu {d a b} (hs : Good K s) : Answers K s (execMulhsu d a b s) := hs.alu2

theorem Good.execMulW {d a b} (hs : Good K s) : Answers K s (execMulW d a b s) := hs.alu2

theorem Good.execDiv {d a b} (hs : Good K s) : Answers K s (execDiv d a b s) := hs.divide

theorem Good.execDivu {d a b} (hs : Good K s) : Answers K s (execDivu d a b s) := hs.divide

theorem Good.execRem {d a b} (hs : Good K s) : Answers K s (execRem d a b s) := hs.divide

theorem Good.execRemu {d a b} (hs : Good K s) : Answers K s (execRemu d a b s) := hs.divide

theorem Good.execDivW {d a b} (hs : Good K s) : Answers K s (execDivW d a b s) := hs.divide

theorem Good.execRemW {d a b} (hs : Good K s) : Answers K s (execRemW d a b s) := hs.divide

theorem Good.execLui {d i} (hs : Good K s) : Answers K s (execLui d i s) := hs.onThread (fun _ _ hth => hs.result hth)

theorem Good.execAdr {d i} (hs : Good K s) : Answers K s (execAdr d i s) := hs.onThread (fun _ _ hth => hs.result hth)

theorem Good.execMov16 {d s} {st : State} (hst : Good K st) : Answers K st (execMov16 d s st) :=
  hst.alu2

theorem Good.execAddi16 {d i} (hs : Good K s) : Answers K s (execAddi16 d i s) := hs.alu1

theorem Good.execAdd16 {d s} {st : State} (hst : Good K st) : Answers K st (execAdd16 d s st) :=
  hst.alu2

theorem Good.execSub16 {d s} {st : State} (hst : Good K st) : Answers K st (execSub16 d s st) :=
  hst.alu2

theorem Good.execAnd16 {d s} {st : State} (hst : Good K st) : Answers K st (execAnd16 d s st) :=
  hst.alu2

theorem Good.execOr16 {d s} {st : State} (hst : Good K st) : Answers K st (execOr16 d s st) := hst.alu2

theorem Good.execXor16 {d s} {st : State} (hst : Good K st) : Answers K st (execXor16 d s st) :=
  hst.alu2

theorem Good.execSlt16 {d s} {st : State} (hst : Good K st) : Answers K st (execSlt16 d s st) :=
  hst.alu2

theorem Good.execSltu16 {d s} {st : State} (hst : Good K st) : Answers K st (execSltu16 d s st) :=
  hst.alu2

theorem Good.execSlli16 {d n} (hs : Good K s) : Answers K s (execSlli16 d n s) := hs.alu1

theorem Good.execSrli16 {d n} (hs : Good K s) : Answers K s (execSrli16 d n s) := hs.alu1

theorem Good.execSrai16 {d n} (hs : Good K s) : Answers K s (execSrai16 d n s) := hs.alu1

theorem Good.execNop16 (hs : Good K s) : Answers K s (execNop16 s) := hs.onThread (fun _ _ hth => hs.retire hth)

theorem Good.withHalf {t} {th : Thread} {i va f} (hs : Good K s) (hth : GoodThread K th) (hf : ∀ a0 a1, Good K a0 → Good K (f a0 a1)) :
    Good K (s.withHalf t th i va f) := by
  unfold State.withHalf
  split
  · exact hf _ _ hs.translate
  · exact hs.trapHere hth
  · exact hs.awaitTlb hth

/-! ## Branches and jumps -/

theorem Good.branch {n len regs} {o : BitVec n} {cond} (hs : Good K s) (hlen : len % 2 = 0 := by rfl) : Answers K s (branch len regs o cond s) :=
  hs.onThread (fun _ _ hth => Good.ite (hs.setThread (hth.jumpTo fun hk => even_branchTarget (hth.pc hk))) (hs.retire hth)) hlen

theorem Good.cmpBranch {a b o rel} (hs : Good K s) : Answers K s (cmpBranch a b o rel s) := hs.branch

theorem Good.execBeq {a b o} (hs : Good K s) : Answers K s (execBeq a b o s) := hs.cmpBranch

theorem Good.execBne {a b o} (hs : Good K s) : Answers K s (execBne a b o s) := hs.cmpBranch

theorem Good.execBlt {a b o} (hs : Good K s) : Answers K s (execBlt a b o s) := hs.cmpBranch

theorem Good.execBge {a b o} (hs : Good K s) : Answers K s (execBge a b o s) := hs.cmpBranch

theorem Good.execBltu {a b o} (hs : Good K s) : Answers K s (execBltu a b o s) := hs.cmpBranch

theorem Good.execBgeu {a b o} (hs : Good K s) : Answers K s (execBgeu a b o s) := hs.cmpBranch

theorem Good.guardBranch {q o want} (hs : Good K s) : Answers K s (guardBranch q o want s) := by
  unfold Machine.guardBranch
  refine hs.onThread (fun t th hth => ?_)
  split
  · exact Good.ite (hs.setThread (hth.jumpTo fun hk => even_branchTarget (hth.pc hk))) (hs.retire hth)
  · exact hs.illegalState hth

theorem Good.execBq {q o} (hs : Good K s) : Answers K s (execBq q o s) := hs.guardBranch

theorem Good.execBnq {q o} (hs : Good K s) : Answers K s (execBnq q o s) := hs.guardBranch

theorem Good.execJ {o} (hs : Good K s) : Answers K s (execJ o s) := hs.branch

theorem Good.execCall {o} (hs : Good K s) : Answers K s (execCall o s) := by
  unfold Machine.execCall
  refine hs.onThread fun t th hth => hs.setThread ?_
  exact (hth.jumpTo fun hk => even_branchTarget (hth.pc hk)).kept

theorem Good.jumpReg {len a i link} (hs : Good K s) (hlen : len % 2 = 0 := by rfl) : Answers K s (jumpReg len a i link s) := by
  unfold Machine.jumpReg
  refine hs.onThread (fun t th hth => ?_) hlen
  dsimp only
  split
  · exact hs.misaligned hth
  next heven => exact hs.setThread (GoodThread.kept (hth.jumpTo fun _ => Bool.eq_false_of_not_eq_true heven))

theorem Good.execJr {a i} (hs : Good K s) : Answers K s (execJr a i s) := hs.jumpReg

theorem Good.execCallr {a i} (hs : Good K s) : Answers K s (execCallr a i s) := hs.jumpReg

theorem Good.execLoop {a i} (hs : Good K s) : Answers K s (execLoop a i s) := by
  unfold Machine.execLoop
  refine hs.onThread fun t th hth => ?_
  dsimp only
  have hstop : K.halfwords → (th.pc + BitVec.ofNat 64 (2 * i.toNat)).getLsbD 0 = false :=
    fun hk => even_add (hth.pc hk) (even_ofNat (Nat.mul_mod_right 2 _))
  split
  · exact hs.illegalState hth
  · split
    · refine hs.withHalf hth fun u h hu => hu.setThread (hth.jumpTo fun hk => even_add (hstop hk) ?_)
      split <;> rfl
    · refine hs.setThread (GoodThread.with_pc (th := { th.rejoin with issued := th.issued + 1 }) hth.rejoin.kept hth.nextWord fun hk l hl => ?_)
      rcases List.mem_cons.mp hl with rfl | hl
      · exact hth.nextWord hk
      · exact hth.loops hk l hl

theorem Good.execBeqz16 {d o} (hs : Good K s) : Answers K s (execBeqz16 d o s) := hs.branch

theorem Good.execBnez16 {d o} (hs : Good K s) : Answers K s (execBnez16 d o s) := hs.branch

theorem Good.execJ16 {o} (hs : Good K s) : Answers K s (execJ16 o s) := hs.branch

theorem Good.execRet16 (hs : Good K s) : Answers K s (execRet16 s) := hs.jumpReg

end Sys2Proof.Proofs
end

