-- ==== Sys2Proof/Proofs/KeptByCopies.lean ====
section
/-!
PROOFS. Commands, copies, launches and full-empty words keep the invariant (R181 to R187, R222).
-/

namespace Sys2Proof.Proofs

open Sys2Proof Sys2Proof.Machine Sys2Proof.Claims

-- A default argument's tactic is read only when all declarations before are checked: proofs elaborated side by side would each
-- hold a waiting thread.
set_option Elab.async false

variable {K : Asked} {s : State}

/-! ## Commands -/

theorem Good.enqueue {t} {th : Thread} {i g copy fn k} (hs : Good K s) (hth : GoodThread K th) :
    Good K (s.enqueue t th i g copy fn k) := by
  unfold State.enqueue
  dsimp only
  exact Good.ite (hs.retire hth) (Good.ite (hs.await hth) (hs.kept.modTile.retire hth))

theorem Good.loseIssued {x cmd copy va kind code} (hs : Good K s) : Good K (s.loseIssued x cmd copy va kind code) := by
  unfold State.loseIssued
  dsimp only
  split
  next th hth' =>
    refine Good.ite (hs.log.modLaunch (fun _ hl => hl.blame)) ?_
    refine Good.wakeForEvent ?_
    refine hs.setThread ?_
    split
    · split
      · exact ((hs.thread hth').kept).kept
      · exact (hs.thread hth').kept
    · exact (hs.thread hth').kept
  · exact hs.log.modLaunch (fun _ hl => hl.blame)

theorem Good.discard {tile copy c va kind code} (hs : Good K s) : Good K (s.discard tile copy c va kind code) := by
  unfold State.discard
  dsimp only
  refine Good.checkLaunch ?_
  split
  · refine Good.loseIssued ?_
    split
    · refine hs.modTile.foldl fun _ _ hs => ?_
      exact hs.now
    · exact hs.modTile
  · refine Good.letIn ?_
    refine Good.loseIssued ?_
    split
    · refine hs.modTile.foldl fun _ _ hs => ?_
      exact hs.now
    · exact hs.modTile

theorem Good.modCmd {tile id f} (hs : Good K s) : Good K (s.modCmd tile id f) := by
  unfold State.modCmd
  dsimp only
  exact hs.modTile

theorem Good.finishCmd {tile c} (hs : Good K s) : Good K (s.finishCmd tile c) := by
  unfold State.finishCmd
  dsimp only
  exact hs.modTile.raiseFloor.checkLaunch

theorem Good.engPost {tile c delay} {e : Event} (hs : Good K s) (he : GoodEvent K e := by exact fun _ => trivial) :
    Good K (s.engPost tile c delay e) := hs.post he

theorem Good.engFail {tile c va kind} (hs : Good K s) : Good K (s.engFail tile c va kind) := hs.engPost

theorem Good.addReq {tile c r} (hs : Good K s) : Good K (s.addReq tile c r) := hs.modCmd

theorem Good.engTag {c tile r pa} (hs : Good K s) : Good K (s.engTag c tile r pa).1 := by
  unfold State.engTag
  dsimp only
  exact hs.kept

theorem Good.engHome {tile c r pa} (hs : Good K s) : Good K (s.engHome tile c r pa) := by
  unfold State.engHome
  dsimp only
  split
  · exact hs.kept.addReq.send
  · refine hs.engTag.addReq.send ?_
    split <;> exact (fun _ => trivial)

theorem Good.engStash {tile c r target off own} (hs : Good K s) : Good K (s.engStash tile c r target off own) := by
  unfold State.engStash
  dsimp only
  split
  · exact Good.ite hs.kept.addReq.remoteStash hs.kept.addReq.sendStash
  · exact Good.ite hs.engTag.addReq.remoteStash hs.engTag.addReq.sendStash

theorem Good.engPeer {tile c r dev stash} (hs : Good K s) : Good K (s.engPeer tile c r dev stash) := by
  unfold State.engPeer
  dsimp only
  exact hs.countSent.kept.addReq

theorem Good.engSend {tile c r} (hs : Good K s) : Good K (s.engSend tile c r) := by
  unfold State.engSend
  dsimp only
  refine Good.ite hs.engFail ?_
  split
  · split
    · exact hs.addReq.engFail
    · exact hs.addReq
    · exact Good.ite hs.engFail hs.modTile.engHome
  · exact Good.ite hs.engFail (Good.ite hs.addReq.engFail hs.engStash)
  · exact Good.ite hs.engFail (Good.ite hs.addReq.engFail hs.engStash)
  · exact hs.engPeer
  · exact hs.engPeer
  · exact hs.engFail

theorem Good.engAgain {tile id fault} (hs : Good K s) : Good K (s.engAgain tile id fault) := by
  unfold State.engAgain
  split
  · refine hs.modCmd.foldl fun _ _ hs => ?_
    exact hs.engSend
  · exact hs

theorem Good.engRow {tile c row va n} (hs : Good K s) : Good K (s.engRow tile c row va n) := by
  unfold State.engRow
  refine hs.foldl fun _ _ hs => ?_
  exact hs.engSend

/-! ## Copies -/

theorem Good.copyOp {i g regs fn pattern} (hs : Good K s) : Answers K s (copyOp i g regs fn pattern s) := by
  unfold Machine.copyOp
  dsimp only
  refine hs.onThread (fun t th hth => ?_)
  refine Good.ite (hs.illegalState hth) ?_
  split
  · exact hs.misaligned hth
  · split
    · exact hs.protection hth
    · exact hs.enqueue hth

theorem Good.execCpy {g} (hs : Good K s) : Answers K s (execCpy g s) := hs.copyOp

theorem Good.execCpyFill {g a} (hs : Good K s) : Answers K s (execCpyFill g a s) := hs.copyOp

theorem Good.execCpfree {d} (hs : Good K s) : Answers K s (execCpfree d s) := by
  unfold Machine.execCpfree
  dsimp only
  exact hs.onThread (fun _ _ hth => hs.result hth)

theorem Good.changeDue {tile c b op v} (hs : Good K s) : Good K (s.changeDue tile c b op v) := by
  unfold State.changeDue
  dsimp only
  exact (Good.ite hs.engFail hs).remoteStash

theorem Good.promise {tile c d b} (hs : Good K s) : Good K (s.promise tile c d b) := Good.ite hs.engFail hs.changeDue

theorem Good.startCopy {tile c} (hs : Good K s) : Good K (s.startCopy tile c) := by
  unfold State.startCopy
  dsimp only
  split
  · exact hs
  · split
    · refine Good.engPost ?_
      split
      · exact hs.modTile.letIn.promise
      · exact hs.modTile.letIn
    · split
      · exact hs.modTile.letIn.promise
      · exact hs.modTile.letIn

theorem Good.startCopies {tile fuel} (hs : Good K s) : Good K (s.startCopies tile fuel) := by
  induction fuel generalizing s with
  | zero => exact hs
  | succ fuel ih =>
    unfold State.startCopies
    refine Good.ite hs ?_
    split
    · exact ih hs.startCopy
    · exact hs

theorem Good.execCopyStart {tile} (hs : Good K s) : Goes K (execCopyStart { s with event := some (.copyStart tile) }) :=
  hs.onEvent fun _ hs => ⟨_, rfl, hs.startCopies⟩

theorem Good.readWord {tile c d j} (hs : Good K s) : Good K (s.readWord tile c d j) := by
  unfold State.readWord
  dsimp only
  exact hs.engSend

theorem Good.writeWord {tile c d j elem} (hs : Good K s) : Good K (s.writeWord tile c d j elem) := by
  unfold State.writeWord
  dsimp only
  exact hs.engSend

theorem Good.moveElem {tile c left} (hs : Good K s) : Good K (s.moveElem tile c left).2 := by
  unfold State.moveElem
  dsimp only
  split
  · exact hs
  · split
    · exact hs
    · split
      · exact Good.ite hs.modCmd.writeWord hs.modCmd
      · exact Good.ite hs.modCmd.readWord hs.modCmd

theorem Good.copyRound {tile ids left} (hs : Good K s) : Good K (s.copyRound tile ids left).2 := by
  induction ids generalizing s left with
  | nil => exact hs
  | cons id ids ih =>
    unfold State.copyRound
    dsimp only
    split
    · exact ih hs.moveElem
    · exact ih hs

theorem Good.copyBytes {tile fuel left} (hs : Good K s) : Good K (s.copyBytes tile fuel left) := by
  induction fuel generalizing s left with
  | zero => exact hs
  | succ fuel ih =>
    unfold State.copyBytes
    dsimp only
    exact Good.ite hs.copyRound (ih hs.copyRound)

theorem Good.copyCycle {tile} (hs : Good K s) : Good K (s.copyCycle tile) := hs.copyBytes

theorem Good.copyGot {tile id j} (hs : Good K s) : Good K (s.copyGot tile id j) := by
  unfold State.copyGot
  dsimp only
  split
  · split
    · refine hs.modCmd.foldl fun _ _ hs => ?_
      exact hs.writeWord
    · exact hs
  · exact hs

theorem Good.copyDone {tile id} (hs : Good K s) : Good K (s.copyDone tile id) := by
  unfold State.copyDone
  split
  · split
    · exact Good.ite hs.engPost hs
    · exact hs
  · exact hs

theorem Good.copyCleans {tile c d} (hs : Good K s) : Good K (s.copyCleans tile c d) := by
  unfold State.copyCleans
  dsimp only
  exact Good.ite hs hs.kept

theorem Good.execCopyFinish {tile cmd} (hs : Good K s) : Goes K (execCopyFinish { s with event := some (.copyFinish tile cmd) }) := by
  refine hs.onEvent fun s hs => ⟨_, rfl, ?_⟩
  dsimp only
  split
  · split
    · split
      · refine Good.ite hs.copyCleans.discard ?_
        refine Good.ite hs.copyCleans.credit.finishCmd ?_
        split
        next s hs' => exact (hs.copyCleans.startFill hs').engPost
        · exact (Good.ite hs.copyCleans hs.copyCleans.engFail).engPost
      · exact hs.copyCleans.finishCmd
    · exact hs
  · exact hs

/-! ## Units and launches -/

theorem Good.freshLocal {slot} (hs : Good K s) : Good K (s.freshLocal slot) := by
  unfold State.freshLocal
  split
  · exact Good.ite hs hs.writeMem
  · exact hs

theorem GoodThread.entering {th : Thread} (hth : GoodThread K th) : GoodThread K (s.entering th) := by
  unfold State.entering
  exact hth.kept

theorem Good.addThread {th : Thread} (hs : Good K s) (hth : GoodThread K th) : Good K (s.addThread th) := by
  unfold State.addThread
  dsimp only
  exact (hs.freshLocal.setThread hth).kept

theorem Good.clearBank {core g} (hs : Good K s) : Good K (s.clearBank core g) := by
  unfold State.clearBank
  exact Good.ite hs hs.kept

theorem Good.takeTile {tile g} (hs : Good K s) : Good K (s.takeTile tile g) := by
  unfold State.takeTile
  dsimp only
  exact Good.ite hs.modTile.writeBackRange hs.modTile

theorem Good.placeUnit {l} {x : Launch} {slot} (hs : Good K s) (hx : GoodLaunch K x) : Good K (s.placeUnit l x slot) := by
  unfold State.placeUnit
  dsimp only
  refine Good.modLaunch (Good.addThread (Good.ite hs.clearBank.takeTile hs.clearBank) ?_) fun _ hy => hy.kept
  exact (GoodThread.start (fun hk => hx hk) (fun _ => rfl)).entering

theorem Good.saveThread {t} {th : Thread} (hs : Good K s) (hth : GoodThread K th) : Good K (s.saveThread t th) :=
  (hs.setThread hth.kept).slotsFreed

theorem Record.halfword_of_fieldFault {b : Line} (h : Record.fieldFault b = none) : (Record.ofBytes b).Halfword := by
  refine Bool.eq_false_of_not_eq_true fun hodd => ?_
  unfold Record.fieldFault at h
  dsimp only at h
  iterate 8
    split at h
    · cases h
  cases h

theorem GoodRecord.of_recordFault {b : Line} {g} (h : s.recordFault b g = none) : GoodRecord K (Record.ofBytes b) := fun _ => by
  unfold State.recordFault at h
  dsimp only at h
  split at h
  · cases h
  next hfield => exact Record.halfword_of_fieldFault hfield

theorem Good.signalDone {g done} (hs : Good K s) : Good K (s.signalDone g done) := by
  unfold State.signalDone
  dsimp only
  split
  · exact hs.post
  · exact hs.post
  · exact hs.kept

theorem Good.payDone (hs : Good K s) : Good K s.payDone := by
  unfold State.payDone
  refine hs.kept.foldl fun _ _ hs => ?_
  exact hs.signalDone

theorem Good.report {q index status field noop} (hs : Good K s) : Good K (s.report q index status field noop) := by
  unfold State.report
  split
  · exact hs.kept
  · exact hs

theorem Good.startLaunch {l} (hs : Good K s) : Good K (s.startLaunch l) := by
  unfold State.startLaunch
  dsimp only
  split
  · split <;> exact (hs.kept.modLaunch (fun _ hx => hx.kept)).now
  · exact hs

theorem Good.closeLaunch {l st} (hs : Good K s) : Good K (s.closeLaunch l st) := by
  unfold State.closeLaunch
  dsimp only
  split
  · split
    · refine Good.report ?_
      split
      · exact ((hs.modLaunch (fun _ hy => hy.kept)).signalDone).log
      · exact (hs.modLaunch (fun _ hy => hy.kept)).signalDone
    · refine Good.report ?_
      split
      · exact ((hs.modLaunch (fun _ hy => hy.kept)).signalDone).log
      · exact (hs.modLaunch (fun _ hy => hy.kept)).signalDone
    · split
      · exact ((hs.modLaunch (fun _ hy => hy.kept)).signalDone).log
      · exact (hs.modLaunch (fun _ hy => hy.kept)).signalDone
  · exact hs

theorem GoodLaunch.ofRecord {r : Record} {queue index} (hr : GoodRecord K r) : GoodLaunch K (Launch.ofRecord r queue index) := hr

theorem Good.launchNumber (hs : Good K s) : Good K s.launchNumber.2 := by
  unfold State.launchNumber
  exact hs.kept

theorem Good.acceptLaunch {r : Record} {queue index l} (hs : Good K s) (hr : GoodRecord K r) : Good K (s.acceptLaunch r queue index l) := by
  have hset := hs.setLaunch (l := l) (GoodLaunch.ofRecord (queue := queue) (index := index) hr)
  unfold State.acceptLaunch
  dsimp only
  refine Good.ite hset.startLaunch ?_
  split
  · exact hset.closeLaunch
  · exact hset

theorem Good.releaseAfter {l k} (hs : Good K s) : Good K (s.releaseAfter l k) := by
  unfold State.releaseAfter
  refine hs.foldl fun s p hs => ?_
  split
  · exact hs.closeLaunch
  · exact Good.ite hs.startLaunch hs

theorem Good.releaseDependents {l} (hs : Good K s) : Good K (s.releaseDependents l) := by
  unfold State.releaseDependents
  split
  · exact hs.releaseAfter
  · exact hs

theorem Good.armRecord {r : Record} {queue index} (hs : Good K s) (hr : GoodRecord K r) : Good K (s.armRecord r queue index) :=
  hs.launchNumber.addArmed hr

theorem Good.unarm {which} (hs : Good K s) : Good K (s.unarm which) := hs.sublistArmed (List.filter_sublist ..)

theorem Good.completeLaunch {l} (hs : Good K s) : Good K (s.completeLaunch l) := by
  unfold State.completeLaunch
  dsimp only
  split
  · exact Good.ite hs.closeLaunch.kept.releaseDependents hs
  · exact hs

theorem Good.cancelArmed {detail} {a : Armed} (hs : Good K s) (ha : GoodArmed K a) : Good K (s.cancelArmed detail a) :=
  (hs.setLaunch (GoodLaunch.blame (GoodLaunch.ofRecord ha))).closeLaunch.releaseAfter

theorem Good.cancelThread {detail t} {th : Thread} (hs : Good K s) (hth : GoodThread K th) : Good K (s.cancelThread detail t th) := by
  have hcancel : GoodThread K { th with cancel := some detail } := hth.kept
  have hset := hs.setThread (t := t) hcancel
  unfold State.cancelThread
  dsimp only
  refine Good.ite hs ?_
  split
  · exact hset.withdraw hcancel
  · split
    · split
      next u h =>
        exact Good.ite ((hset.breakWait h).endThread hcancel.unissued)
          ((hset.breakWait h).takeTrap hcancel.unissued.kept hcancel.unissued.pc)
      · exact hset
    · exact hset

/-! ## Full-empty words -/

theorem Good.feAccess {t} {th : Thread} {i va f} (hs : Good K s) (hth : GoodThread K th)
    (hf : ∀ a0 a1 a2, Good K a0 → GoodThread K a1 → Good K (f a0 a1 a2)) :
    Good K (s.feAccess t th i va f) := by
  unfold State.feAccess
  refine hs.access hth (fun _ _ _ hs hth => ?_)
  exact Good.ite (hs.await hth) (hf _ _ _ hs hth)

theorem Good.feWaited {t} {th : Thread} {i va x what w} (hs : Good K s) (hth : GoodThread K th) :
    Good K (s.feWaited t th i va x what w) := by
  unfold State.feWaited
  dsimp only
  refine hs.gate hth (fun s th hs hth => ?_)
  split
  · exact hs.takeRid.sendStash.await hth
  · exact hs.takeRid.sendPeer.await hth
  · exact hs.takeRid.protection hth

theorem Good.fePosted {t} {th : Thread} {i va x what data} (hs : Good K s) (hth : GoodThread K th) :
    Good K (s.fePosted t th i va x what data) := by
  unfold State.fePosted
  dsimp only
  refine hs.gate hth (fun s th hs hth => ?_)
  split
  · exact hs.takeTag.sendStash.retire hth.tagged
  · exact hs.takeTag.sendPeer.retire hth.tagged
  · exact hs.protection hth

theorem Good.parkOwn {t} {th : Thread} {off va what d} (hs : Good K s) (hth : GoodThread K th) :
    Good K (s.parkOwn t th off va what d) := by
  unfold State.parkOwn
  dsimp only
  exact hs.takeRid.parkRequest.await hth

theorem Good.execLdf {d a i} (hs : Good K s) : Answers K s (execLdf d a i s) := by
  unfold Machine.execLdf
  dsimp only
  refine hs.onThread (fun t th hth => ?_)
  refine hs.feAccess hth (fun s th x hs hth => ?_)
  split
  · exact hs.ownAccess hth (fun _ _ _ _ hs hth => hs.result hth) (fun _ _ hs hth => hs.parkOwn hth)
  · exact hs.feWaited hth

theorem Good.execStf {d a i} (hs : Good K s) : Answers K s (execStf d a i s) := by
  unfold Machine.execStf
  dsimp only
  refine hs.onThread (fun t th hth => ?_)
  refine hs.feAccess hth (fun s th x hs hth => ?_)
  split
  · exact hs.ownAccess hth (fun _ _ _ _ hs hth => hs.retire hth) (fun _ _ hs hth => hs.parkOwn hth)
  · exact hs.fePosted hth

theorem Good.feStatus {t} {th : Thread} {d q v ok late} (hs : Good K s) (hth : GoodThread K th) :
    Good K (s.feStatus t th d q v ok late) := by
  unfold State.feStatus
  dsimp only
  refine Good.retire ?_ ?_
  · split
    · split
      · split
        · exact hs.resolve.writeRegLate
        · exact hs.resolve.writeReg
      · exact hs.resolve
    · exact hs.resolve
  · split
    · split
      · split
        · exact hth.resolve.writeRegLate
        · exact hth.resolve.writeReg
      · exact hth.resolve
    · exact hth.resolve

theorem Good.execLdfn {d a q} (hs : Good K s) : Answers K s (execLdfn d a q s) := by
  unfold Machine.execLdfn
  dsimp only
  refine hs.onThread (fun t th hth => ?_)
  refine hs.feAccess hth (fun s th x hs hth => ?_)
  split
  · exact hs.ownAccess hth (fun _ _ _ _ hs hth => hs.feStatus hth) (fun _ _ hs hth => hs.setThread hth)
  · exact hs.feWaited hth

theorem Good.execStfn {a b q} (hs : Good K s) : Answers K s (execStfn a b q s) := by
  unfold Machine.execStfn
  dsimp only
  refine hs.onThread (fun t th hth => ?_)
  refine hs.feAccess hth (fun s th x hs hth => ?_)
  split
  · exact hs.ownAccess hth (fun _ _ _ _ hs hth => hs.feStatus hth) (fun _ _ hs hth => hs.setThread hth)
  · exact hs.feWaited hth

theorem Good.setBit {i a imm what} (hs : Good K s) : Answers K s (setBit i a imm what s) := by
  unfold Machine.setBit
  dsimp only
  refine hs.onThread (fun t th hth => ?_)
  refine hs.feAccess hth (fun s th x hs hth => ?_)
  split
  · exact hs.ownAccess hth (fun _ _ _ _ hs hth => hs.retire hth) (fun _ _ hs hth => hs.setThread hth)
  · exact hs.fePosted hth

theorem Good.execFeclr {a i} (hs : Good K s) : Answers K s (execFeclr a i s) := hs.setBit

theorem Good.execFeset {a i} (hs : Good K s) : Answers K s (execFeset a i s) := hs.setBit

end Sys2Proof.Proofs
end

