-- ==== Sys2Proof/Proofs/KeptByEngines.lean ====
section
/-!
PROOFS. The matrix engine, sums, monitors, fences and threads keep the invariant.
-/

namespace Sys2Proof.Proofs

open Sys2Proof Sys2Proof.Machine Sys2Proof.Claims

-- A default argument's tactic is read only when all declarations before are checked: proofs elaborated side by side would each
-- hold a waiting thread.
set_option Elab.async false

variable {K : Asked} {s : State}

/-! ## The matrix engine -/

theorem Good.execMstagea {g l a b} (hs : Good K s) : Answers K s (execMstagea g l a b s) := by
  unfold Machine.execMstagea
  dsimp only
  refine hs.onThread (fun t th hth => ?_)
  refine Good.ite (hs.misaligned hth) ?_
  refine Good.ite (hs.misaligned hth) ?_
  split
  · exact hs.protection hth
  · exact hs.protection hth
  · exact Good.ite (hs.protection hth) (Good.ite (hs.protection hth) (hs.enqueue hth))

theorem Good.execMstageb {g l a b} (hs : Good K s) : Answers K s (execMstageb g l a b s) := by
  unfold Machine.execMstageb
  dsimp only
  refine hs.onThread (fun t th hth => ?_)
  refine Good.ite (hs.misaligned hth) ?_
  refine Good.ite (hs.misaligned hth) ?_
  split
  · exact hs.protection hth
  · exact hs.enqueue hth

theorem Good.execMma {g f n l} (hs : Good K s) : Answers K s (execMma g f n l s) :=
  hs.onThread (fun _ _ hth => hs.enqueue hth)

theorem Good.execMflush {g n a} (hs : Good K s) : Answers K s (execMflush g n a s) := by
  unfold Machine.execMflush
  dsimp only
  refine hs.onThread (fun t th hth => ?_)
  refine Good.ite (hs.misaligned hth) ?_
  split
  · exact hs.protection hth
  · exact hs.enqueue hth

theorem Good.execMflushSum {g n a b} (hs : Good K s) : Answers K s (execMflushSum g n a b s) := by
  unfold Machine.execMflushSum
  dsimp only
  refine hs.onThread (fun t th hth => ?_)
  refine Good.ite (hs.misaligned hth) ?_
  split
  · exact hs.protection hth
  · exact Good.ite (hs.illegalState hth) (hs.enqueue hth)

theorem Good.execMclr {g n} (hs : Good K s) : Answers K s (execMclr g n s) := hs.onThread (fun _ _ hth => hs.enqueue hth)

theorem Good.execAccdecl {g a b} (hs : Good K s) : Answers K s (execAccdecl g a b s) := by
  unfold Machine.execAccdecl
  dsimp only
  refine hs.onThread (fun t th hth => ?_)
  refine Good.ite (hs.misaligned hth) ?_
  split
  · exact hs.protection hth
  · refine Good.ite (hs.illegalState hth) ?_
    refine hs.access hth (fun s th x hs hth => ?_)
    split
    · refine Good.ite (hs.protection hth) ?_
      refine Good.ite (hs.protection hth) ?_
      split
      · exact hs.retire hth
      · exact hs.illegalState hth
      · refine hs.gate hth (fun _ _ hs hth => ?_)
        exact hs.takeRid.send.await hth
    · exact hs.protection hth

theorem Good.modMx {tile f} (hs : Good K s) : Good K (s.modMx tile f) := hs.modTile

theorem Good.flushSend {tile c a acc} (hs : Good K s) : Good K (s.flushSend tile c a acc) := by
  unfold State.flushSend
  refine hs.foldl fun _ _ hs => ?_
  exact hs.engSend

theorem Good.dispatch {tile c} (hs : Good K s) : Good K (s.dispatch tile c) := by
  unfold State.dispatch
  dsimp only
  split
  · exact hs.modTile.letIn.engRow
  · refine hs.modTile.letIn.foldl fun _ _ hs => ?_
    exact hs.engRow
  · exact hs.modTile.letIn.engPost
  · exact hs.modTile.letIn.engPost
  · exact hs.modTile.letIn.flushSend.engPost
  · exact hs.modTile.letIn.flushSend.engPost
  · exact hs

theorem Good.dispatchUpTo {tile fuel} (hs : Good K s) : Good K (s.dispatchUpTo tile fuel) := by
  induction fuel generalizing s with
  | zero => exact hs
  | succ fuel ih =>
    unfold State.dispatchUpTo
    split
    · exact hs
    · exact Good.ite hs.modTile.engPost (Good.ite (ih hs.dispatch) hs)

theorem Good.execMatrixDispatch {tile} (hs : Good K s) : Goes K (execMatrixDispatch { s with event := some (.matrixDispatch tile) }) :=
  hs.onEvent fun _ hs => ⟨_, rfl, hs.dispatchUpTo⟩

theorem Good.execMatrixContextSwitch {tile guest} (hs : Good K s) :
    Goes K (execMatrixContextSwitch { s with event := some (.matrixContextSwitch tile guest) }) :=
  hs.onEvent fun _ hs => ⟨_, rfl, hs.modTile⟩

theorem Good.stageGot {tile id} (hs : Good K s) : Good K (s.stageGot tile id) := by
  unfold State.stageGot
  dsimp only
  split
  · exact hs
  · refine Good.ite hs ?_
    split
    · split
      · split
        · exact hs.engFail
        · refine hs.modCmd.foldl fun _ _ hs => ?_
          exact hs.engRow
      · exact hs.modCmd.engPost
    · exact hs.modCmd.engPost
    · exact hs

theorem Good.execStageAComplete {tile cmd} (hs : Good K s) :
    Goes K (execStageAComplete { s with event := some (.stageAComplete tile cmd) }) := by
  refine hs.onEvent fun s hs => ⟨_, rfl, ?_⟩
  split
  · split
    · exact hs.modMx.finishCmd
    · exact hs
  · exact hs

theorem Good.execStageBComplete {tile cmd} (hs : Good K s) :
    Goes K (execStageBComplete { s with event := some (.stageBComplete tile cmd) }) := by
  refine hs.onEvent fun s hs => ⟨_, rfl, ?_⟩
  split
  · split
    · exact hs.modMx.finishCmd
    · exact hs
  · exact hs

theorem Good.execMmaComplete {tile cmd} (hs : Good K s) : Goes K (execMmaComplete { s with event := some (.mmaComplete tile cmd) }) := by
  refine hs.onEvent fun s hs => ⟨_, rfl, ?_⟩
  split
  · split
    · exact hs.modMx.finishCmd
    · exact hs
  · exact hs

theorem Good.execMclrComplete {tile cmd} (hs : Good K s) : Goes K (execMclrComplete { s with event := some (.mclrComplete tile cmd) }) := by
  refine hs.onEvent fun s hs => ⟨_, rfl, ?_⟩
  split
  · split
    · exact hs.modMx.finishCmd
    · exact hs
  · exact hs

theorem Good.flushDone {tile id} (hs : Good K s) : Good K (s.flushDone tile id) := by
  unfold State.flushDone
  split
  · exact Good.ite hs.finishCmd hs
  · exact hs

theorem Good.execFlushReadoutComplete {tile cmd} (hs : Good K s) :
    Goes K (execFlushReadoutComplete { s with event := some (.flushReadoutComplete tile cmd) }) := by
  refine hs.onEvent fun s hs => ⟨_, rfl, ?_⟩
  split
  · split
    · exact hs.modCmd.flushDone
    · exact hs.modCmd.flushDone
    · exact hs
  · exact hs

theorem Good.execEngineFault {tile cmd va kind code} (hs : Good K s) :
    Goes K (execEngineFault { s with event := some (.engineFault tile cmd va kind code) }) := by
  refine hs.onEvent fun s hs => ⟨_, rfl, ?_⟩
  split
  · exact Good.ite hs.modCmd hs.discard
  · exact hs

theorem Good.execGroupWatchdog {tile copy} (hs : Good K s) :
    Goes K (execGroupWatchdog { s with event := some (.groupWatchdog tile copy) }) := by
  refine hs.onEvent fun s hs => ⟨_, rfl, ?_⟩
  split
  · exact hs.discard
  · exact hs

theorem Good.engineServiced {t id mapped} (hs : Good K s) : Good K (s.engineServiced t id mapped) := by
  have hfound : ∀ found : Option (Nat × Bool × Cmd × Word), Good K (match found with
      | some (tile, copy, c, va) =>
        if mapped then (s.modCmd tile id (fun c => { c with faulted := none })).engAgain tile id true else s.discard tile copy c va 1 0
      | none => s) := by
    intro found
    split
    · exact Good.ite hs.modCmd.engAgain hs.discard
    · exact hs
  unfold State.engineServiced
  dsimp only
  split
  next th h =>
    split
    · exact Good.ite ((hfound _).setThread (GoodThread.kept ((hfound _).thread h))) (hfound _)
    · exact hfound _
  · exact hfound _

/-! ## Sums -/

theorem Good.answerDeclare {a err} (hs : Good K s) : Good K (s.answerDeclare a err) := hs.replyAtomic

theorem Good.declareSum {a parts} (hs : Good K s) : Good K (s.declareSum a parts) := by
  unfold State.declareSum
  dsimp only
  split
  · exact hs.answerDeclare
  · split
    · exact hs.holdMsg.recallLine
    · refine Good.ite hs.answerDeclare ?_
      refine Good.answerDeclare ?_
      refine hs.foldl fun _ _ hs => ?_
      exact hs.modLine

theorem Good.execDeclarationAtHome {a parts} (hs : Good K s) :
    Goes K (execDeclarationAtHome { s with event := some (.declarationAtHome a parts) }) :=
  hs.onEvent fun _ hs => ⟨_, rfl, hs.declareSum⟩

theorem Good.addPart {line m data a} (hs : Good K s) : Good K (s.addPart line m data a).2 := by
  unfold State.addPart
  dsimp only
  exact hs.replyStore

theorem Good.addParts {line fuel m} (hs : Good K s) : Good K (s.addParts line fuel m).2 := by
  induction fuel generalizing s m with
  | zero => exact hs
  | succ fuel ih =>
    unfold State.addParts
    dsimp only
    split
    · exact ih hs.addPart
    · exact hs

theorem Good.completeMerge {line m} (hs : Good K s) : Good K (s.completeMerge line m) := by
  unfold State.completeMerge
  dsimp only
  refine hs.homeWrite.modLine.signal.foldl fun _ _ hs => ?_
  exact hs.asOf (fun _ hs => hs.homeLoad)

theorem Good.sumPart {a part data} (hs : Good K s) : Good K (s.sumPart a part data) := by
  unfold State.sumPart
  dsimp only
  split
  · exact hs.refuseStore
  · refine Good.ite hs.holdMsg ?_
    split
    · exact Good.ite hs.replyStore hs.refuseStore
    · exact Good.ite hs.refuseStore (Good.ite hs.addParts.completeMerge hs.addParts.modLine)

theorem Good.execSumPartArrival {a part data} (hs : Good K s) :
    Goes K (execSumPartArrival { s with event := some (.sumPartArrival a part data) }) :=
  hs.onEvent fun _ hs => ⟨_, rfl, hs.sumPart⟩

theorem Good.execMergeFailure {pa} (hs : Good K s) : Goes K (execMergeFailure { s with event := some (.mergeFailure pa) }) := by
  refine hs.onEvent fun s hs => ⟨_, rfl, ?_⟩
  dsimp only
  split
  · exact hs
  · refine Good.foldl ?_ fun s p hs => ?_
    · refine hs.modLine.foldl fun _ _ hs => ?_
      exact hs.replyStore
    · exact hs.asOf (fun _ hs => hs.failLoad)

/-! ## Guards -/

theorem Good.execQset {q a} (hs : Good K s) : Answers K s (execQset q a s) := by
  unfold Machine.execQset
  dsimp only
  exact hs.onThread (fun _ _ hth => hs.resolve.retire hth.resolve)

theorem Good.execQclr {q} (hs : Good K s) : Answers K s (execQclr q s) :=
  hs.onThread (fun _ _ hth => hs.retire hth.clearGuard)

theorem Good.execQtest {d q} (hs : Good K s) : Answers K s (execQtest d q s) :=
  hs.onThread (fun _ _ hth => hs.result hth)

/-! ## Monitors -/

theorem GoodThread.disarm {th : Thread} {m} (hth : GoodThread K th) : GoodThread K (th.disarm m) := by
  unfold Thread.disarm
  exact hth.kept

theorem Good.execMon {a m} (hs : Good K s) : Answers K s (execMon a m s) := by
  unfold Machine.execMon
  dsimp only
  refine hs.onThread (fun t th hth => ?_)
  refine hs.access hth (fun s th x hs hth => ?_)
  refine hs.gate hth (fun s th hs hth => ?_)
  split
  · exact hs.takeRid.kept.send.retire hth.kept
  · exact hs.takeRid.kept.sendPeer.retire hth.kept
  · exact hs.takeRid.kept.protection hth.kept

theorem Good.execMonclr {l m} (hs : Good K s) : Answers K s (execMonclr l m s) := by
  unfold Machine.execMonclr
  dsimp only
  refine hs.onThread (fun t th hth => ?_)
  refine hs.kept.retire ?_
  split
  · exact hth.kept
  · exact hth.disarm

theorem GoodThread.foldl {α : Type} {l : List α} {f : Thread → α → Thread} {th : Thread} (hth : GoodThread K th)
    (hf : ∀ th a, GoodThread K th → GoodThread K (f th a)) : GoodThread K (l.foldl f th) := by
  induction l generalizing th with
  | nil => exact hth
  | cons a l ih => exact ih (hf th a hth)

theorem GoodThread.consume {th : Thread} {now time intr} (hth : GoodThread K th) : GoodThread K (th.consume now time intr) := by
  have hraised : GoodThread K (th.mons.toList.foldl (fun (th : Thread) m => th.raise (m.signal.getD 0)) th) :=
    hth.foldl fun _ _ h => h.raise
  exact hraised.kept (by rfl) (by rfl) (by rfl) (by rfl) (by rfl)

theorem Good.execMwait {a} (hs : Good K s) : Answers K s (execMwait a s) := by
  unfold Machine.execMwait
  dsimp only
  refine hs.onThread (fun t th hth => ?_)
  split
  · exact hs.retire hth.consume
  · exact Good.ite (hs.illegalState hth) (Good.ite (hs.await hth) (hs.post.await hth))

theorem Good.execSleep {a} (hs : Good K s) : Answers K s (execSleep a s) := by
  unfold Machine.execSleep
  dsimp only
  exact hs.onThread (fun _ _ hth => Good.ite (hs.retire hth) (hs.post.await hth))

theorem Good.loseArm {t va} (hs : Good K s) : Good K (s.loseArm t va) := by
  unfold State.loseArm
  split
  · exact hs.loseAccess
  · exact hs

theorem Good.armHome {t m arm pa clock} (hs : Good K s) : Good K (s.armHome t m arm pa clock) := by
  unfold State.armHome
  dsimp only
  refine Good.ite hs.loseArm ?_
  split
  · exact hs
  · exact Good.ite hs.holdMsg (Good.ite ((Good.ite hs.flip hs.flip.kept).send) (Good.ite hs.flip hs.flip.kept))

theorem Good.execArmRequest {tid m arm pa clock} (hs : Good K s) :
    Goes K (execArmRequest { s with event := some (.armRequest tid m arm pa clock) }) :=
  hs.onEvent fun _ hs => ⟨_, rfl, hs.armHome⟩

theorem Good.execMonitorSignal {tid m arm wts} (hs : Good K s) :
    Goes K (execMonitorSignal { s with event := some (.monitorSignal tid m arm wts) }) := by
  refine hs.onEvent fun s hs => ⟨_, rfl, ?_⟩
  dsimp only
  split
  next th hth' =>
    split
    · split
      · exact hs.retire (((hs.thread hth').kept).consume)
      · exact hs.setThread ((hs.thread hth').kept)
    · exact hs
  · exact hs

theorem Good.execMwaitTimeout {tid} (hs : Good K s) : Goes K (execMwaitTimeout { s with event := some (.mwaitTimeout tid) }) := by
  refine hs.onEvent fun s hs => ⟨_, rfl, ?_⟩
  split
  next th hth' =>
    split
    · exact Good.ite (hs.retire ((hs.thread hth').consume)) hs
    · exact hs
  · exact hs

theorem Good.execInterrupt {tid} (hs : Good K s) : Goes K (execInterrupt { s with event := some (.interrupt tid) }) := by
  refine hs.onEvent fun s hs => ⟨_, rfl, ?_⟩
  split
  next th hth' =>
    split
    · exact hs.retire ((hs.thread hth').consume)
    · exact hs
  · exact hs

theorem Good.execSleepExpiry {tid} (hs : Good K s) : Goes K (execSleepExpiry { s with event := some (.sleepExpiry tid) }) := by
  refine hs.onEvent fun s hs => ⟨_, rfl, ?_⟩
  split
  next th hth' =>
    split
    · exact Good.ite (hs.retire (hs.thread hth')) hs
    · exact hs
  · exact hs

/-! ## Order -/

theorem Good.execFence {c} (hs : Good K s) : Answers K s (execFence c s) :=
  hs.onThread (fun _ _ hth => Good.ite (hs.retire hth) (hs.await hth))

theorem Good.execWaitack {a} (hs : Good K s) : Answers K s (execWaitack a s) := by
  unfold Machine.execWaitack
  dsimp only
  exact hs.onThread (fun _ _ hth => Good.ite (hs.retire hth) (hs.await hth))

theorem Good.execBind {a b d} (hs : Good K s) : Answers K s (execBind a b d s) := by
  unfold Machine.execBind
  dsimp only
  refine hs.onThread (fun t th hth => ?_)
  split
  · exact hs.misaligned hth
  · exact Good.ite (hs.illegalState hth) (Good.ite (hs.illegalState hth) (hs.retire hth.kept))

theorem Good.execUnbind {a b} (hs : Good K s) : Answers K s (execUnbind a b s) := by
  unfold Machine.execUnbind
  dsimp only
  exact hs.onThread (fun _ _ hth => hs.retire hth.kept)

theorem Good.execRel {c a} (hs : Good K s) : Answers K s (execRel c a s) := by
  unfold Machine.execRel
  dsimp only
  refine hs.onThread (fun t th hth => ?_)
  refine Good.ite (hs.retire hth) ?_
  refine hs.access hth (fun s th x hs hth => ?_)
  refine Good.ite (hs.await hth) ?_
  split
  · exact hs.ownAccess hth (fun _ _ _ _ hs hth => hs.retire hth) (fun _ _ hs hth => hs.setThread hth)
  · refine hs.gate hth (fun _ _ hs hth => ?_)
    exact hs.takeRid.send.await hth
  · refine hs.gate hth (fun _ _ hs hth => ?_)
    exact hs.takeRid.sendStash.await hth
  · refine hs.gate hth (fun _ _ hs hth => ?_)
    exact hs.takeRid.sendPeer.await hth
  · refine hs.gate hth (fun _ _ hs hth => ?_)
    exact hs.takeRid.sendPeer.await hth
  · exact hs.protection hth

theorem Good.execAcq {c a} (hs : Good K s) : Answers K s (execAcq c a s) := by
  unfold Machine.execAcq
  dsimp only
  refine hs.onThread (fun t th hth => ?_)
  refine Good.ite (hs.retire hth) ?_
  refine hs.access hth (fun s th x hs hth => ?_)
  split
  · refine hs.ownAccess hth (fun _ _ _ _ hs hth => ?_) (fun _ _ hs hth => hs.setThread hth)
    exact hs.retire hth.raise
  · refine hs.gate hth (fun _ _ hs hth => ?_)
    exact hs.takeRid.send.await hth
  · refine hs.gate hth (fun _ _ hs hth => ?_)
    exact hs.takeRid.sendStash.await hth
  · refine hs.gate hth (fun _ _ hs hth => ?_)
    exact hs.takeRid.sendPeer.await hth
  · refine hs.gate hth (fun _ _ hs hth => ?_)
    exact hs.takeRid.sendPeer.await hth
  · exact hs.protection hth

/-! ## Threads and rendezvous -/

theorem GoodThread.child {th : Thread} {t slot pc} (hth : GoodThread K th) (hpc : K.halfwords → pc.getLsbD 0 = false) :
    GoodThread K (th.child t slot pc) := GoodThread.start hpc hth.tvec

theorem Good.execSpawn {a b} (hs : Good K s) : Answers K s (execSpawn a b s) := by
  unfold Machine.execSpawn
  dsimp only
  refine hs.onThread (fun t th hth => ?_)
  refine Good.ite (hs.illegalInstr hth) ?_
  refine Good.ite (hs.illegalState hth) ?_
  refine Good.ite (hs.illegalState hth) ?_
  split
  · exact hs.misaligned hth
  next heven => exact (hs.addThread (hth.child fun _ => Bool.eq_false_of_not_eq_true heven).entering).retire hth

theorem Good.execReap {d a} (hs : Good K s) : Answers K s (execReap d a s) := by
  unfold Machine.execReap
  dsimp only
  refine hs.onThread (fun t th hth => ?_)
  refine Good.ite (hs.illegalInstr hth) ?_
  refine Good.ite (hs.illegalState hth) ?_
  split
  · exact hs.illegalState hth
  · exact Good.ite (hs.reaped hth) (hs.await hth)

theorem Good.mapThreads {f : Nat × Thread → Nat × Thread} (hs : Good K s) (hkey : ∀ p, (f p).1 = p.1)
    (hf : ∀ p, GoodThread K p.2 → GoodThread K (f p).2) : Good K { s with threads := s.threads.map f } := by
  refine hs.with_threads (fun h => KMap.sorted_map hkey (hs.numbered h)) fun p hp => ?_
  obtain ⟨q, hq, rfl⟩ := List.mem_map.mp hp
  exact hf q (hs.threads hq)

theorem Good.closePhase {t} {th : Thread} {k arrived} (hs : Good K s) : Good K (s.closePhase t th k arrived) := by
  unfold State.closePhase
  dsimp only
  refine Good.post (Good.kept (hs.mapThreads (fun p => ?_) (fun p hp => ?_)))
  · split
    · split <;> rfl
    · rfl
  · split
    · split
      · exact hp.kept
      · exact hp
    · exact hp

theorem Good.execRdv {a q} (hs : Good K s) : Answers K s (execRdv a q s) := by
  unfold Machine.execRdv
  dsimp only
  refine hs.onThread (fun t th hth => ?_)
  refine Good.ite (hs.illegalState hth) ?_
  refine Good.ite (hs.resolve.retire hth.resolve) ?_
  split
  · exact hs.illegalState hth
  · exact Good.ite ((hs.writeReg.await hth.writeReg).closePhase) (hs.writeReg.await hth.writeReg)

theorem Good.execRdvInitReg {a b} (hs : Good K s) : Answers K s (execRdvInitReg a b s) := by
  unfold Machine.execRdvInitReg
  dsimp only
  exact hs.onThread (fun _ _ hth => Good.ite (hs.illegalState hth) (hs.result hth))

theorem Good.execRdvInitImm {a i} (hs : Good K s) : Answers K s (execRdvInitImm a i s) :=
  hs.onThread (fun _ _ hth => hs.result hth)

theorem Good.releaseWaiter {top t} {th : Thread} (hs : Good K s) (hth : GoodThread K th) : Good K (s.releaseWaiter top t th) := by
  unfold State.releaseWaiter
  dsimp only
  split
  · exact hs.resolve.retire hth.resolve.raise.kept
  · exact hs

theorem Good.execRdvPhaseCompletion {core guest k closing phase} (hs : Good K s) :
    Goes K (execRdvPhaseCompletion { s with event := some (.rdvPhaseCompletion core guest k closing phase) }) := by
  refine hs.onEvent fun s hs => ⟨_, rfl, ?_⟩
  dsimp only
  refine hs.kept.foldl fun s p hs => ?_
  split
  next th hth' => exact hs.releaseWaiter (hs.thread hth')
  · exact hs

theorem Good.yieldOp {len} (hs : Good K s) (hlen : len % 2 = 0 := by rfl) : Answers K s (yieldOp len s) :=
  hs.onThread (fun _ _ hth => hs.retire hth.kept) hlen

theorem Good.execYield (hs : Good K s) : Answers K s (execYield s) := hs.yieldOp

theorem Good.execYield16 (hs : Good K s) : Answers K s (execYield16 s) := hs.yieldOp

theorem Good.preptOp {len} (hs : Good K s) (hlen : len % 2 = 0 := by rfl) : Answers K s (preptOp len s) := by
  unfold Machine.preptOp
  refine hs.onThread (fun t th hth => ?_) hlen
  have hnext : GoodThread K { th with dist := 0 }.advance := (GoodThread.kept hth).advance
  dsimp only
  split
  · exact Good.ite (hs.endThread hnext) (hs.takeTrap hnext.kept hnext.pc)
  · exact Good.ite (hs.setThread hnext.kept) (Good.ite (hs.saveThread hnext) (hs.setThread hnext))

theorem Good.execPrept (hs : Good K s) : Answers K s (execPrept s) := hs.preptOp

theorem Good.execPrept16 (hs : Good K s) : Answers K s (execPrept16 s) := hs.preptOp

theorem Good.execPin (hs : Good K s) : Answers K s (execPin s) := hs.onThread (fun _ _ hth => hs.retire hth.kept)

theorem Good.execUnpin (hs : Good K s) : Answers K s (execUnpin s) := hs.onThread (fun _ _ hth => hs.retire hth.kept)

theorem Good.execRself {x d} (hs : Good K s) : Answers K s (execRself x d s) :=
  hs.onThread (fun _ _ hth => hs.result hth)

end Sys2Proof.Proofs
end

