-- ==== Sys2Proof/Proofs/KeptByReplies.lean ====
section
/-!
PROOFS. Acknowledgements, replies, fills, fault service and register writes keep the invariant.
-/

namespace Sys2Proof.Proofs

open Sys2Proof Sys2Proof.Machine Sys2Proof.Claims

-- A default argument's tactic is read only when all declarations before are checked: proofs elaborated side by side would each
-- hold a waiting thread.
set_option Elab.async false

variable {K : Asked} {s : State}

/-! ## Acknowledgements -/

theorem Good.wakeOnAck {t} (hs : Good K s) : Good K (s.wakeOnAck t) := by
  unfold State.wakeOnAck
  split
  next th hth' =>
    split
    · exact Good.ite (hs.retire ((hs.thread hth').seesAcks)) hs
    · exact Good.ite (hs.retire ((hs.thread hth').seesAcks)) hs
    · split
      · exact Good.ite hs hs.resumeWith
      · exact hs
    · exact hs.resumeWith (fun _ hth => hth.kept)
    · exact hs
  · exact hs

theorem Good.raiseIssuer {x last wts} (hs : Good K s) : Good K (s.raiseIssuer x last wts) := by
  unfold State.raiseIssuer
  dsimp only
  refine Good.ite ?_ ?_
  · exact hs.modThread (fun _ hth => hth.raiseAck.kept)
  · split
    · exact (hs.modThread (fun _ hth => hth.raiseAck.kept)).raiseFloor
    · exact hs.modThread (fun _ hth => hth.raiseAck.kept)

theorem Good.engAcked {tile id rid wts} (hs : Good K s) : Good K (s.engAcked tile id rid wts) := by
  unfold State.engAcked
  dsimp only
  exact hs.modCmd.flushDone.copyDone

theorem Good.ackOp {op wts} (hs : Good K s) : Good K (s.ackOp op wts) := by
  unfold State.ackOp
  dsimp only
  split
  · exact hs
  · split
    · exact hs.kept.engAcked.checkLaunch
    · exact hs.kept.raiseIssuer.wakeOnAck.settle.checkLaunch

theorem Good.storeAcked {op wts wb} (hs : Good K s) : Good K (s.storeAcked op wts wb) := by
  unfold State.storeAcked
  dsimp only
  split
  · split
    · exact hs.kept.modTile
    · exact hs.kept
  · refine Good.ackOp ?_
    split
    · exact hs.kept.modTile
    · exact hs.kept

theorem Good.execStoreAck {op wts wb} (hs : Good K s) : Goes K (execStoreAck { s with event := some (.storeAck op wts wb) }) :=
  hs.onEvent fun _ hs => ⟨_, rfl, hs.storeAcked⟩

theorem Good.refuseEngine {tile id r} (hs : Good K s) : Good K (s.refuseEngine tile id r) := by
  unfold State.refuseEngine
  split
  · exact Good.ite hs.discard (Good.ite hs.discard hs.discard)
  · exact hs

theorem Good.losePosted {op r fe} (hs : Good K s) : Good K (s.losePosted op r fe) := by
  unfold State.losePosted
  dsimp only
  split
  · exact hs
  · split
    · exact hs.kept.refuseEngine.checkLaunch
    · exact hs.ackOp.loseAccess

theorem Good.execPostedRefusal {op r} (hs : Good K s) : Goes K (execPostedRefusal { s with event := some (.postedRefusal op r) }) := by
  refine hs.onEvent fun s hs => ⟨_, rfl, ?_⟩
  exact hs.kept.losePosted

theorem Good.closePeer {rid} (hs : Good K s) : Good K (s.closePeer rid) := by
  unfold State.closePeer
  exact Good.ite hs hs.kept

/-! ## Replies -/

theorem Good.fillCaches {th : Thread} {r} (hs : Good K s) : Good K (s.fillCaches th r) := by
  unfold State.fillCaches
  dsimp only
  split
  · exact hs.l1Fill.l2Fill
  · exact hs.l1Fill
  · exact hs.modTile
  · exact hs

theorem Good.threadReply {t} {th : Thread} {r} (hs : Good K s) (hth : GoodThread K th) : Good K (s.threadReply t th r) := by
  unfold State.threadReply
  dsimp only
  split
  · exact Good.ite (hs.trapHere hth) hs
  · refine Good.ite hs.fillCaches ?_
    split
    · refine hs.fillCaches.landLoad ?_
      split
      · exact hth
      · exact hth.raise
    · exact hs.fillCaches.gatherArrive hth
    · refine hs.fillCaches.retire ?_
      refine GoodThread.raise ?_
      split
      · exact hth
      · exact hth.raise
    · exact hs.fillCaches

theorem Good.engGot {tile id rid bs wts} (hs : Good K s) : Good K (s.engGot tile id rid bs wts) := by
  unfold State.engGot
  dsimp only
  split
  · split
    · exact Good.ite hs.modCmd.copyGot hs.modCmd.stageGot
    · exact hs
  · exact hs

theorem Good.loadReplied {r} (hs : Good K s) : Good K (s.loadReplied r) := by
  unfold State.loadReplied
  split
  · split
    next th hth' => exact hs.closePeer.threadReply (hs.closePeer.thread hth')
    · exact hs.closePeer
  · split
    · exact Good.ite hs hs.closePeer.refuseEngine
    · exact hs.closePeer.engGot
  · exact hs

theorem Good.execLoadReply {r} (hs : Good K s) : Goes K (execLoadReply { s with event := some (.loadReply r) }) :=
  hs.onEvent fun _ hs => ⟨_, rfl, hs.loadReplied⟩

theorem Good.threadAnswer {t} {th : Thread} {r} (hs : Good K s) (hth : GoodThread K th) : Good K (s.threadAnswer t th r) := by
  unfold State.threadAnswer
  dsimp only
  split
  · exact hs.writeRegLate.retire hth.raise.writeRegLate
  · refine Good.retire ?_ ?_
    · split
      · exact hs.writeRegLate
      · exact hs
    · split
      · exact hth.raise.writeRegLate
      · exact hth.raise
  · exact hs.feStatus hth.raise
  · exact hs.retire hth.raise
  · exact hs.retire hth.raise.raise
  · exact hs.retire hth
  · exact hs

theorem Good.threadRefused {t} {th : Thread} {e} (hs : Good K s) (hth : GoodThread K th) : Good K (s.threadRefused t th e) := by
  unfold State.threadRefused
  split
  · exact (hs.retire hth).loseAccess
  · exact hs.trapHere hth.unissued

theorem Good.atomicReplied {r} (hs : Good K s) : Good K (s.atomicReplied r) := by
  unfold State.atomicReplied
  split
  · extract_lets s₁ s₂ s₃
    have h₁ : Good K s₁ := Good.ite (hs.foldl fun _ _ hs => hs.loseArm) hs
    have h₃ : Good K s₃ := by
      unfold s₃
      split
      · exact Good.ite h₁.closePeer h₁.closePeer.ackOp
      · exact Good.ite h₁.closePeer h₁.closePeer.ackOp
    split
    next th h =>
      split
      · split
        · exact h₃.losePosted
        · exact h₃
      · refine Good.ite h₃ ?_
        split
        · exact h₃.threadRefused (h₃.thread h)
        · exact h₃.threadAnswer (h₃.thread h)
    · split
      · exact Good.ite h₃.losePosted h₃
      · exact h₃
  · split
    · exact Good.ite hs hs.closePeer.refuseEngine
    · exact hs.closePeer.engAcked
  · exact Good.ite hs hs.raiseFloor
  · exact hs

theorem Good.execAtomicReply {r} (hs : Good K s) : Goes K (execAtomicReply { s with event := some (.atomicReply r) }) :=
  hs.onEvent fun _ hs => ⟨_, rfl, hs.atomicReplied⟩

/-! ## At the home -/

theorem Good.execHomeLoad {a k} (hs : Good K s) : Goes K (execHomeLoad { s with event := some (.homeLoad a k) }) :=
  hs.onEvent fun _ hs => ⟨_, rfl, hs.homeLoad⟩

theorem Good.execHomeStore {a op data} (hs : Good K s) : Goes K (execHomeStore { s with event := some (.homeStore a op data) }) :=
  hs.onEvent fun _ hs => ⟨_, rfl, hs.homeStore⟩

theorem Good.execHomeAtomic {a op amo b d} (hs : Good K s) : Goes K (execHomeAtomic { s with event := some (.homeAtomic a op amo b d) }) :=
  hs.onEvent fun _ hs => ⟨_, rfl, hs.homeAtomic⟩

theorem Good.execPublication {a} (hs : Good K s) : Goes K (execPublication { s with event := some (.publication a) }) :=
  hs.onEvent fun _ hs => ⟨_, rfl, hs.publish⟩

theorem Good.execStashWriteBack {w} (hs : Good K s) : Goes K (execStashWriteBack { s with event := some (.stashWriteBack w) }) :=
  hs.onEvent fun _ hs => ⟨_, rfl, hs.homeWriteBack⟩

theorem Good.execDropMessage {tile idx line reg op} (hs : Good K s) :
    Goes K (execDropMessage { s with event := some (.dropMessage tile idx line reg op) }) :=
  hs.onEvent fun _ hs => ⟨_, rfl, hs.homeDrop⟩

theorem Good.recallAnswered {line tile stamp reg fe data bad} (hs : Good K s) : Good K (s.recallAnswered line tile stamp reg fe data bad) := by
  unfold State.recallAnswered
  dsimp only
  exact (Good.ite hs.endRegistration.release hs).send

theorem Good.execRecallAnswer {line tile stamp reg fe data bad} (hs : Good K s) :
    Goes K (execRecallAnswer { s with event := some (.recallAnswer line tile stamp reg fe data bad) }) :=
  hs.onEvent fun _ hs => ⟨_, rfl, hs.recallAnswered⟩

theorem Good.recalled {line tile} (hs : Good K s) : Good K (s.recalled line tile) := by
  unfold State.recalled
  dsimp only
  split
  · split
    · exact hs.modTile.dropStashLine.send
    · exact hs
  · exact hs

theorem Good.execRecallHolder {line tile} (hs : Good K s) : Goes K (execRecallHolder { s with event := some (.recallHolder line tile) }) :=
  hs.onEvent fun _ hs => ⟨_, rfl, hs.recalled⟩

theorem Good.forwarded {line tile reg a k} (hs : Good K s) : Good K (s.forwarded line tile reg a k) := by
  unfold State.forwarded
  split
  · exact Good.ite hs.replyLoad hs.replyLoad
  · exact hs.post

theorem Good.execForwardedLoad {line tile reg a k} (hs : Good K s) :
    Goes K (execForwardedLoad { s with event := some (.forwardedLoad line tile reg a k) }) :=
  hs.onEvent fun _ hs => ⟨_, rfl, hs.forwarded⟩

/-! ## Fills and stash requests -/

theorem Good.wakeFill {tile idx} (hs : Good K s) : Good K (s.wakeFill tile idx) := by
  unfold State.wakeFill
  dsimp only
  refine hs.modTile.foldl fun s w hs => ?_
  split
  · split
    · exact hs.resumeAt
    · exact hs
  · exact hs.post

theorem Good.failFill {tile idx e} (hs : Good K s) : Good K (s.failFill tile idx e) := by
  unfold State.failFill
  dsimp only
  refine Good.foldl ?_ fun s w hs => hs.refuseReq
  refine hs.modTile.foldl_mem fun u p hp hu => ?_
  split
  · exact hu.trapHere (hs.threads (List.mem_of_mem_filter hp))
  · exact hu

theorem Good.filled {tile idx line data fe stamp err} (hs : Good K s) : Good K (s.filled tile idx line data fe stamp err) := by
  unfold State.filled
  dsimp only
  split
  · exact hs.modTile.failFill
  · split
    · exact Good.ite hs.modTile.setStashLine.drainLine.wakeFill hs.modTile.postWriteBack.wakeFill
    · exact Good.ite hs.modTile.writeMem.setStashLine.drainLine.wakeFill hs.modTile.postWriteBack.wakeFill

theorem Good.execStashFill {tile idx line data fe stamp err} (hs : Good K s) :
    Goes K (execStashFill { s with event := some (.stashFill tile idx line data fe stamp err) }) :=
  hs.onEvent fun _ hs => ⟨_, rfl, hs.filled⟩

theorem Good.execRemoteStashAccess {r} (hs : Good K s) : Goes K (execRemoteStashAccess { s with event := some (.remoteStashAccess r) }) :=
  hs.onEvent fun _ hs => ⟨_, rfl, hs.remoteStash⟩

theorem Good.parkRefused {r} (hs : Good K s) : Good K (s.parkRefused r) := by
  unfold State.parkRefused
  dsimp only
  split
  · split
    next th hth' =>
      refine Good.ite (Good.ite hs.kept.losePosted hs.kept.post) ?_
      refine Good.ite hs.kept ?_
      split
      · exact hs.kept.takePending (hs.kept.thread hth')
      · exact Good.ite (hs.kept.trapHere (hs.kept.thread hth')) hs.kept.post
    · exact Good.ite hs.kept (Good.ite hs.kept.losePosted hs.kept.post)
  · exact hs.kept.answerPeer
  · exact hs.kept

theorem Good.execParkTableRefusal {r} (hs : Good K s) : Goes K (execParkTableRefusal { s with event := some (.parkTableRefusal r) }) :=
  hs.onEvent fun _ hs => ⟨_, rfl, hs.parkRefused⟩

theorem Good.resend {r} (hs : Good K s) : Good K (s.resend r) := by
  unfold State.resend
  dsimp only
  split
  · refine Good.ite hs ?_
    refine Good.ite (hs.getD fun u hu => ?_) ?_
    · obtain ⟨th, hth, rfl⟩ := Option.map_eq_some_iff.mp hu
      exact hs.takePending (hs.thread hth)
    · refine Good.ite hs.remoteStash ?_
      split
      · exact hs.leavePeer
      · exact hs.sendStash
  · exact hs

theorem Good.execFeResend {r} (hs : Good K s) : Goes K (execFeResend { s with event := some (.feResend r) }) :=
  hs.onEvent fun _ hs => ⟨_, rfl, hs.resend⟩

theorem Good.withdrawn {t} (hs : Good K s) : Good K (s.withdrawn t) := by
  unfold State.withdrawn
  dsimp only
  split
  next th h =>
    split
    next rid _ _ _ =>
      have hclosed : Good K { s.closePeer rid with agenda := s.agenda.filter (fun p => !retries t rid p) } :=
        hs.closePeer.with_agenda fun _ hp => hs.agenda (List.mem_of_mem_filter hp)
      exact Good.ite (Good.takePending hclosed.kept (hs.thread h)) hs
    · exact hs
  · exact hs

theorem Good.execWithdrawal {tid} (hs : Good K s) : Goes K (execWithdrawal { s with event := some (.withdrawal tid) }) :=
  hs.onEvent fun _ hs => ⟨_, rfl, hs.withdrawn⟩

theorem Good.execSendQueueFree {tid} (hs : Good K s) : Goes K (execSendQueueFree { s with event := some (.sendQueueFree tid) }) := by
  refine hs.onEvent fun s hs => ⟨_, rfl, ?_⟩
  split
  · split
    · exact hs.resumeWith (fun _ hth => hth.kept)
    · exact hs
  · exact hs

theorem Good.translated {t} {th : Thread} {i va} (hs : Good K s) (hth : GoodThread K th) : Good K (s.translated t th i va) := by
  unfold State.translated
  dsimp only
  split
  · exact hs.resumeWith
  · split
    · exact hs.modTile.resumeWith
    · exact hs.await hth
    · exact hs.await hth

theorem Good.fetchTranslated {t} {th : Thread} {va} (hs : Good K s) (hth : GoodThread K th) :
    Good K (s.fetchTranslated t th va) := by
  unfold State.fetchTranslated
  split
  · exact hs.warmTlb.setThread hth.rejoin
  · exact Good.ite (hs.trapHere hth) (hs.await hth)
  · exact hs.await hth

theorem Good.execTranslationInstalled {tid} (hs : Good K s) :
    Goes K (execTranslationInstalled { s with event := some (.translationInstalled tid) }) := by
  refine hs.onEvent fun s hs => ⟨_, rfl, ?_⟩
  split
  next th hth' =>
    split
    · exact hs.translated (hs.thread hth')
    · exact hs.fetchTranslated (hs.thread hth')
    · exact hs.resumeWith
    · exact hs
  · exact hs

/-! ## Fault service -/

theorem Good.install {x} (hs : Good K s) : Good K (s.install x) := by
  unfold State.install
  refine Good.foldl ?_ fun s p hs => ?_
  · refine hs.foldl fun _ _ hs => ?_
    exact hs.putFrame
  · exact hs.putAnchor

theorem Good.retryFills (hs : Good K s) : Good K s.retryFills := by
  unfold State.retryFills
  refine hs.foldl fun s p hs => hs.foldl fun s q hs => ?_
  exact hs.getD fun u hu => hs.startFill hu

theorem Good.declineFills {t} (hs : Good K s) : Good K (s.declineFills t) := by
  unfold State.declineFills
  dsimp only
  refine hs.foldl fun s p hs => ?_
  refine hs.modTile.foldl fun _ _ hs => ?_
  exact hs.refuseReq

theorem Good.faultServed {t cmd mapped} (hs : Good K s) : Good K (s.faultServed t cmd mapped) := by
  unfold State.faultServed
  extract_lets s₁
  have h₁ : Good K s₁ := by
    unfold s₁
    split
    · exact hs.install.retryFills
    · exact hs.declineFills
    · exact hs
  split
  · exact h₁.engineServiced
  · split
    next th h =>
      split
      · exact Good.ite (h₁.setThread (h₁.thread h).rejoin) (h₁.trapHere (h₁.thread h))
      · exact h₁.setThread (GoodThread.kept (h₁.thread h))
      · exact h₁
    · exact h₁

theorem Good.execFaultServiceEnd {tid cmd mapped} (hs : Good K s) :
    Goes K (execFaultServiceEnd { s with event := some (.faultServiceEnd tid cmd mapped) }) :=
  hs.onEvent fun _ hs => ⟨_, rfl, hs.faultServed⟩

/-! ## Registers of the device -/

theorem Good.setRegion {die n r} (hs : Good K s) : Good K (s.setRegion die n r) := by
  unfold State.setRegion
  exact hs.kept

theorem Good.writeFrctl {die n v} (hs : Good K s) : Good K (s.writeFrctl die n v) := by
  unfold State.writeFrctl
  dsimp only
  exact Good.ite hs (Good.ite (Good.ite hs.setRegion hs.setRegion) hs.setRegion)

theorem Good.writeRegion {die n v f} (hs : Good K s) : Good K (s.writeRegion die n v f) := Good.ite hs hs.setRegion

theorem Good.writeSnapctl {v} (hs : Good K s) : Good K (s.writeSnapctl v) := by
  unfold State.writeSnapctl
  dsimp only
  exact Good.ite hs hs.kept

theorem Good.settingWrite {tile die r v} (hs : Good K s) : Good K (s.settingWrite tile die r v) := by
  unfold State.settingWrite
  dsimp only
  split
  · exact Good.ite hs.modTile hs
  · exact Good.ite hs.modTile hs
  · exact Good.ite hs.modTile hs
  · exact Good.ite hs.modTile hs
  · exact Good.ite hs.kept hs
  · exact hs.modTile
  · exact hs.writeRegion
  · exact hs.writeRegion
  · exact hs.writeRegion
  · exact hs.writeRegion
  · exact hs.writeFrctl
  · exact hs.writeSnapctl
  · exact hs.kept
  · exact Good.ite hs.kept hs
  · exact hs

theorem Good.preset {fn v blocks r} (hs : Good K s) : Good K (s.preset fn v blocks r) := by
  unfold State.preset
  split
  · refine hs.foldl fun _ _ hs => ?_
    exact hs.settingWrite
  · exact hs

theorem Good.writeBasic {fn v} (hs : Good K s) : Good K (s.writeBasic fn v) := by
  unfold State.writeBasic
  dsimp only
  refine Good.foldl ?_ fun s r hs => ?_
  · refine Good.foldl ?_ fun s r hs => ?_
    · refine hs.kept.foldl fun _ _ hs => ?_
      exact hs.preset
    · exact hs.preset
  · exact hs.preset

theorem Good.expertWrite {tile die r v} (hs : Good K s) : Good K (s.expertWrite tile die r v) := by
  unfold State.expertWrite
  split
  · exact hs.writeBasic
  · exact hs.settingWrite

theorem Good.expertNow {tile die r v} (hs : Good K s) : Good K (s.expertNow tile die r v) := by
  unfold State.expertNow
  dsimp only
  exact (Good.ite hs hs.expertWrite).kept

theorem Good.landExpert (hs : Good K s) : Good K s.landExpert := by
  unfold State.landExpert
  refine hs.kept.foldl fun _ _ hs => ?_
  exact hs.expertWrite

theorem Good.atStart (hs : Good K s) : Good K s.atStart := by
  unfold State.atStart
  exact hs.kept

theorem Good.execMfs {d r} (hs : Good K s) : Answers K s (execMfs d r s) := by
  unfold Machine.execMfs
  refine hs.onThread (fun t th hth => ?_)
  refine Good.ite (hs.illegalInstr hth) ?_
  split
  · split
    · exact hs.result hth
    · exact hs.illegalState hth
  · exact hs.result hth

theorem GoodThread.sysWrite {th : Thread} {r v} (hth : GoodThread K th) : GoodThread K (th.sysWrite r v) := by
  have heven : (v &&& ~~~1).getLsbD 0 = false := by simp
  unfold Thread.sysWrite
  dsimp only
  split
  · exact GoodThread.ite hth hth.kept
  · exact GoodThread.ite hth hth.kept
  · exact hth.with_epc fun _ => heven
  · exact GoodThread.ite hth hth.kept
  · exact hth.with_tvec fun _ => heven
  all_goals exact hth.kept

theorem Good.writeXdata {t} {th : Thread} {v} (hs : Good K s) (hth : GoodThread K th) : Good K (s.writeXdata t th v) := by
  unfold State.writeXdata
  dsimp only
  split
  · exact hs.illegalState hth
  · exact Good.ite (hs.kept.retire hth) (hs.post.await hth)

theorem Good.execMts {r a} (hs : Good K s) : Answers K s (execMts r a s) := by
  unfold Machine.execMts
  dsimp only
  refine hs.onThread (fun t th hth => ?_)
  refine Good.ite (hs.illegalInstr hth) ?_
  split
  · exact hs.illegalInstr hth
  · exact Good.ite (hs.writeXdata hth) (Good.ite (hs.illegalState hth) (hs.modTile.retire hth.sysWrite))

/-! ## Traps taken and left -/

theorem Good.ackAt {t} {th : Thread} {delay} (hs : Good K s) : Good K (s.ackAt t th delay) := hs.post

theorem Good.execXdataWrite {tid} (hs : Good K s) : Goes K (execXdataWrite { s with event := some (.xdataWrite tid) }) := by
  refine hs.onEvent fun s hs => ⟨_, rfl, ?_⟩
  split
  · split
    · exact hs.expertNow.ackAt
    · exact hs
  · exact hs

theorem Good.execTrap {i} (hs : Good K s) : Answers K s (execTrap i s) := hs.onThread (fun _ _ hth => hs.trapHere hth)

theorem Good.execEret (hs : Good K s) : Answers K s (execEret s) :=
  hs.onThread (fun _ _ hth => Good.ite (hs.illegalState hth) (Good.ite (hs.endThread hth) (hs.setThread hth.leaveHandler)))

theorem Good.execHalt (hs : Good K s) : Answers K s (execHalt s) := hs.onThread (fun _ _ hth => hs.haltThread hth.kept)

/-! ## Generations and translations -/

theorem Good.wipe {g} (hs : Good K s) : Good K (s.wipe g) := by
  have hkeep : ∀ f, Good K { s with mem := Memory.keep s.mem f } := fun f => hs.with_mem fun h => Memory.wf_keep f (hs.mem h)
  unfold State.wipe
  dsimp only
  refine Good.foldl (Good.foldl (Good.foldl (hkeep _).kept ?_) ?_) ?_
  · exact fun _ _ hs => hs.freshLocal
  · exact fun _ _ hs => hs.modLine.release
  · exact fun _ _ hs => hs.modLine.release

theorem Good.bump {t} {th : Thread} {g} (hs : Good K s) (hth : GoodThread K th) : Good K (s.bump t th g) :=
  Good.ite (hs.await hth) (hs.modGuest.wipe.ackAt.await hth)

theorem Good.execGenbump {a} (hs : Good K s) : Answers K s (execGenbump a s) := by
  unfold Machine.execGenbump
  dsimp only
  refine hs.onThread (fun t th hth => ?_)
  split
  · exact hs.illegalInstr hth
  · exact Good.ite (hs.illegalState hth) (Good.ite (hs.illegalState hth) (hs.bump hth))

theorem Good.shoot {t} {th : Thread} {what cores} (hs : Good K s) (hth : GoodThread K th) : Good K (s.shoot t th what cores) := by
  unfold State.shoot
  refine Good.await ?_ hth
  refine hs.foldl fun _ _ hs => ?_
  exact hs.post

theorem Good.execTlbinv {a b} (hs : Good K s) : Answers K s (execTlbinv a b s) := by
  unfold Machine.execTlbinv
  dsimp only
  refine hs.onThread (fun t th hth => ?_)
  refine Good.ite (hs.illegalInstr hth) ?_
  split
  · exact hs.illegalState hth
  · exact Good.ite (hs.protection hth) (Good.ite (hs.ackAt.await hth) (hs.shoot hth))

theorem Good.execTlbinvall (hs : Good K s) : Answers K s (execTlbinvall s) :=
  hs.onThread (fun _ _ hth => Good.ite (hs.illegalInstr hth) (hs.shoot hth))

theorem Good.shootAt {core w t} (hs : Good K s) : Good K (s.shootAt core w t) := by
  unfold State.shootAt
  extract_lets s₁ more s₂
  have h₁ : Good K s₁ := by
    refine Good.kept (hs.mapThreads (fun p => ?_) fun p hp => ?_)
    · split <;> rfl
    · split
      · exact hp.kept
      · exact hp
  have h₂ : Good K s₂ := Good.ite h₁ h₁.modTile
  refine Good.ite h₁.post ?_
  split
  next th h =>
    split
    · exact Good.ite (h₂.setThread (GoodThread.kept (h₂.thread h))).ackAt (h₂.setThread (GoodThread.kept (h₂.thread h)))
    · exact h₂
  · exact h₂

theorem Good.execTlbShootdown {core what tid} (hs : Good K s) :
    Goes K (execTlbShootdown { s with event := some (.tlbShootdown core what tid) }) :=
  hs.onEvent fun _ hs => ⟨_, rfl, hs.shootAt⟩

/-! ## Cache lines -/

theorem Good.llcAt {line t drop} (hs : Good K s) : Good K (s.llcAt line t drop) := by
  unfold State.llcAt
  split
  · exact hs
  next th hth' =>
    split
    · exact hs.trapHere (hs.thread hth')
    · exact Good.ite hs.holdMsg (Good.ite hs.holdMsg.recallLine hs.modLine.ackAt)

theorem Good.lineOp {a drop} (hs : Good K s) : Answers K s (lineOp a drop s) := by
  unfold Machine.lineOp
  dsimp only
  exact hs.onThread (fun _ _ hth => Good.ite (hs.illegalInstr hth) (Good.ite (hs.protection hth) (hs.post.await hth)))

theorem Good.execCwb {a} (hs : Good K s) : Answers K s (execCwb a s) := hs.lineOp

theorem Good.execCinv {a} (hs : Good K s) : Answers K s (execCinv a s) := hs.lineOp

end Sys2Proof.Proofs
end

