-- ==== Sys2Proof/Proofs/KeptByConvoys.lean ====
section
/-!
PROOFS. Convoys, records, guests, loads and stores, migration and peers keep the invariant.
-/

namespace Sys2Proof.Proofs

open Sys2Proof Sys2Proof.Machine Sys2Proof.Claims

-- A default argument's tactic is read only when all declarations before are checked: proofs elaborated side by side would each
-- hold a waiting thread.
set_option Elab.async false

variable {K : Asked} {s : State}

/-! ## Convoys -/

theorem Good.ensureConvoy {r : Record} (hs : Good K s) : Good K (s.ensureConvoy r) := by
  unfold State.ensureConvoy
  split
  · exact hs
  · exact hs.kept

theorem Good.convoyThreads {g c} {p : Nat × Thread} (hs : Good K s) (hp : p ∈ s.convoyThreads g c) : GoodThread K p.2 :=
  hs.threads (List.mem_of_mem_filter hp)

theorem Good.sendPod {d g c k} (hs : Good K s) : Good K (s.sendPod d g c k) := by
  unfold State.sendPod
  exact hs.kept

theorem Good.stopWaiting {g c} (hs : Good K s) : Good K (s.stopWaiting g c) := by
  unfold State.stopWaiting
  dsimp only
  refine hs.foldl_mem fun _ _ hp hu => ?_
  exact Good.ite (hu.setThread ((hs.convoyThreads hp).kept)) hu

theorem Good.checkStop {g c} (hs : Good K s) : Good K (s.checkStop g c) := Good.ite hs.now hs

theorem Good.controlDone {x} (hs : Good K s) : Good K (s.controlDone x) := hs.signalDone

theorem Good.controlNoop {x} (hs : Good K s) : Good K (s.controlNoop x) := hs.report.controlDone

theorem Good.beginStop {g c tp x} (hs : Good K s) : Good K (s.beginStop g c tp x) := by
  unfold State.beginStop
  dsimp only
  refine Good.checkStop ?_
  refine hs.modConvoy.stopWaiting.foldl fun _ _ hs => ?_
  exact hs.post

theorem Good.completeStop {g c} (hs : Good K s) : Good K (s.completeStop g c) := by
  unfold State.completeStop
  dsimp only
  split
  · split
    · refine Good.controlDone ?_
      refine Good.modConvoy ?_
      refine Good.foldl ?_ fun s x hs => ?_
      · refine hs.foldl_mem fun _ _ hp hu => ?_
        exact hu.setThread ((hs.convoyThreads hp).kept)
      · exact hs.slotsFreed
    · refine Good.modConvoy ?_
      refine Good.foldl ?_ fun s x hs => ?_
      · refine hs.foldl_mem fun _ _ hp hu => ?_
        exact hu.setThread ((hs.convoyThreads hp).kept)
      · exact hs.slotsFreed
  · exact hs

theorem Good.sendHeld {g c} (hs : Good K s) : Good K (s.sendHeld g c) := by
  unfold State.sendHeld
  dsimp only
  refine Good.kept ?_
  refine hs.foldl fun _ _ hs => ?_
  exact hs.countSent

theorem Good.freeThreads {g c} (hs : Good K s) : Good K (s.freeThreads g c) := by
  unfold State.freeThreads
  dsimp only
  refine hs.foldl_mem fun s p hp hu => ?_
  refine hu.setThread ?_
  split <;> exact (hs.convoyThreads hp).kept

theorem Good.closeStop {g c} (hs : Good K s) : Good K (s.closeStop g c) := by
  unfold State.closeStop
  split
  · exact hs.modConvoy.controlDone
  · exact hs

theorem Good.closeAct {g c} (hs : Good K s) : Good K (s.closeAct g c) := by
  unfold State.closeAct
  split
  · exact hs.modConvoy.controlDone
  · exact hs

theorem Good.resumeConvoy {g c} (hs : Good K s) : Good K (s.resumeConvoy g c) := hs.closeStop.modConvoy.freeThreads.sendHeld

theorem Good.discardHeld {g c} (hs : Good K s) : Good K (s.discardHeld g c) := by
  unfold State.discardHeld
  dsimp only
  refine hs.kept.foldl fun _ _ hs => ?_
  exact Good.ite hs hs.ackOp

theorem Good.cancelThreads {c ls woken} (hs : Good K s) : Good K (s.cancelThreads c ls woken) := by
  unfold State.cancelThreads
  refine hs.foldl fun s p hs => ?_
  split
  next th hth' => exact Good.ite (hs.takePending ((hs.thread hth').kept)) (hs.cancelThread (hs.thread hth'))
  · exact hs

theorem Good.endCancelled {l} (hs : Good K s) : Good K (s.endCancelled l) := by
  unfold State.endCancelled
  split
  · exact Good.ite hs.closeLaunch.releaseDependents hs.checkLaunch
  · exact hs

theorem Good.cancelScope {c} (hs : Good K s) : Good K (s.cancelScope c) := by
  unfold State.cancelScope
  dsimp only
  refine Good.foldl ?_ fun s l hs => ?_
  · refine Good.cancelThreads ?_
    refine Good.foldl_mem ?_ fun s a hp hu => ?_
    · refine Good.unarm ?_
      split
      · refine Good.discardHeld ?_
        refine Good.freeThreads ?_
        refine Good.modConvoy ?_
        refine Good.closeAct ?_
        refine Good.closeStop ?_
        refine hs.foldl fun _ _ hs => ?_
        exact hs.modLaunch (fun _ hx => hx.blame)
      · refine hs.foldl fun _ _ hs => ?_
        exact hs.modLaunch (fun _ hx => hx.blame)
    · exact hu.cancelArmed (hs.armed (List.mem_of_mem_filter hp))
  · exact hs.endCancelled

theorem Good.toldStragglers {g c n aborts} (hs : Good K s) : Good K (s.toldStragglers g c n aborts) := by
  unfold State.toldStragglers
  dsimp only
  exact Good.ite hs.modConvoy.cancelScope hs.modConvoy

theorem Good.stragglers {g c} (hs : Good K s) : Good K (s.stragglers g c) := by
  unfold State.stragglers
  dsimp only
  split
  · refine Good.ite ?_ ?_
    · exact hs
    · refine Good.ite ?_ ?_
      · refine hs.modConvoy.foldl fun _ _ hs => ?_
        exact hs.sendPod
      · refine Good.cancelScope ?_
        refine Good.foldl_mem ?_ fun s p hp hu => ?_
        · refine hs.modConvoy.foldl fun _ _ hs => ?_
          exact hs.sendPod
        · split
          · split
            · exact (hu.modLaunch (fun _ hx => hx.blame)).setThread (((hs.convoyThreads (List.mem_of_mem_filter hp)).rejoin).kept)
            · exact (hu.modLaunch (fun _ hx => hx.blame)).trapHere (hs.convoyThreads (List.mem_of_mem_filter hp))
          · exact (hu.modLaunch (fun _ hx => hx.blame)).setThread ((hs.convoyThreads (List.mem_of_mem_filter hp)).kept)
  · exact hs

theorem Good.execStragglerDeadline {guest convoy told} (hs : Good K s) :
    Goes K (execStragglerDeadline { s with event := some (.stragglerDeadline guest convoy told) }) := by
  refine hs.onEvent fun s hs => ?_
  match told with
  | none => exact ⟨_, rfl, hs.stragglers⟩
  | some (n, aborts) => exact ⟨_, rfl, hs.toldStragglers⟩

/-! ## Armed records -/

theorem Good.startArmed {a : Armed} {agreed} (hs : Good K s) (ha : GoodArmed K a) : Good K (s.startArmed a agreed) := by
  unfold State.startArmed
  dsimp only
  exact ((Good.ite hs.ensureConvoy hs.ensureConvoy.modConvoy).modConvoy).acceptLaunch ha

theorem Good.act {g c} (hs : Good K s) : Good K (s.act g c) := by
  unfold State.act
  dsimp only
  split
  · split
    · split
      · refine Good.sendHeld ?_
        refine hs.modConvoy.unarm.foldl_mem fun _ _ hp hu => ?_
        exact hu.startArmed (hs.modConvoy.armed (List.mem_of_mem_filter hp))
      · exact hs.modConvoy.beginStop
      · split
        · exact hs.modConvoy.resumeConvoy.controlDone
        · exact hs.modConvoy.resumeConvoy
      · split
        · exact hs.modConvoy.cancelScope.controlDone
        · exact hs.modConvoy.cancelScope
    · exact hs
  · exact hs

theorem Good.dropLaunch {a : Armed} (hs : Good K s) (ha : GoodArmed K a) : Good K (s.dropLaunch a) := by
  unfold State.dropLaunch
  dsimp only
  exact (hs.setLaunch (GoodLaunch.kept (GoodLaunch.ofRecord ha))).releaseAfter

theorem Good.abandon {g c t missing} (hs : Good K s) : Good K (s.abandon g c t missing) := by
  unfold State.abandon
  split
  next v _ =>
    extract_lets logged
    have hlogged : Good K logged := hs.foldl fun _ _ hs => hs.log
    split
    · split
      · refine (hlogged.modConvoy.unarm.foldl_mem fun u a ha hu => hu.dropLaunch ?_).sendHeld
        exact hlogged.modConvoy.armed (List.mem_of_mem_filter ha)
      · exact hlogged.modConvoy.cancelScope
    · exact Good.ite hlogged.cancelScope hlogged.modConvoy
  · exact hs

theorem Good.tryCommit {g c} (hs : Good K s) : Good K (s.tryCommit g c) := by
  unfold State.tryCommit
  dsimp only
  split
  · split
    · split
      · refine Good.act ?_
        refine Good.modConvoy ?_
        refine hs.foldl fun _ _ hs => ?_
        exact hs.sendPod
      · exact hs
    · exact hs
  · exact hs

theorem Good.agree {r : Record} {a x} (hs : Good K s) : Good K (s.agree r a x) := by
  unfold State.agree
  dsimp only
  split
  · exact hs.ensureConvoy.modConvoy.modConvoy.abandon
  · exact Good.ite hs.ensureConvoy.modConvoy.post.tryCommit hs.ensureConvoy.modConvoy.sendPod.post

theorem Good.fire {g c} (hs : Good K s) : Good K (s.fire g c) := by
  unfold State.fire
  dsimp only
  refine hs.foldl_mem fun u a ha hu => ?_
  have hmarked : Good K { u with armed := u.armed.map (fun (x : Armed) => if x = a then { x with fired := true } else x) } := by
    refine hu.with_armed fun b hb => ?_
    obtain ⟨x, hx, rfl⟩ := List.mem_map.mp hb
    have hrcd : GoodArmed K x := hu.armed hx
    split <;> exact hrcd
  refine Good.ite ((hu.sublistArmed List.eraseP_sublist).startArmed (hs.armed (List.mem_of_mem_filter ha))) ?_
  exact Good.ite hu (Good.ite hmarked hmarked.agree)

theorem Good.execRecordFire {guest convoy} (hs : Good K s) : Goes K (execRecordFire { s with event := some (.recordFire guest convoy) }) :=
  hs.onEvent fun _ hs => ⟨_, rfl, hs.fire⟩

theorem Good.execReady {guest convoy time src counts} (hs : Good K s) :
    Goes K (execReady { s with event := some (.ready guest convoy time src counts) }) :=
  hs.onEvent fun _ hs => ⟨_, rfl, hs.modConvoy.tryCommit⟩

theorem Good.execCommit {guest convoy time count} (hs : Good K s) :
    Goes K (execCommit { s with event := some (.commit guest convoy time count) }) := by
  refine hs.onEvent fun s hs => ⟨_, rfl, ?_⟩
  split
  · exact Good.ite hs.modConvoy.act hs
  · exact hs

theorem Good.execAbandon {guest convoy time missing} (hs : Good K s) :
    Goes K (execAbandon { s with event := some (.abandon guest convoy time missing) }) :=
  hs.onEvent fun _ hs => ⟨_, rfl, hs.abandon⟩

theorem Good.giveUp {g c limit missing} (hs : Good K s) : Good K (s.giveUp g c limit missing) := by
  unfold State.giveUp
  split
  · split
    · split
      · refine Good.abandon ?_
        refine hs.foldl fun _ _ hs => ?_
        exact hs.sendPod
      · exact hs
    · exact hs
  · exact hs

theorem Good.execReadyTimeout {guest convoy} (hs : Good K s) :
    Goes K (execReadyTimeout { s with event := some (.readyTimeout guest convoy) }) :=
  hs.onEvent fun _ hs => ⟨_, rfl, hs.giveUp⟩

theorem Good.execCommitTimeout {guest convoy} (hs : Good K s) :
    Goes K (execCommitTimeout { s with event := some (.commitTimeout guest convoy) }) :=
  hs.onEvent fun _ hs => ⟨_, rfl, hs.giveUp⟩

theorem Good.dueControls {g c kind} (hs : Good K s) : Good K (s.dueControls g c kind).2 := by
  unfold State.dueControls
  dsimp only
  exact hs.kept

theorem Good.putOff {x} (hs : Good K s) : Good K (s.putOff x) := by
  unfold State.putOff
  exact hs.kept

theorem Good.stopNow {x} (hs : Good K s) : Good K (s.stopNow x) := by
  unfold State.stopNow
  dsimp only
  split
  · exact hs.putOff
  · exact Good.ite hs.modConvoy.controlNoop (Good.ite hs.modConvoy.agree hs.modConvoy.modConvoy.beginStop)

theorem Good.execConvoyStop {guest convoy} (hs : Good K s) : Goes K (execConvoyStop { s with event := some (.convoyStop guest convoy) }) := by
  refine hs.onEvent fun s hs => ⟨_, rfl, ?_⟩
  dsimp only
  refine hs.dueControls.foldl fun _ _ hs => ?_
  exact hs.stopNow

theorem Good.execStopCompletion {guest convoy} (hs : Good K s) :
    Goes K (execStopCompletion { s with event := some (.stopCompletion guest convoy) }) :=
  hs.onEvent fun _ hs => ⟨_, rfl, hs.completeStop⟩

theorem Good.resumeNow {x} (hs : Good K s) : Good K (s.resumeNow x) := by
  unfold State.resumeNow
  dsimp only
  refine Good.ite hs.controlNoop ?_
  split
  · exact hs.putOff
  · exact Good.ite hs.controlNoop (Good.ite hs.agree hs.modConvoy.resumeConvoy.controlDone)

theorem Good.execConvoyResume {guest convoy} (hs : Good K s) :
    Goes K (execConvoyResume { s with event := some (.convoyResume guest convoy) }) := by
  refine hs.onEvent fun s hs => ⟨_, rfl, ?_⟩
  dsimp only
  refine hs.dueControls.foldl fun _ _ hs => ?_
  exact hs.resumeNow

theorem Good.cancelNow {x} (hs : Good K s) : Good K (s.cancelNow x) := by
  unfold State.cancelNow
  dsimp only
  exact Good.ite hs.controlNoop (Good.ite hs.putOff (Good.ite hs.agree hs.modConvoy.cancelScope.controlDone))

theorem Good.execCancel {c} (hs : Good K s) : Goes K (execCancel { s with event := some (.cancel c) }) := by
  refine hs.onEvent fun s hs => ⟨_, rfl, ?_⟩
  split
  · split
    next s hs' => exact (Good.of_pair hs.dueControls hs').cancelScope
    next xs s hxs' =>
      refine (Good.of_pair hs.dueControls hxs').foldl fun _ _ hs => ?_
      exact hs.cancelNow
  · exact hs.cancelScope

/-! ## The wall clock -/

theorem Good.wallDue (hs : Good K s) : Good K s.wallDue := by
  unfold State.wallDue
  dsimp only
  refine Good.foldl ?_ fun s p hs => ?_
  · refine Good.foldl ?_ fun s x hs => ?_
    · refine hs.foldl fun _ _ hs => ?_
      exact hs.now
    · refine hs.now ?_
      refine GoodEvent.ite (fun _ => trivial) ?_
      split <;> exact (fun _ => trivial)
  · exact hs.post

theorem Good.execCvstat {d} (hs : Good K s) : Answers K s (execCvstat d s) :=
  hs.onThread (fun _ _ hth => hs.kept.result hth)

theorem Good.execWaitwall {a} (hs : Good K s) : Answers K s (execWaitwall a s) := by
  unfold Machine.execWaitwall
  dsimp only
  exact hs.onThread (fun _ _ hth => Good.ite (hs.retire hth) (hs.await hth))

theorem Good.execWallReached {tid} (hs : Good K s) : Goes K (execWallReached { s with event := some (.wallReached tid) }) := by
  refine hs.onEvent fun s hs => ⟨_, rfl, ?_⟩
  split
  next th hth' =>
    split
    · exact Good.ite (hs.retire (hs.thread hth')) hs
    · exact hs
  · exact hs

theorem Good.withRecord {i a f} (hs : Good K s) (hf : ∀ a0 a1 a2 a3, Good K a0 → GoodThread K a2 → Good K (f a0 a1 a2 a3)) :
    Answers K s (withRecord i a f s) := by
  unfold Machine.withRecord
  dsimp only
  refine hs.onThread (fun t th hth => ?_)
  refine hs.access hth (fun s th x hs hth => ?_)
  split
  · refine Good.ite (hs.await hth) ?_
    refine Good.ite (hs.trapHere hth) ?_
    split
    · exact hs.trapHere hth
    · exact hf _ _ _ _ hs hth
  · exact hs.protection hth

theorem GoodEvent.copy {t} {r : Record} {add : Bool} (hr : add = true → GoodRecord K r) : GoodEvent K (.acknowledgementWait t (some (r, add))) := by
  cases add with
  | false => exact fun _ => trivial
  | true => exact hr rfl

theorem Good.armAt {t} {r : Record} {add} (hs : Good K s) (hr : add = true → GoodRecord K r) : Good K (s.armAt t r add) :=
  hs.post (GoodEvent.copy hr)

theorem Good.execCvarm {a} (hs : Good K s) : Answers K s (execCvarm a s) := by
  unfold Machine.execCvarm
  refine hs.withRecord fun s t th b hs hth => ?_
  dsimp only
  split
  · exact hs.illegalState hth
  next h =>
    refine (hs.armAt fun _ => GoodRecord.of_recordFault (s := s) (g := th.guest) ?_).await hth
    exact Option.not_isSome_iff_eq_none.mp fun hf => h (.inl hf)

theorem Good.execCvdisarm {a} (hs : Good K s) : Answers K s (execCvdisarm a s) := by
  unfold Machine.execCvdisarm
  exact hs.withRecord fun s t th b hs hth => (hs.armAt (add := false) fun h => Bool.noConfusion h).await hth

theorem Good.acknowledged {t} {th : Thread} (hs : Good K s) (hth : GoodThread K th) : Good K (s.acknowledged t th) := by
  unfold State.acknowledged
  split
  · exact hs.retire hth
  · exact hs.retire hth
  · exact hs.retire hth
  · exact hs.retire hth
  · exact hs

theorem Good.armCopy {r : Record} {add : Bool} (hs : Good K s) (hr : add = true → GoodRecord K r) : Good K (s.armCopy r add) := by
  unfold State.armCopy
  dsimp only
  split
  next h => exact (hs.armRecord (hr h)).ensureConvoy
  · exact hs.unarm.foldl fun _ _ hs => hs.releaseAfter

theorem Good.execAcknowledgementWait {tid copy} (hs : Good K s) (he : GoodEvent K (.acknowledgementWait tid copy)) :
    Goes K (execAcknowledgementWait { s with event := some (.acknowledgementWait tid copy) }) := by
  refine hs.onEvent fun s hs => ⟨_, rfl, ?_⟩
  extract_lets s₁ s₂
  have h₁ : Good K s₁ := by
    unfold s₁
    split
    next r add => exact hs.armCopy fun h => by subst h; exact he
    · exact hs
  have h₂ : Good K s₂ := by
    unfold s₂
    split
    next th h => exact h₁.acknowledged (h₁.thread h)
    · exact h₁
  exact Good.ite h₂.wallDue h₂

/-! ## Boot, guests and reservations -/

theorem Good.boot {key images tables dev} (hs : Good K s) : Good K (s.boot key images tables dev) := Good.ite hs (Good.ite hs.kept hs.kept)

theorem Good.execBoot {key images tables dev} (hs : Good K s) : Goes K (execBoot { s with event := some (.boot key images tables dev) }) :=
  hs.onEvent fun _ hs => ⟨_, rfl, hs.boot⟩

theorem Good.attest {g nonce} (hs : Good K s) : Good K (s.attest g nonce) := by
  unfold State.attest
  dsimp only
  exact Good.ite hs hs.kept

theorem Good.execAttestationRequest {guest nonce} (hs : Good K s) :
    Goes K (execAttestationRequest { s with event := some (.attestationRequest guest nonce) }) :=
  hs.onEvent fun _ hs => ⟨_, rfl, hs.attest⟩

theorem Good.createGuest {g first len gen backing areas banks tables queues} (hs : Good K s) :
    Good K (s.createGuest g first len gen backing areas banks tables queues) := by
  unfold State.createGuest
  dsimp only
  refine Good.ite hs ?_
  refine Good.ite hs.setGuest.wipe.install.kept ?_
  refine hs.setGuest.wipe.install.kept.foldl fun s j hs => ?_
  refine hs.foldl fun _ _ hs => ?_
  exact hs.modTile

theorem Good.execGuestCreation {guest first len gen backing areas banks tables queues} (hs : Good K s) :
    Goes K (execGuestCreation { s with event := some (.guestCreation guest first len gen backing areas banks tables queues) }) :=
  hs.onEvent fun _ hs => ⟨_, rfl, hs.createGuest⟩

theorem Good.resendPeers {g old dev named} (hs : Good K s) : Good K (s.resendPeers g old dev named) := by
  unfold State.resendPeers
  dsimp only
  exact hs.kept

theorem Good.installPeer {g dev named old} (hs : Good K s) : Good K (s.installPeer g dev named old) := by
  unfold State.installPeer
  split
  · exact hs.modGuest
  · exact hs.modGuest.resendPeers

theorem Good.execPeerTableInstall {guest dev named old} (hs : Good K s) :
    Goes K (execPeerTableInstall { s with event := some (.peerTableInstall guest dev named old) }) :=
  hs.onEvent fun _ hs => ⟨_, rfl, hs.installPeer⟩

theorem Good.reserve {g epoch} (hs : Good K s) : Good K (s.reserve g epoch) := by
  unfold State.reserve
  dsimp only
  exact Good.ite hs.flip (Good.ite hs.flip.kept hs.flip.kept)

theorem Good.execReservationRequest {guest epoch} (hs : Good K s) :
    Goes K (execReservationRequest { s with event := some (.reservationRequest guest epoch) }) :=
  hs.onEvent fun _ hs => ⟨_, rfl, hs.reserve⟩

theorem Good.endReservation {g} (hs : Good K s) : Good K (s.endReservation g) := by
  unfold State.endReservation
  dsimp only
  exact hs.kept

theorem Good.execReservationEnd {guest} (hs : Good K s) : Goes K (execReservationEnd { s with event := some (.reservationEnd guest) }) :=
  hs.onEvent fun _ hs => ⟨_, rfl, hs.endReservation⟩

/-! ## Gates and register writes -/

theorem Good.trip (hs : Good K s) : Good K s.trip := by
  unfold State.trip
  dsimp only
  refine Good.foldl ?_ fun s p hs => ?_
  · refine hs.kept.foldl fun _ _ hs => ?_
    exact hs.cancelScope
  · exact hs.cancelScope

theorem Good.execThermalTrip (hs : Good K s) : Goes K (execThermalTrip { s with event := some .thermalTrip }) :=
  hs.onEvent fun _ hs => ⟨_, rfl, hs.trip⟩

theorem Good.execPowerGate {die} (hs : Good K s) : Goes K (execPowerGate { s with event := some (.powerGate die) }) := by
  refine hs.onEvent fun s hs => ⟨_, rfl, ?_⟩
  exact Good.ite hs hs.kept

theorem Good.execFrctlWrite {die region v} (hs : Good K s) : Goes K (execFrctlWrite { s with event := some (.frctlWrite die region v) }) :=
  hs.onEvent fun _ hs => ⟨_, rfl, hs.expertNow⟩

theorem Good.execGqosWrite {tile guest v} (hs : Good K s) : Goes K (execGqosWrite { s with event := some (.gqosWrite tile guest v) }) :=
  hs.onEvent fun _ hs => ⟨_, rfl, hs.expertNow⟩

theorem Good.execSnapctlWrite {v} (hs : Good K s) : Goes K (execSnapctlWrite { s with event := some (.snapctlWrite v) }) :=
  hs.onEvent fun _ hs => ⟨_, rfl, hs.expertNow⟩

theorem Good.latch (hs : Good K s) : Good K s.latch := Good.ite hs.kept hs

theorem Good.execSnapshotFire (hs : Good K s) : Goes K (execSnapshotFire { s with event := some .snapshotFire }) :=
  hs.onEvent fun _ hs => ⟨_, rfl, hs.latch⟩

theorem Good.execBasicRegisterWrite {fn v} (hs : Good K s) :
    Goes K (execBasicRegisterWrite { s with event := some (.basicRegisterWrite fn v) }) :=
  hs.onEvent fun _ hs => ⟨_, rfl, hs.writeBasic⟩

theorem Good.execExpertRegisterWrite {tile r v} (hs : Good K s) :
    Goes K (execExpertRegisterWrite { s with event := some (.expertRegisterWrite tile r v) }) :=
  hs.onEvent fun _ hs => ⟨_, rfl, hs.expertNow⟩

/-! ## Floating point -/

theorem Good.execFadd {p r d a b} (hs : Good K s) : Answers K s (execFadd p r d a b s) := hs.alu2

theorem Good.execFsub {p r d a b} (hs : Good K s) : Answers K s (execFsub p r d a b s) := hs.alu2

theorem Good.execFmul {p r d a b} (hs : Good K s) : Answers K s (execFmul p r d a b s) := hs.alu2

theorem Good.execFdiv {p r d a b} (hs : Good K s) : Answers K s (execFdiv p r d a b s) := hs.alu2

theorem Good.execFsqrt {p r d a} (hs : Good K s) : Answers K s (execFsqrt p r d a s) := hs.alu1

theorem Good.execFmin {p d a b} (hs : Good K s) : Answers K s (execFmin p d a b s) := hs.alu2

theorem Good.execFmax {p d a b} (hs : Good K s) : Answers K s (execFmax p d a b s) := hs.alu2

theorem Good.execFeq {p d a b} (hs : Good K s) : Answers K s (execFeq p d a b s) := hs.alu2

theorem Good.execFlt {p d a b} (hs : Good K s) : Answers K s (execFlt p d a b s) := hs.alu2

theorem Good.execFle {p d a b} (hs : Good K s) : Answers K s (execFle p d a b s) := hs.alu2

theorem Good.execFclass {p d a} (hs : Good K s) : Answers K s (execFclass p d a s) := hs.alu1

theorem Good.execFmadd {p r d a b} (hs : Good K s) : Answers K s (execFmadd p r d a b s) := hs.alu3

theorem Good.execFmsub {p r d a b} (hs : Good K s) : Answers K s (execFmsub p r d a b s) := hs.alu3

theorem Good.execFnmadd {p r d a b} (hs : Good K s) : Answers K s (execFnmadd p r d a b s) := hs.alu3

theorem Good.execFnmsub {p r d a b} (hs : Good K s) : Answers K s (execFnmsub p r d a b s) := hs.alu3

theorem Good.execCvt {dst src r d a} (hs : Good K s) : Answers K s (execCvt dst src r d a s) := hs.alu1

/-! ## Frames -/

theorem GoodThread.withFrame {th : Thread} {f} (hth : GoodThread K th) : GoodThread K (th.withFrame f) := by
  unfold Thread.withFrame
  exact hth.kept

theorem GoodThread.push {th : Thread} (hth : GoodThread K th) : GoodThread K th.push := by
  unfold Thread.push
  extract_lets th₁
  have h₁ : GoodThread K th₁ := by
    refine GoodThread.ite hth ?_
    split
    · exact hth.kept
    · exact hth
  exact GoodThread.kept h₁.withFrame

theorem Good.execRfpush (hs : Good K s) : Answers K s (execRfpush s) := by
  unfold Machine.execRfpush
  dsimp only
  exact hs.onThread (fun _ _ hth => Good.ite (hs.trapHere hth) (Good.ite (hs.await hth) (hs.retire hth.push)))

theorem Good.execRfpop (hs : Good K s) : Answers K s (execRfpop s) := by
  unfold Machine.execRfpop
  dsimp only
  refine hs.onThread (fun t th hth => ?_)
  refine Good.ite (hs.illegalState hth) ?_
  split
  next f fs h => exact hs.retire (GoodThread.kept hth.withFrame)
  · split
    next tr h => exact hs.retire (GoodThread.kept (GoodThread.withFrame (th := { th with depth := th.depth - 1, wsp := th.wsp - 128 }) hth.kept))
    · exact hs.await hth.kept

theorem Good.execFrameSpill {tid} (hs : Good K s) : Goes K (execFrameSpill { s with event := some (.frameSpill tid) }) := by
  refine hs.onEvent fun s hs => ⟨_, rfl, ?_⟩
  dsimp only
  split
  next th hth' =>
    split
    · refine Good.ite (hs.writeMem.setThread ((hs.thread hth').kept)) ?_
      split
      · exact hs.writeMem.retire (((hs.thread hth').kept).push)
      · exact hs.writeMem.setThread ((hs.thread hth').kept)
    · exact hs
  · exact hs

theorem Good.execFrameFill {tid} (hs : Good K s) : Goes K (execFrameFill { s with event := some (.frameFill tid) }) := by
  refine hs.onEvent fun s hs => ⟨_, rfl, ?_⟩
  dsimp only
  split
  next th hth' => exact Good.ite (hs.retire ((hs.thread hth').withFrame)) hs
  · exact hs

/-! ## Loads and stores -/

theorem Good.ldM {i d a imm n signed} (hs : Good K s) : Answers K s (ldM i d a imm n signed s) :=
  hs.onThread (fun _ _ hth => hs.load hth)

theorem Good.stM {i d a imm n} (hs : Good K s) : Answers K s (stM i d a imm n s) :=
  hs.onThread (fun _ _ hth => hs.store hth)

theorem Good.execLdB {d a i} (hs : Good K s) : Answers K s (execLdB d a i s) := hs.ldM

theorem Good.execLdBz {d a i} (hs : Good K s) : Answers K s (execLdBz d a i s) := hs.ldM

theorem Good.execLdH {d a i} (hs : Good K s) : Answers K s (execLdH d a i s) := hs.ldM

theorem Good.execLdHz {d a i} (hs : Good K s) : Answers K s (execLdHz d a i s) := hs.ldM

theorem Good.execLdW {d a i} (hs : Good K s) : Answers K s (execLdW d a i s) := hs.ldM

theorem Good.execLdWz {d a i} (hs : Good K s) : Answers K s (execLdWz d a i s) := hs.ldM

theorem Good.execLdD {d a i} (hs : Good K s) : Answers K s (execLdD d a i s) := hs.ldM

theorem Good.execStB {d a i} (hs : Good K s) : Answers K s (execStB d a i s) := hs.stM

theorem Good.execStH {d a i} (hs : Good K s) : Answers K s (execStH d a i s) := hs.stM

theorem Good.execStW {d a i} (hs : Good K s) : Answers K s (execStW d a i s) := hs.stM

theorem Good.execStD {d a i} (hs : Good K s) : Answers K s (execStD d a i s) := hs.stM

theorem Good.ldX {i d a b n signed} (hs : Good K s) : Answers K s (ldX i d a b n signed s) :=
  hs.onThread (fun _ _ hth => hs.load hth)

theorem Good.stX {i d a b n} (hs : Good K s) : Answers K s (stX i d a b n s) := hs.onThread (fun _ _ hth => hs.store hth)

theorem Good.execLdxB {d a b} (hs : Good K s) : Answers K s (execLdxB d a b s) := hs.ldX

theorem Good.execLdxBz {d a b} (hs : Good K s) : Answers K s (execLdxBz d a b s) := hs.ldX

theorem Good.execLdxH {d a b} (hs : Good K s) : Answers K s (execLdxH d a b s) := hs.ldX

theorem Good.execLdxHz {d a b} (hs : Good K s) : Answers K s (execLdxHz d a b s) := hs.ldX

theorem Good.execLdxW {d a b} (hs : Good K s) : Answers K s (execLdxW d a b s) := hs.ldX

theorem Good.execLdxWz {d a b} (hs : Good K s) : Answers K s (execLdxWz d a b s) := hs.ldX

theorem Good.execLdxD {d a b} (hs : Good K s) : Answers K s (execLdxD d a b s) := hs.ldX

theorem Good.execStxB {d a b} (hs : Good K s) : Answers K s (execStxB d a b s) := hs.stX

theorem Good.execStxH {d a b} (hs : Good K s) : Answers K s (execStxH d a b s) := hs.stX

theorem Good.execStxW {d a b} (hs : Good K s) : Answers K s (execStxW d a b s) := hs.stX

theorem Good.execStxD {d a b} (hs : Good K s) : Answers K s (execStxD d a b s) := hs.stX

theorem Good.pickConst {l : List Copy} (hs : Good K s) : Good K (pickConst l s).2 := by
  induction l generalizing s with
  | nil => exact hs
  | cons x l ih =>
    unfold Machine.pickConst
    split
    next h => exact hs.flip.of_pair h
    next h => exact ih (hs.flip.of_pair h)

theorem Good.loadConst {t} {th : Thread} {i l} (hs : Good K s) (hth : GoodThread K th) : Good K (s.loadConst t th i l) := by
  unfold State.loadConst
  dsimp only
  refine Good.ite (hs.misaligned hth) ?_
  refine Good.ite (hs.protection hth) ?_
  refine Good.ite (hs.protection hth) ?_
  refine Good.ite (hs.protection hth) ?_
  refine hs.access hth (fun s th x hs hth => ?_)
  split
  · split
    next h => exact (hs.pickConst.of_pair h).landLoad hth
    next h => exact (hs.pickConst.of_pair h).gate hth fun u th hu hth => hu.takeRid.send.await hth
  · exact hs.protection hth

theorem Good.ldC {i d a imm n signed} (hs : Good K s) : Answers K s (ldC i d a imm n signed s) :=
  hs.onThread (fun _ _ hth => hs.loadConst hth)

theorem Good.execLdcW {d a i} (hs : Good K s) : Answers K s (execLdcW d a i s) := hs.ldC

theorem Good.execLdcWz {d a i} (hs : Good K s) : Answers K s (execLdcWz d a i s) := hs.ldC

theorem Good.execLdcD {d a i} (hs : Good K s) : Answers K s (execLdcD d a i s) := hs.ldC

theorem Good.execLdD16 {d i} (hs : Good K s) : Answers K s (execLdD16 d i s) := hs.onThread (fun _ _ hth => hs.load hth)

theorem Good.execStD16 {d i} (hs : Good K s) : Answers K s (execStD16 d i s) := hs.onThread (fun _ _ hth => hs.store hth)

/-! ## Extension registers -/

theorem Good.execXset {e a} (hs : Good K s) : Answers K s (execXset e a s) :=
  hs.onThread (fun _ _ hth => hs.retire hth.kept)

theorem Good.execXmov {d e} (hs : Good K s) : Answers K s (execXmov d e s) := hs.onThread (fun _ _ hth => hs.result hth)

theorem Good.execXld {e a i} (hs : Good K s) : Answers K s (execXld e a i s) := hs.onThread (fun _ _ hth => hs.load hth)

theorem Good.execXst {e a i} (hs : Good K s) : Answers K s (execXst e a i s) := hs.onThread (fun _ _ hth => hs.store hth)

/-! ## Migration -/

theorem Good.failMsg {m} (hs : Good K s) : Good K (s.failMsg m) := by
  unfold State.failMsg
  dsimp only
  split
  · exact hs.failLoad
  · exact hs.refuseStore
  · exact hs.failAtomic
  · exact hs.failAtomic
  · exact hs.failAtomic
  · exact hs.refuseStore
  all_goals exact hs

theorem Good.dropTranslation {tile g va} (hs : Good K s) : Good K (s.dropTranslation tile g va) := by
  unfold State.dropTranslation
  dsimp only
  exact hs.modTile.kept

theorem Good.redirectPeer {dev rid stamp} (hs : Good K s) : Good K (s.redirectPeer dev rid stamp) := by
  unfold State.redirectPeer
  exact hs.kept

theorem Good.redirect {m} (hs : Good K s) : Good K (s.redirect m) := by
  unfold State.redirect
  dsimp only
  split
  · exact hs.kept
  · exact hs.llcAt
  · split
    · exact hs.send
    · exact hs
  · split
    · split
      · exact hs.dropTranslation.send GoodEvent.homeMsg
      · exact hs.dropTranslation.post
      · split
        · exact hs.dropTranslation.redirectPeer
        · exact hs.dropTranslation.failMsg
    · exact hs

theorem Good.execRedirect {m} (hs : Good K s) : Goes K (execRedirect { s with event := some (.redirect m) }) :=
  hs.onEvent fun _ hs => ⟨_, rfl, hs.redirect⟩

theorem Good.freeze {src n} (hs : Good K s) : Good K (s.freeze src n) := by
  unfold State.freeze
  dsimp only
  refine Good.foldl ?_ fun s l hs => ?_
  · refine hs.kept.foldl fun _ _ hs => ?_
    exact hs.putFrame
  · exact hs.recallLine

theorem Good.unmapFrames {src n} (hs : Good K s) : Good K (s.unmapFrames src n) := by
  unfold State.unmapFrames
  exact hs.kept

theorem Good.copyFrames {src dst n} (hs : Good K s) : Good K (s.copyFrames src dst n) := by
  unfold State.copyFrames
  dsimp only
  refine Good.foldl ?_ fun s c hs => ?_
  · refine hs.foldl fun _ _ hs => ?_
    exact hs.writeMem
  · exact hs.writeMem

theorem GoodWork.redirectWork {src dst n} {w : Work} (hw : GoodWork K w) : GoodWork K (redirectWork src dst n w) := by
  have hite : ∀ {b : Bool} {e : Event}, GoodEvent K e → GoodWork K (if b then .event e else w) := by
    intro b e he
    split
    · exact he
    · exact hw
  unfold Machine.redirectWork
  dsimp only
  split
  case h_8 => exact hw
  all_goals exact hite fun _ => trivial

theorem Good.moveLines {src dst n} (hs : Good K s) : Good K (s.moveLines src dst n) := by
  unfold State.moveLines
  dsimp only
  exact (hs.mapAgenda (f := fun p => { p with work := redirectWork src dst n p.work }) fun _ hp => hp.redirectWork).kept

theorem Good.thaw (hs : Good K s) : Good K s.thaw := by
  have hrun : Good K (s.tiles.foldl (fun (s : State) p => p.2.commands.foldl (fun (s : State) c => s.engAgain p.1 c.id false) s) s) :=
    hs.foldl fun s p hs => hs.foldl fun _ _ hs => hs.engAgain
  unfold State.thaw
  dsimp only
  refine hrun.foldl_mem fun u p hp hu => ?_
  split
  · exact hu.resumeWith
  · exact hu.setThread (hrun.threads hp).rejoin
  · exact Good.ite hu hu.post
  · exact hu

theorem GoodEvent.heldEvent {src dst n m} : GoodEvent K (heldEvent src dst n m) := by
  unfold Machine.heldEvent
  split <;> exact (fun _ => trivial)

theorem Good.migrate {src dst n x} (hs : Good K s) : Good K (s.migrate src dst n x) := by
  unfold State.migrate
  dsimp only
  refine Good.foldl ?_ fun s m hs => ?_
  · refine Good.thaw ?_
    refine Good.install ?_
    refine hs.copyFrames.moveLines.kept.foldl fun _ _ hs => ?_
    exact hs.putFrame
  · exact hs.send GoodEvent.heldEvent

theorem Good.dropArms {src n} (hs : Good K s) : Good K (s.dropArms src n) := by
  unfold State.dropArms
  dsimp only
  refine Good.kept ?_
  refine hs.foldl fun _ _ hs => ?_
  exact hs.signal

theorem Good.leave {src n x} (hs : Good K s) : Good K (s.leave src n x) := by
  unfold State.leave
  dsimp only
  refine Good.foldl ?_ fun s m hs => ?_
  · refine Good.thaw ?_
    refine Good.install ?_
    refine hs.dropArms.moveLines.kept.foldl fun _ _ hs => ?_
    exact hs.putFrame
  · split
    · exact hs.send
    · exact hs.send GoodEvent.heldEvent

theorem Good.arrive {dst n x ls} (hs : Good K s) : Good K (s.arrive dst n x ls) := by
  unfold State.arrive
  dsimp only
  refine Good.thaw ?_
  refine Good.install ?_
  refine hs.kept.foldl fun _ _ hs => ?_
  exact hs.writeMem.setLine

theorem Good.pageMigration {start src dst n x ls} (hs : Good K s) : Good K (s.pageMigration start src dst n x ls) := by
  unfold State.pageMigration
  dsimp only
  split
  · split
    · exact Good.ite hs hs.arrive
    · exact hs
  · refine Good.ite ?_ ?_
    · exact Good.ite hs.freeze hs
    · refine Good.ite ?_ ?_
      · exact (Good.ite hs.freeze hs).post
      · refine Good.ite ((Good.ite hs.freeze hs).unmapFrames) ?_
        split
        · exact ((Good.ite hs.freeze hs).unmapFrames).migrate
        · exact ((Good.ite hs.freeze hs).unmapFrames).leave

theorem Good.execPageMigration {start src dst frames tables lines} (hs : Good K s) :
    Goes K (execPageMigration { s with event := some (.pageMigration start src dst frames tables lines) }) :=
  hs.onEvent fun _ hs => ⟨_, rfl, hs.pageMigration⟩

/-! ## Packed arithmetic -/

theorem Good.execPadd {l d a b} (hs : Good K s) : Answers K s (execPadd l d a b s) := hs.alu2

theorem Good.execPsub {l d a b} (hs : Good K s) : Answers K s (execPsub l d a b s) := hs.alu2

theorem Good.execPadds {u l d a b} (hs : Good K s) : Answers K s (execPadds u l d a b s) := hs.alu2

theorem Good.execPsubs {u l d a b} (hs : Good K s) : Answers K s (execPsubs u l d a b s) := hs.alu2

theorem Good.execPmin {u l d a b} (hs : Good K s) : Answers K s (execPmin u l d a b s) := hs.alu2

theorem Good.execPmax {u l d a b} (hs : Good K s) : Answers K s (execPmax u l d a b s) := hs.alu2

theorem Good.execPmul {l d a b} (hs : Good K s) : Answers K s (execPmul l d a b s) := hs.alu2

theorem Good.execPcmpeq {l d a b} (hs : Good K s) : Answers K s (execPcmpeq l d a b s) := hs.alu2

theorem Good.execPcmpgt {u l d a b} (hs : Good K s) : Answers K s (execPcmpgt u l d a b s) := hs.alu2

/-! ## Synchronisation and peers -/

theorem Good.syncFrame {podTime offset slew} (hs : Good K s) : Good K (s.syncFrame podTime offset slew) := by
  unfold State.syncFrame
  dsimp only
  split
  · refine Good.now ?_
    split <;> exact hs.kept
  · split <;> exact hs.kept

theorem Good.execSyncFrame {podTime offset slew} (hs : Good K s) :
    Goes K (execSyncFrame { s with event := some (.syncFrame podTime offset slew) }) :=
  hs.onEvent fun _ hs => ⟨_, rfl, hs.syncFrame⟩

theorem Good.execHoldoverEntry {dev on} (hs : Good K s) : Goes K (execHoldoverEntry { s with event := some (.holdoverEntry dev on) }) := by
  refine hs.onEvent fun s hs => ⟨_, rfl, ?_⟩
  exact Good.ite (Good.ite hs.kept hs) hs.kept

theorem Good.refusePeer {r cause detail} (hs : Good K s) : Good K (s.refusePeer r cause detail) := by
  unfold State.refusePeer
  split
  · exact hs.signalPeer
  · exact hs
  · exact hs.answerPeer

theorem Good.armPeer {r m arm pa} (hs : Good K s) : Good K (s.armPeer r m arm pa) := by
  unfold State.armPeer
  dsimp only
  split
  · exact hs.answerPeer
  · exact Good.ite ((Good.ite hs.flip hs.flip.kept).signalPeer) (Good.ite hs.flip hs.flip.kept)

theorem Good.peerAtHome {r pa} (hs : Good K s) : Good K (s.peerAtHome r pa) := by
  unfold State.peerAtHome
  split
  · exact hs.homeLoad
  · exact hs.homeStore
  · exact hs.homeStore
  · exact hs.homeAtomic
  · exact hs.publish
  · exact hs.homeLoad
  · exact hs.armPeer
  · exact hs.refusePeer

theorem Good.holdPeer {r} (hs : Good K s) : Good K (s.holdPeer r) := by
  unfold State.holdPeer
  split
  · exact hs.signalPeer
  · exact hs.kept

theorem Good.peerAtStash {r what} (hs : Good K s) : Good K (s.peerAtStash r what) := by
  unfold State.peerAtStash
  dsimp only
  exact Good.ite hs.holdPeer hs.remoteStash

theorem Good.servePeer {r} (hs : Good K s) : Good K (s.servePeer r) := by
  unfold State.servePeer
  split
  · split
    · exact hs.holdPeer
    · split
      · exact hs.post
      · exact Good.ite hs.peerAtHome hs.refusePeer
    · exact Good.ite hs.peerAtHome hs.refusePeer
  · split
    · exact Good.ite hs.peerAtStash hs.refusePeer
    · exact hs.refusePeer
  · exact hs.refusePeer

theorem Good.withdrawPeer {dev rid stamp} (hs : Good K s) : Good K (s.withdrawPeer dev rid stamp) := by
  unfold State.withdrawPeer
  dsimp only
  exact Good.ite hs.kept hs

theorem Good.peerArrived {r} (hs : Good K s) : Good K (s.peerArrived r) := by
  unfold State.peerArrived
  dsimp only
  split
  · split
    · exact (Good.ite hs hs.modConvoy).withdrawPeer
    · split
      · exact (Good.ite hs hs.modConvoy).redirectPeer
      · exact Good.ite ((Good.ite hs hs.modConvoy).kept) ((Good.ite hs hs.modConvoy).servePeer)
    · exact (Good.ite hs hs.modConvoy).servePeer
  · refine Good.checkStop ?_
    split
    · exact (Good.ite hs hs.modConvoy).withdrawPeer
    · split
      · exact (Good.ite hs hs.modConvoy).redirectPeer
      · exact Good.ite ((Good.ite hs hs.modConvoy).kept) ((Good.ite hs hs.modConvoy).servePeer)
    · exact (Good.ite hs hs.modConvoy).servePeer

theorem Good.execPeerRequest {r} (hs : Good K s) : Goes K (execPeerRequest { s with event := some (.peerRequest r) }) :=
  hs.onEvent fun _ hs => ⟨_, rfl, hs.peerArrived⟩

theorem Good.peerServed {dev rid mapped} (hs : Good K s) : Good K (s.peerServed dev rid mapped) := by
  unfold State.peerServed
  dsimp only
  split
  · split
    · exact hs.kept.install.retryFills.servePeer
    · exact hs.kept.refusePeer
  · exact hs

theorem Good.execPeerFaultService {dev rid mapped} (hs : Good K s) :
    Goes K (execPeerFaultService { s with event := some (.peerFaultService dev rid mapped) }) :=
  hs.onEvent fun _ hs => ⟨_, rfl, hs.peerServed⟩

theorem Good.execHoldingNotice {rid op parked} (hs : Good K s) :
    Goes K (execHoldingNotice { s with event := some (.holdingNotice rid op parked) }) := by
  refine hs.onEvent fun s hs => ⟨_, rfl, ?_⟩
  exact hs.kept

theorem Good.peerLate {rid op} (hs : Good K s) : Good K (s.peerLate rid op) := by
  unfold State.peerLate
  dsimp only
  split
  · refine Good.ite hs ?_
    split
    · exact hs.kept.log.refuseEngine
    · refine Good.ite hs.kept.log.losePosted ?_
      split
      next th hth' =>
        split
        · exact (Good.ite hs.kept.log hs.kept.log.ackOp).threadRefused ((Good.ite hs.kept.log hs.kept.log.ackOp).thread hth')
        · exact Good.ite hs.kept.log hs.kept.log.ackOp
      · exact Good.ite hs.kept.log hs.kept.log.ackOp
  · exact hs

theorem Good.execPeerTimeout {rid op} (hs : Good K s) : Goes K (execPeerTimeout { s with event := some (.peerTimeout rid op) }) :=
  hs.onEvent fun _ hs => ⟨_, rfl, hs.peerLate⟩

/-! ## Saves -/

theorem Good.saveGuest {g} (hs : Good K s) : Good K (s.saveGuest g) := by
  unfold State.saveGuest
  dsimp only
  split
  · refine Good.post ?_
    refine Good.foldl ?_ fun s x hs => ?_
    · refine hs.kept.foldl_mem fun _ _ hp hu => ?_
      exact hu.setThread ((hs.threads (List.mem_of_mem_filter hp)).kept)
    · exact hs.slotsFreed
  · exact Good.ite hs (Good.ite hs.kept hs.post)

theorem Good.execGuestSave {guest} (hs : Good K s) : Goes K (execGuestSave { s with event := some (.guestSave guest) }) :=
  hs.onEvent fun _ hs => ⟨_, rfl, hs.saveGuest⟩

end Sys2Proof.Proofs
end

