-- ==== Sys2Proof/Proofs/KeptByDevice.lean ====
section
/-!
PROOFS. Restores, slices, queues, changeovers and errors keep the invariant (R263 to R284).
-/

namespace Sys2Proof.Proofs

open Sys2Proof Sys2Proof.Machine Sys2Proof.Claims

-- A default argument's tactic is read only when all declarations before are checked: proofs elaborated side by side would each
-- hold a waiting thread.
set_option Elab.async false

variable {K : Asked} {s : State}

/-! ## Restores -/

theorem GoodThread.restored {th : Thread} {g gen n} (hth : GoodThread K th) : GoodThread K (th.restored g gen n) := by
  unfold Thread.restored
  exact hth.kept

theorem Good.restoreThread {g n t} {th : Thread} (hs : Good K s) (hth : GoodThread K th) : Good K (s.restoreThread g n t th) := by
  unfold State.restoreThread
  dsimp only
  split
  · exact ((hs.setThread hth.restored).kept).post
  · exact ((hs.setThread hth.restored).kept).post
  · exact (hs.setThread hth.restored).kept

theorem Good.restoreTile {g n tile m} (hs : Good K s) : Good K (s.restoreTile g n tile m) := by
  unfold State.restoreTile
  dsimp only
  refine Good.foldl ?_ fun s c hs => ?_
  · refine hs.modTile.foldl fun _ _ hs => ?_
    exact hs.setStashLine.modLine
  · exact hs.writeMem

theorem Good.placeImage {g} {m : GuestImage} (hs : Good K s) (hm : K.halfwords → m.Halfwords) : Good K (s.placeImage g m) := by
  unfold State.placeImage
  extract_lets n s₁ s₂ s₃ s₄ s₅ top s₆
  have h₁ : Good K s₁ := hs.foldl_mem fun u p hp hu => hu.restoreThread fun hk => (hm hk).1 p hp
  have h₂ : Good K s₂ := h₁.foldl_mem fun u p hp hu => (hu.setLaunch (x := { p.2 with rcd := { p.2.rcd with guest := g } })
    fun hk => (hm hk).2 p hp).kept
  have h₅ : Good K s₅ := by
    refine Good.foldl (Good.foldl (Good.foldl h₂ ?_) ?_) ?_
    · exact fun _ _ hs => hs.kept
    · exact fun _ _ hs => hs.writeMem
    · exact fun _ _ hs => hs.restoreTile
  exact Good.raiseFloor h₅.kept

theorem Good.endRestore {v} (hs : Good K s) : Good K (s.endRestore v) := by
  unfold State.endRestore
  dsimp only
  refine Good.offerUnits ?_
  refine Good.foldl ?_ fun s x hs => ?_
  · refine hs.kept.foldl fun s p hs => ?_
    split
    next th hth' => exact Good.ite (hs.retire (((hs.thread hth').kept).consume)) (hs.setThread ((hs.thread hth').kept))
    · exact hs
  · exact hs.enterSlots

theorem Good.restoreStep {g} (hs : Good K s) : Good K (s.restoreStep g) := by
  unfold State.restoreStep
  dsimp only
  split
  · refine Good.ite hs ?_
    split
    · exact hs.endRestore
    · exact Good.ite hs.kept.servePeer.post (Good.ite hs.post hs.kept.post)
  · exact hs

theorem Good.restoreGuest {g image} (hs : Good K s) (he : GoodEvent K (.guestRestore g image)) : Good K (s.restoreGuest g image) := by
  unfold State.restoreGuest
  split
  · exact (hs.placeImage he).restoreStep
  · exact hs.restoreStep

theorem Good.execGuestRestore {guest image} (hs : Good K s) (he : GoodEvent K (.guestRestore guest image)) :
    Goes K (execGuestRestore { s with event := some (.guestRestore guest image) }) :=
  hs.onEvent fun _ hs => ⟨_, rfl, hs.restoreGuest he⟩

/-! ## Slices, scrubs and ways -/

theorem Good.endSlice {tile} (hs : Good K s) : Good K (s.endSlice tile) := by
  unfold State.endSlice
  dsimp only
  split
  · exact Good.ite hs.modTile.modTile hs.modTile.modTile.takeTile.slotsFreed
  · exact hs.modTile

theorem Good.execSliceEnd {tile} (hs : Good K s) : Goes K (execSliceEnd { s with event := some (.sliceEnd tile) }) :=
  hs.onEvent fun _ hs => ⟨_, rfl, hs.endSlice⟩

theorem Good.scrubStash (hs : Good K s) : Good K s.scrubStash := by
  unfold State.scrubStash
  exact hs.kept

theorem Good.scrubLocal (hs : Good K s) : Good K s.scrubLocal := by
  unfold State.scrubLocal
  dsimp only
  refine hs.foldl fun _ _ hs => ?_
  exact hs.freshLocal.kept

theorem Good.scrubRest (hs : Good K s) : Good K s.scrubRest := by
  unfold State.scrubRest
  dsimp only
  exact hs.kept

theorem Good.scrub (hs : Good K s) : Good K s.scrub := by
  unfold State.scrub
  dsimp only
  refine hs.scrubStash.scrubLocal.scrubRest.foldl_mem fun s p hp hu => ?_
  split
  · exact hu.bump (hs.scrubStash.scrubLocal.scrubRest.threads hp)
  · exact hu

theorem Good.execScrubPass (hs : Good K s) : Goes K (execScrubPass { s with event := some .scrubPass }) :=
  hs.onEvent fun _ hs => ⟨_, rfl, hs.scrub⟩

theorem Good.giveOut {tile} (hs : Good K s) : Good K (s.giveOut tile) := by
  unfold State.giveOut
  dsimp only
  exact hs.setTile

theorem Good.divideWays {tile} (hs : Good K s) : Good K (s.divideWays tile) := hs.giveOut.modTile

theorem Good.execWayDivision {tile} (hs : Good K s) : Goes K (execWayDivision { s with event := some (.wayDivision tile) }) :=
  hs.onEvent fun _ hs => ⟨_, rfl, hs.divideWays⟩

theorem Good.foldl_fst {α β : Type} {l : List α} {r : State × β} {f : State × β → α → State × β} (hr : Good K r.1)
    (hf : ∀ r a, Good K r.1 → Good K (f r a).1) : Good K (l.foldl f r).1 := by
  induction l generalizing r with
  | nil => exact hr
  | cons a l ih => exact ih (hf r a hr)

theorem Good.letOut (hs : Good K s) : Good K s.letOut := by
  unfold State.letOut
  dsimp only
  refine Good.foldl_fst hs fun r p hr => ?_
  split
  · refine Good.ite_fst hr (Good.ite_fst hr ?_)
    exact hr.setTile.mapAgenda fun q hq => by split <;> exact hq
  · exact hr

theorem Good.execTokenRefill (hs : Good K s) : Goes K (execTokenRefill { s with event := some .tokenRefill }) := by
  refine hs.onEvent fun s hs => ⟨_, rfl, ?_⟩
  exact hs.kept.letOut

/-! ## Queues -/

theorem Good.setQueue {q x} (hs : Good K s) : Good K (s.setQueue q x) := by
  unfold State.setQueue
  exact hs.kept

theorem Good.offerRecord {q} (hs : Good K s) : Good K (s.offerRecord q) := by
  unfold State.offerRecord
  split
  · exact Good.ite hs hs.now
  · exact hs

theorem Good.takeRecord {q index} {r : Record} (hs : Good K s) (hr : GoodRecord K r) : Good K (s.takeRecord q index r) := by
  unfold State.takeRecord
  dsimp only
  split
  · exact Good.ite (((hs.armRecord hr).ensureConvoy).wallDue) (hs.launchNumber.acceptLaunch hr)
  · exact (Good.ite hs.kept.ensureConvoy.modConvoy hs.kept.ensureConvoy).wallDue

theorem Good.readRecord {q} (hs : Good K s) : Good K (s.readRecord q) := by
  unfold State.readRecord
  split
  next x _ =>
    refine Good.ite hs ?_
    dsimp only
    split
    · exact hs.setQueue.report
    next h => exact (hs.setQueue.takeRecord (GoodRecord.of_recordFault h)).offerRecord
  · exact hs

theorem Good.execQueueRecord {queue} (hs : Good K s) : Goes K (execQueueRecord { s with event := some (.queueRecord queue) }) :=
  hs.onEvent fun _ hs => ⟨_, rfl, hs.readRecord⟩

theorem Good.writeTail {q v records} (hs : Good K s) : Good K (s.writeTail q v records) := by
  unfold State.writeTail
  dsimp only
  split
  · exact Good.ite hs.setQueue hs.setQueue.offerRecord
  · exact hs

theorem Good.execQtailWrite {queue v records} (hs : Good K s) :
    Goes K (execQtailWrite { s with event := some (.qtailWrite queue v records) }) :=
  hs.onEvent fun _ hs => ⟨_, rfl, hs.writeTail⟩

theorem Good.writeStatus {q v} (hs : Good K s) : Good K (s.writeStatus q v) := by
  unfold State.writeStatus
  dsimp only
  split
  · exact Good.ite hs (Good.ite hs.setQueue.offerRecord hs.setQueue)
  · exact hs

theorem Good.execQstatWrite {queue v} (hs : Good K s) : Goes K (execQstatWrite { s with event := some (.qstatWrite queue v) }) :=
  hs.onEvent fun _ hs => ⟨_, rfl, hs.writeStatus⟩

theorem Good.hostPart {g pa data} (hs : Good K s) : Good K (s.hostPart g pa data) := by
  unfold State.hostPart
  dsimp only
  split
  · exact hs
  · exact Good.ite hs.holdMsg (Good.ite hs (Good.ite hs.holdMsg.recallLine hs.applyStore.raiseFloor))

theorem Good.hostWrite {pa g data} (hs : Good K s) : Good K (s.hostWrite pa g data) := by
  unfold State.hostWrite
  refine hs.foldl fun _ _ hs => ?_
  exact hs.hostPart

theorem Good.execHostWrite {pa guest data} (hs : Good K s) : Goes K (execHostWrite { s with event := some (.hostWrite pa guest data) }) :=
  hs.onEvent fun _ hs => ⟨_, rfl, hs.hostWrite⟩

/-! ## Messages on their way -/

theorem Good.countNote {p} (hs : Good K s) : Good K (s.countNote p) := by
  unfold State.countNote
  split
  · split
    · exact hs.modTile
    · exact hs
  · exact hs

theorem Good.forwardMessage {seq} (hs : Good K s) : Good K (s.forwardMessage seq) := by
  unfold State.forwardMessage
  split
  · exact hs
  · refine (Good.mapAgenda hs fun q hq => ?_).kept
    split
    · exact hq
    · split <;> exact hq

theorem Good.execForwardingNote {seq} (hs : Good K s) : Goes K (execForwardingNote { s with event := some (.forwardingNote seq) }) :=
  hs.onEvent fun _ hs => ⟨_, rfl, hs.forwardMessage⟩

theorem Good.holdArrived {seq} (hs : Good K s) : Good K (s.holdArrived seq) := by
  unfold State.holdArrived
  split
  · exact (hs.mapAgenda fun q hq => by split <;> exact hq).countNote
  · exact hs

theorem Good.execHeldMessage {seq} (hs : Good K s) : Goes K (execHeldMessage { s with event := some (.heldMessage seq) }) :=
  hs.onEvent fun _ hs => ⟨_, rfl, hs.holdArrived⟩

/-! ## Changeovers -/

theorem Good.setPhases {p} (hs : Good K s) : Good K (s.setPhases p) := by
  unfold State.setPhases
  exact hs.kept

theorem Good.listTiles (hs : Good K s) : Good K s.listTiles := by
  unfold State.listTiles
  dsimp only
  refine hs.foldl fun _ _ hs => ?_
  exact hs.setTile

theorem Good.cleanStashes (hs : Good K s) : Good K s.cleanStashes := by
  unfold State.cleanStashes
  refine hs.foldl fun _ _ hs => ?_
  exact hs.writeBackRange

theorem Good.redivide (hs : Good K s) : Good K s.redivide := by
  unfold State.redivide
  refine hs.foldl fun _ _ hs => ?_
  exact hs.giveOut

theorem Good.beginPredrain (hs : Good K s) : Good K s.beginPredrain := by
  unfold State.beginPredrain
  dsimp only
  exact hs.listTiles.cleanStashes.setPhases.kept.redivide

theorem Good.execPredrain (hs : Good K s) : Goes K (execPredrain { s with event := some .predrain }) :=
  hs.onEvent fun _ hs => ⟨_, rfl, hs.beginPredrain⟩

theorem Good.atInstant (hs : Good K s) : Good K s.atInstant := Good.ite hs.now hs.now

theorem Good.execChangeoverInstant (hs : Good K s) : Goes K (execChangeoverInstant { s with event := some .changeoverInstant }) := by
  refine hs.onEvent fun s hs => ⟨_, rfl, ?_⟩
  exact hs.kept.atInstant

theorem Good.execPodChangeoverInstant (hs : Good K s) : Goes K (execPodChangeoverInstant { s with event := some .podChangeoverInstant }) := by
  refine hs.onEvent fun s hs => ⟨_, rfl, ?_⟩
  exact hs.kept.atInstant

theorem Good.postpone (hs : Good K s) : Good K s.postpone := by
  unfold State.postpone
  dsimp only
  exact ((Good.ite hs.log hs).kept).post

theorem Good.execChangeoverPostponement (hs : Good K s) :
    Goes K (execChangeoverPostponement { s with event := some .changeoverPostponement }) :=
  hs.onEvent fun _ hs => ⟨_, rfl, hs.postpone⟩

theorem Good.derate (hs : Good K s) : Good K s.derate := by
  unfold State.derate
  dsimp only
  refine Good.kept ?_
  refine hs.foldl fun s l hs => ?_
  split
  · exact Good.ite hs hs.kept
  · exact hs

theorem Good.checkResume (hs : Good K s) : Good K s.checkResume := Good.ite hs.post hs

theorem Good.stay {f bound} {e : Event} (hs : Good K s) (he : GoodEvent K e := by exact fun _ => trivial) : Good K (s.stay f bound e) :=
  hs.kept.post he

theorem Good.stopRound (hs : Good K s) : Good K s.stopRound := by
  unfold State.stopRound
  dsimp only
  refine Good.ite hs ?_
  refine Good.ite hs.now ?_
  refine hs.derate.listTiles.setPhases.kept.checkResume.foldl fun _ _ hs => ?_
  exact hs.stay

theorem Good.execStop (hs : Good K s) : Goes K (execStop { s with event := some .stop }) :=
  hs.onEvent fun _ hs => ⟨_, rfl, hs.stopRound⟩

theorem Good.packTile {t} (hs : Good K s) : Good K (s.packTile t) := by
  unfold State.packTile
  dsimp only
  exact hs.dropRange.modTile.kept.post

theorem Good.execPack {tile} (hs : Good K s) : Goes K (execPack { s with event := some (.pack tile) }) :=
  hs.onEvent fun _ hs => ⟨_, rfl, hs.packTile⟩

theorem Good.execShip {tile} (hs : Good K s) : Goes K (execShip { s with event := some (.ship tile) }) :=
  hs.onEvent fun s hs => ⟨_, rfl, hs.modTile.stay⟩

theorem Good.execUnpack {tile} (hs : Good K s) : Goes K (execUnpack { s with event := some (.unpack tile) }) :=
  hs.onEvent fun _ hs => ⟨_, rfl, hs.modTile.checkResume⟩

theorem Good.extendDue {tile} (hs : Good K s) : Good K (s.extendDue tile) := by
  unfold State.extendDue
  dsimp only
  refine hs.foldl fun _ _ hs => ?_
  exact Good.ite hs.changeDue hs

theorem Good.resumeRound (hs : Good K s) : Good K s.resumeRound := by
  unfold State.resumeRound
  extract_lets s₁
  have h₁ : Good K s₁ := hs.foldl fun _ _ hs => hs.extendDue
  have hsent : Good K { s₁ with agenda := s₁.agenda.map (fun p => if p.held then { p with held := false, turn := s₁.turn } else p) } :=
    h₁.mapAgenda fun q hq => by split <;> exact hq
  exact Good.redivide (hsent.kept rfl rfl rfl rfl rfl)

theorem Good.execResume (hs : Good K s) : Goes K (execResume { s with event := some .resume }) :=
  hs.onEvent fun _ hs => ⟨_, rfl, hs.resumeRound⟩

/-! ## Errors -/

theorem Good.poisonHome {line} (hs : Good K s) : Good K (s.poisonHome line) := by
  unfold State.poisonHome
  dsimp only
  exact Good.ite hs hs.log.modLine

theorem Good.blameIssuer {x} (hs : Good K s) : Good K (s.blameIssuer x) := by
  unfold State.blameIssuer
  split
  · exact hs.loseIssued.checkLaunch
  · exact hs

theorem Good.loseAccumulator {tile n} (hs : Good K s) : Good K (s.loseAccumulator tile n) := by
  unfold State.loseAccumulator
  dsimp only
  exact hs.modTile.kept.blameIssuer

theorem Good.loseLatch {tile b l} (hs : Good K s) : Good K (s.loseLatch tile b l) := by
  unfold State.loseLatch
  dsimp only
  split
  · exact hs
  · exact hs.discard
  · exact hs.modTile.blameIssuer

theorem Good.uncorrectable {p} (hs : Good K s) : Good K (s.uncorrectable p) := by
  unfold State.uncorrectable
  split
  · exact hs.l1Drop
  · exact hs.kept
  · exact hs.modTile
  · exact Good.ite hs hs.dropRange
  · exact hs.poisonHome
  · exact hs.modStashLine
  · split
    next th hth' => exact Good.ite hs (hs.log.endThread (hs.thread hth'))
    · exact hs
  · split
    · exact hs.discard
    · exact hs
  · exact hs.loseLatch
  · exact hs.loseAccumulator

theorem Good.execUncorrectableError {p} (hs : Good K s) :
    Goes K (execUncorrectableError { s with event := some (.uncorrectableError p) }) :=
  hs.onEvent fun _ hs => ⟨_, rfl, hs.uncorrectable⟩

theorem Good.corrected {l} (hs : Good K s) : Good K (s.corrected l) := by
  unfold State.corrected
  dsimp only
  exact Good.ite hs.kept hs.kept

theorem Good.execCorrectedError {l} (hs : Good K s) : Goes K (execCorrectedError { s with event := some (.correctedError l) }) :=
  hs.onEvent fun _ hs => ⟨_, rfl, hs.corrected⟩

theorem Good.execLeakTick (hs : Good K s) : Goes K (execLeakTick { s with event := some .leakTick }) := by
  refine hs.onEvent fun s hs => ⟨_, rfl, ?_⟩
  exact hs.kept

theorem Good.endWayLock {site set way} (hs : Good K s) : Good K (s.endWayLock site set way) := by
  unfold State.endWayLock
  dsimp only
  exact hs.kept

theorem Good.retireLocation {l} (hs : Good K s) : Good K (s.retireLocation l) := by
  unfold State.retireLocation
  dsimp only
  refine Good.ite hs ?_
  split
  · exact hs.kept.endWayLock
  · split <;> exact hs.kept

theorem Good.execRetirement {l} (hs : Good K s) : Goes K (execRetirement { s with event := some (.retirement l) }) :=
  hs.onEvent fun _ hs => ⟨_, rfl, hs.retireLocation⟩

theorem Good.execLinkWake {link} (hs : Good K s) : Goes K (execLinkWake { s with event := some (.linkWake link) }) := by
  refine hs.onEvent fun s hs => ⟨_, rfl, ?_⟩
  dsimp only
  exact Good.ite hs hs.log.kept

theorem Good.execLinkAwake {link} (hs : Good K s) : Goes K (execLinkAwake { s with event := some (.linkAwake link) }) := by
  refine hs.onEvent fun s hs => ⟨_, rfl, ?_⟩
  exact hs.kept

theorem Good.failParked {line} (hs : Good K s) : Good K (s.failParked line) := by
  unfold State.failParked
  dsimp only
  split
  · refine hs.modLine.foldl fun _ _ hs => ?_
    exact hs.asOf (fun _ hs => hs.failLoad)
  · exact hs

theorem Good.killDie {die} (hs : Good K s) : Good K (s.killDie die) := by
  unfold State.killDie
  dsimp only
  refine Good.ite hs.log.kept ?_
  refine hs.log.kept.foldl fun _ _ hs => ?_
  exact hs.modLine.release.failParked

theorem Good.execDieDead {die} (hs : Good K s) : Goes K (execDieDead { s with event := some (.dieDead die) }) :=
  hs.onEvent fun _ hs => ⟨_, rfl, hs.killDie⟩

theorem Good.execDieReset {die} (hs : Good K s) : Goes K (execDieReset { s with event := some (.dieReset die) }) := by
  refine hs.onEvent fun s hs => ⟨_, rfl, ?_⟩
  dsimp only
  exact hs.kept

theorem Good.saveContext {tile} (hs : Good K s) : Good K (s.saveContext tile) := by
  unfold State.saveContext
  dsimp only
  exact Good.ite hs hs.kept

theorem Good.execContextSave {tile} (hs : Good K s) : Goes K (execContextSave { s with event := some (.contextSave tile) }) :=
  hs.onEvent fun _ hs => ⟨_, rfl, hs.saveContext⟩

theorem Good.restoreContext {tile} (hs : Good K s) : Good K (s.restoreContext tile) := by
  unfold State.restoreContext
  dsimp only
  split
  · refine Good.ite hs ?_
    refine Good.foldl ?_ fun s c hs => ?_
    · refine Good.foldl ?_ fun s c hs => ?_
      · refine Good.foldl ?_ fun s p hs => ?_
        · refine hs.modTile.foldl fun _ _ hs => ?_
          exact hs.dropStashLine
        · exact hs.setStashLine
      · exact hs.writeMem
    · exact hs.writeMem
  · exact hs

theorem Good.execContextRestore {tile} (hs : Good K s) : Goes K (execContextRestore { s with event := some (.contextRestore tile) }) :=
  hs.onEvent fun _ hs => ⟨_, rfl, hs.restoreContext⟩

end Sys2Proof.Proofs
end

