-- ==== Sys2Proof/Proofs/KeptByPlacement.lean ====
section
/-!
PROOFS. The placing of units, the traps of the fetch and couriers keep the invariant.
-/

namespace Sys2Proof.Proofs

open Sys2Proof Sys2Proof.Machine Sys2Proof.Claims

-- A default argument's tactic is read only when all declarations before are checked: proofs elaborated side by side would each
-- hold a waiting thread.
set_option Elab.async false

variable {K : Asked} {s : State}

theorem Good.placeNext {l} (hs : Good K s) : Good K (s.placeNext l) := by
  unfold State.placeNext
  split
  next x hx' =>
    split
    · split
      · exact (hs.placeUnit (hs.launch hx')).now
      · exact hs.offerUnits
    · exact hs.offerUnits
  · exact hs

theorem Good.execUnitPlacement {launch} (hs : Good K s) : Goes K (execUnitPlacement { s with event := some (.unitPlacement launch) }) :=
  hs.onEvent fun _ hs => ⟨_, rfl, hs.placeNext⟩

theorem Good.execLaunchCompletion {launch} (hs : Good K s) :
    Goes K (execLaunchCompletion { s with event := some (.launchCompletion launch) }) :=
  hs.onEvent fun _ hs => ⟨_, rfl, hs.completeLaunch⟩

theorem Good.execDistanceOverrun (hs : Good K s) : Answers K s (execDistanceOverrun s) :=
  hs.onThread (fun _ _ hth => hs.trapHere hth)

theorem Good.execUnassignedEncoding (hs : Good K s) : Answers K s (execUnassignedEncoding s) :=
  hs.onThread (fun _ _ hth => hs.illegalInstr hth)

theorem Good.sendCourier {tile} (hs : Good K s) : Good K (s.sendCourier tile) := by
  unfold State.sendCourier
  dsimp only
  split
  · split
    next th hth' => exact ((hs.modTile.clearBank.freshLocal.kept.setThread ((hs.thread hth').kept)).post).slotsFreed
    · exact hs
  · exact hs

theorem Good.execCourierSend {tile} (hs : Good K s) : Goes K (execCourierSend { s with event := some (.courierSend tile) }) :=
  hs.onEvent fun _ hs => ⟨_, rfl, hs.sendCourier⟩

theorem Good.execCourierArrival {tid slot} (hs : Good K s) :
    Goes K (execCourierArrival { s with event := some (.courierArrival tid slot) }) := by
  refine hs.onEvent fun s hs => ⟨_, rfl, ?_⟩
  dsimp only
  split
  next th hth' =>
    split
    · exact (hs.setThread (((hs.thread hth').rejoin).kept)).setThread ((((hs.thread hth').rejoin).kept).entering)
    · exact hs
  · exact hs

end Sys2Proof.Proofs
end

