-- ==== Sys2Proof/Proofs/KeptByCycles.lean ====
section
/-!
PROOFS. The parts of an issue and the end of a cycle keep the invariant.
-/

namespace Sys2Proof.Proofs

open Sys2Proof Sys2Proof.Machine Sys2Proof.Claims

-- A default argument's tactic is read only when all declarations before are checked: proofs elaborated side by side would each
-- hold a waiting thread.
set_option Elab.async false

variable {K : Asked} {s : State}

/-! ## A step in hand -/

theorem Good.takeEntry {p} (hs : Good K s) : Good K (s.takeEntry p) := hs.filterAgenda.kept.countNote

theorem Good.clearPending {t} {th : Thread} (hs : Good K s) : Good K (s.clearPending t th) := by
  unfold State.clearPending
  dsimp only
  split
  · exact Good.ite hs hs.kset
  · exact hs

theorem GoodThread.atIssue {th : Thread} {clk} (hth : GoodThread K th) : GoodThread K (th.atIssue clk) := by
  unfold Thread.atIssue
  exact hth.kept

theorem Good.noteFetch {t} {th : Thread} (hs : Good K s) : Good K (s.noteFetch t th) := by
  unfold State.noteFetch
  dsimp only
  exact Good.ite hs.modTile hs.kept

theorem Good.fetchFailed {t} {th : Thread} {f va} (hs : Good K s) (hth : GoodThread K th) : Good K (s.fetchFailed t th f va) := by
  unfold State.fetchFailed
  split
  · exact hs
  · exact hs.trapHere hth
  · exact hs.post.await hth

theorem Good.fetchUsed {k g pc e} (hs : Good K s) : Good K (s.fetchUsed k g pc e) := by
  unfold State.fetchUsed
  dsimp only
  split
  · exact hs.translate
  · exact hs.translate.translate

/-! ## The end of a cycle -/

theorem Good.postSpills (hs : Good K s) : Good K s.postSpills := by
  unfold State.postSpills
  refine hs.foldl fun _ _ hs => ?_
  exact hs.post

theorem Good.postFills (hs : Good K s) : Good K s.postFills := by
  unfold State.postFills
  dsimp only
  refine hs.foldl_mem fun s p hp hu => ?_
  split
  · exact Good.ite hu ((hu.setThread ((hs.threads hp).kept)).post)
  · exact hu

theorem Good.postLate (hs : Good K s) : Good K s.postLate := by
  unfold State.postLate
  refine hs.foldl fun _ _ hs => ?_
  exact hs.post

theorem Good.postEngines (hs : Good K s) : Good K s.postEngines := by
  unfold State.postEngines
  dsimp only
  refine hs.foldl fun _ _ hs => ?_
  exact Good.ite ((Good.ite hs.post hs).post) (Good.ite hs.post hs)

theorem Good.endIssues (hs : Good K s) : Good K s.endIssues := by
  unfold State.endIssues
  dsimp only
  exact Good.ite hs.kept hs.kept.postSpills.postFills.postEngines

theorem Good.endCopies (hs : Good K s) : Good K s.endCopies := by
  unfold State.endCopies
  dsimp only
  refine Good.ite hs.kept ?_
  refine hs.kept.foldl fun _ _ hs => ?_
  exact hs.copyCycle

theorem Good.endLate (hs : Good K s) : Good K s.endLate := by
  unfold State.endLate
  dsimp only
  exact Good.ite hs.kept hs.kept.postLate

theorem Good.landShared (hs : Good K s) : Good K s.landShared := by
  unfold State.landShared
  refine hs.foldl fun _ _ hs => ?_
  exact Good.ite hs hs.kset

theorem GoodThread.endCycle {th : Thread} {counts gated} (hth : GoodThread K th) : GoodThread K (th.endCycle counts gated) := by
  unfold Thread.endCycle
  dsimp only
  refine GoodThread.ite hth.kept ?_
  split
  · split <;> exact hth.kept
  · exact hth.kept

theorem Good.endThreads (hs : Good K s) : Good K s.endThreads :=
  hs.mapThreads (fun _ => rfl) fun _ hp => hp.endCycle

theorem Good.vacate {tile x} (hs : Good K s) : Good K (s.vacate tile x) := by
  unfold State.vacate
  dsimp only
  split
  · exact Good.ite hs (Good.ite hs.modTile hs.now)
  · exact hs

theorem Good.endTiles (hs : Good K s) : Good K s.endTiles := by
  unfold State.endTiles
  dsimp only
  refine Good.ite hs ?_
  refine hs.kept.foldl fun _ _ hs => ?_
  exact hs.vacate

theorem Good.advanceWall (hs : Good K s) : Good K s.advanceWall := by
  unfold State.advanceWall
  dsimp only
  exact Good.ite hs hs.kept

theorem Good.look (hs : Good K s) : Good K s.look := by
  unfold State.look
  exact hs.kept

theorem Good.postTile {tile x} (hs : Good K s) : Good K (s.postTile tile x) := by
  unfold State.postTile
  dsimp only
  refine Good.ite ?_ ?_
  · refine Good.now ?_
    split
    · exact (Good.ite ((Good.ite hs.now hs).now) (Good.ite hs.now hs)).now
    · exact Good.ite ((Good.ite hs.now hs).now) (Good.ite hs.now hs)
  · split
    · exact (Good.ite ((Good.ite hs.now hs).now) (Good.ite hs.now hs)).now
    · exact Good.ite ((Good.ite hs.now hs).now) (Good.ite hs.now hs)

theorem Good.postPeriodic (hs : Good K s) : Good K s.postPeriodic := by
  unfold State.postPeriodic
  dsimp only
  refine Good.ite ?_ ?_
  · refine Good.now ?_
    refine Good.ite ?_ ?_
    · refine Good.now ?_
      refine Good.ite ?_ ?_
      · refine (Good.ite hs.now hs).foldl fun _ _ hs => ?_
        exact hs.now
      · exact Good.ite hs.now hs
    · refine Good.ite ?_ ?_
      · refine (Good.ite hs.now hs).foldl fun _ _ hs => ?_
        exact hs.now
      · exact Good.ite hs.now hs
  · refine Good.ite ?_ ?_
    · refine Good.now ?_
      refine Good.ite ?_ ?_
      · refine (Good.ite hs.now hs).foldl fun _ _ hs => ?_
        exact hs.now
      · exact Good.ite hs.now hs
    · refine Good.ite ?_ ?_
      · refine (Good.ite hs.now hs).foldl fun _ _ hs => ?_
        exact hs.now
      · exact Good.ite hs.now hs

theorem Good.postSnapshot (hs : Good K s) : Good K s.postSnapshot := by
  unfold State.postSnapshot
  dsimp only
  exact Good.ite hs.now hs

theorem Good.postRound (hs : Good K s) : Good K s.postRound := by
  unfold State.postRound
  dsimp only
  refine Good.ite ?_ ?_
  · refine Good.ite ?_ ?_
    · exact (Good.ite hs.now (Good.ite hs.cleanStashes hs)).now
    · exact Good.ite hs.now (Good.ite hs.cleanStashes hs)
  · refine Good.ite ?_ ?_
    · exact (Good.ite hs.now (Good.ite hs.cleanStashes hs)).now
    · exact Good.ite hs.now (Good.ite hs.cleanStashes hs)

theorem Good.postStops (hs : Good K s) : Good K s.postStops := by
  unfold State.postStops
  refine hs.foldl fun _ _ hs => ?_
  exact hs.stopWaiting.checkStop

theorem Good.postPeers (hs : Good K s) : Good K s.postPeers := by
  unfold State.postPeers
  dsimp only
  refine Good.foldl ?_ fun s h hs => ?_
  · refine hs.foldl fun _ _ hs => ?_
    exact hs.now
  · exact hs.kept

theorem Good.wakePending (hs : Good K s) : Good K s.wakePending := by
  unfold State.wakePending
  refine hs.foldl fun s p hs => ?_
  split
  next th hth' =>
    split
    · exact hs.cancelThread (hs.thread hth')
    · exact hs.wakeForEvent
  · exact hs

/-! ## The next cycle -/

theorem Good.begin_ (hs : Good K s) : Good K s.begin_ := by
  unfold State.begin_
  dsimp only
  refine Good.payDone ?_
  refine Good.postPeers ?_
  refine Good.postStops ?_
  refine Good.wallDue ?_
  refine Good.ite ?_ ?_
  · refine Good.now ?_
    refine Good.ite hs.postSnapshot.postPeriodic ?_
    refine hs.postSnapshot.postPeriodic.postRound.wakePending.foldl fun _ _ hs => ?_
    exact hs.postTile
  · refine Good.ite hs.postSnapshot.postPeriodic ?_
    refine hs.postSnapshot.postPeriodic.postRound.wakePending.foldl fun _ _ hs => ?_
    exact hs.postTile

theorem Good.evict {die} (hs : Good K s) : Good K (s.evict die) := by
  unfold State.evict
  split
  · exact hs.kept.modLine
  · exact hs

theorem Good.trimLlc (hs : Good K s) : Good K s.trimLlc := by
  unfold State.trimLlc
  refine hs.foldl fun s m hs => ?_
  refine hs.foldl fun _ _ hs => ?_
  exact hs.evict

/-- The state of the next cycle, before anything is due in it. -/
theorem Good.nextCycle (hs : Good K s) : Good K ({ s with
    clk := s.clk + 1, core := 0, kWrites := [], lateWrites := [], rdvUpdates := [], issuedNow := []
    fetches := s.fetches.filter (fun f => s.clk ≤ f.at_ + 14), gated := s.gated.filter (fun p => s.clk + 1 < p.2) } : State) := hs.kept

theorem Good.endCycle (hs : Good K s) : Good K s.endCycle :=
  hs.landShared.landExpert.trimLlc.endThreads.endTiles.nextCycle.advanceWall.look.begin_

theorem Good.passTime (hs : Good K s) : Good K s.passTime := by
  unfold State.passTime
  dsimp only
  exact Good.ite hs.kept.endIssues (Good.ite hs.kept.endCopies (Good.ite hs.kept.endLate hs.kept.endCycle))

end Sys2Proof.Proofs
end

