-- ==== Sys2Proof/Proofs/Steps.lean ====
section
/-!
PROOFS. Every step keeps the invariant, and answers where threads stand under distinct numbers (R56, R57, R287).
-/

namespace Sys2Proof.Proofs

open Sys2Proof Sys2Proof.Machine Sys2Proof.Claims

-- A default argument's tactic is read only when all declarations before are checked: proofs elaborated side by side would each
-- hold a waiting thread.
set_option Elab.async false

variable {K : Asked} {s u : State}

/-- Every instruction word, by its arm. -/
theorem Good.exec {i : Instr} (hs : Good K s) (hi : i.isWord = true) : Answers K s (exec i s) := by
  cases i with
  | add => exact hs.execAdd
  | sub => exact hs.execSub
  | and => exact hs.execAnd
  | or => exact hs.execOr
  | xor => exact hs.execXor
  | andn => exact hs.execAndn
  | orn => exact hs.execOrn
  | xnor => exact hs.execXnor
  | addW => exact hs.execAddW
  | subW => exact hs.execSubW
  | adds => exact hs.execAdds
  | subs => exact hs.execSubs
  | min => exact hs.execMin
  | max => exact hs.execMax
  | minu => exact hs.execMinu
  | maxu => exact hs.execMaxu
  | addi => exact hs.execAddi
  | andi => exact hs.execAndi
  | ori => exact hs.execOri
  | xori => exact hs.execXori
  | addiW => exact hs.execAddiW
  | slti => exact hs.execSlti
  | sltiu => exact hs.execSltiu
  | sll => exact hs.execSll
  | srl => exact hs.execSrl
  | sra => exact hs.execSra
  | rol => exact hs.execRol
  | ror => exact hs.execRor
  | sllW => exact hs.execSllW
  | srlW => exact hs.execSrlW
  | sraW => exact hs.execSraW
  | slli => exact hs.execSlli
  | srli => exact hs.execSrli
  | srai => exact hs.execSrai
  | rori => exact hs.execRori
  | bext => exact hs.execBext
  | bexts => exact hs.execBexts
  | bins => exact hs.execBins
  | clz => exact hs.execClz
  | ctz => exact hs.execCtz
  | popc => exact hs.execPopc
  | rev8 => exact hs.execRev8
  | slt => exact hs.execSlt
  | sltu => exact hs.execSltu
  | seq => exact hs.execSeq
  | sne => exact hs.execSne
  | sle => exact hs.execSle
  | sleu => exact hs.execSleu
  | sel => exact hs.execSel
  | mul => exact hs.execMul
  | mulh => exact hs.execMulh
  | mulhu => exact hs.execMulhu
  | mulhsu => exact hs.execMulhsu
  | mulW => exact hs.execMulW
  | div => exact hs.execDiv
  | divu => exact hs.execDivu
  | rem => exact hs.execRem
  | remu => exact hs.execRemu
  | divW => exact hs.execDivW
  | remW => exact hs.execRemW
  | lui => exact hs.execLui
  | adr => exact hs.execAdr
  | beq => exact hs.execBeq
  | bne => exact hs.execBne
  | blt => exact hs.execBlt
  | bge => exact hs.execBge
  | bltu => exact hs.execBltu
  | bgeu => exact hs.execBgeu
  | bq => exact hs.execBq
  | bnq => exact hs.execBnq
  | j => exact hs.execJ
  | call => exact hs.execCall
  | jr => exact hs.execJr
  | callr => exact hs.execCallr
  | loop => exact hs.execLoop
  | rfpush => exact hs.execRfpush
  | rfpop => exact hs.execRfpop
  | spawn => exact hs.execSpawn
  | reap => exact hs.execReap
  | rdv => exact hs.execRdv
  | rdvInitReg => exact hs.execRdvInitReg
  | rdvInitImm => exact hs.execRdvInitImm
  | yield => exact hs.execYield
  | prept => exact hs.execPrept
  | pin => exact hs.execPin
  | unpin => exact hs.execUnpin
  | rself => exact hs.execRself
  | ldB => exact hs.execLdB
  | ldBz => exact hs.execLdBz
  | ldH => exact hs.execLdH
  | ldHz => exact hs.execLdHz
  | ldW => exact hs.execLdW
  | ldWz => exact hs.execLdWz
  | ldD => exact hs.execLdD
  | stB => exact hs.execStB
  | stH => exact hs.execStH
  | stW => exact hs.execStW
  | stD => exact hs.execStD
  | ldxB => exact hs.execLdxB
  | ldxBz => exact hs.execLdxBz
  | ldxH => exact hs.execLdxH
  | ldxHz => exact hs.execLdxHz
  | ldxW => exact hs.execLdxW
  | ldxWz => exact hs.execLdxWz
  | ldxD => exact hs.execLdxD
  | stxB => exact hs.execStxB
  | stxH => exact hs.execStxH
  | stxW => exact hs.execStxW
  | stxD => exact hs.execStxD
  | ldcW => exact hs.execLdcW
  | ldcWz => exact hs.execLdcWz
  | ldcD => exact hs.execLdcD
  | smap => exact hs.execSmap
  | sunmap => exact hs.execSunmap
  | slock => exact hs.execSlock
  | sunlock => exact hs.execSunlock
  | swb => exact hs.execSwb
  | amoAdd => exact hs.execAmoAdd
  | amoAnd => exact hs.execAmoAnd
  | amoOr => exact hs.execAmoOr
  | amoXor => exact hs.execAmoXor
  | amoMin => exact hs.execAmoMin
  | amoMax => exact hs.execAmoMax
  | amoMinu => exact hs.execAmoMinu
  | amoMaxu => exact hs.execAmoMaxu
  | amoSwap => exact hs.execAmoSwap
  | amoCas => exact hs.execAmoCas
  | amoFadd => exact hs.execAmoFadd
  | gredAdd => exact hs.execGredAdd
  | gredMin => exact hs.execGredMin
  | gredMax => exact hs.execGredMax
  | gredMinu => exact hs.execGredMinu
  | gredMaxu => exact hs.execGredMaxu
  | gredFadd => exact hs.execGredFadd
  | fence => exact hs.execFence
  | acq => exact hs.execAcq
  | rel => exact hs.execRel
  | bind => exact hs.execBind
  | unbind => exact hs.execUnbind
  | waitack => exact hs.execWaitack
  | ldf => exact hs.execLdf
  | stf => exact hs.execStf
  | ldfn => exact hs.execLdfn
  | stfn => exact hs.execStfn
  | feclr => exact hs.execFeclr
  | feset => exact hs.execFeset
  | mon => exact hs.execMon
  | monclr => exact hs.execMonclr
  | mwait => exact hs.execMwait
  | sleep => exact hs.execSleep
  | binit => exact hs.execBinit
  | bexpect => exact hs.execBexpect
  | barrive => exact hs.execBarrive
  | bwait => exact hs.execBwait
  | btest => exact hs.execBtest
  | xset => exact hs.execXset
  | xmov => exact hs.execXmov
  | xld => exact hs.execXld
  | xst => exact hs.execXst
  | qset => exact hs.execQset
  | qclr => exact hs.execQclr
  | qtest => exact hs.execQtest
  | fadd => exact hs.execFadd
  | fsub => exact hs.execFsub
  | fmul => exact hs.execFmul
  | fdiv => exact hs.execFdiv
  | fsqrt => exact hs.execFsqrt
  | fmin => exact hs.execFmin
  | fmax => exact hs.execFmax
  | feq => exact hs.execFeq
  | flt => exact hs.execFlt
  | fle => exact hs.execFle
  | fclass => exact hs.execFclass
  | fmadd => exact hs.execFmadd
  | fmsub => exact hs.execFmsub
  | fnmadd => exact hs.execFnmadd
  | fnmsub => exact hs.execFnmsub
  | padd => exact hs.execPadd
  | psub => exact hs.execPsub
  | padds => exact hs.execPadds
  | psubs => exact hs.execPsubs
  | pmin => exact hs.execPmin
  | pmax => exact hs.execPmax
  | pmul => exact hs.execPmul
  | pcmpeq => exact hs.execPcmpeq
  | pcmpgt => exact hs.execPcmpgt
  | cvt => exact hs.execCvt
  | mstagea => exact hs.execMstagea
  | mstageb => exact hs.execMstageb
  | mma => exact hs.execMma
  | mflush g n a => exact hs.execMflush (g := g) (n := n) (a := a)
  | mflushSum => exact hs.execMflushSum
  | mclr => exact hs.execMclr
  | accdecl => exact hs.execAccdecl
  | cpy => exact hs.execCpy
  | cpyFill => exact hs.execCpyFill
  | cpfree => exact hs.execCpfree
  | mfs => exact hs.execMfs
  | mts => exact hs.execMts
  | trap => exact hs.execTrap
  | eret => exact hs.execEret
  | halt => exact hs.execHalt
  | genbump => exact hs.execGenbump
  | tlbinv => exact hs.execTlbinv
  | tlbinvall => exact hs.execTlbinvall
  | cwb => exact hs.execCwb
  | cinv => exact hs.execCinv
  | cvstat => exact hs.execCvstat
  | waitwall => exact hs.execWaitwall
  | cvarm => exact hs.execCvarm
  | cvdisarm => exact hs.execCvdisarm
  | mov16 => exact hs.execMov16
  | add16 => exact hs.execAdd16
  | addi16 => exact hs.execAddi16
  | sub16 => exact hs.execSub16
  | and16 => exact hs.execAnd16
  | or16 => exact hs.execOr16
  | xor16 => exact hs.execXor16
  | slli16 => exact hs.execSlli16
  | srli16 => exact hs.execSrli16
  | srai16 => exact hs.execSrai16
  | ldD16 => exact hs.execLdD16
  | stD16 => exact hs.execStD16
  | beqz16 => exact hs.execBeqz16
  | bnez16 => exact hs.execBnez16
  | j16 => exact hs.execJ16
  | slt16 => exact hs.execSlt16
  | sltu16 => exact hs.execSltu16
  | nop16 => exact hs.execNop16
  | yield16 => exact hs.execYield16
  | prept16 => exact hs.execPrept16
  | ret16 => exact hs.execRet16
  | _ => cases hi

/-- Every event, by its arm. -/
theorem Good.event {e : Event} (hs : Good K s) (he : GoodEvent K e) : Goes K (s.runEvent e) := by
  cases e with
  | frameSpill => exact hs.execFrameSpill
  | frameFill => exact hs.execFrameFill
  | rdvPhaseCompletion => exact hs.execRdvPhaseCompletion
  | gatherReductionComplete => exact hs.execGatherReductionComplete
  | publication => exact hs.execPublication
  | remoteStashAccess => exact hs.execRemoteStashAccess
  | parkTableRefusal => exact hs.execParkTableRefusal
  | feResend => exact hs.execFeResend
  | withdrawal => exact hs.execWithdrawal
  | armRequest => exact hs.execArmRequest
  | monitorSignal => exact hs.execMonitorSignal
  | mwaitTimeout => exact hs.execMwaitTimeout
  | interrupt => exact hs.execInterrupt
  | sleepExpiry => exact hs.execSleepExpiry
  | deadlineLate => exact hs.execDeadlineLate
  | declarationAtHome => exact hs.execDeclarationAtHome
  | sumPartArrival => exact hs.execSumPartArrival
  | mergeFailure => exact hs.execMergeFailure
  | matrixDispatch => exact hs.execMatrixDispatch
  | stageAComplete => exact hs.execStageAComplete
  | stageBComplete => exact hs.execStageBComplete
  | mmaComplete => exact hs.execMmaComplete
  | mclrComplete => exact hs.execMclrComplete
  | flushReadoutComplete => exact hs.execFlushReadoutComplete
  | matrixContextSwitch => exact hs.execMatrixContextSwitch
  | engineFault => exact hs.execEngineFault
  | groupWatchdog => exact hs.execGroupWatchdog
  | copyStart => exact hs.execCopyStart
  | copyFinish => exact hs.execCopyFinish
  | xdataWrite => exact hs.execXdataWrite
  | wallReached => exact hs.execWallReached
  | loadReply => exact hs.execLoadReply
  | sendQueueFree => exact hs.execSendQueueFree
  | translationInstalled => exact hs.execTranslationInstalled
  | storeAck => exact hs.execStoreAck
  | atomicReply => exact hs.execAtomicReply
  | homeLoad => exact hs.execHomeLoad
  | homeStore => exact hs.execHomeStore
  | homeAtomic => exact hs.execHomeAtomic
  | postedRefusal => exact hs.execPostedRefusal
  | stashFill => exact hs.execStashFill
  | stashWriteBack => exact hs.execStashWriteBack
  | dropMessage => exact hs.execDropMessage
  | recallHolder => exact hs.execRecallHolder
  | recallAnswer => exact hs.execRecallAnswer
  | forwardedLoad => exact hs.execForwardedLoad
  | faultServiceEnd => exact hs.execFaultServiceEnd
  | pageMigration => exact hs.execPageMigration
  | redirect => exact hs.execRedirect
  | tlbShootdown => exact hs.execTlbShootdown
  | unitPlacement => exact hs.execUnitPlacement
  | launchCompletion => exact hs.execLaunchCompletion
  | cancel => exact hs.execCancel
  | courierSend => exact hs.execCourierSend
  | courierArrival => exact hs.execCourierArrival
  | predrain => exact hs.execPredrain
  | stop => exact hs.execStop
  | pack => exact hs.execPack
  | ship => exact hs.execShip
  | unpack => exact hs.execUnpack
  | resume => exact hs.execResume
  | changeoverPostponement => exact hs.execChangeoverPostponement
  | forwardingNote => exact hs.execForwardingNote
  | heldMessage => exact hs.execHeldMessage
  | sliceEnd => exact hs.execSliceEnd
  | scrubPass => exact hs.execScrubPass
  | wayDivision => exact hs.execWayDivision
  | tokenRefill => exact hs.execTokenRefill
  | uncorrectableError => exact hs.execUncorrectableError
  | correctedError => exact hs.execCorrectedError
  | leakTick => exact hs.execLeakTick
  | retirement => exact hs.execRetirement
  | linkWake => exact hs.execLinkWake
  | dieDead => exact hs.execDieDead
  | dieReset => exact hs.execDieReset
  | contextSave => exact hs.execContextSave
  | contextRestore => exact hs.execContextRestore
  | recordFire => exact hs.execRecordFire
  | convoyStop => exact hs.execConvoyStop
  | stopCompletion => exact hs.execStopCompletion
  | convoyResume => exact hs.execConvoyResume
  | stragglerDeadline => exact hs.execStragglerDeadline
  | ready => exact hs.execReady
  | commit => exact hs.execCommit
  | abandon => exact hs.execAbandon
  | readyTimeout => exact hs.execReadyTimeout
  | commitTimeout => exact hs.execCommitTimeout
  | syncFrame => exact hs.execSyncFrame
  | holdoverEntry => exact hs.execHoldoverEntry
  | podChangeoverInstant => exact hs.execPodChangeoverInstant
  | changeoverInstant => exact hs.execChangeoverInstant
  | peerRequest => exact hs.execPeerRequest
  | peerFaultService => exact hs.execPeerFaultService
  | holdingNotice => exact hs.execHoldingNotice
  | peerTimeout => exact hs.execPeerTimeout
  | guestSave => exact hs.execGuestSave
  | guestRestore => exact hs.execGuestRestore he
  | queueRecord => exact hs.execQueueRecord
  | qtailWrite => exact hs.execQtailWrite
  | qstatWrite => exact hs.execQstatWrite
  | hostWrite => exact hs.execHostWrite
  | boot => exact hs.execBoot
  | attestationRequest => exact hs.execAttestationRequest
  | thermalTrip => exact hs.execThermalTrip
  | powerGate => exact hs.execPowerGate
  | frctlWrite => exact hs.execFrctlWrite
  | gqosWrite => exact hs.execGqosWrite
  | snapctlWrite => exact hs.execSnapctlWrite
  | snapshotFire => exact hs.execSnapshotFire
  | basicRegisterWrite => exact hs.execBasicRegisterWrite
  | expertRegisterWrite => exact hs.execExpertRegisterWrite
  | reservationRequest => exact hs.execReservationRequest
  | reservationEnd => exact hs.execReservationEnd
  | guestCreation => exact hs.execGuestCreation
  | peerTableInstall => exact hs.execPeerTableInstall
  | linkAwake => exact hs.execLinkAwake
  | acknowledgementWait => exact hs.execAcknowledgementWait he

/-! ## The agenda -/

theorem Answers.next {r : Result} (h : Answers K s r) (hu : r = .next u) : Good K u := by
  rw [hu] at h
  exact h

/-- Where a thread runs, the instruction word is carried out. -/
theorem Answers.goes {r : Result} (h : Answers K s r) (hrun : Running s) : Goes K r := by
  cases r with
  | next u => exact ⟨u, rfl, h⟩
  | fault e => exact absurd hrun h
  | refused e => exact h.elim

/-- A choice among the members of a list keeps what holds of each. -/
theorem foldl_choice {α β : Type} {P : β → Prop} {f : Option β → α → Option β} {l : List α} {b : Option β}
    (hf : ∀ b a, a ∈ l → (∀ y, b = some y → P y) → ∀ y, f b a = some y → P y) (hb : ∀ y, b = some y → P y) :
    ∀ y, l.foldl f b = some y → P y := by
  induction l generalizing b with
  | nil => exact hb
  | cons a l ih =>
    exact ih (fun b c hc => hf b c (List.mem_cons_of_mem _ hc)) (hf b a (List.mem_cons_self ..) hb)

theorem nextEntry_mem {p : Pending} (h : s.nextEntry = some p) : p ∈ s.agenda := by
  refine foldl_choice (P := (· ∈ s.agenda)) (fun b a ha hb y hy => ?_) (fun y hy => by cases hy) p h
  split at hy
  next q =>
    split at hy
    · exact Option.some.inj hy ▸ List.mem_of_mem_filter ha
    · exact hb y hy
  · exact Option.some.inj hy ▸ List.mem_of_mem_filter ha

theorem running_of_stillWaits (h : s.stillWaits s.cur = true) : Running s := by
  unfold State.stillWaits at h
  obtain ⟨th, hth, hwaits⟩ := Option.any_eq_true _ _ |>.mp h
  obtain ⟨hreplay, hhalt⟩ := Bool.and_eq_true_iff.mp hwaits
  exact ⟨th, hth, Bool.not_eq_true' _ |>.mp hhalt, .inr hreplay⟩

theorem countNote_cur {p : Pending} : (s.countNote p).cur = s.cur := by
  unfold State.countNote
  split
  · split
    · rfl
    · rfl
  · rfl

theorem takeEntry_cur {p : Pending} : (s.takeEntry p).cur = p.cur := countNote_cur

/-- A step of the agenda is carried out. -/
theorem Good.runEntry {p : Pending} (hs : Good K s) (hp : p ∈ s.agenda) : Goes K (s.runEntry p) := by
  have hwork := hs.agenda hp
  unfold State.runEntry
  split
  · exact ⟨_, rfl, hs.takeEntry⟩
  · exact hs.event fun _ => trivial
  · exact hs.event fun _ => trivial
  · split
    next e h => exact hs.takeEntry.event (by rw [h] at hwork; exact hwork)
    next i h =>
      split
      next hwaits =>
        obtain ⟨hword, hstill⟩ := Bool.and_eq_true_iff.mp hwaits
        exact (hs.takeEntry.exec hword).goes (running_of_stillWaits (takeEntry_cur.symm ▸ hstill))
      · exact ⟨_, rfl, hs.takeEntry⟩

/-! ## An issue -/

/-- What decodes is an instruction word. -/
theorem isWord_of_decode {i : Instr} {e : Encoded} (h : e.decode = some i) : i.isWord = true := by
  cases e with
  | half w =>
    obtain ⟨-, hlong, hshort⟩ := short_decode_sound (shortFits_split w) i h
    simp [Instr.isWord, encode, hlong, hshort]
  | word w =>
    obtain ⟨-, hlong⟩ := long_decode_sound (fits_split w) i h
    simp [Instr.isWord, encode, hlong]

/-- The state goes on with the same threads and the same one of them at work. -/
theorem Running.of_threads (h : Running s) (hth : u.threads = s.threads) (hcur : u.cur = s.cur) : Running u := by
  obtain ⟨th, hget, hruns⟩ := h
  exact ⟨th, by rw [State.thread?, hth, hcur]; exact hget, hruns⟩

theorem translate_threads {k : Nat} {g : BitVec 8} {va : Nat} {b : Bool} :
    (s.translate k g va b).2.threads = s.threads ∧ (s.translate k g va b).2.cur = s.cur := by
  unfold State.translate
  dsimp only
  split
  · exact ⟨rfl, rfl⟩
  · split
    · split
      · exact ⟨rfl, rfl⟩
      · exact ⟨rfl, rfl⟩
    · exact ⟨rfl, rfl⟩

theorem Running.fetchUsed {k : Nat} {g : BitVec 8} {pc : Word} {e : Encoded} (h : Running s) : Running (s.fetchUsed k g pc e) := by
  have hfirst := h.of_threads (translate_threads (k := k) (g := g) (va := low56 pc) (b := false)).1 translate_threads.2
  unfold State.fetchUsed
  dsimp only
  split
  · exact hfirst
  · exact hfirst.of_threads translate_threads.1 translate_threads.2

theorem Running.noteFetch {t : Nat} {th : Thread} (h : Running s) : Running (s.noteFetch t th) := by
  unfold State.noteFetch
  dsimp only
  split
  · exact h.of_threads rfl rfl
  · exact h.of_threads rfl rfl

/-- An issue comes to a good state, or to an instruction that the thread at work can carry out where it can at the issue. -/
def GoodIssue (K : Asked) (runs : Prop) (x : Issue) : Prop := ∃ u, (runs → Running u) ∧ Answers K u x.carryOut

theorem GoodIssue.done {runs : Prop} (hrun : runs → Running s) (hu : Good K u) : GoodIssue K runs (.done u) := ⟨s, hrun, hu⟩

theorem GoodIssue.run {runs : Prop} {i : Instr} (hrun : runs → Running s) (h : Answers K s (exec i s)) : GoodIssue K runs (.run i s) :=
  ⟨s, hrun, h⟩

theorem Good.fetchIssue {t : Nat} {th : Thread} (hs : Good K s) (hth : GoodThread K th) : GoodIssue K (Running s) (s.fetchIssue t th) := by
  unfold State.fetchIssue
  dsimp only
  split
  · exact .done id (hs.fetchFailed hth)
  · split
    · exact .run id hs.execDistanceOverrun
    · exact .done id (hs.fetchFailed hth)
  next e he =>
    have hfetched : Good K ((s.fetchUsed th.home th.guest th.pc e).noteFetch t th) := hs.fetchUsed.noteFetch
    have hrun : Running s → Running ((s.fetchUsed th.home th.guest th.pc e).noteFetch t th) := fun h => h.fetchUsed.noteFetch
    split
    · split
      · exact .run hrun hfetched.execDistanceOverrun
      · exact .run hrun hfetched.execUnassignedEncoding
    next i hi =>
      split
      · exact .run hrun hfetched.execDistanceOverrun
      · exact .run hrun (hfetched.exec (isWord_of_decode hi))

/-- Thread t is placed and has not halted. -/
def Placed (s : State) (t : Nat) : Prop := ∃ th, s.thread? t = some th ∧ th.halted = false ∧ th.place.isSome = true

theorem clearPending_threads {t : Nat} {th : Thread} : (s.clearPending t th).threads = s.threads ∧ (s.clearPending t th).cur = s.cur := by
  unfold State.clearPending
  dsimp only
  split
  · split
    · exact ⟨rfl, rfl⟩
    · exact ⟨rfl, rfl⟩
  · exact ⟨rfl, rfl⟩

/-- The thread without the event that it takes where it takes one at all. -/
theorem GoodThread.eventTaken {th u : Thread} {e : TrapEvent} {c : Prop} {_ : Decidable c} (h : GoodThread K th)
    (hu : (if c then none else th.nextEvent) = some (e, u)) : GoodThread K u := by
  split at hu
  · cases hu
  · exact h.nextEvent hu

/-- The note of who has issued changes no part that is asked for. -/
theorem Good.noteIssued {l : List (Nat × Nat)} (hs : Good K s) : Good K { s with issuedNow := l } := hs.kept

theorem running_setThread {t : Nat} {th : Thread} {l : List (Nat × Nat)} (hcur : s.cur = t) (hhalt : th.halted = false)
    (hplace : th.place.isSome = true) : Running { s.setThread t th with issuedNow := l } :=
  ⟨th, by subst hcur; exact State.thread?_setThread_self s s.cur th, hhalt, .inl hplace⟩

theorem Good.issue {core t : Nat} (hs : Good K s) : GoodIssue K (Placed s t) (s.issue core t) := by
  unfold State.issue
  extract_lets s₁
  have h₁ : Good K s₁ := hs.kept
  have hcur₁ : s₁.cur = t := rfl
  have hthreads₁ : s₁.thread? t = s.thread? t := rfl
  clear_value s₁
  split
  next hnone =>
    refine ⟨s₁, ?_, h₁⟩
    rintro ⟨th, hth, -⟩
    rw [← hthreads₁, hnone] at hth
    cases hth
  next th hth =>
    have hplaced : Placed s t → th.halted = false ∧ th.place.isSome = true := by
      rintro ⟨th', hth', hruns⟩
      rw [← hthreads₁, hth] at hth'
      cases hth'
      exact hruns
    have hrun₁ : Placed s t → Running s₁ := fun h => ⟨th, hcur₁ ▸ hth, (hplaced h).1, .inl (hplaced h).2⟩
    split
    · exact .done hrun₁ (h₁.await (h₁.thread hth))
    · extract_lets s₂ th₁ set₃ s₃
      have hth₁ : GoodThread K th₁ := (h₁.thread hth).atIssue
      have h₃ : Good K s₃ := (h₁.clearPending.setThread hth₁).noteIssued
      have hrun₃ : Placed s t → Running s₃ := fun h =>
        running_setThread (clearPending_threads.2.trans hcur₁) (hplaced h).1 (hplaced h).2
      clear_value s₃ set₃ th₁ s₂
      split
      next e th₂ h => exact .done hrun₁ (h₃.takeEvent (hth₁.eventTaken h))
      · obtain ⟨u, hu, hanswers⟩ := h₃.fetchIssue (t := t) hth₁
        exact ⟨u, fun h => hu (hrun₃ h), hanswers⟩

/-! ## Who issues -/

/-- A thread is found under its number where the numbers rise. -/
theorem KMap.get?_of_mem {α : Type} {m : List (Nat × α)} {p : Nat × α} (hm : KMap.sorted m = true) (hp : p ∈ m) :
    KMap.get? m p.1 = some p.2 := by
  induction m with
  | nil => cases hp
  | cons q m ih =>
    obtain ⟨habove, hrest⟩ := (KMap.sorted_cons q.1 q.2 m).mp hm
    rcases List.mem_cons.mp hp with rfl | hp
    · simp [KMap.get?]
    · have hne : q.1 ≠ p.1 := (habove p hp).ne
      simp [KMap.get?, hne, ih hrest hp]

theorem placed_of_mem {p : Nat × Thread} {core c : Nat} (hs : KMap.sorted s.threads = true)
    (hp : p ∈ (s.onCore core).filter (fun p => p.2.eligible c)) : Placed s p.1 := by
  obtain ⟨hcore, heligible⟩ := List.mem_filter.mp hp
  simp only [Thread.eligible, Thread.inRotation, Bool.and_eq_true, Bool.not_eq_true'] at heligible
  obtain ⟨⟨⟨⟨⟨hhalt, hplace⟩, -⟩, -⟩, -⟩, -⟩ := heligible
  exact ⟨p.2, KMap.get?_of_mem hs (List.mem_of_mem_filter hcore), hhalt, hplace⟩

theorem placed_of_chosen {core c t : Nat} (hs : KMap.sorted s.threads = true) (h : s.chosen core c = some t) : Placed s t := by
  unfold State.chosen at h
  extract_lets ts at h
  split at h
  next p hfind =>
    cases h
    exact placed_of_mem hs (List.mem_of_find?_eq_some hfind)
  next =>
    obtain ⟨x, hx, rfl⟩ := Option.map_eq_some_iff.mp h
    refine foldl_choice (P := fun x => Placed s x.2) (fun b p hp hb y hy => ?_) (fun y hy => by cases hy) x hx
    have hplaced : Placed s p.1 := placed_of_mem hs (List.mem_of_mem_filter hp)
    split at hy
    · split at hy
      · cases hy
        exact hplaced
      · exact hb y hy
    · cases hy
      exact hplaced

theorem placed_of_nextIssue {core t : Nat} (hs : KMap.sorted s.threads = true) (h : s.nextIssue = some (core, t)) : Placed s t := by
  unfold State.nextIssue at h
  split at h
  · cases h
  · obtain ⟨c, -, hc⟩ := List.exists_of_findSome?_eq_some h
    split at hc
    · cases hc
    · obtain ⟨t', ht', heq⟩ := Option.map_eq_some_iff.mp hc
      cases heq
      exact placed_of_chosen hs ht'

/-! ## A step -/

/-- What a step answers is good. -/
theorem Good.step (hs : Good K s) (h : step s = .next u) : Good K u := by
  unfold Machine.step at h
  split at h
  next p hp =>
    obtain ⟨v, hv, hgood⟩ := hs.runEntry (nextEntry_mem hp)
    cases hv.symm.trans h
    exact hgood
  next =>
    split at h
    next core t _ =>
      obtain ⟨v, -, hanswers⟩ := hs.issue (core := core) (t := t)
      exact hanswers.next h
    next =>
      cases h
      exact hs.passTime

/-- A step from a state whose threads are listed under distinct numbers answers a next state. -/
theorem step_goes (hs : Good K s) (hsorted : KMap.sorted s.threads = true) : Goes K (step s) := by
  unfold Machine.step
  split
  next p hp => exact hs.runEntry (nextEntry_mem hp)
  next =>
    split
    next core t h =>
      obtain ⟨v, hrun, hanswers⟩ := hs.issue (core := core) (t := t)
      exact hanswers.goes (hrun (placed_of_nextIssue hsorted h))
    next => exact ⟨_, rfl, hs.passTime⟩

/-- Settles O60: a step keeps the invariant that asks for halfwords alone. -/
theorem stepKeepsHalfwords : Obligations.StepKeepsHalfwords := by
  intro s u hs h
  have hgood : Good ⟨False, False, True⟩ s := ⟨False.elim, False.elim, fun _ => hs⟩
  obtain ⟨-, -, hhalf⟩ := hgood.step h
  exact hhalf trivial

/-- Settles O58, by induction on the number of steps: each keeps the threads listed under distinct numbers, so that a thread that is
chosen to issue is there to carry its instruction out. -/
theorem stepAnswers : Obligations.StepAnswers := by
  intro s n
  induction n generalizing s with
  | zero => exact fun _ => trivial
  | succ n ih =>
    intro hs
    have hgood : Good ⟨True, False, False⟩ s := ⟨fun _ => hs, False.elim, False.elim⟩
    obtain ⟨u, hu, hnum, -⟩ := step_goes hgood hs
    exact ⟨u, hu, ih u (hnum trivial)⟩

end Sys2Proof.Proofs
end

