-- ==== Sys2Proof/Proofs/BitValues.lean ====
section
/-!
PROOFS. Shifts, rotates, bit fields and bit counts (R62 to R64).
-/

namespace Sys2Proof.Proofs

open Sys2Proof Sys2Proof.Machine Sys2Proof.Claims

/-! ## Shifts and rotates (R62) -/

theorem shiftLeft_eq_ofNat_mul (x : Word) (n : Nat) : x <<< n = BitVec.ofNat 64 (x.toNat * 2 ^ n) :=
  BitVec.eq_of_toNat_eq (by rw [BitVec.toNat_shiftLeft, Nat.shiftLeft_eq, BitVec.toNat_ofNat])

theorem ushiftRight_eq_ofNat_div (x : Word) (n : Nat) : x >>> n = BitVec.ofNat 64 (x.toNat / 2 ^ n) := by
  refine BitVec.eq_of_toNat_eq ?_
  rw [BitVec.toNat_ushiftRight, Nat.shiftRight_eq_div_pow, BitVec.toNat_ofNat]
  exact (Nat.mod_eq_of_lt ((Nat.div_le_self _ _).trans_lt x.isLt)).symm

theorem sshiftRight_eq_ofInt_div {w : Nat} (x : BitVec w) (n : Nat) : x.sshiftRight n = BitVec.ofInt w (x.toInt / 2 ^ n) := by
  rw [BitVec.sshiftRight, Int.shiftRight_eq_div_pow]
  norm_cast

theorem rotateLeft_eq (x : Word) {n : Nat} (h : n < 64) : x.rotateLeft n = x <<< n ||| x >>> (64 - n) := by
  rw [BitVec.rotateLeft_def, Nat.mod_eq_of_lt h]

theorem rotateRight_eq (x : Word) {n : Nat} (h : n < 64) : x.rotateRight n = x >>> n ||| x <<< (64 - n) := by
  rw [BitVec.rotateRight_def, Nat.mod_eq_of_lt h]

theorem signExtend_ofInt_div (x : BitVec 32) (n : Nat) : (x.sshiftRight n).signExtend 64 = BitVec.ofInt 64 (x.toInt / 2 ^ n) := by
  rw [BitVec.signExtend, BitVec.toInt_sshiftRight, Int.shiftRight_eq_div_pow]
  norm_cast

theorem shiftResults : ShiftResults := by
  intro s t th d a b n h
  have hc : (s.readReg th b).toNat % 64 < 64 := Nat.mod_lt _ (by decide)
  refine ⟨?_, ?_, ?_, ?_, ?_, ?_, ?_, ?_, ?_, ?_, ?_, ?_⟩
  · exact computes_alu2 h _ d a b (fun x y => sllV x (cnt6 y)) rfl rfl (shiftLeft_eq_ofNat_mul _ _)
  · exact computes_alu2 h _ d a b (fun x y => srlV x (cnt6 y)) rfl rfl (ushiftRight_eq_ofNat_div _ _)
  · exact computes_alu2 h _ d a b (fun x y => sraV x (cnt6 y)) rfl rfl (sshiftRight_eq_ofInt_div _ _)
  · exact computes_alu2 h _ d a b (fun x y => rolV x (cnt6 y)) rfl rfl (rotateLeft_eq _ hc)
  · exact computes_alu2 h _ d a b (fun x y => rorV x (cnt6 y)) rfl rfl (rotateRight_eq _ hc)
  · exact computes_alu2 h _ d a b (fun x y => sllWV x (cnt5 y)) rfl rfl rfl
  · exact computes_alu2 h _ d a b (fun x y => srlWV x (cnt5 y)) rfl rfl rfl
  · exact computes_alu2 h _ d a b (fun x y => sraWV x (cnt5 y)) rfl rfl (signExtend_ofInt_div _ _)
  · exact computes_alu1 h _ d a (fun x => sllV x n.toNat) rfl rfl (shiftLeft_eq_ofNat_mul _ _)
  · exact computes_alu1 h _ d a (fun x => srlV x n.toNat) rfl rfl (ushiftRight_eq_ofNat_div _ _)
  · exact computes_alu1 h _ d a (fun x => sraV x n.toNat) rfl rfl (sshiftRight_eq_ofInt_div _ _)
  · exact computes_alu1 h _ d a (fun x => rorV x n.toNat) rfl rfl (rotateRight_eq _ n.isLt)

/-! ## Bit fields (R63) -/

theorem testBit_bits (w lo n j : Nat) : (bits w lo n).testBit j = (decide (j < n) && w.testBit (lo + j)) := by
  rw [bits, Nat.testBit_mod_two_pow, Nat.testBit_div_two_pow, Nat.add_comm]

theorem getLsbD_bextV (x y : Word) {j : Nat} (hj : j < 64) :
    (bextV x y).getLsbD j = (decide (j < fieldLen y) && x.getLsbD (fieldPos y + j)) := by
  rw [bextV, BitVec.getLsbD_ofNat, testBit_bits, decide_eq_true hj, Bool.true_and]
  rfl

/-- Above the field stands its top bit. -/
theorem getLsbD_bextsV (x y : Word) {j : Nat} (hj : j < 64) :
    (bextsV x y).getLsbD j = if fieldLen y = 0 then false else x.getLsbD (fieldPos y + min j (fieldLen y - 1)) := by
  unfold bextsV
  split
  · exact BitVec.getLsbD_zero
  · have hlen : 0 < fieldLen y := by omega
    rw [sext_eq_signExtend _ _ hlen, BitVec.getLsbD_signExtend, decide_eq_true hj, Bool.true_and, BitVec.msb_eq_getLsbD_last]
    simp only [BitVec.getLsbD_ofNat, testBit_bits]
    split
    next h => rw [Nat.min_eq_left (by omega), decide_eq_true h]; rfl
    next h => rw [Nat.min_eq_right (by omega), decide_eq_true (by omega)]; rfl

theorem getLsbD_fieldMask (y : Word) {j : Nat} (hj : j < 64) :
    (fieldMask y).getLsbD j = decide (fieldPos y ≤ j ∧ j < fieldPos y + fieldLen y) := by
  rw [fieldMask, BitVec.getLsbD_shiftLeft, BitVec.getLsbD_ofNat, Nat.testBit_two_pow_sub_one, decide_eq_true hj, Bool.true_and]
  by_cases hp : j < fieldPos y
  · simp [hp]
  · have hsub : j - fieldPos y < 64 := by omega
    have hlen : j - fieldPos y < fieldLen y ↔ j < fieldPos y + fieldLen y := by omega
    simp [hp, hsub, hlen, Nat.le_of_not_lt hp]

theorem getLsbD_binsV (x y old : Word) {j : Nat} (hj : j < 64) :
    (binsV x y old).getLsbD j = if fieldPos y ≤ j ∧ j < fieldPos y + fieldLen y then x.getLsbD (j - fieldPos y) else old.getLsbD j := by
  rw [binsV, BitVec.getLsbD_or, BitVec.getLsbD_and, BitVec.getLsbD_and, BitVec.getLsbD_not, getLsbD_fieldMask y hj, BitVec.getLsbD_shiftLeft]
  split
  next h => simp [hj, h]
  next h => simp [hj, h]

theorem bitFieldResults : BitFieldResults := by
  intro s t th d a b h
  refine ⟨bextV _ _, bextsV _ _, binsV _ _ _, ?_, ?_, ?_, fun j => getLsbD_bextV _ _, fun j => getLsbD_bextsV _ _, fun j => getLsbD_binsV _ _ _⟩
  · exact computes_alu2 h _ d a b bextV rfl rfl rfl
  · exact computes_alu2 h _ d a b bextsV rfl rfl rfl
  · exact computes_alu3 h _ d a b binsV rfl rfl rfl

/-! ## Bit counts (R64) -/

theorem bitLen_le (k n : Nat) : bitLen k n ≤ k := by
  induction k generalizing n with
  | zero => exact Nat.le_refl 0
  | succ k ih =>
    unfold bitLen
    split
    · omega
    · exact Nat.succ_le_succ (ih _)

/-- All bits of a number lie below its length. -/
theorem lt_two_pow_bitLen {k n : Nat} (hn : n < 2 ^ k) : n < 2 ^ bitLen k n := by
  induction k generalizing n with
  | zero => simpa [bitLen] using hn
  | succ k ih =>
    unfold bitLen
    split
    · simp_all
    · have hhalf := ih (n := n / 2) (by omega)
      omega

theorem testBit_bitLen_sub_one {k n : Nat} (h : bitLen k n ≠ 0) (hn : n < 2 ^ k) : n.testBit (bitLen k n - 1) = true := by
  induction k generalizing n with
  | zero => exact absurd rfl h
  | succ k ih =>
    unfold bitLen at h ⊢
    split
    next h0 => simp [h0] at h
    next h0 =>
      rw [Nat.add_sub_cancel]
      by_cases hhalf : bitLen k (n / 2) = 0
      · have hlt := lt_two_pow_bitLen (k := k) (n := n / 2) (by omega)
        rw [hhalf] at hlt ⊢
        rw [Nat.testBit_zero]
        simpa using (by omega : n % 2 = 1)
      · have htop := ih hhalf (by omega)
        rwa [← Nat.testBit_succ, Nat.succ_eq_add_one, Nat.sub_add_cancel (Nat.pos_of_ne_zero hhalf)] at htop

theorem trailingZeros_le (k n : Nat) : trailingZeros k n ≤ k := by
  induction k generalizing n with
  | zero => exact Nat.le_refl 0
  | succ k ih =>
    unfold trailingZeros
    split
    · omega
    · exact Nat.succ_le_succ (ih _)

theorem testBit_of_lt_trailingZeros {k n j : Nat} (hj : j < trailingZeros k n) : n.testBit j = false := by
  induction k generalizing n j with
  | zero => exact absurd hj (Nat.not_lt_zero j)
  | succ k ih =>
    unfold trailingZeros at hj
    split at hj
    · exact absurd hj (Nat.not_lt_zero j)
    · cases j with
      | zero => simpa [Nat.testBit_zero] using ‹¬ n % 2 = 1›
      | succ j => rw [Nat.testBit_succ]; exact ih (by omega)

theorem testBit_trailingZeros {k n : Nat} (h : trailingZeros k n < k) : n.testBit (trailingZeros k n) = true := by
  induction k generalizing n with
  | zero => exact absurd h (Nat.not_lt_zero _)
  | succ k ih =>
    unfold trailingZeros at h ⊢
    split
    · simpa [Nat.testBit_zero]
    · rw [Nat.testBit_succ]
      exact ih (by simp_all)

theorem popCount_eq_length_filter (k n : Nat) : popCount k n = ((List.range k).filter (fun j => n.testBit j)).length := by
  induction k generalizing n with
  | zero => rfl
  | succ k ih =>
    rw [popCount, ih, List.range_succ_eq_map, List.filter_cons, List.filter_map, Nat.testBit_zero]
    simp only [Function.comp_def, Nat.succ_eq_add_one, Nat.testBit_succ]
    obtain h | h := Nat.mod_two_eq_zero_or_one n <;> simp [h, Nat.add_comm]

theorem popCount_le (k n : Nat) : popCount k n ≤ k := by
  rw [popCount_eq_length_filter]
  exact (List.length_filter_le _ _).trans (List.length_range).le

/-- The bits of the number that bytes hold: the first byte is lowest. -/
theorem testBit_natOfBytes {bs : List Byte} {j k : Nat} (hj : j < bs.length) (hk : k < 8) : (natOfBytes bs).testBit (8 * j + k) = bs[j].getLsbD k := by
  induction bs generalizing j with
  | nil => exact absurd hj (Nat.not_lt_zero j)
  | cons b bs ih =>
    rw [natOfBytes, show 256 = 2 ^ 8 by rfl, Nat.add_comm, Nat.testBit_two_pow_mul_add _ b.isLt]
    cases j with
    | zero => simp [hk, BitVec.getLsbD]
    | succ j =>
      rw [if_neg (by omega), show 8 * (j + 1) + k - 8 = 8 * j + k by omega, ih (by simpa using hj), List.getElem_cons_succ]

theorem length_bytesOf (w n : Nat) : (bytesOf w n).length = n := by
  induction n generalizing w with
  | zero => rfl
  | succ n ih => rw [bytesOf, List.length_cons, ih]

theorem getLsbD_rev8V (x : Word) {j k : Nat} (hj : j < 8) (hk : k < 8) : (rev8V x).getLsbD (8 * j + k) = x.getLsbD (8 * (7 - j) + k) := by
  have hlen : (bytesOf x.toNat 8).reverse.length = 8 := by rw [List.length_reverse, length_bytesOf]
  rw [rev8V, BitVec.getLsbD_ofNat, testBit_natOfBytes (hlen ▸ hj) hk, decide_eq_true (by omega), Bool.true_and, List.getElem_reverse]
  simp only [bytesOf_eq, List.getElem_map, List.getElem_range, List.length_map, List.length_range, BitVec.getLsbD_extractLsb', hk]
  simp

theorem bitCountResults : BitCountResults := by
  intro s t th d a h
  let x := s.readReg th a
  have hx : x.toNat < 2 ^ 64 := x.isLt
  have hclz : (clzV x).toNat = 64 - bitLen 64 x.toNat := Nat.mod_eq_of_lt (by omega)
  have hctz : (ctzV x).toNat = trailingZeros 64 x.toNat := Nat.mod_eq_of_lt ((trailingZeros_le 64 _).trans_lt (by decide))
  have hlen := bitLen_le 64 x.toNat
  refine ⟨clzV x, ctzV x, popcV x, rev8V x, ?_, ?_, ?_, ?_, ?_, fun j _ hj => ?_, fun hlt => ?_, ?_, fun j hj => ?_, fun hlt => ?_, ?_,
    fun j k hj hk => getLsbD_rev8V x hj hk⟩
  · exact computes_alu1 h _ d a clzV rfl rfl rfl
  · exact computes_alu1 h _ d a ctzV rfl rfl rfl
  · exact computes_alu1 h _ d a popcV rfl rfl rfl
  · exact computes_alu1 h _ d a rev8V rfl rfl rfl
  · omega
  · refine Nat.testBit_lt_two_pow ((lt_two_pow_bitLen hx).trans_le (Nat.pow_le_pow_right (by decide) ?_))
    rw [hclz] at hj
    omega
  · rw [hclz] at hlt ⊢
    rw [show 63 - (64 - bitLen 64 x.toNat) = bitLen 64 x.toNat - 1 by omega]
    have hpos : bitLen 64 x.toNat ≠ 0 := by omega
    exact testBit_bitLen_sub_one hpos hx
  · exact hctz ▸ trailingZeros_le 64 _
  · exact testBit_of_lt_trailingZeros (hctz ▸ hj)
  · rw [hctz] at hlt ⊢
    exact testBit_trailingZeros hlt
  · rw [popcV, BitVec.toNat_ofNat, Nat.mod_eq_of_lt ((popCount_le 64 _).trans_lt (by decide)), popCount_eq_length_filter]
    rfl

/-- Settles O1: each instruction of major 0x02 writes the value of a function of its operands, whose bits or number the lemmas above give. -/
theorem bitResults : Obligations.BitResults := ⟨shiftResults, bitFieldResults, bitCountResults⟩

end Sys2Proof.Proofs
end

