-- ==== Sys2Proof/Proofs/Arithmetic.lean ====
section
/-!
PROOFS. Sums, comparisons, selection, products, quotients and the 16-bit forms (R60, R61, R65 to R69, R95).
-/

namespace Sys2Proof.Proofs

open Sys2Proof Sys2Proof.Machine Sys2Proof.Claims

/-! ## Truth values and relations -/

theorem ofBool_eq_truth (p : Prop) [Decidable p] : ofBool (decide p) = truth p := by
  by_cases h : p <;> simp [ofBool, truth, h]

/-- A relation's truth value, where the model tests it by b. -/
theorem ofBool_eq_truth_of_iff {b : Bool} {p : Prop} [Decidable p] (h : b = true ↔ p) : ofBool b = truth p := by
  rw [← ofBool_eq_truth, ← Bool.decide_coe b]
  exact congrArg ofBool (decide_eq_decide.mpr h)

theorem slt_iff (x y : Word) : x.slt y = true ↔ x.toInt < y.toInt := decide_eq_true_iff
theorem ult_iff (x y : Word) : x.ult y = true ↔ x.toNat < y.toNat := decide_eq_true_iff
theorem sle_iff (x y : Word) : x.sle y = true ↔ x.toInt ≤ y.toInt := decide_eq_true_iff
theorem ule_iff (x y : Word) : x.ule y = true ↔ x.toNat ≤ y.toNat := decide_eq_true_iff

/-! ## Major 0x00 (R60) -/

theorem sat64_eq_clamp (i : Int) : sat64 i = BitVec.ofInt 64 (clamp i) := by
  unfold sat64 clamp
  congr 1
  split
  · omega
  · split <;> omega

theorem minV_eq (x y : Word) : minV x y = BitVec.ofInt 64 (min x.toInt y.toInt) := by
  unfold minV
  by_cases h : x.toInt < y.toInt
  · rw [if_pos ((slt_iff x y).mpr h), min_eq_left h.le, BitVec.ofInt_toInt]
  · rw [if_neg (mt (slt_iff x y).mp h), min_eq_right (not_lt.mp h), BitVec.ofInt_toInt]

theorem maxV_eq (x y : Word) : maxV x y = BitVec.ofInt 64 (max x.toInt y.toInt) := by
  unfold maxV
  by_cases h : x.toInt < y.toInt
  · rw [if_pos ((slt_iff x y).mpr h), max_eq_right h.le, BitVec.ofInt_toInt]
  · rw [if_neg (mt (slt_iff x y).mp h), max_eq_left (not_lt.mp h), BitVec.ofInt_toInt]

theorem minuV_eq (x y : Word) : minuV x y = BitVec.ofNat 64 (min x.toNat y.toNat) := by
  unfold minuV
  by_cases h : x.toNat < y.toNat
  · rw [if_pos ((ult_iff x y).mpr h), min_eq_left h.le, BitVec.ofNat_toNat, BitVec.setWidth_eq]
  · rw [if_neg (mt (ult_iff x y).mp h), min_eq_right (not_lt.mp h), BitVec.ofNat_toNat, BitVec.setWidth_eq]

theorem maxuV_eq (x y : Word) : maxuV x y = BitVec.ofNat 64 (max x.toNat y.toNat) := by
  unfold maxuV
  by_cases h : x.toNat < y.toNat
  · rw [if_pos ((ult_iff x y).mpr h), max_eq_right h.le, BitVec.ofNat_toNat, BitVec.setWidth_eq]
  · rw [if_neg (mt (ult_iff x y).mp h), max_eq_left (not_lt.mp h), BitVec.ofNat_toNat, BitVec.setWidth_eq]

theorem addSubLogicResults : AddSubLogicResults := by
  intro s t th d a b h
  refine ⟨?_, ?_, ?_, ?_, ?_, ?_, ?_, ?_, ?_, ?_, ?_, ?_, ?_, ?_, ?_, ?_⟩
  · exact computes_alu2 h _ d a b (fun x y => x + y) rfl rfl rfl
  · exact computes_alu2 h _ d a b (fun x y => x - y) rfl rfl rfl
  · exact computes_alu2 h _ d a b (fun x y => x &&& y) rfl rfl rfl
  · exact computes_alu2 h _ d a b (fun x y => x ||| y) rfl rfl rfl
  · exact computes_alu2 h _ d a b (fun x y => x ^^^ y) rfl rfl rfl
  · exact computes_alu2 h _ d a b (fun x y => x &&& ~~~y) rfl rfl rfl
  · exact computes_alu2 h _ d a b (fun x y => x ||| ~~~y) rfl rfl rfl
  · exact computes_alu2 h _ d a b (fun x y => ~~~(x ^^^ y)) rfl rfl rfl
  · exact computes_alu2 h _ d a b (fun x y => sext32 (x + y)) rfl rfl rfl
  · exact computes_alu2 h _ d a b (fun x y => sext32 (x - y)) rfl rfl rfl
  · exact computes_alu2 h _ d a b addsV rfl rfl (sat64_eq_clamp _)
  · exact computes_alu2 h _ d a b subsV rfl rfl (sat64_eq_clamp _)
  · exact computes_alu2 h _ d a b minV rfl rfl (minV_eq _ _)
  · exact computes_alu2 h _ d a b maxV rfl rfl (maxV_eq _ _)
  · exact computes_alu2 h _ d a b minuV rfl rfl (minuV_eq _ _)
  · exact computes_alu2 h _ d a b maxuV rfl rfl (maxuV_eq _ _)

/-! ## Immediates (R61) -/

theorem toInt_immS {n : Nat} (i : BitVec n) (hn : n ≤ 64) : (immS i).toInt = i.toInt := BitVec.toInt_signExtend_of_le hn

theorem immediateResults : ImmediateResults := by
  intro s t th d a i h
  refine ⟨?_, ?_, ?_, ?_, ?_, ?_, ?_⟩
  · exact computes_alu1 h _ d a (fun x => x + immS i) rfl rfl rfl
  · exact computes_alu1 h _ d a (fun x => x &&& immS i) rfl rfl rfl
  · exact computes_alu1 h _ d a (fun x => x ||| immS i) rfl rfl rfl
  · exact computes_alu1 h _ d a (fun x => x ^^^ immS i) rfl rfl rfl
  · exact computes_alu1 h _ d a (fun x => sext32 (x + immS i)) rfl rfl rfl
  · refine computes_alu1 h _ d a (fun x => ofBool (x.slt (immS i))) rfl rfl (ofBool_eq_truth_of_iff ?_)
    rw [slt_iff, toInt_immS i (by decide)]
  · exact computes_alu1 h _ d a (fun x => ofBool (x.ult (immS i))) rfl rfl (ofBool_eq_truth_of_iff (ult_iff _ _))

/-! ## Traps -/

/-- An instruction that ends by a trap at its own address, of a thread that has a handler. -/
theorem traps_of_onThread {s : State} {t : Nat} {th : Thread} {i : Instr} (h : Issuing s t th) (hh : HasHandler th) (regs : List Reg)
    (f : Nat → Thread → State) {cause detail : Nat} {addr : Option Word} (he : exec i s = onThread s 4 regs f)
    (hf : f t (th.noted 4 regs) = s.trapHere t (th.noted 4 regs) cause detail addr) (hc : cause < 256) (hd : detail < 65536) :
    Traps s t th i cause detail addr :=
  traps_here hh i 4 regs cause detail addr (by rw [he, onThread_issuing h, hf]) hc hd

/-! ## Comparison and selection (R65, R66) -/

/-- SEL on a guard that reads as c. -/
theorem computes_sel {s : State} {t : Nat} {th : Thread} (h : Issuing s t th) (d a b : Reg) (q : BitVec 3) {c : Bool}
    (hq : (th.q[q.toNat]).asData = some c) : Computes s t th (.sel d a b q) d (if c then s.readReg th a else s.readReg th b) := by
  refine computes_result h _ [d, a, b] d _ _ (show exec (.sel d a b q) s = execSel d a b q s from rfl) ?_
  rw [show (th.noted (Instr.sel d a b q).len [d, a, b]).q = th.q from rfl, hq]
  simp only [readReg_noted]

theorem compareSelectResults : CompareSelectResults := by
  intro s t th d a b q h
  refine ⟨?_, ?_, ?_, ?_, ?_, ?_, fun hq => ?_, fun hq => ?_⟩
  · exact computes_alu2 h _ d a b (fun x y => ofBool (x.slt y)) rfl rfl (ofBool_eq_truth_of_iff (slt_iff _ _))
  · exact computes_alu2 h _ d a b (fun x y => ofBool (x.ult y)) rfl rfl (ofBool_eq_truth_of_iff (ult_iff _ _))
  · exact computes_alu2 h _ d a b (fun x y => ofBool (x == y)) rfl rfl (ofBool_eq_truth_of_iff beq_iff_eq)
  · exact computes_alu2 h _ d a b (fun x y => ofBool (x != y)) rfl rfl (ofBool_eq_truth_of_iff bne_iff_ne)
  · exact computes_alu2 h _ d a b (fun x y => ofBool (x.sle y)) rfl rfl (ofBool_eq_truth_of_iff (sle_iff _ _))
  · exact computes_alu2 h _ d a b (fun x y => ofBool (x.ule y)) rfl rfl (ofBool_eq_truth_of_iff (ule_iff _ _))
  · exact computes_sel h d a b q (congrArg Guard.asData hq)
  · exact computes_sel h d a b q (congrArg Guard.asData hq)

/-! ## Sixteen-bit forms (R95) -/

/-- A write to x0 writes nothing. -/
theorem result_zero {s : State} {t : Nat} {th : Thread} (v : Word) : s.result t th (.x 0) v = s.retire t th := by
  have hw : s.writeReg th (.x 0) v = (s, th) := by
    unfold State.writeReg
    split <;> rfl
  rw [State.result_eq, hw]
  rfl

/-- An instruction that ends by completing, and does nothing else. -/
theorem computes_nothing {s : State} {t : Nat} {th : Thread} (h : Issuing s t th) (i : Instr) (regs : List Reg) (f : Nat → Thread → State)
    (he : exec i s = onThread s i.len regs f) (hf : f t (th.noted i.len regs) = s.retire t (th.noted i.len regs)) : Computes s t th i (.x 0) 0 :=
  computes_result h i regs (.x 0) 0 f he (hf.trans (result_zero 0).symm)

theorem cnt16_eq (n : BitVec 5) : cnt16 n = if n.toNat = 0 then 32 else n.toNat := by
  unfold cnt16
  by_cases h : n = 0
  · rw [if_pos h, h]; rfl
  · rw [if_neg h, if_neg (fun h0 : n.toNat = 0 => h (BitVec.eq_of_toNat_eq h0))]

theorem shortArithmetic : ShortArithmetic := by
  intro s t th d r i n h
  refine ⟨?_, ?_, ?_, ?_, ?_, ?_, ?_, ?_, ?_, ?_, ?_, ?_, ?_⟩
  · exact computes_alu2 h _ (x16 d) (x16 r) (.x 0) (fun x y => x + y) rfl rfl (BitVec.add_zero _)
  · exact computes_alu2 h _ (x16 d) (x16 d) (x16 r) (fun x y => x + y) rfl rfl rfl
  · exact computes_alu2 h _ (x16 d) (x16 d) (x16 r) (fun x y => x - y) rfl rfl rfl
  · exact computes_alu2 h _ (x16 d) (x16 d) (x16 r) (fun x y => x &&& y) rfl rfl rfl
  · exact computes_alu2 h _ (x16 d) (x16 d) (x16 r) (fun x y => x ||| y) rfl rfl rfl
  · exact computes_alu2 h _ (x16 d) (x16 d) (x16 r) (fun x y => x ^^^ y) rfl rfl rfl
  · exact computes_alu1 h _ (x16 d) (x16 d) (fun x => x + immS i) rfl rfl rfl
  · rw [← cnt16_eq]
    exact computes_alu1 h _ (x16 d) (x16 d) (fun x => sllV x (cnt16 n)) rfl rfl (shiftLeft_eq_ofNat_mul _ _)
  · rw [← cnt16_eq]
    exact computes_alu1 h _ (x16 d) (x16 d) (fun x => srlV x (cnt16 n)) rfl rfl (ushiftRight_eq_ofNat_div _ _)
  · rw [← cnt16_eq]
    exact computes_alu1 h _ (x16 d) (x16 d) (fun x => sraV x (cnt16 n)) rfl rfl (sshiftRight_eq_ofInt_div _ _)
  · exact computes_alu2 h _ (x16 d) (x16 d) (x16 r) (fun x y => ofBool (x.slt y)) rfl rfl (ofBool_eq_truth_of_iff (slt_iff _ _))
  · exact computes_alu2 h _ (x16 d) (x16 d) (x16 r) (fun x y => ofBool (x.ult y)) rfl rfl (ofBool_eq_truth_of_iff (ult_iff _ _))
  · exact computes_nothing h .nop16 [] (fun t th => s.retire t th) rfl rfl

/-- Settles O3: each form writes one value to d, which is the statement's; SEL reads a resolved guard as that value. -/
theorem arithmeticResults : Obligations.ArithmeticResults := ⟨addSubLogicResults, immediateResults, compareSelectResults, shortArithmetic⟩

/-! ## Products (R67) -/

/-- Sign-extended low halves are the low halves as integers. -/
theorem toInt_signed32 (x : Word) : (signed32 x).toInt = (low32 x).toInt := BitVec.toInt_signExtend_of_le (by decide)

theorem setWidth_ofInt (i : Int) : (BitVec.ofInt 64 i).setWidth 32 = BitVec.ofInt 32 i := by
  apply BitVec.eq_of_toNat_eq
  rw [BitVec.toNat_setWidth, BitVec.toNat_ofInt, BitVec.toNat_ofInt]
  omega

/-- The low half of an integer, sign-extended. -/
theorem signed32_ofInt (i : Int) : signed32 (BitVec.ofInt 64 i) = (BitVec.ofInt 32 i).signExtend 64 := congrArg (·.signExtend 64) (setWidth_ofInt i)

theorem mulW_eq (x y : Word) : sext32 (x * y) = signed32 (BitVec.ofInt 64 ((signed32 x).toInt * (signed32 y).toInt)) := by
  rw [toInt_signed32, toInt_signed32, signed32_ofInt, BitVec.ofInt_mul, BitVec.ofInt_toInt, BitVec.ofInt_toInt, sext32,
    BitVec.setWidth_mul x y (by decide)]
  rfl

theorem mul_eq_ofNat (x y : Word) : x * y = BitVec.ofNat 64 (x.toNat * y.toNat) := BitVec.eq_of_toNat_eq (BitVec.toNat_mul x y)

theorem mulhu_eq (x y : Word) : mulhuV x y = BitVec.ofNat 64 (x.toNat * y.toNat / 2 ^ 64) := by
  rw [mulhuV, highV, ← BitVec.ofInt_natCast]
  norm_cast

/-! ## Quotients and remainders (R68, R69) -/

section
variable {s : State} {t : Nat} {th : Thread} {i : Instr} (d a b : Reg) (zero : Word → Bool) (f : Word → Word → Word)

theorem computes_divide (h : Issuing s t th) (he : exec i s = divide d a b zero f s) (hlen : i.len = 4)
    (hzero : (th.trapz && zero (s.readReg th b)) = false) {v : Word} (hv : f (s.readReg th a) (s.readReg th b) = v) : Computes s t th i d v := by
  refine computes_result h i [d, a, b] d v _ (by rw [he, divide, hlen]) ?_
  simp only [readReg_noted, hv]
  exact if_neg (by rw [show (th.noted i.len [d, a, b]).trapz = th.trapz from rfl, hzero]; exact Bool.false_ne_true)

/-- Where TRAPZ is clear, or the divisor is not zero, nothing traps. -/
theorem untrapped {z : Bool} (h : th.trapz = false) : (th.trapz && z) = false := by rw [h, Bool.false_and]

theorem nonzero_untrapped {n : Nat} {y : BitVec n} (h : y ≠ 0) : (th.trapz && y == 0) = false := by rw [beq_false_of_ne h, Bool.and_false]

theorem divide_traps (h : Issuing s t th) (hh : HasHandler th) (he : exec i s = divide d a b zero f s) (htrapz : th.trapz = true)
    (hzero : zero (s.readReg th b) = true) : Traps s t th i 8 0 none := by
  refine traps_of_onThread h hh [d, a, b] _ he ?_ (by decide) (by decide)
  simp only [readReg_noted]
  exact if_pos (by rw [show (th.noted 4 [d, a, b]).trapz = th.trapz from rfl, htrapz, hzero]; rfl)

end

theorem low32_eq_zero_iff (y : Word) : low32 y = 0 ↔ y.toNat % 2 ^ 32 = 0 := by
  rw [← BitVec.toNat_inj, low32, BitVec.toNat_setWidth]
  rfl

/-- The low half of a sign-extended low half is 0 just where it is. -/
theorem toInt_signed32_ne_zero_iff (y : Word) : (signed32 y).toInt ≠ 0 ↔ low32 y ≠ 0 := by
  rw [toInt_signed32, ne_eq, ne_eq, ← BitVec.toInt_zero (w := 32), BitVec.toInt_inj]
  rfl

theorem products : Products := by
  intro s t th d a b h
  refine ⟨?_, ?_, ?_, ?_, ?_, fun hy => ⟨?_, ?_, ?_, ?_⟩, fun hy => ?_⟩
  · exact computes_alu2 h _ d a b (fun x y => x * y) rfl rfl (mul_eq_ofNat _ _)
  · exact computes_alu2 h _ d a b mulhV rfl rfl rfl
  · exact computes_alu2 h _ d a b mulhuV rfl rfl (mulhu_eq _ _)
  · exact computes_alu2 h _ d a b mulhsuV rfl rfl rfl
  · exact computes_alu2 h _ d a b (fun x y => sext32 (x * y)) rfl rfl (mulW_eq _ _)
  · exact computes_divide d a b (· == 0) divV h rfl rfl (nonzero_untrapped hy) (if_neg hy)
  · exact computes_divide d a b (· == 0) divuV h rfl rfl (nonzero_untrapped hy) (if_neg hy)
  · exact computes_divide d a b (· == 0) remV h rfl rfl (nonzero_untrapped hy) (if_neg hy)
  · exact computes_divide d a b (· == 0) remuV h rfl rfl (nonzero_untrapped hy) (if_neg hy)
  · rw [toInt_signed32_ne_zero_iff] at hy
    simp only [toInt_signed32, signed32_ofInt]
    exact ⟨computes_divide d a b (low32 · == 0) divWV h rfl rfl (nonzero_untrapped hy) (if_neg hy),
      computes_divide d a b (low32 · == 0) remWV h rfl rfl (nonzero_untrapped hy) (if_neg hy)⟩

theorem zeroDivisor : ZeroDivisor := by
  intro s t th d a b h
  refine ⟨fun htrapz => ⟨fun hy => ⟨?_, ?_, ?_, ?_⟩, fun hy => ?_⟩, fun htrapz hh => ⟨fun hy => ⟨?_, ?_, ?_, ?_⟩, fun hy => ?_⟩⟩
  · exact computes_divide d a b (· == 0) divV h rfl rfl (untrapped htrapz) (if_pos hy)
  · exact computes_divide d a b (· == 0) divuV h rfl rfl (untrapped htrapz) (if_pos hy)
  · exact computes_divide d a b (· == 0) remV h rfl rfl (untrapped htrapz) (if_pos hy)
  · exact computes_divide d a b (· == 0) remuV h rfl rfl (untrapped htrapz) (if_pos hy)
  · rw [← low32_eq_zero_iff] at hy
    exact ⟨computes_divide d a b (low32 · == 0) divWV h rfl rfl (untrapped htrapz) (if_pos hy),
      computes_divide d a b (low32 · == 0) remWV h rfl rfl (untrapped htrapz) (if_pos hy)⟩
  · exact divide_traps d a b (· == 0) divV h hh rfl htrapz (beq_iff_eq.mpr hy)
  · exact divide_traps d a b (· == 0) divuV h hh rfl htrapz (beq_iff_eq.mpr hy)
  · exact divide_traps d a b (· == 0) remV h hh rfl htrapz (beq_iff_eq.mpr hy)
  · exact divide_traps d a b (· == 0) remuV h hh rfl htrapz (beq_iff_eq.mpr hy)
  · rw [← low32_eq_zero_iff] at hy
    exact ⟨divide_traps d a b (low32 · == 0) divWV h hh rfl htrapz (beq_iff_eq.mpr hy),
      divide_traps d a b (low32 · == 0) remWV h hh rfl htrapz (beq_iff_eq.mpr hy)⟩

/-- Settles O2: the divide instructions share one operation, which traps on a zero divisor while TRAPZ is set and writes a value
otherwise. -/
theorem multiplyDivideResults : Obligations.MultiplyDivideResults := ⟨products, zeroDivisor⟩

end Sys2Proof.Proofs
end

