-- ==== Sys2Proof/Proofs/Branches.lean ====
section
/-!
PROOFS. Branches and the levels that they disarm (R66, R71, R75, R76, R95).
-/

namespace Sys2Proof.Proofs

open Sys2Proof Sys2Proof.Machine Sys2Proof.Claims

/-- The levels that a taken branch leaves armed are those from the first on whose range holds the target (R75). -/
theorem loopsAfterBranch_eq_levelsAround (target : Word) (ls : List LoopLevel) : loopsAfterBranch target ls = levelsAround target ls := by
  induction ls with
  | nil => rfl
  | cons l ls ih =>
    rw [loopsAfterBranch, List.dropWhile_cons, ← Bool.decide_and, levelsAround]
    by_cases hin : l.start ≤ target ∧ target ≤ l.stop
    · rw [decide_eq_true hin, if_pos hin]
      rfl
    · rw [decide_eq_false hin, if_neg hin, ← ih]
      rfl

/-- A jump changes of the thread only what `SameRest` leaves out. -/
theorem sameRest_jumpTo {th x : Thread} (h : SameRest th x) (target : Word) (disarms : Bool) : SameRest th (x.jumpTo target disarms) := h

section
variable {s : State} {t : Nat} {th : Thread} {i : Instr} {n : Nat} {o : BitVec n}

/-- A branch that is taken, by a thread that has noted the word. -/
theorem jumps_of_branch (len : Nat) (regs : List Reg)
    (he : exec i s = .next (s.setThread t ((th.noted len regs).jumpTo (branchTarget th.pc o) true))) :
    Jumps s t th i (reach th o) th.x (if th.active then th.loops else levelsAround (reach th o) th.loops) := by
  rw [branchTarget_eq_reach] at he
  refine ⟨_, _, he, State.thread?_setThread_self _ _ _, ⟨rfl, rfl, rfl⟩, rfl, ?_,
    sameRest_jumpTo (sameRest_noted th len regs) _ _, sameShared_setThread _ _ _, sameOthers_setThread _ _ _, sameDevice_setThread _ _ _⟩
  show (if true && !th.active then loopsAfterBranch (reach th o) th.loops else th.loops) = _
  rw [loopsAfterBranch_eq_levelsAround]
  cases th.active <;> rfl

/-- A branch on a condition. -/
theorem branches_of_branch (h : Issuing s t th) (regs : List Reg) (cond : State → Thread → Bool) {p : Prop} (he : exec i s = branch i.len regs o cond s)
    (hp : cond s (th.noted i.len regs) = true ↔ p) : Branches s t th i p o := by
  have hexec := (he.trans (onThread_issuing h i.len regs _) :)
  refine ⟨fun htaken => jumps_of_branch i.len regs ?_, fun hnot => computes_nothing h i regs _ he (if_neg (mt hp.mp hnot))⟩
  rw [hexec, if_pos (hp.mpr htaken)]
  rfl

/-- A comparison of two registers. -/
theorem branches_of_cmpBranch (h : Issuing s t th) (a b : Reg) {o : BitVec 10} (rel : Word → Word → Bool) {p : Prop}
    (he : exec i s = cmpBranch a b o rel s) (hlen : i.len = 4) (hp : rel (s.readReg th a) (s.readReg th b) = true ↔ p) : Branches s t th i p o := by
  refine branches_of_branch h [a, b] (fun s th => rel (s.readReg th a) (s.readReg th b)) (hlen ▸ he) ?_
  simpa only [readReg_noted] using hp

/-- A guard that reads as c. -/
theorem branches_of_guardBranch (h : Issuing s t th) (q : BitVec 3) {o : BitVec 10} (want : Bool) (he : exec i s = guardBranch q o want s)
    (hlen : i.len = 4) {c : Bool} (hc : (th.q[q.toNat]).asData = some c) {p : Prop} (hp : c = want ↔ p) : Branches s t th i p o := by
  have hguard : ((th.noted 4 []).q[q.toNat]).asData = some c := hc
  refine branches_of_branch h [] (fun _ _ => c == want) ?_ (beq_iff_eq.trans hp)
  rw [he, guardBranch, branch, hlen, onThread_issuing h, onThread_issuing h, hguard]

end

theorem slt_not_iff (x y : Word) : (!x.slt y) = true ↔ y.toInt ≤ x.toInt := by
  rw [Bool.not_eq_true', ← Bool.not_eq_true, slt_iff, not_lt]

theorem ult_not_iff (x y : Word) : (!x.ult y) = true ↔ y.toNat ≤ x.toNat := by
  rw [Bool.not_eq_true', ← Bool.not_eq_true, ult_iff, not_lt]

theorem compareBranches : CompareBranches := by
  intro s t th a b d o o7 o24 o11 h
  refine ⟨?_, ?_, ?_, ?_, ?_, ?_, ?_, ?_, ?_, ?_⟩
  · exact branches_of_cmpBranch h a b (fun x y => x == y) rfl rfl beq_iff_eq
  · exact branches_of_cmpBranch h a b (fun x y => x != y) rfl rfl bne_iff_ne
  · exact branches_of_cmpBranch h a b (fun x y => x.slt y) rfl rfl (slt_iff _ _)
  · exact branches_of_cmpBranch h a b (fun x y => !x.slt y) rfl rfl (slt_not_iff _ _)
  · exact branches_of_cmpBranch h a b (fun x y => x.ult y) rfl rfl (ult_iff _ _)
  · exact branches_of_cmpBranch h a b (fun x y => !x.ult y) rfl rfl (ult_not_iff _ _)
  · exact branches_of_branch h [] (fun s th => s.readReg th (x16 d) == 0) rfl (by rw [readReg_noted]; exact beq_iff_eq)
  · exact branches_of_branch h [] (fun s th => s.readReg th (x16 d) != 0) rfl (by rw [readReg_noted]; exact bne_iff_ne)
  · exact branches_of_branch h [] (fun _ _ => true) rfl (iff_of_true rfl trivial)
  · exact branches_of_branch h [] (fun _ _ => true) rfl (iff_of_true rfl trivial)

theorem guardBranches : GuardBranches := by
  intro s t th q o h hres
  cases hq : th.q[q.toNat] with
  | tt =>
    have hc := congrArg Guard.asData hq
    exact ⟨branches_of_guardBranch h q true rfl rfl hc (by decide), branches_of_guardBranch h q false rfl rfl hc (by decide)⟩
  | ff =>
    have hc := congrArg Guard.asData hq
    exact ⟨branches_of_guardBranch h q true rfl rfl hc (by decide), branches_of_guardBranch h q false rfl rfl hc (by decide)⟩
  | unresolved => exact absurd hq hres

/-- An unresolved guard reads as nothing (R66). -/
theorem asData_unresolved {th : Thread} {q : BitVec 3} (hq : th.q[q.toNat] = .unresolved) (len : Nat) (regs : List Reg) :
    ((th.noted len regs).q[q.toNat]).asData = none := congrArg Guard.asData hq

theorem guardBranch_traps {s : State} {t : Nat} {th : Thread} {i : Instr} {q : BitVec 3} {o : BitVec 10} {want : Bool} (h : Issuing s t th)
    (hh : HasHandler th) (hq : th.q[q.toNat] = .unresolved) (he : exec i s = guardBranch q o want s) : Traps s t th i 2 0 none := by
  unfold guardBranch at he
  refine traps_of_onThread h hh [] _ he ?_ (by decide) (by decide)
  rw [asData_unresolved hq]
  rfl

theorem unresolvedGuards : UnresolvedGuards := by
  intro s t th d a b q o h hh hq
  have hsel : exec (.sel d a b q) s = execSel d a b q s := rfl
  unfold execSel at hsel
  refine ⟨traps_of_onThread h hh [d, a, b] _ hsel ?_ (by decide) (by decide), guardBranch_traps h hh hq rfl, guardBranch_traps h hh hq rfl⟩
  rw [asData_unresolved hq]
  rfl

/-- Settles O4: every branch sets `jumpTo` of its target or completes, by its condition; a guard's condition is its value, or it traps. -/
theorem branchOutcomes : Obligations.BranchOutcomes := ⟨compareBranches, guardBranches, unresolvedGuards⟩

end Sys2Proof.Proofs
end

