-- ==== Sys2Proof/Proofs/ThreadEnds.lean ====
section
/-!
PROOFS. The end of a thread, by a trap without a handler or in one, by ERET or by HALT (R83, R291, R292, R316, R317).
-/

namespace Sys2Proof.Proofs

open Sys2Proof Sys2Proof.Machine Sys2Proof.Claims

/-! ## What slots that free leave alone -/

/-- Nothing has changed but the threads, what the tiles queue, what is due, and the late writes of registers. -/
def SlotsOnly (s u : State) : Prop :=
  { u with threads := s.threads, tiles := s.tiles, agenda := s.agenda, seq := s.seq, lateWrites := s.lateWrites } = s

theorem SlotsOnly.trans {s u v : State} (h : SlotsOnly s u) (k : SlotsOnly u v) : SlotsOnly s v := by
  unfold SlotsOnly at *
  rw [← k] at h
  exact h

section
variable {s u : State}

theorem SlotsOnly.mem (h : SlotsOnly s u) : u.mem = s.mem := by
  have k := congrArg State.mem h
  exact k
theorem SlotsOnly.arms (h : SlotsOnly s u) : u.arms = s.arms := by
  have k := congrArg State.arms h
  exact k
theorem SlotsOnly.guests (h : SlotsOnly s u) : u.guests = s.guests := by
  have k := congrArg State.guests h
  exact k
theorem SlotsOnly.launches (h : SlotsOnly s u) : u.launches = s.launches := by
  have k := congrArg State.launches h
  exact k
theorem SlotsOnly.tagged (h : SlotsOnly s u) : u.tagged = s.tagged := by
  have k := congrArg State.tagged h
  exact k
theorem SlotsOnly.errlog (h : SlotsOnly s u) : u.errlog = s.errlog := by
  have k := congrArg State.errlog h
  exact k

end

/-- A state that the end of thread t leads to from s: t has left its slot, or stands there as x. -/
structure AfterEnd (s : State) (t : Nat) (x : Thread) (u : State) : Prop where
  frame  : SlotsOnly s u
  sorted : KMap.sorted u.threads = true
  rests  : u.thread? t = none ∨ u.thread? t = some x

section
variable {s u : State} {t : Nat} {x : Thread}

theorem AfterEnd.foldl_mem {α : Type} {l : List α} {f : State → α → State} (h : AfterEnd s t x u)
    (hf : ∀ v a, a ∈ l → AfterEnd s t x v → AfterEnd s t x (f v a)) : AfterEnd s t x (l.foldl f u) := by
  induction l generalizing u with
  | nil => exact h
  | cons a l ih =>
    exact ih (hf u a (List.mem_cons_self ..) h) (fun v b hb => hf v b (List.mem_cons_of_mem _ hb))

theorem AfterEnd.foldl {α : Type} {l : List α} {f : State → α → State} (h : AfterEnd s t x u)
    (hf : ∀ v a, AfterEnd s t x v → AfterEnd s t x (f v a)) : AfterEnd s t x (l.foldl f u) := h.foldl_mem (fun v a _ => hf v a)

/-- A step that leaves the threads alone. -/
theorem AfterEnd.step {v : State} (h : AfterEnd s t x u) (hframe : SlotsOnly u v) (hthreads : v.threads = u.threads) : AfterEnd s t x v := by
  refine ⟨h.frame.trans hframe, hthreads ▸ h.sorted, ?_⟩
  unfold State.thread?
  rw [hthreads]
  exact h.rests

theorem AfterEnd.setThread (h : AfterEnd s t x u) {c : Nat} (hc : c ≠ t) (y : Thread) : AfterEnd s t x (u.setThread c y) := by
  refine ⟨h.frame.trans rfl, KMap.sorted_set c y h.sorted, ?_⟩
  rw [State.thread?_setThread, if_neg (Ne.symm hc)]
  exact h.rests

theorem AfterEnd.eraseThread (h : AfterEnd s t x u) (c : Nat) : AfterEnd s t x { u with threads := KMap.erase u.threads c } := by
  refine ⟨h.frame.trans rfl, KMap.sorted_erase c h.sorted, ?_⟩
  unfold State.thread?
  rw [KMap.get?_erase]
  split
  · exact .inl rfl
  · exact h.rests

theorem AfterEnd.now (h : AfterEnd s t x u) (e : Event) : AfterEnd s t x (u.now e) := h.step rfl rfl

theorem AfterEnd.letIn (h : AfterEnd s t x u) (tile : Nat) (copy : Bool) (entries : Nat) : AfterEnd s t x (u.letIn tile copy entries) :=
  h.foldl (fun _ _ h => h.step rfl rfl)

theorem AfterEnd.dropQueued (h : AfterEnd s t x u) (tile : Nat) (copy : Bool) (keep : Cmd → Bool) : AfterEnd s t x (u.dropQueued tile copy keep) := by
  unfold State.dropQueued
  dsimp only
  split
  · exact h
  · refine AfterEnd.letIn ?_ _ _ _
    exact h.step rfl rfl

theorem AfterEnd.checkLaunch (h : AfterEnd s t x u) (l : Nat) : AfterEnd s t x (u.checkLaunch l) := by
  unfold State.checkLaunch
  split
  · exact h.now _
  · exact h

/-- Saved threads enter slots; a halted one is none of them. -/
theorem AfterEnd.enterSlots (h : AfterEnd s t x u) (hx : x.halted = true) (tile : Nat) : AfterEnd s t x (u.enterSlots tile) := by
  refine h.foldl_mem (fun v p hp hv => ?_)
  obtain ⟨hmem, hready⟩ := List.mem_filter.mp hp
  have hother : p.1 ≠ t := by
    rintro rfl
    have hp := KMap.get?_of_mem h.sorted hmem
    obtain hnone | hsome := h.rests
    · cases hnone.symm.trans hp
    · obtain rfl := Option.some.inj (hsome.symm.trans hp)
      simp [Thread.ready, hx] at hready
  split
  · exact hv.setThread hother _
  · exact hv

theorem AfterEnd.slotsFreed (h : AfterEnd s t x u) (hx : x.halted = true) (tile : Nat) : AfterEnd s t x (u.slotsFreed tile) := by
  unfold State.slotsFreed State.offerUnits
  split
  · exact h.enterSlots hx tile
  · exact (h.enterSlots hx tile).now _

theorem AfterEnd.freeSlot (h : AfterEnd s t x u) (hx : x.halted = true) (c : Nat) (y : Thread) : AfterEnd s t x (u.freeSlot c y) :=
  ((((h.eraseThread c).dropQueued _ _ _).dropQueued _ _ _).checkLaunch _).slotsFreed hx _

theorem AfterEnd.endUnit (h : AfterEnd s t x u) (hx : x.halted = true) (c : Nat) : AfterEnd s t x (u.endUnit c) := by
  unfold State.endUnit
  split
  · dsimp only
    split
    · exact h.foldl (fun _ p h => h.freeSlot hx p.1 p.2)
    · exact h
  · exact h

/-- A waiting REAP takes the ended thread, whose slot frees with it. -/
theorem AfterEnd.reaped (h : AfterEnd s t x u) (hx : x.halted = true) {c : Nat} (hc : c ≠ t) (y : Thread) (r : Reg) (d : Nat) (dead : Thread) :
    AfterEnd s t x (u.reaped c y r d dead true) := by
  refine AfterEnd.freeSlot (AfterEnd.setThread ?_ hc _) hx d dead
  cases r <;> exact h.step rfl rfl

/-- The end of a thread that waits for nothing. -/
theorem AfterEnd.settle (h : AfterEnd s t x u) (hx : x.halted = true) (hwait : x.wait = .none) : AfterEnd s t x (u.settle t) := by
  unfold State.settle
  split
  · exact h
  next th hth =>
    split
    · exact h
    split
    next c hparent =>
      split
      next p hp =>
        split
        next r k hreap =>
          split
          · have hc : c ≠ t := by
              rintro rfl
              obtain hnone | hsome := h.rests
              · cases hnone.symm.trans hp
              · obtain rfl := Option.some.inj (hsome.symm.trans hp)
                cases hwait.symm.trans hreap
            exact h.reaped hx hc p r t th
          · exact h.endUnit hx c
        · exact h.endUnit hx c
      · exact h
    · split
      · exact h.endUnit hx t
      split
      · exact h.freeSlot hx t th
      · exact h

end

/-! ## A thread ends (R317) -/

/-- The thread as it ends: halted, its loops, monitors, bindings and barrier records gone. -/
def ended (th : Thread) : Thread :=
  { th.rejoin with
    halted := true, loops := [], bindings := [], brecs := [], cancel := none
    mons := Vector.replicate 4 { arm := 0, signal := none } }

/-- The device as its thread t ends: its arms gone, and FLOOR risen to its clock (R154). -/
def ending (s : State) (t : Nat) (th : Thread) : State :=
  { (s.setThread t (ended th)).raiseFloor th.guest th.lts with arms := s.arms.filter (fun a => a.tid != t) }

theorem floor_ending (s : State) (t : Nat) (th : Thread) : ((ending s t th).guest th.guest).floor = maxW (s.guest th.guest).floor th.lts :=
  congrArg Guest.floor (State.guest_setGuest_self (s.setThread t (ended th)) th.guest { s.guest th.guest with floor := maxW (s.guest th.guest).floor th.lts })

theorem le_maxW_right (a b : Word) : b ≤ maxW a b := by
  unfold maxW
  split
  · exact BitVec.le_refl b
  next h => exact BitVec.le_of_lt (BitVec.not_le.mp h)

section
variable {s : State} {t : Nat} {th : Thread}

theorem afterEnd_haltThread (hsorted : KMap.sorted s.threads = true) : AfterEnd (ending s t th) t (ended th) (s.haltThread t th) := by
  have hstart : AfterEnd (ending s t th) t (ended th) (ending s t th) :=
    ⟨rfl, KMap.sorted_set t _ hsorted, .inr (State.thread?_setThread_self s t _)⟩
  exact (hstart.settle rfl rfl).checkLaunch _

theorem ended_of_haltThread (hsorted : KMap.sorted s.threads = true) : Ended s (s.haltThread t th) t th := by
  have h := afterEnd_haltThread (t := t) (th := th) hsorted
  refine ⟨h.rests.imp_right (fun hth => ⟨ended th, hth, rfl, rfl, rfl, rfl, fun j hj => ?_⟩), fun a ha => ?_, h.frame.mem, ?_⟩
  · simp [ended]
  · rw [h.frame.arms] at ha
    simpa using (List.mem_filter.mp ha).2
  · rw [State.guest, h.frame.guests]
    exact (le_maxW_right (s.guest th.guest).floor th.lts).trans_eq (floor_ending s t th).symm

theorem launches_haltThread (hsorted : KMap.sorted s.threads = true) : (s.haltThread t th).launches = s.launches :=
  (afterEnd_haltThread hsorted).frame.launches
theorem tagged_haltThread (hsorted : KMap.sorted s.threads = true) : (s.haltThread t th).tagged = s.tagged :=
  (afterEnd_haltThread hsorted).frame.tagged
theorem errlog_haltThread (hsorted : KMap.sorted s.threads = true) : (s.haltThread t th).errlog = s.errlog :=
  (afterEnd_haltThread hsorted).frame.errlog

/-! ## A thread ends, and its launch is told (R291) -/

/-- The accounts of launches are no part of what the end of a thread looks at. -/
theorem ended_of_accounted {v : State} (h : Accounted s v) {u : State} (hend : Ended v u t th) : Ended s u t th := by
  obtain ⟨hrests, harms, hmem, hfloor⟩ := hend
  exact ⟨hrests, harms, hmem.trans h.mem, hfloor⟩

theorem ended_of_endThread (hsorted : KMap.sorted s.threads = true) (e : EndStatus) (cause detail : Nat) :
    Ended s (s.endThread t th e cause detail) t th := by
  have hacc := accounted_modLaunch s th.launch (fun l => l.blame e cause detail)
  exact ended_of_accounted hacc (ended_of_haltThread (by rw [hacc.threads, hsorted]))

theorem launch?_endThread (hsorted : KMap.sorted s.threads = true) (e : EndStatus) (cause detail : Nat) {x : Launch}
    (hx : s.launch? th.launch = some x) :
    (s.endThread t th e cause detail).launch? th.launch = some (x.blame e cause detail) := by
  have hacc := accounted_modLaunch s th.launch (fun l => l.blame e cause detail)
  rw [State.endThread, State.launch?, launches_haltThread (by rw [hacc.threads, hsorted])]
  exact launch?_modLaunch_self hx _

theorem errlog_endThread (hsorted : KMap.sorted s.threads = true) (e : EndStatus) (cause detail : Nat) :
    (s.endThread t th e cause detail).errlog = s.errlog := by
  have hacc := accounted_modLaunch s th.launch (fun l => l.blame e cause detail)
  rw [State.endThread, errlog_haltThread (by rw [hacc.threads, hsorted])]
  unfold State.modLaunch
  split <;> rfl

end

/-! ## A trap without a handler, or in one (R291, R292) -/

section
variable {s : State} {t : Nat} {th : Thread}

/-- Nothing has changed but the firmware log and the cycle of a snapshot (R372). -/
def Recorded (s v : State) : Prop := { v with snapDue := s.snapDue, errlog := s.errlog } = s

theorem recorded_snapTrap (s : State) (cause : Nat) : Recorded s (s.snapTrap cause) ∧ (s.snapTrap cause).errlog = s.errlog := by
  unfold State.snapTrap
  split <;> exact ⟨rfl, rfl⟩

/-- The thread ends, where a handler would have been entered. -/
theorem takeTrap_ends {cause detail : Nat} {addr : Option Word} {epc : Word} (hno : th.tvec = 0 ∨ th.active = true) (hcause : cause ≠ causeCancel) :
    ∃ v, Recorded s v ∧ (th.active = true → v.errlog.length = s.errlog.length + 1) ∧
      s.takeTrap t th cause detail addr epc = v.endThread t { th with lastIssue := some s.clk } .faulted cause detail := by
  obtain ⟨hrec, hlog⟩ := recorded_snapTrap s cause
  by_cases hact : th.active = true
  · refine ⟨(s.snapTrap cause).log 0x30 th.launch epc (BitVec.ofNat 64 cause), hrec, fun _ => ?_, if_pos hact⟩
    rw [State.log, List.length_append, hlog]
    rfl
  · refine ⟨s.snapTrap cause, hrec, fun h => absurd h hact, (if_neg hact).trans ?_⟩
    refine (if_pos (hno.resolve_right hact)).trans ?_
    rw [if_neg hcause]

/-- An instruction that would trap, and ends its thread (R291, R292). -/
theorem endsFaulted_of_trapHere {i : Instr} {len : Nat} {regs : List Reg} {cause detail : Nat} {addr : Option Word}
    (hsorted : KMap.sorted s.threads = true) (hno : th.tvec = 0 ∨ th.active = true) (hcause : cause ≠ causeCancel)
    (he : exec i s = .next (s.trapHere t (th.noted len regs) cause detail addr)) : EndsFaulted s t th i := by
  obtain ⟨v, hrec, hlog, hends⟩ := takeTrap_ends (s := s) (t := t) (th := th.noted len regs) (detail := detail) (addr := addr) (epc := th.pc)
    hno hcause
  have hthreads : v.threads = s.threads := by
    have k := congrArg State.threads hrec
    exact k
  have hmem : v.mem = s.mem := by
    have k := congrArg State.mem hrec
    exact k
  have hlaunches : v.launches = s.launches := by
    have k := congrArg State.launches hrec
    exact k
  rw [← hthreads] at hsorted
  obtain ⟨hrests, harms, hkept, hfloor⟩ := ended_of_endThread (t := t) (th := { th.noted len regs with lastIssue := some s.clk }) hsorted .faulted cause detail
  refine ⟨_, he.trans (congrArg _ hends), ⟨hrests, harms, hkept.trans hmem, hfloor⟩, fun x hx => ⟨x.blame .faulted cause detail, ?_, rfl⟩, fun hact => ?_⟩
  · exact launch?_endThread hsorted .faulted cause detail (by rw [State.launch?, hlaunches]; exact hx)
  · rw [errlog_endThread hsorted, hlog hact]

end

/-! ## ERET and HALT (R83, R316, R317) -/

section
variable {s : State} {t : Nat} {th : Thread}

theorem exec_eret (h : Issuing s t th) : exec .eret s = .next (
    if !th.active then s.illegalState t (th.noted 4 [])
    else if th.cancel.isSome then s.endThread t (th.noted 4 []) .cancelled causeCancel (th.cancel.getD 0)
    else s.setThread t (th.noted 4 []).leaveHandler) :=
  (show exec .eret s = execEret s from rfl).trans (onThread_issuing h 4 [] _)

end

/-- A return from a handler changes of the thread TRAPC, and what `SameRest` leaves out. -/
theorem sameRest_leaveHandler {th x : Thread} (h : SameRest th x) (htrapc : x.trapc = th.trapc) :
    SameRest th { x.leaveHandler with trapc := th.trapc } := by
  rw [← htrapc]
  exact h

/-- A word without its top bit, which is set. -/
theorem and_low63_eq_sub {v : Word} (h : v.getLsbD 63 = true) : v &&& BitVec.ofNat 64 (2 ^ 63 - 1) = v - BitVec.ofNat 64 (2 ^ 63) := by
  have htop : 2 ^ 63 ≤ v.toNat := Nat.ge_two_pow_of_testBit h
  apply BitVec.eq_of_toNat_eq
  rw [BitVec.toNat_and, BitVec.toNat_ofNat, Nat.mod_eq_of_lt (by decide), Nat.and_two_pow_sub_one_eq_mod]
  have hlt := v.isLt
  rw [BitVec.toNat_sub, BitVec.toNat_ofNat]
  omega

theorem returnFromTrap : ReturnFromTrap := by
  intro s t th h
  have hexec := exec_eret h
  refine ⟨fun hact hcancel => ?_, fun hh => ?_, fun c hact hcancel hsorted => ?_⟩
  · have hclear : ¬ (!th.active) = true := by simp [hact]
    have hnone : ¬ th.cancel.isSome = true := by simp [hcancel]
    refine becomes_set _ _ (hexec.trans (congrArg _ ((if_neg hclear).trans (if_neg hnone)))) _ ⟨rfl, ?_, and_low63_eq_sub hact, rfl, rfl, rfl, rfl, rfl,
      sameRest_leaveHandler (sameRest_noted th 4 []) rfl⟩
    show (th.trapc &&& BitVec.ofNat 64 (2 ^ 63 - 1)).getLsbD 63 = false
    rw [BitVec.getLsbD_and, show (BitVec.ofNat 64 (2 ^ 63 - 1)).getLsbD 63 = false by decide, Bool.and_false]
  · refine traps_here hh _ 4 [] 2 0 none (hexec.trans (congrArg _ (if_pos ?_))) (by decide) (by decide)
    rw [hh.2]
    rfl
  · have hclear : ¬ (!th.active) = true := by simp [hact]
    have hsome : th.cancel.isSome = true := by simp [hcancel]
    refine ⟨_, hexec.trans (congrArg _ ((if_neg hclear).trans (if_pos hsome))), ?_, fun x hx => ⟨x.blame .cancelled causeCancel (th.cancel.getD 0), ?_, rfl⟩⟩
    · exact ended_of_endThread (th := th.noted 4 []) hsorted _ _ _
    · exact launch?_endThread (th := th.noted 4 []) hsorted _ _ _ hx

theorem haltEnds : HaltEnds := by
  intro s t th h hsorted
  have hexec := (show exec .halt s = execHalt s from rfl).trans (onThread_issuing h 4 [] _)
  refine ⟨_, hexec, ended_of_haltThread (th := { th.noted 4 [] with issued := th.issued + 1 }) hsorted, tagged_haltThread hsorted, fun l x hx => ?_⟩
  rw [State.launch?, launches_haltThread hsorted]
  exact hx

/-- Settles O42: ERET's three outcomes are its two checks; a thread that ends, by HALT or by a cancel, ends as `haltThread` says. -/
theorem returnAndHalt : Obligations.ReturnAndHalt := ⟨returnFromTrap, haltEnds⟩

end Sys2Proof.Proofs
end

