-- ==== Sys2Proof/Proofs/Loops.lean ====
section
/-!
PROOFS. LOOP and the loop end check (R73, R74, R76).
-/

namespace Sys2Proof.Proofs

open Sys2Proof Sys2Proof.Machine Sys2Proof.Claims

/-! ## LOOP (R73, R76) -/

/-- A micro-TLB that serves an access notes its use there, and nothing else changes (R118). -/
theorem translate_hit {s : State} {k : Nat} {g : BitVec 8} {va : Nat} {e : TlbEntry} (h : (s.translate k g va false).1 = .hit e) :
    ∃ utlb, (s.translate k g va false).2 = { s with utlb := utlb } := by
  unfold State.translate at h ⊢
  dsimp only at h ⊢
  split at h
  · exact ⟨_, rfl⟩
  · split at h <;> cases h

theorem fetchHalf_hit {s : State} {k : Nat} {g : BitVec 8} {va : Word} {h : Nat} (hf : s.fetchHalf k g va false = .half h) :
    ∃ e, (s.translate k g (low56 va) false).1 = .hit e := by
  unfold State.fetchHalf at hf
  split at hf
  · cases hf
  · split at hf
    · cases hf
    · exact ⟨_, ‹_›⟩

/-- A fetch of one halfword that the micro-TLB serves goes on with it. -/
theorem withHalf_hit {s : State} {t : Nat} {x : Thread} {i : Instr} {va : Word} {h : Nat} (hreplay : x.replay = false)
    (hfetch : s.fetchHalf x.home x.guest va false = .half h) (f : State → Nat → State) :
    ∃ utlb, s.withHalf t x i va f = f { s with utlb := utlb } h := by
  obtain ⟨e, he⟩ := fetchHalf_hit hfetch
  obtain ⟨utlb, hutlb⟩ := translate_hit he
  exact ⟨utlb, by rw [State.withHalf, hreplay, hfetch, hutlb]⟩

section
variable {s : State} {t : Nat} {th : Thread} {a : Reg} {i : BitVec 10}

/-- LOOP on an issuing thread. -/
theorem exec_loop (h : Issuing s t th) : exec (.loop a i) s = .next (
    let x := th.noted 4 [a]
    let stop := th.pc + BitVec.ofNat 64 (2 * i.toNat)
    if th.active || 2 ≤ th.loops.length then s.illegalState t x
    else if s.readReg th a = 0 then
      s.withHalf t x (.loop a i) stop (fun s h => s.setThread t (x.jumpTo (stop + (if h / 2 ^ 15 % 2 = 0 then 2 else 4)) false))
    else
      s.setThread t { x.rejoin with pc := th.pc + 4, issued := th.issued + 1
                                    loops := { start := th.pc + 4, stop := stop, count := s.readReg th a } :: th.loops }) := by
  show execLoop a i s = _
  rw [execLoop, onThread_issuing h]
  simp only [readReg_noted]
  rfl

end

theorem loopArming : LoopArming := by
  intro s t th a i h
  have hexec := exec_loop (a := a) (i := i) h
  refine ⟨fun hact hlen hc => ?_, fun half hact hlen hc hfetch => ?_, fun hlen hh => ?_, fun hact hsorted => ?_⟩
  · have hfree : ¬ (th.active || decide (2 ≤ th.loops.length)) = true := by simp [hact]; omega
    refine ⟨_, _, (hexec.trans (congrArg _ ((if_neg hfree).trans (if_neg hc))) :), State.thread?_setThread_self _ _ _, ⟨rfl, rfl, rfl⟩, rfl, rfl, rfl,
      sameShared_setThread _ _ _, sameOthers_setThread _ _ _, sameDevice_setThread _ _ _⟩
  · have hfree : ¬ (th.active || decide (2 ≤ th.loops.length)) = true := by simp [hact]; omega
    have hreplay : th.replay = false := h.2.2.2.2
    obtain ⟨utlb, hgo⟩ := withHalf_hit (t := t) (x := th.noted 4 [a]) (i := .loop a i) hreplay hfetch _
    refine ⟨_, _, (hexec.trans (congrArg _ (((if_neg hfree).trans (if_pos hc)).trans hgo)) :), State.thread?_setThread_self _ _ _, ⟨rfl, rfl, rfl⟩, rfl, rfl,
      sameRest_jumpTo (sameRest_noted th 4 [a]) _ _, sameShared_setThread _ _ _, sameOthers_setThread _ _ _, rfl⟩
  · refine traps_here hh _ 4 [a] 2 0 none (hexec.trans (congrArg _ (if_pos ?_))) (by decide) (by decide)
    simp [hlen]
  · refine endsFaulted_of_trapHere hsorted (.inr hact) (by decide) (hexec.trans (congrArg _ (if_pos ?_)))
    simp [hact]

/-- A count that a further round brings to 0 (R74). -/
theorem sub_one_ne_zero_iff (c : Word) : c - 1 ≠ 0 ↔ c ≠ 1 := not_congr sub_eq_zero

theorem loopEndCheck : LoopEndCheck := by
  intro pc next l o ls
  refine ⟨rfl, fun hpc => ?_, fun hpc hc => ?_, fun hpc hc => ?_, fun hpc hc ho => ?_, fun hpc hc ho hoc => ?_, fun hpc hc ho hoc => ?_⟩ <;>
    simp only [loopEnd, sub_one_ne_zero_iff]
  · rw [if_neg hpc]
  · rw [if_pos hpc, if_pos hc]
  · rw [if_pos hpc, if_neg (not_not.mpr hc)]
  · rw [if_pos hpc, if_neg (not_not.mpr hc), if_neg ho]
  · rw [if_pos hpc, if_neg (not_not.mpr hc), if_pos ho, if_pos hoc]
  · rw [if_pos hpc, if_neg (not_not.mpr hc), if_pos ho, if_neg (not_not.mpr hoc)]

/-- Settles O6: LOOP's checks are one `if` each, the armed handler's trap ends the thread, and the loop end check is a split on the counts. -/
theorem loopOutcomes : Obligations.LoopOutcomes := ⟨loopArming, loopEndCheck⟩

end Sys2Proof.Proofs
end

