-- ==== Sys2Proof/Proofs/RegisterFrames.lean ====
section
/-!
PROOFS. RFPUSH and RFPOP (R77 to R79).
-/

namespace Sys2Proof.Proofs

open Sys2Proof Sys2Proof.Machine Sys2Proof.Claims

/-! ## Frames -/

theorem splitOldest_append (fs : List (Vector Word 16)) (old : Vector Word 16) : splitOldest (fs ++ [old]) = some (fs, old) := by
  induction fs with
  | nil => rfl
  | cons f fs ih =>
    cases fs with
    | nil => rfl
    | cons g fs =>
      show (splitOldest (g :: fs ++ [old])).map (fun p => (f :: p.1, p.2)) = _
      rw [ih]
      rfl

/-- The registers x0 to x15 with a frame above them. -/
def underFrame (x : Vector Word 32) (f : Vector Word 16) : Vector Word 32 := Vector.ofFn (fun i => if i.val < 16 then x[i.val] else f[i.val % 16])

theorem frameIs_underFrame {th y : Thread} {f : Vector Word 16} (hx : y.x = underFrame th.x f) :
    FrameIs th y (fun j => f[j % 16]'(Nat.mod_lt _ (by decide))) := by
  refine ⟨fun j hj => ?_, fun j hj => ?_⟩ <;> simp [hx, underFrame, hj]

theorem frameIs_zeroFrame {th y : Thread} (hx : y.x = underFrame th.x zeroFrame) : FrameIs th y (fun _ => 0) := by
  obtain ⟨hlow, hhigh⟩ := frameIs_underFrame hx
  exact ⟨hlow, fun j hj => (hhigh j hj).trans (by simp [zeroFrame])⟩

/-- The thread with other registers and frames, as RFPUSH or RFPOP of it completes. -/
def framed (th : Thread) (x : Vector Word 32) (frames : List (Vector Word 16)) (transit : Option Transit) (depth wsp : Nat) (used : Bool) : Thread :=
  { th with
    x := x, frames := frames, transit := transit, depth := depth, wsp := wsp, usedLocal := used, usedShared := th.usedShared || false, ilen := 4 }

theorem framed_completes (th : Thread) (x : Vector Word 32) (frames : List (Vector Word 16)) (transit : Option Transit) (depth wsp : Nat) (used : Bool) :
    let y := (framed th x frames transit depth wsp used).advance
    y.x = x ∧ y.frames = frames ∧ y.transit = transit ∧ y.depth = depth ∧ y.wsp = wsp ∧ GoesOn th y 4 ∧ SameButFrames th y :=
  ⟨rfl, rfl, rfl, rfl, rfl, goesOn_advance th _ 4 rfl rfl rfl rfl rfl, rfl⟩

section
variable {s : State} {t : Nat} {th : Thread}

/-! ## RFPUSH -/

/-- A fifth resident frame, or one after it, needs room (R78). -/
def overfull (th : Thread) : Bool := decide (3 ≤ th.frames.length)

theorem exec_rfpush (h : Issuing s t th) : exec .rfpush s = .next (
    if overfull th && th.spillBound < th.wsp + 128 then s.trapHere t (th.noted 4 []) causeFrameOverflow 0 none
    else if overfull th && th.transit.isSome then s.await t (th.noted 4 []) .transit
    else s.retire t (th.noted 4 []).push) :=
  (show exec .rfpush s = execRfpush s from rfl).trans (onThread_issuing h 4 [] _)

/-- A frame that finds room needs none in local store (R77). -/
theorem push_resident (h : th.frames.length < 3) :
    (th.noted 4 []).push = framed th (underFrame th.x zeroFrame) (th.frame :: th.frames) th.transit (th.depth + 1) th.wsp th.usedLocal := by
  unfold Thread.push
  rw [if_pos (show (th.noted 4 []).frames.length < Config.setAsideFrames from h)]
  cases th
  rfl

/-- One that finds none sends the oldest to the transit buffer (R78). -/
theorem push_spills {fs : List (Vector Word 16)} {old : Vector Word 16} (hfs : th.frames = fs ++ [old]) (hlen : 2 ≤ fs.length) :
    (th.noted 4 []).push = framed th (underFrame th.x zeroFrame) (th.frame :: fs) (some { regs := old, base := localKey th.home th.wsp, done := 0 }) (th.depth + 1)
      (th.wsp + 128) true := by
  have hfull : ¬ (th.noted 4 []).frames.length < Config.setAsideFrames := by
    rw [show (th.noted 4 []).frames = fs ++ [old] from hfs, List.length_append, List.length_singleton]
    exact Nat.not_lt.mpr (Nat.succ_le_succ hlen)
  unfold Thread.push
  rw [if_neg hfull, show (th.noted 4 []).frames = fs ++ [old] from hfs, splitOldest_append]
  cases th
  rfl

end

theorem framePush : FramePush := by
  intro s t th h
  have hexec := exec_rfpush h
  refine ⟨fun hlen => ?_, fun fs old hfs hlen hbound htransit => ?_, fun hlen hbound htransit => ?_, fun hlen hbound hh => ?_⟩
  · have hno : overfull th = false := decide_eq_false (by omega)
    rw [hno, Bool.false_and, Bool.false_and, if_neg Bool.false_ne_true, if_neg Bool.false_ne_true, push_resident hlen] at hexec
    obtain ⟨hx, hframes, htransit, hdepth, hwsp, hgoes, hrest⟩ := framed_completes th (underFrame th.x zeroFrame) _ _ _ _ _
    exact becomes_set _ _ hexec _ ⟨frameIs_zeroFrame hx, hframes, hdepth, hwsp, htransit, hgoes, hrest⟩
  · rw [htransit, Option.isSome_none, Bool.and_false, if_neg (by simp [hbound]), if_neg Bool.false_ne_true, push_spills hfs hlen] at hexec
    obtain ⟨hx, hframes, htransit, hdepth, hwsp, hgoes, hrest⟩ := framed_completes th (underFrame th.x zeroFrame) _ _ _ _ _
    exact becomes_set _ _ hexec _ ⟨frameIs_zeroFrame hx, hframes, hdepth, hwsp, htransit, hgoes, hrest⟩
  · have hyes : overfull th = true := decide_eq_true hlen
    have hsome : th.transit.isSome = true := Option.isSome_iff_ne_none.mpr htransit
    rw [hyes, hsome, if_neg (by simp [hbound]), if_pos (by rfl)] at hexec
    have hframe := awaiting_frame s (th.noted 4 []) .transit
    refine becomes_set _ _ hexec _ ⟨rfl, awaiting_pc s (th.noted 4 []) .transit, awaiting_x s (th.noted 4 []) .transit, ?_, ?_⟩
    · have k := congrArg Thread.frames hframe
      exact k
    · have k := congrArg Thread.depth hframe
      exact k
  · refine traps_here hh _ 4 [] 7 0 none (hexec.trans (congrArg _ (if_pos ?_))) (by decide) (by decide)
    rw [overfull, decide_eq_true hlen, decide_eq_true hbound]
    rfl

/-! ## RFPOP -/

section
variable {s : State} {t : Nat} {th : Thread}

/-- The thread as its RFPOP leaves the rotation for the fill (R79). -/
def filling (s : State) (th : Thread) : Thread :=
  awaiting s { th.noted 4 [] with depth := th.depth - 1, wsp := th.wsp - 128 } (.frameFill (s.clk + 16))

theorem exec_rfpop_empty (h : Issuing s t th) (hdepth : th.depth = 0) : exec .rfpop s = .next (s.illegalState t (th.noted 4 [])) :=
  (show exec .rfpop s = execRfpop s from rfl).trans ((onThread_issuing h 4 [] _).trans (congrArg Host.Outcome.next (if_pos hdepth)))

/-- A pop from a frame that is set aside. -/
theorem exec_rfpop_setAside (h : Issuing s t th) (hdepth : th.depth ≠ 0) {f : Vector Word 16} {fs : List (Vector Word 16)} (hfs : th.frames = f :: fs) :
    exec .rfpop s = .next (s.retire t (framed th (underFrame th.x f) fs th.transit (th.depth - 1) th.wsp th.usedLocal)) := by
  refine (show exec .rfpop s = execRfpop s from rfl).trans ((onThread_issuing h 4 [] _).trans (congrArg Host.Outcome.next ((if_neg hdepth).trans ?_)))
  cases th
  cases hfs
  rfl

/-- A pop from the transit buffer. -/
theorem exec_rfpop_transit (h : Issuing s t th) (hdepth : th.depth ≠ 0) (hfs : th.frames = []) {r : Transit} (htransit : th.transit = some r) :
    exec .rfpop s = .next (s.retire t (framed th (underFrame th.x r.regs) [] none (th.depth - 1) (th.wsp - 128) th.usedLocal)) := by
  refine (show exec .rfpop s = execRfpop s from rfl).trans ((onThread_issuing h 4 [] _).trans (congrArg Host.Outcome.next ((if_neg hdepth).trans ?_)))
  cases th
  cases hfs
  cases htransit
  rfl

/-- A pop that waits for the fill from local store. -/
theorem exec_rfpop_fill (h : Issuing s t th) (hdepth : th.depth ≠ 0) (hfs : th.frames = []) (htransit : th.transit = none) :
    exec .rfpop s = .next (s.setThread t (filling s th)) := by
  refine (show exec .rfpop s = execRfpop s from rfl).trans ((onThread_issuing h 4 [] _).trans (congrArg Host.Outcome.next ((if_neg hdepth).trans ?_)))
  cases th
  cases hfs
  cases htransit
  rfl

end

theorem framePop : FramePop := by
  intro s t th h
  refine ⟨fun f fs hdepth hfs => ?_, fun r hdepth hfs htransit => ?_, fun hdepth hfs htransit => ?_, fun hdepth hh => ?_⟩
  · have hexec := exec_rfpop_setAside h hdepth hfs
    obtain ⟨hx, hframes, -, hdepth, hwsp, hgoes, hrest⟩ := framed_completes th (underFrame th.x f) fs th.transit (th.depth - 1) th.wsp th.usedLocal
    exact becomes_set _ _ hexec _ ⟨frameIs_underFrame hx, hframes, hdepth, hwsp, hgoes, hrest⟩
  · have hexec := exec_rfpop_transit h hdepth hfs htransit
    obtain ⟨hx, -, htransit, hdepth, hwsp, hgoes, hrest⟩ := framed_completes th (underFrame th.x r.regs) [] none (th.depth - 1) (th.wsp - 128) th.usedLocal
    exact becomes_set _ _ hexec _ ⟨frameIs_underFrame hx, htransit, hdepth, hwsp, hgoes, hrest⟩
  · have hexec := exec_rfpop_fill h hdepth hfs htransit
    have hframe := awaiting_frame s { th.noted 4 [] with depth := th.depth - 1, wsp := th.wsp - 128 } (.frameFill (s.clk + 16))
    refine ⟨_, _, hexec, State.thread?_setThread_self _ _ _, rfl, ?_, ?_, awaiting_x s _ _, awaiting_pc s _ _, sameOthers_setThread _ _ _⟩
    · have k := congrArg Thread.wsp hframe
      exact k
    · have k := congrArg Thread.depth hframe
      exact k
  · exact traps_here hh _ 4 [] 2 0 none (exec_rfpop_empty h hdepth) (by decide) (by decide)

/-- Settles O7: each outcome of RFPUSH and of RFPOP is one branch of the instruction, and completes with other frames, waits, or traps. -/
theorem frameOutcomes : Obligations.FrameOutcomes := ⟨framePush, framePop⟩

end Sys2Proof.Proofs
end

