-- ==== Sys2Proof/Proofs/Notes.lean ====
section
/-!
PROOFS. YIELD, PREPT, PIN and UNPIN (R89 to R91).
-/

namespace Sys2Proof.Proofs

open Sys2Proof Sys2Proof.Machine Sys2Proof.Claims

/-- The thread with other notes of the instruction in hand, and other values in the fields that YIELD, PIN and PREPT write. -/
def withNotes (th : Thread) (len : Nat) (yielded pin : Bool) (dist : Nat) : Thread :=
  { th.noted len [] with yielded := yielded, pin := pin, dist := dist }

section
variable {s : State} {t : Nat} {th : Thread}

theorem goesOn_withNotes (th : Thread) (len : Nat) (yielded pin : Bool) (dist : Nat) : GoesOn th (withNotes th len yielded pin dist).advance len :=
  goesOn_advance th _ len rfl rfl rfl rfl rfl

theorem withNotes_x (th : Thread) (len : Nat) (yielded pin : Bool) (dist : Nat) : (withNotes th len yielded pin dist).advance.x = th.x := by
  cases th
  rfl

/-- A thread keeps its identity under its notes. -/
theorem withNotes_identity (th : Thread) (len : Nat) (yielded pin : Bool) (dist : Nat) :
    let x := (withNotes th len yielded pin dist).advance
    x.launch = th.launch ∧ x.guest = th.guest ∧ x.home = th.home := by
  cases th
  exact ⟨rfl, rfl, rfl⟩

/-- Once the one field that an instruction writes is put back, nothing else of the thread has changed. -/
theorem sameRest_yielded (th : Thread) (len : Nat) (yielded : Bool) :
    SameRest th { (withNotes th len yielded th.pin th.dist).advance with yielded := th.yielded } := by
  cases th
  rfl

theorem sameRest_pin (th : Thread) (len : Nat) (pin : Bool) :
    SameRest th { (withNotes th len th.yielded pin th.dist).advance with pin := th.pin } := by
  cases th
  rfl

theorem sameRest_dist (th : Thread) (len dist : Nat) :
    SameRest th { (withNotes th len th.yielded th.pin dist).advance with dist := th.dist } := by
  cases th
  rfl

/-- Whether a thread is stopped, or passes its slot on, depends on its identity alone (R278, R324). -/
theorem stopsHere_congr {x : Thread} (hlaunch : x.launch = th.launch) (hguest : x.guest = th.guest) : s.stopsHere x = s.stopsHere th := by
  unfold State.stopsHere State.convoyOfThread State.convoyOf
  rw [hlaunch, hguest]

theorem passes_congr {x : Thread} (hhome : x.home = th.home) (hguest : x.guest = th.guest) : s.passes x = s.passes th := by
  unfold State.passes
  rw [hhome, hguest]

theorem exec_yieldOp (h : Issuing s t th) (len : Nat) : yieldOp len s = .next (s.setThread t (withNotes th len true th.pin th.dist).advance) :=
  onThread_issuing h len [] (fun t th => s.retire t { th with yielded := true })

theorem exec_pin (h : Issuing s t th) : execPin s = .next (s.setThread t (withNotes th 4 th.yielded true th.dist).advance) :=
  onThread_issuing h 4 [] (fun t th => s.retire t { th with pin := true })

theorem exec_unpin (h : Issuing s t th) : execUnpin s = .next (s.setThread t (withNotes th 4 th.yielded false th.dist).advance) :=
  onThread_issuing h 4 [] (fun t th => s.retire t { th with pin := false })

/-- The thread whose PREPT takes the cancel that was pending. -/
def cancelling (th : Thread) (len : Nat) : Thread := { (withNotes th len th.yielded th.pin 0).advance with cancel := none }

theorem hasHandler_cancelling (hh : HasHandler th) (len : Nat) : HasHandler (cancelling th len) := by
  cases th
  exact hh

theorem enter_cancelling (th : Thread) (len cause detail : Nat) (epc : Word) (last : Option Nat) :
    let y := Thread.enter { cancelling th len with lastIssue := last } cause detail none epc
    y.epc = epc ∧ y.trapc = trapcOf cause detail ∧ y.pc = th.tvec ∧ y.cancel = none ∧ y.dist = 0 ∧ y.x = th.x := by
  cases th
  exact ⟨rfl, rfl, rfl, rfl, rfl, rfl⟩

/-- PREPT decides by the events that are pending, and acts on the thread with its distance counter cleared (R90). -/
theorem prept_event (h : Issuing s t th) (len : Nat) : preptOp len s = .next (
    let x := (withNotes th len th.yielded th.pin 0).advance
    match th.cancel with
    | some d => if th.active then s.endThread t x .cancelled causeCancel d else s.takeTrap t (cancelling th len) causeCancel d none x.pc
    | none =>
      if s.stopsHere x then s.setThread t { x with stopped := true }
      else if s.passes x then s.saveThread t x
      else s.setThread t x) :=
  onThread_issuing h len [] _

/-- PREPT with nothing pending clears the distance counter. -/
theorem prept_goesOn (h : Issuing s t th) (hcancel : th.cancel = none) (hstop : s.stopsHere th = false) (hpass : s.passes th = false) (len : Nat) :
    preptOp len s = .next (s.setThread t (withNotes th len th.yielded th.pin 0).advance) := by
  obtain ⟨hlaunch, hguest, hhome⟩ := withNotes_identity th len th.yielded th.pin 0
  have hexec := prept_event h len
  dsimp only at hexec
  rw [hcancel, stopsHere_congr hlaunch hguest, hstop, passes_congr hhome hguest, hpass] at hexec
  exact hexec

/-- PREPT of a thread with a cancel pending takes the cancel trap. -/
theorem prept_cancels (h : Issuing s t th) {c : Nat} (hcancel : th.cancel = some c) (hactive : th.active = false) :
    preptOp 4 s = .next (s.takeTrap t (cancelling th 4) causeCancel c none (withNotes th 4 th.yielded th.pin 0).advance.pc) := by
  have hexec := prept_event h 4
  dsimp only at hexec
  rw [hcancel, hactive] at hexec
  exact hexec

end

/-- A thread with a handler enters it at a trap (R287). -/
theorem takeTrap_enters (s : State) (t : Nat) {x : Thread} (hh : HasHandler x) (cause detail : Nat) (addr : Option Word) (epc : Word) :
    s.takeTrap t x cause detail addr epc = (s.snapTrap cause).setThread t (Thread.enter { x with lastIssue := some s.clk } cause detail addr epc) := by
  obtain ⟨htvec, hactive⟩ := hh
  unfold State.takeTrap
  exact (if_neg (Bool.eq_false_iff.mp hactive)).trans (if_neg htvec)

/-- Settles O10: each of the four writes one field of the thread and retires it; the cancel trap is entered from the word after PREPT. -/
theorem threadNotes : Obligations.ThreadNotes := by
  intro s t th h
  refine ⟨?_, ?_, ?_, ?_, fun hcancel hstop hpass => ⟨?_, ?_⟩, fun c hcancel hh => ?_⟩
  · exact becomes_set .yield _ (exec_yieldOp h 4) _ ⟨rfl, withNotes_x _ _ _ _ _, goesOn_withNotes _ _ _ _ _, sameRest_yielded th 4 true⟩
  · exact becomes_set .yield16 _ (exec_yieldOp h 2) _ ⟨rfl, withNotes_x _ _ _ _ _, goesOn_withNotes _ _ _ _ _, sameRest_yielded th 2 true⟩
  · exact becomes_set .pin _ (exec_pin h) _ ⟨rfl, withNotes_x _ _ _ _ _, goesOn_withNotes _ _ _ _ _, sameRest_pin th 4 true⟩
  · exact becomes_set .unpin _ (exec_unpin h) _ ⟨rfl, withNotes_x _ _ _ _ _, goesOn_withNotes _ _ _ _ _, sameRest_pin th 4 false⟩
  · exact becomes_set .prept _ (prept_goesOn h hcancel hstop hpass 4) _ ⟨rfl, withNotes_x _ _ _ _ _, goesOn_withNotes _ _ _ _ _, sameRest_dist th 4 0⟩
  · exact becomes_set .prept16 _ (prept_goesOn h hcancel hstop hpass 2) _ ⟨rfl, withNotes_x _ _ _ _ _, goesOn_withNotes _ _ _ _ _, sameRest_dist th 2 0⟩
  · have hexec := prept_cancels h hcancel hh.2
    rw [takeTrap_enters s t (hasHandler_cancelling hh 4)] at hexec
    obtain ⟨hpc, -, -⟩ := goesOn_withNotes th 4 th.yielded th.pin 0
    rw [if_neg (Bool.eq_false_iff.mp hh.2)] at hpc
    obtain ⟨hepc, hrest⟩ := enter_cancelling th 4 causeCancel c (withNotes th 4 th.yielded th.pin 0).advance.pc (some s.clk)
    exact ⟨_, _, hexec, State.thread?_setThread_self _ _ _, hepc.trans (congrArg Prod.fst hpc), hrest⟩

end Sys2Proof.Proofs
end

