-- ==== Sys2Proof/Proofs/Rendezvous.lean ====
section
/-!
PROOFS. RDV and RDV.INIT (R85 to R87).
-/

namespace Sys2Proof.Proofs

open Sys2Proof Sys2Proof.Machine Sys2Proof.Claims

/-! ## The ARRIVED bits of an object -/

/-- A clear bit can be set without a carry. -/
theorem add_two_pow_lt {a j : Nat} (ha : a < 2 ^ 16) (hj : j < 16) (hclear : a.testBit j = false) : a + 2 ^ j < 2 ^ 16 := by
  have hdisjoint : BitVec.ofNat 16 a &&& BitVec.ofNat 16 (2 ^ j) = 0#16 := by
    ext i hi
    rw [BitVec.getElem_and, ← BitVec.getLsbD_eq_getElem, ← BitVec.getLsbD_eq_getElem, BitVec.getLsbD_ofNat, BitVec.getLsbD_ofNat, Nat.testBit_two_pow]
    obtain rfl | h := eq_or_ne j i
    · simp [hclear]
    · simp [h]
  have hsum := BitVec.toNat_add_of_and_eq_zero hdisjoint
  have hpow : 2 ^ j < 2 ^ 16 := Nat.pow_lt_pow_right (by decide) hj
  rw [BitVec.toNat_ofNat, BitVec.toNat_ofNat, Nat.mod_eq_of_lt ha, Nat.mod_eq_of_lt hpow] at hsum
  exact hsum ▸ BitVec.isLt _

/-- The object with one more ARRIVED bit is greater by that bit (R86). -/
theorem setBits_arrived (v : Word) {j : Nat} (hj : j < 16) (hclear : (v.toNat % 2 ^ 16).testBit j = false) :
    setBits v 0 16 (bits v.toNat 0 16 + 2 ^ j) = BitVec.ofNat 64 (v.toNat + 2 ^ j) := by
  have hlow : bits v.toNat 0 16 = v.toNat % 2 ^ 16 := by rw [bits, Nat.pow_zero, Nat.div_one]
  have hlt := add_two_pow_lt (Nat.mod_lt _ (by decide)) hj hclear
  rw [setBits, hlow, Nat.mod_eq_of_lt hlt, Nat.pow_zero, Nat.mul_one, Nat.mul_one]
  congr 1
  have := Nat.mod_le v.toNat (2 ^ 16)
  omega

/-! ## What a discard of held commands and a close leave alone -/

/-- Nothing has changed but what the tiles queue, and what is due. -/
def QueuesOnly (s u : State) : Prop := { u with tiles := s.tiles, agenda := s.agenda, seq := s.seq } = s

theorem QueuesOnly.trans {s u v : State} (h : QueuesOnly s u) (k : QueuesOnly u v) : QueuesOnly s v := by
  unfold QueuesOnly at *
  rw [← k] at h
  exact h

theorem QueuesOnly.unchanged {s u : State} (h : QueuesOnly s u) : u.threads = s.threads ∧ u.banks = s.banks ∧ u.mem = s.mem := by
  have kthreads := congrArg State.threads h
  have kbanks := congrArg State.banks h
  have kmem := congrArg State.mem h
  exact ⟨kthreads, kbanks, kmem⟩

theorem queuesOnly_letIn (s : State) (tile : Nat) (copy : Bool) (entries : Nat) : QueuesOnly s (s.letIn tile copy entries) :=
  List.foldlRecOn (motive := QueuesOnly s) _ _ rfl (fun _ h _ _ => h.trans rfl)

theorem queuesOnly_dropQueued (s : State) (tile : Nat) (copy : Bool) (keep : Cmd → Bool) : QueuesOnly s (s.dropQueued tile copy keep) := by
  unfold State.dropQueued
  dsimp only
  split
  · rfl
  · exact QueuesOnly.trans (u := s.modTile tile _) rfl (queuesOnly_letIn _ _ _ _)

theorem queuesOnly_resolve_false (s : State) (t : Nat) (th : Thread) (q : BitVec 3) : QueuesOnly s (s.resolve t th q false).1 :=
  (queuesOnly_dropQueued _ _ _ _).trans (queuesOnly_dropQueued _ _ _ _)

theorem KMap.get?_map_snd {α : Type} {f : Nat × α → Nat × α} (hf : ∀ p, (f p).1 = p.1) (m : List (Nat × α)) (k : Nat) :
    KMap.get? (m.map f) k = (KMap.get? m k).map (fun v => (f (k, v)).2) := by
  induction m with
  | nil => rfl
  | cons p m ih =>
    obtain ⟨n, v⟩ := p
    have hkey := hf (n, v)
    rw [List.map_cons, ← Prod.mk.eta (p := f (n, v)), hkey]
    show (if n = k then some (f (n, v)).2 else KMap.get? (m.map f) k) = Option.map _ (if n = k then some v else KMap.get? m k)
    split
    · next h => rw [h]; rfl
    · exact ih

section
variable {s : State} {t : Nat} {th : Thread} {k : BitVec 5} {q : BitVec 3}

/-- The thread with another wait. -/
def marked (y : Thread) (w : Wait) : Thread := { y with wait := w }

/-- A waiter whose bit is set is marked with the number of the phase that closes (R86). -/
theorem closePhase_waiter {x y : Thread} {arrived : Nat} {c : Word} (hy : s.thread? t = some y) (hhome : y.home = x.home) (hguest : y.guest = x.guest)
    (hbit : arrived.testBit (slotIn x.home) = true) (hwait : y.wait = .rdv k q 0 c) :
    (s.closePhase t x k arrived).thread? t = some (marked y (.rdv k q s.nextRid c)) := by
  have hcloses : closesOn (coreOf x.home) x.guest k arrived y = true := by simp [closesOn, hhome, hguest, hbit, hwait]
  refine (KMap.get?_map_snd (fun p => ?_) s.threads t).trans ?_
  · dsimp only
    split
    · split <;> rfl
    · rfl
  · rw [show KMap.get? s.threads t = some y from hy, Option.map_some, if_pos hcloses, hwait]
    rfl

theorem banks_closePhase (s : State) (t : Nat) (x : Thread) (k : BitVec 5) (arrived : Nat) : (s.closePhase t x k arrived).banks = s.banks := rfl

/-- It completes 8 cycles later (R87). -/
theorem closePhase_due {x : Thread} (hhome : x.home = th.home) (hguest : x.guest = th.guest) (k : BitVec 5) (arrived : Nat) :
    ∃ p ∈ (s.closePhase t x k arrived).agenda, p.due = s.clk + 8 ∧ p.work = .event (.rdvPhaseCompletion (coreOf th.home) th.guest k t s.nextRid) := by
  obtain ⟨p, hp, hwork, hdue⟩ := mem_agenda_post { s with threads := _, nextRid := s.nextRid + 1 } (placeOfSlot x.home) (s.clk + Config.latRdv) t
    (.event (.rdvPhaseCompletion (coreOf x.home) x.guest k t s.nextRid))
  rw [hhome, hguest] at hwork
  exact ⟨p, hp, hdue, hwork⟩

/-! ## RDV -/

/-- The machine, with the object's new ARRIVED bit. -/
def arriving (s : State) (th : Thread) (k : BitVec 5) : State :=
  { s.kset (coreOf th.home) th.guest k (setBits (s.readReg th (.k k)) 0 16 (rdvArrived (s.readReg th (.k k)) + 2 ^ slotIn th.home)) with
    kWrites := s.kWrites ++ [(coreOf th.home, th.guest, k, slotIn th.home)] }

/-- The machine as it stands while an RDV waits for a phase. -/
def arrived (s : State) (t : Nat) (th : Thread) (k : BitVec 5) (q : BitVec 3) : State :=
  (arriving s th k).await t (th.noted 4 [.k k]) (.rdv k q 0 th.lts)

theorem exec_rdv (h : Issuing s t th) : exec (.rdv k q) s = .next (
    let v := s.readReg th (.k k)
    let x := th.noted 4 [.k k]
    let me := slotIn th.home
    if rdvReserved v ≠ 0 ∨ rdvWaiters v = 0 ∨ 16 < rdvWaiters v then s.illegalState t x
    else if rdvPending v ≠ 0 ∨ popCount 16 (rdvArrived v) = rdvWaiters v then
      (s.resolve t x q false).1.retire t { x with q := th.q.set q.toNat .ff }
    else if (rdvArrived v).testBit me then s.illegalState t x
    else if popCount 16 (rdvArrived v + 2 ^ me) = rdvWaiters v then (arrived s t th k q).closePhase t (th.noted 4 [.k k]) k (rdvArrived v + 2 ^ me)
    else arrived s t th k q) := by
  show execRdv k q s = _
  rw [execRdv, onThread_issuing h]
  simp only [readReg_noted, State.writeReg_issuing s (show (th.noted 4 [.k k]).replay = false from h.2.2.2.2)]
  rfl

/-- The thread that waits for a phase. -/
def arriver (s : State) (th : Thread) (k : BitVec 5) (q : BitVec 3) : Thread :=
  awaiting (arriving s th k) (th.noted 4 [.k k]) (.rdv k q 0 th.lts)

theorem banks_arrived : (arrived s t th k q).banks = (arriving s th k).banks := rfl

theorem thread?_arrived : (arrived s t th k q).thread? t = some (arriver s th k q) := State.thread?_setThread_self _ _ _

/-- What an arrival leaves of a thread. -/
structure ArrivedAs (th y : Thread) : Prop where
  home   : y.home = th.home
  guest  : y.guest = th.guest
  x      : y.x = th.x
  pc     : y.pc = th.pc
  replay : y.replay = th.replay

theorem arrivedAs_arriver : ArrivedAs th (arriver s th k q) := by
  have hframe := awaiting_frame (arriving s th k) (th.noted 4 [.k k]) (.rdv k q 0 th.lts)
  have khome := congrArg Thread.home hframe
  have kguest := congrArg Thread.guest hframe
  have kreplay := congrArg Thread.replay hframe
  exact ⟨khome, kguest, awaiting_x _ _ _, awaiting_pc _ _ _, kreplay⟩

theorem ArrivedAs.marked {y : Thread} (h : ArrivedAs th y) (w : Wait) : ArrivedAs th (marked y w) := by
  obtain ⟨home, guest, x, pc, replay⟩ := h
  cases y
  exact ⟨home, guest, x, pc, replay⟩

/-- A thread that issues reads the banks of its core. -/
theorem readReg_congr_of_issuing {u : State} {x y : Thread} (hx : y.x = x.x) (hhome : y.home = x.home) (hguest : y.guest = x.guest) (hold : x.replay = false)
    (hnew : y.replay = false) (hbanks : u.banks = s.banks) (r : Reg) : u.readReg y r = s.readReg x r := by
  cases r <;> simp [State.readReg, State.kread, State.bank, hx, hhome, hguest, hold, hnew, hbanks]

/-- What a thread that has arrived reads: the object with its bit, and every other register as before. -/
theorem readReg_arrived (h : Issuing s t th) {u : State} {y : Thread} (hy : ArrivedAs th y) (hbanks : u.banks = (arriving s th k).banks) :
    u.readReg y (.k k) = setBits (s.readReg th (.k k)) 0 16 (rdvArrived (s.readReg th (.k k)) + 2 ^ slotIn th.home) ∧
      ∀ r, r ≠ .k k → u.readReg y r = s.readReg th r := by
  obtain ⟨-, -, -, -, hissue⟩ := h
  have hwrite := State.writeReg_issuing s hissue (.k k) (setBits (s.readReg th (.k k)) 0 16 (rdvArrived (s.readReg th (.k k)) + 2 ^ slotIn th.home))
  have hself := State.readReg_writeReg_self s hissue (.k k) (setBits (s.readReg th (.k k)) 0 16 (rdvArrived (s.readReg th (.k k)) + 2 ^ slotIn th.home))
  refine ⟨?_, fun r hr => ?_⟩ <;> rw [readReg_congr_of_issuing (s := arriving s th k) hy.x hy.home hy.guest hissue (hy.replay.trans hissue) hbanks]
  · rw [hwrite] at hself
    exact hself.trans (if_neg Reg.noConfusion)
  · have hne := State.readReg_writeReg_ne s th (setBits (s.readReg th (.k k)) 0 16 (rdvArrived (s.readReg th (.k k)) + 2 ^ slotIn th.home)) hr
    rw [hwrite] at hne
    exact hne

/-- RDV is refused: its guard is false, and the thread goes on. -/
theorem rdv_refused {s' : State} (hsame : QueuesOnly s s') :
    let x : Thread := { th.noted 4 [.k k] with q := th.q.set q.toNat .ff }
    let u := s'.retire t x
    u.thread? t = some x.advance ∧ x.advance.q = th.q.set q.toNat .ff ∧ GoesOn th x.advance 4 ∧ SameRest th { x.advance with q := th.q } ∧
      x.advance.x = th.x ∧ SameShared s u ∧ SameOthers s u t ∧ u.mem = s.mem := by
  obtain ⟨hthreads, hbanks, hmem⟩ := hsame.unchanged
  refine ⟨State.thread?_setThread_self _ _ _, rfl, goesOn_advance th _ 4 rfl rfl rfl rfl rfl, ?_, ?_, fun c g k => ?_, fun t' ht' => ?_, hmem⟩
  · cases th
    rfl
  · cases th
    rfl
  · show s'.kread c g k = s.kread c g k
    simp only [State.kread, State.bank, hbanks]
  · exact (sameOthers_setThread s' t _ t' ht').trans (by unfold State.thread?; rw [hthreads])

end

theorem rdvArrivals : RdvArrivals := by
  intro s t th k q h
  have hexec := exec_rdv (k := k) (q := q) h
  generalize hv : s.readReg th (.k k) = v at hexec
  dsimp only at hexec
  have hme : slotIn th.home < 16 := Nat.mod_lt _ (by decide)
  have harrived : rdvArrived v = v.toNat % 2 ^ 16 := by rw [rdvArrived, bits, Nat.pow_zero, Nat.div_one]
  simp only [popCount_eq_length_filter] at hexec
  dsimp only
  refine ⟨fun hbad hh => ?_, fun hres hlow hhigh hno => ?_, fun hres hlow hhigh hpend hcount hagain hh => ?_,
    fun hres hlow hhigh hpend hcount hnew => ?_⟩
  · exact traps_here hh _ 4 [.k k] 2 0 none (hexec.trans (congrArg _ (if_pos hbad))) (by decide) (by decide)
  all_goals
    have hwell : ¬ (rdvReserved v ≠ 0 ∨ rdvWaiters v = 0 ∨ 16 < rdvWaiters v) := by
      rintro (hbad | hbad | hbad)
      · exact hbad hres
      · exact absurd hbad (Nat.ne_of_gt hlow)
      · exact absurd hbad (Nat.not_lt.mpr hhigh)
    rw [if_neg hwell] at hexec
  · rw [if_pos (harrived ▸ hno)] at hexec
    exact ⟨_, _, hexec, rdv_refused (queuesOnly_resolve_false _ _ _ _)⟩
  all_goals
    have hopen : ¬ (rdvPending v ≠ 0 ∨ ((List.range 16).filter (fun j => (rdvArrived v).testBit j)).length = rdvWaiters v) := by
      rw [harrived]
      rintro (hbad | hbad)
      · exact hbad hpend
      · exact hcount hbad
    rw [if_neg hopen] at hexec
  · exact traps_here hh _ 4 [.k k] 2 0 none (hexec.trans (congrArg _ (if_pos (harrived ▸ hagain)))) (by decide) (by decide)
  · rw [if_neg (by rw [harrived, hnew]; decide), harrived] at hexec
    have hwaits := arrivedAs_arriver (s := s) (th := th) (k := k) (q := q)
    have hobject : setBits v 0 16 (rdvArrived v + 2 ^ slotIn th.home) = BitVec.ofNat 64 (v.toNat + 2 ^ slotIn th.home) := setBits_arrived v hme hnew
    by_cases hcloses : ((List.range 16).filter (fun j => (v.toNat % 2 ^ 16 + 2 ^ slotIn th.home).testBit j)).length = rdvWaiters v
    · rw [if_pos hcloses] at hexec
      have hbit : (v.toNat % 2 ^ 16 + 2 ^ slotIn th.home).testBit (slotIn th.home) = true := by
        rw [Nat.add_comm, Nat.testBit_two_pow_add_eq, hnew]
        rfl
      have hy := closePhase_waiter (x := th.noted 4 [.k k]) (thread?_arrived (s := s) (t := t) (th := th) (k := k) (q := q)) hwaits.home hwaits.guest hbit rfl
      have hmarked := hwaits.marked (.rdv k q (arrived s t th k q).nextRid th.lts)
      obtain ⟨hobj, hothers⟩ := readReg_arrived h hmarked
        ((banks_closePhase (arrived s t th k q) t (th.noted 4 [.k k]) k (v.toNat % 2 ^ 16 + 2 ^ slotIn th.home)).trans banks_arrived)
      exact ⟨_, _, _, hexec, hy, rfl, hmarked.pc, (hv ▸ hobj).trans hobject, hothers, fun _ => closePhase_due rfl rfl _ _, fun hne => absurd hcloses hne⟩
    · rw [if_neg hcloses] at hexec
      obtain ⟨hobj, hothers⟩ := readReg_arrived h hwaits (banks_arrived (t := t) (q := q))
      exact ⟨_, _, 0, hexec, thread?_arrived, rfl, hwaits.pc, (hv ▸ hobj).trans hobject, hothers, fun hyes => absurd hyes hcloses, fun _ => ⟨rfl, rfl⟩⟩

theorem rdvInit : RdvInit := by
  intro s t th k b i h
  refine ⟨fun hlow hhigh => ?_, fun hbad hh => ?_, computes_result h _ [.k k] _ _ (fun t th => s.result t th (.k k) (rdvObject i.toNat)) rfl rfl⟩
  · have he : exec (.rdvInitReg k b) s = execRdvInitReg k b s := rfl
    unfold execRdvInitReg at he
    refine computes_result h _ _ _ _ _ he ?_
    simp only [readReg_noted]
    exact if_neg (by omega)
  · have he : exec (.rdvInitReg k b) s = execRdvInitReg k b s := rfl
    unfold execRdvInitReg at he
    refine traps_of_onThread h hh _ _ he ?_ (by decide) (by decide)
    simp only [readReg_noted]
    exact if_pos (by omega)

/-- Settles O9: RDV is a chain of checks on the object's fields, of which the last case adds a bit to it and marks the thread. -/
theorem rendezvousOutcomes : Obligations.RendezvousOutcomes := ⟨rdvArrivals, rdvInit⟩

end Sys2Proof.Proofs
end

