-- ==== Sys2Proof/Proofs/Accesses.lean ====
section
/-!
PROOFS. What a load or a store that completes in its issue cycle leaves: the thread, the register, and the bytes (R93 to R95, R124, R126, R127).
-/

namespace Sys2Proof.Proofs

open Sys2Proof Sys2Proof.Machine Sys2Proof.Claims

/-! ## The thread after its access -/

/-- The thread with an access in hand: other registers, another tag, another clock, and what is noted of the instruction. -/
def accessing (th : Thread) (len : Nat) (shared locally_ : Bool) (x : Vector Word 32) (e : Vector Word 16) (tag : BitVec 32) (lts seen : Word) : Thread :=
  { th with ilen := len, usedShared := shared, usedLocal := locally_, x := x, e := e, lastTag := tag, lts := lts, ltsSeen := seen }

section
variable (th : Thread) (len : Nat) (shared locally_ : Bool) (x : Vector Word 32) (e : Vector Word 16) (tag : BitVec 32) (lts seen : Word)

theorem goesOn_accessing : GoesOn th (accessing th len shared locally_ x e tag lts seen).advance len :=
  goesOn_advance th _ len rfl rfl rfl rfl rfl

theorem accessing_fields : let y := (accessing th len shared locally_ x e tag lts seen).advance
    y.x = x ∧ y.e = e ∧ y.lastTag = tag ∧ y.lts = lts := by
  cases th
  exact ⟨rfl, rfl, rfl, rfl⟩

theorem sameRest_accessing_x : SameRest th (accessing th len shared locally_ x th.e th.lastTag th.lts th.ltsSeen).advance := by
  cases th
  rfl

theorem sameRest_accessing_e : SameRest th { (accessing th len shared locally_ x e th.lastTag th.lts th.ltsSeen).advance with e := th.e } := by
  cases th
  rfl

theorem sameRest_accessing_tag : SameRest th { (accessing th len shared locally_ x th.e tag th.lts th.ltsSeen).advance with lastTag := th.lastTag } := by
  cases th
  rfl

theorem sameRest_accessing_x_lts :
    SameRest th { (accessing th len shared locally_ x th.e th.lastTag lts seen).advance with lts := th.lts, ltsSeen := th.ltsSeen } := by
  cases th
  rfl

theorem sameRest_accessing_e_lts :
    SameRest th { (accessing th len shared locally_ x e th.lastTag lts seen).advance with e := th.e, lts := th.lts, ltsSeen := th.ltsSeen } := by
  cases th
  rfl

theorem sameRest_accessing_tag_lts :
    SameRest th { (accessing th len shared locally_ x th.e tag lts seen).advance with lastTag := th.lastTag, lts := th.lts, ltsSeen := th.ltsSeen } := by
  cases th
  rfl

end

/-! ## A loaded value lands -/

section
variable {s : State} {t : Nat} {th : Thread}

/-- The thread with other registers x0 to x31. -/
def withX (y : Thread) (x : Vector Word 32) : Thread := { y with x := x }

/-- A value lands in a register of a thread y, which is th as far as its registers go. -/
theorem result_withX {y : Thread} (hissue : y.replay = false) (hhome : y.home = th.home) (hguest : y.guest = th.guest)
    (hreads : ∀ r, s.readReg y r = s.readReg th r) (d : Reg) (v : Word) :
    ∃ x, let th' := (withX y x).advance
      (s.result t y d v).thread? t = some th' ∧ (s.result t y d v).readReg th' d = (if d = .x 0 then 0 else v) ∧
        SameRegsBut s (s.result t y d v) th th' d ∧ SameSharedBut s (s.result t y d v) th d ∧ SameOthers s (s.result t y d v) t ∧
        SameDevice s (s.result t y d v) := by
  have hw : (s.writeReg y d v).2.replay = false := by rw [State.writeReg_replayFlag, hissue]
  obtain ⟨x, hx⟩ := writeReg_thread s y d v
  rw [show ({ y with x := x } : Thread) = withX y x from rfl] at hx
  refine ⟨x, ?_⟩
  rw [← hx, State.result_eq]
  refine ⟨State.thread?_setThread_self _ _ _, ?_, fun r hne => ?_, fun c g k => ?_, fun t' ht => ?_, ?_⟩
  · rw [State.readReg_setThread, readReg_advance _ _ hw, State.readReg_writeReg_self s hissue]
  · rw [State.readReg_setThread, readReg_advance _ _ hw, State.readReg_writeReg_ne _ _ _ hne, hreads]
  · rw [← hhome, ← hguest]
    exact State.kread_writeReg s y d v c g k
  · rw [State.thread?_setThread, if_neg ht, State.writeReg_thread?]
  · rw [State.writeReg_issuing s hissue]
    cases d <;> rfl

/-- A value lands in the register of an issuing load, whose clock may have risen. -/
theorem result_accessing (hissue : th.replay = false) (len : Nat) (shared locally_ : Bool) (lts seen : Word) (d : Reg) (v : Word) :
    let u := s.result t (accessing th len shared locally_ th.x th.e th.lastTag lts seen) d v
    ∃ x, let th' := (accessing th len shared locally_ x th.e th.lastTag lts seen).advance
      u.thread? t = some th' ∧ u.readReg th' d = (if d = .x 0 then 0 else v) ∧ SameRegsBut s u th th' d ∧ SameSharedBut s u th d ∧ SameOthers s u t ∧
        SameDevice s u := by
  have hreads : ∀ r, s.readReg (accessing th len shared locally_ th.x th.e th.lastTag lts seen) r = s.readReg th r :=
    State.readReg_congr rfl rfl rfl rfl rfl rfl
  exact result_withX (y := accessing th len shared locally_ th.x th.e th.lastTag lts seen) hissue rfl rfl hreads d v

/-- A load writes its register as any instruction does. -/
theorem landLoad_reg (y : Thread) {l : LoadInto} {d : Reg} (hdst : l.dst = .reg d) (v : Word) : s.landLoad t y l v false = s.result t y d v := by
  unfold State.landLoad
  rw [hdst]
  rfl

theorem landLoad_ext {l : LoadInto} {e : BitVec 4} (hdst : l.dst = .ext e) (len : Nat) (shared locally_ : Bool) (x : Vector Word 32) (es : Vector Word 16)
    (tag : BitVec 32) (lts seen v : Word) :
    s.landLoad t (accessing th len shared locally_ x es tag lts seen) l v false =
      s.retire t (accessing th len shared locally_ x (es.set e.toNat v) tag lts seen) := by
  unfold State.landLoad
  rw [hdst]
  rfl

end

/-! ## The bytes -/

theorem natOfBytes_bytesOf {w n : Nat} (h : w < 2 ^ (8 * n)) : natOfBytes (bytesOf w n) = w := by
  induction n generalizing w with
  | zero => exact (Nat.lt_one_iff.mp h).symm
  | succ n ih =>
    rw [Nat.mul_succ, Nat.pow_add] at h
    rw [bytesOf, natOfBytes, ih (by omega), BitVec.toNat_ofNat]
    omega

theorem length_readMem (s : State) (key n : Nat) : (s.readMem key n).length = n := by
  unfold State.readMem
  induction n generalizing key with
  | zero => rfl
  | succ n ih => exact congrArg (· + 1) (ih (key + 1))

theorem numberAt_lt (s : State) (key n : Nat) : numberAt s key n < 2 ^ (8 * n) := by
  have k := natOfBytes_lt (s.readMem key n)
  rwa [length_readMem] at k

/-- What a load makes of the bytes of memory. -/
theorem value_readMem (s : State) (key : Nat) {l : LoadInto} (hn : 0 < l.n) :
    l.value (s.readMem key l.n) = widened l.n l.signed (numberAt s key l.n) := value_eq_widened hn (length_readMem s key l.n).le

/-- What it makes of a word that holds them. -/
theorem value_word (s : State) (key : Nat) {l : LoadInto} (hn : 0 < l.n) (h8 : l.n ≤ 8) :
    l.value (bytesOf (BitVec.ofNat 64 (numberAt s key l.n)).toNat l.n) = widened l.n l.signed (numberAt s key l.n) := by
  have hlt := numberAt_lt s key l.n
  have h64 : numberAt s key l.n < 2 ^ 64 := hlt.trans_le (Nat.pow_le_pow_right (by decide) (by omega))
  rw [value_eq_widened hn (length_bytesOf _ _).le, BitVec.toNat_ofNat, Nat.mod_eq_of_lt h64, natOfBytes_bytesOf hlt]

/-- Eight bytes are a word already. -/
theorem widened_word (v : Nat) : widened 8 true v = BitVec.ofNat 64 v := BitVec.signExtend_eq _

/-- A store puts its bytes in memory, and leaves every other byte (R94). -/
theorem stored_writeMem {s u : State} {key n : Nat} {v : Word} (hmem : u.mem = Memory.writeN s.mem key (bytesOf v.toNat n)) : Stored s u key n v := by
  have hlen := length_bytesOf v.toNat n
  refine ⟨fun j hj => ?_, fun k hk => ?_⟩ <;> rw [hmem]
  · rw [Memory.read_writeN_in _ _ _ _ (hlen.symm ▸ hj)]
    simp only [bytesOf_eq, List.getElem_map, List.getElem_range]
  · exact Memory.read_writeN_out _ _ _ _ (by rw [hlen]; exact hk)

/-! ## The forms -/

section
variable {s : State} {t : Nat} {th : Thread}

/-- The word i, as it issues, is the load l: as `IsLoad`, with the word's own length. -/
def LoadsAs (s : State) (t : Nat) (th : Thread) (i : Instr) (l : LoadInto) : Prop :=
  l.n ∣ 8 ∧ ∃ regs, exec i s = .next (s.load t (th.noted i.len regs) i l)

theorem loadsAs_ldM (h : Issuing s t th) {i : Instr} {d a : Reg} {m : BitVec 10} {n : Nat} {signed : Bool} (he : exec i s = ldM i d a m n signed s)
    (hlen : i.len = 4) (hn : n ∣ 8) : LoadsAs s t th i { dst := .reg d, n := n, signed := signed, va := addrOf s th a m } :=
  ⟨hn, [d, a], by rw [he, hlen, ldM, onThread_issuing h, addrM_noted]⟩

theorem loadsAs_ldX (h : Issuing s t th) {i : Instr} {d a b : Reg} {n : Nat} {signed : Bool} (he : exec i s = ldX i d a b n signed s)
    (hlen : i.len = 4) (hn : n ∣ 8) : LoadsAs s t th i { dst := .reg d, n := n, signed := signed, va := addrAt s th a b n } :=
  ⟨hn, [d, a, b], by rw [he, hlen, ldX, onThread_issuing h, addrX_noted]⟩

theorem loadsAs_ldD16 (h : Issuing s t th) (d4 : BitVec 4) (m7 : BitVec 7) :
    LoadsAs s t th (.ldD16 d4 m7) { dst := .reg (.x (d4.setWidth 5)), n := 8, signed := true, va := addrShort th m7 } :=
  ⟨dvd_refl 8, [], (show exec (.ldD16 d4 m7) s = execLdD16 d4 m7 s from rfl).trans (onThread_issuing h 2 [] _)⟩

theorem loadsAs_xld (h : Issuing s t th) (e : BitVec 4) (a : Reg) (m : BitVec 10) :
    LoadsAs s t th (.xld e a m) { dst := .ext e, n := 8, signed := true, va := addrOf s th a m } :=
  ⟨dvd_refl 8, [a], by rw [show exec (.xld e a m) s = execXld e a m s from rfl, execXld, onThread_issuing h, addrM_noted]; rfl⟩

theorem loadsAs_of_mem (h : Issuing s t th) (d a b : Reg) (m : BitVec 10) (d4 : BitVec 4) (m7 : BitVec 7) :
    ∀ f ∈ loadForms s th d a b m d4 m7, LoadsAs s t th f.i { dst := .reg f.d, n := f.n, signed := f.signed, va := f.va } := by
  simp only [loadForms, List.forall_mem_cons, List.not_mem_nil, false_implies, implies_true, and_true]
  exact ⟨loadsAs_ldM h rfl rfl (by decide), loadsAs_ldM h rfl rfl (by decide), loadsAs_ldM h rfl rfl (by decide), loadsAs_ldM h rfl rfl (by decide),
    loadsAs_ldM h rfl rfl (by decide), loadsAs_ldM h rfl rfl (by decide), loadsAs_ldM h rfl rfl (by decide), loadsAs_ldX h rfl rfl (by decide),
    loadsAs_ldX h rfl rfl (by decide), loadsAs_ldX h rfl rfl (by decide), loadsAs_ldX h rfl rfl (by decide), loadsAs_ldX h rfl rfl (by decide),
    loadsAs_ldX h rfl rfl (by decide), loadsAs_ldX h rfl rfl (by decide), loadsAs_ldD16 h d4 m7⟩

theorem width_of_mem (d a b : Reg) (m : BitVec 10) (d4 e : BitVec 4) (m7 : BitVec 7) : ∀ f ∈ storeForms s th d a b m d4 e m7, f.n ∣ 8 := by
  simp only [storeForms, List.forall_mem_cons, List.not_mem_nil, false_implies, implies_true, and_true]
  decide

/-- The word i, as it issues, is the store of the low n bytes of v at va. -/
theorem exec_of_mem (h : Issuing s t th) (d a b : Reg) (m : BitVec 10) (d4 e : BitVec 4) (m7 : BitVec 7) :
    ∀ f ∈ storeForms s th d a b m d4 e m7, f.n ∣ 8 ∧ ∃ regs, exec f.i s = .next (s.store t (th.noted f.i.len regs) f.i f.va f.n f.v) := by
  intro f hf
  obtain ⟨-, regs, hexec⟩ := isStore_of_mem s t th d a b m d4 e m7 f hf
  exact ⟨width_of_mem d a b m d4 e m7 f hf, regs, hexec (.inl h)⟩

end

/-! ## Operations in the way -/

/-- Where none of a thread's operations meets its bytes, none of another name does (R129). -/
theorem unaliased_of_clear {s : State} {t : Nat} {th : Thread} {x : Target} {va : Word} {n : Nat} (h : Clear s t th x va n) : Unaliased s t th x va n := by
  unfold Clear State.ownOverlap State.overlapping at h
  unfold Unaliased State.aliasOverlap State.aliases
  have hsub : ∀ {o o' : List Tagged}, (∀ y ∈ o', y ∈ o) → s.meetingOps o th x va n = [] → s.meetingOps o' th x va n = [] := by
    intro o o' hsub hnil
    unfold State.meetingOps at *
    dsimp only at *
    split at hnil
    · next hempty =>
      have : o' = [] := List.eq_nil_iff_forall_not_mem.mpr (fun y hy => by
        have k := hsub y hy
        rw [List.isEmpty_iff.mp hempty] at k
        exact absurd k List.not_mem_nil)
      rw [this]
      rfl
    · split
      · rfl
      · rw [List.map_eq_nil_iff, List.filter_eq_nil_iff] at hnil ⊢
        exact fun y hy => hnil y (hsub y hy)
  rw [Bool.not_eq_false', List.isEmpty_iff] at *
  exact hsub (fun y hy => (List.mem_filter.mp hy).1) h

end Sys2Proof.Proofs
end

