-- ==== Sys2Proof/Proofs/LocalMemory.lean ====
section
/-!
PROOFS. Loads from local store and stores to it (R93 to R95, R101, R124, R126, R127, R245).
-/

namespace Sys2Proof.Proofs

open Sys2Proof Sys2Proof.Machine Sys2Proof.Claims

/-! ## Addresses of the tile (R99) -/

/-- An offset from a multiple of 2^56 is aligned as the whole address is. -/
theorem add_mod_of_dvd {n base off : Nat} (hn : n ∣ 8) (halign : off % n = 0) : (base * 2 ^ 56 + off) % n = 0 := by
  have hbase : n ∣ base * 2 ^ 56 := (hn.trans (by decide)).trans (Dvd.intro_left base rfl)
  exact Nat.mod_eq_zero_of_dvd ((Nat.dvd_add_right hbase).mpr (Nat.dvd_of_mod_eq_zero halign))

/-- The fields of an address of the own stash or of local store. -/
theorem address_fields {base off : Nat} (hbase : base < 256) (hoff : off < 2 ^ 56) :
    let va := BitVec.ofNat 64 (base * 2 ^ 56 + off)
    va.toNat = base * 2 ^ 56 + off ∧ topByte va = base ∧ low56 va = off := by
  have hnat : (BitVec.ofNat 64 (base * 2 ^ 56 + off)).toNat = base * 2 ^ 56 + off := by
    rw [BitVec.toNat_ofNat, Nat.mod_eq_of_lt (by omega)]
  refine ⟨hnat, ?_, ?_⟩
  · rw [topByte, hnat]
    omega
  · rw [low56, hnat]
    omega

section
variable {s : State} {t : Nat} {th : Thread} {va : Word} {n off : Nat}

theorem spaceOf_loc {va : Word} (h : topByte va = 0x82) : s.spaceOf va = .loc := by
  unfold State.spaceOf
  rw [h]
  rfl

/-- Aligned bytes of local store pass the checks of R122. -/
theorem check_local (h : LocalAt va n off) (hn : n ∣ 8) (len : Nat) (regs : List Reg) (write : Bool) :
    s.check (th.noted len regs) va { n := n, align := n, kind := kindData, write := write } = (.ok (.loc (localKey th.home off)), s) := by
  obtain ⟨hva, hbound, halign⟩ := h
  have hpos : 0 < n := Nat.pos_of_dvd_of_pos hn (by decide)
  obtain ⟨hnat, htop, hlow⟩ := address_fields (base := 0x82) (off := off) (by decide) (by omega)
  rw [← show va = BitVec.ofNat 64 (0x82 * 2 ^ 56 + off) from hva] at hnat htop hlow
  have haligned : va.toNat % n = 0 := by
    rw [hnat]
    exact add_mod_of_dvd hn halign
  have hspace : s.spaceOf va = .loc := spaceOf_loc htop
  have hok : s.spaceOk (th.noted len regs).guest va n = true := by
    unfold State.spaceOk
    rw [hspace, hlow, Nat.max_eq_right hpos]
    exact decide_eq_true hbound
  unfold State.check
  rw [hok, hspace, hlow, haligned]
  rfl

/-- A load from local store. -/
theorem load_local {i : Instr} {l : LoadInto} (h : LocalAt l.va l.n off) (hn : l.n ∣ 8) (hclear : Clear s t th (.loc (localKey th.home off)) l.va l.n)
    (len : Nat) (regs : List Reg) :
    s.load t (th.noted len regs) i l =
      s.landLoad t (accessing th len (th.noted len regs).usedShared true th.x th.e th.lastTag th.lts th.ltsSeen) l
        (widened l.n l.signed (numberAt s (localKey th.home off) l.n)) false := by
  unfold State.load State.access
  rw [check_local h hn, ← value_readMem s _ (Nat.pos_of_dvd_of_pos hn (by decide))]
  exact if_neg (not_overlap hclear len regs)

/-- A store to local store. -/
theorem store_local {i : Instr} {v : Word} (h : LocalAt va n off) (hn : n ∣ 8) (hclear : Clear s t th (.loc (localKey th.home off)) va n)
    (len : Nat) (regs : List Reg) :
    s.store t (th.noted len regs) i va n v =
      ({ s with mem := Memory.writeN s.mem (localKey th.home off) (bytesOf v.toNat n), nextOp := s.nextOp + 1 } : State).retire t
        (accessing th len (th.noted len regs).usedShared true th.x th.e (nextTag th.lastTag) th.lts th.ltsSeen) := by
  unfold State.store State.access
  rw [check_local h hn]
  exact if_neg (not_alias (unaliased_of_clear hclear) len regs)

end

/-! ## The statements -/

/-- Settles O11: the checks of R122 pass, nothing outstanding is in the way, and the widened bytes land in the register. -/
theorem localLoads : Obligations.LocalLoads := by
  intro s t th d a b m d4 e m7 h
  have hissue : th.replay = false := h.2.2.2.2
  refine ⟨fun f hf off hat hclear => ?_, fun off hat hclear => ?_⟩
  · obtain ⟨hn, regs, hexec⟩ := loadsAs_of_mem h d a b m d4 m7 f hf
    rw [load_local hat hn hclear, landLoad_reg _ rfl] at hexec
    obtain ⟨x, hth, hd, hregs, hshared, hothers, hdevice⟩ := result_accessing (s := s) (t := t) hissue f.i.len (th.noted f.i.len regs).usedShared true
      th.lts th.ltsSeen f.d (widened f.n f.signed (numberAt s (localKey th.home off) f.n))
    exact ⟨_, _, hexec, hth, hd, hregs, goesOn_accessing .., sameRest_accessing_x .., hshared, hothers, hdevice⟩
  · obtain ⟨hn, regs, hexec⟩ := loadsAs_xld h e a m
    rw [load_local hat hn hclear, landLoad_ext rfl, widened_word] at hexec
    obtain ⟨hx, he, -⟩ := accessing_fields th 4 (th.noted 4 regs).usedShared true th.x
      (th.e.set e.toNat (BitVec.ofNat 64 (numberAt s (localKey th.home off) 8))) th.lastTag th.lts th.ltsSeen
    exact becomes_set _ _ hexec _ ⟨he, hx, goesOn_accessing .., sameRest_accessing_e ..⟩

/-- Settles O12: the store's tag is acknowledged at once, and its bytes are in memory. -/
theorem localStores : Obligations.LocalStores := by
  intro s t th d a b m d4 e m7 h f hf off hat hclear
  obtain ⟨hn, regs, hexec⟩ := exec_of_mem h d a b m d4 e m7 f hf
  rw [store_local hat hn hclear] at hexec
  obtain ⟨hx, -, htag, -⟩ := accessing_fields th f.i.len (th.noted f.i.len regs).usedShared true th.x th.e (nextTag th.lastTag) th.lts th.ltsSeen
  exact ⟨_, _, hexec, State.retire_thread? _ _ _, stored_writeMem rfl, htag.trans (nextTag_eq _), hx, goesOn_accessing .., sameRest_accessing_tag ..,
    sameOthers_setThread _ _ _, rfl⟩

end Sys2Proof.Proofs
end

