-- ==== Sys2Proof/Proofs/OwnStash.lean ====
section
/-!
PROOFS. Loads of the own stash and stores to it, where the line is resident (R93 to R95, R104, R124, R126, R127, R155, R183, R245).
-/

namespace Sys2Proof.Proofs

open Sys2Proof Sys2Proof.Machine Sys2Proof.Claims

/-! ## What a store does to a resident line -/

/-- Nothing has changed but the messages on their way. -/
def MessagesOnly (s u : State) : Prop :=
  { u with agenda := s.agenda, fresh := s.fresh, seq := s.seq, peerAnswers := s.peerAnswers } = s

theorem MessagesOnly.trans {s u v : State} (h : MessagesOnly s u) (k : MessagesOnly u v) : MessagesOnly s v := by
  unfold MessagesOnly at *
  rw [← k] at h
  exact h

/-- The signals of a line's monitors are messages (R166). -/
theorem messagesOnly_signal (s : State) (line delay : Nat) (wts : Word) : MessagesOnly s (s.signal line delay wts) := by
  refine List.foldlRecOn (motive := MessagesOnly s) _ _ rfl (fun u hu a _ => hu.trans ?_)
  split <;> rfl

section
variable {s : State} {t : Nat} {th : Thread} {va : Word} {n tile off : Nat} {l : StashLine}

/-- The machine with bytes written at an offset of a tile's stash, and its line as l. -/
def bytesPut (s : State) (tile off : Nat) (bs : List Byte) (l : StashLine) : State :=
  { s with mem := Memory.writeN s.mem (stashKey tile off) bs, stash := KMap.set s.stash (tile * 1024 + off / 128) l }

/-- A store to a resident line writes the bytes, marks the line dirty (R104) and signals its monitors. -/
theorem stashWrite_eq (hl : s.stashLine? tile (off / 128) = some l) (bs : List Byte) :
    MessagesOnly (bytesPut s tile off bs { l with dirty := true }) (s.stashWrite tile off bs) := by
  have hline : (s.writeMem (stashKey tile off) bs).stashLine? tile (off / 128) = some l := hl
  have hmod : (s.writeMem (stashKey tile off) bs).modStashLine tile off (fun l => { l with dirty := true }) =
      bytesPut s tile off bs { l with dirty := true } := by
    unfold State.modStashLine
    rw [hline]
    rfl
  unfold State.stashWrite State.stashSignal
  rw [hmod]
  split
  · exact messagesOnly_signal _ _ _ _
  · rfl

theorem MessagesOnly.unchanged {s u : State} (h : MessagesOnly s u) :
    u.threads = s.threads ∧ u.banks = s.banks ∧ u.mem = s.mem ∧ u.stash = s.stash ∧ u.tiles = s.tiles ∧ u.guests = s.guests ∧ u.tagged = s.tagged := by
  have kthreads := congrArg State.threads h
  have kbanks := congrArg State.banks h
  have kmem := congrArg State.mem h
  have kstash := congrArg State.stash h
  have ktiles := congrArg State.tiles h
  have kguests := congrArg State.guests h
  have ktagged := congrArg State.tagged h
  exact ⟨kthreads, kbanks, kmem, kstash, ktiles, kguests, ktagged⟩

theorem stashLine?_congr {u : State} (hstash : u.stash = s.stash) (hguests : u.guests = s.guests) (tile i : Nat) : u.stashLine? tile i = s.stashLine? tile i := by
  have hlives : u.lineLives = s.lineLives := by
    funext l
    simp only [State.lineLives, State.guest, hguests]
  rw [State.stashLine?, hstash, hlives]
  rfl

/-- The line that was written is the line that is found there, dirty. -/
theorem stashLine?_bytesPut (hl : s.stashLine? tile (off / 128) = some l) (bs : List Byte) :
    (bytesPut s tile off bs { l with dirty := true }).stashLine? tile (off / 128) = some { l with dirty := true } := by
  have hlives : s.lineLives l = true := by
    unfold State.stashLine? at hl
    exact (Option.filter_eq_some_iff.mp hl).2
  unfold State.stashLine?
  rw [show (bytesPut s tile off bs { l with dirty := true }).stash = KMap.set s.stash (tile * 1024 + off / 128) { l with dirty := true } from rfl,
    KMap.get?_set_self]
  exact Option.filter_eq_some_iff.mpr ⟨rfl, hlives⟩

/-! ## The checks, and the park table -/

theorem spaceOf_own (h : topByte va = 0x80) : s.spaceOf va = .own := by
  unfold State.spaceOf
  rw [h]
  rfl

/-- Aligned bytes of a resident line of the own stash pass the checks of R122. -/
theorem check_own (h : OwnLine s th va n off l) (hn : n ∣ 8) (len : Nat) (regs : List Reg) (write : Bool) :
    s.check (th.noted len regs) va { n := n, align := n, kind := kindData, write := write } = (.ok (.own off), s) := by
  obtain ⟨hva, hbound, halign, -, -, -, hbank, hmask⟩ := h
  have hpos : 0 < n := Nat.pos_of_dvd_of_pos hn (by decide)
  obtain ⟨hnat, htop, hlow⟩ := address_fields (base := 0x80) (off := off) (by decide) (by omega)
  rw [← show va = BitVec.ofNat 64 (0x80 * 2 ^ 56 + off) from hva] at hnat htop hlow
  have haligned : va.toNat % n = 0 := by
    rw [hnat]
    exact add_mod_of_dvd hn halign
  have hoff : stashOff va = off := by
    rw [stashOff, hnat]
    omega
  have hspace : s.spaceOf va = .own := spaceOf_own htop
  have hok : s.spaceOk (th.noted len regs).guest va n = true := by
    unfold State.spaceOk
    rw [hspace, hlow, Nat.max_eq_right hpos]
    exact decide_eq_true hbound
  have hguard : (s.bankOk (tileOf (th.noted len regs).home) off (th.noted len regs).guest && (th.noted len regs).stashm.getLsbD (off / 4096)) = true := by
    rw [Bool.and_eq_true]
    exact ⟨beq_iff_eq.mpr hbank, hmask⟩
  unfold State.check
  rw [hok, hspace, hoff, haligned]
  exact if_pos hguard

/-- Where no request is parked at an offset, none is applied after an access to it (R186). -/
theorem drain_of_unparked {u : State} (h : ∀ p ∈ (u.tile tile).park, p.off ≠ off) : u.drain tile off = u := by
  have hnone : (u.tile tile).park.find? (fun p => p.allowed off (u.isFull tile off)) = none := by
    refine List.find?_eq_none.mpr (fun p hp => ?_)
    unfold Parked.allowed
    rw [beq_false_of_ne (h p hp), Bool.false_and]
    exact Bool.false_ne_true
  unfold State.drain State.drainWord
  rw [hnone]

theorem drain_retire {u : State} (h : ∀ p ∈ (u.tile tile).park, p.off ≠ off) (t : Nat) (y : Thread) : (u.retire t y).drain tile off = u.retire t y :=
  drain_of_unparked h

theorem tile_congr {u : State} (h : u.tiles = s.tiles) (k : Nat) : u.tile k = s.tile k := by
  unfold State.tile
  rw [h]

/-! ## The accesses -/

/-- An access to a sound resident line is applied in its issue cycle (R155). -/
theorem ownAccess_done {y : Thread} {i : Instr} {what : StashOp} {f : State → Thread → Word → Bool → State} {park : State → Thread → State} {v : State}
    {old : Word} {ok : Bool} (hl : s.stashLine? (tileOf y.home) (off / 128) = some l) (hsound : l.poison = false)
    (happly : s.applyStash (tileOf y.home) off what (y.clockFor what) va = (.done old ok, v)) :
    s.ownAccess t y i off va what f park = (f v (y.raise (v.stampOf (tileOf y.home) off)) old ok).drain (tileOf y.home) off := by
  unfold State.ownAccess State.resident
  dsimp only
  rw [hl]
  dsimp only
  rw [hsound, happly]
  rfl

theorem stampOf_eq (hl : s.stashLine? tile (off / 128) = some l) : s.stampOf tile off = l.stamp := by
  unfold State.stampOf
  rw [hl]

/-- A load of a resident line. -/
theorem load_own {i : Instr} {ld : LoadInto} (h : OwnLine s th ld.va ld.n off l) (hn : ld.n ∣ 8) (hclear : Clear s t th (.own off) ld.va ld.n)
    (len : Nat) (regs : List Reg) :
    s.load t (th.noted len regs) i ld =
      (s.landLoad t (accessing th len (th.noted len regs).usedShared th.usedLocal th.x th.e th.lastTag (maxW th.lts l.stamp) (maxW th.ltsSeen l.stamp)) ld
        (widened ld.n ld.signed (numberAt s (stashKey (tileOf th.home) off) ld.n)) false).drain (tileOf th.home) off := by
  have hcheck := check_own h hn len regs false
  obtain ⟨-, -, -, hl, -, hsound, -, -⟩ := h
  have h8 : ld.n ≤ 8 := Nat.le_of_dvd (by decide) hn
  have hpos : 0 < ld.n := Nat.pos_of_dvd_of_pos hn (by decide)
  have hdone := ownAccess_done (t := t) (y := th.noted len regs) (i := i) (what := .load ld.n) (va := ld.va)
    (f := fun s th v _ => s.landLoad t th ld (ld.value (bytesOf v.toNat ld.n)) false) (park := fun s th => s.setThread t th) hl hsound rfl
  unfold State.load State.access
  rw [hcheck]
  refine (if_neg (not_overlap hclear len regs)).trans (hdone.trans ?_)
  rw [← value_word s _ hpos h8, show (th.noted len regs).home = th.home from rfl, stampOf_eq hl]
  rfl

/-- The machine after a store to a resident line. -/
def afterStore (s : State) (tile off : Nat) (bs : List Byte) : State :=
  { s.stashWrite tile off bs with nextOp := (s.stashWrite tile off bs).nextOp + 1 }

theorem stashLine?_stashWrite (hl : s.stashLine? tile (off / 128) = some l) (bs : List Byte) :
    (s.stashWrite tile off bs).stashLine? tile (off / 128) = some { l with dirty := true } := by
  obtain ⟨-, -, -, hstash, -, hguests, -⟩ := (stashWrite_eq hl bs).unchanged
  exact (stashLine?_congr hstash hguests tile (off / 128)).trans (stashLine?_bytesPut hl bs)

/-- A store to a resident line. -/
theorem store_own {i : Instr} {v : Word} (h : OwnLine s th va n off l) (hn : n ∣ 8) (hclear : Clear s t th (.own off) va n) (len : Nat) (regs : List Reg) :
    s.store t (th.noted len regs) i va n v =
      ((afterStore s (tileOf th.home) off (bytesOf v.toNat n)).retire t
        (accessing th len (th.noted len regs).usedShared th.usedLocal th.x th.e (nextTag th.lastTag) (maxW th.lts l.stamp) (maxW th.ltsSeen l.stamp))).drain
          (tileOf th.home) off := by
  have hcheck := check_own h hn len regs true
  obtain ⟨-, -, -, hl, -, hsound, -, -⟩ := h
  have hdone := ownAccess_done (t := t) (y := th.noted len regs) (i := i) (what := .store n v) (va := va)
    (f := fun s th _ _ => let (s, th) := s.tagNow t th va n; s.retire t th) (park := fun s th => s.setThread t th) hl hsound rfl
  unfold State.store State.access
  rw [hcheck]
  refine (if_neg (not_alias (unaliased_of_clear hclear) len regs)).trans (hdone.trans ?_)
  rw [show (th.noted len regs).home = th.home from rfl, stampOf_eq (stashLine?_stashWrite hl _)]
  rfl

theorem tiles_result (s : State) (t : Nat) (y : Thread) (d : Reg) (v : Word) : (s.result t y d v).tiles = s.tiles := by
  have k := congrArg State.tiles (State.writeReg_device s y d v)
  exact k

/-- The machine u with those fields of s that a store to the stash may change. -/
def restored (s u : State) : State :=
  { u with threads := s.threads, banks := s.banks, kWrites := s.kWrites, mem := s.mem, stash := s.stash, agenda := s.agenda, fresh := s.fresh, seq := s.seq
           peerAnswers := s.peerAnswers, nextOp := s.nextOp, tagged := s.tagged }

/-- Beside memory and the line, only messages tell the machine from what it was. -/
theorem restored_of_messagesOnly {v : State} {bs : List Byte} (h : MessagesOnly (bytesPut s tile off bs l) v) (k : Nat) :
    restored s { v with nextOp := k } = s := by
  have hback := congrArg (restored s) h
  exact hback

/-- What a store to a resident line changes of the device (R104). -/
theorem afterStore_facts (hl : s.stashLine? tile (off / 128) = some l) (v : Word) (n : Nat) :
    let u := afterStore s tile off (bytesOf v.toNat n)
    Stored s u (stashKey tile off) n v ∧ SameButStash s u tile (off / 128) { l with dirty := true } ∧ u.tagged = s.tagged ∧ u.banks = s.banks ∧
      u.threads = s.threads ∧ u.tiles = s.tiles := by
  have hmessages := stashWrite_eq hl (bytesOf v.toNat n)
  have hline := stashLine?_stashWrite hl (bytesOf v.toNat n)
  unfold afterStore
  generalize s.stashWrite tile off (bytesOf v.toNat n) = w at hmessages hline
  obtain ⟨hthreads, hbanks, hmem, hstash, htiles, -, htagged⟩ := hmessages.unchanged
  refine ⟨stored_writeMem hmem, ⟨hline, fun j hj => ?_, restored_of_messagesOnly hmessages _⟩, htagged, hbanks, hthreads, htiles⟩
  show KMap.get? w.stash j = _
  rw [hstash]
  exact KMap.get?_set_ne _ _ hj

end

/-! ## The statements -/

/-- Settles O13: the resident line's bytes land in the register, and the clock rises to its stamp. -/
theorem stashLoads : Obligations.StashLoads := by
  intro s t th d a b m d4 e m7 h
  have hissue : th.replay = false := h.2.2.2.2
  refine ⟨fun f hf off l hat hclear => ?_, fun off l hat hclear => ?_⟩
  · obtain ⟨hline, hpark⟩ := hat
    obtain ⟨hn, regs, hexec⟩ := loadsAs_of_mem h d a b m d4 m7 f hf
    rw [load_own hline hn hclear, landLoad_reg _ rfl, drain_of_unparked (by rw [tile_congr (tiles_result ..)]; exact hpark)] at hexec
    obtain ⟨x, hth, hd, hregs, hshared, hothers, hdevice⟩ := result_accessing (s := s) (t := t) hissue f.i.len (th.noted f.i.len regs).usedShared
      th.usedLocal (maxW th.lts l.stamp) (maxW th.ltsSeen l.stamp) f.d (widened f.n f.signed (numberAt s (stashKey (tileOf th.home) off) f.n))
    obtain ⟨-, -, -, hlts⟩ := accessing_fields th f.i.len (th.noted f.i.len regs).usedShared th.usedLocal x th.e th.lastTag (maxW th.lts l.stamp)
      (maxW th.ltsSeen l.stamp)
    exact ⟨_, _, hexec, hth, hd, hregs, hlts, goesOn_accessing .., sameRest_accessing_x_lts .., hshared, hothers, hdevice⟩
  · obtain ⟨hline, hpark⟩ := hat
    obtain ⟨hn, regs, hexec⟩ := loadsAs_xld h e a m
    rw [load_own hline hn hclear, landLoad_ext rfl, drain_retire hpark, widened_word] at hexec
    obtain ⟨hx, he, -, hlts⟩ := accessing_fields th 4 (th.noted 4 regs).usedShared th.usedLocal th.x
      (th.e.set e.toNat (BitVec.ofNat 64 (numberAt s (stashKey (tileOf th.home) off) 8))) th.lastTag (maxW th.lts l.stamp) (maxW th.ltsSeen l.stamp)
    exact becomes_set _ _ hexec _ ⟨he, hx, hlts, goesOn_accessing .., sameRest_accessing_e_lts ..⟩

/-- Settles O14: the store is applied in its issue cycle, and what else it does is to send the signals of the line's monitors. -/
theorem stashStores : Obligations.StashStores := by
  intro s t th d a b m d4 e m7 h f hf off l hat hclear
  obtain ⟨hline, hpark⟩ := hat
  obtain ⟨hn, regs, hexec⟩ := exec_of_mem h d a b m d4 e m7 f hf
  have hl : s.stashLine? (tileOf th.home) (off / 128) = some l := by
    obtain ⟨-, -, -, hl, -⟩ := hline
    exact hl
  obtain ⟨hstored, hstash, htagged, hbanks, hthreads, htiles⟩ := afterStore_facts hl f.v f.n
  rw [store_own hline hn hclear, drain_retire (by rw [tile_congr htiles]; exact hpark)] at hexec
  generalize afterStore s (tileOf th.home) off (bytesOf f.v.toNat f.n) = u at hexec hstored hstash htagged hbanks hthreads
  obtain ⟨hx, -, htag, hlts⟩ := accessing_fields th f.i.len (th.noted f.i.len regs).usedShared th.usedLocal th.x th.e (nextTag th.lastTag)
    (maxW th.lts l.stamp) (maxW th.ltsSeen l.stamp)
  refine ⟨_, _, hexec, State.retire_thread? _ _ _, hstored, hstash, htagged, htag.trans (nextTag_eq _), hlts, hx, goesOn_accessing ..,
    sameRest_accessing_tag_lts .., fun c g k => ?_, fun t' ht => ?_⟩
  · show u.kread c g k = s.kread c g k
    simp only [State.kread, State.bank, hbanks]
  · exact (sameOthers_setThread u t _ t' ht).trans (congrArg (KMap.get? · t') hthreads)

end Sys2Proof.Proofs
end

