-- ==== Sys2Proof/Proofs/DoubleEntry.lean ====
section
/-!
PROOFS. A REAP (R83) in a state whose table of threads lists one thread twice, which no run reaches but the statement admits.
-/

namespace Sys2Proof.Proofs

open Sys2Proof Sys2Proof.Machine Sys2Proof.Claims

/-- Context zero of a core, about to reap the thread in slot 1. -/
def reaper : Thread := Thread.start 0 0 0 0 0 none ((Vector.replicate 32 0).set 8 1) 0x10000 0 0 false 0x20000

/-- The halted thread in slot 1. -/
def haltedThread : Thread := { Thread.start 1 0 0 0 0 (some 0) (Vector.replicate 32 0) 0x10000 0 0 false 0x20000 with halted := true }

/-- A saved thread of the core that waits for slot 1. -/
def savedTwin : Thread := { Thread.start 1 0 0 0 0 (some 0) (Vector.replicate 32 0) 0x30000 0 0 false 0x20000 with place := none }

/-- The reaper is listed as thread 0, and behind it the saved thread as thread 0 again. -/
def doubleEntry : State := { State.reset with threads := [(0, reaper), (1, haltedThread), (0, savedTwin)] }

theorem doubleEntry_issues : Issuing doubleEntry 0 reaper := ⟨rfl, rfl, rfl, rfl, rfl⟩

/-- What REAP's premises ask for: the register names slot 1, whose thread is the halted one. -/
theorem doubleEntry_reaps : slotIn reaper.home = 0 ∧ doubleEntry.quotaOf reaper ≤ 1 ∧ (doubleEntry.readReg reaper (.x 8)).toNat = 1 ∧
    doubleEntry.threads.find? (fun p => p.2.home == coreOf reaper.home * 16 + 1 && p.2.guest == reaper.guest) = some (1, haltedThread) ∧
    doubleEntry.outstanding 1 = [] := by decide

/-- The freed slot lets the saved thread in, which then stands as thread 0 where the reaper stood. -/
theorem doubleEntry_goesTo : ∃ u, exec (.reap (.x 9) (.x 8)) doubleEntry = .next u ∧ (u.thread? 0).map Thread.pc = some 0x30000 := ⟨_, rfl, by decide⟩

/-- Refutes O8: the statement of REAP does not ask that the table of threads lists each thread once. Where it lists the reaper twice, the slot that
REAP frees goes to the second entry, and thread 0 stands at that entry's address and not at the word after the REAP. -/
theorem not_spawnOutcomes : ¬ Obligations.SpawnOutcomes := by
  rintro ⟨-, -, hreaping⟩
  obtain ⟨hslot, hquota, hreg, hfind, hout⟩ := doubleEntry_reaps
  have hspec := hreaping doubleEntry 0 reaper (.x 9) (.x 8) doubleEntry_issues hslot
  dsimp only at hspec
  rw [hreg] at hspec
  obtain ⟨hdead, -, -⟩ := hspec hquota (by decide)
  obtain ⟨u, th', hexec, hth, -, -, -, -, -, ⟨hpc, -, -⟩, -⟩ := hdead 1 haltedThread (by decide) hfind rfl hout
  obtain ⟨v, hexec', hpc'⟩ := doubleEntry_goesTo
  obtain rfl : u = v := Host.Outcome.next.inj (hexec.symm.trans hexec')
  rw [hth] at hpc'
  have hgoes : th'.pc = 0x10004 := congrArg Prod.fst hpc
  rw [Option.map_some, hgoes] at hpc'
  exact absurd hpc' (by decide)

end Sys2Proof.Proofs
end

