-- ==== Sys2Proof/Proofs/WideRefusal.lean ====
section
/-!
PROOFS. A load's reply that brings an error (R151, R297), whose structure code is beyond TRAPC's field.
-/

namespace Sys2Proof.Proofs

open Sys2Proof Sys2Proof.Machine Sys2Proof.Claims

/-! ## A load that fails

A home, a holder or a declined page answers a load with the trap that its thread takes at the waiting instruction. TRAPC's DETAIL has 16 bits
(R288), so the trap's detail stands there modulo 2 ^ 16. The statement takes details of any size. -/

/-- The event carries out `State.loadReplied`. -/
theorem exec_loadReply_event (s : State) (r : LoadReply) :
    exec (Event.loadReply r).instr { s with event := some (.loadReply r) } = .next (({ s with event := none } : State).loadReplied r) := rfl

theorem thread?_closePeer (s : State) (rid t : Nat) : (s.closePeer rid).thread? t = s.thread? t := by
  unfold State.closePeer
  split <;> rfl

/-- A thread that waits for a load traps where it waits, with what the reply says of the error. -/
theorem loadReplied_error {s : State} {t : Nat} {th : Thread} {l : LoadInto} {r : LoadReply} {e : Refused} (hth : s.thread? t = some th)
    (hwait : th.wait = .load r.rid l) (hwho : r.who = .thread t) (herr : r.err = some e) :
    s.loadReplied r = (s.closePeer r.rid).trapHere t th e.cause e.detail (some e.addr) := by
  have hawaited : th.wait.expects r.rid = true := by simp [hwait, Wait.expects]
  simp only [State.loadReplied, hwho, thread?_closePeer, hth, State.threadReply, herr, hawaited, if_true]

/-- One with a handler enters it, with the fields that TRAPC keeps of the cause and the detail. -/
theorem loadReplied_error_trapc {s : State} {t : Nat} {th : Thread} {l : LoadInto} {r : LoadReply} {e : Refused} (hth : s.thread? t = some th)
    (hhandler : HasHandler th) (hwait : th.wait = .load r.rid l) (hwho : r.who = .thread t) (herr : r.err = some e) :
    ((s.loadReplied r).thread? t).map Thread.trapc = some (trapcOf e.cause e.detail) := by
  rw [loadReplied_error hth hwait hwho herr, State.trapHere, takeTrap_enters _ _ hhandler, State.thread?_setThread_self]
  rfl

/-! ## The refutation -/

/-- A thread with a handler that waits for the bytes of a load. -/
def loadingThread : Thread :=
  { Thread.start 0 0 0 0 0 none (Vector.replicate 32 0) 0x10000 0 0 false 0x20000 with
    wait := .load 44 { dst := .reg (.x 9), n := 8, signed := false, va := 0x40000 } }

/-- An uncorrectable error at the line, under a structure code that needs 17 bits, and the reply that brings it. -/
def wideError : Refused := { cause := causeUncorrectable, detail := 2 ^ 16, addr := 0x40000 }
def wideReply : LoadReply :=
  { who := .thread 0, rid := 44, line := lineOf 0x40000, data := [], wts := 0, rts := 0, kind := .core, err := some wideError }

/-- The machine with that thread and nothing else in it. -/
def awaitingLoad : State := { State.reset with threads := [(0, loadingThread)] }

theorem loadingThread_hasHandler : HasHandler loadingThread := ⟨by decide, by decide⟩

/-- Refutes O46: a home answers a load with a structure code of 2 ^ 16 as the detail of its error; the statement's TRAPC has bit 32 set for it,
where the model keeps the detail's low 16 bits (R288). -/
theorem not_memoryEvents : ¬ Obligations.MemoryEvents := by
  unfold Obligations.MemoryEvents
  rintro ⟨-, hmessages, -⟩
  obtain ⟨-, hfailed, -⟩ := hmessages awaitingLoad 0 loadingThread rfl rfl
  obtain ⟨u, hu, th', hth, ⟨-, htrapc, -⟩, -⟩ := hfailed 44 _ wideReply wideError rfl rfl rfl rfl loadingThread_hasHandler
  obtain rfl := Host.Outcome.next.inj ((exec_loadReply_event awaitingLoad wideReply).symm.trans hu)
  have hkept := loadReplied_error_trapc (s := { awaitingLoad with event := none }) (r := wideReply) rfl loadingThread_hasHandler rfl rfl rfl
  rw [hth, Option.map_some, htrapc] at hkept
  exact absurd hkept (by decide)

end Sys2Proof.Proofs
end

