-- ==== Sys2Proof/Proofs/Reset.lean ====
section
/-!
PROOFS. The state right after reset (R119, R228, R269, R281, R310, R332, R333, R371).
-/

namespace Sys2Proof.Proofs

open Sys2Proof Sys2Proof.Machine Sys2Proof.Claims

/-- No tile is listed, so that every guest's share of every tile has GQOS's reset value (R281). -/
theorem reset_gqos (tile : Nat) (g : BitVec 8) : ((State.reset.tile tile).guest g).gqos = .init := rfl

/-- No format region is listed, so that each has its reset value (R228). -/
theorem reset_region (die n : Nat) : State.reset.region die n = .init := rfl

theorem reset_orderly : State.reset.Orderly := rfl
theorem reset_canonical : State.reset.Canonical := ⟨State.wf_reset, reset_orderly⟩

/-- No thread, launch, armed record or event is there whose code could start elsewhere than at a halfword. -/
theorem reset_halfwords : State.reset.Halfwords :=
  ⟨fun _ h => absurd h List.not_mem_nil, fun _ h => absurd h List.not_mem_nil, fun _ h => absurd h List.not_mem_nil,
    fun _ h => absurd h List.not_mem_nil⟩

/-- Settles O57: the registers are fields of the reset state, and what its collections do not list has its reset value or is not there. -/
theorem resetValues : Obligations.ResetValues :=
  ⟨rfl, rfl, rfl, rfl, rfl, rfl, rfl, reset_gqos, reset_region, rfl, reset_canonical, reset_halfwords, reset_orderly⟩

end Sys2Proof.Proofs
end

