-- ==== Sys2Proof/Proofs/RefusedAccesses.lean ====
section
/-!
PROOFS. The accesses that a check of R122 refuses at their issue, and the order of the checks (R108, R122, R123).
-/

namespace Sys2Proof.Proofs

open Sys2Proof Sys2Proof.Machine Sys2Proof.Claims

section
variable {s : State} {t : Nat} {th : Thread} {va : Word}

/-! ## The checks, each where those before it pass -/

/-- Step 1: alignment. -/
theorem check_misaligned {y : Thread} {a : Ask} (h : va.toNat % a.align ≠ 0) : s.check y va a = (.trap causeMisaligned 0, s) := if_pos h

/-- Step 2: the space. -/
theorem check_outside {y : Thread} {a : Ask} (halign : va.toNat % a.align = 0) (h : s.spaceOk y.guest va a.n = false) :
    s.check y va a = (.trap causeProtection 2, s) := by
  unfold State.check
  rw [if_neg (not_not.mpr halign), h]
  rfl

/-- Step 3: the kind. -/
theorem check_kind {y : Thread} {a : Ask} (halign : va.toNat % a.align = 0) (hspace : s.spaceOk y.guest va a.n = true)
    (h : a.kind (s.spaceOf va) = false) : s.check y va a = (.trap causeProtection 3, s) := by
  unfold State.check
  rw [if_neg (not_not.mpr halign), hspace, h]
  rfl

/-- Step 5, in the own stash: the bank's owner and the thread's mask (R108). -/
theorem check_guard {y : Thread} {a : Ask} (halign : va.toNat % a.align = 0) (hspace : s.spaceOk y.guest va a.n = true) (hown : s.spaceOf va = .own)
    (hkind : a.kind .own = true) (h : y.stashm.getLsbD (stashOff va / 4096) = false) : s.check y va a = (.trap causeProtection 5, s) := by
  unfold State.check
  rw [if_neg (not_not.mpr halign), hspace, hown, hkind, h, Bool.and_false]
  rfl

/-- An access that a check refuses traps at its address. -/
theorem access_trap {y : Thread} {i : Instr} {a : Ask} {f : State → Thread → Target → State} {cause detail : Nat}
    (h : s.check y va a = (.trap cause detail, s)) : s.access t y i va a f = s.trapHere t y cause detail (some va) := by
  unfold State.access
  rw [h]

/-! ## The spaces of R99 -/

/-- The bounds of the reserved spaces among the values of an address's top byte. -/
def ReservedTop (x : Nat) : Prop := (1 ≤ x ∧ x < 0x40) ∨ (0x83 ≤ x ∧ x < 0xC0)

theorem spaceOf_reserved (h : ReservedTop (topByte va)) : s.spaceOf va = .reserved := by
  unfold ReservedTop at h
  unfold State.spaceOf
  dsimp only
  rw [if_neg (by omega), if_neg (by omega), if_neg (by omega), if_neg (by omega), if_neg (by omega), if_neg (by omega)]

theorem spaceOk_reserved (h : ReservedTop (topByte va)) (g : BitVec 8) (n : Nat) : s.spaceOk g va n = false := by
  unfold State.spaceOk
  rw [spaceOf_reserved h]

/-- An address of local store: its fields, and where its bytes stay below the bound. -/
theorem localVa_fields {off : Nat} (hoff : off < 2 ^ 56) : (localVa off).toNat = 0x82 * 2 ^ 56 + off ∧ s.spaceOf (localVa off) = .loc ∧
    ∀ g n, s.spaceOk g (localVa off) n = decide (off + max 1 n ≤ 512) := by
  obtain ⟨hnat, htop, hlow⟩ := address_fields (base := 0x82) (by decide) hoff
  have hspace : s.spaceOf (localVa off) = .loc := spaceOf_loc htop
  refine ⟨hnat, hspace, fun g n => ?_⟩
  unfold State.spaceOk
  rw [hspace, show low56 (localVa off) = off from hlow]
  rfl

/-- An address of the own stash, likewise. -/
theorem ownVa_fields {off : Nat} (hoff : off < 2 ^ 17) : (ownVa off).toNat = 0x80 * 2 ^ 56 + off ∧ s.spaceOf (ownVa off) = .own ∧
    stashOff (ownVa off) = off ∧ low56 (ownVa off) = off ∧ ∀ g n, s.spaceOk g (ownVa off) n = decide (off + max 1 n ≤ 2 ^ 17) := by
  obtain ⟨hnat, htop, hlow⟩ := address_fields (base := 0x80) (off := off) (by decide) (by omega)
  have hspace : s.spaceOf (ownVa off) = .own := spaceOf_own htop
  refine ⟨hnat, hspace, ?_, hlow, fun g n => ?_⟩
  · rw [stashOff, show (ownVa off).toNat = 0x80 * 2 ^ 56 + off from hnat]
    omega
  · unfold State.spaceOk
    rw [hspace, show low56 (ownVa off) = off from hlow]

/-! ## Loads and stores -/

/-- Every check of n aligned bytes at va, as a load or a store of the thread makes it, answers a trap. -/
def CheckTraps (s : State) (th : Thread) (va : Word) (n cause detail : Nat) : Prop :=
  ∀ len regs write, s.check (th.noted len regs) va { n := n, align := n, kind := kindData, write := write } = (.trap cause detail, s)

/-- A load or a store whose check answers a trap takes it. -/
theorem traps_of_checkTraps (h : Issuing s t th) (hh : HasHandler th) (d a b : Reg) (m : BitVec 10) (d4 e : BitVec 4) (m7 : BitVec 7) {f : Form}
    (hf : f ∈ loadForms s th d a b m d4 m7 ++ storeForms s th d a b m d4 e m7) {cause detail : Nat} (hcheck : CheckTraps s th f.va f.n cause detail)
    (hc : cause < 256) (hd : detail < 65536) : Traps s t th f.i cause detail (some f.va) := by
  rcases List.mem_append.mp hf with hload | hstore
  · obtain ⟨-, regs, hexec⟩ := loadsAs_of_mem h d a b m d4 m7 f hload
    refine traps_here hh f.i f.i.len regs cause detail _ (hexec.trans ?_) hc hd
    rw [State.load, access_trap (hcheck _ _ _)]
  · obtain ⟨-, regs, hexec⟩ := exec_of_mem h d a b m d4 e m7 f hstore
    refine traps_here hh f.i f.i.len regs cause detail _ (hexec.trans ?_) hc hd
    rw [State.store, access_trap (hcheck _ _ _)]

theorem width_of_form (h : Issuing s t th) (d a b : Reg) (m : BitVec 10) (d4 e : BitVec 4) (m7 : BitVec 7) {f : Form}
    (hf : f ∈ loadForms s th d a b m d4 m7 ++ storeForms s th d a b m d4 e m7) : f.n ∣ 8 :=
  (List.mem_append.mp hf).elim (fun hload => (loadsAs_of_mem h d a b m d4 m7 f hload).1) (width_of_mem d a b m d4 e m7 f)

theorem checkTraps_misaligned {n : Nat} (h : va.toNat % n ≠ 0) : CheckTraps s th va n 3 0 := fun _ _ _ => check_misaligned h

theorem checkTraps_reserved {n : Nat} (halign : va.toNat % n = 0) (h : ReservedTop (topByte va)) : CheckTraps s th va n 4 2 :=
  fun _ _ _ => check_outside halign (spaceOk_reserved h _ n)

theorem checkTraps_past_local {n off : Nat} (hn : n ∣ 8) (halign : off % n = 0) (hlow : 512 ≤ off) (hoff : off < 2 ^ 56) :
    CheckTraps s th (localVa off) n 4 2 := by
  obtain ⟨hnat, -, hok⟩ := localVa_fields (s := s) hoff
  exact fun _ _ _ => check_outside (by rw [hnat]; exact add_mod_of_dvd hn halign) (by rw [hok]; exact decide_eq_false (by omega))

theorem checkTraps_masked {n off : Nat} (hn : n ∣ 8) (halign : off % n = 0) (hbound : off + n ≤ 2 ^ 17) (hmask : th.stashm.getLsbD (off / 4096) = false) :
    CheckTraps s th (ownVa off) n 4 5 := by
  have hpos : 0 < n := Nat.pos_of_dvd_of_pos hn (by decide)
  obtain ⟨hnat, hspace, hoffset, -, hok⟩ := ownVa_fields (s := s) (off := off) (by omega)
  exact fun _ _ _ => check_guard (by rw [hnat]; exact add_mod_of_dvd hn halign) (by rw [hok]; exact decide_eq_true (by dsimp only; omega)) hspace rfl
    (by rw [hoffset]; exact hmask)

/-! ## Atomics, gathers and constant loads -/

theorem widthBytes_dvd (wd : Width) : widthBytes wd ∣ 8 := by cases wd <;> decide

/-- An atomic whose check answers a trap takes it. -/
theorem amoAdd_traps (h : Issuing s t th) (hh : HasHandler th) (wd : Width) (d a b : Reg) {cause detail : Nat}
    (hcheck : ∀ len regs, s.check (th.noted len regs) (s.readReg th a) { n := widthBytes wd, align := widthBytes wd, kind := kindAmo, write := true } =
      (.trap cause detail, s)) (hc : cause < 256) (hd : detail < 65536) :
    Traps s t th (.amoAdd wd d a b) cause detail (some (s.readReg th a)) := by
  obtain ⟨-, -, regs, hexec⟩ := isAtomic_amo (s := s) (t := t) (th := th) (d := d) (a := a) (b := b) (wd := wd) (op := .add) (i := .amoAdd wd d a b) rfl rfl
  refine traps_here hh _ 4 regs cause detail _ ((hexec (.inl h)).trans ?_) hc hd
  rw [State.atomic, access_trap (hcheck _ _)]

/-- A gather reduction checks the alignment of its base before anything else. -/
theorem gredAdd_misaligned (h : Issuing s t th) (hh : HasHandler th) (wd : Width) (d a b : Reg) (halign : (s.readReg th a).toNat % widthBytes wd ≠ 0) :
    Traps s t th (.gredAdd wd d a b) 3 0 (some (s.readReg th a)) := by
  refine traps_of_onThread h hh [d, a, b] _ (show exec (.gredAdd wd d a b) s = gred (.gredAdd wd d a b) .add wd d a b s from rfl) ?_ (by decide) (by decide)
  dsimp only
  rw [readReg_noted, if_pos halign]
  rfl

/-- A constant load of local store: the space and its bound are right, the kind is not (R123, R125). -/
theorem ldcD_local (h : Issuing s t th) (hh : HasHandler th) (d a : Reg) (m : BitVec 10) {off : Nat} (hva : addrOf s th a m = localVa off)
    (halign : off % 8 = 0) (hbound : off + 8 ≤ 512) : Traps s t th (.ldcD d a m) 4 3 (some (addrOf s th a m)) := by
  obtain ⟨hnat, hspace, hok⟩ := localVa_fields (s := s) (off := off) (by omega)
  refine traps_of_onThread h hh [d, a] _ (show exec (.ldcD d a m) s = ldC (.ldcD d a m) d a m 8 true s from rfl) ?_ (by decide) (by decide)
  have hnat8 : ¬ (localVa off).toNat % 8 ≠ 0 := by omega
  have hok8 : ¬ (!s.spaceOk (th.noted 4 [d, a]).guest (localVa off) 8) = true := by
    rw [hok, decide_eq_true (show off + max 1 8 ≤ 512 by omega)]
    decide
  unfold State.loadConst
  dsimp only
  rw [addrM_noted, hva, if_neg hnat8, if_neg hok8, if_pos (by rw [hspace]; decide)]
  rfl

end

/-! ## The statement -/

/-- Settles O15: each check answers its trap where those before it pass, and an access ends with its check's trap. -/
theorem accessChecks : Obligations.AccessChecks := by
  intro s t th d a b m d4 e m7 wd h hh reserved n va
  have hwidth : n = widthBytes wd := by cases wd <;> rfl
  refine ⟨fun f hf => ⟨fun halign => ?_, fun halign hres => ?_, fun off hva halign hlow hoff => ?_, fun off hva halign hbound hmask => ?_⟩,
    fun halign => ⟨?_, ?_⟩, fun off hva halign hbound => ?_, fun off => ldcD_local h hh d a m⟩
  · exact traps_of_checkTraps h hh d a b m d4 e m7 hf (checkTraps_misaligned halign) (by decide) (by decide)
  · exact traps_of_checkTraps h hh d a b m d4 e m7 hf (checkTraps_reserved halign hres) (by decide) (by decide)
  · have hn := width_of_form h d a b m d4 e m7 hf
    exact traps_of_checkTraps h hh d a b m d4 e m7 hf (hva ▸ checkTraps_past_local hn halign hlow hoff) (by decide) (by decide)
  · have hn := width_of_form h d a b m d4 e m7 hf
    exact traps_of_checkTraps h hh d a b m d4 e m7 hf (hva ▸ checkTraps_masked hn halign hbound hmask) (by decide) (by decide)
  · exact amoAdd_traps h hh wd d a b (fun _ _ => check_misaligned (hwidth ▸ halign)) (by decide) (by decide)
  · exact gredAdd_misaligned h hh wd d a b (hwidth ▸ halign)
  · rw [hwidth] at halign hbound
    obtain ⟨hnat, hspace, hok⟩ := localVa_fields (s := s) (off := off) (by omega)
    have hpos : 0 < widthBytes wd := Nat.pos_of_dvd_of_pos (widthBytes_dvd wd) (by decide)
    refine amoAdd_traps h hh wd d a b (fun _ _ => check_kind ?_ ?_ ?_) (by decide) (by decide) <;> rw [show s.readReg th a = localVa off from hva]
    · rw [hnat]
      exact add_mod_of_dvd (widthBytes_dvd wd) halign
    · rw [hok]
      exact decide_eq_true (by dsimp only; omega)
    · rw [hspace]
      rfl

end Sys2Proof.Proofs
end

