-- ==== Sys2Proof/Proofs/OwnAtomics.lean ====
section
/-!
PROOFS. Atomics on a resident word of the own stash (R126, R136, R137, R139, R155).
-/

namespace Sys2Proof.Proofs

open Sys2Proof Sys2Proof.Machine Sys2Proof.Claims

/-! ## The new value of R137 -/

theorem signedOf_eq_toInt {n : Nat} (hn : 0 < n) (w : Nat) : signedOf n w = (BitVec.ofNat n w).toInt := by
  have hpow : 2 ^ n = 2 * 2 ^ (n - 1) := by rw [← Nat.pow_succ']; congr 1; omega
  rw [signedOf, BitVec.toInt_eq_toNat_cond, BitVec.toNat_ofNat]
  by_cases h : w % 2 ^ n < 2 ^ (n - 1)
  · rw [if_pos h, if_pos (by omega)]
  · rw [if_neg h, if_neg (by omega)]

/-- Only the low n bytes of a number are among its n low bytes. -/
theorem bytesOf_mod (w n : Nat) : bytesOf (w % 2 ^ (8 * n)) n = bytesOf w n := by
  induction n generalizing w with
  | zero => rfl
  | succ n ih =>
    have hpow : 2 ^ (8 * (n + 1)) = 256 * 2 ^ (8 * n) := by rw [Nat.mul_succ, Nat.pow_add, Nat.mul_comm]
    have hbyte : w % (256 * 2 ^ (8 * n)) % 2 ^ 8 = w % 2 ^ 8 := Nat.mod_mul_right_mod ..
    rw [bytesOf, bytesOf, hpow, ← ih (w / 256), Nat.mod_mul_right_div_self]
    refine congrArg₂ _ (BitVec.eq_of_toNat_eq ?_) rfl
    rw [BitVec.toNat_ofNat, BitVec.toNat_ofNat, hbyte]

/-- The word that holds an n-byte new value. -/
def newWord (op : AmoOp) (n : Nat) (o b d : BitVec (8 * n)) : Option Word := (amoValue op n o b d).map (BitVec.setWidth 64)

section
variable {n : Nat}

theorem bytesOf_setWidth (hn : 8 * n ≤ 64) (v : BitVec (8 * n)) : bytesOf (v.setWidth 64).toNat n = bytesOf v.toNat n := by
  rw [BitVec.toNat_setWidth_of_le hn]

/-- The bytes that an atomic writes are those of the statement's new value; it writes none where the statement has none. -/
theorem amoNew_bytes (op : AmoOp) (hpos : 0 < n) (hn : 8 * n ≤ 64) {o : Nat} (ho : o < 2 ^ (8 * n)) (b d : Word) :
    (amoNew op n o b.toNat d.toNat).map (bytesOf · n) =
      (newWord op n (BitVec.ofNat _ o) (b.setWidth _) (d.setWidth _)).map (fun v => bytesOf v.toNat n) := by
  have hold : (BitVec.ofNat (8 * n) o).toNat = o := by rw [BitVec.toNat_ofNat, Nat.mod_eq_of_lt ho]
  have hb : (b.setWidth (8 * n)).toNat = b.toNat % 2 ^ (8 * n) := BitVec.toNat_setWidth ..
  have hb_lt : b.toNat % 2 ^ (8 * n) < 2 ^ (8 * n) := Nat.mod_lt _ (Nat.two_pow_pos _)
  have hofNat : BitVec.ofNat (8 * n) (b.toNat % 2 ^ (8 * n)) = b.setWidth (8 * n) := BitVec.eq_of_toNat_eq (by rw [BitVec.toNat_ofNat, hb, Nat.mod_mod])
  have hsigned_b : signedOf (8 * n) (b.toNat % 2 ^ (8 * n)) = (b.setWidth (8 * n)).toInt := by rw [signedOf_eq_toInt (by omega), hofNat]
  have hsigned_o : signedOf (8 * n) o = (BitVec.ofNat (8 * n) o).toInt := signedOf_eq_toInt (by omega) o
  unfold newWord
  cases op with
  | add => simp only [amoNew, amoValue, Option.map_some, bytesOf_setWidth hn, BitVec.toNat_add, hold, hb]
  | and => simp only [amoNew, amoValue, Option.map_some, bytesOf_setWidth hn, BitVec.toNat_and, hold, hb]
  | or => simp only [amoNew, amoValue, Option.map_some, bytesOf_setWidth hn, BitVec.toNat_or, hold, hb]
  | xor => simp only [amoNew, amoValue, Option.map_some, bytesOf_setWidth hn, BitVec.toNat_xor, hold, hb]
  | min =>
    simp only [amoNew, amoValue, Option.map_some, bytesOf_setWidth hn, apply_ite BitVec.toNat, hold, hb, hsigned_b, hsigned_o, ← not_le (b := BitVec.toInt _), ite_not]
  | max =>
    simp only [amoNew, amoValue, Option.map_some, bytesOf_setWidth hn, apply_ite BitVec.toNat, hold, hb, hsigned_b, hsigned_o]
    rcases lt_trichotomy (BitVec.ofNat (8 * n) o).toInt (b.setWidth (8 * n)).toInt with hlt | heq | hgt
    · rw [if_pos hlt, if_pos hlt.le]
    · have hsame := congrArg BitVec.toNat (BitVec.eq_of_toInt_eq heq)
      rw [hold, hb] at hsame
      rw [hsame, ite_self, ite_self]
    · rw [if_neg hgt.not_gt, if_neg hgt.not_ge]
  | minu => simp only [amoNew, amoValue, Option.map_some, bytesOf_setWidth hn, apply_ite BitVec.toNat, hold, hb, Nat.min_def]
  | maxu => simp only [amoNew, amoValue, Option.map_some, bytesOf_setWidth hn, apply_ite BitVec.toNat, hold, hb, Nat.max_def]
  | swap => simp only [amoNew, amoValue, Option.map_some, bytesOf_setWidth hn, hb]
  | cas =>
    have hd : (d.setWidth (8 * n)).toNat = d.toNat % 2 ^ (8 * n) := BitVec.toNat_setWidth ..
    have hiff : BitVec.ofNat (8 * n) o = b.setWidth (8 * n) ↔ o = b.toNat % 2 ^ (8 * n) := by rw [← BitVec.toNat_inj, hold, hb]
    simp only [amoNew, amoValue, hiff]
    split
    · simp only [Option.map_some, bytesOf_setWidth hn, hd]
    · rfl
  | fadd =>
    have hwide : ∀ v : BitVec (8 * n), v.setWidth 64 = BitVec.ofNat 64 v.toNat := fun v => BitVec.eq_of_toNat_eq (by simp)
    simp only [amoNew, amoValue, Option.map_some, bytesOf_setWidth hn]
    simp only [hwide, hold, hb, BitVec.toNat_setWidth, bytesOf_mod]

/-- What d takes (R137): the old value, sign-extended, or zero-extended for FADD. -/
theorem amoResult_eq (hn : n = 4 ∨ n = 8) (op : AmoOp) {o : Nat} (ho : o < 2 ^ (8 * n)) :
    amoResult n (decide (op = .fadd)) (BitVec.ofNat 64 o) =
      if op = .fadd then (BitVec.ofNat (8 * n) o).setWidth 64 else (BitVec.ofNat (8 * n) o).signExtend 64 := by
  rcases hn with rfl | rfl
  · have ho64 : (BitVec.ofNat 64 o).toNat = o := by rw [BitVec.toNat_ofNat, Nat.mod_eq_of_lt (by omega)]
    have hzero : (BitVec.ofNat (8 * 4) o).setWidth 64 = zext 32 o := BitVec.eq_of_toNat_eq (by simp [zext])
    rw [amoResult, if_neg (by decide), ho64, hzero, sext_eq_signExtend 32 o (by decide)]
    by_cases hop : op = .fadd
    · rw [if_pos (decide_eq_true hop), if_pos hop]
    · rw [if_neg (by rw [decide_eq_false hop]; decide), if_neg hop]
  · rw [amoResult, if_pos rfl]
    exact (ite_self (c := op = .fadd) (BitVec.ofNat 64 o)).symm.trans (if_congr Iff.rfl (BitVec.setWidth_eq _).symm (BitVec.signExtend_eq _).symm)

end

/-! ## The access -/

section
variable {s : State} {t : Nat} {th : Thread} {va : Word} {n off : Nat} {l : StashLine}

theorem check_congr_kind {y : Thread} {kind kind' : Space → Bool} {k : Nat} {write : Bool} (h : kind' (s.spaceOf va) = kind (s.spaceOf va)) :
    s.check y va { n := k, align := k, kind := kind', write := write } = s.check y va { n := k, align := k, kind := kind, write := write } := by
  simp only [State.check, h]

/-- The machine with the bytes of an atomic's new value written to a line of a tile's stash, where it has one. -/
def valueWritten (s : State) (tile off n : Nat) : Option Word → State
  | some v => s.stashWrite tile off (bytesOf v.toNat n)
  | none => s

/-- An atomic on a line of the own stash that no format region stands behind (R116, R137). -/
theorem applyStash_atomic {tile : Nat} (hl : s.stashLine? tile (off / 128) = some l) (hregion : s.regionAt (l.line * 128) = none) (op : AmoOp)
    (hpos : 0 < n) (hn : 8 * n ≤ 64) (b d c va : Word) :
    let o := numberAt s (stashKey tile off) n
    let new := newWord op n (BitVec.ofNat _ o) (b.setWidth _) (d.setWidth _)
    s.applyStash tile off (.atomic n op b d) c va = (.done (BitVec.ofNat 64 o) new.isSome, valueWritten s tile off n new) := by
  intro o new
  have hbytes : (amoNew op n o b.toNat d.toNat).map (bytesOf · n) = new.map (fun v => bytesOf v.toNat n) :=
    amoNew_bytes op hpos hn (numberAt_lt s _ n) b d
  have hfree : ¬ (stashAtomicLike (.atomic n op b d) && (s.regionAt (l.line * 128)).isSome) = true := by
    rw [hregion]
    exact Bool.false_ne_true
  unfold State.applyStash
  dsimp only
  rw [hl]
  refine (if_neg hfree).trans ?_
  rw [show s.stashRead tile off n = o from rfl]
  generalize amoNew op n o b.toNat d.toNat = x at hbytes
  cases x with
  | none =>
    rw [Option.map_eq_none_iff.mp hbytes.symm]
    rfl
  | some x =>
    obtain ⟨v, hnew, hv⟩ : ∃ v, new = some v ∧ bytesOf v.toNat n = bytesOf x n := Option.map_eq_some_iff.mp hbytes.symm
    rw [hnew, valueWritten, hv]
    rfl

/-- The machine after an atomic: the tag that it takes is acknowledged at once (R126). -/
def afterAtomic (s : State) (tile off n : Nat) (new : Option Word) : State :=
  { valueWritten s tile off n new with nextOp := (valueWritten s tile off n new).nextOp + 1 }

/-- An atomic that writes a value leaves what a store of it leaves. -/
theorem afterAtomic_some (s : State) (tile off n : Nat) (v : Word) : afterAtomic s tile off n (some v) = afterStore s tile off (bytesOf v.toNat n) := rfl

theorem stampOf_valueWritten {tile : Nat} (hl : s.stashLine? tile (off / 128) = some l) (new : Option Word) :
    (valueWritten s tile off n new).stampOf tile off = l.stamp := by
  cases new with
  | none => exact stampOf_eq hl
  | some v => exact (stampOf_eq (stashLine?_stashWrite hl _)).trans rfl

/-- The thread of an atomic on its own stash, before the old value lands in d. -/
def fetching (th : Thread) (regs : List Reg) (stamp : Word) : Thread :=
  accessing th 4 (th.noted 4 regs).usedShared th.usedLocal th.x th.e (nextTag th.lastTag) (maxW th.lts stamp) (maxW th.ltsSeen stamp)

/-- An atomic on a resident word of the own stash. -/
theorem atomic_own {i : Instr} (h : OwnLine s th va n off l) (hn : n ∣ 8) (hclear : Clear s t th (.own off) va n)
    (hregion : s.regionAt (l.line * 128) = none) (op : AmoOp) (b dv : Word) (d : Reg) (regs : List Reg) :
    let o := numberAt s (stashKey (tileOf th.home) off) n
    s.atomic t (th.noted 4 regs) i va n op b dv d =
      ((afterAtomic s (tileOf th.home) off n (newWord op n (BitVec.ofNat _ o) (b.setWidth _) (dv.setWidth _))).result t (fetching th regs l.stamp) d
        (amoResult n (decide (op = .fadd)) (BitVec.ofNat 64 o))).drain (tileOf th.home) off := by
  intro o
  have hpos : 0 < n := Nat.pos_of_dvd_of_pos hn (by decide)
  have h8 : n ≤ 8 := Nat.le_of_dvd (by decide) hn
  have hown : s.spaceOf va = .own := by
    obtain ⟨hva, hbound, -⟩ := h
    exact hva ▸ spaceOf_own (address_fields (base := 0x80) (off := off) (by decide) (by omega)).2.1
  have hcheck := (check_congr_kind (kind := kindData) (kind' := kindAmo) (by rw [hown]; rfl)).trans (check_own h hn 4 regs true)
  obtain ⟨-, -, -, hl, -, hsound, -, -⟩ := h
  have hdone := ownAccess_done (t := t) (y := th.noted 4 regs) (i := i) (what := .atomic n op b dv) (va := va)
    (f := fun s th v _ => let (s, th) := s.tagNow t th va n; s.result t th d (amoResult n (decide (op = .fadd)) v)) (park := fun s th => s.setThread t th)
    hl hsound (applyStash_atomic hl hregion op hpos (by omega) b dv _ va)
  unfold State.atomic State.access
  rw [hcheck]
  refine (if_neg (not_alias (unaliased_of_clear hclear) 4 regs)).trans (hdone.trans ?_)
  rw [show (th.noted 4 regs).home = th.home from rfl, stampOf_valueWritten hl]
  rfl

/-! ## What it leaves -/

theorem fetching_completes (th : Thread) (regs : List Reg) (stamp : Word) (x : Vector Word 32) :
    let y := (withX (fetching th regs stamp) x).advance
    y.lastTag = tagAfter th.lastTag ∧ y.lts = later th.lts stamp ∧ GoesOn th y 4 ∧
      SameRest th { y with lastTag := th.lastTag, lts := th.lts, ltsSeen := th.ltsSeen } := by
  refine ⟨nextTag_eq _, rfl, goesOn_advance _ _ _ rfl rfl rfl rfl rfl, ?_⟩
  cases th
  rfl

/-- Only threads, shared registers and their notes tell u from v, and u's machine is s's but for what a store to the stash may change. -/
theorem sameButStash_of_sameDevice {u v : State} {tile i : Nat} (h : SameButStash s v tile i l) (k : SameDevice v u) : SameButStash s u tile i l := by
  obtain ⟨hline, hothers, hrest⟩ := h
  have hstash := congrArg State.stash k
  have hguests := congrArg State.guests k
  have hback := congrArg (restored s) k
  exact ⟨(stashLine?_congr hstash hguests tile i).trans hline, fun j hj => (congrArg (KMap.get? · j) hstash).trans (hothers j hj), hback.trans hrest⟩

/-- An atomic leaves threads, shared registers and tiles as they are, and what it writes is written as a store writes it. -/
theorem afterAtomic_facts {tile : Nat} (hl : s.stashLine? tile (off / 128) = some l) (n : Nat) (new : Option Word) :
    let u := afterAtomic s tile off n new
    u.threads = s.threads ∧ u.banks = s.banks ∧ u.tiles = s.tiles ∧
      (∀ v, new = some v → Stored s u (stashKey tile off) n v ∧ SameButStash s u tile (off / 128) { l with dirty := true }) ∧
      (new = none → u.mem = s.mem ∧ u.stash = s.stash) := by
  cases new with
  | none => exact ⟨rfl, rfl, rfl, fun _ h => (nomatch h), fun _ => ⟨rfl, rfl⟩⟩
  | some v =>
    obtain ⟨hstored, hstash, -, hbanks, hthreads, htiles⟩ := afterStore_facts hl v n
    refine ⟨hthreads, hbanks, htiles, fun v' hv => ?_, fun h => (nomatch h)⟩
    obtain rfl := Option.some.inj hv
    exact ⟨hstored, hstash⟩

theorem width_of_amo (wd : Width) (d a b : Reg) : ∀ f ∈ amoForms wd d a b, f.2.2 = 4 ∨ f.2.2 = 8 := by
  simp only [amoForms, List.forall_mem_cons, List.not_mem_nil, false_implies, implies_true, and_true]
  cases wd <;> decide

end

/-! ## The statement -/

/-- Settles O19: the old value lands in d, and the new value of R137, if there is one, is written as a store writes it. -/
theorem stashAtomics : Obligations.StashAtomics := by
  intro s t th d a b wd h f hf off l va n key o new hat hclear hregion
  obtain ⟨hline, hpark⟩ := hat
  have hwidth : n = 4 ∨ n = 8 := width_of_amo wd d a b f hf
  have hn : n ∣ 8 := hwidth.elim (fun hn => hn.dvd.trans (by decide)) (fun hn => hn.dvd)
  obtain ⟨-, -, regs, hexec⟩ := isAtomic_of_mem s t th wd d a b f hf
  have hissue : th.replay = false := h.2.2.2.2
  have hl : s.stashLine? (tileOf th.home) (off / 128) = some l := by
    obtain ⟨-, -, -, hl, -⟩ := hline
    exact hl
  have hrun := (hexec (.inl h)).trans (congrArg Host.Outcome.next (atomic_own hline hn hclear hregion f.2.1 (s.readReg th b) (s.readReg th d) d regs))
  rw [amoResult_eq hwidth f.2.1 (numberAt_lt s _ n)] at hrun
  obtain ⟨hthreads, hbanks, htiles, hwrites, hkeeps⟩ := afterAtomic_facts hl n (new.map (BitVec.setWidth 64))
  have hnew : newWord f.2.1 n o ((s.readReg th b).setWidth (8 * n)) ((s.readReg th d).setWidth (8 * n)) = new.map (BitVec.setWidth 64) := rfl
  rw [hnew] at hrun
  generalize afterAtomic s (tileOf th.home) off n (new.map (BitVec.setWidth 64)) = v at hrun hthreads hbanks htiles hwrites hkeeps
  have hreads : ∀ y r, v.readReg y r = s.readReg y r := fun y r => State.readReg_congr rfl rfl rfl rfl rfl hbanks r
  obtain ⟨x, hth, hd, hregs, hshared, hothers, hdevice⟩ := result_withX (s := v) (t := t) (th := th) (y := fetching th regs l.stamp) hissue rfl rfl
    (fun r => State.readReg_congr rfl rfl rfl rfl rfl rfl r) d (if f.2.1 = .fadd then o.setWidth 64 else o.signExtend 64)
  obtain ⟨htag, hlts, hgoes, hrest⟩ := fetching_completes th regs l.stamp x
  rw [drain_of_unparked (by rw [tile_congr ((tiles_result ..).trans htiles)]; exact hpark)] at hrun
  generalize v.result t (fetching th regs l.stamp) d (if f.2.1 = .fadd then o.setWidth 64 else o.signExtend 64) = u at hrun hth hd hregs hshared hothers hdevice
  have hmem := congrArg State.mem hdevice
  have hstash := congrArg State.stash hdevice
  refine ⟨u, _, hrun, hth, hd, fun r hr => (hregs r hr).trans (hreads th r), fun c g k => ?_, fun w hw => ?_, fun hnone => ?_, htag, hlts, hgoes, hrest,
    fun t' ht => (hothers t' ht).trans (congrArg (KMap.get? · t') hthreads)⟩
  · exact (hshared c g k).imp_right (fun hk => hk.trans (by simp only [State.kread, State.bank, hbanks]))
  · obtain ⟨⟨hin, hout⟩, hsame⟩ := hwrites (w.setWidth 64) (by rw [hw]; rfl)
    exact ⟨⟨fun j hj => (congrArg (Memory.read · _) hmem).trans (hin j hj), fun k hk => (congrArg (Memory.read · _) hmem).trans (hout k hk)⟩,
      sameButStash_of_sameDevice hsame hdevice⟩
  · obtain ⟨hkept, hkept'⟩ := hkeeps (by rw [hnone]; rfl)
    exact ⟨hmem.trans hkept, hstash.trans hkept'⟩

end Sys2Proof.Proofs
end

