-- ==== Sys2Proof/Proofs/TakenNumber.lean ====
section
/-!
PROOFS. A write-back (R132) in a state whose next operation number an outstanding operation bears already, which no run reaches but the statement
admits.
-/

namespace Sys2Proof.Proofs

open Sys2Proof Sys2Proof.Machine Sys2Proof.Claims

/-- A thread that may use bank 0 of its stash and holds an address of it, about to write nothing back. -/
def cleaner : Thread := Thread.start 0 0 0 0 0 none ((Vector.replicate 32 0).set 8 (ownVa 0)) 0x10000 0 1 false 0x20000

/-- Its store to a line of global memory, which awaits its acknowledgement under the number that the next operation takes. -/
def ownStore : Tagged :=
  { op := State.reset.nextOp, tid := 0, launch := 0, tag := 1, va := 0x40000, pa := some 0x40000, key := none, len := 8, left := 1, data := 0
    wb := false, engine := none }

/-- The machine with that thread, that operation, and bank 0 assigned to the thread's guest. -/
def takenNumber : State := { State.reset with threads := [(0, cleaner)], tiles := [(0, { Tile.init with banks := [(0, 0)] })], tagged := [ownStore] }

theorem takenNumber_issues : Issuing takenNumber 0 cleaner := ⟨rfl, rfl, rfl, rfl, rfl⟩

/-- What the statement asks of the operands: an address of the own stash, a count of 0, and the guard of the bank. -/
theorem takenNumber_operands : takenNumber.readReg cleaner (.x 8) = ownVa 0 ∧ takenNumber.readReg cleaner (.x 0) = 0 ∧
    KMap.get? (takenNumber.tile (tileOf cleaner.home)).banks (0 / 4096) = some cleaner.guest ∧ cleaner.stashm.getLsbD (0 / 4096) = true := by decide

/-- SWB marks the operations of its number as write-backs, and so the store. -/
theorem takenNumber_marks : ∃ u, exec (.swb (.x 8) (.x 0)) takenNumber = .next u ∧ u.tagged.map Tagged.wb = [true] := ⟨_, rfl, by decide⟩

/-- Refutes O21: the statement of SWB with a count of 0 says that the outstanding operations stay as they are, and does not ask that the next operation
number is free. Where a store awaits its acknowledgement under that number, SWB marks the store as a write-back. -/
theorem not_stashMapping : ¬ Obligations.StashMapping := by
  intro hmapping
  obtain ⟨hva, hcount, hbank, hmask⟩ := takenNumber_operands
  obtain ⟨-, -, hempty, -⟩ := hmapping takenNumber 0 cleaner (.x 9) (.x 8) (.x 0) takenNumber_issues 0 hva (by decide) hbank hmask
  obtain ⟨u, -, hexec, -, -, -, -, -, -, -, hdevice⟩ := hempty hcount
  obtain ⟨v, hexec', hmarks⟩ := takenNumber_marks
  obtain rfl : u = v := Host.Outcome.next.inj (hexec.symm.trans hexec')
  have hkept : u.tagged.map Tagged.wb = [false] := congrArg (fun s : State => s.tagged.map Tagged.wb) hdevice
  rw [hmarks] at hkept
  exact absurd hkept (by decide)

end Sys2Proof.Proofs
end

