-- ==== Sys2Proof/Proofs/SumMode.lean ====
section
/-!
PROOFS. The events of sum mode at a line's home: declarations, parts and failed merges (R142, R143, R201, R252, R253).
-/

namespace Sys2Proof.Proofs

open Sys2Proof Sys2Proof.Machine Sys2Proof.Claims

/-! ## Answers -/

section
variable {s u v : State}

/-- Messages have left, and none that was on its way is gone. -/
def Delivers (s u : State) : Prop := MessagesOnly s u ∧ s.agenda <+: u.agenda

theorem Delivers.refl (s : State) : Delivers s s := ⟨rfl, List.prefix_rfl⟩

theorem Delivers.trans (h : Delivers s u) (k : Delivers u v) : Delivers s v := ⟨h.1.trans k.1, h.2.trans k.2⟩

theorem Delivers.lines (h : Delivers s u) : u.lines = s.lines := by
  have k := congrArg State.lines h.1
  exact k

theorem Delivers.mem (h : Delivers s u) : u.mem = s.mem := by
  have k := congrArg State.mem h.1
  exact k

theorem Delivers.threads (h : Delivers s u) : u.threads = s.threads := by
  have k := congrArg State.threads h.1
  exact k

theorem Delivers.regionAt (h : Delivers s u) (pa : Nat) : u.regionAt pa = s.regionAt pa := by
  have k := congrArg State.regions h.1
  exact congrArg (fun r => (r.find? (fun p => p.1 / 64 == pa / 2 ^ 36 && p.2.en && p.2.dbase ≤ pa && pa < p.2.dlim)).map (·.2)) k

theorem Delivers.noTable {l : Nat} (h : Delivers s u) (hs : NoTable s l) : NoTable u l := by
  have k := congrArg State.tables h.1
  replace k : u.tables = s.tables := k
  unfold NoTable State.tableEntry State.tableAnchor
  rw [k]
  exact hs

theorem Delivers.line (h : Delivers s u) (l : Nat) : u.line l = s.line l := by rw [State.line, h.lines]; rfl

theorem Delivers.emits {e : Event} {delay : Nat} (h : Delivers u v) (hu : Emits s u delay e) : Emits s v delay e := by
  obtain ⟨p, hp, hwork⟩ := hu
  exact ⟨p, h.2.subset hp, hwork⟩

theorem delivers_foldl {α : Type} {f : State → α → State} (h : ∀ s a, Delivers s (f s a)) (l : List α) (s : State) : Delivers s (l.foldl f s) :=
  List.foldlRecOn (motive := Delivers s) l f (.refl s) (fun _ hu a _ => hu.trans (h _ a))

/-- What need not pay at an egress is on its way at once. -/
theorem delivers_send (s : State) (p : Place) (chan : Nat × Nat) (delay : Nat) {e : Event} (h : s.egress e = none) : Delivers s (s.send p chan delay e) := by
  unfold State.send
  dsimp only
  rw [h]
  exact ⟨rfl, List.prefix_append _ _⟩

theorem emits_send (s : State) (p : Place) (chan : Nat × Nat) (delay : Nat) (e : Event) : Emits s (s.send p chan delay e) delay e := by
  obtain ⟨-, q, hagenda, hq⟩ := send_sent s p chan delay e
  exact ⟨q, by rw [hagenda]; exact List.mem_append_right _ (List.mem_singleton_self q), hq⟩

theorem delivers_signal (s : State) (line delay : Nat) (wts : Word) : Delivers s (s.signal line delay wts) :=
  delivers_foldl (fun s a => by
    split
    · exact delivers_send s _ _ _ rfl
    · exact ⟨rfl, List.prefix_rfl⟩) _ s

theorem delivers_replyStore (s : State) (who : Agent) (core delay op : Nat) (wts : Word) : Delivers s (s.replyStore who core delay op wts) := by
  unfold State.replyStore
  split
  · exact ⟨rfl, List.prefix_rfl⟩
  · exact delivers_send s _ _ _ rfl

theorem delivers_refuseStore (s : State) (who : Agent) (core delay op : Nat) (r : Refused) : Delivers s (s.refuseStore who core delay op r) := by
  unfold State.refuseStore
  split
  · exact ⟨rfl, List.prefix_rfl⟩
  · exact delivers_send s _ _ _ rfl

theorem delivers_replyAtomic (s : State) (who : Agent) (core delay : Nat) (r : AtomicReply) : Delivers s (s.replyAtomic who core delay r) := by
  unfold State.replyAtomic
  split
  · exact ⟨rfl, List.prefix_rfl⟩
  · exact delivers_send s _ _ _ rfl

theorem delivers_replyLoad (s : State) (who : Agent) (core delay : Nat) (r : LoadReply) : Delivers s (s.replyLoad who core delay r) := by
  unfold State.replyLoad
  split
  · exact ⟨rfl, List.prefix_rfl⟩
  · exact delivers_send s _ _ _ rfl

theorem delivers_failLoad (s : State) (a : Access) (k : LoadKind) (r : Refused) : Delivers s (s.failLoad a k r) := by
  unfold State.failLoad
  split
  · exact delivers_send s _ _ _ rfl
  · exact delivers_replyLoad s _ _ _ _

theorem delivers_asOf (s : State) (turn : Nat) {f : State → State} (h : ∀ s, Delivers s (f s)) : Delivers s (s.asOf turn f) := by
  obtain ⟨hmessages, hagenda⟩ := h { s with inTurn := turn }
  refine ⟨?_, hagenda⟩
  have hback := congrArg (fun v : State => { v with inTurn := s.inTurn }) hmessages
  exact hback

end

/-! ## Declarations (R252) -/

section
variable {s : State} {a : Access} {parts : Nat}

/-- The eight lines from a physical address on. -/
def declaredLines (pa : Nat) : List Nat := (List.range 8).map (fun j => lineOf pa + j)

/-- A line as a declaration of so many parts leaves it. -/
def declaredLine (parts : Nat) (h : HomeLine) : HomeLine :=
  match h.sum with
  | some _ => h
  | none => { h.touch false with sum := some { parts := parts, next := 0, acc := [], early := [], top := 0, parked := [] } }

def declareLines (s : State) (parts : Nat) (ls : List Nat) : State := ls.foldl (fun s l => s.modLine l (declaredLine parts)) s

/-- A line that is declared with no part yet. -/
def Declared (parts : Nat) (h : HomeLine) : Prop := ∃ m, h.sum = some m ∧ m.parts = parts ∧ m.next = 0 ∧ m.early = [] ∧ m.parked = []

theorem declared_declaredLine {h : HomeLine} (hl : h.sum = none ∨ Declared parts h) : Declared parts (declaredLine parts h) := by
  unfold declaredLine
  rcases hl with hnone | ⟨m, hsum, hm⟩
  · rw [hnone]
    exact ⟨_, rfl, rfl, rfl, rfl, rfl⟩
  · rw [hsum]
    exact ⟨m, hsum, hm⟩

/-- Every line of the list is declared, and only lines have changed. -/
theorem declareLines_declares (ls : List Nat) {l : Nat} (h : Declared parts (s.line l) ∨ l ∈ ls ∧ (s.line l).sum = none) :
    Declared parts ((declareLines s parts ls).line l) := by
  induction ls generalizing s with
  | nil => exact h.elim id (fun hl => absurd hl.1 List.not_mem_nil)
  | cons k ls ih =>
    refine ih (s := s.modLine k (declaredLine parts)) ?_
    rw [State.modLine, State.line_setLine]
    by_cases hk : l = k
    · subst hk
      rw [if_pos rfl]
      exact .inl (declared_declaredLine (h.elim .inr (fun hl => .inl hl.2)))
    · rw [if_neg hk]
      exact h.imp_right (fun hl => ⟨(List.mem_cons.mp hl.1).resolve_left hk, hl.2⟩)

theorem declareLines_eq (ls : List Nat) : ∃ lines, declareLines s parts ls = { s with lines := lines } := by
  refine List.foldlRecOn (motive := fun u : State => ∃ lines, u = { s with lines := lines }) ls _ ⟨s.lines, rfl⟩ ?_
  rintro u ⟨lines, rfl⟩ l -
  exact ⟨_, rfl⟩

/-- A home that is alive refuses nothing but what reads poison (R298, R301). -/
theorem homeError_alive (h : s.deadDies.contains (homeDie a.pa) = false) : s.homeError a false = none := by
  unfold State.homeError
  rw [h]
  rfl

/-- A declaration of lines that nothing holds, keeps or sums. -/
theorem declareSum_eq (hdie : s.deadDies.contains (homeDie a.pa) = false)
    (h : ∀ j, j < 8 → (s.line (a.pa / 128 + j)).holder = none ∧ s.holding (a.pa / 128 + j) = false ∧ (s.line (a.pa / 128 + j)).sum = none) :
    s.declareSum a parts = (declareLines s parts (declaredLines a.pa)).answerDeclare a none := by
  have hlines : ∀ l ∈ declaredLines a.pa, (s.line l).holder = none ∧ s.holding l = false ∧ (s.line l).sum = none := by
    intro l hl
    obtain ⟨j, hj, rfl⟩ := List.mem_map.mp hl
    exact h j (List.mem_range.mp hj)
  have hfree : (declaredLines a.pa).find? (fun l => s.holding l || (s.line l).holder.isSome) = none := by
    refine List.find?_eq_none.mpr (fun l hl => ?_)
    obtain ⟨hholder, hholding, -⟩ := hlines l hl
    rw [hholder, hholding]
    exact Bool.false_ne_true
  have hnew : ¬ (declaredLines a.pa).any (fun l => (s.line l).sum.any (fun m => m.parts != parts)) = true := by
    rw [List.any_eq_true]
    rintro ⟨l, hl, hany⟩
    rw [(hlines l hl).2.2] at hany
    exact Bool.false_ne_true hany
  unfold State.declareSum
  rw [homeError_alive hdie]
  dsimp only
  rw [show (List.range 8).map (fun j => lineOf a.pa + j) = declaredLines a.pa from rfl, hfree]
  exact if_neg hnew

/-- A thread's declaration is answered. -/
theorem answerDeclare_answers {t : Nat} (hwho : a.who = .thread t) : Delivers s (s.answerDeclare a none) ∧
    ∃ r, Emits s (s.answerDeclare a none) 100 (.atomicReply r) ∧ r.who = a.who ∧ r.rid = a.rid ∧ r.err = none := by
  refine ⟨delivers_replyAtomic s _ _ _ _, { who := a.who, rid := a.rid, op := 0, old := 0, done := true, wts := 0, err := none }, ?_, rfl, rfl, rfl⟩
  unfold State.answerDeclare State.replyAtomic
  rw [hwho]
  exact emits_send s _ _ _ _

end

/-! ## Parts (R201, R253) -/

section
variable {s : State} {a : Access} {part : Nat} {d : Line} {m : Sum}

/-- The sum after its next part, when no part waits that came early. -/
def withPart (m : Sum) (d : Line) (w : Word) : Sum :=
  { m with acc := if m.next = 0 then wordsOf d else (m.acc.zip (wordsOf d)).map (fun p => mergeAdd p.1 p.2)
           next := m.next + 1, early := [], top := maxW m.top w }

/-- The acknowledgement of a part. -/
def partTaken (s : State) (a : Access) : State := s.replyStore a.who a.core Config.latHome a.rid (storeTime s a.pa a.clock)

/-- The next part in order is added, and no other waits to be. -/
theorem addParts_next (hearly : m.early = []) :
    s.addParts (lineOf a.pa) 64 { m with early := m.early ++ [(m.next, d, a)] } = (withPart m d (storeTime s a.pa a.clock), partTaken s a) := by
  have hfind : ([(m.next, d, a)] : List (Nat × Line × Access)).find? (fun p => p.1 == m.next) = some (m.next, d, a) :=
    List.find?_cons_of_pos (beq_self_eq_true _)
  have hrest : ([(m.next, d, a)] : List (Nat × Line × Access)).filter (fun p => p.1 != m.next) = [] := by
    rw [List.filter_cons_of_neg (by rw [bne_self_eq_false]; decide), List.filter_nil]
  rw [hearly, List.nil_append, show (64 : Nat) = 62 + 1 + 1 from rfl, State.addParts]
  dsimp only
  rw [hfind]
  dsimp only
  rw [hrest, State.addParts]
  rfl

theorem sumPart_next (hdie : s.deadDies.contains (homeDie a.pa) = false) (hfree : s.holding (lineOf a.pa) = false)
    (hsum : (s.line (lineOf a.pa)).sum = some m) (hearly : m.early = []) (hpart : m.next < m.parts) :
    s.sumPart a m.next d = (if m.next + 1 = m.parts then (partTaken s a).completeMerge (lineOf a.pa) (withPart m d (storeTime s a.pa a.clock))
      else (partTaken s a).modLine (lineOf a.pa) (fun l => { l with sum := some (withPart m d (storeTime s a.pa a.clock)) })) := by
  have hin : ¬ (decide (m.parts ≤ m.next) || decide (m.next < m.next) || m.early.any (fun p => p.1 == m.next)) = true := by
    rw [decide_eq_false (by omega), decide_eq_false (by omega), hearly]
    exact Bool.false_ne_true
  unfold State.sumPart
  rw [homeError_alive hdie]
  dsimp only
  rw [hfree, hsum]
  refine (if_neg Bool.false_ne_true).trans ((if_neg hin).trans ?_)
  rw [addParts_next hearly]
  rfl

/-- A part that is out of range or was added already is refused. -/
theorem sumPart_refused (hdie : s.deadDies.contains (homeDie a.pa) = false) (hfree : s.holding (lineOf a.pa) = false)
    (hsum : (s.line (lineOf a.pa)).sum = some m) (hpart : part < m.next ∨ m.parts ≤ part) :
    s.sumPart a part d = s.refuseStore a.who a.core Config.latHome a.rid { cause := causeProtection, detail := 6, addr := a.va } := by
  have hout : (decide (m.parts ≤ part) || decide (part < m.next) || m.early.any (fun p => p.1 == part)) = true := by
    rw [Bool.or_eq_true, Bool.or_eq_true, decide_eq_true_iff, decide_eq_true_iff]
    exact .inl hpart.symm
  unfold State.sumPart
  rw [homeError_alive hdie]
  dsimp only
  rw [hfree, hsum]
  exact (if_neg Bool.false_ne_true).trans (if_pos hout)

theorem partTaken_emits {tile cmd : Nat} (hwho : a.who = .engine tile cmd) :
    Delivers s (partTaken s a) ∧ Emits s (partTaken s a) 100 (.storeAck a.rid (storeTime s a.pa a.clock) none) := by
  refine ⟨delivers_replyStore s _ _ _ _ _, ?_⟩
  unfold partTaken State.replyStore
  rw [hwho]
  exact emits_send s _ _ _ _

theorem refusal_emits {tile cmd : Nat} (hwho : a.who = .engine tile cmd) (r : Refused) :
    Emits s (s.refuseStore a.who a.core Config.latHome a.rid r) 100 (.postedRefusal a.rid r) := by
  unfold State.refuseStore
  rw [hwho]
  exact emits_send s _ _ _ _

end

/-! ## The merged value (R253) -/

section
variable {s : State} {line : Nat} {bs : List Byte}

theorem length_lineOfWords (ws : List (BitVec 32)) : (lineOfWords ws).length = 4 * ws.length := by
  unfold lineOfWords
  rw [List.length_flatMap, List.map_congr_left (g := fun _ => 4) (fun w _ => length_bytesOf _ _), List.map_const', List.sum_replicate_nat, Nat.mul_comm]

theorem length_withPart (m : Sum) (d : Line) (w : Word) : (withPart m d w).acc.length ≤ 32 := by
  have hwords : (wordsOf d).length = 32 := by rw [wordsOf, List.length_map, List.length_range]
  unfold withPart
  dsimp only
  split
  · exact hwords.le
  · rw [List.length_map, List.length_zip, hwords]
    exact Nat.min_le_right _ _

/-- Bytes of a line in which no table lies change nothing that a walk finds (R119). -/
theorem rereadTables_noTable (h : NoTable s line) (hn : bs.length ≤ 128) : (s.writeMem (line * 128) bs).rereadTables (line * 128) bs.length =
    s.writeMem (line * 128) bs := by
  have hentries : (List.range ((line * 128 + bs.length + 15) / 16 - line * 128 / 16)).filterMap
      (fun j => (s.writeMem (line * 128) bs).tableEntry (line * 128 / 16 * 16 + 16 * j)) = [] :=
    List.filterMap_eq_nil_iff.mpr (fun j hj => (h _ (by have := List.mem_range.mp hj; omega)).1)
  have hanchors : (List.range ((line * 128 + bs.length + 7) / 8 - line * 128 / 8)).filterMap
      (fun j => (s.writeMem (line * 128) bs).tableAnchor (line * 128 / 8 * 8 + 8 * j)) = [] :=
    List.filterMap_eq_nil_iff.mpr (fun j hj => (h _ (by have := List.mem_range.mp hj; omega)).2)
  unfold State.rereadTables
  dsimp only
  rw [hentries, hanchors]
  exact ite_self _

/-- A write to a line that is neither decoded from an image nor part of a table writes memory and the line's copy in the LLC. -/
theorem homeWrite_plain (hregion : s.regionAt (line * 128) = none) (htable : NoTable s line) (hn : bs.length ≤ 128) :
    ∃ lines, s.homeWrite (line * 128) bs = { s.writeMem (line * 128) bs with lines := lines } := by
  unfold State.homeWrite
  rw [hregion]
  dsimp only
  rw [rereadTables_noTable htable hn]
  split
  · exact ⟨_, rfl⟩
  · exact ⟨s.lines, rfl⟩

theorem holds_of_writeN {u : State} {key : Nat} (h : u.mem = Memory.writeN s.mem key bs) : Holds s u key bs := by
  refine ⟨fun j hj => ?_, fun k hk => ?_⟩ <;> rw [h]
  · exact Memory.read_writeN_in _ _ _ _ hj
  · exact Memory.read_writeN_out _ _ _ _ hk

/-- A merge that no load waits for leaves an ordinary line with the merged value and its time. -/
theorem completeMerge_eq {m : Sum} (hparked : m.parked = []) (hregion : s.regionAt (line * 128) = none) (htable : NoTable s line)
    (hacc : m.acc.length ≤ 32) : let u := s.completeMerge line m
    s.agenda <+: u.agenda ∧ (u.line line).sum = none ∧ (u.line line).wts = m.top ∧ Holds s u (line * 128) (lineOfWords m.acc) := by
  obtain ⟨lines, hwrite⟩ := homeWrite_plain (bs := lineOfWords m.acc) hregion htable (by rw [length_lineOfWords]; omega)
  unfold State.completeMerge
  dsimp only
  rw [hwrite, hparked, List.foldl_nil]
  have hsignal := delivers_signal ((({ s.writeMem (line * 128) (lineOfWords m.acc) with lines := lines } : State)).modLine line (fun l =>
    { l.touch true with sum := none, wts := m.top, rts := m.top, poison := none })) line Config.latHome m.top
  refine ⟨hsignal.2, ?_, ?_, holds_of_writeN hsignal.mem⟩
  · rw [hsignal.line, State.modLine, State.line_setLine_self]
  · rw [hsignal.line, State.modLine, State.line_setLine_self]

end

/-! ## Failed merges (R143) -/

/-- What a failed merge leaves: the line is poisoned for its owner, and the parts and loads that waited for it are answered. -/
def mergeFailed (s : State) (pa : Nat) (m : Sum) : State :=
  m.parked.foldl (fun s p => s.asOf p.2.2 (fun s => s.failLoad p.1 p.2.1 { cause := causeUncorrectable, detail := 7, addr := p.1.va }))
    (m.early.foldl (fun s p => s.replyStore p.2.2.who p.2.2.core Config.latHome p.2.2.rid 0)
      (s.modLine (lineOf pa) (fun l => { l with sum := none, poison := some (s.ownerOf pa).1, poisonGen := (s.ownerOf pa).2, poisonCode := 7 })))

theorem delivers_mergeFailed (s : State) (pa : Nat) (m : Sum) : Delivers (s.modLine (lineOf pa) (fun l =>
    { l with sum := none, poison := some (s.ownerOf pa).1, poisonGen := (s.ownerOf pa).2, poisonCode := 7 })) (mergeFailed s pa m) :=
  (delivers_foldl (fun s _ => delivers_replyStore s _ _ _ _ _) _ _).trans
    (delivers_foldl (fun s _ => delivers_asOf s _ (fun s => delivers_failLoad s _ _ _)) _ _)

/-! ## The statement -/

section
variable (s : State)

theorem exec_declarationAtHome_event (a : Access) (parts : Nat) : exec (Event.declarationAtHome a parts).instr
    { s with event := some (.declarationAtHome a parts) } = .next (({ s with event := none } : State).declareSum a parts) := rfl

theorem exec_sumPartArrival_event (a : Access) (part : Nat) (d : Line) : exec (Event.sumPartArrival a part d).instr
    { s with event := some (.sumPartArrival a part d) } = .next (({ s with event := none } : State).sumPart a part d) := rfl

theorem exec_mergeFailure_event {pa : Nat} {m : Sum} (hsum : (s.line (lineOf pa)).sum = some m) : exec (Event.mergeFailure pa).instr
    { s with event := some (.mergeFailure pa) } = .next (mergeFailed { s with event := none } pa m) := by
  change execMergeFailure _ = _
  unfold execMergeFailure
  refine onEvent_next _ rfl ?_
  dsimp only
  rw [show (({ s with event := none } : State).line (lineOf pa)).sum = some m from hsum]
  rfl

end

/-- Settles O47: a declaration sets its eight lines, a part is added to its line's sum, and what else the events do is to answer. -/
theorem sumModeEvents : Obligations.SumModeEvents := by
  intro s a parts tile cmd t hdie line
  let s₀ : State := { s with event := none }
  refine ⟨fun hwho hlines => ?_, fun m part d hwho hfree hsum hearly => ?_, fun m hsum => ?_⟩
  · obtain ⟨hanswer, r, hemits, hr⟩ := answerDeclare_answers (s := declareLines s₀ parts (declaredLines a.pa)) hwho
    obtain ⟨lines, heq⟩ := declareLines_eq (s := s₀) (parts := parts) (declaredLines a.pa)
    refine ⟨_, (exec_declarationAtHome_event s a parts).trans (congrArg _ (declareSum_eq (s := s₀) hdie hlines)), ⟨r, ?_, hr⟩, fun j hj => ?_, ?_⟩
    · rw [heq] at hemits ⊢
      exact hemits
    · rw [hanswer.line]
      exact declareLines_declares _ (.inr ⟨List.mem_map_of_mem (List.mem_range.mpr hj), (hlines j hj).2.2⟩)
    · rw [hanswer.mem, heq]
  · intro words acc
    obtain ⟨htaken, hemits⟩ := partTaken_emits (s := s₀) hwho
    have hrun := exec_sumPartArrival_event s a part d
    refine ⟨fun hpart hmore => ?_, fun hpart hlast hparts hparked hregion htable => ?_, fun hpart => ?_⟩
    · subst hpart
      rw [sumPart_next (s := s₀) hdie hfree hsum hearly (by omega), if_neg (by omega)] at hrun
      refine ⟨_, hrun, hemits, htaken.mem, withPart m d (storeTime s a.pa a.clock), ?_, rfl, rfl, rfl⟩
      exact congrArg HomeLine.sum (State.line_setLine_self _ _ _)
    · subst hpart
      rw [sumPart_next (s := s₀) hdie hfree hsum hearly (by omega), if_pos hlast] at hrun
      obtain ⟨hagenda, hnone, hwts, hsame⟩ := completeMerge_eq (m := withPart m d (storeTime s a.pa a.clock)) hparked
        ((htaken.regionAt _).trans hregion) (htaken.noTable htable) (length_withPart _ _ _)
      refine ⟨_, hrun, ?_, hnone, hwts, hsame.1, fun k hk => (hsame.2 k hk).trans (by rw [htaken.mem])⟩
      obtain ⟨p, hp, hwork⟩ := hemits
      exact ⟨p, hagenda.subset hp, hwork⟩
    · rw [sumPart_refused (s := s₀) hdie hfree hsum hpart] at hrun
      have hrefused := delivers_refuseStore s₀ a.who a.core Config.latHome a.rid { cause := causeProtection, detail := 6, addr := a.va }
      exact ⟨_, hrun, hrefused.lines, hrefused.mem, _, refusal_emits (s := s₀) hwho _, rfl, rfl, rfl⟩
  · have hfailed := delivers_mergeFailed s₀ a.pa m
    have hline := (hfailed.line (lineOf a.pa)).trans (State.line_setLine_self _ _ _)
    exact ⟨_, exec_mergeFailure_event s hsum, congrArg HomeLine.sum hline, congrArg HomeLine.poison hline, congrArg HomeLine.poisonCode hline,
      hfailed.mem, hfailed.threads⟩

end Sys2Proof.Proofs
end

