-- ==== Sys2Proof/Proofs/GatherReductions.lean ====
section
/-!
PROOFS. Gather reductions whose list and elements lie in local store: each of the three phases is served at once (R140, R141).
-/

namespace Sys2Proof.Proofs

open Sys2Proof Sys2Proof.Machine Sys2Proof.Claims

/-! ## The values of a phase in list order -/

/-- The entries of a collection that holds a list's values by their places, the first at `pos`. -/
def placed (pos : Nat) : List Word → List (Nat × Word)
  | [] => []
  | v :: vs => (pos, v) :: placed (pos + 1) vs

theorem length_placed (vs : List Word) (pos : Nat) : (placed pos vs).length = vs.length := by
  induction vs generalizing pos with
  | nil => rfl
  | cons v vs ih => exact congrArg (· + 1) (ih (pos + 1))

theorem get?_placed (vs : List Word) (pos j : Nat) : KMap.get? (placed pos vs) (pos + j) = vs[j]? := by
  induction vs generalizing pos j with
  | nil => rfl
  | cons v vs ih =>
    cases j with
    | zero => exact if_pos rfl
    | succ j =>
      refine (if_neg (by omega)).trans ?_
      rw [show pos + (j + 1) = pos + 1 + j by omega, ih, List.getElem?_cons_succ]

/-- The next value in order comes after those before it. -/
theorem set_placed (vs : List Word) (pos : Nat) (v : Word) (ws : List (Nat × Word)) (hws : ws = placed pos vs) :
    KMap.set ws (pos + vs.length) v = placed pos (vs ++ [v]) := by
  subst hws
  induction vs generalizing pos with
  | nil => rfl
  | cons x vs ih =>
    refine (if_neg (by omega)).trans ((if_neg (by simp)).trans ?_)
    rw [List.length_cons, show pos + (vs.length + 1) = pos + 1 + vs.length by omega, ih]
    rfl

theorem values_placed {g : Gather} {vs : List Word} (hgot : g.got = placed 0 vs) (hlen : g.addrs.length = vs.length) : g.values = vs := by
  unfold Gather.values
  refine List.ext_getElem (by rw [List.length_map, List.length_range, hlen]) (fun j hj hj' => ?_)
  have hat := get?_placed vs 0 j
  rw [Nat.zero_add, List.getElem?_eq_getElem hj'] at hat
  rw [List.getElem_map, List.getElem_range, hgot, KMap.getD, hat]
  rfl

/-! ## Reads of local store -/

section
variable {s : State} {t : Nat} {th : Thread} {n : Nat} {offs : List Nat}

/-- n aligned bytes of local store at each offset of a list. -/
def LocalReads (offs : List Nat) (n : Nat) : Prop := ∀ off ∈ offs, off + n ≤ 512 ∧ off % n = 0

/-- The reads of the bytes at those offsets, as a gather makes them. -/
def localReads (th : Thread) (offs : List Nat) : List (Word × Target) := offs.map (fun off => (localVa off, .loc (localKey th.home off)))

/-- What they return. -/
def localValues (s : State) (th : Thread) (offs : List Nat) (n : Nat) : List Word :=
  offs.map (fun off => BitVec.ofNat 64 (numberAt s (localKey th.home off) n))

theorem check_localVa {off : Nat} (hn : n ∣ 8) (hbound : off + n ≤ 512) (halign : off % n = 0) :
    s.check th (localVa off) { n := n, align := n, kind := kindData, write := false } = (.ok (.loc (localKey th.home off)), s) := by
  have hpos : 0 < n := Nat.pos_of_dvd_of_pos hn (by decide)
  obtain ⟨hnat, hspace, hok⟩ := localVa_fields (s := s) (off := off) (by omega)
  have haligned : (localVa off).toNat % n = 0 := by
    rw [hnat]
    exact add_mod_of_dvd hn halign
  obtain ⟨-, -, hlow⟩ := address_fields (base := 0x82) (off := off) (by decide) (by omega)
  unfold State.check
  rw [if_neg (not_not.mpr haligned), hok, decide_eq_true (show off + max 1 n ≤ 512 by omega), hspace]
  dsimp only
  rw [show low56 (localVa off) = off from hlow]
  rfl

theorem gatherCheck_local (hn : n ∣ 8) (hreads : LocalReads offs n) (pos : Nat) {g : Gather} (hwidth : g.width = n) (hpas : g.pas = []) :
    s.gatherCheck th n pos (offs.map localVa) g = (.ok ((localReads th offs).map (·.2)), g, s) := by
  induction offs generalizing pos with
  | nil => rfl
  | cons off offs ih =>
    obtain ⟨hbound, halign⟩ := hreads off (.head _)
    have hrest := ih (fun o ho => hreads o (.tail _ ho)) (pos + 1)
    rw [List.map_cons, State.gatherCheck]
    dsimp only
    rw [hpas, hwidth, show KMap.get? ([] : List (Nat × Nat)) pos = none from rfl]
    dsimp only
    rw [check_localVa hn hbound halign]
    dsimp only
    rw [hrest]
    rfl

/-- The note of an access to local store (R102). -/
theorem foldl_touching {xs : List Target} (hne : xs ≠ []) (hxs : ∀ x ∈ xs, ∃ k, x = .loc k) :
    xs.foldl Thread.touching th = { th with usedLocal := true } := by
  induction xs generalizing th with
  | nil => exact absurd rfl hne
  | cons x xs ih =>
    obtain ⟨k, rfl⟩ := hxs x (.head _)
    cases xs with
    | nil => rfl
    | cons y ys => exact ih (th := th.touching (.loc k)) (List.cons_ne_nil _ _) (fun z hz => hxs z (.tail _ hz))

/-- A read of local store is served at once, and its time is 0. -/
theorem raise_zero : th.raise 0 = th := by
  have hzero : ∀ a : Word, maxW a 0 = a := fun a => by
    unfold maxW
    split
    · next h => exact (BitVec.le_zero_iff.mp h).symm
    · rfl
  unfold Thread.raise
  rw [hzero, hzero]

theorem gatherIssue_local (vs : List Word) {g : Gather} (hgot : g.got = placed 0 vs) (hwidth : g.width = n) :
    s.gatherIssue t th vs.length (localReads th offs) g = (s, th, { g with got := placed 0 (vs ++ localValues s th offs n) }) := by
  induction offs generalizing vs g with
  | nil =>
    rw [show localValues s th [] n = [] from rfl, List.append_nil, ← hgot]
    rfl
  | cons off offs ih =>
    obtain ⟨v, hv⟩ : ∃ v, v = BitVec.ofNat 64 (numberAt s (localKey th.home off) n) := ⟨_, rfl⟩
    have hset := set_placed vs 0 v g.got hgot
    rw [Nat.zero_add] at hset
    have hrest := ih (vs ++ [v]) (g := { g with got := KMap.set g.got vs.length v }) hset hwidth
    rw [List.length_append, List.append_assoc] at hrest
    subst hwidth hv
    refine Eq.trans ?_ hrest
    rw [localReads, List.map_cons, State.gatherIssue]
    dsimp only [State.gatherLook]
    rw [raise_zero]
    rfl

/-! ## One phase -/

/-- A gather about to read a phase's bytes, all of local store. -/
structure LocalPhase (g : Gather) (offs : List Nat) : Prop where
  addrs : g.addrs = offs.map localVa
  width : g.width ∣ 8
  header : g.phase = .header → g.width = 8
  pas : g.pas = []
  got : g.got = []
  nonempty : offs ≠ []
  reads : LocalReads offs g.width

/-- The gather with all values of that phase. -/
def served (s : State) (th : Thread) (offs : List Nat) (g : Gather) : Gather :=
  { g with base := s.nextRid, got := placed 0 (localValues s th offs g.width) }

/-- What follows on the values of a phase that was served at once. -/
def proceed (s : State) (t fuel : Nat) (th : Thread) (g : Gather) : State :=
  match g.next with
  | .phase g₂ => s.gatherRun t fuel th g₂
  | .illegal => s.illegalState t th
  | .result v => if g.atOnce && !th.replay then s.result t th g.d v else s.gathered t th g

theorem proceed_phase {g g₂ : Gather} (h : g.next = .phase g₂) (fuel : Nat) : proceed s t fuel th g = s.gatherRun t fuel th g₂ := by
  unfold proceed
  rw [h]

theorem proceed_illegal {g : Gather} (h : g.next = .illegal) (fuel : Nat) : proceed s t fuel th g = s.illegalState t th := by
  unfold proceed
  rw [h]

/-- A gather that has waited for nothing completes in its issue cycle. -/
theorem proceed_result {g : Gather} {v : Word} (h : g.next = .result v) (honce : g.atOnce = true) (hissue : th.replay = false) (fuel : Nat) :
    proceed s t fuel th g = s.result t th g.d v := by
  unfold proceed
  rw [h, honce, hissue]
  rfl

/-- With nothing outstanding, no read waits for an operation of the thread (R115). -/
theorem ownOverlap_idle (hidle : s.outstanding t = []) (y : Thread) (x : Target) (va : Word) (k : Nat) : s.ownOverlap t y x va k = false := by
  unfold State.ownOverlap State.overlapping
  rw [hidle]
  rfl

/-- Each read of local store has its value at once. -/
theorem looks_local (y : Thread) (force : Nat → Bool) (k : Nat) : ∀ p ∈ ((List.range (localReads th offs).length).zip (localReads th offs)).map
    (fun p => (p.2.1, s.gatherLook y (force p.1) p.2.2 p.2.1 k)), ∃ v, p.2 = .value v 0 := by
  intro p hp
  obtain ⟨⟨j, r⟩, hq, rfl⟩ := List.mem_map.mp hp
  obtain ⟨off, -, rfl⟩ := List.mem_map.mp (List.of_mem_zip hq).2
  exact ⟨_, rfl⟩

theorem gatherRun_local (hidle : s.outstanding t = []) {g : Gather} (h : LocalPhase g offs) (fuel : Nat) : s.gatherRun t (fuel + 1) th g =
    proceed { s with nextRid := s.nextRid + offs.length } t fuel { th with usedLocal := true } (served s th offs g) := by
  have halign : (if g.phase = .header then 8 else g.width) = g.width := by
    split
    · next hphase => exact (h.header hphase).symm
    · rfl
  have hzip : g.addrs.zip ((localReads th offs).map (·.2)) = localReads th offs := by
    rw [h.addrs, localReads, List.map_map, List.zip_map']
    rfl
  have htouched := foldl_touching (th := th) (xs := (localReads th offs).map (·.2)) (by simpa [localReads] using h.nonempty) (by
    intro x hx
    obtain ⟨r, hr, rfl⟩ := List.mem_map.mp hx
    obtain ⟨off, -, rfl⟩ := List.mem_map.mp hr
    exact ⟨_, rfl⟩)
  have hissue : ({ s with nextRid := s.nextRid + g.addrs.length } : State).gatherIssue t { th with usedLocal := true } 0 (localReads th offs)
      { g with base := s.nextRid } = ({ s with nextRid := s.nextRid + g.addrs.length }, { th with usedLocal := true }, served s th offs g) :=
    gatherIssue_local (th := { th with usedLocal := true }) (offs := offs) [] (g := { g with base := s.nextRid }) h.got rfl
  have hlooks := looks_local (s := s) (th := th) (offs := offs) { th with usedLocal := true } g.force.contains g.width
  rw [State.gatherRun, halign, h.addrs, gatherCheck_local h.width h.reads 0 rfl h.pas]
  dsimp only
  rw [hzip, htouched]
  generalize ((List.range (localReads th offs).length).zip (localReads th offs)).map
    (fun p => (p.2.1, s.gatherLook { th with usedLocal := true } (g.force.contains p.1) p.2.2 p.2.1 g.width)) = looks at hlooks ⊢
  rw [if_neg ?own, List.findSome?_eq_none_iff.mpr ?poisoned]
  dsimp only
  rw [List.findSome?_eq_none_iff.mpr ?fill]
  dsimp only
  rw [if_neg ?away, hissue]
  dsimp only
  rw [if_neg ?missing, show g.addrs.length = offs.length by rw [h.addrs, List.length_map]]
  case own =>
    have hnone : ∀ j ∈ List.range (localReads th offs).length,
        ¬ (localReads th offs)[j]?.any (fun p => s.ownOverlap t { th with usedLocal := true } p.2 p.1 g.width) = true := by
      intro j hj
      rw [Bool.not_eq_true]
      cases (localReads th offs)[j]? with
      | none => rfl
      | some p => exact ownOverlap_idle hidle _ _ _ _
    rw [List.filter_eq_nil_iff.mpr hnone]
    exact Bool.false_ne_true
  case poisoned =>
    intro p hp
    obtain ⟨v, hv⟩ := hlooks p hp
    rw [hv]
  case fill =>
    intro p hp
    obtain ⟨v, hv⟩ := hlooks p hp
    rw [hv]
  case away =>
    rw [List.any_eq_true]
    rintro ⟨p, hp, haway⟩
    obtain ⟨v, hv⟩ := hlooks p hp
    rw [hv] at haway
    exact Bool.false_ne_true haway
  case missing =>
    rw [served, length_placed, localValues, h.addrs, List.length_map, List.length_map]
    exact lt_irrefl _
  rfl

end

/-! ## The three phases -/

theorem localVa_add (off k : Nat) : localVa off + BitVec.ofNat 64 k = localVa (off + k) := by
  rw [localVa, localVa, ← BitVec.ofNat_add, Nat.add_assoc]

section
variable {s : State} {th : Thread} {g : Gather} {list base n : Nat}

/-- The gather as its instruction begins: it reads the list's header. -/
def atHeader (i : Instr) (op : GredOp) (wd : Width) (d : Reg) (base list : Nat) : Gather :=
  { i := i, op := op, w := wd, d := d, a := localVa base, b := localVa list, phase := .header, n := 0, addrs := [localVa list], width := 8
    pas := [], got := [], atOnce := true, force := [], base := 0 }

/-- The offsets of n indices of the list, and of the elements that some indices name. -/
def indexOffs (list n : Nat) : List Nat := (List.range n).map (fun j => list + 8 + 4 * j)
def elementOffs (base width : Nat) (js : List Nat) : List Nat := js.map (fun j => base + j * width)

/-- The gather as it goes on to read n indices. -/
def atIndices (g : Gather) (list n : Nat) : Gather :=
  { g with phase := .indices, n := n, pas := [], got := [], force := [], width := 4, addrs := (indexOffs list n).map localVa }

/-- The gather as it goes on to read the elements of those indices. -/
def atElements (g : Gather) (base : Nat) (js : List Nat) : Gather :=
  { g with phase := .elements, pas := [], got := [], force := [], width := widthBytes g.w
           addrs := (elementOffs base (widthBytes g.w) js).map localVa }

theorem toNat_header (hgot : g.got = placed 0 [BitVec.ofNat 64 n]) (hn : n < 2 ^ 64) : (KMap.getD g.got 0 0).toNat = n := by
  rw [hgot]
  exact Nat.mod_eq_of_lt hn

/-- A header from 1 to 64. -/
theorem next_header (hphase : g.phase = .header) (hgot : g.got = placed 0 [BitVec.ofNat 64 n]) (hb : g.b = localVa list)
    (hlow : 1 ≤ n) (hhigh : n ≤ 64) : g.next = .phase (atIndices g list n) := by
  have haddrs : (List.range n).map (fun j => g.b + 8 + BitVec.ofNat 64 (4 * j)) = (indexOffs list n).map localVa := by
    rw [indexOffs, List.map_map]
    refine List.map_congr_left (fun j _ => ?_)
    rw [hb, show (8 : Word) = BitVec.ofNat 64 8 from rfl, localVa_add, localVa_add]
    rfl
  unfold Gather.next
  rw [hphase]
  dsimp only
  rw [toNat_header hgot (by omega), if_neg (by omega), Nat.mod_eq_of_lt (show n < 128 by omega), haddrs]
  rfl

/-- Any other header. -/
theorem next_header_illegal (hphase : g.phase = .header) (hgot : g.got = placed 0 [BitVec.ofNat 64 n]) (hn : n < 2 ^ 64) (hbad : n = 0 ∨ 64 < n) :
    g.next = .illegal := by
  unfold Gather.next
  rw [hphase]
  dsimp only
  rw [toNat_header hgot hn, if_pos (by omega)]

/-- The indices, each below 2 ^ 32, name the elements. -/
theorem next_indices (hphase : g.phase = .indices) {js : List Nat} (hvalues : g.values = js.map (BitVec.ofNat 64)) (hjs : ∀ j ∈ js, j < 2 ^ 32)
    (ha : g.a = localVa base) : g.next = .phase (atElements g base js) := by
  have haddrs : g.values.map (fun x => g.a + BitVec.ofNat 64 (x.toNat % 2 ^ 32 * widthBytes g.w)) =
      (elementOffs base (widthBytes g.w) js).map localVa := by
    rw [hvalues, elementOffs, List.map_map, List.map_map]
    refine List.map_congr_left (fun j hj => ?_)
    have hlt := hjs j hj
    simp only [Function.comp_apply, BitVec.toNat_ofNat, ha, ← localVa_add]
    rw [Nat.mod_eq_of_lt (show j < 2 ^ 64 by omega), Nat.mod_eq_of_lt hlt]
  unfold Gather.next
  rw [hphase]
  dsimp only
  rw [haddrs]
  rfl

theorem next_elements (hphase : g.phase = .elements) {vs : List Word} (hvalues : g.values = vs) : g.next = .result (gredFold g.op g.w vs) := by
  unfold Gather.next
  rw [hphase, hvalues]

theorem values_served {offs : List Nat} (haddrs : g.addrs = offs.map localVa) : (served s th offs g).values = localValues s th offs g.width :=
  values_placed rfl (by rw [served, haddrs, localValues, List.length_map, List.length_map])

end

section
variable {s : State} {t : Nat} {th : Thread} {op : GredOp} {wd : Width} {base list n : Nat}

/-- n indices of a list in local store. -/
def indicesAt (s : State) (slot list n : Nat) : List Nat := (indexOffs list n).map (fun off => numberAt s (localKey slot off) 4)

/-- The elements of the list's n indices. -/
def elementsAt (s : State) (slot base list width n : Nat) : List Nat :=
  (elementOffs base width (indicesAt s slot list n)).map (fun off => numberAt s (localKey slot off) width)

theorem localPhase_header (i : Instr) (d : Reg) (halign : list % 8 = 0) (hbound : list + 8 ≤ 512) :
    LocalPhase (atHeader i op wd d base list) [list] :=
  { addrs := rfl, width := dvd_refl 8, header := fun _ => rfl, pas := rfl, got := rfl, nonempty := List.cons_ne_nil _ _
    reads := fun off hoff => by
      obtain rfl := List.mem_singleton.mp hoff
      exact ⟨hbound, halign⟩ }

theorem localPhase_indices (g : Gather) (halign : list % 8 = 0) (hlow : 1 ≤ n) (hbound : list + 8 + 4 * n ≤ 512) :
    LocalPhase (atIndices g list n) (indexOffs list n) :=
  { addrs := rfl, width := ⟨2, rfl⟩, header := nofun, pas := rfl, got := rfl
    nonempty := by
      unfold indexOffs
      rw [Ne, List.map_eq_nil_iff, List.range_eq_nil]
      omega
    reads := fun off hoff => by
      obtain ⟨j, hj, rfl⟩ := List.mem_map.mp hoff
      have hlt := List.mem_range.mp hj
      show _ + 4 ≤ 512 ∧ _ % 4 = 0
      omega }

theorem localPhase_elements (g : Gather) {js : List Nat} (hne : js ≠ []) (halign : base % widthBytes g.w = 0)
    (hbound : ∀ j ∈ js, base + j * widthBytes g.w + widthBytes g.w ≤ 512) :
    LocalPhase (atElements g base js) (elementOffs base (widthBytes g.w) js) :=
  { addrs := rfl, width := widthBytes_dvd g.w, header := nofun, pas := rfl, got := rfl
    nonempty := mt List.map_eq_nil_iff.mp hne
    reads := fun off hoff => by
      obtain ⟨j, hj, rfl⟩ := List.mem_map.mp hoff
      exact ⟨hbound j hj, by rw [show (atElements g base js).width = widthBytes g.w from rfl, Nat.add_mul_mod_self_right, halign]⟩ }

/-- The phase of the header. -/
theorem gatherRun_header (hidle : s.outstanding t = []) (halign : list % 8 = 0) (hbound : list + 8 ≤ 512) (i : Instr) (d : Reg) (fuel : Nat) :
    s.gatherRun t (fuel + 1) th (atHeader i op wd d base list) = proceed { s with nextRid := s.nextRid + 1 } t fuel { th with usedLocal := true }
      (served s th [list] (atHeader i op wd d base list)) := gatherRun_local hidle (localPhase_header i d halign hbound) fuel

/-- The phase of the indices. -/
theorem gatherRun_indices (hidle : s.outstanding t = []) {g : Gather} (hphase : g.phase = .indices) (hlocal : LocalPhase g (indexOffs list n))
    (hwidth : g.width = 4) (ha : g.a = localVa base) (fuel : Nat) :
    ∃ rid, s.gatherRun t (fuel + 1) th g = ({ s with nextRid := rid } : State).gatherRun t fuel { th with usedLocal := true }
      (atElements (served s th (indexOffs list n) g) base (indicesAt s th.home list n)) := by
  have hvalues : (served s th (indexOffs list n) g).values = (indicesAt s th.home list n).map (BitVec.ofNat 64) := by
    rw [values_served hlocal.addrs, localValues, indicesAt, List.map_map, hwidth]
    rfl
  have hindices : ∀ j ∈ indicesAt s th.home list n, j < 2 ^ 32 := by
    intro j hj
    obtain ⟨off, -, rfl⟩ := List.mem_map.mp hj
    exact numberAt_lt s _ 4
  exact ⟨_, (gatherRun_local hidle hlocal fuel).trans
    (proceed_phase (next_indices (g := served s th (indexOffs list n) g) hphase hvalues hindices ha) fuel)⟩

/-- The phase of the elements. -/
theorem gatherRun_elements (hidle : s.outstanding t = []) (hissue : th.replay = false) {g : Gather} {offs : List Nat} (hphase : g.phase = .elements)
    (hlocal : LocalPhase g offs) (honce : g.atOnce = true) (fuel : Nat) :
    ∃ rid, s.gatherRun t (fuel + 1) th g = ({ s with nextRid := rid } : State).result t { th with usedLocal := true } g.d
      (gredFold g.op g.w (localValues s th offs g.width)) :=
  ⟨_, (gatherRun_local hidle hlocal fuel).trans (proceed_result (th := { th with usedLocal := true })
    (next_elements (g := served s th offs g) hphase (values_served hlocal.addrs)) honce hissue fuel)⟩

/-- A list of 1 to 64 indices and its elements in local store: three phases, each served at once. -/
theorem gatherRun_result (hidle : s.outstanding t = []) (hissue : th.replay = false) (halign : list % 8 = 0)
    (hn : numberAt s (localKey th.home list) 8 = n) (hlow : 1 ≤ n) (hhigh : n ≤ 64) (hbound : list + 8 + 4 * n ≤ 512) (hbase : base % widthBytes wd = 0)
    (helements : ∀ j ∈ indicesAt s th.home list n, base + j * widthBytes wd + widthBytes wd ≤ 512) (i : Instr) (d : Reg) :
    ∃ rid, s.gatherRun t 3 th (atHeader i op wd d base list) = ({ s with nextRid := rid } : State).result t { th with usedLocal := true } d
      (gredFold op wd ((elementsAt s th.home base list (widthBytes wd) n).map (BitVec.ofNat 64))) := by
  have hnext : (served s th [list] (atHeader i op wd d base list)).next =
      .phase (atIndices (served s th [list] (atHeader i op wd d base list)) list n) :=
    next_header rfl (by rw [← hn]; rfl) rfl hlow hhigh
  have hlocal := localPhase_indices (served s th [list] (atHeader i op wd d base list)) halign hlow hbound
  rw [gatherRun_header hidle halign (by omega), proceed_phase hnext]
  obtain ⟨rid₁, hrun₁⟩ := gatherRun_indices (s := { s with nextRid := s.nextRid + 1 }) (th := { th with usedLocal := true }) (base := base)
    hidle rfl hlocal rfl rfl 1
  have hlocal₂ := localPhase_elements (base := base) (served { s with nextRid := s.nextRid + 1 } { th with usedLocal := true } (indexOffs list n)
    (atIndices (served s th [list] (atHeader i op wd d base list)) list n)) (js := indicesAt s th.home list n)
    (mt List.map_eq_nil_iff.mp hlocal.nonempty) hbase helements
  obtain ⟨rid₂, hrun₂⟩ := gatherRun_elements (s := { s with nextRid := rid₁ }) (th := { th with usedLocal := true })
    hidle hissue rfl hlocal₂ rfl 0
  refine ⟨rid₂, (hrun₁.trans hrun₂).trans ?_⟩
  rw [elementsAt, List.map_map]
  rfl

end

/-! ## The reductions (R140) -/

section
variable {op : GredOp} {wd : Width} {widen : Nat → Word} {combine : Word → Word → Word}

/-- A reduction in list order, each element widened. -/
theorem gredFold_eq_reduced (hwiden : ∀ v, v < 2 ^ (8 * widthBytes wd) → gredWiden op wd (BitVec.ofNat 64 v) = widen v)
    (hcombine : ∀ x y, gredCombine op x y = combine x y) {vs : List Nat} (hvs : ∀ v ∈ vs, v < 2 ^ (8 * widthBytes wd)) :
    gredFold op wd (vs.map (BitVec.ofNat 64)) = reduced widen combine vs := by
  have hmap : (vs.map (BitVec.ofNat 64)).map (gredWiden op wd) = vs.map widen := by
    rw [List.map_map]
    exact List.map_congr_left (fun v hv => hwiden v (hvs v hv))
  unfold gredFold
  rw [hmap, show gredCombine op = combine from funext₂ hcombine]
  cases vs with
  | nil => rfl
  | cons v vs => exact List.foldl_map

theorem gredWiden_d (op : GredOp) (v : Nat) : gredWiden op .d (BitVec.ofNat 64 v) = BitVec.ofNat 64 v := rfl

theorem zext_ofNat {v : Nat} (hv : v < 2 ^ 32) : zext 32 (BitVec.ofNat 64 v).toNat = BitVec.ofNat 64 v := by
  rw [zext, BitVec.toNat_ofNat, Nat.mod_eq_of_lt (show v < 2 ^ 64 by omega), Nat.mod_eq_of_lt hv]

theorem sext_ofNat {v : Nat} (hv : v < 2 ^ 32) : sext 32 (BitVec.ofNat 64 v).toNat = (BitVec.ofNat 32 v).signExtend 64 := by
  rw [sext_eq_signExtend 32 _ (by decide), BitVec.toNat_ofNat, Nat.mod_eq_of_lt (show v < 2 ^ 64 by omega)]

/-- An element of a signed reduction. -/
theorem gredWiden_signed (hop : op = .add ∨ op = .min ∨ op = .max) (wd : Width) (v : Nat) (hv : v < 2 ^ (8 * widthBytes wd)) :
    gredWiden op wd (BitVec.ofNat 64 v) = (BitVec.ofNat (8 * widthBytes wd) v).signExtend 64 := by
  cases wd with
  | d => exact (BitVec.signExtend_eq _).symm
  | w => rcases hop with rfl | rfl | rfl <;> exact sext_ofNat hv

/-- An element of an unsigned one, or of a sum of F32 values. -/
theorem gredWiden_unsigned (hop : op = .minu ∨ op = .maxu ∨ op = .fadd) (wd : Width) (v : Nat) (hv : v < 2 ^ (8 * widthBytes wd)) :
    gredWiden op wd (BitVec.ofNat 64 v) = BitVec.ofNat 64 v := by
  cases wd with
  | d => rfl
  | w => rcases hop with rfl | rfl | rfl <;> exact zext_ofNat hv

/-- What a form of GRED reduces: the width of an element, and how elements combine. -/
def Reduces (f : Instr × Nat × (Nat → Word) × (Word → Word → Word)) (d a b : Reg) (op : GredOp) (wd : Width) : Prop :=
  (∀ s, exec f.1 s = gred f.1 op wd d a b s) ∧ f.2.1 = widthBytes wd ∧
    ∀ vs : List Nat, (∀ v ∈ vs, v < 2 ^ (8 * widthBytes wd)) → gredFold op wd (vs.map (BitVec.ofNat 64)) = reduced f.2.2.1 f.2.2.2 vs

theorem reduces_of_mem (wd : Width) (d a b : Reg) : ∀ f ∈ gredForms wd d a b, ∃ op wd', Reduces f d a b op wd' := by
  have hmin : ∀ x y, gredCombine .min x y = BitVec.ofInt 64 (min x.toInt y.toInt) := fun x y => (minV_eq y x).trans (by rw [min_comm])
  have hminu : ∀ x y, gredCombine .minu x y = BitVec.ofNat 64 (min x.toNat y.toNat) := fun x y => (minuV_eq y x).trans (by rw [min_comm])
  intro f hf
  simp only [gredForms, List.mem_cons, List.not_mem_nil, or_false] at hf
  rcases hf with rfl | rfl | rfl | rfl | rfl | rfl
  · exact ⟨.add, wd, fun _ => rfl, rfl, fun _ => gredFold_eq_reduced (gredWiden_signed (.inl rfl) wd) (fun _ _ => rfl)⟩
  · exact ⟨.min, wd, fun _ => rfl, rfl, fun _ => gredFold_eq_reduced (gredWiden_signed (.inr (.inl rfl)) wd) hmin⟩
  · exact ⟨.max, wd, fun _ => rfl, rfl, fun _ => gredFold_eq_reduced (gredWiden_signed (.inr (.inr rfl)) wd) maxV_eq⟩
  · exact ⟨.minu, wd, fun _ => rfl, rfl, fun _ => gredFold_eq_reduced (gredWiden_unsigned (.inl rfl) wd) hminu⟩
  · exact ⟨.maxu, wd, fun _ => rfl, rfl, fun _ => gredFold_eq_reduced (gredWiden_unsigned (.inr (.inl rfl)) wd) maxuV_eq⟩
  · exact ⟨.fadd, .w, fun _ => rfl, rfl, fun _ => gredFold_eq_reduced (gredWiden_unsigned (.inr (.inr rfl)) .w) (fun _ _ => rfl)⟩

end

/-! ## The statement -/

section
variable {s : State} {t : Nat} {th : Thread} {d a b : Reg} {op : GredOp} {wd : Width} {base list n : Nat}

/-- A reduction whose base and list lie aligned in local store begins with the header of its list. -/
theorem gred_issuing (h : Issuing s t th) (ha : s.readReg th a = localVa base) (hb : s.readReg th b = localVa list) (hbase : base % widthBytes wd = 0)
    (hlow : base < 512) (halign : list % 8 = 0) (hbound : list + 8 ≤ 512) (i : Instr) :
    gred i op wd d a b s = .next (s.gatherRun t 3 (th.noted 4 [d, a, b]) (atHeader i op wd d base list)) := by
  obtain ⟨hbaseVa, -, -⟩ := localVa_fields (s := s) (off := base) (by omega)
  obtain ⟨hlistVa, -, -⟩ := localVa_fields (s := s) (off := list) (by omega)
  have hfresh : (th.noted 4 [d, a, b]).replay = false := h.2.2.2.2
  unfold gred
  rw [onThread_issuing h]
  dsimp only
  rw [readReg_noted, readReg_noted, ha, hb, hbaseVa, hlistVa, if_neg (not_not.mpr (add_mod_of_dvd (widthBytes_dvd wd) hbase)),
    if_neg (not_not.mpr (add_mod_of_dvd (dvd_refl 8) halign)), hfresh]
  rfl

/-- Every index of the list is within what the statement says of indices. -/
theorem forall_indicesAt {p : Nat → Prop} {slot : Nat} (h : ∀ j, j < n → p (numberAt s (localKey slot (list + 8 + 4 * j)) 4)) :
    ∀ j ∈ indicesAt s slot list n, p j := by
  intro j hj
  rw [indicesAt, indexOffs, List.map_map] at hj
  obtain ⟨k, hk, rfl⟩ := List.mem_map.mp hj
  exact h k (List.mem_range.mp hk)

theorem elementsAt_eq (s : State) (slot base list width n : Nat) : elementsAt s slot base list width n = (List.range n).map (fun j =>
    numberAt s (localKey slot (base + numberAt s (localKey slot (list + 8 + 4 * j)) 4 * width)) width) := by
  rw [elementsAt, elementOffs, indicesAt, indexOffs, List.map_map, List.map_map, List.map_map]
  rfl

/-- A trap of a thread with a handler, at the instruction in hand. -/
theorem trapHere_accessing (hh : HasHandler th) (len : Nat) (shared locally_ : Bool) {cause detail : Nat} (hcause : cause < 256) (hdetail : detail < 65536)
    (addr : Option Word) : let u := s.trapHere t (accessing th len shared locally_ th.x th.e th.lastTag th.lts th.ltsSeen) cause detail addr
    ∃ th', u.thread? t = some th' ∧ InHandler th th' cause detail addr th.pc ∧ u.mem = s.mem ∧ SameOthers s u t := by
  have hsnap : (s.snapTrap cause).mem = s.mem ∧ (s.snapTrap cause).threads = s.threads := by
    unfold State.snapTrap
    split <;> exact ⟨rfl, rfl⟩
  have htrapc : trapcOf cause detail = BitVec.ofNat 64 (2 ^ 63 + detail * 2 ^ 16 + cause) := by
    rw [trapcOf, Nat.mod_eq_of_lt (show detail < 2 ^ 16 from hdetail), Nat.mod_eq_of_lt (show cause < 2 ^ 8 from hcause)]
  unfold State.trapHere
  rw [takeTrap_enters s t (x := accessing th len shared locally_ th.x th.e th.lastTag th.lts th.ltsSeen) hh]
  refine ⟨_, State.thread?_setThread_self _ _ _, ⟨rfl, htrapc, rfl, rfl, rfl, rfl⟩, hsnap.1, fun t' ht => ?_⟩
  rw [State.thread?_setThread, if_neg ht, State.thread?, hsnap.2]
  rfl

end

/-- Settles O20: header, indices and elements are read at once, and the reduction lands in the issue cycle. -/
theorem gatherResults : Obligations.GatherResults := by
  intro s t th d a b wd₀ h hidle f hf base list ha hb hbase hlow halign hbound at_ n index
  obtain ⟨op, wd, hexec, hwidth, hreduced⟩ := reduces_of_mem wd₀ d a b f hf
  rw [hwidth] at hbase ⊢
  have hrun := (hexec s).trans (gred_issuing h ha hb hbase hlow halign hbound f.1)
  have hfresh : th.replay = false := h.2.2.2.2
  refine ⟨fun hpos hmany hlist helements => ?_, fun hbad hh => ?_⟩
  · obtain ⟨rid, hresult⟩ := gatherRun_result (th := th.noted 4 [d, a, b]) (op := op) hidle hfresh halign rfl hpos hmany hlist hbase
      (forall_indicesAt helements) f.1 d
    rw [hreduced _ (fun v hv => by obtain ⟨off, -, rfl⟩ := List.mem_map.mp hv; exact numberAt_lt s _ _), elementsAt_eq] at hresult
    obtain ⟨x, hth, hreg, hregs, hshared, hothers, hdevice⟩ := result_accessing (s := { s with nextRid := rid }) (t := t) hfresh 4
      (th.noted 4 [d, a, b]).usedShared true th.lts th.ltsSeen d
      (reduced f.2.2.1 f.2.2.2 ((List.range n).map (fun j => at_ (base + index j * widthBytes wd) (widthBytes wd))))
    have hback := congrArg (fun v : State => { v with nextRid := s.nextRid }) hdevice
    exact ⟨_, _, hrun.trans (congrArg _ hresult), hth, hreg, hregs, goesOn_accessing _ _ _ _ _ _ _ _ _, sameRest_accessing_x _ _ _ _ _, hshared,
      hothers, hback⟩
  · have hnext : (served s (th.noted 4 [d, a, b]) [list] (atHeader f.1 op wd d base list)).next = .illegal :=
      next_header_illegal rfl rfl (numberAt_lt s _ 8) hbad
    rw [gatherRun_header hidle halign hbound, proceed_illegal hnext] at hrun
    obtain ⟨th', htrap⟩ := trapHere_accessing (s := { s with nextRid := s.nextRid + 1 }) (t := t) hh 4 (th.noted 4 [d, a, b]).usedShared true
      (cause := 2) (detail := 0) (by decide) (by decide) none
    exact ⟨_, th', hrun, htrap⟩

end Sys2Proof.Proofs
end

