-- ==== Sys2Proof/Proofs/FenceWaitack.lean ====
section
/-!
PROOFS. FENCE and WAITACK (R160, R175, R176).
-/

namespace Sys2Proof.Proofs

open Sys2Proof Sys2Proof.Machine Sys2Proof.Claims

/-! ## Going on, and leaving the rotation -/

section
variable {s v : State} {t : Nat} {th : Thread} {i : Instr}

/-- An instruction that retires its thread as it is falls through. -/
theorem fallsThrough_of_retire (h : Issuing s t th) {regs : List Reg} {f : Nat → Thread → State} (he : exec i s = onThread s i.len regs f)
    (hf : f t (th.noted i.len regs) = s.retire t (th.noted i.len regs)) : FallsThrough s t th i := by
  obtain ⟨-, -, -, -, hissue⟩ := id h
  have hwrite := State.writeReg_issuing s (th := th.noted i.len regs) hissue (.x 0) 0
  refine computes_result h i regs (.x 0) 0 f he ?_
  rw [hf, State.result_eq, hwrite]
  rfl

/-- An instruction that does nothing but leave the rotation waits. -/
theorem waits_of_await {len : Nat} {regs : List Reg} {x : Wait} {w : Wait → Prop} (hw : w x) (hv : Prepared s v)
    (hexec : exec i s = .next (v.await t (th.noted len regs) x)) : Waits s t th i w := by
  obtain ⟨hmem, hshared, hothers⟩ := unchanged_setThread hv.numbered (w := v) rfl t (awaiting v (th.noted len regs) x)
  exact ⟨_, _, hexec, State.thread?_setThread_self _ _ _, (awaiting_wait ..).symm ▸ hw, awaiting_pc .., awaiting_x .., awaiting_issued ..,
    hshared, hothers, hmem⟩

end

/-! ## What is waited for -/

section
variable {s : State} {t : Nat} {c : Scope}

/-- The operations that a scope waits for, as R160 names them: every one for a convoy, none for a slot, and what is no peer's otherwise. -/
theorem inScope_iff (va : Word) : s.inScope c va = true ↔ c = .convoy ∨ (c ≠ .slot ∧ s.isPeer va = false) := by
  cases c <;> simp [State.inScope]

theorem fenceDone_iff : s.fenceDone t c = true ↔ ∀ x ∈ s.outstanding t, ¬ (c = .convoy ∨ (c ≠ .slot ∧ s.isPeer x.va = false)) := by
  simp only [State.fenceDone, List.all_eq_true, Bool.not_eq_true', ← inScope_iff, Bool.not_eq_true]

theorem ackDone_iff (tag : BitVec 32) : s.ackDone t tag = true ↔ ∀ x ∈ s.outstanding t, tag ≠ 0 ∧ x.tag ≠ tag := by
  simp only [State.ackDone, List.all_eq_true, Bool.and_eq_true, bne_iff_ne]

end

/-! ## The statement -/

/-- Settles O23: each instruction tests the outstanding operations once, and retires or leaves the rotation. -/
theorem fenceAndWaitack : Obligations.FenceAndWaitack := by
  intro s t th a c h tag awaited
  have hfence : exec (.fence c) s = execFence c s := rfl
  have hack : exec (.waitack a) s = execWaitack a s := rfl
  have htag : ∀ len, (s.readReg (th.noted len [a]) a).setWidth 32 = tag := fun len => congrArg _ (readReg_noted s th len [a] a)
  refine ⟨fun hnone => ?_, fun ⟨x, hx, hawaited⟩ => ?_, fun hnone => ?_, fun ⟨x, hx, hawaited⟩ => ?_⟩
  · exact fallsThrough_of_retire h hfence (if_pos (fenceDone_iff.mpr hnone))
  · have hbusy : ¬ s.fenceDone t c = true := fun hdone => fenceDone_iff.mp hdone x hx hawaited
    exact waits_of_await rfl (.refl s) ((hfence.trans (onThread_issuing h 4 [] _)).trans (congrArg _ (if_neg hbusy)))
  · refine fallsThrough_of_retire h hack ?_
    dsimp only
    rw [htag]
    exact if_pos ((ackDone_iff tag).mpr hnone)
  · have hbusy : ¬ s.ackDone t tag = true := fun hdone => hawaited.elim ((ackDone_iff tag).mp hdone x hx).1 ((ackDone_iff tag).mp hdone x hx).2
    refine waits_of_await (len := 4) (regs := [a]) (x := .ackTag tag) rfl (.refl s) ((hack.trans (onThread_issuing h 4 [a] _)).trans (congrArg _ ?_))
    dsimp only
    rw [htag]
    exact if_neg hbusy

end Sys2Proof.Proofs
end

