-- ==== Sys2Proof/Proofs/ReleaseAcquire.lean ====
section
/-!
PROOFS. REL and ACQ at their issue (R160, R179, R180, R181).
-/

namespace Sys2Proof.Proofs

open Sys2Proof Sys2Proof.Machine Sys2Proof.Claims

/-! ## What REL and ACQ have in common -/

/-- A REL or an ACQ: the word, whether it writes its object, what it asks of a stash, what it asks of a home, what its answer ends, and what it does
to an object in the own stash. -/
structure Order where
  i     : Instr
  write : Bool
  what  : StashOp
  home  : Access → Event
  wait  : Nat → Wait
  own   : State → Thread → Nat → State

/-- The message of thread t to a global object's home. -/
def orderMessage (t : Nat) (va : Word) (pa : Nat) (e : Access → Event) (s : State) (th : Thread) (rid _op : Nat) : State :=
  s.send (placeOfSlot th.home) (chanThread t (lineOf pa)) Config.latHome (e (accessOf t th rid va pa 8))

/-- What it does where its object lies, once its checks have passed. -/
def Order.goes (o : Order) (t : Nat) (obj : Word) (s : State) (th : Thread) : Target → State
  | .own off => o.own s th off
  | .global va pa => s.gate t th o.i (askAndWait t (orderMessage t va pa o.home) o.wait)
  | .loc _ => s.protection t th 3 obj
  | x => s.gate t th o.i (askAndWait t (awayMessage t obj o.what (.stash o.what) x) o.wait)

/-- REL publishes the thread's clock (R180). -/
def relOrder (t : Nat) (c : Scope) (a : Reg) (obj : Word) : Order :=
  { i := .rel c a, write := true, what := .publish, home := .publication, wait := .relPub
    own := fun s th off => s.ownAccess t th (.rel c a) off obj .publish (fun s th _ _ => s.retire t th) (fun s th => s.setThread t th) }

/-- ACQ reads the object and raises the clock (R181). -/
def acqOrder (t : Nat) (c : Scope) (a : Reg) (obj : Word) : Order :=
  { i := .acq c a, write := false, what := .acq, home := (.homeLoad · .acq), wait := .acq
    own := fun s th off => s.ownAccess t th (.acq c a) off obj .acq (fun s th v _ => s.retire t (th.raise v)) (fun s th => s.setThread t th) }

/-- Carried out for thread t, o is an access to the object that register a names; where `free` holds, it goes to the object at once. -/
def IsOrder (s : State) (t : Nat) (th : Thread) (c : Scope) (a : Reg) (free : Prop) (o : Order) : Prop :=
  Carried s t th → ∃ f, exec o.i s = .next (s.access t (th.noted 4 [a]) o.i (s.readReg th a) { n := 8, align := 8, kind := scopeKind c, write := o.write } f) ∧
    (free → ∀ utlb x, f { s with utlb := utlb } (th.noted 4 [a]) x = o.goes t (s.readReg th a) { s with utlb := utlb } (th.noted 4 [a]) x)

section
variable {s : State} {t : Nat} {th : Thread} {c : Scope} {a : Reg} {free : Prop} {o : Order}

theorem isOrder_rel (hc : c ≠ .slot) : IsOrder s t th c a (s.relWaits t th c (s.readReg th a) = false) (relOrder t c a (s.readReg th a)) := by
  intro h
  apply Exists.intro
  refine ⟨?_, fun hfree utlb x => ?_⟩
  · show execRel c a s = _
    rw [execRel, onThread_carried h]
    dsimp only
    rw [readReg_noted, if_neg hc]
    rfl
  · have hgo : ¬ State.relWaits { s with utlb := utlb } t (th.noted 4 [a]) c (s.readReg th a) = true := by
      rw [show State.relWaits { s with utlb := utlb } t (th.noted 4 [a]) c (s.readReg th a) = false from hfree]
      exact Bool.false_ne_true
    rw [if_neg hgo]
    cases x <;> rfl

theorem isOrder_acq (hc : c ≠ .slot) : IsOrder s t th c a True (acqOrder t c a (s.readReg th a)) := by
  intro h
  apply Exists.intro
  refine ⟨?_, fun _ utlb x => ?_⟩
  · show execAcq c a s = _
    rw [execAcq, onThread_carried h]
    dsimp only
    rw [readReg_noted, if_neg hc]
    rfl
  · cases x <;> rfl

/-- No operation in the scope's spaces meets a range that is bound to the object. -/
theorem relWaits_eq_false {obj : Word} (h : ∀ x ∈ s.outstanding t, (c = .convoy ∨ s.isPeer x.va = false) → ∀ y ∈ th.bindings, y.obj = obj →
    overlaps y.base.toNat y.len.toNat x.va.toNat x.len = false) : s.relWaits t th c obj = false := by
  rw [State.relWaits, List.any_eq_false]
  intro x hx hwaits
  obtain ⟨hscope, hbound⟩ := Bool.and_eq_true_iff.mp hwaits
  obtain ⟨y, hy, hmeets⟩ := List.any_eq_true.mp hbound
  obtain ⟨hobj, hoverlap⟩ := Bool.and_eq_true_iff.mp hmeets
  have hapart := h x hx (((inScope_iff x.va).mp hscope).imp_right And.right) y hy (eq_of_beq hobj)
  exact Bool.false_ne_true (hapart.symm.trans hoverlap)

/-! ## Traps -/

/-- An object that a check refuses. -/
theorem IsOrder.traps (ho : IsOrder s t th c a free o) (h : Issuing s t th) (hh : HasHandler th) {cause detail : Nat}
    (hcheck : ∀ write, s.check (th.noted 4 [a]) (s.readReg th a) { n := 8, align := 8, kind := scopeKind c, write := write } = (.trap cause detail, s))
    (hcause : cause < 256) (hdetail : detail < 65536) : Traps s t th o.i cause detail (some (s.readReg th a)) := by
  obtain ⟨f, hexec, -⟩ := ho (.inl h)
  exact traps_here hh o.i 4 [a] cause detail _ (hexec.trans (congrArg _ (access_trap (hcheck _)))) hcause hdetail

/-- Both instructions trap where the checks of their object do (R179). -/
theorem traps_rel_acq (h : Issuing s t th) (hh : HasHandler th) (hc : c ≠ .slot) {cause detail : Nat}
    (hcheck : ∀ write, s.check (th.noted 4 [a]) (s.readReg th a) { n := 8, align := 8, kind := scopeKind c, write := write } = (.trap cause detail, s))
    (hcause : cause < 256) (hdetail : detail < 65536) :
    Traps s t th (.rel c a) cause detail (some (s.readReg th a)) ∧ Traps s t th (.acq c a) cause detail (some (s.readReg th a)) :=
  ⟨(isOrder_rel hc).traps h hh hcheck hcause hdetail, (isOrder_acq hc).traps h hh hcheck hcause hdetail⟩

/-- An object in local store is of the wrong kind for every scope. -/
theorem check_order_local {obj : Word} {off : Nat} (hat : LocalAt obj 8 off) (write : Bool) :
    s.check (th.noted 4 [a]) obj { n := 8, align := 8, kind := scopeKind c, write := write } = (.trap causeProtection 3, s) := by
  obtain ⟨rfl, hbound, halign⟩ := hat
  obtain ⟨hnat, hspace, hok⟩ := localVa_fields (s := s) (off := off) (by omega)
  refine check_kind (by dsimp only; omega) ?_ ?_
  · rw [hok]
    exact decide_eq_true (by dsimp only; omega)
  · rw [hspace]
    rfl

/-- A scope below .convoy admits no object of a peer (R179). -/
theorem scopeKind_peer (hc : c ≠ .convoy) (dev : Nat) : scopeKind c (.peer dev) = false ∧ scopeKind c (.peerStash dev) = false := by
  cases c with
  | convoy => exact absurd rfl hc
  | _ => exact ⟨rfl, rfl⟩

/-! ## Objects of other tiles and devices -/

/-- What an order asks of a stash that is not its own tile's. -/
def Order.request (o : Order) (obj : Word) : Request :=
  { i := o.i, va := obj, n := 8, what := o.what, peer := some (.stash o.what), wait := some o.wait, tagged := false }

theorem IsOrder.away (ho : IsOrder s t th c a free o) (hfree : free) {x : Target} (hx : Names s th (s.readReg th a) 8 x)
    (hk : scopeKind c (spaceOfTarget x) = true) (hcarried : Carried s t th) :
    exec o.i s = .next (s.gate t (th.noted 4 [a]) o.i
      (askAndWait t (awayMessage t (s.readReg th a) o.what (.stash o.what) x) o.wait)) := by
  obtain ⟨f, hexec, hgoes⟩ := ho hcarried
  refine hexec.trans (congrArg _ ?_)
  unfold State.access
  rw [hx.check (by decide) hk]
  cases hx <;> exact hgoes hfree s.utlb _

/-- The scope .slot reaches no other tile or device. -/
theorem ne_slot_of_scopeKind {obj : Word} {x : Target} (hx : Names s th obj 8 x) (hk : scopeKind c (spaceOfTarget x) = true) : c ≠ .slot := by
  rintro rfl
  cases hx <;> exact Bool.false_ne_true hk

/-- An order asks for the object as any request does, where its scope reaches that far. -/
theorem asksAway_of_isOrder {clear : Target → Prop} (ho : c ≠ .slot → IsOrder s t th c a free o)
    (hclear : ∀ x, Names s th (s.readReg th a) 8 x → clear x → free ∧ scopeKind c (spaceOfTarget x) = true) :
    AsksAway s t th (o.request (s.readReg th a)) clear := by
  refine asksAway_of_reaches (fun p x hx hpeer hx' => ?_)
  obtain ⟨hfree, hk⟩ := hclear x hx hx'
  rw [carriesAway_congr hx rfl hpeer]
  refine gated_of_gate ((ho (ne_slot_of_scopeKind hx hk)).away hfree hx hk) (.refl s) rfl (fun u hu he => ?_)
  exact asks_of_askAndWait rfl rfl he hu (carries_away hx _ _)

/-! ## Global objects -/

theorem carries_order {va : Word} {pa : Nat} {e : Access → Event} :
    Carries s t th (orderMessage t va pa e) (fun u rid _ => ∃ x, Sent s u 100 (e x) ∧ AccessIs x t th va pa 8 th.lts ∧ x.rid = rid) := by
  intro v len shared tag rid op th' hv
  obtain ⟨hleft, hsent⟩ := send_sent v (placeOfSlot th.home) (chanThread t (lineOf pa)) Config.latHome
    (e (accessOf t (sending th len shared tag) rid va pa 8))
  exact ⟨hleft, _, sent_of_numbered hv hsent rfl, ⟨rfl, rfl, rfl, rfl, rfl, rfl, rfl, rfl, rfl⟩, rfl⟩

theorem IsOrder.gated_home (ho : IsOrder s t th c a free o) (hfree : free) {pa : Nat} (hg : GlobalAt s th (s.readReg th a) 8 pa o.write) :
    Gated s t th o.i (∃ u th' x, exec o.i s = .next u ∧ u.thread? t = some th' ∧ Sent s u 100 (o.home x) ∧
      AccessIs x t th (s.readReg th a) pa 8 th.lts ∧ th'.wait = o.wait x.rid ∧ th'.pc = th.pc ∧ th'.x = th.x ∧ u.mem = s.mem ∧
      SameShared s u ∧ SameOthers s u t) := by
  obtain ⟨utlb, hcheck⟩ := check_global (kind := scopeKind c) hg rfl 4 [a]
  have hrun : Carried s t th → exec o.i s = .next (({ s with utlb := utlb } : State).gate t (th.noted 4 [a]) o.i
      (askAndWait t (orderMessage t (s.readReg th a) pa o.home) o.wait)) := by
    intro hcarried
    obtain ⟨f, hexec, hgoes⟩ := ho hcarried
    refine hexec.trans (congrArg _ ?_)
    unfold State.access
    rw [hcheck]
    exact hgoes hfree utlb _
  refine gated_of_gate hrun (v := { s with utlb := utlb }) rfl rfl (fun u hu he => ?_)
  obtain ⟨th', rid, hth, ⟨x, hsent, haccess, rfl⟩, hwait, hpc, -, -, -, hx, -, hmem, hshared, hothers⟩ :=
    askAndWait_spec hu (carries_order (e := o.home)) o.wait 4 [a]
  exact ⟨_, th', x, he, hth, hsent, haccess, hwait, hpc, hx, hmem, hshared, hothers⟩

/-! ## Objects of the own stash -/

theorem later_toNat (x y : Word) : (later x y).toNat = max x.toNat y.toNat := by
  unfold later
  split
  next h => exact (Nat.max_eq_right h).symm
  next h => exact (Nat.max_eq_left (Nat.le_of_lt (BitVec.not_le.mp h))).symm

section
variable {tile off : Nat} {l : StashLine}

/-- No access to a line is refused where no format region stands behind it (R116). -/
theorem not_refused (hregion : s.regionAt (l.line * 128) = none) (what : StashOp) : ¬ (stashAtomicLike what && (s.regionAt (l.line * 128)).isSome) = true := by
  rw [hregion, Option.isSome_none, Bool.and_false]
  exact Bool.false_ne_true

/-- A publication on a line that no format region stands behind (R180). -/
theorem applyStash_publish (hl : s.stashLine? tile (off / 128) = some l) (hregion : s.regionAt (l.line * 128) = none) (w va : Word) :
    let x := BitVec.ofNat 64 (numberAt s (stashKey tile off) 8)
    s.applyStash tile off .publish w va = (.done x true, s.stashWrite tile off (bytesOf (later x w).toNat 8)) := by
  unfold State.applyStash
  dsimp only
  rw [hl, later_toNat]
  exact if_neg (not_refused hregion _)

/-- A read for ACQ (R181). -/
theorem applyStash_acq (hl : s.stashLine? tile (off / 128) = some l) (hregion : s.regionAt (l.line * 128) = none) (w va : Word) :
    s.applyStash tile off .acq w va = (.done (BitVec.ofNat 64 (numberAt s (stashKey tile off) 8)) true, s) := by
  unfold State.applyStash
  dsimp only
  rw [hl]
  exact if_neg (not_refused hregion _)

/-- The thread after an order on its own stash, with its clock raised. -/
def ordered (th : Thread) (a : Reg) (lts seen : Word) : Thread := accessing th 4 (th.noted 4 [a]).usedShared th.usedLocal th.x th.e th.lastTag lts seen

theorem ordered_completes (th : Thread) (a : Reg) (lts seen : Word) : let y := (ordered th a lts seen).advance
    y.lts = lts ∧ y.x = th.x ∧ GoesOn th y 4 ∧ SameRest th { y with lts := th.lts, ltsSeen := th.ltsSeen } := by
  obtain ⟨hx, -, -, hlts⟩ := accessing_fields th 4 (th.noted 4 [a]).usedShared th.usedLocal th.x th.e th.lastTag lts seen
  exact ⟨hlts, hx, goesOn_accessing .., sameRest_accessing_x_lts ..⟩

/-- An order whose object lies in a resident line of the own stash comes to that line. -/
theorem IsOrder.own (ho : IsOrder s t th c a free o) (hfree : free) (h : Issuing s t th) (hline : OwnLine s th (s.readReg th a) 8 off l) :
    exec o.i s = .next (o.own s (th.noted 4 [a]) off) := by
  obtain ⟨f, hexec, hgoes⟩ := ho (.inl h)
  have hspace : s.spaceOf (s.readReg th a) = .own := by
    obtain ⟨hva, hbound, -⟩ := hline
    exact hva ▸ spaceOf_own (address_fields (base := 0x80) (off := off) (by decide) (by omega)).2.1
  have hcheck := (check_congr_kind (kind := kindData) (kind' := scopeKind c) (by rw [hspace]; rfl)).trans (check_own hline dvd_rfl 4 [a] o.write)
  refine hexec.trans (congrArg _ ?_)
  unfold State.access
  rw [hcheck]
  exact hgoes hfree s.utlb _

/-- What a word written to a resident line changes of the device: what a store of it does, which takes a number besides. -/
theorem stashWrite_facts (hl : s.stashLine? tile (off / 128) = some l) (v : Word) :
    let u := s.stashWrite tile off (bytesOf v.toNat 8)
    Stored s u (stashKey tile off) 8 v ∧ SameButStash s u tile (off / 128) { l with dirty := true } ∧ u.banks = s.banks ∧ u.threads = s.threads := by
  obtain ⟨hstored, hstash, -, hbanks, hthreads, -⟩ := afterStore_facts hl v 8
  exact ⟨hstored, hstash, hbanks, hthreads⟩

/-- REL of an object in the own stash. -/
theorem rel_own (hc : c ≠ .slot) (h : Issuing s t th) (hat : OwnAt s th (s.readReg th a) 8 off l) (hregion : s.regionAt (l.line * 128) = none)
    (hfree : s.relWaits t th c (s.readReg th a) = false) :
    exec (.rel c a) s = .next ((s.stashWrite (tileOf th.home) off
        (bytesOf (later (BitVec.ofNat 64 (numberAt s (stashKey (tileOf th.home) off) 8)) th.lts).toNat 8)).retire t
      (ordered th a (maxW th.lts l.stamp) (maxW th.ltsSeen l.stamp))) := by
  obtain ⟨hline, hpark⟩ := hat
  have hrun := (isOrder_rel hc).own hfree h hline
  obtain ⟨-, -, -, hl, -, hsound, -, -⟩ := hline
  have hdone := ownAccess_done (t := t) (y := th.noted 4 [a]) (i := .rel c a) (f := fun s th _ _ => s.retire t th) (park := fun s th => s.setThread t th)
    hl hsound (applyStash_publish hl hregion th.lts (s.readReg th a))
  obtain ⟨-, -, -, -, htiles, -⟩ := (stashWrite_eq hl (bytesOf (later (BitVec.ofNat 64 (numberAt s (stashKey (tileOf th.home) off) 8)) th.lts).toNat 8)).unchanged
  refine hrun.trans (congrArg _ (hdone.trans ?_))
  rw [show (th.noted 4 [a]).home = th.home from rfl, stampOf_eq (stashLine?_stashWrite hl _)]
  exact drain_retire (by rw [tile_congr htiles]; exact hpark) _ _

/-- What it leaves: the object holds the later of its time and the clock, and the clock has risen to the line's stamp. -/
theorem rel_own_leaves (hc : c ≠ .slot) (h : Issuing s t th) (hat : OwnAt s th (s.readReg th a) 8 off l) (hregion : s.regionAt (l.line * 128) = none)
    (hfree : s.relWaits t th c (s.readReg th a) = false) :
    let x := BitVec.ofNat 64 (numberAt s (stashKey (tileOf th.home) off) 8)
    ∃ u th', exec (.rel c a) s = .next u ∧ u.thread? t = some th' ∧ Stored s u (stashKey (tileOf th.home) off) 8 (later x th.lts) ∧
      SameButStash s u (tileOf th.home) (off / 128) { l with dirty := true } ∧ th'.lts = later th.lts l.stamp ∧ th'.x = th.x ∧ GoesOn th th' 4 ∧
      SameRest th { th' with lts := th.lts, ltsSeen := th.ltsSeen } ∧ SameShared s u ∧ SameOthers s u t := by
  intro x
  have hrun := rel_own hc h hat hregion hfree
  obtain ⟨⟨-, -, -, hl, -⟩, -⟩ := hat
  obtain ⟨hstored, hstash, hbanks, hthreads⟩ := stashWrite_facts hl (later x th.lts)
  obtain ⟨hlts, hx, hgoes, hrest⟩ := ordered_completes th a (maxW th.lts l.stamp) (maxW th.ltsSeen l.stamp)
  change exec (.rel c a) s = .next ((s.stashWrite (tileOf th.home) off (bytesOf (later x th.lts).toNat 8)).retire t _) at hrun
  generalize s.stashWrite (tileOf th.home) off (bytesOf (later x th.lts).toNat 8) = v at hrun hstored hstash hbanks hthreads
  refine ⟨_, _, hrun, State.retire_thread? _ _ _, hstored, sameButStash_of_sameDevice hstash rfl, hlts, hx, hgoes, hrest, fun c g k => ?_, fun t' ht => ?_⟩
  · show v.kread c g k = s.kread c g k
    simp only [State.kread, State.bank, hbanks]
  · exact (sameOthers_setThread v t _ t' ht).trans (congrArg (KMap.get? · t') hthreads)

/-- ACQ of an object in the own stash. -/
theorem acq_own (hc : c ≠ .slot) (h : Issuing s t th) (hat : OwnAt s th (s.readReg th a) 8 off l) (hregion : s.regionAt (l.line * 128) = none) :
    let x := BitVec.ofNat 64 (numberAt s (stashKey (tileOf th.home) off) 8)
    exec (.acq c a) s = .next (s.retire t (ordered th a (maxW (maxW th.lts l.stamp) x) (maxW (maxW th.ltsSeen l.stamp) x))) := by
  obtain ⟨hline, hpark⟩ := hat
  have hrun := (isOrder_acq hc).own trivial h hline
  obtain ⟨-, -, -, hl, -, hsound, -, -⟩ := hline
  have hdone := ownAccess_done (t := t) (y := th.noted 4 [a]) (i := .acq c a) (f := fun s th v _ => s.retire t (th.raise v))
    (park := fun s th => s.setThread t th) hl hsound (applyStash_acq hl hregion _ (s.readReg th a))
  refine hrun.trans (congrArg _ (hdone.trans ?_))
  rw [show (th.noted 4 [a]).home = th.home from rfl, stampOf_eq hl]
  exact drain_retire hpark _ _

end

end

/-! ## The statement -/

/-- A scope reaches an object in the party stash from .party on, and a peer's under .convoy. -/
def Reach (c : Scope) : Target → Prop
  | .party _ _ => c = .party ∨ c = .dev ∨ c = .convoy
  | _ => c = .convoy

theorem scopeKind_of_reach {s : State} {th : Thread} {c : Scope} {obj : Word} {x : Target} (hx : Names s th obj 8 x) (h : Reach c x) :
    scopeKind c (spaceOfTarget x) = true := by
  cases hx with
  | party _ => rcases h with rfl | rfl | rfl <;> rfl
  | peer _ =>
    obtain rfl := h
    rfl
  | peerStash _ =>
    obtain rfl := h
    rfl

/-- Settles O25: REL and ACQ are one access to their object, and differ in what they ask of it. -/
theorem releaseAcquire : Obligations.ReleaseAcquire := by
  intro s t th a c obj unbound
  refine ⟨fun h => ⟨?_, ?_, fun hh hc halign => ?_, fun hh hc off hat => ?_, fun off l hc hat hregion => ⟨fun hfree => ?_, ?_⟩, fun hh hfar => ?_⟩,
    fun pa hc => ⟨fun hfree hg => ?_, fun hg => ?_⟩, ?_, ?_⟩
  · exact fallsThrough_of_retire h (show exec (.rel .slot a) s = execRel .slot a s from rfl) (if_pos rfl)
  · exact fallsThrough_of_retire h (show exec (.acq .slot a) s = execAcq .slot a s from rfl) (if_pos rfl)
  · exact traps_rel_acq h hh hc (fun _ => check_misaligned halign) (by decide) (by decide)
  · exact traps_rel_acq h hh hc (check_order_local hat) (by decide) (by decide)
  · exact rel_own_leaves hc h hat hregion (relWaits_eq_false hfree)
  · obtain ⟨hlts, hx, hgoes, hrest⟩ := ordered_completes th a _ _
    exact becomes_set _ _ (acq_own hc h hat hregion) _ ⟨hlts, hx, hgoes, hrest⟩
  · obtain ⟨y, hy, hc, hk⟩ : ∃ y, Names s th obj 8 y ∧ c ≠ .slot ∧ scopeKind c (spaceOfTarget y) = false := by
      rcases hfar with ⟨tile, off, hat, rfl | rfl⟩ | ⟨dev, hat | hat, hc, hnot⟩
      · exact ⟨_, .party hat, by decide, rfl⟩
      · exact ⟨_, .party hat, by decide, rfl⟩
      · exact ⟨_, .peer hat, hc, (scopeKind_peer hnot dev).1⟩
      · exact ⟨_, .peerStash hat, hc, (scopeKind_peer hnot dev).2⟩
    exact traps_rel_acq h hh hc (fun write => hy.check_kind (by decide) hk write 4 [a]) (by decide) (by decide)
  · exact (isOrder_rel hc).gated_home (relWaits_eq_false hfree) hg
  · exact (isOrder_acq hc).gated_home trivial hg
  · exact asksAway_of_isOrder isOrder_rel (fun x hx ⟨hfits, hfree⟩ => ⟨relWaits_eq_false hfree, scopeKind_of_reach hx hfits⟩)
  · exact asksAway_of_isOrder isOrder_acq (fun x hx hfits => ⟨trivial, scopeKind_of_reach hx hfits⟩)

end Sys2Proof.Proofs
end

