-- ==== Sys2Proof/Proofs/EngineCommands.lean ====
section
/-!
PROOFS. Commands of the engines: how one finishes, is lost, and starts (R154, R222, R226, R233).
-/

namespace Sys2Proof.Proofs

open Sys2Proof Sys2Proof.Machine Sys2Proof.Claims

/-! ## Steps that are put on the agenda -/

section
variable {s u : State}

theorem Delivers.tiles (h : Delivers s u) : u.tiles = s.tiles := by
  have k := congrArg State.tiles h.1
  exact k

theorem Delivers.guests (h : Delivers s u) : u.guests = s.guests := by
  have k := congrArg State.guests h.1
  exact k

theorem Delivers.tile (h : Delivers s u) (k : Nat) : u.tile k = s.tile k := tile_congr h.tiles k

theorem Delivers.guest (h : Delivers s u) (g : BitVec 8) : u.guest g = s.guest g := by
  unfold State.guest
  rw [h.guests]

theorem Delivers.thread? (h : Delivers s u) (t : Nat) : u.thread? t = s.thread? t := by
  unfold State.thread?
  rw [h.threads]

theorem delivers_post (s : State) (p : Place) (chan : Nat × Nat) (due cur : Nat) (w : Work) : Delivers s (s.post p chan due cur w) :=
  ⟨rfl, List.prefix_append _ _⟩

theorem delivers_checkLaunch (s : State) (l : Nat) : Delivers s (s.checkLaunch l) := by
  unfold State.checkLaunch
  split
  · exact delivers_post ..
  · exact .refl s

theorem delivers_letIn (s : State) (tile : Nat) (copy : Bool) (entries : Nat) : Delivers s (s.letIn tile copy entries) :=
  delivers_foldl (fun s _ => delivers_post s _ _ _ _ _) _ s

theorem delivers_engPost (s : State) (tile : Nat) (c : Cmd) (delay : Nat) (e : Event) : Delivers s (s.engPost tile c delay e) := delivers_post ..

theorem emits_engPost (s : State) (tile : Nat) (c : Cmd) (delay : Nat) (e : Event) : Emits s (s.engPost tile c delay e) delay e :=
  emits_post s _ _ _ delay e (Nat.le_refl _)

end

/-! ## A command finishes (R154) -/

section
variable {s : State} {tile : Nat} {c : Cmd}

/-- A tile without a command that ran there. -/
def withoutRunning (x : Tile) (id : Nat) : Tile :=
  { x with mrun := x.mrun.filter (fun y => y.id != id), crun := x.crun.filter (fun y => y.id != id) }

theorem finishCmd_spec (s : State) (tile : Nat) (c : Cmd) : let u := s.finishCmd tile c
    u.tile tile = withoutRunning (s.tile tile) c.id ∧ (u.guest c.guest).floor = later (s.guest c.guest).floor c.clock ∧ u.mem = s.mem ∧
      u.threads = s.threads := by
  have h := delivers_checkLaunch (((s.modTile tile (withoutRunning · c.id))).raiseFloor c.guest c.clock) c.launch
  refine ⟨(h.tile tile).trans ?_, (congrArg Guest.floor (h.guest c.guest)).trans ?_, h.mem, h.threads⟩
  · show (s.modTile tile (withoutRunning · c.id)).tile tile = _
    exact tile_modTile_self s tile _
  · exact congrArg Guest.floor (State.guest_setGuest_self (s.modTile tile (withoutRunning · c.id)) c.guest _)

/-- Of one command that runs, none is left without it. -/
theorem filter_self (c : Cmd) : [c].filter (fun y => y.id != c.id) = [] := by
  rw [List.filter_cons_of_neg (by rw [bne_self_eq_false]; decide), List.filter_nil]

theorem find?_self (c : Cmd) : [c].find? (fun y => y.id == c.id) = some c := List.find?_cons_of_pos (beq_self_eq_true _)

/-- The one command that runs in the matrix unit finishes. -/
theorem finishCmd_finishes (hrun : (s.tile tile).mrun = [c]) : let u := s.finishCmd tile c
    (u.tile tile).mx = (s.tile tile).mx ∧ Finished s u tile c := by
  obtain ⟨htile, hfloor, hmem, hthreads⟩ := finishCmd_spec s tile c
  have hmx := congrArg Tile.mx htile
  refine ⟨hmx, ?_, hfloor.symm, hmem, hthreads⟩
  rw [htile, withoutRunning, hrun]
  exact filter_self c

/-- It finishes with a change of the unit's state. -/
theorem finishCmd_modMx (hrun : (s.tile tile).mrun = [c]) (f : MatrixState → MatrixState) : let u := (s.modMx tile f).finishCmd tile c
    (u.tile tile).mx = f (s.tile tile).mx ∧ Finished s u tile c := by
  have htile : (s.modMx tile f).tile tile = { s.tile tile with mx := f (s.tile tile).mx } := tile_modTile_self s tile _
  obtain ⟨hmx, hfinished⟩ := finishCmd_finishes (s := s.modMx tile f) (tile := tile) (c := c) (by rw [htile]; exact hrun)
  exact ⟨hmx.trans (congrArg Tile.mx htile), hfinished⟩

theorem running_self (hrun : (s.tile tile).mrun = [c]) : s.running tile c.id = some c := by
  rw [State.running, hrun]
  exact find?_self c

theorem cmd?_running (hqueue : (s.tile tile).mqueue = []) (hrun : (s.tile tile).mrun = [c]) : (s.tile tile).cmd? c.id = some (false, c) := by
  rw [Tile.cmd?, hqueue, hrun, List.nil_append, find?_self]

/-- The one command that runs in the matrix unit changes. -/
theorem modCmd_running (hrun : (s.tile tile).mrun = [c]) (f : Cmd → Cmd) : let u := s.modCmd tile c.id f
    (u.tile tile).mrun = [f c] ∧ (u.tile tile).mx = (s.tile tile).mx := by
  have htile : (s.modCmd tile c.id f).tile tile = { s.tile tile with
      mrun := (s.tile tile).mrun.map (fun y => if y.id = c.id then f y else y)
      crun := (s.tile tile).crun.map (fun y => if y.id = c.id then f y else y) } := tile_modTile_self s tile _
  have hmx := congrArg Tile.mx htile
  refine ⟨?_, hmx⟩
  rw [htile]
  dsimp only
  rw [hrun, List.map_singleton, if_pos rfl]

/-! ## A command is lost (R226) -/

/-- What its issuer is told of a lost command: the cause, and EFADDR and EFINFO. -/
def lossOf (x : Issuer) (copy : Bool) (va : Word) (kind code : Nat) : TrapEvent :=
  { cause := if kind = 4 then causeUncorrectable else causeEngine, detail := if kind = 4 then code else 0, addr := if kind = 4 then some va else none
    tag := 0, ef := some (va, BitVec.ofNat 64 (engineOf copy * 4096 + x.fn * 256 + kind)), fe := none }

/-- A thread with an engine's event to take. -/
def told (th : Thread) (e : TrapEvent) : Thread := { th with engEvents := th.engEvents ++ [e] }

/-- An issuer that waits for nothing takes the event at its next issue. -/
theorem loseIssued_running {x : Issuer} {th : Thread} (hth : s.thread? x.tid = some th) (hrun : th.halted = false) (hwait : th.wait = .none) (cmd : Nat)
    (copy : Bool) (va : Word) (kind code : Nat) :
    s.loseIssued x cmd copy va kind code = s.setThread x.tid (told th (lossOf x copy va kind code)) := by
  have hstays : ¬ (!(told th (lossOf x copy va kind code)).halted && !(told th (lossOf x copy va kind code)).active &&
      (told th (lossOf x copy va kind code)).wait.openEnded (s.setThread x.tid (told th (lossOf x copy va kind code)))) = true := by
    rw [show (told th (lossOf x copy va kind code)).wait = .none from hwait, show Wait.openEnded _ .none = false from rfl, Bool.and_false]
    exact Bool.false_ne_true
  unfold State.loseIssued
  rw [hth]
  dsimp only
  rw [if_neg (by rw [hrun]; exact Bool.false_ne_true), hwait]
  show State.wakeForEvent (s.setThread x.tid (told th (lossOf x copy va kind code))) x.tid = _
  unfold State.wakeForEvent
  rw [State.thread?_setThread_self]
  exact if_neg hstays

/-- A tile without a command of its matrix unit. -/
def withoutCommand (x : Tile) (id : Nat) : Tile :=
  (x.setQueue false (x.mqueue.filter (fun y => y.id != id))).setRun false (x.mrun.filter (fun y => y.id != id))

/-- An MMA of such an issuer is discarded: it leaves its tile, and its issuer is told. -/
theorem discard_mma {f : Fmt} {n l : Bool} (hkind : c.kind = .mma f n l) {th : Thread} (hth : s.thread? c.tid = some th) (hrun : th.halted = false)
    (hwait : th.wait = .none) (va : Word) (kind code : Nat) :
    Delivers ((s.modTile tile (withoutCommand · c.id)).setThread c.tid (told th (lossOf c.issuer false va kind code)))
      (s.discard tile false c va kind code) := by
  have hlost := loseIssued_running (s := s.modTile tile (withoutCommand · c.id)) (x := c.issuer) hth hrun hwait c.id false va kind code
  unfold State.discard
  dsimp only
  generalize ((s.tile tile).run false).any (fun x => x.id == c.id) = running
  rw [hkind]
  cases running with
  | true =>
    show Delivers _ (((s.modTile tile (withoutCommand · c.id)).loseIssued c.issuer c.id false va kind code).checkLaunch c.launch)
    rw [hlost]
    exact delivers_checkLaunch ..
  | false =>
    show Delivers _ ((((s.modTile tile (withoutCommand · c.id)).loseIssued c.issuer c.id false va kind code).letIn tile false 1).checkLaunch c.launch)
    rw [hlost]
    exact (delivers_letIn ..).trans (delivers_checkLaunch ..)

/-- What the discard of an MMA leaves: its tile without it, its issuer with the event, and every other thread and memory as they were. -/
theorem discard_mma_spec {f : Fmt} {n l : Bool} (hkind : c.kind = .mma f n l) {th : Thread} (hth : s.thread? c.tid = some th) (hrun : th.halted = false)
    (hwait : th.wait = .none) (va : Word) (kind code : Nat) : let u := s.discard tile false c va kind code
    u.tile tile = withoutCommand (s.tile tile) c.id ∧ u.thread? c.tid = some (told th (lossOf c.issuer false va kind code)) ∧ SameOthers s u c.tid ∧
      u.mem = s.mem := by
  have h := discard_mma (tile := tile) hkind hth hrun hwait va kind code
  refine ⟨(h.tile tile).trans ((State.tile_setThread ..).trans (tile_modTile_self s tile _)), (h.thread? _).trans (State.thread?_setThread_self _ _ _), fun t ht => ?_, h.mem⟩
  exact (h.thread? t).trans (sameOthers_setThread (s.modTile tile (withoutCommand · c.id)) c.tid _ t ht)

/-- The watchdog counts anew once the head has left (R226). -/
theorem mwatch_withoutCommand {x : Tile} {rest : List Cmd} (hqueue : x.mqueue = c :: rest) : (withoutCommand x c.id).mwatch = 0 := by
  have hhead : ∀ y, (x.mqueue.filter (fun y => y.id != c.id)).head? = some y → y.id ≠ c.id := fun y hy =>
    bne_iff_ne.mp (List.mem_filter.mp (List.mem_of_mem_head? hy)).2
  have hchanges : ¬ (((x.queue false).head?.map (·.id)) == ((x.mqueue.filter (fun y => y.id != c.id)).head?.map (·.id))) = true := by
    rw [show x.queue false = c :: rest from hqueue]
    cases h : (x.mqueue.filter (fun y => y.id != c.id)).head? with
    | none => exact Bool.false_ne_true
    | some y => exact fun heq => hhead y h (Option.some.inj (eq_of_beq heq)).symm
  exact if_neg hchanges

end

end Sys2Proof.Proofs
end

