-- ==== Sys2Proof/Proofs/EngineEvents.lean ====
section
/-!
PROOFS. The events of the engines (R154, R162, R197, R217, R220 to R226, R231, R233, R248 to R251).
-/

namespace Sys2Proof.Proofs

open Sys2Proof Sys2Proof.Machine Sys2Proof.Claims

/-! ## Latches and accumulators -/

section
variable (m : MatrixState) (l n : Bool) (x : Latch) (acc : List (BitVec 32))

theorem latchA_setA : (m.setA l x).latchA l = x := by cases l <;> rfl
theorem latchB_setB : (m.setB l x).latchB l = x := by cases l <;> rfl
theorem latchB_setA : (m.setA l x).latchB = m.latchB := by cases l <;> rfl
theorem latchA_setB : (m.setB l x).latchA = m.latchA := by cases l <;> rfl
theorem acc_setA : (m.setA l x).acc = m.acc := by cases l <;> rfl
theorem acc_setB : (m.setB l x).acc = m.acc := by cases l <;> rfl
theorem acc_setAcc_self : (m.setAcc n acc).acc n = acc := by cases n <;> rfl
theorem acc_setAcc_other : (m.setAcc n acc).acc (!n) = m.acc (!n) := by cases n <;> rfl
theorem latchA_accBy (by_ : Option Issuer) : (m.accBy n by_).latchA = m.latchA := by cases n <;> rfl
theorem latchB_accBy (by_ : Option Issuer) : (m.accBy n by_).latchB = m.latchB := by cases n <;> rfl

end

theorem length_mmaAcc (f : Fmt) (core : Nat) (as bs : List Line) (acc : List (BitVec 32)) : (mmaAcc f core as bs acc).length = 256 := by
  rw [mmaAcc, List.length_map, List.length_range]

/-- The accumulator's word of row i and column j (R217, R250). -/
theorem getElem?_mmaAcc (f : Fmt) (core : Nat) (as bs : List Line) (acc : List (BitVec 32)) {i j : Nat} (hi : i < 16) (hj : j < 16) :
    (mmaAcc f core as bs acc)[16 * i + j]? =
      some (mmaElem f core (natOfBytes ((as[i]?).getD [])) (natOfBytes ((bs[j]?).getD [])) ((acc[16 * i + j]?).getD 0)) := by
  rw [mmaAcc, List.getElem?_map, List.getElem?_range (by omega), Option.map_some, show (16 * i + j) / 16 = i by omega,
    show (16 * i + j) % 16 = j by omega]

/-! ## Dispatch (R221, R222, R225) -/

section
variable {s : State} {tile : Nat} {c : Cmd}

/-- A head that dispatches is of the unit's own guest. -/
theorem switches_of_dispatches (h : s.dispatches tile c = true) : s.switches tile c = false := by
  have howner : (s.tile tile).mxOwner.all (· == c.guest) = true := by
    simp only [State.dispatches, Bool.and_eq_true] at h
    obtain ⟨⟨⟨-, howner⟩, -⟩, -⟩ := h
    exact howner
  have hsame : (s.tile tile).mxOwner.any (· != c.guest) = false := by
    cases hg : (s.tile tile).mxOwner with
    | none => rfl
    | some g =>
      rw [hg] at howner
      exact (congrArg not howner : _)
  unfold State.switches
  dsimp only
  rw [hsame, Bool.and_false, Bool.false_and]

/-- One command in the queue dispatches alone. -/
theorem dispatchUpTo_single (hqueue : (s.tile tile).mqueue = [c]) (h : s.dispatches tile c = true)
    (hempty : ((s.dispatch tile c).tile tile).mqueue = []) (fuel : Nat) : s.dispatchUpTo tile (fuel + 2) = s.dispatch tile c := by
  have hrest : (s.dispatch tile c).dispatchUpTo tile (fuel + 1) = s.dispatch tile c := by
    rw [State.dispatchUpTo, hempty]
    rfl
  rw [State.dispatchUpTo, hqueue]
  dsimp only [List.head?_cons]
  rw [switches_of_dispatches h, h, hrest]
  rfl

/-- An MMA with its operand rows. -/
def withOperands (x : Tile) (c : Cmd) (l : Bool) : Cmd := { c with rows := (x.mx.latchA l).rows ++ (x.mx.latchB l).rows }

/-- A tile whose MMA has started: it has taken its rows from the latches. -/
def mmaStarted (x : Tile) (c : Cmd) (n l : Bool) : Tile :=
  { x.setQueue false (x.mqueue.filter (fun y => y.id != c.id)) with
    mrun := x.mrun ++ [withOperands x c l], mx := ((x.mx.setA l .init).setB l .init).accBy n (some c.issuer), mxOwner := some c.guest }

theorem dispatch_mma {f : Fmt} {n l : Bool} (hkind : c.kind = .mma f n l) :
    Delivers (s.modTile tile (mmaStarted · c n l)) (s.dispatch tile c) ∧ Emits s (s.dispatch tile c) 8 (.mmaComplete tile c.id) := by
  have heq : s.dispatch tile c = ((s.modTile tile (mmaStarted · c n l)).letIn tile false 1).engPost tile (withOperands (s.tile tile) c l) 8
      (.mmaComplete tile c.id) := by
    cases c
    subst hkind
    rfl
  have hletIn := delivers_letIn (s.modTile tile (mmaStarted · c n l)) tile false 1
  rw [heq]
  refine ⟨hletIn.trans (delivers_engPost ..), ?_⟩
  obtain ⟨p, hp, hwork, hdue⟩ := emits_engPost ((s.modTile tile (mmaStarted · c n l)).letIn tile false 1) tile (withOperands (s.tile tile) c l) 8
    (.mmaComplete tile c.id)
  have hclk := congrArg State.clk hletIn.1
  exact ⟨p, hp, hwork, (congrArg (· + 8) hclk).ge.trans hdue⟩

/-- A latch that an MMA has taken its rows from is free, and the queue is empty (R221). -/
theorem mmaStarted_fields {x : Tile} (hqueue : x.mqueue = [c]) (n l : Bool) : let y := mmaStarted x c n l
    y.mqueue = [] ∧ (y.mx.latchA l).st = .free ∧ (y.mx.latchB l).st = .free := by
  have hmx : (mmaStarted x c n l).mx = ((x.mx.setA l .init).setB l .init).accBy n (some c.issuer) := rfl
  refine ⟨?_, ?_, ?_⟩
  · show x.mqueue.filter (fun y => y.id != c.id) = []
    rw [hqueue]
    exact filter_self c
  · rw [hmx, latchA_accBy, latchA_setB, latchA_setA]
    rfl
  · rw [hmx, latchB_accBy, latchB_setB]
    rfl

/-- An MMA alone in its queue dispatches, and completes 8 cycles later (R224). -/
theorem dispatchUpTo_mma {f : Fmt} {n l : Bool} (hqueue : (s.tile tile).mqueue = [c]) (hkind : c.kind = .mma f n l) (h : s.dispatches tile c = true) :
    let u := s.dispatchUpTo tile 4
    u.tile tile = mmaStarted (s.tile tile) c n l ∧ Emits s u 8 (.mmaComplete tile c.id) ∧ u.mem = s.mem := by
  obtain ⟨hdispatch, hemits⟩ := dispatch_mma (s := s) (tile := tile) hkind
  have htile := (hdispatch.tile tile).trans (tile_modTile_self s tile _)
  obtain ⟨hempty, -⟩ := mmaStarted_fields hqueue n l
  have halone : s.dispatchUpTo tile 4 = s.dispatch tile c := dispatchUpTo_single hqueue h ((congrArg Tile.mqueue htile).trans hempty) 2
  rw [halone]
  exact ⟨htile, hemits, hdispatch.mem⟩

/-! ## Read-outs (R222, R224) -/

/-- A flush whose read-out has ended. -/
def readOut (c : Cmd) : Cmd := { c with pos := 1 }

theorem flushDone_readOut (hrun : (s.tile tile).mrun = [readOut c]) (hsound : c.faulted = none) :
    s.flushDone tile c.id = if c.reqs = [] then s.finishCmd tile (readOut c) else s := by
  have hdone : ((readOut c).pos = 1 ∧ (readOut c).reqs = [] ∧ (readOut c).faulted.isNone) ↔ c.reqs = [] :=
    ⟨fun ⟨_, hreqs, _⟩ => hreqs, fun hreqs => ⟨rfl, hreqs, Option.isNone_iff_eq_none.mpr hsound⟩⟩
  unfold State.flushDone
  rw [show s.running tile c.id = some (readOut c) from running_self hrun]
  exact if_congr hdone rfl rfl

/-- A flush that is read out finishes if all its stores are acknowledged, and waits for the last of them otherwise. -/
theorem readOut_spec (hrun : (s.tile tile).mrun = [c]) (hsound : c.faulted = none) : let u := (s.modCmd tile c.id readOut).flushDone tile c.id
    (u.tile tile).mx = (s.tile tile).mx ∧ (c.reqs = [] → Finished s u tile c) ∧ (c.reqs ≠ [] → (u.tile tile).mrun = [readOut c]) := by
  obtain ⟨hread, hmx⟩ := modCmd_running hrun readOut
  rw [flushDone_readOut hread hsound]
  by_cases hreqs : c.reqs = []
  · obtain ⟨hmx', hfinished⟩ := finishCmd_finishes hread
    rw [if_pos hreqs]
    exact ⟨hmx'.trans hmx, fun _ => hfinished, fun h => absurd hreqs h⟩
  · rw [if_neg hreqs]
    exact ⟨hmx, fun h => absurd h hreqs, fun _ => hread⟩

/-! ## Copies (R231, R233) -/

theorem desc_copy {d : CopyDesc} (hkind : c.kind = .copy d) : c.desc = some d := by rw [Cmd.desc, hkind]

/-- A tile whose copy has started. -/
def copyStarted (x : Tile) (c : Cmd) : Tile :=
  { x.setQueue true (x.cqueue.filter (fun y => y.id != c.id)) with crun := x.crun ++ [c] }

/-- The watchdog counts anew once the only command has left the queue (R226). -/
theorem cwatch_copyStarted {x : Tile} (hqueue : x.cqueue = [c]) : (copyStarted x c).cwatch = 0 := by
  have hempty : x.cqueue.filter (fun y => y.id != c.id) = [] := by rw [hqueue]; exact filter_self c
  have hchanges : ¬ (((x.queue true).head?.map (·.id)) == ((x.cqueue.filter (fun y => y.id != c.id)).head?.map (·.id))) = true := by
    rw [show x.queue true = [c] from hqueue, hempty]
    exact Bool.false_ne_true
  exact if_neg hchanges

/-- A copy of some bytes and without a barrier object starts with nothing else to do. -/
theorem delivers_startCopy {d : CopyDesc} (hkind : c.kind = .copy d) (hbar : d.bar = none) (hcount : d.count ≠ 0) :
    Delivers (s.modTile tile (copyStarted · c)) (s.startCopy tile c) := by
  unfold State.startCopy
  rw [desc_copy hkind]
  dsimp only
  rw [hbar]
  dsimp only
  rw [if_neg hcount]
  exact delivers_letIn ..

/-- One command that waits for nothing starts alone. -/
theorem startCopies_single (hqueue : (s.tile tile).cqueue = [c]) (hrun : (s.tile tile).crun = []) (hheld : c.held = none)
    (hfree : s.blocked tile c = false) (hempty : ((s.startCopy tile c).tile tile).cqueue = []) :
    s.startCopies tile Config.copyRunning = s.startCopy tile c := by
  have hstart : s.startable tile = some c := by
    rw [State.startable, hqueue, List.takeWhile_cons_of_pos (by rw [hheld]; rfl), List.takeWhile_nil]
    exact List.find?_cons_of_pos (by rw [hfree]; rfl)
  have hnone : (s.startCopy tile c).startable tile = none := by rw [State.startable, hempty]; rfl
  have hrest : (s.startCopy tile c).startCopies tile 3 = s.startCopy tile c := by
    rw [State.startCopies, hnone]
    exact ite_self _
  rw [show Config.copyRunning = 3 + 1 from rfl, State.startCopies, hrun, hstart]
  exact hrest

/-- A copy alone in its queue leaves it for the engine. -/
theorem copyStarted_fields {x : Tile} (hqueue : x.cqueue = [c]) (hrun : x.crun = []) : let y := copyStarted x c
    y.cqueue = [] ∧ y.crun = [c] ∧ y.cwatch = 0 := by
  refine ⟨?_, ?_, cwatch_copyStarted hqueue⟩
  · show x.cqueue.filter (fun y => y.id != c.id) = []
    rw [hqueue]
    exact filter_self c
  · show x.crun ++ [c] = [c]
    rw [hrun, List.nil_append]

theorem startCopies_copy {d : CopyDesc} (hqueue : (s.tile tile).cqueue = [c]) (hrun : (s.tile tile).crun = []) (hkind : c.kind = .copy d)
    (hbar : d.bar = none) (hcount : d.count ≠ 0) (hheld : c.held = none) (hfree : s.blocked tile c = false) :
    let u := s.startCopies tile Config.copyRunning
    u.tile tile = copyStarted (s.tile tile) c ∧ u.mem = s.mem ∧ u.threads = s.threads := by
  have hstart := delivers_startCopy (s := s) (tile := tile) hkind hbar hcount
  have htile := (hstart.tile tile).trans (tile_modTile_self s tile _)
  obtain ⟨hempty, -⟩ := copyStarted_fields hqueue hrun
  rw [startCopies_single hqueue hrun hheld hfree ((congrArg Tile.cqueue htile).trans hempty)]
  exact ⟨htile, hstart.mem, hstart.threads⟩

/-- Lines of which a copy has written every byte are poisoned no longer; nothing else has changed (R298). -/
theorem copyCleans_eq (s : State) (tile : Nat) (c : Cmd) (d : CopyDesc) : ∃ lines stash, s.copyCleans tile c d = { s with lines := lines, stash := stash } := by
  unfold State.copyCleans
  split
  · exact ⟨s.lines, s.stash, rfl⟩
  · exact ⟨_, _, rfl⟩

end

/-! ## The events -/

section
variable {s : State} {tile : Nat} {c : Cmd}

theorem exec_stageAComplete_event {l : Bool} {a b : Word} (hrun : (s.tile tile).mrun = [c]) (hkind : c.kind = .stageA l a b) :
    exec (Event.stageAComplete tile c.id).instr { s with event := some (.stageAComplete tile c.id) } =
      .next ((({ s with event := none } : State).modMx tile (·.setA l c.fills)).finishCmd tile c) := by
  show execStageAComplete _ = _
  simp only [execStageAComplete, onEvent, running_self (s := { s with event := none }) hrun, hkind]

theorem exec_stageBComplete_event {l : Bool} {a b : Word} (hrun : (s.tile tile).mrun = [c]) (hkind : c.kind = .stageB l a b) :
    exec (Event.stageBComplete tile c.id).instr { s with event := some (.stageBComplete tile c.id) } =
      .next ((({ s with event := none } : State).modMx tile (·.setB l c.fills)).finishCmd tile c) := by
  show execStageBComplete _ = _
  simp only [execStageBComplete, onEvent, running_self (s := { s with event := none }) hrun, hkind]

theorem exec_mmaComplete_event {f : Fmt} {n l : Bool} (hrun : (s.tile tile).mrun = [c]) (hkind : c.kind = .mma f n l) :
    exec (Event.mmaComplete tile c.id).instr { s with event := some (.mmaComplete tile c.id) } =
      .next ((({ s with event := none } : State).modMx tile (fun m =>
        m.setAcc n (mmaAcc f c.self (c.rows.take 16) (c.rows.drop 16) (m.acc n)))).finishCmd tile c) := by
  show execMmaComplete _ = _
  simp only [execMmaComplete, onEvent, running_self (s := { s with event := none }) hrun, hkind]

theorem exec_mclrComplete_event {n : Bool} (hrun : (s.tile tile).mrun = [c]) (hkind : c.kind = .mclr n) :
    exec (Event.mclrComplete tile c.id).instr { s with event := some (.mclrComplete tile c.id) } =
      .next ((({ s with event := none } : State).modMx tile (·.setAcc n (List.replicate 256 0))).finishCmd tile c) := by
  show execMclrComplete _ = _
  simp only [execMclrComplete, onEvent, running_self (s := { s with event := none }) hrun, hkind]

theorem exec_flushReadout_event {n : Bool} {a : Word} {p : Nat} (hrun : (s.tile tile).mrun = [c])
    (hkind : c.kind = .mflush n a ∨ c.kind = .mflushSum n a p) :
    exec (Event.flushReadoutComplete tile c.id).instr { s with event := some (.flushReadoutComplete tile c.id) } =
      .next ((({ s with event := none } : State).modCmd tile c.id readOut).flushDone tile c.id) := by
  show execFlushReadoutComplete _ = _
  rcases hkind with hkind | hkind
  · simp only [execFlushReadoutComplete, onEvent, running_self (s := { s with event := none }) hrun, hkind]
    rfl
  · simp only [execFlushReadoutComplete, onEvent, running_self (s := { s with event := none }) hrun, hkind]
    rfl

/-- The saved matrix states of a tile, with its present guest's among them. -/
def savedStates (x : Tile) : List (Nat × MatrixState) :=
  match x.mxOwner with
  | some o => KMap.set x.mxSaved o.toNat x.mx
  | none => x.mxSaved

theorem savedStates_owned {x : Tile} {o : BitVec 8} (h : x.mxOwner = some o) : savedStates x = KMap.set x.mxSaved o.toNat x.mx := by
  rw [savedStates, h]

/-- The unit's change of guest (R225). -/
def switchedTo (x : Tile) (g : BitVec 8) : Tile :=
  { x with mxSaved := KMap.erase (savedStates x) g.toNat, mx := KMap.getD (savedStates x) g.toNat .init, mxOwner := some g, mxSwitch := false }

theorem exec_contextSwitch_event (s : State) (tile : Nat) (g : BitVec 8) :
    exec (Event.matrixContextSwitch tile g).instr { s with event := some (.matrixContextSwitch tile g) } =
      .next (({ s with event := none } : State).modTile tile (switchedTo · g)) := rfl

/-- The outgoing guest's state is saved as it stood, and the incoming guest finds its own. -/
theorem switchedTo_states {x : Tile} {o g : BitVec 8} (howner : x.mxOwner = some o) (hne : o ≠ g) :
    KMap.get? (switchedTo x g).mxSaved o.toNat = some x.mx ∧ (switchedTo x g).mx = KMap.getD x.mxSaved g.toNat .init := by
  have hapart : o.toNat ≠ g.toNat := fun h => hne (BitVec.eq_of_toNat_eq h)
  unfold switchedTo
  rw [savedStates_owned howner]
  exact ⟨(KMap.get?_erase _ _ _).trans ((if_neg hapart).trans (KMap.get?_set_self _ _ _)), (KMap.getD_set _ _ _ _ _).trans (if_neg hapart.symm)⟩

/-- A command's fault goes under service, or discards it. -/
theorem exec_engineFault_event (hqueue : (s.tile tile).mqueue = []) (hrun : (s.tile tile).mrun = [c]) (va : Word) (kind code : Nat) :
    exec (Event.engineFault tile c.id va kind code).instr { s with event := some (.engineFault tile c.id va kind code) } =
      .next (if kind = 1 then ({ s with event := none } : State).modCmd tile c.id (fun c => { c with faulted := some (c.faulted.getD va) })
        else ({ s with event := none } : State).discard tile false c va kind code) := by
  show execEngineFault _ = _
  simp only [execEngineFault, onEvent, cmd?_running (s := { s with event := none }) hqueue hrun]

theorem exec_groupWatchdog_event {rest : List Cmd} (hqueue : (s.tile tile).mqueue = c :: rest) :
    exec (Event.groupWatchdog tile false).instr { s with event := some (.groupWatchdog tile false) } =
      .next (({ s with event := none } : State).discard tile false c 0 3 0) := by
  have hhead : ((({ s with event := none } : State).tile tile).queue false).head? = some c := congrArg List.head? hqueue
  show execGroupWatchdog _ = _
  simp only [execGroupWatchdog, onEvent, hhead]

theorem exec_copyFinish_event {d : CopyDesc} (hrun : (s.tile tile).crun = [c]) (hkind : c.kind = .copy d) (hbar : d.bar = none) :
    exec (Event.copyFinish tile c.id).instr { s with event := some (.copyFinish tile c.id) } =
      .next ((({ s with event := none } : State).copyCleans tile c d).finishCmd tile c) := by
  have hfind : (({ s with event := none } : State).tile tile).crun.find? (fun y => y.id == c.id) = some c :=
    (congrArg (List.find? _) hrun).trans (find?_self c)
  show execCopyFinish _ = _
  simp only [execCopyFinish, onEvent, hfind, desc_copy hkind, hbar]

end

/-- What the issuer of a lost MMA is told. -/
theorem told_of_lost (th : Thread) (c : Cmd) (va : Word) {kind code : Nat} (hkind : kind ≠ 4) :
    ∃ e, (told th (lossOf c.issuer false va kind code)).engEvents = th.engEvents ++ [e] ∧ e.cause = 0x0B ∧
      e.ef = some (va, BitVec.ofNat 64 (c.fn * 256 + kind)) := by
  refine ⟨_, rfl, if_neg hkind, ?_⟩
  show some (va, BitVec.ofNat 64 (0 * 4096 + c.fn * 256 + kind)) = _
  rw [Nat.zero_mul, Nat.zero_add]

/-- Settles O48: a command that completes changes the unit's state and finishes, one that is lost leaves its tile and tells its issuer, and one that
dispatches or starts moves from its queue to its engine. -/
theorem engineEvents : Obligations.EngineEvents := by
  intro s tile c x
  let s₀ : State := { s with event := none }
  refine ⟨fun f n l hqueue hkind h => ?_, fun l a b ⟨hrun, hkind, _⟩ => ?_, fun l a b ⟨hrun, hkind, _⟩ => ?_, fun f n l ⟨hrun, hkind, _⟩ => ?_,
    fun n ⟨hrun, hkind, _⟩ => ?_, fun n a p k hk ⟨hrun, hkind, hsound⟩ => ?_, fun o g howner hne hsorted => ?_,
    fun k va ⟨hrun, _, hsound⟩ hqueue => ?_, fun th f n l va ⟨hrun, hkind, _⟩ hqueue hth hlive hwait => ?_,
    fun th f n l rest hqueue hkind hth hlive hwait => ?_, fun d hqueue hrun hkind hbar hcount hheld hfree => ?_, fun d hrun hkind hbar => ?_⟩
  · obtain ⟨htile, hemits, hmem⟩ := dispatchUpTo_mma (s := s₀) hqueue hkind h
    obtain ⟨hempty, hlatchA, hlatchB⟩ := mmaStarted_fields hqueue n l
    refine ⟨s₀.dispatchUpTo tile 4, rfl, ?_⟩
    dsimp only
    rw [htile]
    exact ⟨hempty, ⟨withOperands x c l, rfl, rfl, rfl⟩, hlatchA, hlatchB, hemits, hmem⟩
  · obtain ⟨hmx, hfinished⟩ := finishCmd_modMx (s := s₀) hrun (·.setA l c.fills)
    refine ⟨_, exec_stageAComplete_event hrun hkind, ?_, ?_, ?_, hfinished⟩ <;> rw [hmx]
    · exact latchA_setA _ _ _
    · exact latchB_setA _ _ _
    · exact acc_setA _ _ _
  · obtain ⟨hmx, hfinished⟩ := finishCmd_modMx (s := s₀) hrun (·.setB l c.fills)
    refine ⟨_, exec_stageBComplete_event hrun hkind, ?_, ?_, ?_, hfinished⟩ <;> rw [hmx]
    · exact latchB_setB _ _ _
    · exact latchA_setB _ _ _
    · exact acc_setB _ _ _
  · obtain ⟨hmx, hfinished⟩ := finishCmd_modMx (s := s₀) hrun (fun m =>
      m.setAcc n (mmaAcc f c.self (c.rows.take 16) (c.rows.drop 16) (m.acc n)))
    refine ⟨_, exec_mmaComplete_event hrun hkind, ?_, ?_, ?_, hfinished⟩ <;> rw [hmx]
    · rw [acc_setAcc_self]
      exact length_mmaAcc ..
    · rw [acc_setAcc_self]
      exact fun i j => getElem?_mmaAcc _ _ _ _ _
    · exact acc_setAcc_other _ _ _
  · obtain ⟨hmx, hfinished⟩ := finishCmd_modMx (s := s₀) hrun (·.setAcc n (List.replicate 256 0))
    refine ⟨_, exec_mclrComplete_event hrun hkind, ?_, ?_, hfinished⟩ <;> rw [hmx]
    · exact acc_setAcc_self _ _ _
    · exact acc_setAcc_other _ _ _
  · have hflush : c.kind = .mflush n a ∨ c.kind = .mflushSum n a p := by simpa [hkind] using hk
    exact ⟨_, exec_flushReadout_event hrun hflush, readOut_spec (s := s₀) hrun hsound⟩
  · obtain ⟨hsaved, hmx⟩ := switchedTo_states howner hne
    refine ⟨_, exec_contextSwitch_event s tile g, ?_⟩
    dsimp only
    rw [tile_modTile_self]
    exact ⟨rfl, rfl, hsaved, hmx, rfl, rfl⟩
  · obtain ⟨hfaulted, -⟩ := modCmd_running (s := s₀) hrun (fun c => { c with faulted := some (c.faulted.getD va) })
    refine ⟨_, exec_engineFault_event hqueue hrun va 1 0, hfaulted.trans ?_, rfl, rfl⟩
    rw [hsound]
    rfl
  · obtain ⟨htile, hth', hothers, hmem⟩ := discard_mma_spec (s := s₀) (tile := tile) hkind hth hlive hwait va 2 0
    have hexec := exec_engineFault_event hqueue hrun va 2 0
    rw [if_neg (by decide)] at hexec
    refine ⟨_, hexec, _, hth', ?_, rfl, rfl, rfl, told_of_lost th c va (by decide), hothers, hmem⟩
    rw [htile]
    show x.mrun.filter (fun y => y.id != c.id) = []
    rw [hrun]
    exact filter_self c
  · obtain ⟨htile, hth', hothers, hmem⟩ := discard_mma_spec (s := s₀) (tile := tile) hkind hth hlive hwait 0 3 0
    refine ⟨_, exec_groupWatchdog_event hqueue, _, hth', ?_, ?_, rfl, rfl, told_of_lost th c 0 (by decide), hothers, hmem⟩ <;> rw [htile]
    · exact fun y hy => bne_iff_ne.mp (List.mem_filter.mp hy).2
    · exact mwatch_withoutCommand hqueue
  · obtain ⟨htile, hmem, hthreads⟩ := startCopies_copy (s := s₀) hqueue hrun hkind hbar hcount hheld hfree
    obtain ⟨hempty, hstarted, hwatch⟩ := copyStarted_fields hqueue hrun
    refine ⟨s₀.startCopies tile Config.copyRunning, rfl, ?_⟩
    dsimp only
    rw [htile]
    exact ⟨hempty, hstarted, hwatch, hmem, hthreads⟩
  · obtain ⟨lines, stash, hcleans⟩ := copyCleans_eq s₀ tile c d
    have hexec := exec_copyFinish_event hrun hkind hbar
    rw [hcleans] at hexec
    obtain ⟨htile, hfloor, hmem, hthreads⟩ := finishCmd_spec { s₀ with lines := lines, stash := stash } tile c
    refine ⟨_, hexec, ?_, hfloor, hmem, hthreads⟩
    rw [htile]
    show x.crun.filter (fun y => y.id != c.id) = []
    rw [hrun]
    exact filter_self c

end Sys2Proof.Proofs
end

