-- ==== Sys2Proof/Proofs/Bindings.lean ====
section
/-!
PROOFS. BIND and UNBIND (R177, R178).
-/

namespace Sys2Proof.Proofs

open Sys2Proof Sys2Proof.Machine Sys2Proof.Claims

/-! ## The spaces of a range (R177) -/

/-- The top bytes of the addresses of stashes. -/
def StashTop (top : Nat) : Prop := top = 0x80 ∨ top = 0x81 ∨ 0xC0 ≤ top

section
variable {m n : Nat}

/-- In a stash each tile counts as a space of its own. -/
theorem bindSpace_stash (h : StashTop (n / 2 ^ 56)) : bindSpace n = (if 0xC0 ≤ n / 2 ^ 56 then 6 else 3, n / 2 ^ 17) := by
  unfold StashTop at h
  unfold bindSpace
  dsimp only
  rw [if_neg (by omega), if_neg (by omega), if_neg (by omega)]
  by_cases hfar : 0xC0 ≤ n / 2 ^ 56
  · rw [if_neg (by omega), if_neg (by omega), if_neg (by omega), if_pos hfar]
  · rw [if_pos (by omega), if_neg hfar]

/-- Elsewhere the top byte tells the space. -/
theorem bindSpace_of_top (h : ¬ StashTop (n / 2 ^ 56)) (htop : m / 2 ^ 56 = n / 2 ^ 56) : bindSpace m = bindSpace n := by
  unfold StashTop at h
  unfold bindSpace
  dsimp only
  rw [htop, if_neg (show ¬ (n / 2 ^ 56 = 0x80 ∨ n / 2 ^ 56 = 0x81) by omega), if_neg (show ¬ (n / 2 ^ 56 = 0x80 ∨ n / 2 ^ 56 = 0x81) by omega)]
  by_cases hfar : n / 2 ^ 56 < 0xC0
  · rw [if_pos hfar, if_pos hfar]
  · omega

/-- A range with both ends at one top byte, and in one tile where that is a stash's, lies in one space. -/
theorem bindSpace_eq (htop : m / 2 ^ 56 = n / 2 ^ 56) (htile : StashTop (m / 2 ^ 56) → m / 2 ^ 17 = n / 2 ^ 17) : bindSpace m = bindSpace n := by
  by_cases h : StashTop (m / 2 ^ 56)
  · rw [bindSpace_stash h, bindSpace_stash (htop ▸ h), htop, htile h]
  · exact bindSpace_of_top (htop ▸ h) htop

/-- One that leaves the global space does not. -/
theorem bindSpace_ne_of_global (hm : m / 2 ^ 56 = 0) (hn : n / 2 ^ 56 ≠ 0) : bindSpace m ≠ bindSpace n := by
  have hglobal : bindSpace m = (0, 0) := if_pos hm
  have hnot : (bindSpace n).1 ≠ 0 := by
    unfold bindSpace
    dsimp only
    rw [if_neg hn]
    split_ifs <;> exact Nat.succ_ne_zero _
  exact fun heq => hnot (heq ▸ congrArg Prod.fst hglobal)

/-- Nor does one that leaves its tile. -/
theorem bindSpace_ne_of_stash (h : StashTop (m / 2 ^ 56)) (hne : m / 2 ^ 17 ≠ n / 2 ^ 17) : bindSpace m ≠ bindSpace n := by
  intro heq
  by_cases hn : StashTop (n / 2 ^ 56)
  · rw [bindSpace_stash h, bindSpace_stash hn] at heq
    exact hne (congrArg Prod.snd heq)
  · have htop : m / 2 ^ 56 ≠ n / 2 ^ 56 := fun htop => hn (htop ▸ h)
    unfold StashTop at hn h
    have hfst := congrArg Prod.fst heq
    rw [bindSpace_stash h] at hfst
    unfold bindSpace at hfst
    dsimp only at hfst
    split_ifs at hfst <;> omega

end

/-! ## The bindings of a slot -/

/-- A binding of an object and a base. -/
def binds (obj base : Word) (x : Binding) : Bool := x.obj == obj && x.base == base

theorem binds_iff {obj base : Word} {x : Binding} : binds obj base x = true ↔ x.obj = obj ∧ x.base = base := by
  rw [binds, Bool.and_eq_true, beq_iff_eq, beq_iff_eq]

theorem any_binds_iff {l : List Binding} {obj base : Word} : l.any (binds obj base) = true ↔ ∃ x ∈ l, x.obj = obj ∧ x.base = base := by
  simp only [List.any_eq_true, binds_iff]

/-- The bindings with one recorded among them: the one of the same object and base takes its length, or it joins them (R177). -/
def recorded (l : List Binding) (x : Binding) : List Binding :=
  if l.any (binds x.obj x.base) then l.map (fun y => if binds x.obj x.base y then x else y) else l ++ [x]

theorem mem_recorded_self (l : List Binding) (x : Binding) : x ∈ recorded l x := by
  unfold recorded
  split
  next h =>
    obtain ⟨y, hy, hbinds⟩ := List.any_eq_true.mp h
    exact List.mem_map.mpr ⟨y, hy, if_pos hbinds⟩
  next => exact List.mem_append_right _ (List.mem_singleton_self x)

/-- What is recorded and bound before: the binding itself, or one of another object or base. -/
theorem mem_recorded {l : List Binding} {x y : Binding} (h : y ∈ recorded l x) : y = x ∨ (y ∈ l ∧ binds x.obj x.base y = false) := by
  unfold recorded at h
  split at h
  next =>
    obtain ⟨z, hz, rfl⟩ := List.mem_map.mp h
    by_cases hbinds : binds x.obj x.base z = true
    · exact .inl (if_pos hbinds)
    · rw [if_neg hbinds]
      exact .inr ⟨hz, Bool.not_eq_true _ ▸ hbinds⟩
  next hnone =>
    rcases List.mem_append.mp h with hy | hy
    · exact .inr ⟨hy, Bool.not_eq_true _ ▸ fun hbinds => hnone (List.any_eq_true.mpr ⟨y, hy, hbinds⟩)⟩
    · exact .inl (List.mem_singleton.mp hy)

/-- Every binding of another object or base stays. -/
theorem mem_recorded_other {l : List Binding} {x y : Binding} (hother : ¬ (y.obj = x.obj ∧ y.base = x.base)) : y ∈ recorded l x ↔ y ∈ l := by
  have hbinds : ¬ binds x.obj x.base y = true := fun h => hother (binds_iff.mp h)
  refine ⟨fun h => (mem_recorded h).elim (fun heq => absurd (heq ▸ ⟨rfl, rfl⟩) hother) And.left, fun h => ?_⟩
  unfold recorded
  split
  · exact List.mem_map.mpr ⟨y, h, if_neg hbinds⟩
  · exact List.mem_append_left _ h

/-- The binding recorded is the only one of its object and base. -/
theorem eq_of_mem_recorded {l : List Binding} {x y : Binding} (h : y ∈ recorded l x) (hobj : y.obj = x.obj) (hbase : y.base = x.base) : y = x := by
  rcases mem_recorded h with heq | ⟨-, hnot⟩
  · exact heq
  · exact absurd (binds_iff.mpr ⟨hobj, hbase⟩) (by rw [hnot]; exact Bool.false_ne_true)

/-! ## The instructions -/

/-- The thread with other bindings. -/
def withBindings (th : Thread) (l : List Binding) : Thread := { th with bindings := l }

/-- Completing with other bindings changes nothing else of the thread. -/
theorem withBindings_completes (th : Thread) (regs : List Reg) (l : List Binding) : let y := (withBindings (th.noted 4 regs) l).advance
    y.x = th.x ∧ GoesOn th y 4 ∧ SameRest th { y with bindings := th.bindings } := by
  cases th
  exact ⟨rfl, goesOn_advance _ (withBindings _ l) 4 rfl rfl rfl rfl rfl, rfl⟩

section
variable {s : State} {t : Nat} {th : Thread} {a b d : Reg}

theorem exec_bind (h : Issuing s t th) : exec (.bind a b d) s = .next (
    let obj := s.readReg th a
    let base := s.readReg th b
    let len := s.readReg th d
    let x := th.noted 4 [a, b, d]
    if obj.toNat % 8 ≠ 0 then s.misaligned t x obj
    else if len = 0 ∨ 2 ^ 36 < len.toNat ∨ 2 ^ 64 < base.toNat + len.toNat ∨
        bindSpace base.toNat ≠ bindSpace (base.toNat + len.toNat - 1) then s.illegalState t x
    else if 8 ≤ th.bindings.length && !th.bindings.any (binds obj base) then s.illegalState t x
    else s.retire t (withBindings x (recorded th.bindings { obj := obj, base := base, len := len }))) := by
  show execBind a b d s = _
  rw [execBind, onThread_issuing h]
  simp only [readReg_noted]
  rfl

theorem exec_unbind (h : Issuing s t th) : exec (.unbind a b) s =
    .next (s.retire t (withBindings (th.noted 4 [a, b]) (th.bindings.filter (fun x => !binds (s.readReg th a) (s.readReg th b) x)))) := by
  show execUnbind a b s = _
  rw [execUnbind, onThread_issuing h]
  simp only [readReg_noted]
  rfl

/-- A BIND that its second or its third check refuses. -/
theorem traps_bind (hh : HasHandler th) (hexec : exec (.bind a b d) s = .next (s.illegalState t (th.noted 4 [a, b, d]))) :
    Traps s t th (.bind a b d) 2 0 none :=
  traps_here hh _ 4 [a, b, d] 2 0 none hexec (by decide) (by decide)

end

/-- Settles O24: BIND's checks in their order, and the list that it records its binding in; UNBIND filters that list. -/
theorem bindings : Obligations.Bindings := by
  intro s t th a b d h obj base len top last stash bad known whole
  have hexec := exec_bind (a := a) (b := b) (d := d) h
  dsimp only at hexec
  refine ⟨fun hh halign => ?_, fun hh halign hspace => ?_, fun hh halign hfull hnew => ?_, fun halign hgood hwhole hroom => ?_, ?_⟩
  · rw [if_pos halign] at hexec
    exact traps_here hh _ 4 [a, b, d] 3 0 _ hexec (by decide) (by decide)
  · have hrefused : len = 0 ∨ 2 ^ 36 < len.toNat ∨ 2 ^ 64 < base.toNat + len.toNat ∨ bindSpace base.toNat ≠ bindSpace last := by
      rcases hspace with (hzero | hlong | hpast) | ⟨hglobal, hleaves⟩ | ⟨hstash, hleaves⟩
      · exact .inl hzero
      · exact .inr (.inl hlong)
      · exact .inr (.inr (.inl hpast))
      · exact .inr (.inr (.inr (bindSpace_ne_of_global hglobal hleaves)))
      · exact .inr (.inr (.inr (bindSpace_ne_of_stash hstash hleaves)))
    rw [if_neg (not_not.mpr halign), if_pos hrefused] at hexec
    exact traps_bind hh hexec
  · have hrefused : (8 ≤ th.bindings.length && !th.bindings.any (binds obj base)) = true := by
      rw [Bool.and_eq_true, Bool.not_eq_true', ← Bool.not_eq_true, any_binds_iff]
      exact ⟨decide_eq_true hfull, hnew⟩
    rw [if_neg (not_not.mpr halign), if_pos hrefused, ite_self] at hexec
    exact traps_bind hh hexec
  · obtain ⟨htop, htile⟩ := hwhole
    have hone : bindSpace base.toNat = bindSpace last := bindSpace_eq htop htile
    have haccepted : ¬ (len = 0 ∨ 2 ^ 36 < len.toNat ∨ 2 ^ 64 < base.toNat + len.toNat ∨ bindSpace base.toNat ≠ bindSpace last) := by
      rintro (hzero | hlong | hpast | hne)
      · exact hgood (.inl hzero)
      · exact hgood (.inr (.inl hlong))
      · exact hgood (.inr (.inr hpast))
      · exact hne hone
    have hfits : ¬ (8 ≤ th.bindings.length && !th.bindings.any (binds obj base)) = true := by
      rw [Bool.and_eq_true, Bool.not_eq_true', ← Bool.not_eq_true, any_binds_iff, decide_eq_true_iff]
      rintro ⟨hfull, hnew⟩
      exact hroom.elim hnew (Nat.not_lt.mpr hfull)
    rw [if_neg (not_not.mpr halign), if_neg haccepted, if_neg hfits] at hexec
    exact becomes_set _ _ hexec _ ⟨mem_recorded_self _ _, fun x hx => mem_recorded_other hx, fun x hx hobj hbase =>
      congrArg Binding.len (eq_of_mem_recorded hx hobj hbase), withBindings_completes ..⟩
  · refine becomes_set _ _ (exec_unbind h) _ ⟨fun x => ?_, withBindings_completes ..⟩
    show x ∈ th.bindings.filter _ ↔ _
    rw [List.mem_filter, Bool.not_eq_true', ← Bool.not_eq_true, binds_iff]

end Sys2Proof.Proofs
end

