-- ==== Sys2Proof/Proofs/CommandIssue.lean ====
section
/-!
PROOFS. Matrix and copy commands at their issue, and CPFREE (R197, R222, R230, R232, R247, R254).
-/

namespace Sys2Proof.Proofs

open Sys2Proof Sys2Proof.Machine Sys2Proof.Claims

/-- An issuing thread completes no wait of an earlier issue. -/
theorem replay_of_issuing {s : State} {t : Nat} {th : Thread} (h : Issuing s t th) : th.replay = false := by
  obtain ⟨-, -, -, -, hissue⟩ := h
  exact hissue

/-! ## A command enters its queue (R197, R222) -/

theorem queue_setQueue (x : Tile) (copy : Bool) (q : List Cmd) : (x.setQueue copy q).queue copy = q := by
  cases copy <;> rfl

section
variable {s : State} {t : Nat} {th : Thread} {i : Instr} {g : Gd} {copy : Bool} {fn : Nat} {k : CmdKind}

/-- The machine with a command of the thread in its queue. -/
def entered (s : State) (t : Nat) (th : Thread) (g : Gd) (copy : Bool) (fn : Nat) (k : CmdKind) : State :=
  ({ s with nextOp := s.nextOp + 1 }).modTile (tileOf th.home) (fun x =>
    x.setQueue copy (x.queue copy ++ [s.newCmd t th fn (if guardOf th g = Guard.unresolved then g else none) k]))

theorem enqueue_eq (s : State) (t : Nat) (th : Thread) (i : Instr) (g : Gd) (copy : Bool) (fn : Nat) (k : CmdKind) :
    s.enqueue t th i g copy fn k =
      if guardOf th g = .ff then s.retire t th
      else if queueBound copy ≤ ((s.tile (tileOf th.home)).queue copy).length then s.await t th (.sendQueue i)
      else (entered s t th g copy fn k).retire t th := by
  cases g <;> rfl

theorem queue_entered (s : State) (t : Nat) (th : Thread) (g : Gd) (copy : Bool) (fn : Nat) (k : CmdKind) :
    ((entered s t th g copy fn k).tile (tileOf th.home)).queue copy =
      (s.tile (tileOf th.home)).queue copy ++ [s.newCmd t th fn (if guardOf th g = Guard.unresolved then g else none) k] := by
  unfold entered
  rw [tile_modTile_self, queue_setQueue]
  rfl

/-- An instruction that comes to its queue enters it under its guard. -/
theorem enters_of_enqueue (h : Issuing s t th) {regs : List Reg} {f : Nat → Thread → State} (he : exec i s = onThread s i.len regs f) (hlen : i.len = 4)
    (hf : f t (th.noted i.len regs) = s.enqueue t (th.noted i.len regs) i g copy fn k) : Enters s t th i g (·.queue copy) (queueBound copy) k := by
  have hissue := replay_of_issuing h
  rw [enqueue_eq] at hf
  have hexec := he.trans (onThread_issuing h i.len regs f)
  refine ⟨fun hff => fallsThrough_of_retire h he (hf.trans (if_pos hff)), fun hff hfull => ?_, fun hff hroom => ?_⟩
  · exact waits_of_await rfl (.refl s) (hexec.trans (congrArg _ (hf.trans ((if_neg hff).trans (if_pos hfull)))))
  · have hrun := hexec.trans (congrArg _ (hf.trans ((if_neg hff).trans (if_neg (Nat.not_le.mpr hroom)))))
    refine ⟨_, _, _, hrun, State.retire_thread? _ _ _, queue_entered s t (th.noted i.len regs) g copy fn k, rfl, rfl, rfl, rfl,
      if_neg (hissue ▸ Bool.false_ne_true), rfl, rfl, rfl, goesOn_advance th (th.noted i.len regs) 4 rfl rfl rfl hlen rfl, sameRest_advance (sameRest_noted ..),
      fun _ _ _ => rfl, fun t' ht => ?_, rfl⟩
    exact sameOthers_setThread (entered s t (th.noted i.len regs) g copy fn k) t _ t' ht

end

/-! ## The checks of ranges (R122, R232, R247) -/

section
variable {s : State} {y : Thread} {va : Word} {n : Nat} {window : Bool}

theorem spaceFault_eq_none {ok : Space → Bool} (hok : ok (s.spaceOf va) = true) (hreserved : ok .reserved = false) : s.spaceFault va ok = none := by
  have hspace : s.spaceOf va ≠ .reserved := fun h => by
    rw [h, hreserved] at hok
    exact Bool.false_ne_true hok
  exact (if_neg hspace).trans (if_pos hok)

theorem spaceFault_local {ok : Space → Bool} {off : Nat} (hoff : off < 2 ^ 56) (hok : ok .loc = false) : s.spaceFault (localVa off) ok = some 3 := by
  obtain ⟨-, hspace, -⟩ := localVa_fields (s := s) hoff
  unfold State.spaceFault
  rw [hspace, if_neg (by decide), hok]
  rfl

/-- The checks of a range at number m whose ends share a top byte. -/
theorem rangeFault_eq (hn : 0 < n) (m : Nat) (hm : m + n ≤ 2 ^ 64) (htop : m / 2 ^ 56 = (m + n - 1) / 2 ^ 56) :
    s.rangeFault y ((m : Int), n) window =
      if s.spaceOf (BitVec.ofNat 64 m) = .reserved then some 2
      else if !kindEngine (s.spaceOf (BitVec.ofNat 64 m)) then some 3
      else if !s.spanOk y.guest (BitVec.ofNat 64 m) n then some 2
      else if window && s.spaceOf (BitVec.ofNat 64 m) == .global && s.inWindow y (BitVec.ofNat 64 (low56 (BitVec.ofNat 64 m))) n then some 6
      else none := by
  have hbounds : ¬ ((m : Int) < 0 ∨ (2 : Int) ^ 64 < (m : Int) + (n : Int)) := by omega
  have hlast : (m : Int) + ((max n 1 : Nat) : Int) - 1 = ((m + n - 1 : Nat) : Int) := by omega
  have hsame : ¬ topByte (BitVec.ofNat 64 m) ≠ topByte (BitVec.ofNat 64 (m + n - 1)) := by
    rw [topByte, topByte, BitVec.toNat_ofNat, BitVec.toNat_ofNat, Nat.mod_eq_of_lt (by omega), Nat.mod_eq_of_lt (by omega)]
    exact not_not.mpr htop
  unfold State.rangeFault
  dsimp only
  rw [if_neg hbounds, hlast, BitVec.ofInt_natCast, BitVec.ofInt_natCast, if_neg hsame]

/-- A range in the global space, clear of the constant window where that is asked, passes. -/
theorem rangeFault_global (hn : 0 < n) {m : Nat} (hm : m + n ≤ 2 ^ 56) (hwindow : window = true → s.inWindow y (BitVec.ofNat 64 m) n = false) :
    s.rangeFault y ((m : Int), n) window = none := by
  have hnat : (BitVec.ofNat 64 m).toNat = m := by rw [BitVec.toNat_ofNat, Nat.mod_eq_of_lt (by omega)]
  have hglobal : (BitVec.ofNat 64 m).toNat < 2 ^ 56 := by omega
  have hspan : s.spanOk y.guest (BitVec.ofNat 64 m) n = true := by
    unfold State.spanOk
    rw [spaceOf_global s hglobal]
    exact spaceOk_global s _ _ hglobal
  have hclear : ¬ (window && s.inWindow y (BitVec.ofNat 64 m) n) = true := by
    rw [Bool.and_eq_true]
    exact fun ⟨hw, hin⟩ => Bool.false_ne_true ((hwindow hw).symm.trans hin)
  rw [rangeFault_eq hn m (by omega) (by omega), spaceOf_global s hglobal, hspan, low56_global hglobal, hnat, beq_self_eq_true, Bool.and_true,
    if_neg hclear]
  rfl

/-- A range in the own stash passes. -/
theorem rangeFault_own (hn : 0 < n) {off : Nat} (hoff : off + n ≤ 2 ^ 17) :
    s.rangeFault y (((0x80 * 2 ^ 56 + off : Nat) : Int), n) window = none := by
  obtain ⟨-, hspace, -, -, hok⟩ := ownVa_fields (s := s) (off := off) (by omega)
  have hspan : s.spanOk y.guest (ownVa off) n = true := by
    unfold State.spanOk
    rw [hspace]
    exact (hok _ _).trans (decide_eq_true (by omega))
  rw [rangeFault_eq hn _ (by omega) (by omega), show BitVec.ofNat 64 (0x80 * 2 ^ 56 + off) = ownVa off from rfl, hspace, hspan,
    show (Space.own == Space.global) = false from rfl, Bool.and_false, Bool.false_and]
  rfl

/-- A range of the statement passes. -/
theorem rangeFault_of_within {lo hi : Int} (hlen : lo < hi) (h : Within lo hi)
    (hwindow : window = true → hi ≤ 2 ^ 56 → s.inWindow y (BitVec.ofNat 64 lo.toNat) (hi - lo).toNat = false) :
    s.rangeFault y (lo, (hi - lo).toNat) window = none := by
  have hn : 0 < (hi - lo).toNat := by omega
  rcases h with ⟨hlo, hhi⟩ | ⟨hlo, hhi⟩
  · obtain ⟨m, rfl⟩ := Int.eq_ofNat_of_zero_le hlo
    exact rangeFault_global hn (by omega) (fun hw => hwindow hw hhi)
  · obtain ⟨off, rfl⟩ : ∃ off : Nat, lo = ((0x80 * 2 ^ 56 + off : Nat) : Int) := ⟨(lo - 0x80 * 2 ^ 56).toNat, by omega⟩
    exact rangeFault_own hn (by omega)

/-- A range in local store is of the wrong kind. -/
theorem rangeFault_local (hn : 0 < n) {off : Nat} (hoff : off + n ≤ 2 ^ 56) :
    s.rangeFault y (((localVa off).toNat : Int), n) window = some 3 := by
  obtain ⟨hnat, hspace, -⟩ := localVa_fields (s := s) (off := off) (by omega)
  rw [hnat, rangeFault_eq hn _ (by omega) (by omega), show BitVec.ofNat 64 (0x82 * 2 ^ 56 + off) = localVa off from rfl, hspace]
  rfl

end

/-! ## Commands that pass their checks -/

section
variable {s : State} {t : Nat} {th : Thread} {g : Gd} {l n : Bool} {f : Fmt} {a b : Reg}

/-- Rows in the own stash, and an index vector there (R247). -/
theorem enters_mstagea (h : Issuing s t th) {p q : Nat} (ha : s.readReg th a = ownVa p) (hb : s.readReg th b = ownVa q) (hp : p % 32 = 0) (hq : q % 32 = 0)
    (hpb : p < 2 ^ 17) (hqb : q < 2 ^ 17) :
    Enters s t th (.mstagea g l a b) g Tile.mqueue 16 (.stageA l (s.readReg th a) (s.readReg th b)) := by
  obtain ⟨hanat, haspace, -, -, haok⟩ := ownVa_fields (s := s) hpb
  obtain ⟨hbnat, hbspace, -, -, hbok⟩ := ownVa_fields (s := s) hqb
  refine enters_of_enqueue (copy := false) (fn := 0) h (show exec (.mstagea g l a b) s = execMstagea g l a b s from rfl) rfl ?_
  dsimp only
  rw [readReg_noted, readReg_noted, ha, hb, if_neg (by omega), if_neg (by omega), spaceFault_eq_none (by rw [haspace]; rfl) rfl,
    spaceFault_eq_none (by rw [hbspace]; rfl) rfl]
  dsimp only
  rw [haok, hbok, decide_eq_true (by omega), decide_eq_true (by omega)]
  rfl

theorem enters_mstageb (h : Issuing s t th) (ha : (s.readReg th a).toNat % 32 = 0) (hb : (s.readReg th b).toNat % 32 = 0)
    (hwithin : let av := s.readReg th a; let bv := s.readReg th b
      Within (min (av.toNat : Int) (av.toNat + 15 * bv.toInt)) (max (av.toNat : Int) (av.toNat + 15 * bv.toInt) + 96)) :
    Enters s t th (.mstageb g l a b) g Tile.mqueue 16 (.stageB l (s.readReg th a) (s.readReg th b)) := by
  refine enters_of_enqueue (copy := false) (fn := 1) h (show exec (.mstageb g l a b) s = execMstageb g l a b s from rfl) rfl ?_
  dsimp only
  rw [readReg_noted, readReg_noted, if_neg (not_not.mpr ha), if_neg (not_not.mpr hb), stageRange]
  rw [rangeFault_of_within (by omega) hwithin (fun hw => absurd hw Bool.false_ne_true)]

theorem enters_mflush (h : Issuing s t th) (ha : (s.readReg th a).toNat % 128 = 0)
    (hwithin : Within (s.readReg th a).toNat ((s.readReg th a).toNat + 1024))
    (hwindow : topByte (s.readReg th a) = 0 → s.inWindow th (s.readReg th a) 1024 = false) :
    Enters s t th (.mflush g n a) g Tile.mqueue 16 (.mflush n (s.readReg th a)) := by
  refine enters_of_enqueue (copy := false) (fn := 3) h (show exec (.mflush g n a) s = execMflush g n a s from rfl) rfl ?_
  have hpass := rangeFault_of_within (s := s) (y := th) (window := true) (by omega) hwithin (fun _ hhi => by
    rw [Int.toNat_natCast, BitVec.ofNat_toNat, BitVec.setWidth_eq, show (((s.readReg th a).toNat : Int) + 1024 - (s.readReg th a).toNat).toNat = 1024 by omega]
    exact hwindow (topByte_global (by omega)))
  rw [show (((s.readReg th a).toNat : Int) + 1024 - (s.readReg th a).toNat).toNat = 1024 by omega] at hpass
  dsimp only
  rw [readReg_noted, if_neg (not_not.mpr ha), show s.rangeFault (th.noted _ [a]) _ true = none from hpass]

theorem enters_mflushSum (h : Issuing s t th) (ha : (s.readReg th a).toNat % 1024 = 0) (hglobal : (s.readReg th a).toNat < 2 ^ 56)
    (hpart : (s.readReg th b).toNat < 64) :
    Enters s t th (.mflushSum g n a b) g Tile.mqueue 16 (.mflushSum n (s.readReg th a) (s.readReg th b).toNat) := by
  refine enters_of_enqueue (copy := false) (fn := 4) h (show exec (.mflushSum g n a b) s = execMflushSum g n a b s from rfl) rfl ?_
  dsimp only
  rw [readReg_noted, readReg_noted, if_neg (not_not.mpr ha), spaceFault_eq_none (by rw [spaceOf_global s hglobal]; rfl) rfl]
  exact if_neg (Nat.not_le.mpr hpart)

/-- What CPY and CPY.FILL come to: the checks of their descriptor, then their queue. -/
theorem enters_copyOp (h : Issuing s t th) {i : Instr} {regs : List Reg} {fn : Nat} {pattern : State → Thread → Option Word} {w : Option Word}
    (he : exec i s = copyOp i g regs fn pattern s) (hlen : i.len = 4) (hw : pattern s (th.noted 4 regs) = w) (hbad : (th.copyDesc w).2 = false)
    (hbytes : (th.copyDesc w).1.bytes ≤ 2 ^ 32) (haligned : (th.copyDesc w).1.misaligned = none) (hfault : s.copyFault th (th.copyDesc w).1 = none) :
    Enters s t th i g Tile.cqueue 32 (.copy (th.copyDesc w).1) := by
  refine enters_of_enqueue (copy := true) (fn := fn) (regs := regs) h (he.trans (by rw [hlen]; rfl)) hlen ?_
  have hpass : ¬ ((th.copyDesc w).2 || decide (2 ^ 32 < (th.copyDesc w).1.bytes)) = true := by
    rw [hbad, decide_eq_false (Nat.not_lt.mpr hbytes)]
    exact Bool.false_ne_true
  rw [hlen, hw, show (th.noted 4 regs).copyDesc w = th.copyDesc w from rfl]
  generalize th.copyDesc w = d at hpass haligned hfault
  dsimp only
  rw [if_neg hpass, haligned, show s.copyFault (th.noted 4 regs) d.1 = none from hfault]

end

theorem commandEntry : CommandEntry := by
  intro s t th g l n f a b h av bv matrix
  refine ⟨?_, ?_, fun p q ha hb hp hq hpb hqb => enters_mstagea h ha hb hp hq hpb hqb, fun ha hb hwithin => enters_mstageb h ha hb hwithin,
    fun ha hwithin hwindow => enters_mflush h ha hwithin hwindow, fun ha hglobal hpart => enters_mflushSum h ha hglobal hpart,
    fun hbad hbytes haligned hfault => ?_, fun hbad hbytes haligned hfault => ?_⟩
  · exact enters_of_enqueue (copy := false) (fn := 2) h (show exec (.mma g f n l) s = execMma g f n l s from rfl) rfl rfl
  · exact enters_of_enqueue (copy := false) (fn := 5) h (show exec (.mclr g n) s = execMclr g n s from rfl) rfl rfl
  · exact enters_copyOp h (show exec (.cpy g) s = execCpy g s from rfl) rfl rfl hbad hbytes haligned hfault
  · exact enters_copyOp h (show exec (.cpyFill g a) s = execCpyFill g a s from rfl) rfl (congrArg some (readReg_noted ..)) hbad hbytes haligned hfault

/-! ## Commands that a check refuses -/

section
variable {s : State} {t : Nat} {th : Thread} {g : Gd} {l n : Bool} {a b : Reg}

/-- MSTAGEA and MSTAGEB check the alignment of their operands first, a before b (R247). -/
theorem mstage_misaligned (h : Issuing s t th) (hh : HasHandler th) {w : Word}
    (hw : ((s.readReg th a).toNat % 32 ≠ 0 ∧ w = s.readReg th a) ∨
      ((s.readReg th a).toNat % 32 = 0 ∧ (s.readReg th b).toNat % 32 ≠ 0 ∧ w = s.readReg th b)) :
    Traps s t th (.mstagea g l a b) 3 0 (some w) ∧ Traps s t th (.mstageb g l a b) 3 0 (some w) := by
  refine ⟨traps_of_onThread h hh [a, b] _ (show exec (.mstagea g l a b) s = execMstagea g l a b s from rfl) ?_ (by decide) (by decide),
    traps_of_onThread h hh [a, b] _ (show exec (.mstageb g l a b) s = execMstageb g l a b s from rfl) ?_ (by decide) (by decide)⟩ <;>
  · dsimp only
    rw [readReg_noted, readReg_noted]
    rcases hw with ⟨ha, rfl⟩ | ⟨ha, hb, rfl⟩
    · rw [if_pos ha]
      rfl
    · rw [if_neg (not_not.mpr ha), if_pos hb]
      rfl

/-- Local store holds no rows of A (R123). -/
theorem mstagea_local (h : Issuing s t th) (hh : HasHandler th) {off : Nat} (ha : s.readReg th a = localVa off) (hoff : off < 512) (halign : off % 32 = 0)
    (hb : (s.readReg th b).toNat % 32 = 0) : Traps s t th (.mstagea g l a b) 4 3 (some (s.readReg th a)) := by
  obtain ⟨hnat, -, -⟩ := localVa_fields (s := s) (off := off) (by omega)
  refine traps_of_onThread h hh [a, b] _ (show exec (.mstagea g l a b) s = execMstagea g l a b s from rfl) ?_ (by decide) (by decide)
  dsimp only
  rw [readReg_noted, readReg_noted, ha, if_neg (by omega), if_neg (not_not.mpr hb), spaceFault_local (by omega) rfl]
  rfl

theorem mflush_misaligned (h : Issuing s t th) (hh : HasHandler th) (ha : (s.readReg th a).toNat % 128 ≠ 0) :
    Traps s t th (.mflush g n a) 3 0 (some (s.readReg th a)) := by
  refine traps_of_onThread h hh [a] _ (show exec (.mflush g n a) s = execMflush g n a s from rfl) ?_ (by decide) (by decide)
  dsimp only
  rw [readReg_noted, if_pos ha]
  rfl

theorem mflush_local (h : Issuing s t th) (hh : HasHandler th) {off : Nat} (ha : s.readReg th a = localVa off) (hoff : off < 512)
    (halign : off % 128 = 0) : Traps s t th (.mflush g n a) 4 3 (some (s.readReg th a)) := by
  obtain ⟨hnat, -, -⟩ := localVa_fields (s := s) (off := off) (by omega)
  refine traps_of_onThread h hh [a] _ (show exec (.mflush g n a) s = execMflush g n a s from rfl) ?_ (by decide) (by decide)
  dsimp only
  rw [readReg_noted, ha, if_neg (by omega), rangeFault_local (by decide) (by omega)]
  rfl

theorem mflushSum_misaligned (h : Issuing s t th) (hh : HasHandler th) (ha : (s.readReg th a).toNat % 1024 ≠ 0) :
    Traps s t th (.mflushSum g n a b) 3 0 (some (s.readReg th a)) := by
  refine traps_of_onThread h hh [a, b] _ (show exec (.mflushSum g n a b) s = execMflushSum g n a b s from rfl) ?_ (by decide) (by decide)
  dsimp only
  rw [readReg_noted, if_pos ha]
  rfl

/-- A part's number is below 64 (R253). -/
theorem mflushSum_part (h : Issuing s t th) (hh : HasHandler th) (ha : (s.readReg th a).toNat % 1024 = 0) (hglobal : (s.readReg th a).toNat < 2 ^ 56)
    (hpart : 64 ≤ (s.readReg th b).toNat) : Traps s t th (.mflushSum g n a b) 2 0 none := by
  refine traps_of_onThread h hh [a, b] _ (show exec (.mflushSum g n a b) s = execMflushSum g n a b s from rfl) ?_ (by decide) (by decide)
  dsimp only
  rw [readReg_noted, readReg_noted, if_neg (not_not.mpr ha), spaceFault_eq_none (by rw [spaceOf_global s hglobal]; rfl) rfl]
  exact if_pos hpart

theorem mflushSum_local (h : Issuing s t th) (hh : HasHandler th) (ha : s.readReg th a = localVa 0) :
    Traps s t th (.mflushSum g n a b) 4 3 (some (s.readReg th a)) := by
  refine traps_of_onThread h hh [a, b] _ (show exec (.mflushSum g n a b) s = execMflushSum g n a b s from rfl) ?_ (by decide) (by decide)
  dsimp only
  rw [readReg_noted, ha, if_neg (by decide), spaceFault_local (by decide) rfl]
  rfl

/-- A descriptor with a reserved bit set, or with a count of dimensions outside 1 to 12 (R230). -/
theorem copyDesc_bad (w : Option Word) (h : th.e[14].toNat / 256 ≠ 0 ∨ th.e[14].toNat % 16 = 0 ∨ 12 < th.e[14].toNat % 16) :
    (th.copyDesc w).2 = true := by
  have hcount : bits th.e[14].toNat 0 4 = th.e[14].toNat % 16 := by
    rw [bits, Nat.pow_zero, Nat.div_one]
    rfl
  show (th.e[14].toNat / 2 ^ 8 != 0 || bits th.e[14].toNat 0 4 == 0 || decide (12 < bits th.e[14].toNat 0 4)) = true
  simp only [hcount, Bool.or_eq_true, bne_iff_ne, beq_iff_eq, decide_eq_true_iff, or_assoc]
  exact h

theorem traps_copyOp (h : Issuing s t th) (hh : HasHandler th) {i : Instr} {regs : List Reg} {fn : Nat} {pattern : State → Thread → Option Word}
    (he : exec i s = copyOp i g regs fn pattern s) (hbad : ∀ w, (th.copyDesc w).2 = true) : Traps s t th i 2 0 none := by
  refine traps_of_onThread h hh regs _ he ?_ (by decide) (by decide)
  dsimp only
  rw [show (th.noted 4 regs).copyDesc (pattern s (th.noted 4 regs)) = th.copyDesc (pattern s (th.noted 4 regs)) from rfl, hbad, Bool.true_or]
  rfl

end

theorem commandChecks : CommandChecks := by
  intro s t th g l n a b h hh av bv ndim
  refine ⟨fun ha => mstage_misaligned h hh (.inl ⟨ha, rfl⟩), fun ha hb => mstage_misaligned h hh (.inr ⟨ha, hb, rfl⟩), mflush_misaligned h hh,
    mflushSum_misaligned h hh, mflushSum_part h hh, fun off hoff ha => ⟨mflush_local h hh ha hoff, fun h0 => ?_, mstagea_local h hh ha hoff⟩,
    fun hbad => ⟨?_, ?_⟩⟩
  · exact mflushSum_local h hh (h0 ▸ ha)
  · exact traps_copyOp h hh (show exec (.cpy g) s = execCpy g s from rfl) (copyDesc_bad · hbad)
  · exact traps_copyOp h hh (show exec (.cpyFill g a) s = execCpyFill g a s from rfl) (copyDesc_bad · hbad)

theorem freeEntries : FreeEntries := by
  intro s t th d h x _ _
  refine computes_result h (.cpfree d) [d] d _ _ (show exec (.cpfree d) s = execCpfree d s from rfl) ?_
  rw [Nat.mul_comm 256]
  rfl

/-- Settles O38: a command whose checks pass comes to its queue, where its guard and the queue's bound decide; a check that fails traps. -/
theorem commandOutcomes : Obligations.CommandOutcomes := ⟨commandEntry, commandChecks, freeEntries⟩

end Sys2Proof.Proofs
end

