-- ==== Sys2Proof/Proofs/Monitors.lean ====
section
/-!
PROOFS. MON, MONCLR, MWAIT and SLEEP (R166, R191 to R195).
-/

namespace Sys2Proof.Proofs

open Sys2Proof Sys2Proof.Machine Sys2Proof.Claims

/-! ## MON (R191) -/

/-- The machine without what it holds of the arms of a thread's monitors, those that `which` names. -/
def withoutArms (s : State) (t : Nat) (which : Nat → Bool) : State := { s with arms := s.arms.filter (fun r => !(r.tid == t && which r.m)) }

theorem mem_withoutArms {s : State} {t : Nat} {which : Nat → Bool} {r : Arm} :
    r ∈ (withoutArms s t which).arms ↔ r ∈ s.arms ∧ ¬ (r.tid = t ∧ which r.m = true) := by
  rw [withoutArms, List.mem_filter, Bool.not_eq_true', ← Bool.not_eq_true, Bool.and_eq_true, beq_iff_eq]

/-- The thread with a monitor armed under a number. -/
def armedAs (th : Thread) (m : BitVec 2) (arm : Nat) : Thread := { th with mons := th.mons.set m.toNat { arm := arm, signal := none } }

/-- What the statement says of a monitor that MON has armed under a number, beside its message. -/
def Arms (s u : State) (t : Nat) (th th' : Thread) (m : BitVec 2) (arm : Nat) : Prop :=
  (∀ j (h : j < 4), th'.mons[j] = if j = m.toNat then { arm := arm, signal := none } else th.mons[j]) ∧
    (∀ r, r ∈ u.arms ↔ r ∈ s.arms ∧ ¬ (r.tid = t ∧ r.m = m.toNat)) ∧ th'.usedShared = true ∧ th'.x = th.x ∧ GoesOn th th' 4 ∧
    SameRest th { th' with mons := th.mons } ∧ u.mem = s.mem ∧ SameShared s u ∧ SameOthers s u t

/-- MON waits at the gate, or arms its monitor with a message that `carries` describes. -/
def GatedArm (s : State) (t : Nat) (th : Thread) (a : Reg) (m : BitVec 2) (carries : State → Nat → Prop) : Prop :=
  Gated s t th (.mon a m) (∃ u th' arm, exec (.mon a m) s = .next u ∧ u.thread? t = some th' ∧ carries u arm ∧ Arms s u t th th' m arm)

/-- Arms a monitor under the next number, with X's message, which carries it. -/
def armAndPost (t : Nat) (m : BitVec 2) (X : Nat → State → Thread → Nat → Nat → State) (s : State) (th : Thread) : State :=
  let arm := s.nextRid
  let y : Thread := { armedAs th m arm with usedShared := true }
  (X arm { withoutArms s t (· == m.toNat) with nextRid := arm + 1 } y arm 0).retire t y

section
variable {s v : State} {t : Nat} {th : Thread} {a : Reg} {m : BitVec 2} {X : Nat → State → Thread → Nat → Nat → State}
  {carries : Nat → State → Nat → Nat → Prop}

/-- The same arms are taken from a prepared state. -/
theorem numbered_withoutArms (hv : Prepared s v) (t : Nat) (which : Nat → Bool) (k : Nat) :
    Numbered (withoutArms s t which) { withoutArms v t which with nextRid := k } := by
  have hback := congrArg (withoutArms · t which) hv.numbered
  exact hback

theorem sameRest_armed (th : Thread) (m : BitVec 2) (arm : Nat) :
    SameRest th { (sending (armedAs th m arm) 4 true th.lastTag).advance with mons := th.mons } := by
  cases th
  rfl

/-- What thread t finds after it has armed a monitor. -/
theorem armAndPost_spec (hv : Prepared s v) (hX : ∀ arm, Carries (withoutArms s t (· == m.toNat)) t (armedAs th m arm) (X arm) (carries arm)) (regs : List Reg) :
    ∃ th' arm, let u := armAndPost t m X v (th.noted 4 regs)
      u.thread? t = some th' ∧ carries arm u arm 0 ∧ Arms s u t th th' m arm := by
  have hv' := numbered_withoutArms hv t (· == m.toNat) (v.nextRid + 1)
  obtain ⟨hleft, hcarries⟩ := hX v.nextRid _ 4 true th.lastTag v.nextRid 0 (sending (armedAs th m v.nextRid) 4 true th.lastTag).advance hv'
  obtain ⟨hmem, hshared, hothers⟩ := unchanged_setThread hv' hleft t (sending (armedAs th m v.nextRid) 4 true th.lastTag).advance
  have hkept := congrArg State.arms hleft
  have harms : v.arms = s.arms := by
    have k := congrArg State.arms hv
    exact k
  refine ⟨_, v.nextRid, State.retire_thread? _ _ _, hcarries, fun j hj => ?_, fun r => ?_, rfl, rfl,
    goesOn_sending (armedAs th m v.nextRid) 4 true th.lastTag, sameRest_armed .., hmem, hshared, hothers⟩
  · show (th.mons.set m.toNat { arm := v.nextRid, signal := none })[j] = _
    rw [Vector.getElem_set]
    simp only [eq_comm]
  · rw [← harms, ← beq_iff_eq (a := r.m), ← mem_withoutArms (which := (· == m.toNat))]
    exact iff_of_eq (congrArg (r ∈ ·) hkept)

/-- MON of an address that passes its checks comes to the gate, and behind it arms its monitor. -/
theorem gated_mon (hrun : Carried s t th → exec (.mon a m) s = .next (v.gate t (th.noted 4 [a]) (.mon a m) (armAndPost t m X)))
    (hv : Prepared s v) (hfresh : v.fresh = s.fresh)
    (hX : ∀ arm, Carries (withoutArms s t (· == m.toNat)) t (armedAs th m arm) (X arm) (carries arm)) :
    GatedArm s t th a m (fun u arm => carries arm u arm 0) := by
  refine gated_of_gate hrun hv hfresh (fun u hu he => ?_)
  obtain ⟨th', arm, hspec⟩ := armAndPost_spec hu hX [a]
  exact ⟨_, th', arm, he, hspec⟩

/-- MON checks its address as an access of one byte. -/
theorem exec_mon (h : Carried s t th) : ∃ f, exec (.mon a m) s = .next (s.access t (th.noted 4 [a]) (.mon a m) (s.readReg th a)
      { n := 1, align := 1, kind := kindMonitor, write := false } f) ∧
    (∀ u y va pa, f u y (.global va pa) = u.gate t y (.mon a m) (armAndPost t m (fun arm u y _ _ =>
      u.send (placeOfSlot y.home) (chanThread t (lineOf pa)) Config.latHome (.armRequest t m.toNat arm pa y.clock)))) ∧
    (∀ u y dev, f u y (.peer dev) = u.gate t y (.mon a m) (armAndPost t m (fun arm u y rid op =>
      u.sendPeer t y rid op dev (s.readReg th a) (.arm m.toNat arm)))) := by
  apply Exists.intro
  refine ⟨?_, fun _ _ _ _ => ?_, fun _ _ _ => ?_⟩
  · show execMon a m s = _
    rw [execMon, onThread_carried h]
    dsimp only
    rw [readReg_noted]
  · rfl
  · rfl

/-- A message that arms a global line's monitor carries the clock of its issue (R191). -/
theorem carries_armRequest {arm pa : Nat} {y : Thread} (hy : y.clock = th.clock) :
    Carries s t y (fun u z _ _ => u.send (placeOfSlot z.home) (chanThread t (lineOf pa)) Config.latHome (.armRequest t m.toNat arm pa z.clock))
      (fun u _ _ => Sent s u 100 (.armRequest t m.toNat arm pa th.clock)) := by
  intro v len shared tag rid op th' hv
  obtain ⟨hleft, hsent⟩ := send_sent v (placeOfSlot y.home) (chanThread t (lineOf pa)) Config.latHome (.armRequest t m.toNat arm pa y.clock)
  exact ⟨hleft, hy ▸ sent_of_numbered hv hsent rfl⟩

theorem gated_mon_global {pa : Nat} (hg : GlobalAt s th (s.readReg th a) 1 pa false) :
    GatedArm s t th a m (fun u arm => Sent s u 100 (.armRequest t m.toNat arm pa th.clock)) := by
  obtain ⟨utlb, hcheck⟩ := check_global (kind := kindMonitor) hg rfl 4 [a]
  refine gated_mon (s := s) (th := th) (v := { s with utlb := utlb }) (fun hcarried => ?_) rfl rfl (fun arm => carries_armRequest (y := armedAs th m arm) rfl)
  obtain ⟨f, hexec, hglobal, -⟩ := exec_mon (a := a) (m := m) hcarried
  refine hexec.trans (congrArg _ ?_)
  unfold State.access
  rw [hcheck]
  exact hglobal ..

theorem gated_mon_peer {dev : Nat} (hp : PeerAt s th (s.readReg th a) 1 dev) :
    GatedArm s t th a m (fun u arm => AsksPeer s u t th (s.readReg th a) dev arm 0 (.arm m.toNat arm)) := by
  refine gated_mon (s := s) (th := th) (v := s) (fun hcarried => ?_) rfl rfl (fun arm =>
    carries_peer (va := s.readReg th a) (dev := dev) (what := .arm m.toNat arm))
  obtain ⟨f, hexec, -, hpeer⟩ := exec_mon (a := a) (m := m) hcarried
  refine hexec.trans (congrArg _ ?_)
  unfold State.access
  rw [(Names.peer hp).check (by decide) rfl false 4 [a]]
  exact hpeer ..

/-- A stash holds nothing that a monitor may watch (R191). -/
theorem traps_mon (h : Issuing s t th) (hh : HasHandler th)
    (hcheck : s.check (th.noted 4 [a]) (s.readReg th a) { n := 1, align := 1, kind := kindMonitor, write := false } = (.trap causeProtection 3, s)) :
    Traps s t th (.mon a m) 4 3 (some (s.readReg th a)) := by
  obtain ⟨f, hexec, -, -⟩ := exec_mon (a := a) (m := m) (.inl h)
  exact traps_here hh _ 4 [a] 4 3 _ (hexec.trans (congrArg _ (access_trap hcheck))) (by decide) (by decide)

theorem check_monitor_own {y : Thread} {off : Nat} (hoff : off + 1 ≤ 2 ^ 17) :
    s.check y (ownVa off) { n := 1, align := 1, kind := kindMonitor, write := false } = (.trap causeProtection 3, s) := by
  obtain ⟨-, hspace, -, -, hok⟩ := ownVa_fields (s := s) (off := off) (by omega)
  exact check_kind (Nat.mod_one _) ((hok _ _).trans (decide_eq_true hoff)) (by rw [hspace]; rfl)

/-! ## MONCLR (R192) -/

/-- The thread with monitor m disarmed, or every one with l set. -/
def disarmed (th : Thread) (l : Bool) (m : BitVec 2) : Thread :=
  if l then { th with mons := Vector.replicate 4 { arm := 0, signal := none } } else th.disarm m.toNat

theorem mons_disarmed (th : Thread) (l : Bool) (m : BitVec 2) (j : Nat) (hj : j < 4) :
    (disarmed th l m).mons[j] = if l = true ∨ j = m.toNat then { arm := 0, signal := none } else th.mons[j] := by
  cases l with
  | true => exact Vector.getElem_replicate ..
  | false =>
    have hm : m.toNat % 4 = m.toNat := Nat.mod_eq_of_lt m.isLt
    show (th.mons.set (m.toNat % 4) { arm := 0, signal := none })[j] = _
    simp only [hm, Vector.getElem_set, Bool.false_eq_true, false_or, eq_comm]

theorem disarmed_completes (th : Thread) (l : Bool) (m : BitVec 2) : let y := (disarmed (th.noted 4 []) l m).advance
    y.x = th.x ∧ GoesOn th y 4 ∧ SameRest th { y with mons := th.mons } := by
  cases th
  cases l <;> exact ⟨rfl, goesOn_advance _ (disarmed _ _ m) 4 rfl rfl rfl rfl rfl, rfl⟩

theorem exec_monclr (h : Issuing s t th) (l : Bool) :
    exec (.monclr l m) s = .next ((withoutArms s t (l || · == m.toNat)).retire t (disarmed (th.noted 4 []) l m)) := by
  show execMonclr l m s = _
  rw [execMonclr, onThread_issuing h]
  rfl

end

theorem monitorArming : MonitorArming := by
  intro s t th a m va arms
  refine ⟨fun pa => gated_mon_global, fun dev => gated_mon_peer, fun h hh hplace => ?_, fun h l => ?_⟩
  · rcases hplace with ⟨off, hva, hoff⟩ | ⟨tile, off, hp⟩ | ⟨dev, hp⟩
    · refine traps_mon h hh ?_
      rw [show s.readReg th a = ownVa off from hva]
      exact check_monitor_own hoff
    · exact traps_mon h hh ((Names.party hp).check_kind (by decide) rfl false 4 [a])
    · exact traps_mon h hh ((Names.peerStash hp).check_kind (by decide) rfl false 4 [a])
  · obtain ⟨hx, hgoes, hrest⟩ := disarmed_completes th l m
    refine ⟨_, _, exec_monclr h l, State.retire_thread? _ _ _, mons_disarmed (th.noted 4 []) l m, fun r => ?_, hx, hgoes, hrest,
      sameShared_setThread (withoutArms s t (l || · == m.toNat)) _ _, fun t' ht => sameOthers_setThread (withoutArms s t (l || · == m.toNat)) t _ t' ht, rfl⟩
    rw [← beq_iff_eq (a := r.m), ← Bool.or_eq_true, ← mem_withoutArms (which := (l || · == m.toNat))]
    rfl

/-! ## MWAIT (R193, R194) -/

section
variable {s : State} {t : Nat} {th : Thread} {a : Reg}

theorem signalled_iff : th.signalled = true ↔ ∃ j, ∃ h : j < 4, th.mons[j].arm ≠ 0 ∧ th.mons[j].signal.isSome = true := by
  simp only [Thread.signalled, List.any_eq_true, Vector.mem_toList_iff, Vector.mem_iff_getElem, Bool.and_eq_true, bne_iff_ne]
  exact ⟨fun ⟨_, ⟨j, hj, rfl⟩, h⟩ => ⟨j, hj, h⟩, fun ⟨j, hj, h⟩ => ⟨_, ⟨j, hj, rfl⟩, h⟩⟩

theorem armed_iff : th.armed = true ↔ ∃ j, ∃ h : j < 4, th.mons[j].arm ≠ 0 := by
  simp only [Thread.armed, List.any_eq_true, Vector.mem_toList_iff, Vector.mem_iff_getElem, bne_iff_ne]
  exact ⟨fun ⟨_, ⟨j, hj, rfl⟩, h⟩ => ⟨j, hj, h⟩, fun ⟨j, hj, h⟩ => ⟨_, ⟨j, hj, rfl⟩, h⟩⟩

theorem le_maxW_left (a b : Word) : a ≤ maxW a b := by
  unfold maxW
  split
  next h => exact h
  next => exact BitVec.le_refl a

/-- The thread with another clock. -/
def clocked (th : Thread) (lts seen : Word) : Thread := { th with lts := lts, ltsSeen := seen }

/-- The clock rises to each signal's time (R194), and nothing else changes. -/
theorem foldl_raise (l : List Monitor) (th : Thread) : ∃ lts seen,
    l.foldl (fun (th : Thread) m => th.raise (m.signal.getD 0)) th = clocked th lts seen ∧ th.lts ≤ lts ∧ ∀ m ∈ l, m.signal.getD 0 ≤ lts := by
  induction l generalizing th with
  | nil => exact ⟨th.lts, th.ltsSeen, rfl, BitVec.le_refl _, fun _ h => absurd h List.not_mem_nil⟩
  | cons m l ih =>
    obtain ⟨lts, seen, hfold, hle, hall⟩ := ih (th.raise (m.signal.getD 0))
    refine ⟨lts, seen, hfold, BitVec.le_trans (le_maxW_left _ _) hle, List.forall_mem_cons.mpr ⟨BitVec.le_trans (le_maxW_right _ _) hle, hall⟩⟩

/-- MONST's low four bits: which monitors have a signal (R194). -/
def signalBits (f : Nat → Bool) : Nat := (List.range 4).foldl (fun v j => v + (if f j then 2 ^ j else 0)) 0

theorem signalBits_spec (f : Nat → Bool) : signalBits f < 16 ∧ ∀ j < 4, (signalBits f).testBit j = f j := by
  have hsum : signalBits f = (if f 0 then 1 else 0) + (if f 1 then 2 else 0) + (if f 2 then 4 else 0) + (if f 3 then 8 else 0) := by
    simp [signalBits, List.range_succ]
  have hcases : ∀ b0 b1 b2 b3 : Bool, let n := (if b0 then 1 else 0) + (if b1 then 2 else 0) + (if b2 then 4 else 0) + (if b3 then 8 else 0)
      n < 16 ∧ n.testBit 0 = b0 ∧ n.testBit 1 = b1 ∧ n.testBit 2 = b2 ∧ n.testBit 3 = b3 := by decide
  obtain ⟨hlt, h0, h1, h2, h3⟩ := hcases (f 0) (f 1) (f 2) (f 3)
  rw [hsum]
  refine ⟨hlt, fun j hj => ?_⟩
  match j, hj with
  | 0, _ => exact h0
  | 1, _ => exact h1
  | 2, _ => exact h2
  | 3, _ => exact h3

/-- MONST after an MWAIT that found signals: their bits, and the bit that says so. -/
theorem monst_now (f : Nat → Bool) : (∀ j < 4, (BitVec.ofNat 64 (signalBits f + 16)).getLsbD j = f j) ∧
    (BitVec.ofNat 64 (signalBits f + 16)).toNat / 16 = 1 := by
  obtain ⟨hlt, hbits⟩ := signalBits_spec f
  refine ⟨fun j hj => ?_, ?_⟩
  · rw [BitVec.getLsbD_ofNat, Nat.add_comm, show 16 = 2 ^ 4 from rfl, Nat.testBit_two_pow_add_gt hj, hbits j hj, decide_eq_true (by omega), Bool.true_and]
  · rw [BitVec.toNat_ofNat]
    omega

/-- Whether a monitor has a signal. -/
def signalAt (th : Thread) (j : Nat) : Bool := (th.mons.toList[j]?).any (fun m => m.signal.isSome)

theorem signalAt_eq (th : Thread) {j : Nat} (hj : j < 4) : signalAt th j = th.mons[j].signal.isSome := by
  rw [signalAt, Vector.getElem?_toList, Vector.getElem?_eq_getElem hj]
  rfl

/-- The thread as it has taken its signals in the cycle of its MWAIT. -/
def consumed (th : Thread) (lts seen : Word) : Thread :=
  { clocked th lts seen with
    monst := BitVec.ofNat 64 (signalBits (signalAt th) + 16)
    mons := th.mons.map (fun m => { m with signal := none }) }

theorem consume_now (th : Thread) : ∃ lts seen, th.consume true false false = consumed th lts seen ∧ th.lts ≤ lts ∧
    ∀ j (h : j < 4) w, th.mons[j].signal = some w → w ≤ lts := by
  obtain ⟨lts, seen, hfold, hle, hall⟩ := foldl_raise th.mons.toList th
  refine ⟨lts, seen, ?_, hle, fun j hj w hw => ?_⟩
  · unfold Thread.consume
    dsimp only
    rw [hfold]
    rfl
  · have hmem := hall th.mons[j] (Vector.mem_toList_iff.mpr (Vector.getElem_mem hj))
    rw [hw] at hmem
    exact hmem

theorem consumed_completes (th : Thread) (lts seen : Word) : let y := (consumed (th.noted 4 [a]) lts seen).advance
    y.x = th.x ∧ GoesOn th y 4 ∧ SameRest th { y with mons := th.mons, monst := th.monst, lts := th.lts, ltsSeen := th.ltsSeen } := by
  cases th
  exact ⟨rfl, goesOn_advance _ (consumed _ lts seen) 4 rfl rfl rfl rfl rfl, rfl⟩

theorem exec_mwait (h : Issuing s t th) : exec (.mwait a) s = .next (
    let n := (s.readReg th a).toNat
    let x := th.noted 4 [a]
    if th.signalled then s.retire t (x.consume true false false)
    else if !th.armed && n = 0 then s.illegalState t x
    else if n = 0 then s.await t x (.monitor none)
    else (s.post (placeOfSlot th.home) noChan (s.clk + n) t (.event (.mwaitTimeout t))).await t x (.monitor (some (s.clk + n)))) := by
  show execMwait a s = _
  rw [execMwait, onThread_issuing h]
  simp only [readReg_noted]
  rfl

theorem exec_sleep (h : Issuing s t th) : exec (.sleep a) s = .next (
    let n := (s.readReg th a).toNat
    if n = 0 then s.retire t (th.noted 4 [a])
    else (s.post (placeOfSlot th.home) noChan (s.clk + n) t (.event (.sleepExpiry t))).await t (th.noted 4 [a]) (.sleep (s.clk + n))) := by
  show execSleep a s = _
  rw [execSleep, onThread_issuing h]
  simp only [readReg_noted]
  rfl

/-- An instruction that leaves the rotation until a step of its own is due waits, and the step stands on the agenda for that cycle. -/
theorem waits_until {i : Instr} {p : Place} {due cur : Nat} {e : Event} {len : Nat} {regs : List Reg} {x : Wait}
    (hexec : exec i s = .next ((s.post p noChan due cur (.event e)).await t (th.noted len regs) x)) :
    Waits s t th i (fun w => w = x) ∧ ∃ u q, exec i s = .next u ∧ u.agenda = s.agenda ++ [q] ∧ q.due = due ∧ q.work = .event e := by
  obtain ⟨hmem, hshared, hothers⟩ := unchanged_setThread (w := s.post p noChan due cur (.event e)) (Prepared.refl s).numbered rfl t
    (awaiting (s.post p noChan due cur (.event e)) (th.noted len regs) x)
  exact ⟨⟨_, _, hexec, State.thread?_setThread_self _ _ _, awaiting_wait .., awaiting_pc .., awaiting_x .., awaiting_issued .., hshared, hothers, hmem⟩,
    _, _, hexec, rfl, by simp, rfl⟩

end

theorem monitorWaits : MonitorWaits := by
  intro s t th a h n held armed
  have hmwait := exec_mwait (a := a) h
  have hsleep := exec_sleep (a := a) h
  dsimp only at hmwait hsleep
  have hquiet : (∀ j, ¬ held j) → ¬ th.signalled = true := fun hnone hsig => (signalled_iff.mp hsig).elim hnone
  refine ⟨fun hheld => ?_, fun hnone harmed hzero => ?_, fun hnone hn => ?_, fun hh hdisarmed hzero => ?_, fun hzero => ?_, fun hn => ?_⟩
  · rw [if_pos (signalled_iff.mpr hheld)] at hmwait
    obtain ⟨lts, seen, hconsume, hle, hall⟩ := consume_now (th.noted 4 [a])
    rw [hconsume] at hmwait
    obtain ⟨hbits, hwhy⟩ := monst_now (signalAt th)
    exact becomes_set _ _ hmwait _ ⟨fun j hj => (hbits j hj).trans (signalAt_eq th hj), hwhy, fun j hj => Vector.getElem_map _ hj, hall, hle,
      consumed_completes th lts seen⟩
  · have harmed' : ¬ (!th.armed && decide ((s.readReg th a).toNat = 0)) = true := by
      rw [armed_iff.mpr harmed]
      exact Bool.false_ne_true
    rw [if_neg (hquiet hnone), if_neg harmed', if_pos hzero] at hmwait
    exact waits_of_await rfl (.refl s) hmwait
  · have hlimit : ¬ (!th.armed && decide ((s.readReg th a).toNat = 0)) = true := by
      rw [decide_eq_false hn, Bool.and_false]
      exact Bool.false_ne_true
    rw [if_neg (hquiet hnone), if_neg hlimit, if_neg hn] at hmwait
    exact waits_until hmwait
  · have hnone : ¬ th.signalled = true := fun hsig => by
      obtain ⟨j, hj, harm, -⟩ := signalled_iff.mp hsig
      exact hdisarmed ⟨j, hj, harm⟩
    have hstuck : (!th.armed && decide ((s.readReg th a).toNat = 0)) = true := by
      rw [Bool.and_eq_true, Bool.not_eq_true', ← Bool.not_eq_true, armed_iff]
      exact ⟨hdisarmed, decide_eq_true hzero⟩
    rw [if_neg hnone, if_pos hstuck] at hmwait
    exact traps_here hh _ 4 [a] 2 0 none hmwait (by decide) (by decide)
  · refine fallsThrough_of_retire h (show exec (.sleep a) s = execSleep a s from rfl) ?_
    dsimp only
    rw [readReg_noted]
    exact if_pos hzero
  · rw [if_neg hn] at hsleep
    exact waits_until hsleep

/-- Settles O27: MON is an access that comes to the gate and posts its arm, MWAIT and SLEEP are chains of checks, and what waits has its end on
the agenda. -/
theorem monitorOutcomes : Obligations.MonitorOutcomes := ⟨monitorArming, monitorWaits⟩

end Sys2Proof.Proofs
end

