-- ==== Sys2Proof/Proofs/FullEmptyWords.lean ====
section
/-!
PROOFS. The full-empty instructions on a resident word of the own stash (R182 to R186).
-/

namespace Sys2Proof.Proofs

open Sys2Proof Sys2Proof.Machine Sys2Proof.Claims

/-! ## The line after a full-empty operation (R183, R184) -/

/-- What the statement lets an operation change of the device: the line is l', and threads, shared registers, the park table and the home lines are
as they were. -/
structure LineBecomes (s v : State) (tile off : Nat) (l' : StashLine) : Prop where
  line    : v.stashLine? tile (off / 128) = some l'
  threads : v.threads = s.threads
  banks   : v.banks = s.banks
  park    : (v.tile tile).park = (s.tile tile).park
  lines   : v.lines = s.lines

section
variable {s v w : State} {tile off : Nat} {l l' : StashLine}

theorem LineBecomes.refl (hl : s.stashLine? tile (off / 128) = some l) : LineBecomes s s tile off l := ⟨hl, rfl, rfl, rfl, rfl⟩

/-- What changes nothing of this keeps it. -/
theorem LineBecomes.congr (h : LineBecomes s v tile off l) (hstash : w.stash = v.stash) (hguests : w.guests = v.guests) (hthreads : w.threads = v.threads)
    (hbanks : w.banks = v.banks) (hpark : (w.tile tile).park = (v.tile tile).park) (hlines : w.lines = v.lines) : LineBecomes s w tile off l :=
  ⟨(stashLine?_congr hstash hguests ..).trans h.line, hthreads.trans h.threads, hbanks.trans h.banks, hpark.trans h.park, hlines.trans h.lines⟩

theorem LineBecomes.messages (h : LineBecomes s v tile off l) (hw : MessagesOnly v w) : LineBecomes s w tile off l := by
  obtain ⟨hthreads, hbanks, -, hstash, htiles, hguests, -⟩ := hw.unchanged
  have hlines := congrArg State.lines hw
  exact h.congr hstash hguests hthreads hbanks (congrArg Tile.park (tile_congr htiles tile)) hlines

theorem messagesOnly_stashSignal (s : State) (tile off : Nat) : MessagesOnly s (s.stashSignal tile off) := by
  unfold State.stashSignal
  split
  · exact messagesOnly_signal _ _ _ _
  · rfl

/-- A change of the line that leaves it to its guest and generation. -/
theorem LineBecomes.modStashLine (h : LineBecomes s v tile off l) (f : StashLine → StashLine) (hguest : (f l).guest = l.guest) (hgen : (f l).gen = l.gen) :
    LineBecomes s (v.modStashLine tile off f) tile off (f l) ∧ (v.modStashLine tile off f).mem = v.mem := by
  have hmod : v.modStashLine tile off f = v.setStashLine tile (off / 128) (f l) := by
    unfold State.modStashLine
    rw [h.line]
  have hlives : v.lineLives l = true := by
    have hline := h.line
    unfold State.stashLine? at hline
    exact (Option.filter_eq_some_iff.mp hline).2
  have hlives' : v.lineLives (f l) = true := by
    rw [← hlives]
    simp only [State.lineLives, hguest, hgen]
  rw [hmod]
  refine ⟨⟨?_, h.threads, h.banks, h.park, h.lines⟩, rfl⟩
  unfold State.stashLine?
  rw [show (v.setStashLine tile (off / 128) (f l)).stash = KMap.set v.stash (tile * 1024 + off / 128) (f l) from rfl, KMap.get?_set_self]
  exact Option.filter_eq_some_iff.mpr ⟨rfl, hlives'⟩

/-- The word becomes empty. -/
theorem lineBecomes_empty8 (hl : s.stashLine? tile (off / 128) = some l) :
    LineBecomes s (s.empty8 tile off) tile off (emptied l (off % 128 / 8)) ∧ (s.empty8 tile off).mem = s.mem := by
  obtain ⟨hline, hmem⟩ := (LineBecomes.refl hl).modStashLine
    (fun l => { l with dirty := true, fe := if false then l.fe ||| (1 : BitVec 16) <<< feBit off else l.fe &&& ~~~((1 : BitVec 16) <<< feBit off) }) rfl rfl
  have hsignal := messagesOnly_stashSignal (s.setFull tile off false) tile off
  obtain ⟨-, -, hmem', -⟩ := hsignal.unchanged
  exact ⟨hline.messages hsignal, hmem'.trans hmem⟩

/-- The word's bit is set, with the stamp raised to a time (R183). -/
theorem lineBecomes_filled (hl : s.stashLine? tile (off / 128) = some l) (c : Word) :
    let v := (s.raiseStamp tile off c).setFull tile off true
    LineBecomes s v tile off (filled l (off % 128 / 8) (later l.stamp c)) ∧ v.mem = s.mem := by
  obtain ⟨hstamp, hmem⟩ := (LineBecomes.refl hl).modStashLine (fun l => { l with stamp := maxW l.stamp c }) rfl rfl
  obtain ⟨hfull, hmem'⟩ := hstamp.modStashLine
    (fun l => { l with dirty := true, fe := if true then l.fe ||| (1 : BitVec 16) <<< feBit off else l.fe &&& ~~~((1 : BitVec 16) <<< feBit off) }) rfl rfl
  exact ⟨hfull, hmem'.trans hmem⟩

/-- FESET sets the bit and leaves the word's value. -/
theorem lineBecomes_feset (hl : s.stashLine? tile (off / 128) = some l) (c : Word) :
    let v := ((s.raiseStamp tile off c).setFull tile off true).stashSignal tile off
    LineBecomes s v tile off (filled l (off % 128 / 8) (later l.stamp c)) ∧ v.mem = s.mem := by
  obtain ⟨hline, hmem⟩ := lineBecomes_filled hl c
  have hsignal := messagesOnly_stashSignal ((s.raiseStamp tile off c).setFull tile off true) tile off
  obtain ⟨-, -, hmem', -⟩ := hsignal.unchanged
  exact ⟨hline.messages hsignal, hmem'.trans hmem⟩

/-- The word becomes full with a value. -/
theorem lineBecomes_fill8 (hl : s.stashLine? tile (off / 128) = some l) (x c : Word) :
    LineBecomes s (s.fill8 tile off x c) tile off (filled l (off % 128 / 8) (later l.stamp c)) ∧
      (s.fill8 tile off x c).mem = Memory.writeN s.mem (stashKey tile off) (bytesOf x.toNat 8) := by
  obtain ⟨hline, hmem⟩ := lineBecomes_filled hl c
  have hwrite := stashWrite_eq hline.line (bytesOf x.toNat 8)
  obtain ⟨-, -, hmem', -⟩ := hwrite.unchanged
  have hput : LineBecomes s (bytesPut ((s.raiseStamp tile off c).setFull tile off true) tile off (bytesOf x.toNat 8)
      { filled l (off % 128 / 8) (later l.stamp c) with dirty := true }) tile off (filled l (off % 128 / 8) (later l.stamp c)) :=
    ⟨stashLine?_bytesPut hline.line _, hline.threads, hline.banks, hline.park, hline.lines⟩
  exact ⟨hput.messages hwrite, hmem'.trans (congrArg (Memory.writeN · _ _) hmem)⟩

theorem isFull_eq (hl : s.stashLine? tile (off / 128) = some l) : s.isFull tile off = l.fe.getLsbD (off % 128 / 8) := by
  unfold State.isFull
  rw [hl]
  rfl

/-- The full-empty operations on a resident line that no format region stands behind, by the word's bit (R184). -/
theorem applyStash_fullEmpty (hl : s.stashLine? tile (off / 128) = some l) (hregion : s.regionAt (l.line * 128) = none) (x c va : Word) :
    let word := BitVec.ofNat 64 (numberAt s (stashKey tile off) 8)
    let full := l.fe.getLsbD (off % 128 / 8)
    s.applyStash tile off .ldf c va = (if full then (.done word true, s.empty8 tile off) else (.park, s)) ∧
    s.applyStash tile off (.stf x) c va = (if full then (.park, s) else (.done 0 true, s.fill8 tile off x c)) ∧
    s.applyStash tile off .ldfn c va = (if full then (.done word true, s.empty8 tile off) else (.done 0 false, s)) ∧
    s.applyStash tile off (.stfn x) c va = (if full then (.done 0 false, s) else (.done 0 true, s.fill8 tile off x c)) ∧
    s.applyStash tile off .feset c va = (if full then (.done 0 true, s)
      else (.done 0 true, ((s.raiseStamp tile off c).setFull tile off true).stashSignal tile off)) ∧
    s.applyStash tile off .feclr c va = (if full then (.done 0 true, s.empty8 tile off) else (.done 0 true, s)) := by
  refine ⟨?_, ?_, ?_, ?_, ?_, ?_⟩ <;>
  · unfold State.applyStash
    dsimp only
    rw [hl, isFull_eq hl]
    exact if_neg (not_refused hregion _)

/-! ## A guard resolves (R196, R197) -/

theorem park_modTile (s : State) (n k : Nat) (f : Tile → Tile) (hf : ∀ x, (f x).park = x.park) : ((s.modTile n f).tile k).park = (s.tile k).park := by
  rw [State.modTile, State.tile_setTile]
  split
  next h => rw [hf, h]
  next => rfl

theorem park_setQueue (x : Tile) (copy : Bool) (q : List Cmd) : (x.setQueue copy q).park = x.park := by
  cases copy <;> rfl

theorem park_dropQueued (s : State) (n : Nat) (copy : Bool) (keep : Cmd → Bool) (k : Nat) : ((s.dropQueued n copy keep).tile k).park = (s.tile k).park := by
  unfold State.dropQueued
  dsimp only
  split
  · rfl
  · rw [(delivers_letIn _ _ _ _).tile, park_modTile _ _ _ _ (fun x => park_setQueue x _ _)]

/-- What a guard's resolution changes is the queues of its tile, and what is due. -/
theorem queuesOnly_resolve (s : State) (t : Nat) (y : Thread) (q : BitVec 3) (b : Bool) : QueuesOnly s (s.resolve t y q b).1 := by
  cases b with
  | true => rfl
  | false => exact queuesOnly_resolve_false s t y q

theorem park_resolve (s : State) (t : Nat) (y : Thread) (q : BitVec 3) (b : Bool) (k : Nat) : ((s.resolve t y q b).1.tile k).park = (s.tile k).park := by
  cases b with
  | true =>
    have hissued : (s.resolve t y q true).1 = s.modTile (tileOf y.home) (fun x =>
      { x with mqueue := issueHeld t q x.mqueue, cqueue := issueHeld t q x.cqueue }) := rfl
    rw [hissued]
    exact park_modTile _ _ _ _ (fun _ => rfl)
  | false => exact (park_dropQueued _ _ _ _ k).trans (park_dropQueued _ _ _ _ k)

theorem LineBecomes.resolve (h : LineBecomes s v tile off l) (t : Nat) (y : Thread) (q : BitVec 3) (b : Bool) :
    LineBecomes s (v.resolve t y q b).1 tile off l ∧ (v.resolve t y q b).1.mem = v.mem := by
  have hqueues := queuesOnly_resolve v t y q b
  obtain ⟨hthreads, hbanks, hmem⟩ := hqueues.unchanged
  have hstash := congrArg State.stash hqueues
  have hguests := congrArg State.guests hqueues
  have hlines := congrArg State.lines hqueues
  exact ⟨h.congr hstash hguests hthreads hbanks (park_resolve v t y q b tile) hlines, hmem⟩

end

/-! ## An access that is applied at once -/

/-- The thread of a full-empty instruction as it completes: its clock raised to a stamp, and its guards. -/
def feThread (th : Thread) (regs : List Reg) (stamp : Word) (q : Vector Guard 8) : Thread :=
  { th.noted 4 regs with lts := maxW th.lts stamp, ltsSeen := maxW th.ltsSeen stamp, q := q }

theorem feThread_completes (th : Thread) (regs : List Reg) (stamp : Word) (q : Vector Guard 8) (x : Vector Word 32) :
    let y := (withX (feThread th regs stamp q) x).advance
    y.x = x ∧ y.q = q ∧ y.lts = later th.lts stamp ∧ GoesOn th y 4 ∧ SameRest th { y with lts := th.lts, ltsSeen := th.ltsSeen, q := th.q } := by
  cases th
  exact ⟨rfl, rfl, rfl, goesOn_advance _ (withX (feThread _ regs stamp q) x) 4 rfl rfl rfl rfl rfl, rfl⟩

section
variable {s w : State} {t : Nat} {th : Thread} {i : Instr} {regs : List Reg} {off : Nat} {l : StashLine} {q : Vector Guard 8}
  {guard : Option (BitVec 3 × Guard)} {stored : State → Prop}

/-- What the statement says of the guards. -/
def GuardsAre (th : Thread) (guard : Option (BitVec 3 × Guard)) (q : Vector Guard 8) : Prop :=
  match guard with
  | some (k, v) => q = th.q.set k.toNat v
  | none => q = th.q

theorem feDone_of_retire (hpark : ∀ p ∈ (s.tile (tileOf th.home)).park, p.off ≠ off)
    (hexec : exec i s = .next ((w.retire t (feThread th regs l.stamp q)).drain (tileOf th.home) off)) (hw : LineBecomes s w (tileOf th.home) off l)
    (hq : GuardsAre th guard q) (hstored : stored (w.retire t (feThread th regs l.stamp q))) : FeDone s t th i none guard (off / 128) l stored := by
  obtain ⟨hx, hguards, hlts, hgoes, hrest⟩ := feThread_completes th regs l.stamp q th.x
  rw [drain_retire (by rw [hw.park]; exact hpark)] at hexec
  refine ⟨_, _, hexec, State.retire_thread? _ _ _, ⟨hx, fun c g k => ?_⟩, ?_, hw.line, hstored, hlts, hgoes, hrest, fun t' ht => ?_, hw.park, hw.lines⟩
  · show (w.bank c g)[k.toNat] = (s.bank c g)[k.toNat]
    simp only [State.bank, hw.banks]
  · cases guard <;> exact hq
  · exact (sameOthers_setThread w t _ t' ht).trans (congrArg (KMap.get? · t') hw.threads)

theorem feDone_of_result (hissue : th.replay = false) (hpark : ∀ p ∈ (s.tile (tileOf th.home)).park, p.off ≠ off) {d : Reg} {v : Word}
    (hexec : exec i s = .next ((w.result t (feThread th regs l.stamp q) d v).drain (tileOf th.home) off)) (hw : LineBecomes s w (tileOf th.home) off l)
    (hq : GuardsAre th guard q) (hstored : ∀ u, u.mem = w.mem → stored u) : FeDone s t th i (some (d, v)) guard (off / 128) l stored := by
  have hreads : ∀ y r, w.readReg y r = s.readReg y r := fun y r => State.readReg_congr rfl rfl rfl rfl rfl hw.banks r
  obtain ⟨x, hth, hd, hregs, hshared, hothers, hdevice⟩ := result_withX (s := w) (t := t) (th := th) (y := feThread th regs l.stamp q) hissue rfl rfl
    (fun r => State.readReg_congr rfl rfl rfl rfl rfl rfl r) d v
  obtain ⟨-, hguards, hlts, hgoes, hrest⟩ := feThread_completes th regs l.stamp q x
  rw [drain_of_unparked (by rw [tile_congr (tiles_result ..), hw.park]; exact hpark)] at hexec
  generalize w.result t (feThread th regs l.stamp q) d v = u at *
  have hmem := congrArg State.mem hdevice
  have hstash := congrArg State.stash hdevice
  have hguests := congrArg State.guests hdevice
  have htiles := congrArg State.tiles hdevice
  have hlines := congrArg State.lines hdevice
  refine ⟨u, _, hexec, hth, ⟨hd, fun r hr => (hregs r hr).trans (hreads th r), fun c g k => ?_⟩, ?_, (stashLine?_congr hstash hguests ..).trans hw.line,
    hstored u hmem, hlts, hgoes, hrest, fun t' ht => (hothers t' ht).trans (congrArg (KMap.get? · t') hw.threads),
    (congrArg Tile.park (tile_congr htiles _)).trans hw.park, hlines.trans hw.lines⟩
  · exact (hshared c g k).imp_right (fun hk => hk.trans (by simp only [State.kread, State.bank, hw.banks]))
  · cases guard <;> exact hguards.trans hq

/-- LDFN and STFN set their guard as they end; LDFN's d takes the word where it was full (R184). -/
theorem feStatus_result (s : State) (t : Nat) (th : Thread) (regs : List Reg) (c : Word) (d : Reg) (k : BitVec 3) (v : Word) :
    s.feStatus t (feThread th regs c th.q) (some d) k v true false =
      (s.resolve t (feThread th regs c th.q) k true).1.result t (feThread th regs c (th.q.set k.toNat .tt)) d v := rfl

theorem feStatus_retire (s : State) (t : Nat) (th : Thread) (regs : List Reg) (c : Word) {d : Option Reg} (k : BitVec 3) (v : Word) {ok : Bool}
    (h : d = none ∨ ok = false) :
    s.feStatus t (feThread th regs c th.q) d k v ok false =
      (s.resolve t (feThread th regs c th.q) k ok).1.retire t (feThread th regs c (th.q.set k.toNat (if ok then .tt else .ff))) := by
  cases d with
  | none => rfl
  | some d =>
    obtain rfl : ok = false := h.resolve_left (Option.some_ne_none d)
    rfl

end

/-! ## The access to the own stash -/

section
variable {s v : State} {t : Nat} {th : Thread} {i : Instr} {va : Word} {off : Nat} {l l' : StashLine} {what : StashOp}

/-- A full-empty access to aligned bytes of a resident line of the own stash, with no operation in its way, goes on to that word. -/
theorem feAccess_own (hline : OwnLine s th va 8 off l) (hclear : Clear s t th (.own off) va 8) (len : Nat) (regs : List Reg)
    (f : State → Thread → Target → State) : s.feAccess t (th.noted len regs) i va f = f s (th.noted len regs) (.own off) := by
  have hspace : s.spaceOf va = .own := by
    obtain ⟨hva, hbound, -⟩ := hline
    exact hva ▸ spaceOf_own (address_fields (base := 0x80) (off := off) (by decide) (by omega)).2.1
  have hcheck := (check_congr_kind (kind := kindData) (kind' := kindStash) (by rw [hspace]; rfl)).trans (check_own hline dvd_rfl len regs true)
  unfold State.feAccess State.access
  rw [hcheck]
  exact if_neg (not_alias (unaliased_of_clear hclear) len regs)

/-- It carries the clock of its issue (R183). -/
theorem clockFor_issuing (hissue : th.replay = false) (len : Nat) (regs : List Reg) (what : StashOp) : (th.noted len regs).clockFor what = th.lts := by
  have hclock : (th.noted len regs).clock = th.lts := if_neg (show ¬ th.replay = true from hissue ▸ Bool.false_ne_true)
  cases what with
  | publish => rfl
  | _ => exact hclock

theorem ownAccess_applied (hissue : th.replay = false) (hline : OwnLine s th va 8 off l) {old : Word} {ok : Bool}
    (happly : s.applyStash (tileOf th.home) off what th.lts va = (.done old ok, v)) (hv : LineBecomes s v (tileOf th.home) off l') (regs : List Reg)
    (f : State → Thread → Word → Bool → State) (park : State → Thread → State) :
    s.ownAccess t (th.noted 4 regs) i off va what f park = (f v (feThread th regs l'.stamp th.q) old ok).drain (tileOf th.home) off := by
  obtain ⟨-, -, -, hl, -, hsound, -, -⟩ := hline
  rw [← clockFor_issuing hissue 4 regs what] at happly
  refine (ownAccess_done (y := th.noted 4 regs) hl hsound happly).trans ?_
  rw [show (th.noted 4 regs).home = th.home from rfl, stampOf_eq hv.line]
  rfl

/-- The request of a thread that parks at its own tile. -/
def parked (s : State) (t : Nat) (y : Thread) (off : Nat) (va : Word) (what : StashOp) : Parked :=
  { off := off, req := stashReqOf t y s.nextRid 0 (tileOf y.home) off va what true }

/-- The machine with it in the park table. -/
def withParked (s : State) (t : Nat) (y : Thread) (off : Nat) (va : Word) (what : StashOp) : State :=
  ({ s with nextRid := s.nextRid + 1 } : State).modTile (tileOf y.home) (fun x => { x with park := x.park ++ [parked s t y off va what] })

theorem parkOwn_eq {y : Thread} (hroom : (s.tile (tileOf y.home)).park.length < 64) (d : Option Reg) :
    s.parkOwn t y off va what d = (withParked s t y off va what).await t y (.fullEmpty s.nextRid d va) := by
  have hfree : ¬ ({ s with nextRid := s.nextRid + 1 } : State).parkFull (tileOf y.home) = true := fun h => Nat.not_le.mpr hroom (of_decide_eq_true h)
  exact congrArg (State.await · t y (.fullEmpty s.nextRid d va)) (if_neg hfree)

theorem ownAccess_parked (hissue : th.replay = false) (hline : OwnLine s th va 8 off l)
    (happly : s.applyStash (tileOf th.home) off what th.lts va = (.park, s)) (regs : List Reg) (f : State → Thread → Word → Bool → State)
    (park : State → Thread → State) : s.ownAccess t (th.noted 4 regs) i off va what f park = park s (th.noted 4 regs) := by
  obtain ⟨-, -, -, hl, -, hsound, -, -⟩ := hline
  rw [← clockFor_issuing hissue 4 regs what] at happly
  unfold State.ownAccess State.resident
  dsimp only
  rw [show (th.noted 4 regs).home = th.home from rfl, hl]
  dsimp only
  rw [hsound, happly]
  rfl

/-- A request that does not find its word as it needs it parks (R184, R185). -/
theorem feParks_of_parkOwn (hissue : th.replay = false) (hline : OwnLine s th va 8 off l) (hroom : (s.tile (tileOf th.home)).park.length < 64)
    (happly : s.applyStash (tileOf th.home) off what th.lts va = (.park, s)) {regs : List Reg} {d : Option Reg}
    {f : State → Thread → Word → Bool → State}
    (hexec : exec i s = .next (s.ownAccess t (th.noted 4 regs) i off va what f (fun u y => u.parkOwn t y off va what d))) :
    FeParks s t th i d va off what := by
  rw [ownAccess_parked hissue hline happly, parkOwn_eq (y := th.noted 4 regs) hroom] at hexec
  obtain ⟨hmem, hshared, hothers⟩ := unchanged_setThread (s := s) (v := withParked s t (th.noted 4 regs) off va what) rfl rfl t
    (awaiting (withParked s t (th.noted 4 regs) off va what) (th.noted 4 regs) (.fullEmpty s.nextRid d va))
  have htile : (withParked s t (th.noted 4 regs) off va what).tile (tileOf th.home) =
    { s.tile (tileOf th.home) with park := (s.tile (tileOf th.home)).park ++ [parked s t (th.noted 4 regs) off va what] } := tile_modTile_self ..
  exact ⟨_, _, s.nextRid, parked s t (th.noted 4 regs) off va what, hexec, State.thread?_setThread_self _ _ _, awaiting_wait .., congrArg Tile.park htile,
    rfl, rfl, rfl, rfl, awaiting_pc .., awaiting_x .., hmem, rfl, hshared, hothers⟩

end

/-! ## The instructions, where their word lies in a resident line of the own stash -/

section
variable {s : State} {t : Nat} {th : Thread} {d a b : Reg} {m : BitVec 10} {q : BitVec 3} {off : Nat} {l : StashLine}

theorem exec_ldf_own (h : Issuing s t th) (hline : OwnLine s th (addrOf s th a m) 8 off l) (hclear : Clear s t th (.own off) (addrOf s th a m) 8) :
    exec (.ldf d a m) s = .next (s.ownAccess t (th.noted 4 [d, a]) (.ldf d a m) off (addrOf s th a m) .ldf (fun s th v _ => s.result t th d v)
      (fun u y => u.parkOwn t y off (addrOf s th a m) .ldf (some d))) := by
  show execLdf d a m s = _
  rw [execLdf, onThread_issuing h, addrM_noted]
  exact congrArg _ (feAccess_own hline hclear 4 [d, a] _)

theorem exec_stf_own (h : Issuing s t th) (hline : OwnLine s th (addrOf s th a m) 8 off l) (hclear : Clear s t th (.own off) (addrOf s th a m) 8) :
    exec (.stf d a m) s = .next (s.ownAccess t (th.noted 4 [d, a]) (.stf d a m) off (addrOf s th a m) (.stf (s.readReg th d)) (fun s th _ _ => s.retire t th)
      (fun u y => u.parkOwn t y off (addrOf s th a m) (.stf (s.readReg th d)) none)) := by
  show execStf d a m s = _
  rw [execStf, onThread_issuing h, addrM_noted, readReg_noted]
  exact congrArg _ (feAccess_own hline hclear 4 [d, a] _)

theorem exec_setBit_own (h : Issuing s t th) {i : Instr} {what : StashOp} (he : exec i s = setBit i a m what s)
    (hline : OwnLine s th (addrOf s th a m) 8 off l) (hclear : Clear s t th (.own off) (addrOf s th a m) 8) :
    exec i s = .next (s.ownAccess t (th.noted 4 [a]) i off (addrOf s th a m) what (fun s th _ _ => s.retire t th) (fun s th => s.setThread t th)) := by
  rw [he, setBit, onThread_issuing h, addrM_noted]
  exact congrArg _ (feAccess_own hline hclear ..)

theorem exec_ldfn_own (h : Issuing s t th) (hline : OwnLine s th (s.readReg th a) 8 off l) (hclear : Clear s t th (.own off) (s.readReg th a) 8) :
    exec (.ldfn d a q) s = .next (s.ownAccess t (th.noted 4 [d, a]) (.ldfn d a q) off (s.readReg th a) .ldfn
      (fun s th v ok => s.feStatus t th (some d) q v ok false) (fun s th => s.setThread t th)) := by
  show execLdfn d a q s = _
  rw [execLdfn, onThread_issuing h, readReg_noted]
  exact congrArg _ (feAccess_own hline hclear ..)

theorem exec_stfn_own (h : Issuing s t th) (hline : OwnLine s th (s.readReg th a) 8 off l) (hclear : Clear s t th (.own off) (s.readReg th a) 8) :
    exec (.stfn a b q) s = .next (s.ownAccess t (th.noted 4 [a, b]) (.stfn a b q) off (s.readReg th a) (.stfn (s.readReg th b))
      (fun s th _ ok => s.feStatus t th none q 0 ok false) (fun s th => s.setThread t th)) := by
  show execStfn a b q s = _
  rw [execStfn, onThread_issuing h, readReg_noted, readReg_noted]
  exact congrArg _ (feAccess_own hline hclear ..)

/-! ## What they leave -/

/-- An instruction that retires its thread once its operation is applied: STF, FESET and FECLR. -/
theorem feDone_applied (h : Issuing s t th) {va : Word} (hat : OwnAt s th va 8 off l) {i : Instr} {what : StashOp} {regs : List Reg}
    {park : State → Thread → State}
    (hexec : exec i s = .next (s.ownAccess t (th.noted 4 regs) i off va what (fun s th _ _ => s.retire t th) park)) {v : State} {old : Word} {ok : Bool}
    {l' : StashLine} {stored : State → Prop} (happly : s.applyStash (tileOf th.home) off what th.lts va = (.done old ok, v))
    (hv : LineBecomes s v (tileOf th.home) off l') (hstored : ∀ u, u.mem = v.mem → stored u) : FeDone s t th i none none (off / 128) l' stored := by
  obtain ⟨hline, hpark⟩ := hat
  exact feDone_of_retire hpark (hexec.trans (congrArg _ (ownAccess_applied (replay_of_issuing h) hline happly hv regs _ _))) hv rfl (hstored _ rfl)

/-- One that sets its guard and writes no register: STFN, and LDFN of an empty word. -/
theorem feDone_status (h : Issuing s t th) {va : Word} (hat : OwnAt s th va 8 off l) {i : Instr} {what : StashOp} {regs : List Reg} {d : Option Reg}
    {park : State → Thread → State} {f : State → Thread → Word → Bool → State}
    (hexec : exec i s = .next (s.ownAccess t (th.noted 4 regs) i off va what f park)) {v : State} {old : Word} {ok : Bool} {l' : StashLine}
    {stored : State → Prop} (hf : ∃ x, f v (feThread th regs l'.stamp th.q) old ok = v.feStatus t (feThread th regs l'.stamp th.q) d q x ok false)
    (hd : d = none ∨ ok = false) (happly : s.applyStash (tileOf th.home) off what th.lts va = (.done old ok, v))
    (hv : LineBecomes s v (tileOf th.home) off l') (hstored : ∀ u, u.mem = v.mem → stored u) :
    FeDone s t th i none (some (q, if ok then .tt else .ff)) (off / 128) l' stored := by
  obtain ⟨hline, hpark⟩ := hat
  obtain ⟨x, hf⟩ := hf
  obtain ⟨hresolved, hmem⟩ := hv.resolve t (feThread th regs l'.stamp th.q) q ok
  have hrun := hexec.trans (congrArg _ (ownAccess_applied (replay_of_issuing h) hline happly hv regs f park))
  rw [hf, feStatus_retire v t th regs l'.stamp q x hd] at hrun
  exact feDone_of_retire hpark hrun hresolved rfl (hstored _ hmem)

end

/-- Settles O26: each instruction is one access to its word, whose bit says whether it is applied, refused, or parks. -/
theorem fullEmptyOutcomes : Obligations.FullEmptyOutcomes := by
  intro s t th d a b m q off l h key word i idx full same set room hregion
  have hissue := replay_of_issuing h
  refine ⟨fun hat hclear => ?_, fun hat hclear => ?_⟩
  · obtain ⟨hline, hpark⟩ := id hat
    obtain ⟨-, -, -, hl, -⟩ := id hline
    obtain ⟨hldf, hstf, -, -, hfeset, hfeclr⟩ := applyStash_fullEmpty hl hregion (s.readReg th d) th.lts (addrOf s th a m)
    obtain ⟨hempty, hkept⟩ := lineBecomes_empty8 hl
    obtain ⟨hfill, hwrites⟩ := lineBecomes_fill8 hl (s.readReg th d) th.lts
    obtain ⟨hset, hkept'⟩ := lineBecomes_feset hl th.lts
    have hclears := exec_setBit_own h (show exec (.feclr a m) s = execFeclr a m s from rfl) hline hclear
    have hsets := exec_setBit_own h (show exec (.feset a m) s = execFeset a m s from rfl) hline hclear
    refine ⟨fun hfull => ?_, fun hfull hroom => ?_, fun hfull hroom => ?_, fun hfull => ?_, fun hfull => ?_, fun hfull => ?_,
      fun hfull => ?_, fun hfull => ?_⟩
    · have hrun := (exec_ldf_own (d := d) h hline hclear).trans (congrArg _ (ownAccess_applied hissue hline (hldf.trans (if_pos hfull)) hempty _ _ _))
      exact feDone_of_result hissue hpark hrun hempty rfl (fun u hu => hu.trans hkept)
    · exact feParks_of_parkOwn hissue hline hroom (hldf.trans (if_neg hfull)) (exec_ldf_own h hline hclear)
    · exact feParks_of_parkOwn hissue hline hroom (hstf.trans (if_pos hfull)) (exec_stf_own h hline hclear)
    · exact feDone_applied h hat (exec_stf_own h hline hclear) (hstf.trans (if_neg hfull)) hfill (fun u hu => stored_writeMem (hu.trans hwrites))
    · exact feDone_applied h hat hclears (hfeclr.trans (if_pos hfull)) hempty (fun u hu => hu.trans hkept)
    · exact feDone_applied h hat hclears (hfeclr.trans (if_neg hfull)) (.refl hl) (fun u hu => hu)
    · exact feDone_applied h hat hsets (hfeset.trans (if_pos hfull)) (.refl hl) (fun u hu => hu)
    · exact feDone_applied h hat hsets (hfeset.trans (if_neg hfull)) hset (fun u hu => hu.trans hkept')
  · obtain ⟨hline, hpark⟩ := id hat
    obtain ⟨-, -, -, hl, -⟩ := id hline
    obtain ⟨-, -, hldfn, hstfn, -, -⟩ := applyStash_fullEmpty hl hregion (s.readReg th b) th.lts (s.readReg th a)
    obtain ⟨hempty, hkept⟩ := lineBecomes_empty8 hl
    obtain ⟨hfill, hwrites⟩ := lineBecomes_fill8 hl (s.readReg th b) th.lts
    refine ⟨fun hfull => ?_, fun hfull => ?_, fun hfull => ?_, fun hfull => ?_⟩
    · have hrun := (exec_ldfn_own (d := d) (q := q) h hline hclear).trans
        (congrArg _ (ownAccess_applied hissue hline (hldfn.trans (if_pos hfull)) hempty _ _ _))
      obtain ⟨hresolved, hmem⟩ := hempty.resolve t (feThread th [d, a] l.stamp th.q) q true
      rw [feStatus_result] at hrun
      exact feDone_of_result hissue hpark hrun hresolved rfl (fun u hu => hu.trans (hmem.trans hkept))
    · exact feDone_status h hat (exec_ldfn_own h hline hclear) ⟨_, rfl⟩ (.inr rfl) (hldfn.trans (if_neg hfull)) (.refl hl) (fun u hu => hu)
    · exact feDone_status h hat (exec_stfn_own h hline hclear) ⟨_, rfl⟩ (.inl rfl) (hstfn.trans (if_pos hfull)) (.refl hl) (fun u hu => hu)
    · exact feDone_status h hat (exec_stfn_own h hline hclear) ⟨_, rfl⟩ (.inl rfl) (hstfn.trans (if_neg hfull)) hfill
        (fun u hu => stored_writeMem (hu.trans hwrites))

end Sys2Proof.Proofs
end
